-- ==== Sys2Proof/Word.lean ====
section
/-! DEFINITION. The words of the machine: bytes, 64-bit words and the plain names for them (00 R5, 03 R57). -/

namespace Sys2Proof

/-- A byte of a memory or of a register space. -/
abbrev Byte := BitVec 8

/-- A 64-bit word: an instruction word, an address, PC, LINK and the like. -/
abbrev Word := BitVec 64

/-- A sparse table: keys strictly rising, no entry that equals what an absent key reads as. -/
abbrev SMap (α : Type) := List (Nat × α)

end Sys2Proof
end

