-- ==== Sys2Proof/Syntax.lean ====
section
/-! DEFINITION. The instruction forms and device steps of spec/opcode_table.json, one constructor of `Instr` per row.

An instruction form carries the fields of its format as 03 R64 and R68 lay them out; which values a form
admits is `WellFormed`. A device step (an engine's or the host's move, 95) carries what singles it out. -/

namespace Sys2Proof

/-- A register operand: view in [9:8], element index in [7:0] (03 R70). -/
abbrev RegOp := BitVec 10

/-- Bits [63:44] without the opcode (03 R64): guard [54:50], stall count or scope and order [49:46],
run-end [45], uniform [44]. -/
structure Ctl where
  guard : BitVec 5
  mid : BitVec 4
  runEnd : Bool
  uni : Bool
  deriving DecidableEq, Repr

/-- Guard enable, bit [54]. -/
def Ctl.guarded (c : Ctl) : Bool := c.guard.getLsbD 4
/-- Guard negate, bit [53]. -/
def Ctl.negated (c : Ctl) : Bool := c.guard.getLsbD 3
/-- Guard depth, bits [52:50]. -/
def Ctl.depth (c : Ctl) : Nat := (c.guard.extractLsb' 0 3).toNat
/-- Stall count of formats R, I, F, C, S and T. -/
def Ctl.stall (c : Ctl) : Nat := c.mid.toNat
/-- Scope of formats M and X, bits [49:47]. -/
def Ctl.scope (c : Ctl) : BitVec 3 := c.mid.extractLsb' 1 3
/-- Order or flag bit of formats M and X, bit [46]. -/
def Ctl.flag (c : Ctl) : Bool := c.mid.getLsbD 0

/-- Format R (03 R68): the source modifier of R73 acts on b. -/
structure FmtR where
  ctl : Ctl
  dst : RegOp
  a : RegOp
  b : RegOp
  mod : BitVec 12
  sub : BitVec 2
  deriving DecidableEq, Repr

/-- Format I (03 R68). -/
structure FmtI where
  ctl : Ctl
  dst : RegOp
  a : RegOp
  imm : BitVec 24
  deriving DecidableEq, Repr

/-- Format F (03 R68). -/
structure FmtF where
  ctl : Ctl
  dst : RegOp
  a : RegOp
  b : RegOp
  c : RegOp
  sub : BitVec 4
  deriving DecidableEq, Repr

/-- Format M (03 R68): data register, base and signed byte offset. -/
structure FmtM where
  ctl : Ctl
  data : RegOp
  base : RegOp
  off : BitVec 24
  deriving DecidableEq, Repr

/-- Format C (03 R68): signed word offset, register and imm10. -/
structure FmtC where
  ctl : Ctl
  off : BitVec 24
  reg : RegOp
  imm : BitVec 10
  deriving DecidableEq, Repr

/-- Format S (03 R68): register, system-register number and imm22. -/
structure FmtS where
  ctl : Ctl
  reg : RegOp
  num : BitVec 12
  imm : BitVec 22
  deriving DecidableEq, Repr

/-- Format T (03 R68): D, A and B handles, metadata handle or aux, convergence register, keep, shape, sub. -/
structure FmtT where
  ctl : Ctl
  d : BitVec 8
  a : BitVec 8
  b : BitVec 8
  aux : BitVec 8
  cv : BitVec 4
  keep : Bool
  shape : BitVec 3
  sub : BitVec 4
  deriving DecidableEq, Repr

/-- Format X (03 R68): first and second register and imm24. -/
structure FmtX where
  ctl : Ctl
  r1 : RegOp
  r2 : RegOp
  imm : BitVec 24
  deriving DecidableEq, Repr

/-- The sizes of LD and LDG (09 R233), in opcode order. -/
inductive LdSize where
  | s8 | n8 | s16 | n16 | b32 | b64 | b128
  deriving DecidableEq, Repr

/-- The sizes of ST (09 R234), in opcode order. -/
inductive StSize where
  | b8 | b16 | b32 | b64 | b128
  deriving DecidableEq, Repr

/-- The operations of ATOM and RED (03 R77, 09 R235), in opcode order. -/
inductive AtomOp where
  | add | mins | minn | maxs | maxn | and | or | xor | exch | cas | fadd
  deriving DecidableEq, Repr

/-- What an access does with a page (07 R182). -/
inductive AccKind where
  | read | write | fetch
  deriving DecidableEq, Repr

/-- How the host link answered a load of host kind (07 R179). -/
inductive LinkStatus where
  | ok | unsupported
  deriving DecidableEq, Repr

/-- A trained DisplayPort link: rate code and lane code of 19 R463. -/
structure DpLink where
  rate : BitVec 2
  lanes : BitVec 2
  deriving DecidableEq, Repr

/-- A firmware image as 19 R461 lays it out. The digests stand as the header holds them. -/
structure Image where
  magic : BitVec 32
  version : BitVec 32
  size : Nat
  digest : BitVec 384
  edKey : List Byte
  mlKey : List Byte
  payload : List Byte
  edSig : List Byte
  mlSig : List Byte
  deriving DecidableEq, Repr

/-- One constructor per row of spec/opcode_table.json, in the table's order within each of: instructions, engine steps, the host's moves. -/
inductive Instr where
  /-- NOP (R120). Does nothing and occupies the issue cycles that R37 gives it. -/
  | nop (x : FmtR)
  /-- ADD (R113). Writes the wrapped sum of a and b for each element. -/
  | add (x : FmtR)
  /-- SUB (R113). Writes the wrapped difference of a and b for each element. -/
  | sub (x : FmtR)
  /-- ADDS (R113). Writes the signed saturating sum of a and b. -/
  | adds (x : FmtR)
  /-- ADDSN (R113). Writes the natural saturating sum of a and b. -/
  | addsn (x : FmtR)
  /-- SUBS (R113). Writes the signed saturating difference of a and b. -/
  | subs (x : FmtR)
  /-- SUBSN (R113). Writes the natural saturating difference of a and b. -/
  | subsn (x : FmtR)
  /-- MUL (R113). Writes the low w bits of the product of a and b. -/
  | mul (x : FmtR)
  /-- MULHS (R113). Writes the high half of the signed product of a and b. -/
  | mulhs (x : FmtR)
  /-- MULHN (R113). Writes the high half of the natural product of a and b. -/
  | mulhn (x : FmtR)
  /-- MAD (R116). Writes the wrapped value of a times b plus c for each element. -/
  | mad (x : FmtF)
  /-- MADW (R116). Writes a widening 32×32 product plus a 64-bit c, signed or natural by sub. -/
  | madw (x : FmtF)
  /-- MINS (R113). Writes the signed minimum of a and b. -/
  | mins (x : FmtR)
  /-- MINN (R113). Writes the natural minimum of a and b. -/
  | minn (x : FmtR)
  /-- MAXS (R113). Writes the signed maximum of a and b. -/
  | maxs (x : FmtR)
  /-- MAXN (R113). Writes the natural maximum of a and b. -/
  | maxn (x : FmtR)
  /-- ABS (R114). Writes the wrapped absolute value of b. -/
  | abs (x : FmtR)
  /-- NEG (R114). Writes the wrapped negation of b. -/
  | neg (x : FmtR)
  /-- AND (R113). Writes the bitwise AND of a and b. -/
  | and (x : FmtR)
  /-- OR (R113). Writes the bitwise OR of a and b. -/
  | or (x : FmtR)
  /-- XOR (R113). Writes the bitwise XOR of a and b. -/
  | xor (x : FmtR)
  /-- ANDN (R113). Writes a AND NOT b. -/
  | andn (x : FmtR)
  /-- SHL (R113). Shifts a left by b mod w bits. -/
  | shl (x : FmtR)
  /-- SHR (R113). Shifts a right logically by b mod w bits. -/
  | shr (x : FmtR)
  /-- SAR (R113). Shifts a right arithmetically by b mod w bits. -/
  | sar (x : FmtR)
  /-- ROL (R113). Rotates a left by b mod w bits. -/
  | rol (x : FmtR)
  /-- BFX (R117). Extracts an unsigned bit field of a, with the field controlled by b. -/
  | bfx (x : FmtF)
  /-- BFXS (R117). Extracts a sign-extended bit field of a. -/
  | bfxs (x : FmtF)
  /-- BFI (R117). Inserts a bit field of a into c. -/
  | bfi (x : FmtF)
  /-- POPC (R114). Writes the count of set bits of b. -/
  | popc (x : FmtR)
  /-- CLZ (R114). Writes the count of leading zeros of b. -/
  | clz (x : FmtR)
  /-- BREV (R114). Writes b with its bits reversed. -/
  | brev (x : FmtR)
  /-- ADDI (R118). Adds a sign-extended 24-bit immediate to a. -/
  | addi (x : FmtI)
  /-- MULI (R118). Multiplies a by the immediate. -/
  | muli (x : FmtI)
  /-- ANDI (R118). ANDs a with the immediate. -/
  | andi (x : FmtI)
  /-- ORI (R118). ORs a with the immediate. -/
  | ori (x : FmtI)
  /-- XORI (R118). XORs a with the immediate. -/
  | xori (x : FmtI)
  /-- SHLI (R118). Shifts a left by the immediate amount. -/
  | shli (x : FmtI)
  /-- SHRI (R118). Shifts a right logically by the immediate amount. -/
  | shri (x : FmtI)
  /-- SARI (R118). Shifts a right arithmetically by the immediate amount. -/
  | sari (x : FmtI)
  /-- MOVI (R119). Writes the sign-extended immediate to dst. -/
  | movi (x : FmtI)
  /-- MOVHI (R119). Writes the immediate into the high 16 bits of dst and keeps its low half. -/
  | movhi (x : FmtI)
  /-- MOVTI (R119). Writes the sign-extended immediate into the high 32 bits of a 64-bit dst. -/
  | movti (x : FmtI)
  /-- MOV (R114). Copies the modified b to dst, acting as a shuffle under a cross-thread modifier. -/
  | mov (x : FmtR)
  /-- ADDP (R115). Forms a 64-bit address from a plus an extended b. -/
  | addp (x : FmtR)
  /-- DOT4S (R116). Adds a signed packed dot product to c. -/
  | dot4s (x : FmtF)
  /-- DOT4N (R116). Adds a natural packed dot product to c. -/
  | dot4n (x : FmtF)
  /-- SAD (R116). Adds the sum of absolute differences of the elements to c. -/
  | sad (x : FmtF)
  /-- CMPS (R121). Compares a with b as signed values and pushes the result. -/
  | cmps (x : FmtR)
  /-- CMPN (R121). Compares a with b as natural values and pushes the result. -/
  | cmpn (x : FmtR)
  /-- CMPSI (R122). Compares a signed a with an immediate and pushes the result. -/
  | cmpsi (x : FmtI)
  /-- CMPNI (R122). Compares a natural a with an immediate and pushes the result. -/
  | cmpni (x : FmtI)
  /-- PAND (R123). Pushes the AND of two predicates, either of them optionally inverted. -/
  | pand (x : FmtR)
  /-- POR (R123). Pushes the OR of two predicates. -/
  | por (x : FmtR)
  /-- PXOR (R123). Pushes the XOR of two predicates. -/
  | pxor (x : FmtR)
  /-- PNOT (R123). Pushes the negation of a predicate. -/
  | pnot (x : FmtR)
  /-- PPOP (R123). Pops the predicate shift register n times. -/
  | ppop (x : FmtR)
  /-- PPUSH (R123). Pushes whether a register is nonzero. -/
  | ppush (x : FmtR)
  /-- PMOV_GET (R123). Copies the predicate register into a register. -/
  | pmovGet (x : FmtR)
  /-- PMOV_SET (R123). Loads the predicate register from a register. -/
  | pmovSet (x : FmtR)
  /-- SEL (R124). Selects a or b by p0. -/
  | sel (x : FmtR)
  /-- VOTE (R126). Combines a predicate over the participants as all, any, ballot or eq. -/
  | vote (x : FmtR)
  /-- PERM (R127). Reads b from the source thread that a selects. -/
  | perm (x : FmtR)
  /-- SCAN (R128). Computes an inclusive or exclusive prefix of b over the participants. -/
  | scan (x : FmtR)
  /-- RDUC (R128). Reduces b over the participants and writes the result to each of them. -/
  | rduc (x : FmtR)
  /-- MATCH (R129). Writes a mask of the participants whose b equals the thread's own. -/
  | matchMask (x : FmtR)
  /-- BRA (R132). Branches to a header at a word offset. -/
  | bra (x : FmtC)
  /-- BRX (R132). Branches to a register-held header. -/
  | brx (x : FmtC)
  /-- CALL (R133). Branches to an offset target and writes LINK with the next header. -/
  | call (x : FmtC)
  /-- CALLX (R133). Branches to a register target and writes LINK. -/
  | callx (x : FmtC)
  /-- RET (R134). Sets PC to LINK. -/
  | ret (x : FmtC)
  /-- EXIT (R135). Makes the active threads exited and frees the skein slot when every position has exited. -/
  | exit (x : FmtC)
  /-- YIELD (R136). Ends the run and gives preference to other ready slots. -/
  | yield (x : FmtC)
  /-- BAR (R137). Arrives at the workgroup barrier and waits. -/
  | bar (x : FmtC)
  /-- TRAP (R138). Makes the active threads trap with cause TRAP, routed to the handler. -/
  | trap (x : FmtC)
  /-- BRK (R138). Makes the active threads take BRK, entering the handler or debug-parking. -/
  | brk (x : FmtC)
  /-- TRET (R139). Restores the thread from its trap record and resumes it at TRAPPC or TRAPPC + 8. -/
  | tret (x : FmtC)
  /-- ESCL (R139). Escalates the thread to host-parked under R104. -/
  | escl (x : FmtC)
  /-- SRD (R141). Reads a system or special register into a register. -/
  | srd (x : FmtS)
  /-- SWR (R141). Writes a system register and serialises the skein. -/
  | swr (x : FmtS)
  /-- SVIEW (R143). Loads a view descriptor from the immediate. -/
  | sview (x : FmtI)
  /-- FENCEI (R140). Drains the skein's stores at the scope and then discards the core's instruction buffers. -/
  | fencei (x : FmtC)
  /-- SLEEP (R136). Makes the active threads wait 64 × n cycles and ends the run. -/
  | sleep (x : FmtC)
  /-- FADD (R154). Writes the rounded f32 sum. -/
  | fadd (x : FmtR)
  /-- FSUB (R154). Writes the rounded f32 difference. -/
  | fsub (x : FmtR)
  /-- FMUL (R154). Writes the rounded f32 product. -/
  | fmul (x : FmtR)
  /-- FFMA (R154). Writes the fused f32 multiply-add. -/
  | ffma (x : FmtF)
  /-- FMIN (R155). Writes the lesser f32 operand, ignoring a single NaN. -/
  | fmin (x : FmtR)
  /-- FMAX (R155). Writes the greater f32 operand, ignoring a single NaN. -/
  | fmax (x : FmtR)
  /-- FCMP (R156). Compares two f32 values and pushes the result. -/
  | fcmp (x : FmtR)
  /-- FCLS (R157). Writes a one-hot class mask of b. -/
  | fcls (x : FmtR)
  /-- FRCP (R159). Writes the reference reciprocal. -/
  | frcp (x : FmtR)
  /-- FRSQ (R159). Writes the reference reciprocal square root. -/
  | frsq (x : FmtR)
  /-- FSQRT (R154). Writes the correctly rounded square root. -/
  | fsqrt (x : FmtR)
  /-- FEX2 (R159). Writes the reference base-2 exponential. -/
  | fex2 (x : FmtR)
  /-- FLG2 (R159). Writes the reference base-2 logarithm. -/
  | flg2 (x : FmtR)
  /-- FSIN (R159). Writes the reference sine. -/
  | fsin (x : FmtR)
  /-- FCOS (R159). Writes the reference cosine. -/
  | fcos (x : FmtR)
  /-- FFRC (R154). Writes the rounded fractional part. -/
  | ffrc (x : FmtR)
  /-- FRND (R154). Rounds b to an integral value. -/
  | frnd (x : FmtR)
  /-- FDIV (R154). Writes the correctly rounded quotient. -/
  | fdiv (x : FmtR)
  /-- FSCL (R154). Scales a by 2 to the power b. -/
  | fscl (x : FmtR)
  /-- FCLMP (R155). Clamps a between b and c. -/
  | fclmp (x : FmtF)
  /-- DADD (R161). Writes the rounded f64 sum. -/
  | dadd (x : FmtR)
  /-- DMUL (R161). Writes the rounded f64 product. -/
  | dmul (x : FmtR)
  /-- DFMA (R161). Writes the fused f64 multiply-add. -/
  | dfma (x : FmtF)
  /-- DCMP (R156). Compares two f64 values and pushes the result. -/
  | dcmp (x : FmtR)
  /-- PKADD (R162). Adds two packed f32 pairs. -/
  | pkadd (x : FmtR)
  /-- PKMUL (R162). Multiplies two packed f32 pairs. -/
  | pkmul (x : FmtR)
  /-- PKFMA (R162). Performs a fused multiply-add on packed f32 pairs. -/
  | pkfma (x : FmtF)
  /-- HADD2 (R163). Adds two packed f16 or bf16 pairs. -/
  | hadd2 (x : FmtR)
  /-- HMUL2 (R163). Multiplies two packed f16 or bf16 pairs. -/
  | hmul2 (x : FmtR)
  /-- HFMA2 (R163). Performs a fused multiply-add on packed f16 or bf16 pairs. -/
  | hfma2 (x : FmtF)
  /-- HMIN2 (R163). Writes the minimum of each 16-bit float pair element. -/
  | hmin2 (x : FmtR)
  /-- HMAX2 (R163). Writes the maximum of each 16-bit float pair element. -/
  | hmax2 (x : FmtR)
  /-- FDOT2 (R164). Adds a two-element 16-bit float dot product to c, rounded once. -/
  | fdot2 (x : FmtF)
  /-- FDOT4E (R164). Adds a four-element 8-bit float dot product to c, rounded once. -/
  | fdot4e (x : FmtF)
  /-- FLERP (R165). Interpolates linearly between a and b by c. -/
  | flerp (x : FmtF)
  /-- CVTFF (R166). Converts between float formats. -/
  | cvtff (x : FmtI)
  /-- CVTFI (R167). Converts a float to an integer with clamping. -/
  | cvtfi (x : FmtI)
  /-- CVTIF (R168). Converts an integer to a float. -/
  | cvtif (x : FmtI)
  /-- CVTSR (R170). Converts an f32 to a float format with stochastic rounding. -/
  | cvtsr (x : FmtR)
  /-- PACK (R171). Converts two f32 values into two slots of dst. -/
  | pack (x : FmtF)
  /-- UNPK (R172). Decodes one slot to f32, applying a block scale where the format has one. -/
  | unpk (x : FmtF)
  /-- RNG (R173). Writes mix32(mix32(counter) ^ key). -/
  | rng (x : FmtR)
  /-- RNGI (R173). Writes a random value from a register counter and an immediate key. -/
  | rngi (x : FmtI)
  /-- LD (R233). Loads through L1 into a register. -/
  | ld (sz : LdSize) (x : FmtM)
  /-- LDG (R233). Loads from the home slice or a replica and leaves L1 unchanged. -/
  | ldg (sz : LdSize) (x : FmtM)
  /-- ST (R234). Places a store in the skein's store queue. -/
  | st (sz : StSize) (x : FmtM)
  /-- ATOM (R235). Performs an atomic read-modify-write and returns the old value. -/
  | atom (op : AtomOp) (wide : Bool) (x : FmtM)
  /-- RED (R235). Performs an atomic reduction without returning a value. -/
  | red (op : AtomOp) (wide : Bool) (x : FmtM)
  /-- FENCE (R237). Orders the thread's accesses as a full or release fence. -/
  | fence (x : FmtM)
  /-- CMO (R239). Cleans and/or invalidates the lines of a range down to a level. -/
  | cmo (x : FmtX)
  /-- PREF (R238). Prefetches a line into L1 or L2 without any observable effect. -/
  | pref (x : FmtM)
  /-- PUT (R241). Checks and queues a send to one destination. -/
  | put (x : FmtX)
  /-- PUTM (R241). Checks and queues a multicast send. -/
  | putm (x : FmtX)
  /-- CPY (R244). Places copy commands in the Shuttle queue. -/
  | cpy (x : FmtX)
  /-- CPYQ (R252). Places copy commands only if all of them fit, and pushes whether they did. -/
  | cpyq (x : FmtX)
  /-- SPZ (R253). Zeroes scratchpad lines and sets them present. -/
  | spz (x : FmtX)
  /-- SPABS (R253). Clears the presence of scratchpad lines. -/
  | spabs (x : FmtX)
  /-- SPCRD (R254). Writes a compressed-region descriptor. -/
  | spcrd (x : FmtX)
  /-- CARVE (R255). Sets the context's CARVECFG.ways. -/
  | carve (x : FmtX)
  /-- DDUPQ_FP (R256). Writes the fingerprint of a page. -/
  | ddupqFp (x : FmtX)
  /-- DDUPQ_ST (R256). Writes the dedup status of a page. -/
  | ddupqSt (x : FmtX)
  /-- TALLOC (R265). Binds a handle to a free frame of a format. -/
  | talloc (x : FmtT)
  /-- TFREE (R265). Unbinds an owned handle. -/
  | tfree (x : FmtT)
  /-- TGIVE (R265). Makes an owned handle ownerless. -/
  | tgive (x : FmtT)
  /-- TTAKE (R265). Takes ownership of a handle, waiting while another skein owns it. -/
  | ttake (x : FmtT)
  /-- TQRY (R266). Reads a handle's rename-table entry. -/
  | tqry (x : FmtX)
  /-- TLOAD (R267). Queues a load of a frame from memory. -/
  | tload (x : FmtX)
  /-- TLOADR (R267). Queues a gathering load of a frame by row indices. -/
  | tloadr (x : FmtX)
  /-- TSTORE (R267). Queues a store of a frame to memory, with a completion. -/
  | tstore (x : FmtX)
  /-- TSTORER (R267). Queues a scattering store of a frame by row indices. -/
  | tstorer (x : FmtX)
  /-- TZERO (R273). Queues the zeroing of a frame. -/
  | tzero (x : FmtT)
  /-- TMMA (R278). Signs a convergence register, and the last signer has a matrix multiply accepted. -/
  | tmma (x : FmtT)
  /-- TMMASP (R278). Signs for and issues a matrix multiply with a sparse A. -/
  | tmmasp (x : FmtT)
  /-- TCVT (R274). Queues a frame format conversion. -/
  | tcvt (x : FmtT)
  /-- TSCL (R275). Queues a scale-and-bias of an f32 frame. -/
  | tscl (x : FmtT)
  /-- CVSET (R281). Sets a convergence register's target and ends its round. -/
  | cvset (x : FmtI)
  /-- DLAUNCH (R352). Enters a child launch record into the pending-launch store. -/
  | dlaunch (x : FmtX)
  /-- EMIT (R354). Places a record in a node's input queue. -/
  | emit (x : FmtX)
  /-- NCLOSE (R355). Closes the workgroup's output to a node. -/
  | nclose (x : FmtX)
  /-- QPUSH (R358). Appends a 128-byte entry to a Spindle queue. -/
  | qpush (x : FmtX)
  /-- QPOP (R359). Takes the oldest entry of a Spindle queue, waiting while it is empty and open. -/
  | qpop (x : FmtX)
  /-- QPEEK (R359). Reads the oldest entry without removing it. -/
  | qpeek (x : FmtX)
  /-- HCALL (R361). Checks the target, writes LINK and sends the thread to Heddle. -/
  | hcall (x : FmtC)
  /-- HRET (R361). Sends the thread to Heddle keyed by its LINK. -/
  | hret (x : FmtC)
  /-- BOARD (R365). Takes a boarding record for a range of Weft Ring layers. -/
  | board (x : FmtX)
  /-- ALIGHT (R366). Cancels a boarding and frees its record. -/
  | alight (x : FmtX)
  /-- RINGACK (R367). Frees the oldest landing slots of a boarding. -/
  | ringack (x : FmtX)
  /-- STRIPQ (R368). Reads a strip chain's deadline, admission time, tag or level. -/
  | stripq (x : FmtX)
  /-- SPSTART (R356). Starts the core's Spindle for the workgroup and opens its queues. -/
  | spstart (x : FmtC)
  /-- SPSTOP (R360). Stops the Spindle and closes its queues, optionally discarding their entries. -/
  | spstop (x : FmtC)
  /-- TEX (R426). Samples a texture with gradients from the quad. -/
  | tex (x : FmtX)
  /-- TEXL (R426). Samples a texture at an explicit level of detail. -/
  | texl (x : FmtX)
  /-- TEXG (R426). Samples a texture with explicit gradients. -/
  | texg (x : FmtX)
  /-- TEXQ (R428). Returns the dimensions and level count of a texture level. -/
  | texq (x : FmtX)
  /-- IMST (R429). Stores one converted texel. -/
  | imst (x : FmtX)
  /-- TRACE (R431). Starts the traversal of a ray and makes the thread wait. -/
  | trace (x : FmtX)
  /-- HITACC (R433). Accepts the candidate and resumes the traversal. -/
  | hitacc (x : FmtX)
  /-- HITIGN (R433). Rejects the candidate and resumes the traversal. -/
  | hitign (x : FmtX)
  /-- HITEND (R433). Commits the candidate and ends the traversal. -/
  | hitend (x : FmtX)
  /-- TBLW (R435). Writes a descriptor-table entry and updates every descriptor cache. -/
  | tblw (x : FmtX)
  /-- TBLR (R435). Reads a descriptor entry as the sampling units see it. -/
  | tblr (x : FmtX)
  /-- TBLINV (R436). Invalidates descriptor-cache entries or TLB pages. -/
  | tblinv (x : FmtX)
  /-- TIME (R440). Reads the time counter. -/
  | time (x : FmtI)
  /-- WAIT (R442). Waits until a read of a word meets a condition. -/
  | wait (x : FmtX)
  /-- STAMP (R443). Places a stamp command that stores a value after the earlier commands. -/
  | stamp (x : FmtX)
  /-- BARI (R447). Initialises a barrier object's generation and expected count. -/
  | bari (x : FmtX)
  /-- BARA (R447). Arrives at a barrier object with an amount. -/
  | bara (x : FmtX)
  /-- BARW (R447). Waits for a barrier object's phase to flip. -/
  | barw (x : FmtX)
  /-- CTADD (R444). Adds to a counter word atomically while preserving bit 63. -/
  | ctadd (x : FmtX)
  /-- MON (R449). Reads a monitor or an error counter. -/
  | mon (x : FmtS)
  /-- UNALLOCATED_OPCODE (R78). A thread executes a word whose opcode is unallocated, or an opcode 0x1FF word inside a block, and traps with ILLEGAL_OP. -/
  | unallocatedOpcode (word : Word)
  /-- SLEEP_WAKE (R136). When a SLEEP's cycle count expires, the sleeping threads run again. -/
  | sleepWake (core : Nat) (slot : Nat) (lane : Nat)
  /-- LOAD_RETURN (R233). A load's data arrives and its destination is written and released from the scoreboard. -/
  | loadReturn (core : Nat) (slot : Nat) (lane : Nat) (idx : Nat) (link : LinkStatus)
  /-- PRESENCE_WAKE (R193). When a waited-on scratchpad line becomes present or marked, the waiting access proceeds. -/
  | presenceWake (core : Nat) (slot : Nat) (lane : Nat)
  /-- STORE_QUEUE_PERFORM (R209). The head entry of a skein's store queue performs at the core. -/
  | storeQueuePerform (core : Nat) (slot : Nat) (home : (Option Nat))
  /-- PUT_DELIVERY (R229). A put's data lands at its destination, or is dropped, and the counter there takes its increment. -/
  | putDelivery (idx : Nat)
  /-- PUT_STRICT_RESOLVE (R243). When every delivery of a strict put has landed or been dropped, the thread continues or traps with PUT_DROP. -/
  | putStrictResolve (core : Nat) (slot : Nat) (lane : Nat)
  /-- SHUTTLE_QUEUE_ROOM (R244). A freed Shuttle queue slot lets a waiting CPY or STAMP place its command. -/
  | shuttleQueueRoom (core : Nat) (slot : Nat) (lane : Nat)
  /-- SHUTTLE_START (R246). The Shuttle starts its next command, checks it, and walks and writes its elements. -/
  | shuttleStart (core : Nat)
  /-- SHUTTLE_COMPLETE (R250). A finished or aborted command performs its stamp or barrier completion in acceptance order. -/
  | shuttleComplete (core : Nat)
  /-- TALLOC_FRAME_FREED (R265). A TALLOC waiting on a frame awaiting release binds once that frame is freed. -/
  | tallocFrameFreed (core : Nat) (slot : Nat)
  /-- TTAKE_GRANT (R265). A handle that becomes ownerless passes to the longest-waiting TTAKE. -/
  | ttakeGrant (core : Nat) (slot : Nat)
  /-- TILE_QUEUE_ROOM (R263). A freed tile-command queue entry lets a waiting skein's command enter. -/
  | tileQueueRoom (core : Nat) (slot : Nat)
  /-- TILE_COMMAND_EXECUTE (R263). An accepted tile command reads its sources and writes its destinations. -/
  | tileCommandExecute (core : Nat)
  /-- TILE_COMMAND_COMPLETE (R271). A tile command completes or aborts, releasing frames and performing its completion. -/
  | tileCommandComplete (core : Nat)
  /-- ARENA_ROOM (R354). A freed arena slot lets a waiting EMIT place its record. -/
  | arenaRoom (core : Nat) (slot : Nat) (lane : Nat)
  /-- QPUSH_ROOM (R358). When an entry is taken, a Spindle waiting on a full queue appends its entry. -/
  | qpushRoom (core : Nat) (slot : Nat)
  /-- QPOP_WAKE (R359). An entry's arrival or the queue's closing releases a waiting QPOP. -/
  | qpopWake (core : Nat) (slot : Nat)
  /-- HEDDLE_ARRIVE (R362). Once its pending writes have drained, a thread joins or opens a Heddle entry. -/
  | heddleArrive (core : Nat) (slot : Nat)
  /-- HEDDLE_TIMEOUT (R363). An entry's timeout expires and a skein of its oldest threads launches. -/
  | heddleTimeout (core : Nat) (entry : Nat)
  /-- SCARAB_SHADER_CALL (R432). Traversal reaches a candidate that needs a shader, and the thread runs the any-hit or intersection shader. -/
  | scarabShaderCall (core : Nat) (slot : Nat) (lane : Nat)
  /-- TRAVERSAL_END (R431). Traversal ends, the ray slot is written, and the thread continues after its TRACE. -/
  | traversalEnd (core : Nat) (slot : Nat) (lane : Nat)
  /-- WAIT_SATISFIED (R442). A read of the waited word satisfies the condition, or shows bit 63, and the WAIT ends or traps. -/
  | waitSatisfied (core : Nat) (slot : Nat) (lane : Nat)
  /-- BARW_COMPLETE (R447). A read shows the phase flipped or an error, and the BARW completes or traps. -/
  | barwComplete (core : Nat) (slot : Nat) (lane : Nat)
  /-- RUN_GRANT (R40). At a run boundary the lane pipeline grants the next ready slot in rotation. -/
  | runGrant (core : Nat) (pipe : Nat)
  /-- LAUNCH_HEAD_CHECK (R287). A record at the head of its source is checked and then taken for admission or rejected. -/
  | launchHeadCheck (ctx : Nat) (band : Nat) (pend : Bool)
  /-- WORKGROUP_ADMIT (R293). The distributor places a workgroup on a cluster, zeroes its grant and gives its skeins slots. -/
  | workgroupAdmit (ctx : Nat) (grid : Nat) (cluster : (List Nat))
  /-- NODE_LAUNCH (R55). A shader node launches a one-skein workgroup when 32 records are waiting or at its flush point. -/
  | nodeLaunch (ctx : Nat) (grid : Nat) (node : Nat) (core : Nat)
  /-- GRID_RETIRE (R52). A grid or graph whose workgroups and children are all done retires and makes its completion store. -/
  | gridRetire (ctx : Nat) (grid : Nat)
  /-- VACATE_DRAIN_END (R304). Once the cores' queues and engines have drained, the save image is written. -/
  | vacateDrainEnd (req : Nat)
  /-- VACATE_END (R304). Once the images are saved, the cores are freed and a kind-7 event is posted for a host request. -/
  | vacateEnd (req : Nat)
  /-- WORKGROUP_RESTORE (R306). A vacated workgroup is restored onto a new cluster from its save image. -/
  | workgroupRestore (ctx : Nat) (grid : Nat) (wg : Nat) (cluster : (List Nat))
  /-- HELD_EVENT_POST (R299). A held event is posted once the event queue has room. -/
  | heldEventPost (ctx : (Option Nat))
  /-- TREADLE_ADMIT (R316). At A and at each microsecond until D, the Treadle tries to claim a slot, reserve cores and admit a strip chain. -/
  | treadleAdmit (entry : Nat)
  /-- STRIP_DENIED (R316). A strip not admitted by D is abandoned and counted. -/
  | stripDenied (entry : Nat)
  /-- BINNER_RECORD (R402). The binner snaps, culls and passes or discards a raster record. -/
  | binnerRecord (ctx : Nat) (grid : Nat)
  /-- RASTER_ACCEPT (R408). The rasteriser accepts a record, tests depth and emits pixel records per cell. -/
  | rasterAccept (ctx : Nat) (grid : Nat)
  /-- BLENDER_RECORD (R412). The blender applies a colour record to the covered samples. -/
  | blenderRecord (ctx : Nat) (grid : Nat)
  /-- BLENDER_WRITE_STRIP (R412). When its input closes, the blender writes the strip to its slot. -/
  | blenderWriteStrip (ctx : Nat) (grid : Nat)
  /-- LOWRES_COMPLETE (R315). When the feed's producers have closed and their writes have landed, the low-res slot's complete bit is set. -/
  | lowresComplete (ctx : Nat) (grid : Nat)
  /-- UPSCALER_FEED (R414). Once the next strip's low-res slot is complete or late, the feed stages halos and emits block records. -/
  | upscalerFeed (ctx : Nat) (grid : Nat)
  /-- STRIP_WRITER_RECORD (R415). The strip writer writes the masked pixels of a record to the output slot. -/
  | stripWriterRecord (ctx : Nat) (grid : Nat)
  /-- HEAD_STRIP_READ (R326). At D a head scans a complete strip, or marks it late and sends the late-fill colour. -/
  | headStripRead (head : Nat)
  /-- STRIP_SLOT_FREE (R326). A head's output slot is freed at the end of the strip's lines. -/
  | stripSlotFree (head : Nat)
  /-- ENCODE_STRIP_TAKE (R327). A free encode engine takes the ready or late strip with the smallest D. -/
  | encodeStripTake (engine : Nat)
  /-- TAP_CATCH (R341). When flit 0 of a tile arrives at a tap, a waiting boarding catches it into a slot. -/
  | tapCatch (core : Nat)
  /-- TILE_LAND (R342). When flit 15 arrives, the tap checks the CRC and sets presence and the counter, or handles the mismatch;
  `crcOk` is the outcome that the step stands for, and one that the tap does not find is no step. -/
  | tileLand (core : Nat) (crcOk : Bool)
  /-- CARVE_RAISE (R198). A core writes back and empties added L1 ways and lends them to scratchpad. -/
  | carveRaise (core : Nat)
  /-- WATCHDOG (R106). A workgroup's watchdog time exceeds its limit, and its threads are host-parked at their run boundaries. -/
  | watchdog (ctx : Nat) (grid : Nat) (wg : Nat)
  /-- SESSION_LATE (R327). At D + slack a session's strip that is not ready is marked late. -/
  | sessionLate (session : Nat)
  /-- ENCODE_STRIP_END (R329). A strip's OBUs are appended and the progress word is stored. -/
  | encodeStripEnd (engine : Nat)
  /-- CARVE_LOWER (R198). A core returns lent ways to L1 once no grant lies in them. -/
  | carveLower (core : Nat)
  /-- REED_WINDOW (R228). At each 16-cycle Reed window the pending multicasts are announced in a global order. -/
  | reedWindow 
  /-- RING_ADOPT (R332). The injector reads and checks a pending ring program at enable or at a pick boundary. -/
  | ringAdopt 
  /-- TILE_INJECT (R344). At a tile boundary the injector checks for holds and then injects the next tile. -/
  | tileInject 
  /-- HOLD_TIMEOUT (R344). When a hold reaches T_hold, the boardings that lack slots are dropped and the tile is injected. -/
  | holdTimeout 
  /-- LINE_RECALL (R191). A request from another core recalls an exclusive line from its holder. -/
  | lineRecall (core : Nat) (line : Nat)
  /-- PAGE_WALK (R182). A TLB miss walks the four-level page table and fills the TLB or faults. -/
  | pageWalk (core : Nat) (ctx : Nat) (va : Word) (acc : AccKind) (user : Bool)
  /-- LAUNCH_RECORD_WRITE (R285). A host write to a launch window enqueues a 64-byte record or is discarded. -/
  | launchRecordWrite (ctx : Nat) (off : Nat) (data : (List Byte))
  /-- RINGCTL_ENABLE (R333). A host write that sets enable starts the ring. -/
  | ringctlEnable (value : Word)
  /-- RINGCTL_DISABLE (R333). A host write that clears enable stops injection and drops incomplete boardings. -/
  | ringctlDisable (value : Word)
  /-- RINGNEXT_WRITE (R334). A host write stages a ring program for adoption. -/
  | ringnextWrite (value : Word)
  /-- MONITOR_CHECK (R450). Every 10 µs the monitors are checked and the core clock steps down or up. -/
  | monitorCheck (temps : List (BitVec 32)) (volts : List (BitVec 32)) (procs : List (BitVec 32))
  /-- TCSET (R438). Sets the time counter when word 1 is written. -/
  | tcset (word1 : Word)
  /-- TCOFS (R439). Adds a signed step to the time counter. -/
  | tcofs (step : Word)
  /-- TCRATE (R439). Sets the time counter's rate adjustment. -/
  | tcrate (rate : Word)
  /-- PTM_DIALOGUE (R438). A Precision Time Measurement exchange captures t1 and t4. -/
  | ptmDialogue (gap : Nat)
  /-- CTXUPD (R382). Rereads a context's non-fixed fields, or refuses them whole. -/
  | ctxupd (ctx : Nat)
  /-- SCHEDULE_ENABLE (R384). Setting a SCHEDEN bit reads and checks a schedule entry and starts its frames. -/
  | scheduleEnable (entry : Nat)
  /-- SCHEDULE_DISABLE (R384). Clearing a SCHEDEN bit stops that entry's admissions. -/
  | scheduleDisable (entry : Nat)
  /-- DBGRES_CONTINUE (R104). Resumes the masked parked threads at their PC. -/
  | dbgresContinue (core : Nat) (slot : Nat) (mask : (BitVec 32))
  /-- DBGRES_STEP (R108). Executes one instruction for the masked threads and raises STEP. -/
  | dbgresStep (core : Nat) (slot : Nat) (mask : (BitVec 32))
  /-- DBGRES_CONTINUE_AFTER (R104). Resumes the masked parked threads at PC + 8. -/
  | dbgresContinueAfter (core : Nat) (slot : Nat) (mask : (BitVec 32))
  /-- DBGRES_KILL (R104). Makes the masked parked threads exited. -/
  | dbgresKill (core : Nat) (slot : Nat) (mask : (BitVec 32))
  /-- FAULTRES_RESUME (R455). Replays the fragment or command of a kind-1 event. -/
  | faultresResume (ctx : Nat) (seq : Nat)
  /-- FAULTRES_ABANDON (R455). Host-parks a fragment, or aborts a command, for a kind-1 event. -/
  | faultresAbandon (ctx : Nat) (seq : Nat)
  /-- FREEADD (R300). Adds a frame to the context's free-page queue. -/
  | freeadd (ctx : Nat) (pa : Word)
  /-- PREEMPT_N (R302). A host request to vacate n cores of the context. -/
  | preemptN (ctx : Nat) (n : Nat)
  /-- PREEMPT_ALL (R302). A host request to vacate all of the context. -/
  | preemptAll (ctx : Nat)
  /-- CTXRESET (R460). Kills the context's work and resets its state within 5 µs. -/
  | ctxreset (ctx : Nat)
  /-- EVRD_WRITE (R454). The host advances the context's event-queue read index. -/
  | evrdWrite (ctx : Nat) (value : Word)
  /-- DEVQRD_WRITE (R453). The host advances the device event queue's read index. -/
  | devqrdWrite (value : Word)
  /-- DEVQ_CONFIG_WRITE (R453). A write to DEVQBASE or to DEVQCTL.size resets the device event queue's indices. -/
  | devqConfigWrite (off : Nat) (value : Word)
  /-- ERROR_COUNTER_CLEAR (R454). A host write clears the error counters whose halves are zero. -/
  | errorCounterClear (off : Nat) (value : Word)
  /-- TLBINV (R455). Writing word 1 invalidates TLB pages of an ASID in every core. -/
  | tlbinv (word1 : Word)
  /-- ENCODER_PARTITION_WRITE (R189). Sets the L2 encoder ways, or is discarded while a session is open. -/
  | encoderPartitionWrite (value : Word)
  /-- REGISTER_WRITE (R452). A write to a window-0 register without behaviour of its own stores its value or is discarded. -/
  | registerWrite (off : Nat) (value : Word)
  /-- HOST_APERTURE_READ (R456). A host read through window 4 is performed at the home slice. -/
  | hostApertureRead (off : Nat) (len : Nat)
  /-- HOST_APERTURE_WRITE (R456). A host write through window 4 is performed at the home slice, invalidating replicas. -/
  | hostApertureWrite (off : Nat) (data : (List Byte))
  /-- HOST_ATOMICOP (R456). A PCI Express AtomicOp into window 4 executes as a device-kind atomic. -/
  | hostAtomicop (off : Nat) (op : AtomOp) (wide : Bool) (value : Word) (compare : Word)
  /-- CONVENTIONAL_RESET (R459). Power-up or a RESET write reboots the device through Nirsirum. -/
  | conventionalReset (image : Image)
  /-- FUNCTION_LEVEL_RESET (R459). A function-level reset clears the device's working state and keeps the time counter and the firmware. -/
  | functionLevelReset 
  /-- MAILBOX_IMAGE (R461). A firmware image written to the Nirsirum mailbox is verified, or a security event is posted. -/
  | mailboxImage (image : Image)
  /-- GET_VERSION (R462). SPDM request for the supported versions. -/
  | getVersion 
  /-- GET_CAPABILITIES (R462). SPDM request for the responder's capabilities. -/
  | getCapabilities 
  /-- NEGOTIATE_ALGORITHMS (R462). SPDM algorithm negotiation. -/
  | negotiateAlgorithms (request : (List Byte))
  /-- GET_CERTIFICATE (R462). SPDM request for the device certificate. -/
  | getCertificate (off : Nat) (len : Nat)
  /-- CHALLENGE (R462). SPDM challenge, signed with both identity keys. -/
  | challenge (nonce : (List Byte))
  /-- GET_MEASUREMENTS (R462). SPDM request for a signed report of the measurement registers. -/
  | getMeasurements (nonce : (List Byte))
  /-- MODULE_POWER_LOSS (R31). The module loses power, nothing runs and no state is retained. -/
  | modulePowerLoss 
  /-- TLB_INVALIDATION_END (R455). The invalidation started by a TLBINV word-1 write has ended in every core, and the busy bit clears. -/
  | tlbInvalidationEnd 
  /-- DISPLAYPORT_LINK_TRAINING (R463). A head's DisplayPort link trains and establishes the trained link rate that timing checks compare against. -/
  | displayportLinkTraining (head : Nat) (link : (Option DpLink))
  deriving DecidableEq, Repr

end Sys2Proof
end

