-- ==== Sys2Proof/WellFormed.lean ====
section
/-! DEFINITION. Which values the fields of an instruction form admit: what raises ILLEGAL_FIELD for a value held in
the instruction word (03 R65, R69, R79 row 4, and each form's own rule). -/

namespace Sys2Proof

/-- Bits [lo+n-1:lo] of a word, as a number. -/
def fld {w : Nat} (x : BitVec w) (lo n : Nat) : Nat := (x.toNat >>> lo) % 2 ^ n

/-- No bit at or above bit k is set. -/
def zeroFrom {w : Nat} (k : Nat) (x : BitVec w) : Bool := decide (x.toNat < 2 ^ k)

/-- sub[3:2] of format F. -/
def hi2 (s : BitVec 4) : Nat := fld s 2 2

/-- With guard enable clear, [53:50] is zero (03 R65). -/
def ctlOk (c : Ctl) : Bool := c.guarded || c.guard == 0

/-- Scope codes 6 and 7 are reserved (03 R65). -/
def scopeOk (c : Ctl) : Bool := decide (c.scope.toNat ≤ 5)

/-- A form that gives no meaning to scope or bit 46 holds them at zero (03 R65). -/
def plainX (c : Ctl) : Bool := c.mid == 0

/-- With bit 46 clear the scope is zero (08 R213, 18 R441). -/
def orderOk (c : Ctl) : Bool := scopeOk c && (c.flag || c.scope == 0)

/-- The source modifier of 03 R73 and R75: class 0 leaves [9:2] zero, another class has log2 of 1 to 5,
and the absolute-value and negate bits stand only where R75 permits them. -/
def modOk (absNeg : Bool) (m : BitVec 12) : Bool :=
  (if fld m 10 2 = 0 then fld m 2 8 == 0 else decide (1 ≤ fld m 7 3 ∧ fld m 7 3 ≤ 5)) &&
    (absNeg || fld m 0 2 == 0)

/-- Conditions 6 and 7 of the integer comparisons are reserved (05 R121, R122). -/
def condOk {w : Nat} (x : BitVec w) : Bool := decide (fld x 0 3 ≤ 5)

/-- A view descriptor that 03 R71 does not reject: width code 0 to 4 and bit 0 clear. -/
def viewOk (v : BitVec 16) : Bool := decide (fld v 1 3 ≤ 4) && !v.getLsbD 0

/-- Float format codes that a conversion names: 0 to 8, and 32 for f64 (06 R166). -/
def floatCode (n : Nat) : Bool := decide (n ≤ 8) || n == 32

/-- The system registers that SRD may name (04 R89). -/
def SysReg.readable (n : BitVec 12) : Bool :=
  let k := n.toNat
  decide (k ≤ 9) || decide (0x010 ≤ k ∧ k ≤ 0x015) || decide (0x100 ≤ k ∧ k ≤ 0x103) ||
    decide (0x200 ≤ k ∧ k ≤ 0x204) || decide (0x300 ≤ k ∧ k ≤ 0x30D)

/-- The system registers that SWR may name at some level (04 R89). -/
def SysReg.writable (n : BitVec 12) : Bool :=
  let k := n.toNat
  decide (k ≤ 9) || decide (0x010 ≤ k ∧ k ≤ 0x015) || decide (0x100 ≤ k ∧ k ≤ 0x102) ||
    decide (0x200 ≤ k ∧ k ≤ 0x202) || k == 0x204

/-- The system registers that a user thread may read (04 R89). -/
def SysReg.userRead (n : BitVec 12) : Bool :=
  let k := n.toNat
  decide (0x010 ≤ k ∧ k ≤ 0x015) || k == 0x101 || decide (0x300 ≤ k ∧ k ≤ 0x30D)

/-- The system registers that a user thread may write (04 R89). -/
def SysReg.userWrite (n : BitVec 12) : Bool :=
  let k := n.toNat
  decide (0x010 ≤ k ∧ k ≤ 0x015) || k == 0x101

/-- The 64-bit system registers (05 R141). -/
def SysReg.wide (n : BitVec 12) : Bool :=
  let k := n.toNat
  decide (1 ≤ k ∧ k ≤ 3) || decide (5 ≤ k ∧ k ≤ 9) || k == 0x014 || k == 0x102 || k == 0x103 ||
    k == 0x200 || k == 0x201

/-- The monitor numbers that have a sensor or a register (18 R449). -/
def Monitor.allocated (n : BitVec 12) : Bool :=
  let k := n.toNat
  decide (k ≤ 0x017) || decide (0x100 ≤ k ∧ k ≤ 0x10B) || decide (0x200 ≤ k ∧ k ≤ 0x207) ||
    k == 0x300 || k == 0x301 || decide (0x500 ≤ k ∧ k ≤ 0x516) || decide (0x600 ≤ k ∧ k ≤ 0x616)

/-- The number of set bits of a number below 2^n. -/
def bitsSet (n x : Nat) : Nat := ((List.range n).filter fun i => x.testBit i).length

/-- PUT and PUTM (09 R241): kind 0 to 2, imm24 [23:8] zero, no second register unless the kind is 2, and
the slot mask each allows. -/
def putOk (multi : Bool) (r2 : RegOp) (imm : BitVec 24) : Bool :=
  let kind := fld imm 0 2
  let mask := fld imm 2 4
  decide (kind ≤ 2) && zeroFrom 8 imm && (kind == 2 || r2 == 0) &&
    (if multi then kind ≠ 0 && mask ≠ 0 else if kind = 0 then mask == 0 else bitsSet 4 mask == 1)

/-- The operand-map code of 10 R268: `.free` on stores only, no reserved rounding or sparsity, and
conversion bits only with `.cvt`. -/
def mapOk (store : Bool) (imm : BitVec 24) : Bool :=
  (store || fld imm 7 1 == 0) && fld imm 4 2 ≠ 3 && fld imm 1 2 ≠ 3 && (fld imm 3 1 == 1 || fld imm 4 3 == 0)

/-- No opcode of 03 R76 stands in the word; the opcode of a block header counts as none (R60, R78). -/
def opcodeFree (w : Word) : Bool :=
  let k := fld w 55 9
  decide (0x030 ≤ k ∧ k ≤ 0x03F) || decide (0x051 ≤ k ∧ k ≤ 0x05F) || decide (0x071 ≤ k ∧ k ≤ 0x07F) ||
  decide (0x0A3 ≤ k ∧ k ≤ 0x0DF) || decide (0x0E8 ≤ k ∧ k ≤ 0x0FF) || decide (0x113 ≤ k ∧ k ≤ 0x11F) ||
  decide (0x136 ≤ k ∧ k ≤ 0x13F) || decide (0x152 ≤ k ∧ k ≤ 0x17F) || decide (0x18C ≤ k ∧ k ≤ 0x19F) ||
  decide (0x1AF ≤ k ∧ k ≤ 0x1BF) || decide (0x1CE ≤ k ∧ k ≤ 0x1D7) || decide (0x1E4 ≤ k ∧ k ≤ 0x1E7) ||
  decide (0x1F0 ≤ k)

/-- RED has no EXCH and no CAS (03 R77). -/
def redOp (op : AtomOp) : Bool := op != .exch && op != .cas

/-- The check of 03 R69 and R79 row 4 on an instruction form. A device step carries no instruction word
and is well formed. -/
def Instr.wellFormed : Instr → Bool
  | .nop x => ctlOk x.ctl && x.dst == 0 && x.a == 0 && x.b == 0 && x.mod == 0 && x.sub == 0
  | .add x => ctlOk x.ctl && modOk true x.mod
  | .sub x => ctlOk x.ctl && modOk true x.mod
  | .adds x => ctlOk x.ctl && modOk true x.mod
  | .addsn x => ctlOk x.ctl && modOk false x.mod
  | .subs x => ctlOk x.ctl && modOk true x.mod
  | .subsn x => ctlOk x.ctl && modOk false x.mod
  | .mul x => ctlOk x.ctl && modOk true x.mod
  | .mulhs x => ctlOk x.ctl && modOk true x.mod
  | .mulhn x => ctlOk x.ctl && modOk false x.mod
  | .mad x => ctlOk x.ctl && hi2 x.sub == 0
  | .madw x => ctlOk x.ctl && x.sub.toNat ≤ 1
  | .mins x => ctlOk x.ctl && modOk true x.mod
  | .minn x => ctlOk x.ctl && modOk false x.mod
  | .maxs x => ctlOk x.ctl && modOk true x.mod
  | .maxn x => ctlOk x.ctl && modOk false x.mod
  | .abs x => ctlOk x.ctl && x.a == 0 && modOk true x.mod
  | .neg x => ctlOk x.ctl && x.a == 0 && modOk true x.mod
  | .and x => ctlOk x.ctl && modOk false x.mod
  | .or x => ctlOk x.ctl && modOk false x.mod
  | .xor x => ctlOk x.ctl && modOk false x.mod
  | .andn x => ctlOk x.ctl && modOk false x.mod
  | .shl x => ctlOk x.ctl && modOk false x.mod
  | .shr x => ctlOk x.ctl && modOk false x.mod
  | .sar x => ctlOk x.ctl && modOk false x.mod
  | .rol x => ctlOk x.ctl && modOk false x.mod
  | .bfx x => ctlOk x.ctl && x.c == 0 && x.sub.toNat ≤ 1
  | .bfxs x => ctlOk x.ctl && x.c == 0 && x.sub.toNat ≤ 1
  | .bfi x => ctlOk x.ctl && x.sub.toNat ≤ 1
  | .popc x => ctlOk x.ctl && x.a == 0 && modOk false x.mod
  | .clz x => ctlOk x.ctl && x.a == 0 && modOk false x.mod
  | .brev x => ctlOk x.ctl && x.a == 0 && modOk false x.mod
  | .addi x => ctlOk x.ctl
  | .muli x => ctlOk x.ctl
  | .andi x => ctlOk x.ctl
  | .ori x => ctlOk x.ctl
  | .xori x => ctlOk x.ctl
  | .shli x => ctlOk x.ctl && zeroFrom 5 x.imm
  | .shri x => ctlOk x.ctl && zeroFrom 5 x.imm
  | .sari x => ctlOk x.ctl && zeroFrom 5 x.imm
  | .movi x => ctlOk x.ctl && x.a == 0
  | .movhi x => ctlOk x.ctl && x.a == 0 && zeroFrom 16 x.imm
  | .movti x => ctlOk x.ctl && x.a == 0
  | .mov x => ctlOk x.ctl && x.a == 0 && modOk true x.mod
  | .addp x => ctlOk x.ctl && modOk true x.mod && x.sub != 3
  | .dot4s x => ctlOk x.ctl && (x.sub == 2 || x.sub == 3)
  | .dot4n x => ctlOk x.ctl && (x.sub == 2 || x.sub == 3)
  | .sad x => ctlOk x.ctl && (x.sub == 0 || x.sub == 2 || x.sub == 3)
  | .cmps x => ctlOk x.ctl && x.dst == 0 && x.sub == 0 && zeroFrom 4 x.mod && condOk x.mod
  | .cmpn x => ctlOk x.ctl && x.dst == 0 && x.sub == 0 && zeroFrom 4 x.mod && condOk x.mod
  | .cmpsi x => ctlOk x.ctl && zeroFrom 3 x.dst && condOk x.dst
  | .cmpni x => ctlOk x.ctl && zeroFrom 3 x.dst && condOk x.dst
  | .pand x => ctlOk x.ctl && x.dst == 0 && x.mod == 0 && zeroFrom 3 x.a && zeroFrom 3 x.b
  | .por x => ctlOk x.ctl && x.dst == 0 && x.mod == 0 && zeroFrom 3 x.a && zeroFrom 3 x.b
  | .pxor x => ctlOk x.ctl && x.dst == 0 && x.mod == 0 && zeroFrom 3 x.a && zeroFrom 3 x.b
  | .pnot x => ctlOk x.ctl && x.dst == 0 && x.mod == 0 && zeroFrom 3 x.a && x.b == 0 && x.sub == 0
  | .ppop x => ctlOk x.ctl && x.dst == 0 && x.mod == 0 && zeroFrom 3 x.a && x.b == 0 && x.sub == 0
  | .ppush x => ctlOk x.ctl && x.dst == 0 && x.mod == 0 && x.a == 0 && x.sub.toNat ≤ 1
  | .pmovGet x => ctlOk x.ctl && x.mod == 0 && x.a == 0 && x.b == 0 && x.sub == 0
  | .pmovSet x => ctlOk x.ctl && x.dst == 0 && x.mod == 0 && x.a == 0 && x.sub == 1
  | .sel x => ctlOk x.ctl && modOk true x.mod
  | .vote x => ctlOk x.ctl && (!x.ctl.uni && x.mod == 0 && zeroFrom 3 x.a && x.b == 0 && (x.sub == 2 || x.dst == 0))
  | .perm x => ctlOk x.ctl && !x.ctl.uni && x.mod == 0 && x.sub.toNat ≤ 1
  | .scan x => ctlOk x.ctl && !x.ctl.uni && x.mod == 0 && zeroFrom 4 x.a && x.sub.toNat ≤ 1
  | .rduc x => ctlOk x.ctl && !x.ctl.uni && x.mod == 0 && zeroFrom 3 x.a && x.sub.toNat ≤ 1
  | .matchMask x => ctlOk x.ctl && !x.ctl.uni && x.mod == 0 && x.a == 0 && x.sub.toNat ≤ 1
  | .bra x => ctlOk x.ctl && x.reg == 0 && x.imm == 0
  | .brx x => ctlOk x.ctl && x.off == 0 && x.imm == 0
  | .call x => ctlOk x.ctl && x.reg == 0 && x.imm == 0
  | .callx x => ctlOk x.ctl && x.off == 0 && x.imm == 0
  | .ret x => ctlOk x.ctl && x.off == 0 && x.reg == 0 && x.imm == 0
  | .exit x => ctlOk x.ctl && x.off == 0 && x.reg == 0 && x.imm == 0
  | .yield x => ctlOk x.ctl && x.off == 0 && x.reg == 0 && x.imm == 0
  | .bar x => ctlOk x.ctl && x.off == 0 && x.reg == 0 && x.imm == 0
  | .trap x => ctlOk x.ctl && x.off == 0 && x.reg == 0
  | .brk x => ctlOk x.ctl && x.off == 0 && x.reg == 0
  | .tret x => ctlOk x.ctl && !x.ctl.uni && x.off == 0 && x.reg == 0 && zeroFrom 1 x.imm
  | .escl x => ctlOk x.ctl && !x.ctl.uni && x.off == 0 && x.reg == 0 && x.imm == 0
  | .srd x => ctlOk x.ctl && x.imm == 0 && SysReg.readable x.num
  | .swr x => ctlOk x.ctl && x.imm == 0 && SysReg.writable x.num
  | .sview x => ctlOk x.ctl && zeroFrom 2 x.dst && x.a == 0 && zeroFrom 16 x.imm && viewOk (x.imm.extractLsb' 0 16)
  | .fencei x => ctlOk x.ctl && x.off == 0 && x.reg == 0 && x.imm.toNat ≤ 5
  | .sleep x => ctlOk x.ctl && x.off == 0 && x.reg == 0
  | .fadd x => ctlOk x.ctl && modOk true x.mod
  | .fsub x => ctlOk x.ctl && modOk true x.mod
  | .fmul x => ctlOk x.ctl && modOk true x.mod
  | .ffma x => ctlOk x.ctl && hi2 x.sub == 0
  | .fmin x => ctlOk x.ctl && modOk true x.mod && x.sub == 0
  | .fmax x => ctlOk x.ctl && modOk true x.mod && x.sub == 0
  | .fcmp x => ctlOk x.ctl && modOk true x.mod && x.sub == 0 && zeroFrom 3 x.dst
  | .fcls x => ctlOk x.ctl && x.a == 0 && modOk true x.mod && x.sub.toNat ≤ 1
  | .frcp x => ctlOk x.ctl && x.a == 0 && modOk true x.mod && x.sub == 0
  | .frsq x => ctlOk x.ctl && x.a == 0 && modOk true x.mod && x.sub == 0
  | .fsqrt x => ctlOk x.ctl && x.a == 0 && modOk true x.mod
  | .fex2 x => ctlOk x.ctl && x.a == 0 && modOk true x.mod && x.sub == 0
  | .flg2 x => ctlOk x.ctl && x.a == 0 && modOk true x.mod && x.sub == 0
  | .fsin x => ctlOk x.ctl && x.a == 0 && modOk true x.mod && x.sub == 0
  | .fcos x => ctlOk x.ctl && x.a == 0 && modOk true x.mod && x.sub == 0
  | .ffrc x => ctlOk x.ctl && x.a == 0 && modOk true x.mod
  | .frnd x => ctlOk x.ctl && x.a == 0 && modOk true x.mod
  | .fdiv x => ctlOk x.ctl && modOk true x.mod
  | .fscl x => ctlOk x.ctl && modOk true x.mod
  | .fclmp x => ctlOk x.ctl && x.sub == 0
  | .dadd x => ctlOk x.ctl && modOk true x.mod
  | .dmul x => ctlOk x.ctl && modOk true x.mod
  | .dfma x => ctlOk x.ctl && hi2 x.sub == 0
  | .dcmp x => ctlOk x.ctl && modOk true x.mod && x.sub == 0 && zeroFrom 3 x.dst
  | .pkadd x => ctlOk x.ctl && modOk true x.mod
  | .pkmul x => ctlOk x.ctl && modOk true x.mod
  | .pkfma x => ctlOk x.ctl && hi2 x.sub == 0
  | .hadd2 x => ctlOk x.ctl && modOk true x.mod
  | .hmul2 x => ctlOk x.ctl && modOk true x.mod
  | .hfma2 x => ctlOk x.ctl && hi2 x.sub == 0
  | .hmin2 x => ctlOk x.ctl && modOk true x.mod && x.sub.toNat ≤ 1
  | .hmax2 x => ctlOk x.ctl && modOk true x.mod && x.sub.toNat ≤ 1
  | .fdot2 x => ctlOk x.ctl && x.sub.toNat ≤ 1
  | .fdot4e x => ctlOk x.ctl && hi2 x.sub == 0
  | .flerp x => ctlOk x.ctl && hi2 x.sub == 0
  | .cvtff x => ctlOk x.ctl && floatCode (fld x.imm 0 6) && floatCode (fld x.imm 6 6) && zeroFrom 15 x.imm
  | .cvtfi x => ctlOk x.ctl && floatCode (fld x.imm 0 6) && zeroFrom 11 x.imm
  | .cvtif x => ctlOk x.ctl && floatCode (fld x.imm 3 6) && zeroFrom 12 x.imm
  | .cvtsr x => ctlOk x.ctl && x.sub == 0 && 1 ≤ fld x.mod 0 6 && fld x.mod 0 6 ≤ 8 && zeroFrom 7 x.mod
  | .pack x => ctlOk x.ctl && x.sub == 0
  | .unpk x => ctlOk x.ctl && x.sub == 0
  | .rng x => ctlOk x.ctl && x.sub == 0 && modOk false x.mod
  | .rngi x => ctlOk x.ctl
  | .ld _ x => ctlOk x.ctl && orderOk x.ctl
  | .ldg _ x => ctlOk x.ctl && orderOk x.ctl
  | .st _ x => ctlOk x.ctl && orderOk x.ctl
  | .atom _ _ x => ctlOk x.ctl && orderOk x.ctl
  | .red op _ x => ctlOk x.ctl && redOp op && orderOk x.ctl
  | .fence x => ctlOk x.ctl && scopeOk x.ctl && x.data == 0 && x.base == 0 && x.off == 0
  | .cmo x => ctlOk x.ctl && plainX x.ctl && fld x.imm 0 2 ≠ 3 && zeroFrom 4 x.imm
  | .pref x => ctlOk x.ctl && x.data == 0 && x.ctl.scope == 0
  | .put x => ctlOk x.ctl && scopeOk x.ctl && putOk false x.r2 x.imm
  | .putm x => ctlOk x.ctl && scopeOk x.ctl && putOk true x.r2 x.imm
  | .cpy x => ctlOk x.ctl && plainX x.ctl && x.imm == 0
  | .cpyq x => ctlOk x.ctl && plainX x.ctl && x.imm == 0
  | .spz x => ctlOk x.ctl && plainX x.ctl && x.imm == 0
  | .spabs x => ctlOk x.ctl && plainX x.ctl && x.imm == 0
  | .spcrd x => ctlOk x.ctl && plainX x.ctl && x.r2 == 0 && zeroFrom 2 x.imm
  | .carve x => ctlOk x.ctl && plainX x.ctl && x.r1 == 0 && x.r2 == 0 && x.imm.toNat ≤ 8
  | .ddupqFp x => ctlOk x.ctl && plainX x.ctl && x.imm == 0
  | .ddupqSt x => ctlOk x.ctl && plainX x.ctl && x.imm == 1
  | .talloc x => ctlOk x.ctl && x.ctl.uni && x.a == 0 && x.b == 0 && x.aux.toNat ≤ 32 && x.cv == 0 && !x.keep && x.shape == 0 && x.sub == 0
  | .tfree x => ctlOk x.ctl && x.ctl.uni && x.a == 0 && x.b == 0 && x.aux == 0 && x.cv == 0 && !x.keep && x.shape == 0 && x.sub == 0
  | .tgive x => ctlOk x.ctl && x.ctl.uni && x.a == 0 && x.b == 0 && x.aux == 0 && x.cv == 0 && !x.keep && x.shape == 0 && x.sub == 0
  | .ttake x => ctlOk x.ctl && x.ctl.uni && x.a == 0 && x.b == 0 && x.aux == 0 && x.cv == 0 && !x.keep && x.shape == 0 && x.sub == 0
  | .tqry x => ctlOk x.ctl && plainX x.ctl && x.ctl.uni && x.r2 == 0 && fld x.imm 0 16 == 0
  | .tload x => ctlOk x.ctl && x.ctl.uni && plainX x.ctl && x.r2 == 0 && mapOk false x.imm
  | .tloadr x => ctlOk x.ctl && x.ctl.uni && plainX x.ctl && mapOk false x.imm
  | .tstore x => ctlOk x.ctl && x.ctl.uni && scopeOk x.ctl && x.r2 == 0 && mapOk true x.imm
  | .tstorer x => ctlOk x.ctl && x.ctl.uni && scopeOk x.ctl && mapOk true x.imm
  | .tzero x => ctlOk x.ctl && x.ctl.uni && x.a == 0 && x.b == 0 && x.aux == 0 && x.cv == 0 && !x.keep && x.shape == 0 && x.sub == 0
  | .tmma x => ctlOk x.ctl && x.aux == 0 && x.shape.toNat ≤ 4 && x.sub.toNat ≤ 1
  | .tmmasp x => ctlOk x.ctl && x.shape.toNat ≤ 4 && hi2 x.sub == 0
  | .tcvt x => ctlOk x.ctl && x.ctl.uni && x.b == 0 && zeroFrom 2 x.aux && x.cv == 0 && !x.keep && x.shape == 0 && !x.sub.getLsbD 3
  | .tscl x => ctlOk x.ctl && x.ctl.uni && zeroFrom 1 x.aux && x.cv == 0 && !x.keep && x.shape == 0 && hi2 x.sub == 0
  | .cvset x => ctlOk x.ctl && x.ctl.uni && zeroFrom 4 x.dst && x.a == 0 && 1 ≤ x.imm.toNat && x.imm.toNat ≤ 12288
  | .dlaunch x => ctlOk x.ctl && x.ctl.uni && x.ctl.scope == 0 && x.r2 == 0 && x.imm == 0
  | .emit x => ctlOk x.ctl && plainX x.ctl && x.r2 == 0 && zeroFrom 6 x.imm
  | .nclose x => ctlOk x.ctl && plainX x.ctl && x.ctl.uni && x.r1 == 0 && x.r2 == 0 && zeroFrom 6 x.imm
  | .qpush x => ctlOk x.ctl && plainX x.ctl && x.r2 == 0 && zeroFrom 3 x.imm
  | .qpop x => ctlOk x.ctl && plainX x.ctl && x.r2 == 0 && zeroFrom 3 x.imm
  | .qpeek x => ctlOk x.ctl && plainX x.ctl && x.r2 == 0 && zeroFrom 3 x.imm
  | .hcall x => ctlOk x.ctl && x.imm == 0
  | .hret x => ctlOk x.ctl && x.off == 0 && x.imm == 0
  | .board x => ctlOk x.ctl && x.ctl.uni && scopeOk x.ctl && x.imm == 0
  | .alight x => ctlOk x.ctl && plainX x.ctl && x.ctl.uni && x.r2 == 0 && x.imm == 0
  | .ringack x => ctlOk x.ctl && plainX x.ctl && x.ctl.uni && x.imm == 0
  | .stripq x => ctlOk x.ctl && plainX x.ctl && x.r2 == 0 && zeroFrom 2 x.imm
  | .spstart x => ctlOk x.ctl && x.ctl.uni && zeroFrom 4 x.imm
  | .spstop x => ctlOk x.ctl && x.ctl.uni && x.off == 0 && x.reg == 0 && zeroFrom 1 x.imm
  | .tex x => ctlOk x.ctl && plainX x.ctl && x.imm == 0
  | .texl x => ctlOk x.ctl && plainX x.ctl && x.imm == 0
  | .texg x => ctlOk x.ctl && plainX x.ctl && x.imm == 0
  | .texq x => ctlOk x.ctl && plainX x.ctl && x.imm == 0
  | .imst x => ctlOk x.ctl && plainX x.ctl && x.imm == 0
  | .trace x => ctlOk x.ctl && plainX x.ctl && !x.ctl.uni && x.r2 == 0 && x.imm == 0
  | .hitacc x => ctlOk x.ctl && plainX x.ctl && !x.ctl.uni && x.r2 == 0 && x.imm == 0
  | .hitign x => ctlOk x.ctl && plainX x.ctl && !x.ctl.uni && x.r2 == 0 && x.imm == 0
  | .hitend x => ctlOk x.ctl && plainX x.ctl && !x.ctl.uni && x.r2 == 0 && x.imm == 0
  | .tblw x => ctlOk x.ctl && plainX x.ctl && x.imm.toNat ≤ 2
  | .tblr x => ctlOk x.ctl && plainX x.ctl && x.imm.toNat ≤ 2
  | .tblinv x => ctlOk x.ctl && (!x.ctl.flag && zeroFrom 2 x.imm && (x.ctl.scope == 4 || (x.ctl.scope == 2 && x.imm == 3)))
  | .time x => ctlOk x.ctl && x.a == 0 && x.imm.toNat ≤ 2
  | .wait x => ctlOk x.ctl && orderOk x.ctl && fld x.imm 0 2 ≠ 3 && fld x.imm 2 2 ≠ 3 && zeroFrom 4 x.imm
  | .stamp x => ctlOk x.ctl && scopeOk x.ctl && !x.ctl.flag && x.imm == 0
  | .bari x => ctlOk x.ctl && plainX x.ctl && zeroFrom 1 x.imm
  | .bara x => ctlOk x.ctl && orderOk x.ctl && x.imm == 0
  | .barw x => ctlOk x.ctl && orderOk x.ctl && x.imm == 0
  | .ctadd x => ctlOk x.ctl && orderOk x.ctl && zeroFrom 1 x.imm
  | .mon x => ctlOk x.ctl && x.imm == 0 && Monitor.allocated x.num
  | .unallocatedOpcode w => opcodeFree w
  | .sleepWake _ _ _ => true
  | .loadReturn _ _ _ _ _ => true
  | .presenceWake _ _ _ => true
  | .storeQueuePerform _ _ _ => true
  | .reedWindow => true
  | .putDelivery _ => true
  | .putStrictResolve _ _ _ => true
  | .shuttleQueueRoom _ _ _ => true
  | .shuttleStart _ => true
  | .shuttleComplete _ => true
  | .tallocFrameFreed _ _ => true
  | .ttakeGrant _ _ => true
  | .tileQueueRoom _ _ => true
  | .tileCommandExecute _ => true
  | .tileCommandComplete _ => true
  | .arenaRoom _ _ _ => true
  | .qpushRoom _ _ => true
  | .qpopWake _ _ => true
  | .heddleArrive _ _ => true
  | .heddleTimeout _ _ => true
  | .scarabShaderCall _ _ _ => true
  | .traversalEnd _ _ _ => true
  | .waitSatisfied _ _ _ => true
  | .barwComplete _ _ _ => true
  | .runGrant _ _ => true
  | .launchHeadCheck _ _ _ => true
  | .workgroupAdmit _ _ _ => true
  | .nodeLaunch _ _ _ _ => true
  | .gridRetire _ _ => true
  | .vacateDrainEnd _ => true
  | .vacateEnd _ => true
  | .workgroupRestore _ _ _ _ => true
  | .heldEventPost _ => true
  | .treadleAdmit _ => true
  | .stripDenied _ => true
  | .binnerRecord _ _ => true
  | .rasterAccept _ _ => true
  | .blenderRecord _ _ => true
  | .blenderWriteStrip _ _ => true
  | .lowresComplete _ _ => true
  | .upscalerFeed _ _ => true
  | .stripWriterRecord _ _ => true
  | .headStripRead _ => true
  | .stripSlotFree _ => true
  | .encodeStripTake _ => true
  | .ringAdopt => true
  | .tileInject => true
  | .holdTimeout => true
  | .tapCatch _ => true
  | .tileLand _ _ => true
  | .lineRecall _ _ => true
  | .pageWalk _ _ _ _ _ => true
  | .carveRaise _ => true
  | .carveLower _ => true
  | .watchdog _ _ _ => true
  | .launchRecordWrite _ _ _ => true
  | .sessionLate _ => true
  | .encodeStripEnd _ => true
  | .ringctlEnable _ => true
  | .ringctlDisable _ => true
  | .ringnextWrite _ => true
  | .monitorCheck _ _ _ => true
  | .tcset _ => true
  | .tcofs _ => true
  | .tcrate _ => true
  | .ptmDialogue _ => true
  | .ctxupd _ => true
  | .scheduleEnable _ => true
  | .scheduleDisable _ => true
  | .dbgresContinue _ _ _ => true
  | .dbgresStep _ _ _ => true
  | .dbgresContinueAfter _ _ _ => true
  | .dbgresKill _ _ _ => true
  | .faultresResume _ _ => true
  | .faultresAbandon _ _ => true
  | .freeadd _ _ => true
  | .preemptN _ _ => true
  | .preemptAll _ => true
  | .ctxreset _ => true
  | .evrdWrite _ _ => true
  | .devqrdWrite _ => true
  | .devqConfigWrite _ _ => true
  | .errorCounterClear _ _ => true
  | .tlbinv _ => true
  | .encoderPartitionWrite _ => true
  | .registerWrite _ _ => true
  | .hostApertureRead _ _ => true
  | .hostApertureWrite _ _ => true
  | .hostAtomicop _ _ _ _ _ => true
  | .conventionalReset _ => true
  | .functionLevelReset => true
  | .mailboxImage _ => true
  | .getVersion => true
  | .getCapabilities => true
  | .negotiateAlgorithms _ => true
  | .getCertificate _ _ => true
  | .challenge _ => true
  | .getMeasurements _ => true
  | .modulePowerLoss => true
  | .tlbInvalidationEnd => true
  | .displayportLinkTraining _ _ => true

/-- `Instr.wellFormed` as a proposition. -/
abbrev WellFormed (i : Instr) : Prop := i.wellFormed = true

end Sys2Proof
end

