-- ==== Sys2Proof/Decode.lean ====
section
/-! DEFINITION. Decoding of instruction words, total on every word, and the encoder from the same tables of
03 (R57, R64, R68, R76 to R78). -/

namespace Sys2Proof

/-- Why a word is no instruction that a thread may execute: a field of it raises ILLEGAL_FIELD (03 R69). -/
inductive DecodeError where
  | illegalField
  deriving DecidableEq, Repr

/-- Opcode field [63:55] (03 R57). -/
def wordOpcode (w : Word) : Nat := fld w 55 9

/-- A word whose opcode field is 0x1FF is a block header (03 R57). -/
def isHeader (w : Word) : Bool := wordOpcode w == 0x1FF

/-- The fields [54:44] common to every instruction (03 R64). -/
def ctlOf (w : Word) : Ctl :=
  { guard := w.extractLsb' 50 5, mid := w.extractLsb' 46 4, runEnd := w.getLsbD 45, uni := w.getLsbD 44 }

/-- The fields of format R (03 R68). -/
def fmtROf (w : Word) : FmtR :=
  { ctl := ctlOf w, dst := w.extractLsb' 34 10, a := w.extractLsb' 24 10, b := w.extractLsb' 14 10,
    mod := w.extractLsb' 2 12, sub := w.extractLsb' 0 2 }

/-- The fields of format I (03 R68). -/
def fmtIOf (w : Word) : FmtI :=
  { ctl := ctlOf w, dst := w.extractLsb' 34 10, a := w.extractLsb' 24 10, imm := w.extractLsb' 0 24 }

/-- The fields of format F (03 R68). -/
def fmtFOf (w : Word) : FmtF :=
  { ctl := ctlOf w, dst := w.extractLsb' 34 10, a := w.extractLsb' 24 10, b := w.extractLsb' 14 10,
    c := w.extractLsb' 4 10, sub := w.extractLsb' 0 4 }

/-- The fields of format M (03 R68). -/
def fmtMOf (w : Word) : FmtM :=
  { ctl := ctlOf w, data := w.extractLsb' 34 10, base := w.extractLsb' 24 10, off := w.extractLsb' 0 24 }

/-- The fields of format C (03 R68). -/
def fmtCOf (w : Word) : FmtC :=
  { ctl := ctlOf w, off := w.extractLsb' 20 24, reg := w.extractLsb' 10 10, imm := w.extractLsb' 0 10 }

/-- The fields of format S (03 R68). -/
def fmtSOf (w : Word) : FmtS :=
  { ctl := ctlOf w, reg := w.extractLsb' 34 10, num := w.extractLsb' 22 12, imm := w.extractLsb' 0 22 }

/-- The fields of format T (03 R68). -/
def fmtTOf (w : Word) : FmtT :=
  { ctl := ctlOf w, d := w.extractLsb' 36 8, a := w.extractLsb' 28 8, b := w.extractLsb' 20 8,
    aux := w.extractLsb' 12 8, cv := w.extractLsb' 8 4, keep := w.getLsbD 7, shape := w.extractLsb' 4 3,
    sub := w.extractLsb' 0 4 }

/-- The fields of format X (03 R68). -/
def fmtXOf (w : Word) : FmtX :=
  { ctl := ctlOf w, r1 := w.extractLsb' 34 10, r2 := w.extractLsb' 24 10, imm := w.extractLsb' 0 24 }

/-- Opcode and common fields, [63:44]. -/
def packHead (op : Nat) (c : Ctl) : BitVec 20 :=
  BitVec.ofNat 9 op ++ c.guard ++ c.mid ++ BitVec.ofBool c.runEnd ++ BitVec.ofBool c.uni

/-- A word of format R. -/
def packR (op : Nat) (x : FmtR) : Word := packHead op x.ctl ++ (x.dst ++ x.a ++ x.b ++ x.mod ++ x.sub : BitVec 44)
/-- A word of format I. -/
def packI (op : Nat) (x : FmtI) : Word := packHead op x.ctl ++ (x.dst ++ x.a ++ x.imm : BitVec 44)
/-- A word of format F. -/
def packF (op : Nat) (x : FmtF) : Word := packHead op x.ctl ++ (x.dst ++ x.a ++ x.b ++ x.c ++ x.sub : BitVec 44)
/-- A word of format M. -/
def packM (op : Nat) (x : FmtM) : Word := packHead op x.ctl ++ (x.data ++ x.base ++ x.off : BitVec 44)
/-- A word of format C. -/
def packC (op : Nat) (x : FmtC) : Word := packHead op x.ctl ++ (x.off ++ x.reg ++ x.imm : BitVec 44)
/-- A word of format S. -/
def packS (op : Nat) (x : FmtS) : Word := packHead op x.ctl ++ (x.reg ++ x.num ++ x.imm : BitVec 44)
/-- A word of format T. -/
def packT (op : Nat) (x : FmtT) : Word :=
  packHead op x.ctl ++ (x.d ++ x.a ++ x.b ++ x.aux ++ x.cv ++ BitVec.ofBool x.keep ++ x.shape ++ x.sub : BitVec 44)
/-- A word of format X. -/
def packX (op : Nat) (x : FmtX) : Word := packHead op x.ctl ++ (x.r1 ++ x.r2 ++ x.imm : BitVec 44)

/-- What an opcode's words hold: the format and the form it names. -/
inductive Form where
  | r (mk : FmtR → Instr)
  | i (mk : FmtI → Instr)
  | f (mk : FmtF → Instr)
  | m (mk : FmtM → Instr)
  | c (mk : FmtC → Instr)
  | s (mk : FmtS → Instr)
  | t (mk : FmtT → Instr)
  | x (mk : FmtX → Instr)

/-- The form of a word, its fields taken from the word. -/
def Form.read (w : Word) : Form → Instr
  | .r mk => mk (fmtROf w)
  | .i mk => mk (fmtIOf w)
  | .f mk => mk (fmtFOf w)
  | .m mk => mk (fmtMOf w)
  | .c mk => mk (fmtCOf w)
  | .s mk => mk (fmtSOf w)
  | .t mk => mk (fmtTOf w)
  | .x mk => mk (fmtXOf w)

/-- 03 R76: integer forms. -/
def opcodesInt : List (Nat × Form) :=
  [(0x000, .r .nop),
   (0x001, .r .add),
   (0x002, .r .sub),
   (0x003, .r .adds),
   (0x004, .r .addsn),
   (0x005, .r .subs),
   (0x006, .r .subsn),
   (0x007, .r .mul),
   (0x008, .r .mulhs),
   (0x009, .r .mulhn),
   (0x00A, .f .mad),
   (0x00B, .f .madw),
   (0x00C, .r .mins),
   (0x00D, .r .minn),
   (0x00E, .r .maxs),
   (0x00F, .r .maxn),
   (0x010, .r .abs),
   (0x011, .r .neg),
   (0x012, .r .and),
   (0x013, .r .or),
   (0x014, .r .xor),
   (0x015, .r .andn),
   (0x016, .r .shl),
   (0x017, .r .shr),
   (0x018, .r .sar),
   (0x019, .r .rol),
   (0x01A, .f .bfx),
   (0x01B, .f .bfxs),
   (0x01C, .f .bfi),
   (0x01D, .r .popc),
   (0x01E, .r .clz),
   (0x01F, .r .brev),
   (0x020, .i .addi),
   (0x021, .i .muli),
   (0x022, .i .andi),
   (0x023, .i .ori),
   (0x024, .i .xori),
   (0x025, .i .shli),
   (0x026, .i .shri),
   (0x027, .i .sari),
   (0x028, .i .movi),
   (0x029, .i .movhi),
   (0x02A, .i .movti),
   (0x02B, .r .mov),
   (0x02C, .r .addp),
   (0x02D, .f .dot4s),
   (0x02E, .f .dot4n),
   (0x02F, .f .sad)]

/-- 03 R76: predicate, skein-wide, control and system forms. -/
def opcodesControl : List (Nat × Form) :=
  [(0x040, .r .cmps),
   (0x041, .r .cmpn),
   (0x042, .i .cmpsi),
   (0x043, .i .cmpni),
   (0x044, .r .pand),
   (0x045, .r .por),
   (0x046, .r .pxor),
   (0x047, .r .pnot),
   (0x048, .r .ppop),
   (0x049, .r .ppush),
   (0x04A, .r fun x => if x.sub = 1 then .pmovSet x else .pmovGet x),
   (0x04B, .r .sel),
   (0x04C, .r .vote),
   (0x04D, .r .perm),
   (0x04E, .r .scan),
   (0x04F, .r .rduc),
   (0x050, .r .matchMask),
   (0x060, .c .bra),
   (0x061, .c .brx),
   (0x062, .c .call),
   (0x063, .c .callx),
   (0x064, .c .ret),
   (0x065, .c .exit),
   (0x066, .c .yield),
   (0x067, .c .bar),
   (0x068, .c .trap),
   (0x069, .c .brk),
   (0x06A, .c .tret),
   (0x06B, .c .escl),
   (0x06C, .s .srd),
   (0x06D, .s .swr),
   (0x06E, .i .sview),
   (0x06F, .c .fencei),
   (0x070, .c .sleep)]

/-- 03 R76: floating-point and conversion forms. -/
def opcodesFloat : List (Nat × Form) :=
  [(0x080, .r .fadd),
   (0x081, .r .fsub),
   (0x082, .r .fmul),
   (0x083, .f .ffma),
   (0x084, .r .fmin),
   (0x085, .r .fmax),
   (0x086, .r .fcmp),
   (0x087, .r .fcls),
   (0x088, .r .frcp),
   (0x089, .r .frsq),
   (0x08A, .r .fsqrt),
   (0x08B, .r .fex2),
   (0x08C, .r .flg2),
   (0x08D, .r .fsin),
   (0x08E, .r .fcos),
   (0x08F, .r .ffrc),
   (0x090, .r .frnd),
   (0x091, .r .fdiv),
   (0x092, .r .fscl),
   (0x093, .f .fclmp),
   (0x094, .r .dadd),
   (0x095, .r .dmul),
   (0x096, .f .dfma),
   (0x097, .r .dcmp),
   (0x098, .r .pkadd),
   (0x099, .r .pkmul),
   (0x09A, .f .pkfma),
   (0x09B, .r .hadd2),
   (0x09C, .r .hmul2),
   (0x09D, .f .hfma2),
   (0x09E, .r .hmin2),
   (0x09F, .r .hmax2),
   (0x0A0, .f .fdot2),
   (0x0A1, .f .fdot4e),
   (0x0A2, .f .flerp),
   (0x0E0, .i .cvtff),
   (0x0E1, .i .cvtfi),
   (0x0E2, .i .cvtif),
   (0x0E3, .r .cvtsr),
   (0x0E4, .f .pack),
   (0x0E5, .f .unpk),
   (0x0E6, .r .rng),
   (0x0E7, .i .rngi)]

/-- 03 R76: loads, stores and atomics. -/
def opcodesAccess : List (Nat × Form) :=
  [(0x100, .m (.ld .s8)),
   (0x101, .m (.ld .n8)),
   (0x102, .m (.ld .s16)),
   (0x103, .m (.ld .n16)),
   (0x104, .m (.ld .b32)),
   (0x105, .m (.ld .b64)),
   (0x106, .m (.ld .b128)),
   (0x107, .m (.ldg .s8)),
   (0x108, .m (.ldg .n8)),
   (0x109, .m (.ldg .s16)),
   (0x10A, .m (.ldg .n16)),
   (0x10B, .m (.ldg .b32)),
   (0x10C, .m (.ldg .b64)),
   (0x10D, .m (.ldg .b128)),
   (0x10E, .m (.st .b8)),
   (0x10F, .m (.st .b16)),
   (0x110, .m (.st .b32)),
   (0x111, .m (.st .b64)),
   (0x112, .m (.st .b128)),
   (0x120, .m (.atom .add false)),
   (0x121, .m (.atom .add true)),
   (0x122, .m (.atom .mins false)),
   (0x123, .m (.atom .mins true)),
   (0x124, .m (.atom .minn false)),
   (0x125, .m (.atom .minn true)),
   (0x126, .m (.atom .maxs false)),
   (0x127, .m (.atom .maxs true)),
   (0x128, .m (.atom .maxn false)),
   (0x129, .m (.atom .maxn true)),
   (0x12A, .m (.atom .and false)),
   (0x12B, .m (.atom .and true)),
   (0x12C, .m (.atom .or false)),
   (0x12D, .m (.atom .or true)),
   (0x12E, .m (.atom .xor false)),
   (0x12F, .m (.atom .xor true)),
   (0x130, .m (.atom .exch false)),
   (0x131, .m (.atom .exch true)),
   (0x132, .m (.atom .cas false)),
   (0x133, .m (.atom .cas true)),
   (0x134, .m (.atom .fadd false)),
   (0x135, .m (.atom .fadd true))]

/-- 03 R76: reductions, fences, maintenance, puts and copies. -/
def opcodesReduce : List (Nat × Form) :=
  [(0x140, .m (.red .add false)),
   (0x141, .m (.red .add true)),
   (0x142, .m (.red .mins false)),
   (0x143, .m (.red .mins true)),
   (0x144, .m (.red .minn false)),
   (0x145, .m (.red .minn true)),
   (0x146, .m (.red .maxs false)),
   (0x147, .m (.red .maxs true)),
   (0x148, .m (.red .maxn false)),
   (0x149, .m (.red .maxn true)),
   (0x14A, .m (.red .and false)),
   (0x14B, .m (.red .and true)),
   (0x14C, .m (.red .or false)),
   (0x14D, .m (.red .or true)),
   (0x14E, .m (.red .xor false)),
   (0x14F, .m (.red .xor true)),
   (0x150, .m (.red .fadd false)),
   (0x151, .m (.red .fadd true)),
   (0x180, .m .fence),
   (0x181, .x .cmo),
   (0x182, .m .pref),
   (0x183, .x .put),
   (0x184, .x .putm),
   (0x185, .x .cpy),
   (0x186, .x .cpyq),
   (0x187, .x .spz),
   (0x188, .x .spabs),
   (0x189, .x .spcrd),
   (0x18A, .x .carve),
   (0x18B, .x fun x => if x.imm = 1 then .ddupqSt x else .ddupqFp x)]

/-- 03 R76: tile, queue, table and counter forms. -/
def opcodesEngine : List (Nat × Form) :=
  [(0x1A0, .t .talloc),
   (0x1A1, .t .tfree),
   (0x1A2, .t .tgive),
   (0x1A3, .t .ttake),
   (0x1A4, .x .tload),
   (0x1A5, .x .tloadr),
   (0x1A6, .x .tstore),
   (0x1A7, .x .tstorer),
   (0x1A8, .t .tzero),
   (0x1A9, .t .tmma),
   (0x1AA, .t .tmmasp),
   (0x1AB, .t .tcvt),
   (0x1AC, .t .tscl),
   (0x1AD, .x .tqry),
   (0x1AE, .i .cvset),
   (0x1C0, .x .dlaunch),
   (0x1C1, .x .emit),
   (0x1C2, .x .nclose),
   (0x1C3, .x .qpush),
   (0x1C4, .x .qpop),
   (0x1C5, .x .qpeek),
   (0x1C6, .c .hcall),
   (0x1C7, .c .hret),
   (0x1C8, .x .board),
   (0x1C9, .x .alight),
   (0x1CA, .x .ringack),
   (0x1CB, .x .stripq),
   (0x1CC, .c .spstart),
   (0x1CD, .c .spstop),
   (0x1D8, .x .tex),
   (0x1D9, .x .texl),
   (0x1DA, .x .texg),
   (0x1DB, .x .texq),
   (0x1DC, .x .imst),
   (0x1DD, .x .trace),
   (0x1DE, .x .hitacc),
   (0x1DF, .x .hitign),
   (0x1E0, .x .hitend),
   (0x1E1, .x .tblw),
   (0x1E2, .x .tblr),
   (0x1E3, .x .tblinv),
   (0x1E8, .x .wait),
   (0x1E9, .x .stamp),
   (0x1EA, .x .bari),
   (0x1EB, .x .bara),
   (0x1EC, .x .barw),
   (0x1ED, .x .ctadd),
   (0x1EE, .i .time),
   (0x1EF, .s .mon)]

/-- The opcode map of 03 R76 and R77. -/
def opcodes : List (Nat × Form) :=
  opcodesInt ++ (opcodesControl ++ (opcodesFloat ++ (opcodesAccess ++ (opcodesReduce ++ opcodesEngine))))

/-- Position of an LD or LDG size in its opcodes (03 R76). -/
def LdSize.code : LdSize → Nat
  | .s8 => 0 | .n8 => 1 | .s16 => 2 | .n16 => 3 | .b32 => 4 | .b64 => 5 | .b128 => 6

/-- Position of an ST size in its opcodes (03 R76). -/
def StSize.code : StSize → Nat
  | .b8 => 0 | .b16 => 1 | .b32 => 2 | .b64 => 3 | .b128 => 4

/-- k of 03 R77 for ATOM. -/
def AtomOp.code : AtomOp → Nat
  | .add => 0 | .mins => 1 | .minn => 2 | .maxs => 3 | .maxn => 4 | .and => 5 | .or => 6 | .xor => 7
  | .exch => 8 | .cas => 9 | .fadd => 10

/-- k of 03 R77 for RED, whose list leaves EXCH and CAS out; those two have no RED opcode. -/
def AtomOp.redCode : AtomOp → Option Nat
  | .exch => none
  | .cas => none
  | .fadd => some 8
  | op => some op.code

/-- The instruction a word denotes: ILLEGAL_FIELD where a field of it is not admitted, and the form of an
unallocated opcode, which executing raises ILLEGAL_OP, for every other opcode (03 R69, R78). -/
def decode (w : Word) : Except DecodeError Instr :=
  match opcodes.lookup (wordOpcode w) with
  | some f =>
    let i := f.read w
    if i.wellFormed then .ok i else .error .illegalField
  | none => .ok (.unallocatedOpcode w)

/-- The word of an instruction form (03 R64, R68, R76, R77); a device step has none. -/
def encode : Instr → Option Word
  | .nop x => some (packR 0x000 x)
  | .add x => some (packR 0x001 x)
  | .sub x => some (packR 0x002 x)
  | .adds x => some (packR 0x003 x)
  | .addsn x => some (packR 0x004 x)
  | .subs x => some (packR 0x005 x)
  | .subsn x => some (packR 0x006 x)
  | .mul x => some (packR 0x007 x)
  | .mulhs x => some (packR 0x008 x)
  | .mulhn x => some (packR 0x009 x)
  | .mad x => some (packF 0x00A x)
  | .madw x => some (packF 0x00B x)
  | .mins x => some (packR 0x00C x)
  | .minn x => some (packR 0x00D x)
  | .maxs x => some (packR 0x00E x)
  | .maxn x => some (packR 0x00F x)
  | .abs x => some (packR 0x010 x)
  | .neg x => some (packR 0x011 x)
  | .and x => some (packR 0x012 x)
  | .or x => some (packR 0x013 x)
  | .xor x => some (packR 0x014 x)
  | .andn x => some (packR 0x015 x)
  | .shl x => some (packR 0x016 x)
  | .shr x => some (packR 0x017 x)
  | .sar x => some (packR 0x018 x)
  | .rol x => some (packR 0x019 x)
  | .bfx x => some (packF 0x01A x)
  | .bfxs x => some (packF 0x01B x)
  | .bfi x => some (packF 0x01C x)
  | .popc x => some (packR 0x01D x)
  | .clz x => some (packR 0x01E x)
  | .brev x => some (packR 0x01F x)
  | .addi x => some (packI 0x020 x)
  | .muli x => some (packI 0x021 x)
  | .andi x => some (packI 0x022 x)
  | .ori x => some (packI 0x023 x)
  | .xori x => some (packI 0x024 x)
  | .shli x => some (packI 0x025 x)
  | .shri x => some (packI 0x026 x)
  | .sari x => some (packI 0x027 x)
  | .movi x => some (packI 0x028 x)
  | .movhi x => some (packI 0x029 x)
  | .movti x => some (packI 0x02A x)
  | .mov x => some (packR 0x02B x)
  | .addp x => some (packR 0x02C x)
  | .dot4s x => some (packF 0x02D x)
  | .dot4n x => some (packF 0x02E x)
  | .sad x => some (packF 0x02F x)
  | .cmps x => some (packR 0x040 x)
  | .cmpn x => some (packR 0x041 x)
  | .cmpsi x => some (packI 0x042 x)
  | .cmpni x => some (packI 0x043 x)
  | .pand x => some (packR 0x044 x)
  | .por x => some (packR 0x045 x)
  | .pxor x => some (packR 0x046 x)
  | .pnot x => some (packR 0x047 x)
  | .ppop x => some (packR 0x048 x)
  | .ppush x => some (packR 0x049 x)
  | .pmovGet x => some (packR 0x04A x)
  | .pmovSet x => some (packR 0x04A x)
  | .sel x => some (packR 0x04B x)
  | .vote x => some (packR 0x04C x)
  | .perm x => some (packR 0x04D x)
  | .scan x => some (packR 0x04E x)
  | .rduc x => some (packR 0x04F x)
  | .matchMask x => some (packR 0x050 x)
  | .bra x => some (packC 0x060 x)
  | .brx x => some (packC 0x061 x)
  | .call x => some (packC 0x062 x)
  | .callx x => some (packC 0x063 x)
  | .ret x => some (packC 0x064 x)
  | .exit x => some (packC 0x065 x)
  | .yield x => some (packC 0x066 x)
  | .bar x => some (packC 0x067 x)
  | .trap x => some (packC 0x068 x)
  | .brk x => some (packC 0x069 x)
  | .tret x => some (packC 0x06A x)
  | .escl x => some (packC 0x06B x)
  | .srd x => some (packS 0x06C x)
  | .swr x => some (packS 0x06D x)
  | .sview x => some (packI 0x06E x)
  | .fencei x => some (packC 0x06F x)
  | .sleep x => some (packC 0x070 x)
  | .fadd x => some (packR 0x080 x)
  | .fsub x => some (packR 0x081 x)
  | .fmul x => some (packR 0x082 x)
  | .ffma x => some (packF 0x083 x)
  | .fmin x => some (packR 0x084 x)
  | .fmax x => some (packR 0x085 x)
  | .fcmp x => some (packR 0x086 x)
  | .fcls x => some (packR 0x087 x)
  | .frcp x => some (packR 0x088 x)
  | .frsq x => some (packR 0x089 x)
  | .fsqrt x => some (packR 0x08A x)
  | .fex2 x => some (packR 0x08B x)
  | .flg2 x => some (packR 0x08C x)
  | .fsin x => some (packR 0x08D x)
  | .fcos x => some (packR 0x08E x)
  | .ffrc x => some (packR 0x08F x)
  | .frnd x => some (packR 0x090 x)
  | .fdiv x => some (packR 0x091 x)
  | .fscl x => some (packR 0x092 x)
  | .fclmp x => some (packF 0x093 x)
  | .dadd x => some (packR 0x094 x)
  | .dmul x => some (packR 0x095 x)
  | .dfma x => some (packF 0x096 x)
  | .dcmp x => some (packR 0x097 x)
  | .pkadd x => some (packR 0x098 x)
  | .pkmul x => some (packR 0x099 x)
  | .pkfma x => some (packF 0x09A x)
  | .hadd2 x => some (packR 0x09B x)
  | .hmul2 x => some (packR 0x09C x)
  | .hfma2 x => some (packF 0x09D x)
  | .hmin2 x => some (packR 0x09E x)
  | .hmax2 x => some (packR 0x09F x)
  | .fdot2 x => some (packF 0x0A0 x)
  | .fdot4e x => some (packF 0x0A1 x)
  | .flerp x => some (packF 0x0A2 x)
  | .cvtff x => some (packI 0x0E0 x)
  | .cvtfi x => some (packI 0x0E1 x)
  | .cvtif x => some (packI 0x0E2 x)
  | .cvtsr x => some (packR 0x0E3 x)
  | .pack x => some (packF 0x0E4 x)
  | .unpk x => some (packF 0x0E5 x)
  | .rng x => some (packR 0x0E6 x)
  | .rngi x => some (packI 0x0E7 x)
  | .ld sz x => some (packM (0x100 + sz.code) x)
  | .ldg sz x => some (packM (0x107 + sz.code) x)
  | .st sz x => some (packM (0x10E + sz.code) x)
  | .atom op wide x => some (packM (0x120 + 2 * op.code + wide.toNat) x)
  | .red op wide x => op.redCode.map fun k => packM (0x140 + 2 * k + wide.toNat) x
  | .fence x => some (packM 0x180 x)
  | .cmo x => some (packX 0x181 x)
  | .pref x => some (packM 0x182 x)
  | .put x => some (packX 0x183 x)
  | .putm x => some (packX 0x184 x)
  | .cpy x => some (packX 0x185 x)
  | .cpyq x => some (packX 0x186 x)
  | .spz x => some (packX 0x187 x)
  | .spabs x => some (packX 0x188 x)
  | .spcrd x => some (packX 0x189 x)
  | .carve x => some (packX 0x18A x)
  | .ddupqFp x => some (packX 0x18B x)
  | .ddupqSt x => some (packX 0x18B x)
  | .talloc x => some (packT 0x1A0 x)
  | .tfree x => some (packT 0x1A1 x)
  | .tgive x => some (packT 0x1A2 x)
  | .ttake x => some (packT 0x1A3 x)
  | .tqry x => some (packX 0x1AD x)
  | .tload x => some (packX 0x1A4 x)
  | .tloadr x => some (packX 0x1A5 x)
  | .tstore x => some (packX 0x1A6 x)
  | .tstorer x => some (packX 0x1A7 x)
  | .tzero x => some (packT 0x1A8 x)
  | .tmma x => some (packT 0x1A9 x)
  | .tmmasp x => some (packT 0x1AA x)
  | .tcvt x => some (packT 0x1AB x)
  | .tscl x => some (packT 0x1AC x)
  | .cvset x => some (packI 0x1AE x)
  | .dlaunch x => some (packX 0x1C0 x)
  | .emit x => some (packX 0x1C1 x)
  | .nclose x => some (packX 0x1C2 x)
  | .qpush x => some (packX 0x1C3 x)
  | .qpop x => some (packX 0x1C4 x)
  | .qpeek x => some (packX 0x1C5 x)
  | .hcall x => some (packC 0x1C6 x)
  | .hret x => some (packC 0x1C7 x)
  | .board x => some (packX 0x1C8 x)
  | .alight x => some (packX 0x1C9 x)
  | .ringack x => some (packX 0x1CA x)
  | .stripq x => some (packX 0x1CB x)
  | .spstart x => some (packC 0x1CC x)
  | .spstop x => some (packC 0x1CD x)
  | .tex x => some (packX 0x1D8 x)
  | .texl x => some (packX 0x1D9 x)
  | .texg x => some (packX 0x1DA x)
  | .texq x => some (packX 0x1DB x)
  | .imst x => some (packX 0x1DC x)
  | .trace x => some (packX 0x1DD x)
  | .hitacc x => some (packX 0x1DE x)
  | .hitign x => some (packX 0x1DF x)
  | .hitend x => some (packX 0x1E0 x)
  | .tblw x => some (packX 0x1E1 x)
  | .tblr x => some (packX 0x1E2 x)
  | .tblinv x => some (packX 0x1E3 x)
  | .time x => some (packI 0x1EE x)
  | .wait x => some (packX 0x1E8 x)
  | .stamp x => some (packX 0x1E9 x)
  | .bari x => some (packX 0x1EA x)
  | .bara x => some (packX 0x1EB x)
  | .barw x => some (packX 0x1EC x)
  | .ctadd x => some (packX 0x1ED x)
  | .mon x => some (packS 0x1EF x)
  | .unallocatedOpcode w => some w
  | .sleepWake _ _ _ => none
  | .loadReturn _ _ _ _ _ => none
  | .presenceWake _ _ _ => none
  | .storeQueuePerform _ _ _ => none
  | .reedWindow => none
  | .putDelivery _ => none
  | .putStrictResolve _ _ _ => none
  | .shuttleQueueRoom _ _ _ => none
  | .shuttleStart _ => none
  | .shuttleComplete _ => none
  | .tallocFrameFreed _ _ => none
  | .ttakeGrant _ _ => none
  | .tileQueueRoom _ _ => none
  | .tileCommandExecute _ => none
  | .tileCommandComplete _ => none
  | .arenaRoom _ _ _ => none
  | .qpushRoom _ _ => none
  | .qpopWake _ _ => none
  | .heddleArrive _ _ => none
  | .heddleTimeout _ _ => none
  | .scarabShaderCall _ _ _ => none
  | .traversalEnd _ _ _ => none
  | .waitSatisfied _ _ _ => none
  | .barwComplete _ _ _ => none
  | .runGrant _ _ => none
  | .launchHeadCheck _ _ _ => none
  | .workgroupAdmit _ _ _ => none
  | .nodeLaunch _ _ _ _ => none
  | .gridRetire _ _ => none
  | .vacateDrainEnd _ => none
  | .vacateEnd _ => none
  | .workgroupRestore _ _ _ _ => none
  | .heldEventPost _ => none
  | .treadleAdmit _ => none
  | .stripDenied _ => none
  | .binnerRecord _ _ => none
  | .rasterAccept _ _ => none
  | .blenderRecord _ _ => none
  | .blenderWriteStrip _ _ => none
  | .lowresComplete _ _ => none
  | .upscalerFeed _ _ => none
  | .stripWriterRecord _ _ => none
  | .headStripRead _ => none
  | .stripSlotFree _ => none
  | .encodeStripTake _ => none
  | .ringAdopt => none
  | .tileInject => none
  | .holdTimeout => none
  | .tapCatch _ => none
  | .tileLand _ _ => none
  | .lineRecall _ _ => none
  | .pageWalk _ _ _ _ _ => none
  | .carveRaise _ => none
  | .carveLower _ => none
  | .watchdog _ _ _ => none
  | .launchRecordWrite _ _ _ => none
  | .sessionLate _ => none
  | .encodeStripEnd _ => none
  | .ringctlEnable _ => none
  | .ringctlDisable _ => none
  | .ringnextWrite _ => none
  | .monitorCheck _ _ _ => none
  | .tcset _ => none
  | .tcofs _ => none
  | .tcrate _ => none
  | .ptmDialogue _ => none
  | .ctxupd _ => none
  | .scheduleEnable _ => none
  | .scheduleDisable _ => none
  | .dbgresContinue _ _ _ => none
  | .dbgresStep _ _ _ => none
  | .dbgresContinueAfter _ _ _ => none
  | .dbgresKill _ _ _ => none
  | .faultresResume _ _ => none
  | .faultresAbandon _ _ => none
  | .freeadd _ _ => none
  | .preemptN _ _ => none
  | .preemptAll _ => none
  | .ctxreset _ => none
  | .evrdWrite _ _ => none
  | .devqrdWrite _ => none
  | .devqConfigWrite _ _ => none
  | .errorCounterClear _ _ => none
  | .tlbinv _ => none
  | .encoderPartitionWrite _ => none
  | .registerWrite _ _ => none
  | .hostApertureRead _ _ => none
  | .hostApertureWrite _ _ => none
  | .hostAtomicop _ _ _ _ _ => none
  | .conventionalReset _ => none
  | .functionLevelReset => none
  | .mailboxImage _ => none
  | .getVersion => none
  | .getCapabilities => none
  | .negotiateAlgorithms _ => none
  | .getCertificate _ _ => none
  | .challenge _ => none
  | .getMeasurements _ => none
  | .modulePowerLoss => none
  | .tlbInvalidationEnd => none
  | .displayportLinkTraining _ _ => none

/-- The bytes of a word as memory holds them, lowest address first (03 R57). -/
def wordBytes (w : Word) : List Byte := (List.range 8).map fun k => w.extractLsb' (8 * k) 8

/-- The word that eight bytes hold, lowest address first (03 R57). -/
def wordOfBytes (bs : List Byte) : Word :=
  bs.foldr (fun b acc => (acc <<< 8) ||| b.setWidth 64) 0

/-- The instruction the decoder reads from a word whose bits are numbered as spec/opcode_table.json numbers
them. An instruction is one 64-bit word, stored least significant byte first. -/
def decodeTableWord (_nbits w : Nat) : Option Instr :=
  match decode (wordOfBytes (wordBytes (BitVec.ofNat 64 w))) with
  | .ok i => some i
  | .error _ => none

end Sys2Proof
end

