-- ==== Sys2Proof/Config.lean ====
section
/-! DEFINITION. What the spec leaves open and the model does not choose: opaque constants. A free value is one of
them applied to a counter that the step reads and advances (State.free); no proof can see what it is. -/

namespace Sys2Proof.Config

/-- Free choice (log entry 2): a copy that may be kept or dropped, an order that nothing fixes. -/
opaque freeBool : Nat → Bool
/-- Free byte (log entry 2): a byte that the spec lets be one value or another. -/
opaque freeByte : Nat → Byte
/-- Free word (log entry 2). -/
opaque freeWord : Nat → Word
/-- SHA-384 (19 R461), log entry 13. -/
opaque sha384 : List Byte → BitVec 384
/-- Verification of an Ed25519 signature by RFC 8032 (19 R461): key, message, signature; log entry 13. -/
opaque ed25519Verify : List Byte → List Byte → List Byte → Bool
/-- Verification of an ML-DSA-65 signature by FIPS 204 (19 R461): key, message, signature; log entry 13. -/
opaque mldsaVerify : List Byte → List Byte → List Byte → Bool
/-- Fused hash of the Ed25519 key and of the ML-DSA-65 key (19 R461), log entry 13. -/
opaque fusedHash : Bool → BitVec 384
/-- The fused anti-rollback counter (19 R461), log entry 13. -/
opaque fusedVersion : BitVec 32
/-- The identity key's signature of a message: false Ed25519, true ML-DSA-65 (19 R462), log entry 13. -/
opaque identitySign : Bool → List Byte → List Byte
/-- The device certificate chain (19 R462), log entry 13. -/
opaque certificate : List Byte
/-- The sequence header OBU of a session of W by H pixels, and the frame header OBU of its frame of a number with the strips
and the log of the tile columns (12 R329), log entry 14. -/
opaque av1Sequence : Nat → Nat → List Byte
opaque av1Frame : Nat → Nat → Nat → List Byte
/-- The tile-group OBU of a strip: its row, the log of its tile columns, the references and its planes (12 R329), log entry 14. -/
opaque av1TileGroup : Nat → Nat → List Byte → List Byte → List Byte

/-- An encoder's references after a strip, from those before and its pixels (12 R327), log entry 14. -/
opaque av1Refs : List Byte → List Byte → List Byte

/-- The magic of a firmware image's header (19 R461), log entry 13. -/
opaque imageMagic : BitVec 32
/-- The 256 bytes of an image's header from its magic, version, payload size and digest (19 R461), log entry 13. -/
opaque headerBytes : BitVec 32 → BitVec 32 → Nat → BitVec 384 → List Byte
/-- The microcode that a payload holds: 1 distributor, 2 Treadle, 3 ring (19 R461), log entry 13. -/
opaque microcode : List Byte → Nat → List Byte
/-- The answer to an SPDM request of a kind other than those that carry measurements or the certificate (19 R462), log
entry 13. -/
opaque spdmReply : Nat → List Byte → List Byte

end Sys2Proof.Config
end

