-- ==== Sys2Proof/Machine/State.lean ====
section
/-! DEFINITION. The state of the device as plain data: threads, skeins, cores, workgroups, contexts, memories,
engines, tables' working copies, and the model's own fields (02, 04, 07 to 19). Sparse tables (SMap) list rising keys;
a missing entry reads as the default its docstring names. -/

namespace Sys2Proof.Machine

/-- Why the machine stops. -/
inductive Fault where
  /-- A step of an unpowered module: nothing runs (01 R31). Raised by `step`. Safe: the spec says that nothing runs. -/
  | unpowered
  deriving DecidableEq, Repr

/-- Why the model gives no meaning. -/
inductive Refusal where
  /-- An instruction whose meaning is not written. Raised by `exec` alone. Safe: the model stops. -/
  | notModelled (mnemonic : String)
  deriving DecidableEq, Repr

/-- The answer of a step. -/
abbrev Out (σ : Type) := Host.Outcome σ Fault Refusal

/-- The causes of 04 R97. -/
inductive Cause where
  | illegalOp | illegalField | badTarget | blockOverrun | regRange | stallShort | priv
  | align | page | prot | cowNopage | eccPoison
  | tileFreed | tileOwner | tileNoframe | cvrMismatch
  | launchFull | nestDepth | ringCorrupt | ringDropped | putDrop | barErr | engineErr
  | watchdog | brk | step | trap
  deriving DecidableEq, Repr

/-- A fault of one thread before it is routed: its cause and the values of 04 R98. `info` is the instruction word
where it is none; `acc` is the access of a replayable fault (07 R186). -/
structure Trap where
  cause : Cause
  addr : Word := 0
  info : Option Word := none
  acc : AccKind := .read
  deriving DecidableEq, Repr

/-- The trap record of a thread (04 R90). -/
structure TrapRec where
  cause : BitVec 32 := 0
  pc : Word := 0
  addr : Word := 0
  info : Word := 0
  pred : BitVec 8 := 0
  link : Word := 0
  blk : Word := 0
  view : Word := 0
  scrA : Word := 0
  scrB : Word := 0
  deriving DecidableEq, Repr

/-- VIEW0 to VIEW3 of a thread (03 R71, 04 R86); the defaults are those of 03 R72. -/
structure Views where
  v0 : BitVec 16 := 0xFC04
  v1 : BitVec 16 := 0xFC06
  v2 : BitVec 16 := 0xFC02
  v3 : BitVec 16 := 0xFC08
  deriving DecidableEq, Repr

/-- What a fixed-latency result changes when it lands (03 R66). Register bytes stand one by one, so that a later
write to some of them takes them out. -/
inductive Landing where
  | reg (bytes : List (Nat × Byte))
  | push (b : Bool)
  | pop (n : Nat)
  | setPred (p : BitVec 8)
  | link (w : Word)
  deriving DecidableEq, Repr

/-- A fixed-latency result in flight: the core cycle at which it lands (03 R66). -/
structure Pend where
  due : Nat
  what : Landing
  deriving DecidableEq, Repr

/-- A load's result held by the scoreboard (03 R66, 09 R233): destination address, bytes, and the 32-bit words of the
destination that arrive bad (07 R177, R204). -/
structure Held where
  addr : Nat
  bytes : List Byte
  bad : List Nat := []
  deriving DecidableEq, Repr

/-- What a waiting thread waits for (04 R94). -/
inductive WaitFor where
  /-- SLEEP until a core cycle (05 R136). -/
  | sleep (wake : Nat)
  /-- A load, atomic or put source on a line that is not present (07 R193); an access that an earlier one of its skein (08
  R209, R214, R226) or a copy-on-write (11 R297) keeps waiting. -/
  | presence
  /-- A host-kind load or atomic until the host link answers (07 R179). -/
  | link
  /-- BAR (05 R137). -/
  | bar
  /-- A .strict put whose deliveries have not all resolved (09 R243). -/
  | putStrict (id : Nat)
  /-- A full Shuttle queue (09 R244). -/
  | shuttleRoom
  /-- TALLOC of a handle whose frame awaits release (10 R265). -/
  | frameFreed
  /-- TTAKE of a handle that still has an owner (10 R265). -/
  | takeOwner
  /-- A full tile-command queue (10 R263). -/
  | tileRoom
  /-- A full node input arena (14 R354). -/
  | arenaRoom
  /-- QPUSH on a full queue (14 R358). -/
  | pushRoom
  /-- QPOP or QPEEK on an empty queue (14 R359). -/
  | popEntry
  /-- HCALL or HRET before the thread's pending writes have drained (14 R362). -/
  | heddleDrain
  /-- A thread that waits in a Heddle entry (14 R362). -/
  | heddle
  /-- TRACE while the Scarab traverses (17 R431). -/
  | trace
  /-- ALIGHT while a tile is landing (14 R366). -/
  | alight
  /-- WAIT (18 R442). -/
  | word
  /-- BARW (18 R447). -/
  | barrier
  deriving DecidableEq, Repr

/-- A waiting thread's instruction: what it waits for, its word and operands as issued, and the threads that wait as
one under the uniform bit (02 R38), and its place in the order of the skein's accesses (08 R209). -/
structure Wait where
  what : WaitFor
  instr : Instr
  word : Word
  lanes : List Nat
  vals : List Nat := []
  seq : Nat := 0
  deriving DecidableEq, Repr

/-- The thread states of 04 R94. -/
inductive ThreadState where
  | running
  | waiting (w : Wait)
  | replayParked
  | hostParked
  | debugParked
  | exited
  deriving DecidableEq, Repr

/-- A hit of a ray: the committed one, or a candidate (16 R421, R422); distances and barycentrics as f32 bits. -/
structure Hit where
  t : Nat
  b1 : Nat
  b2 : Nat
  inst : Nat
  geom : Nat
  prim : Nat
  front : Bool
  proc : Bool
  deriving DecidableEq, Repr

/-- One structure that a traversal is in (16 R419): its base, the ray in its space, the references still to visit with
their distance and depth, the triangles of the current leaf still to test, and the instance that reached it: its index,
hit-group index and forcing flags. -/
structure TravLevel where
  base : Nat
  o : List Nat
  d : List Nat
  stack : List (Nat × Nat × Nat)
  leaf : List Nat := []
  inst : Option (Nat × Nat × Nat) := none
  deriving DecidableEq, Repr

/-- A traversal of the Scarab (16 R419 to R422, 17 R431 to R433): the ray's bounds and masks, the structures it is in,
the best hit, the candidate whose shader runs or whose hit is submitted, with its any-hit shader and whether it is
opaque, and where its TRACE stands. -/
structure Trav where
  tmin : Nat
  tcur : Nat
  mask : Nat
  flags : Nat
  levels : List TravLevel
  best : Option Hit := none
  cand : Option (Hit × Nat × Bool) := none
  last : Bool := false
  pc : Word
  blk : Word
  word : Word
  deriving DecidableEq, Repr

/-- One thread (04 R85, R86, R90, R94). `regs` lists the register bytes that are not zero; `bad` the 32-bit words
marked bad and `perr` those with a parity error not yet detected (07 R204); `stopNext` is a debug stop that takes
effect when the thread would next run (04 R107); `stepNext` a step whose STEP awaits the end of a wait (04 R108); `trav` the
traversal that the Scarab makes for it, or whose shader it is to enter (17 R431, R432). -/
structure Thread where
  regs : SMap Byte := []
  bad : List Nat := []
  perr : List Nat := []
  pc : Word := 0
  blk : Word := 0
  link : Word := 0
  pred : BitVec 8 := 0
  sup : Bool := false
  views : Views := {}
  trec : TrapRec := {}
  st : ThreadState := .running
  pend : List Pend := []
  held : List Held := []
  shlevel : Nat := 0
  stopNext : Bool := false
  stepNext : Option Word := none
  trav : Option Trav := none
  deriving DecidableEq, Repr

/-- Where a checked access lands: the memory kinds of 07 R178 and the windows of R174. A scratchpad is that of one
cluster slot of a workgroup. -/
inductive Place where
  | dev (pa : Nat)
  | unc (pa : Nat)
  | host (pa : Nat)
  | peer (pa : Nat)
  | scr (wg : Nat) (cslot : Nat) (off : Nat)
  | aper (wg : Nat) (cslot : Nat) (off : Nat)
  | reg (slot : Nat) (lane : Nat) (off : Nat)
  | strip (off : Nat)
  deriving DecidableEq, Repr

/-- What a store-queue entry does when it performs at the core (08 R209). -/
inductive SqAct where
  | store (p : Place) (bytes : List Byte) (bad : List Nat) (priv : Bool)
  | red (p : Place) (op : AtomOp) (wide : Bool) (value : Nat)
  | cmo (level op : Nat) (ranges : List (Nat × Nat))
  | spz (wg cslot off n : Nat)
  | spabs (wg cslot off n : Nat)
  | spcrd (wg cslot j : Nat) (d : BitVec 32)
  | bari (wg cslot off expected : Nat) (arr : Bool)
  | arrive (wg cslot off n : Nat)
  | ctadd (p : Place) (v : Nat) (err : Bool)
  | fence
  deriving DecidableEq, Repr

/-- An entry of a skein's store queue: whether it is a release, its scope, and its place in the order of the skein's accesses
(08 R209, R214). -/
structure SqEntry where
  act : SqAct
  rel : Bool := false
  scope : Nat := 0
  lane : Nat := 0
  seq : Nat := 0
  deriving DecidableEq, Repr

/-- A skein in its slot (02 R35 to R37, 04 R91). `threads` has 32 entries; `joined` are the threads of the current
block and `blkEnd` the address after it (02 R42); `step` the threads that a DBGRES step runs (04 R108), `kept` and
`keptEnd` the block of the others meanwhile; `node` the graph node that launched it; `blocked` the results outstanding
and the runnable threads when the scoreboard last held its next word (02 R40); `dbg` the writes of DBGRES that its own threads have made and that
await the end of their instruction (04 R110); `ord` counts the entries and waits of the skein, to order its accesses (08
R209). -/
structure Skein where
  ctx : Nat
  grid : Nat
  wg : Nat
  idx : Nat
  alloc : Nat
  dbgctl : BitVec 3 := 0
  readyAt : Nat := 0
  sq : List SqEntry := []
  threads : List Thread := []
  joined : BitVec 32 := 0
  blkEnd : Word := 0
  yielded : Bool := false
  stop : Bool := false
  halt : Bool := false
  wdog : Option Nat := none
  step : BitVec 32 := 0
  kept : BitVec 32 := 0
  keptEnd : Word := 0
  node : Option Nat := none
  strict : Nat := 0
  regBytes : Nat := 0
  blocked : Option (Nat × List Nat) := none
  dbg : List (Nat × BitVec 32) := []
  ord : Nat := 0
  deriving DecidableEq, Repr

/-- What a context keeps of its entry: the other fields of 15 R381, with those of 04 R92 and 16 R386. -/
structure CtxVar where
  quota : Nat := 0
  lock : Bool := false
  ceiling : Nat := 0
  pendQuota : Nat := 0
  trapvec : Word := 0
  trapstk : Word := 0
  watchdog : Nat := 0
  carve : Nat := 0
  dbgdef : BitVec 3 := 0
  stackBase : Nat := 0
  stackSize : Nat := 0
  lowMark : Nat := 0
  layoutBase : Nat := 0
  texBase : Nat := 0
  sampBase : Nat := 0
  hitBase : Nat := 0
  texCount : Nat := 0
  sampCount : Nat := 0
  hitCount : Nat := 0
  deriving DecidableEq, Repr

/-- A run of a lane pipeline: slot, first cycle and instructions issued (02 R39), the core clock in MHz while it lasts
(01 R10), whether it is the run of a step (04 R108), and its context's fields where CTXUPD has read others meanwhile (15 R382). -/
structure Run where
  slot : Nat
  start : Nat
  count : Nat := 0
  mhz : Nat := 2000
  step : Bool := false
  var : Option CtxVar := none
  deriving DecidableEq, Repr

/-- A lane pipeline: rotation of its occupied slots, its run, and the cycle until which its last instruction occupies it
(02 R37, R39, R40). -/
structure Pipe where
  rot : List Nat := []
  run : Option Run := none
  busy : Nat := 0
  deriving DecidableEq, Repr

/-- A line of L1 (07 R190, R191): its bytes (missing 0), the poisoned 8-byte words, exclusive and dirty. -/
structure L1Line where
  data : SMap Byte := []
  poison : List Nat := []
  excl : Bool := false
  dirty : Bool := false
  deriving DecidableEq, Repr

/-- A TLB entry (07 R183): ASID, first address and log2 of the size of the page, and what its leaf gave. -/
structure TlbEntry where
  asid : Nat
  va : Nat
  bits : Nat
  pa : Nat
  kind : Nat
  user : Bool
  exec : Bool
  write : Bool
  dirty : Bool
  shared : Bool
  deriving DecidableEq, Repr

/-- A write on its way from a core to the home slice (08 R210): address and bytes, and the uncached kind. -/
structure WriteThrough where
  pa : Nat
  bytes : List Byte
  ctx : Nat
  unc : Bool := false
  deriving DecidableEq, Repr

/-- An entry of the locality predictor: line and cycles of its latest atomics (07 R191). -/
structure PredEntry where
  line : Nat
  times : List Nat
  deriving DecidableEq, Repr

/-- An event of 11 R299, before its sequence is known to the host. `core` and `slot` are 0xFF and 0xFFFF for none. -/
structure Event where
  seq : Nat := 0
  kind : Nat := 0
  core : Nat := 0xFF
  slot : Nat := 0xFFFF
  mask : BitVec 32 := 0
  cause : BitVec 32 := 0
  grid : Nat := 0
  pc : Word := 0
  addr : Word := 0
  info : Word := 0
  wg : Nat := 0
  detail : Nat := 0
  extra : Word := 0
  deriving DecidableEq, Repr

/-- What the host's answer to a kind-1 event resumes (19 R455): a fragment by its workgroup and skein index, a command
by its core, workgroup and cluster slot. -/
inductive Resumes where
  | fragment (wg idx : Nat) (mask : BitVec 32)
  | shuttle (core wg cslot : Nat)
  | stamp (core wg cslot : Nat)
  | tile (core wg cslot : Nat)
  | tileDone (core wg cslot : Nat)
  | completion (grid : Nat)
  | head (band : Nat) (pend : Bool)
  | arena (grid node va : Nat) (own : Bool)
  deriving DecidableEq, Repr

-- ENGINES

/-- A boarding record (13 R339): its workgroup, state 0 to 3, the cycle at which it was registered at the tap, the slot
that a tile is landing in, the slots that hold a landed tile, whether a drop awaits the end of that landing, and
whether ALIGHT or a vacate cancels it then (13 R345, R348, R349). -/
structure Board where
  wg : Nat
  st : Nat := 1
  retry : Bool := false
  scope : Nat := 0
  first : Nat := 0
  last : Nat := 0
  buffer : Nat := 0
  slots : Nat := 1
  counter : Nat := 0
  next : Nat := 0
  lastSeq : Nat := 0
  taken : Nat := 0
  acked : Nat := 0
  since : Nat := 0
  landing : Option Nat := none
  landed : List Nat := []
  dropped : Bool := false
  cancel : Bool := false
  deriving DecidableEq, Repr

/-- A handle's entry of a rename table (10 R258). -/
structure Handle where
  bound : Bool := false
  pending : Bool := false
  error : Bool := false
  owner : Nat := 0x1FF
  frame : Nat := 0
  fmt : Nat := 0
  deriving DecidableEq, Repr

/-- A convergence register (10 R280). -/
structure CvReg where
  mismatch : Bool := false
  ownsig : Bool := false
  sparse : Bool := false
  word : BitVec 44 := 0
  count : Nat := 0
  target : Nat := 1
  deriving DecidableEq, Repr

/-- A frame of the tile store: 16,384 bytes of data, then 512 of scales (missing 0), its poisoned 8-byte words, and
whether the last write to it was aborted (07 R199, R202, 10 R258). -/
structure Frame where
  data : SMap Byte := []
  poison : List Nat := []
  error : Bool := false
  deriving DecidableEq, Repr

/-- The tag of an engine command (09 R244, R250): what its completion does. A barrier object is named by its grant
offset and the generation that it had. -/
inductive Tag where
  | none
  | barrier (off gen : Nat)
  | stamp (va : Word) (value : Nat)
  deriving DecidableEq, Repr

/-- A completion not yet performed (09 R250): its tag, scope, the bytes that the payload wrote, whether the command was
aborted, and the command's destination base. -/
structure Done where
  wg : Nat
  ctx : Nat
  slot : Nat
  skein : Nat
  cslot : Nat
  user : Bool
  tag : Tag
  scope : Nat
  bytes : Nat := 0
  failed : Bool := false
  dst : Word := 0
  only : Bool := false
  deriving DecidableEq, Repr

/-- A layout-table entry (15 R371). -/
structure Layout where
  ext : List Nat
  stride : List Int
  fmt : Nat
  zbits : Nat
  zsrc : Nat
  deriving DecidableEq, Repr

/-- A Shuttle command (09 R244): who placed it, its 32 bytes as a number, its tag; the scratchpad lines whose
presence it cleared; for a started one, the elements already done, the bytes of 8-byte words written so far
(mask, and 256 for poison), the bytes formed for a dedup page or a compressed tile, and whether a page fault parks it (09 R249, 07 R202); the
compressed-region descriptors at its placement (09 R254), the layout entries as its start has read them (07 R497), and its place in
the order of its skein's accesses (14 R367). -/
structure ShCmd where
  wg : Nat
  ctx : Nat
  slot : Nat
  skein : Nat
  cslot : Nat
  user : Bool
  body : Nat
  tag : Tag
  only : Bool := false
  lines : List Nat := []
  pos : Nat := 0
  cover : SMap Nat := []
  buf : SMap Byte := []
  bufBad : List Nat := []
  parked : Bool := false
  descs : SMap (BitVec 32) := []
  lay : Option (Layout × Layout) := none
  seq : Nat := 0
  deriving DecidableEq, Repr

/-- An accepted tile command (10 R263, R267): who issued it, its instruction and descriptor, the frames and formats of
D, A, B and the metadata as resolved at acceptance (none where the instruction names none), the layout entry's bytes as
read then, the row indices of a gather, the scratchpad words that its memory side names, its writes to memory, and
whether its walk has ended, was aborted (at acceptance, where it has not ended), or is parked. -/
structure TileCmd where
  instr : Instr
  desc : Nat := 0
  rows : List Nat := []
  d : Option (Nat × Nat) := none
  a : Option (Nat × Nat) := none
  b : Option (Nat × Nat) := none
  m : Option (Nat × Nat) := none
  lay : List Byte := []
  words : List Nat := []
  io : ShCmd
  done : Bool := false
  failed : Bool := false
  parked : Bool := false
  row : Nat := 0
  deriving DecidableEq, Repr

/-- A thread that waits in a Heddle entry, its allocation, privilege and views with it, when it arrived, and
its instruction's place in acceptance order (14 R362). -/
structure HThread where
  thread : Thread
  alloc : Nat
  arrived : Nat
  seq : Nat := 0
  deriving DecidableEq, Repr

/-- An entry of the Heddle call table (15 R380). -/
structure HEntry where
  wg : Nat
  target : Word
  threshold : Nat
  timeout : Nat
  live : Nat
  threads : List HThread := []
  deriving DecidableEq, Repr

/-- A queue sq0 to sq7: 64 entries of 32 words (14 R356 to R359). -/
structure SpQueue where
  opened : Bool := false
  entries : List (List Nat) := []
  deriving DecidableEq, Repr

/-- A core (01 R14); `descs` is its descriptor cache (16 R387), keyed by context, table and index. -/
structure Core where
  frames : SMap Frame := []
  releasing : List (Nat × Nat) := []
  tileq : List TileCmd := []
  heddle : SMap HEntry := []
  shuttle : List ShCmd := []
  started : Option ShCmd := none
  done : List Done := []
  aborts : List (Nat × Nat) := []
  doneParked : Bool := false
  pipes : SMap Pipe := []
  l1 : SMap L1Line := []
  icache : SMap L1Line := []
  tlb : List TlbEntry := []
  wt : List WriteThrough := []
  predictor : List PredEntry := []
  lent : Nat := 0
  boards : SMap Board := []
  descs : SMap (List Byte) := []
  deriving DecidableEq, Repr

/-- One core's part of a workgroup (02 R48): the scratchpad bytes (missing 0), the lines that are absent, ring marks
(false corrupt, true dropped), poisoned 8-byte words, and the compressed-region descriptors (missing 0); 07 R192,
R194, R202, 13 R347. -/
structure Part where
  bytes : SMap Byte := []
  absent : List Nat := []
  marks : SMap Bool := []
  poison : List Nat := []
  desc : SMap (BitVec 32) := []
  deriving DecidableEq, Repr

/-- A workgroup (02 R47, R48, R50, 08 R229, 11 R286). -/
structure Workgroup where
  ctx : Nat
  grid : Nat
  lin : Nat
  gen : Nat := 0
  x : Nat := 0
  y : Nat := 0
  z : Nat := 0
  threads : Nat := 32
  regBytes : Nat := 64
  scratch : Nat := 0
  frames : Nat := 0
  cluster : List Nat := []
  parts : SMap Part := []
  views : Views := {}
  cls : Nat := 1
  band : Nat := 0
  param : Word := 0
  entry : Word := 0
  node : Option Nat := none
  closed : List Nat := []
  handles : SMap Handle := []
  cvs : SMap CvReg := []
  sqs : SMap SpQueue := []
  wdStart : Nat := 0
  wdFired : Bool := false
  wdHeld : Option Nat := none
  lastVac : Option Nat := none
  deriving DecidableEq, Repr

/-- A launch record (11 R286); `scratch` in bytes. -/
structure Record where
  entry : Word := 0
  param : Word := 0
  completion : Word := 0
  seq : Word := 0
  x : Nat := 0
  y : Nat := 0
  z : Nat := 0
  threads : Nat := 1
  regbytes : Nat := 1
  scratch : Nat := 0
  views : Views := {}
  cls : Nat := 1
  band : Nat := 0
  scope : Nat := 0
  kind : Nat := 0
  frames : Nat := 0
  deriving DecidableEq, Repr

/-- A node of a work graph (11 R298): its descriptor entry, the head and count of its arena ring, whether a page fault
holds the writes of its records, or what it does itself, whether a blender or feed has done what it does at its close, and the
records that it has still to place at its output. -/
structure Node where
  entry : Word
  arena : Word
  cap : Nat
  kind : Nat
  output : Nat
  head : Nat := 0
  count : Nat := 0
  stalled : Bool := false
  waits : Bool := false
  ended : Bool := false
  out : List (List Byte) := []
  deriving DecidableEq, Repr

/-- A work graph: its nodes, and the initial records not yet accepted (11 R298). -/
structure Graph where
  nodes : List Node
  init : Word
  left : Nat
  abandoned : Bool := false
  deriving DecidableEq, Repr

/-- Where a grid comes from (11 R290, 12 R312): the pending-launch store, the launch queue, a strip schedule entry. -/
inductive Source where
  | pend
  | queue
  | strip (entry : Nat)
  deriving DecidableEq, Repr

/-- A strip chain (12 R310 to R324): its schedule entry and that entry's enable, global index, index in the frame, lines, tag, deadline,
admission time and guard in the units of 12 R308; the prediction of R321; its slots in the strip ring with their pitches,
the ratio and bytes per pixel of a low-res slot; the width of its raster grid; its reserved cores; the three state
blocks; the sequence of its next pixel record, whether the depth buffer has been filled and the staging copy made, and the
colour records accepted, in rising sequence. -/
structure Strip where
  entry : Nat
  gen : Nat
  g : Nat
  k : Nat
  rows : Nat
  lines : Nat
  tag : Nat
  dl : Int
  adm : Int
  guard : Int
  level : Nat := 0
  maxLevel : Nat
  cost : Int
  left : Int
  tPrev : Int := 0
  total : Nat := 0
  acc : Nat := 0
  closed : Bool := false
  slot : Nat
  out : Nat
  pitch : Nat
  low : Nat := 0
  lowPitch : Nat := 0
  lowBytes : Nat := 4
  ratio : Nat := 1
  upscale : Bool := false
  outWidth : Nat
  cores : List Nat
  raster : List Byte
  blend : List Byte
  feed : List Byte := []
  seq : Nat := 0
  filled : Bool := false
  staged : Bool := false
  recs : List (Nat × List Byte) := []
  deriving DecidableEq, Repr

/-- A grid that has been taken and has not retired (02 R50 to R53, 11 R290): the next workgroup to admit, its strip
chain, whether its completion store waits for the host, and whether its chain has handed over its slot before that. -/
structure Grid where
  ctx : Nat
  num : Nat
  lr : Record
  src : Source
  depth : Nat := 0
  parent : Option Nat := none
  next : Nat := 0
  graph : Option Graph := none
  strip : Option Strip := none
  held : Bool := false
  handed : Bool := false
  deriving DecidableEq, Repr

/-- An entry of the pending-launch store (11 R289). -/
structure Pending where
  ctx : Nat
  parent : Nat
  depth : Nat
  bytes : List Byte
  deriving DecidableEq, Repr

/-- What a context keeps of its entry: the fixed fields of 15 R381. -/
structure CtxFixed where
  asid : Nat := 0
  root : Nat := 0
  launchBase : Nat := 0
  saveBase : Nat := 0
  slotSize : Nat := 0
  slotCount : Nat := 0
  evBase : Nat := 0
  evSize : Nat := 0
  freeBase : Nat := 0
  freeSize : Nat := 0
  dedupBase : Nat := 0
  dedupBits : Nat := 0
  deriving DecidableEq, Repr

/-- A context's event queue (11 R299, 19 R454): sequence of the next event, indices, held events, and the sources that
wait for a place in the hold, in the order in which their events arose. -/
structure EventQueue where
  seq : Nat := 0
  wr : Nat := 0
  rd : Nat := 0
  held : List Event := []
  waits : List Event := []
  lost : Nat := 0
  outstanding : List (Nat × Resumes) := []
  deriving DecidableEq, Repr

/-- A context (01 R23, 11, 15 R381, 19 R454): its entry, event queue, the slots of its launch queue in order
and the slot for the next record, sequence of the
last record enqueued, free-page queue head and count, error counters (missing 0), and the next %gridid (log entry 4). -/
structure Context where
  enabled : Bool := false
  fix : CtxFixed := {}
  var : CtxVar := {}
  ev : EventQueue := {}
  lq : List Nat := []
  lqNext : Nat := 0
  lastSeq : Word := 0
  freeHead : Nat := 0
  freeCount : Nat := 0
  errors : SMap Nat := []
  nextGrid : Nat := 1
  preempting : Bool := false
  resetting : Bool := false
  deriving DecidableEq, Repr

/-- Device-wide memories: LPDDR 6 with L2 (missing 0), poisoned 8-byte words, replica vectors, strip ring SRAM with the times
in the units of 12 R308 at which the complete bits of its slot headers were set (12 R326), host memory by bus address (log entry 3), peer writes in the order posted, and the ranges of bus addresses that the host link
reports as unsupported (07 R179, log entry 94). -/
structure Memory where
  bytes : List Host.Cell := []
  poison : List Nat := []
  replicas : SMap Nat := []
  strip : List Host.Cell := []
  stripSet : SMap Nat := []
  host : List Host.Cell := []
  peer : List (Nat × List Byte) := []
  denied : List (Nat × Nat) := []
  deriving DecidableEq, Repr

/-- The device event queue (19 R453, R458). -/
structure DevQueue where
  base : Nat := 0
  size : Nat := 0
  lost : Nat := 0
  wr : Nat := 0
  rd : Nat := 0
  held : List Event := []
  seq : Nat := 0
  deriving DecidableEq, Repr

/-- The MSI-X table (vector g in words 2g and 2g + 1; a missing word has the reset value of log entry 4) and the
pending bits (19 R452, R458). -/
structure MsiX where
  table : SMap Word := []
  pending : List Nat := []
  deriving DecidableEq, Repr

/-- What the device has sent out (log entry 1). -/
inductive OutMsg where
  | msi (vector : Nat)
  | data (bytes : List Byte) (poisoned : Bool)
  | line (head g i : Nat) (late : Bool) (pixels : List Byte)
  | report (bytes : List Byte)
  deriving DecidableEq, Repr

/-- An error that a structure's own check detects, or for a register word will detect (01 R27), named by where it is, whether it is
uncorrectable, and the context whose data it is where the place does not tell (log entry 94): parity of a register word; 8-byte
words of a scratchpad, a frame, L2 and LPDDR 6; 32-byte parts of an L1 line; the resends of the crossbars and the sector
rings; a byte of the strip ring; a range of bus addresses that the host link begins to report as unsupported, or
ceases to (07 R179); bits of a payload byte of a tile that change on its way to a core's tap (13 R346); and a start-up with a good
image that fails at step 4 or 5 of 19 R461. -/
inductive Soft where
  | register (core slot lane word : Nat)
  | scratchpad (wg cslot word : Nat) (double : Bool)
  | tile (core frame word : Nat) (double : Bool)
  | l1 (core line : Nat) (parts : List Nat) (owner : Option Nat)
  | l2 (word : Nat) (double : Bool) (owner : Option Nat)
  | lpddr (word : Nat) (double : Bool) (owner : Option Nat)
  | crossbar
  | sectorRing
  | strip (off : Nat) (owner : Option Nat)
  | link (lo n : Nat) (denied : Bool)
  | flit (seq core at_ : Nat) (mask : Byte)
  | startup (image : Image) (step : Nat)
  deriving DecidableEq, Repr

/-- What a pick of the agenda does: the next instruction of a skein, a device step, or an error that is detected (log entries 1, 94). -/
inductive Act where
  | issue (core slot : Nat)
  | event (e : Instr)
  | soft (e : Soft)
  deriving DecidableEq, Repr

/-- One pick: the core cycles and the time-counter time (in units of 2^-24 of TCNOW's least bit) that pass before it. -/
structure Pick where
  cycles : Nat := 0
  ticks : Nat := 0
  act : Act
  deriving DecidableEq, Repr

/-- The word that step has fetched for exec, and the threads present at it (log entry 1). -/
structure Issue where
  core : Nat
  slot : Nat
  pc : Word
  word : Word
  present : BitVec 32
  deriving DecidableEq, Repr

/-- The time counter (18 R438, R439): its value in units of 2^-40 ns and a remainder in units
of 2^-80 ns, TCSET word 0 as written, TCRATE, TCCTL.valid and
the words of the TCPTM captures (t1 then t4). -/
structure TimeUnit where
  now : Nat := 0
  part : Nat := 0
  set0 : Word := 0
  rate : BitVec 32 := 0
  valid : Bool := false
  ptm : SMap Word := []
  deriving DecidableEq, Repr

/-- The monitors (18 R449, R450): last samples, core clock, THROTTLE, the counter reading from which every monitor has been
calm, and that of the last check. -/
structure Monitors where
  temps : SMap (BitVec 32) := []
  volts : SMap (BitVec 32) := []
  procs : SMap (BitVec 32) := []
  mhz : Nat := 2000
  throttle : Nat := 0
  calm : Option Nat := none
  checked : Option Nat := none
  deriving DecidableEq, Repr

/-- Where a put's data or counter goes (08 R229, 09 R242): pieces of memory with their lengths, or a range of a
workgroup's scratchpad with the generation captured. -/
inductive PutTo where
  | mem (ps : List (Place × Nat))
  | scr (wg gen cslot off : Nat)
  deriving DecidableEq, Repr

/-- A put's delivery in flight (08 R227 to R229): its sender, a core and a skein by workgroup and number, its own number, the strict wait it belongs to, for a multicast
its Reed window once announced, its data with the poisoned byte positions, and its counter increment. -/
structure Delivery where
  num : Nat
  ctx : Nat
  core : Nat
  skein : Nat × Nat := (0, 0)
  strict : Option Nat := none
  multi : Bool := false
  window : Option Nat := none
  to_ : PutTo
  bytes : List Byte := []
  bad : List Nat := []
  counter : Option PutTo := none
  inc : Nat := 0
  scope : Nat := 0
  pres : Bool := false
  deriving DecidableEq, Repr

/-- A tile of a ring program, from L2 or from memory (13 R332, 15 R385). -/
structure RingTile where
  l2 : Bool := true
  src : Nat
  comp : Nat
  fmt : Nat
  layer : Nat
  deriving DecidableEq, Repr

/-- A tile on the ring (13 R330, R335): its pick, sequence and layer, whether it is its layer's first, payload and CRC, poison bit,
the cycle of its injection and the flit interval, the cores whose tap flit 0, or flit 15, has passed, and payload bytes that
reach a core's tap changed: core, place and changed bits. -/
structure Flight where
  pick : Nat
  seq : Nat
  layer : Nat
  lead : Bool := false
  crc : Nat := 0
  errs : List (Nat × Nat × Byte) := []
  data : List Byte
  poison : Bool
  start : Nat
  gap : Nat
  caught : List Nat := []
  landed : List Nat := []
  deriving DecidableEq, Repr

/-- The Weft Ring's registers (13 R331), its adopted program, the next tile and the first cycle at which it may be
injected, the counter reading at which a hold began and the cycle in which it reached its limit, whether the ring stops at the tile boundary, and the tiles on it. -/
structure Ring where
  enable : Bool := false
  rate : Nat := 0
  owner : Nat := 0
  hold : Nat := 20000
  pending : Bool := false
  base : Nat := 0
  layers : Nat := 0
  error : Bool := false
  holding : Option Nat := none
  expired : Option Nat := none
  running : Bool := false
  pick : Nat := 0
  tile : Nat := 0
  layer : Nat := 0
  prog : Option (List RingTile) := none
  nextPick : Nat := 0
  next : Nat := 0
  ready : Nat := 0
  stopping : Bool := false
  flying : List Flight := []
  deriving DecidableEq, Repr

/-- An enabled entry of the strip schedule (15 R383) as read at enable, numbered, with W, H and V of a head's timing; the next strip
to try, those tried and not yet admitted with the last attempt's time, the next strip of its consumer, for a head the strips that it
scans, with whether they come from their slots and the lines sent, for a session the next strip whose readiness is decided, those that were late, the bytes appended, whether its sequence header is written, and its
references (12 R316, R326, R327, R329). -/
structure Sched where
  gen : Nat
  ctx : Nat
  rows : Nat
  maxLevel : Nat
  cores : Nat
  cols : Nat
  graph : Nat
  e0 : Nat
  period : Nat
  budget : Nat
  guard : Nat
  hint : Nat
  fill : List Byte
  w : Nat
  h : Nat
  v : Nat
  slack : Nat := 0
  ringBase : Nat := 0
  ringSize : Nat := 0
  progress : Nat := 0
  next : Nat := 0
  tries : List (Nat × Int) := []
  con : Nat := 0
  shown : List (Nat × Bool × Nat) := []
  judged : Nat := 0
  lates : List Nat := []
  sent : Nat := 0
  begun : Bool := false
  refs : List Byte := []
  deriving DecidableEq, Repr

/-- The strip that an encode engine encodes (12 R327): its entry, its global index, and whether it is late. -/
structure EncJob where
  entry : Nat
  g : Nat
  late : Bool
  sched : Sched
  deriving DecidableEq, Repr

/-- Nirsirum's results (19 R453 BOOTSTAT, R461): flags, failed step, version, measurement registers (missing: log entry
4). -/
structure Boot where
  ready : Bool := false
  verified : Bool := false
  recovery : Bool := false
  failed : Nat := 0
  version : BitVec 32 := 0
  measures : SMap (BitVec 384) := []
  deriving DecidableEq, Repr

/-- One core's part of a saved workgroup (11 R305): where its image lies, the register bytes that it holds of each thread, of those
in skeins and in Heddle and of the Spindle's, and whether it holds a parked command; what the image's bytes give, and read
back, is not held here. -/
structure SavedCore where
  base : Nat := 0
  keeps : List Nat := []
  spKeeps : List Nat := []
  parkSlot : Bool := false
  skeins : List Skein := []
  spindle : Option Skein := none
  heddle : List HEntry := []
  boards : List (Nat × Board) := []
  shuttle : List ShCmd := []
  parked : Option ShCmd := none
  tiles : List TileCmd := []
  frames : List (Nat × Frame) := []
  releasing : List Nat := []
  done : List Done := []
  doneParked : Bool := false
  aborts : List Nat := []
  deriving DecidableEq, Repr

/-- A vacated workgroup: its image and save slot, and when it was saved (11 R304, R305). -/
structure Saved where
  wg : Workgroup
  slot : Nat
  cores : List SavedCore
  cycle : Nat
  time : Nat
  deriving DecidableEq, Repr

/-- A vacate (11 R302 to R304): its cores and workgroups, the context whose host asked for it with the count asked for
(none: all), whether its first step has been taken and its images are saved, the earlier requests that it joins, and
whether it kills instead (19 R460). -/
structure Vacate where
  cores : List Nat
  wgs : List Nat
  host : Option Nat := none
  count : Option Nat := none
  started : Bool := false
  saved : Bool := false
  after : List Nat := []
  kill : Bool := false
  deriving DecidableEq, Repr

/-- The machine. `slots` names the strip of each slot of the strip ring (64 for each consumer) and its entry's enable (12 R324); `tlbInv` the invalidations that TLBINV has started and that have not ended (19 R455): ASID, first address, bytes and
whether all. -/
structure State where
  puts : List Delivery := []
  putDrops : List Nat := []
  reed : Nat := 0
  saved : SMap Saved := []
  vacates : SMap Vacate := []
  reserved : SMap Nat := []
  served : SMap Nat := []
  ring : Ring := {}
  sched : SMap Sched := []
  slots : SMap (Nat × Nat) := []
  engines : SMap EncJob := []
  travs : List (List Byte × Trav) := []
  boot : Boot := {}
  links : SMap DpLink := []
  tlbInv : List (Nat × Nat × Nat × Bool) := []
  w0 : SMap Word := []
  time : TimeUnit := {}
  mon : Monitors := {}
  power : Bool := true
  cores : SMap Core := []
  skeins : SMap Skein := []
  wgs : SMap Workgroup := []
  grids : SMap Grid := []
  pending : List Pending := []
  order : Nat := 0
  ctxs : SMap Context := []
  mem : Memory := {}
  devq : DevQueue := {}
  msix : MsiX := {}
  errors : SMap Nat := []
  agenda : List Pick := []
  cycle : Nat := 0
  free : Nat := 0
  issue : Option Issue := none
  out : List OutMsg := []
  deriving DecidableEq, Repr

/-- The machine right after reset (19 R459, log entries 3 and 4). -/
def State.reset : State := {}

end Sys2Proof.Machine
end

