-- ==== Sys2Proof/Machine/Bits.lean ====
section
/-! DEFINITION. Sparse tables, byte strings and the conversions of 03 and 05 between bits and numbers. -/

namespace Sys2Proof.Machine

/-- The entry of a key. -/
def look {α : Type} : SMap α → Nat → Option α
  | [], _ => none
  | (k', v) :: r, k => if k = k' then some v else look r k

/-- The entry of a key, or the value a missing key reads as. -/
def lookD {α : Type} (d : α) (m : SMap α) (k : Nat) : α := (look m k).getD d

/-- The table with key k holding v; keys stay rising. -/
def ins {α : Type} (k : Nat) (v : α) : SMap α → SMap α
  | [] => [(k, v)]
  | (k', v') :: r =>
    if k < k' then (k, v) :: (k', v') :: r
    else if k = k' then (k, v) :: r
    else (k', v') :: ins k v r

/-- The table without key k. -/
def del {α : Type} (k : Nat) (m : SMap α) : SMap α := m.filter fun p => p.1 != k

/-- The table with key k reading as v, where a missing key reads as d: v = d takes the entry out. -/
def set {α : Type} [DecidableEq α] (d : α) (k : Nat) (v : α) (m : SMap α) : SMap α :=
  if v = d then del k m else ins k v m

/-- Keys strictly rising and no entry equal to d. -/
def canonical {α : Type} [DecidableEq α] (d : α) : SMap α → Bool
  | [] => true
  | [(_, v)] => decide (v ≠ d)
  | (k, v) :: (k', v') :: r => decide (k < k') && decide (v ≠ d) && canonical d ((k', v') :: r)

/-- A rising list of numbers, as a set: with k added. -/
def addTo (k : Nat) : List Nat → List Nat
  | [] => [k]
  | x :: r => if k < x then k :: x :: r else if k = x then x :: r else x :: addTo k r

/-- The set without k. -/
def dropFrom (k : Nat) (l : List Nat) : List Nat := l.filter (· ≠ k)

/-- The set with every number of the list added. -/
def addAll (ks l : List Nat) : List Nat := ks.foldr addTo l

/-- The set without the numbers of the list. -/
def dropAll (ks l : List Nat) : List Nat := l.filter fun x => !ks.contains x

/-- The numbers from lo, n of them. -/
def upFrom (lo n : Nat) : List Nat := (List.range n).map (lo + ·)

/-- The aligned units of size u that n bytes from a touch. -/
def units (u a n : Nat) : List Nat := if n = 0 then [] else upFrom (a / u) ((a + n - 1) / u - a / u + 1)

/-- The aligned units of size u that n bytes from a cover whole. -/
def wholeUnits (u a n : Nat) : List Nat :=
  (units u a n).filter fun k => decide (a ≤ k * u ∧ (k + 1) * u ≤ a + n)

/-- One byte of a memory whose missing bytes are zero. -/
def byteAt (m : SMap Byte) (a : Nat) : Byte := lookD 0 m a

/-- n bytes from address a. -/
def bytesAt (m : SMap Byte) (a n : Nat) : List Byte := (List.range n).map fun i => byteAt m (a + i)

/-- The memory with the bytes at a and up. -/
def putBytes (a : Nat) (bs : List Byte) (m : SMap Byte) : SMap Byte :=
  match bs with
  | [] => m
  | b :: r => putBytes (a + 1) r (set 0 a b m)

/-- The number that bytes hold, lowest address first (03 R57). -/
def ofBytes : List Byte → Nat
  | [] => 0
  | b :: r => b.toNat + 256 * ofBytes r

/-- n bytes of a number, lowest first. -/
def toBytes : Nat → Nat → List Byte
  | 0, _ => []
  | n + 1, v => BitVec.ofNat 8 v :: toBytes n (v / 256)

/-- n bytes of a memory as a number. -/
def natAt (m : SMap Byte) (a n : Nat) : Nat := ofBytes (bytesAt m a n)

/-- x reduced to w bits. -/
def wrap (w x : Nat) : Nat := x % 2 ^ w

/-- An integer reduced to w bits. -/
def wrapInt (w : Nat) (x : Int) : Nat := (x % (2 ^ w : Nat)).toNat

/-- The low w bits of x read as signed. -/
def sgn (w x : Nat) : Int :=
  let y := x % 2 ^ w
  if w ≠ 0 ∧ y ≥ 2 ^ (w - 1) then (y : Int) - (2 ^ w : Nat) else (y : Int)

/-- A bit vector read as signed, reduced to w bits: sign extension. -/
def sextTo {n : Nat} (w : Nat) (x : BitVec n) : Nat := wrapInt w (sgn n x.toNat)

/-- Sign extension of the low n bits of x to w bits. -/
def sextNat (w n x : Nat) : Nat := wrapInt w (sgn n x)

/-- Integer between lo and hi. -/
def clampInt (lo hi x : Int) : Int := if x < lo then lo else if hi < x then hi else x

/-- Bits [lo+n-1:lo] of a number. -/
def bits (x lo n : Nat) : Nat := (x >>> lo) % 2 ^ n

/-- The number with bits [lo+n-1:lo] replaced by v. -/
def setBits (x lo n v : Nat) : Nat :=
  x - (bits x lo n <<< lo) + ((v % 2 ^ n) <<< lo)

/-- The elements of e bits of an operand of n elements, lowest first (05 R111). -/
def elems (e n x : Nat) : List Nat := (List.range n).map fun i => bits x (e * i) e

/-- The operand that holds elements of e bits, lowest first. -/
def joinElems (e : Nat) : List Nat → Nat
  | [] => 0
  | x :: r => x % 2 ^ e + 2 ^ e * joinElems e r

/-- A word as 64 bits of a number. -/
def word (x : Nat) : Word := BitVec.ofNat 64 x

/-- The lanes of a mask, rising. -/
def lanesOf (m : BitVec 32) : List Nat := (List.range 32).filter fun i => m.getLsbD i

/-- The mask of a list of lanes. -/
def maskOf (l : List Nat) : BitVec 32 := l.foldl (fun m i => m ||| (1#32 <<< i)) 0

/-- Element i of a list replaced by its image. -/
def modAt {α : Type} (i : Nat) (f : α → α) : List α → List α
  | [] => []
  | x :: r => match i with
    | 0 => f x :: r
    | j + 1 => x :: modAt j f r

/-- The least number of a list, none of an empty one. -/
def least : List Nat → Option Nat
  | [] => none
  | x :: r => match least r with
    | none => some x
    | some y => some (if x ≤ y then x else y)

/-- An element put in its place by a rising key, after its equals. -/
def insBy {α : Type} (f : α → Nat) (x : α) : List α → List α
  | [] => [x]
  | y :: r => if f x < f y then x :: y :: r else y :: insBy f x r

/-- A list in rising order of a key; equals keep their order. -/
def sortBy {α : Type} (f : α → Nat) (l : List α) : List α := l.foldl (fun acc x => insBy f x acc) []

/-- a divided by b, rounded up. -/
def ceilDiv (a b : Nat) : Nat := (a + b - 1) / b

/-- Saturation at 2^32 - 1. -/
def sat32 (x : Nat) : Nat := if x < 2 ^ 32 then x else 2 ^ 32 - 1

end Sys2Proof.Machine
end

