-- ==== Sys2Proof/Machine/Operands.lean ====
section
/-! DEFINITION. Register operands: views, addresses and checks (03 R70, R71), results in flight (03 R66), the source
modifier (03 R73 to R75) and register parity (07 R204). -/

namespace Sys2Proof.Machine

/-- View k of a thread. -/
def Views.get (v : Views) (k : Nat) : BitVec 16 :=
  match k with
  | 0 => v.v0
  | 1 => v.v1
  | 2 => v.v2
  | _ => v.v3

/-- View k set. -/
def Views.put (v : Views) (k : Nat) (x : BitVec 16) : Views :=
  match k with
  | 0 => { v with v0 := x }
  | 1 => { v with v1 := x }
  | 2 => { v with v2 := x }
  | _ => { v with v3 := x }

/-- VIEW3 to VIEW0 as TRAPVIEW packs them (04 R90). -/
def Views.pack (v : Views) : Word := v.v3 ++ v.v2 ++ v.v1 ++ v.v0

/-- The four views that TRAPVIEW holds. -/
def Views.unpack (w : Word) : Views :=
  { v0 := w.extractLsb' 0 16, v1 := w.extractLsb' 16 16, v2 := w.extractLsb' 32 16, v3 := w.extractLsb' 48 16 }

/-- No descriptor of the four is one that 03 R71 rejects. -/
def Views.ok (v : Views) : Bool := viewOk v.v0 && viewOk v.v1 && viewOk v.v2 && viewOk v.v3

/-- Element width in bits of a view descriptor (03 R71). -/
def viewWidth (v : BitVec 16) : Nat := 8 * 2 ^ fld v 1 3

/-- Number of elements of a view descriptor (03 R71). -/
def viewCount (v : BitVec 16) : Nat := min 256 ((fld v 10 6 + 1) * 128 / viewWidth v)

/-- View field of a register operand. -/
def RegOp.view (r : RegOp) : Nat := fld r 8 2

/-- Element index of a register operand. -/
def RegOp.idx (r : RegOp) : Nat := fld r 0 8

/-- Byte address A of a register operand (03 R70). -/
def regAddr (vs : Views) (r : RegOp) : Nat :=
  let v := vs.get (RegOp.view r)
  16 * fld v 4 6 + RegOp.idx r * viewWidth v / 8

/-- The checks of 03 R70 on a group of n registers of w bytes. -/
def regOk (vs : Views) (alloc : Nat) (r : RegOp) (w n : Nat) : Bool :=
  let a := regAddr vs r
  decide (RegOp.idx r + n ≤ viewCount (vs.get (RegOp.view r))) && a % w == 0 && decide (a + n * w ≤ alloc)

/-- The 32-bit words that a list of byte writes covers whole. -/
def fullWords (bs : List (Nat × Byte)) : List Nat :=
  (bs.map (·.1)).filterMap fun a =>
    if a % 4 = 0 ∧ (upFrom a 4).all (fun x => (bs.map (·.1)).contains x) then some (a / 4) else none

/-- The register space with bytes written: a mark on a word that is covered whole goes (07 R204). -/
def Thread.store (th : Thread) (bs : List (Nat × Byte)) : Thread :=
  { th with
    regs := bs.foldl (fun m p => set 0 p.1 p.2 m) th.regs
    bad := dropAll (fullWords bs) th.bad
    perr := dropAll (fullWords bs) th.perr }

/-- A fixed-latency result takes effect (03 R66, 04 R87). -/
def Thread.land (th : Thread) : Landing → Thread
  | .reg bs => th.store bs
  | .push b => { th with pred := (th.pred <<< 1) ||| (BitVec.ofBool b).setWidth 8 }
  | .pop n => { th with pred := th.pred >>> n }
  | .setPred p => { th with pred := p }
  | .link w => { th with link := w }

/-- The thread as it stands at core cycle c: every result due by then has landed (03 R66). -/
def Thread.at (th : Thread) (c : Nat) : Thread :=
  (th.pend.filter fun p => decide (p.due ≤ c)).foldl (fun t p => t.land p.what)
    { th with pend := th.pend.filter fun p => decide (c < p.due) }

/-- The bytes from a, numbered. -/
def numbered (a : Nat) (bs : List Byte) : List (Nat × Byte) := (upFrom a bs.length).zip bs

/-- Whether a result in flight touches one of the n bytes from a. -/
def Pend.touches (p : Pend) (a n : Nat) : Bool :=
  match p.what with
  | .reg bs => bs.any fun q => decide (a ≤ q.1 ∧ q.1 < a + n)
  | _ => false

/-- Whether a result in flight changes the predicates. -/
def Pend.onPred (p : Pend) : Bool :=
  match p.what with
  | .push _ => true
  | .pop _ => true
  | .setPred _ => true
  | _ => false

/-- Whether a result in flight changes the link register. -/
def Pend.onLink (p : Pend) : Bool :=
  match p.what with
  | .link _ => true
  | _ => false

/-- The result's own cycle, or that of an earlier write to the same register if it is later: writes to one register
land in program order (03 R66). -/
def dueAfter (due : Nat) (same : Pend → Bool) (ps : List Pend) : Nat :=
  (ps.filter same).foldl (fun d p => max d p.due) due

/-- A fixed-latency register result (03 R66). -/
def Thread.pendReg (th : Thread) (due a : Nat) (bs : List Byte) : Thread :=
  { th with pend := th.pend ++
      [{ due := dueAfter due (fun p => p.touches a bs.length) th.pend, what := .reg (numbered a bs) }] }

/-- A fixed-latency change of the predicates (03 R66, 04 R87). -/
def Thread.pendPred (th : Thread) (due : Nat) (l : Landing) : Thread :=
  { th with pend := th.pend ++ [{ due := dueAfter due Pend.onPred th.pend, what := l }] }

/-- A fixed-latency write of the link register (05 R133). -/
def Thread.pendLink (th : Thread) (due : Nat) (w : Word) : Thread :=
  { th with pend := th.pend ++ [{ due := dueAfter due Pend.onLink th.pend, what := .link w }] }

/-- The result without the n bytes from a. -/
def Pend.without (a n : Nat) (p : Pend) : Pend :=
  match p.what with
  | .reg bs => { p with what := .reg (bs.filter fun q => !decide (a ≤ q.1 ∧ q.1 < a + n)) }
  | _ => p

/-- A register write that takes effect now: results still in flight to the same bytes are older, and it replaces
them (03 R66). -/
def Thread.putReg (th : Thread) (a : Nat) (bs : List Byte) : Thread :=
  { th with pend := th.pend.map (Pend.without a bs.length) }.store (numbered a bs)

/-- P set now: changes in flight are older. -/
def Thread.putPred (th : Thread) (p : BitVec 8) : Thread :=
  { th with pend := th.pend.filter fun q => !q.onPred, pred := p }

/-- Changes of P in flight take effect, then v is pushed. -/
def Thread.pushNow (th : Thread) (v : Bool) : Thread :=
  let t := (th.pend.filter Pend.onPred).foldl (fun t p => t.land p.what)
    { th with pend := th.pend.filter fun q => !q.onPred }
  t.land (.push v)

/-- LINK set now. -/
def Thread.putLink (th : Thread) (w : Word) : Thread :=
  { th with pend := th.pend.filter fun q => !q.onLink, link := w }

/-- A position that the register window reads as zero: exited, or on its way into Heddle (07 R177, 14 R361). -/
def Thread.gone (th : Thread) : Bool :=
  match th.st with
  | .exited => true
  | .waiting w => w.what == .heddleDrain
  | _ => false

/-- Whether a load still owes one of the n bytes from a (03 R66). -/
def Thread.owes (th : Thread) (a n : Nat) : Bool :=
  th.held.any fun h => decide (h.addr < a + n ∧ a < h.addr + h.bytes.length)

/-- How the absolute-value and negate bits act (03 R75): on n integer or float elements of e bits, or not at all. -/
inductive ModKind where
  | plain
  | int (e n : Nat)
  | float (e n : Nat)
  deriving DecidableEq, Repr

/-- The sign bit of a float element cleared. -/
def fabsBits (e x : Nat) : Nat := x % 2 ^ (e - 1)

/-- The sign bit of a float element flipped. -/
def fnegBits (e x : Nat) : Nat := if x / 2 ^ (e - 1) % 2 = 1 then x - 2 ^ (e - 1) else x + 2 ^ (e - 1)

/-- Absolute value, then negation, as the modifier's bits [1:0] say (03 R75). -/
def applyMod (k : ModKind) (m : BitVec 12) (v : Nat) : Nat :=
  let one (e : Nat) (abs neg : Nat → Nat) : Nat → Nat := fun x =>
    let y := if m.getLsbD 1 then abs x else x
    (if m.getLsbD 0 then neg y else y) % 2 ^ e
  match k with
  | .plain => v
  | .int e n => joinElems e ((elems e n v).map
      (one e (fun x => wrapInt e (sgn e x).natAbs) (fun x => wrapInt e (-(x : Int)))))
  | .float e n => joinElems e ((elems e n v).map (one e (fabsBits e) (fnegBits e)))

/-- The thread whose bytes the source modifier reads (03 R73). -/
def modLane (m : BitVec 12) (t : Nat) : Nat :=
  let seg := 2 ^ fld m 7 3
  let base := t - t % seg
  let dist := fld m 2 5
  match fld m 10 2 with
  | 0 => t
  | 1 => base + (t - base + dist) % seg
  | 2 => Nat.xor t (dist % seg)
  | _ => base + dist % seg

/-- A source operand of an instruction: a register, operand b under the source modifier, a group of n registers, or the
register that another register's thread holds (05 R127). Widths in bytes. -/
inductive Rd where
  | reg (r : RegOp) (w : Nat)
  | mod (r : RegOp) (m : BitVec 12) (w : Nat) (k : ModKind)
  | group (r : RegOp) (w n : Nat)
  | perm (r by_ : RegOp) (w : Nat)
  deriving DecidableEq, Repr

/-- The register operands that a source names, each with its width and number. -/
def Rd.ops : Rd → List (RegOp × Nat × Nat)
  | .reg r w => [(r, w, 1)]
  | .mod r _ w _ => [(r, w, 1)]
  | .group r w n => [(r, w, n)]
  | .perm r b w => [(b, 4, 1), (r, w, 1)]

/-- The threads of a skein as they stand at one cycle. -/
abbrev Lanes := List Thread

/-- A thread of the list; a position beyond it holds none, as an exited thread. -/
def laneOf (ts : Lanes) (t : Nat) : Thread := ts.getD t { st := .exited }

/-- The pieces of register space that a source reads in thread t: thread, address and length (03 R70, R73). -/
def Rd.pieces (ts : Lanes) (t : Nat) (r : Rd) : List (Nat × Nat × Nat) :=
  let vs := (laneOf ts t).views
  match r with
  | .reg op w => [(t, regAddr vs op, w)]
  | .mod op m w _ => [(modLane m t, regAddr vs op, w)]
  | .group op w n => [(t, regAddr vs op, w * n)]
  | .perm op b w =>
    let sel := natAt (laneOf ts t).regs (regAddr vs b) 4 % 32
    [(t, regAddr vs b, 4), (sel, regAddr vs op, w)]

/-- The bytes of a piece as a number; an exited thread reads as zero (03 R74). -/
def readPiece (ts : Lanes) (p : Nat × Nat × Nat) : Nat :=
  let th := laneOf ts p.1
  if th.st = .exited then 0 else natAt th.regs p.2.1 p.2.2

/-- The value of a source for thread t (03 R73, R75). -/
def Rd.value (ts : Lanes) (t : Nat) (r : Rd) : Nat :=
  let ps := (r.pieces ts t).map (readPiece ts)
  match r with
  | .mod _ m _ k => applyMod k m (ps.getD 0 0)
  | .perm _ _ _ => ps.getD 1 0
  | _ => ps.getD 0 0

/-- The register-window address of a byte of a thread (07 R174, R177). -/
def regWindow (slot lane off : Nat) : Word :=
  word (0xF * 2 ^ 48 + 0x02 * 2 ^ 40 + slot * 2 ^ 15 + lane * 2 ^ 10 + off)

/-- The bad 32-bit words of a piece, or those whose parity fails when it is read (07 R204). -/
def badWords (ts : Lanes) (p : Nat × Nat × Nat) : List (Nat × Nat) :=
  let th := laneOf ts p.1
  if th.st = .exited then []
  else ((units 4 p.2.1 p.2.2).filter fun k => th.bad.contains k || th.perr.contains k).map fun k => (p.1, k)

end Sys2Proof.Machine
end

