-- ==== Sys2Proof/Machine/Flags.lean ====
section
/-! DEFINITION. The predicate shift register and the conditions that feed it (03 R65, 04 R87, 05 R121 to R124, 06 R156). -/

namespace Sys2Proof.Machine

/-- The guard of 03 R65 on a thread's predicates. -/
def guardHolds (c : Ctl) (p : BitVec 8) : Bool :=
  !c.guarded || (p.getLsbD c.depth != c.negated)

/-- A comparison of integers by condition code: EQ, NE, LT, LE, GT, GE (05 R121). -/
def condInt (code : Nat) (a b : Int) : Bool :=
  match code with
  | 0 => decide (a = b)
  | 1 => decide (a ≠ b)
  | 2 => decide (a < b)
  | 3 => decide (a ≤ b)
  | 4 => decide (b < a)
  | _ => decide (b ≤ a)

/-- Predicate k of P, inverted on request (05 R123). -/
def predAt (p : BitVec 8) (k : Nat) (inv : Bool) : Bool := p.getLsbD k != inv

end Sys2Proof.Machine
end

