-- ==== Sys2Proof/Machine/Base.lean ====
section
/-! DEFINITION. Accessors of the state, free choices, error counters and events (11 R299, 18 R448, 19 R458). -/

namespace Sys2Proof.Machine

/-- Core c; one that is not listed is empty. -/
def State.core (s : State) (c : Nat) : Core := lookD {} s.cores c

/-- Core c set. -/
def State.setCore (s : State) (c : Nat) (x : Core) : State := { s with cores := set {} c x s.cores }

/-- Core c changed. -/
def State.modCore (s : State) (c : Nat) (f : Core → Core) : State := s.setCore c (f (s.core c))

/-- The key of a skein slot. -/
def slotKey (core slot : Nat) : Nat := 1024 * core + slot

/-- The skein in a slot. -/
def State.skein (s : State) (core slot : Nat) : Option Skein := look s.skeins (slotKey core slot)

/-- The slot holds the skein. -/
def State.setSkein (s : State) (core slot : Nat) (k : Skein) : State :=
  { s with skeins := ins (slotKey core slot) k s.skeins }

/-- The slot's skein changed; an empty slot stays empty. -/
def State.modSkein (s : State) (core slot : Nat) (f : Skein → Skein) : State :=
  match s.skein core slot with
  | none => s
  | some k => s.setSkein core slot (f k)

/-- The slot emptied. -/
def State.dropSkein (s : State) (core slot : Nat) : State := { s with skeins := del (slotKey core slot) s.skeins }

/-- The slots of a core that hold a skein, with the skeins. -/
def State.slotsOf (s : State) (core : Nat) : List (Nat × Skein) :=
  s.skeins.filterMap fun p => if p.1 / 1024 = core then some (p.1 % 1024, p.2) else none

/-- One thread of a skein changed. -/
def State.modThread (s : State) (core slot lane : Nat) (f : Thread → Thread) : State :=
  s.modSkein core slot fun k => { k with threads := modAt lane f k.threads }

/-- A thread of a skein; none outside it. -/
def State.thread (s : State) (core slot lane : Nat) : Option Thread :=
  (s.skein core slot).bind fun k => k.threads[lane]?

/-- Context c; one that is not listed has every field at reset. -/
def State.ctx (s : State) (c : Nat) : Context := lookD {} s.ctxs c

/-- Context c changed. -/
def State.modCtx (s : State) (c : Nat) (f : Context → Context) : State :=
  { s with ctxs := set {} c (f (s.ctx c)) s.ctxs }

/-- The key of a grid. -/
def gridKey (ctx grid : Nat) : Nat := ctx + 512 * grid

/-- The key of a workgroup. -/
def wgKey (ctx grid lin : Nat) : Nat := ctx + 512 * (grid + 2 ^ 32 * lin)

/-- The workgroup of a skein. -/
def Skein.wgKey (k : Skein) : Nat := Machine.wgKey k.ctx k.grid k.wg

/-- A workgroup. -/
def State.wg (s : State) (key : Nat) : Option Workgroup := look s.wgs key

/-- A workgroup changed. -/
def State.modWg (s : State) (key : Nat) (f : Workgroup → Workgroup) : State :=
  match s.wg key with
  | none => s
  | some w => { s with wgs := ins key (f w) s.wgs }

/-- One core's part of a workgroup. -/
def State.part (s : State) (key cslot : Nat) : Part :=
  match s.wg key with
  | none => {}
  | some w => lookD {} w.parts cslot

/-- One core's part of a workgroup changed. -/
def State.modPart (s : State) (key cslot : Nat) (f : Part → Part) : State :=
  s.modWg key fun w => { w with parts := set {} cslot (f (lookD {} w.parts cslot)) w.parts }

/-- The cluster slot of a core in a workgroup (07 R176): cluster cores in ascending number. -/
def Workgroup.slotOf (w : Workgroup) (core : Nat) : Option Nat := w.cluster.findIdx? (· = core)

/-- A free choice, and the state with the counter advanced (log entry 2). -/
def State.choose (s : State) : Bool × State := (Config.freeBool s.free, { s with free := s.free + 1 })

/-- A free choice of a number below n (log entry 2). -/
def State.pick (s : State) (n : Nat) : Nat × State := ((Config.freeWord s.free).toNat % n, { s with free := s.free + 1 })

/-- A list without one of its elements, freely chosen (log entry 7). -/
def State.dropOne {α : Type} (s : State) (l : List α) : List α × State := let r := s.pick l.length; (l.eraseIdx r.1, r.2)

/-- Error counter i of the device counts n (18 R448). -/
def State.countDev (s : State) (i n : Nat) : State :=
  { s with errors := set 0 i (sat32 (lookD 0 s.errors i + n)) s.errors }

/-- Error counter i counts n in the context and in the device (18 R448). -/
def State.count (s : State) (ctx i n : Nat) : State :=
  (s.modCtx ctx fun c => { c with errors := set 0 i (sat32 (lookD 0 c.errors i + n)) c.errors }).countDev i n

/-- Bytes written into the strip ring; the time at which bit 1 of a slot header's states is set is kept (12 R323, R326). -/
def State.putRing (s : State) (a : Nat) (bs : List Byte) : State :=
  let done := bs.zipIdx.foldl (fun m b =>
    let at_ := a + b.2
    if at_ % 128 ≠ 8 then m
    else if !b.1.getLsbD 1 then del at_ m
    else if (look m at_).isSome then m else ins at_ (s.time.now / 2 ^ 24) m) s.mem.stripSet
  { s with mem := { s.mem with strip := putBytes a bs s.mem.strip, stripSet := done } }

/-- Bytes written to host memory; they arrive as they are written (08 R220, log entry 95). -/
def State.hostPut (s : State) (a : Nat) (bs : List Byte) : State :=
  { s with mem := { s.mem with host := putBytes a bs s.mem.host } }

/-- Word j of the MSI-X table (log entry 4: a vector is masked at reset). -/
def MsiX.word (m : MsiX) (j : Nat) : Word := lookD (if j % 2 = 1 then 0x100000000 else 0) m.table j

/-- Vector g is raised: sent, or pending while masked (19 R458). -/
def State.msi (s : State) (g : Nat) : State :=
  if (s.msix.word (2 * g + 1)).getLsbD 32 then { s with msix := { s.msix with pending := addTo g s.msix.pending } }
  else { s with out := s.out ++ [.msi g] }

/-- The 64 bytes of an event (11 R299). -/
def Event.bytes (e : Event) : List Byte :=
  toBytes 8 e.seq ++ toBytes 1 e.kind ++ toBytes 1 e.core ++ toBytes 2 e.slot ++ toBytes 4 e.mask.toNat ++
  toBytes 4 e.cause.toNat ++ toBytes 4 e.grid ++ toBytes 8 e.pc.toNat ++ toBytes 8 e.addr.toNat ++
  toBytes 8 e.info.toNat ++ toBytes 4 e.wg ++ toBytes 1 e.detail ++ toBytes 3 0 ++ toBytes 8 e.extra.toNat

/-- Entries that wait between read and write index; both count modulo 2^32. -/
def inRing (wr rd : Nat) : Nat := (wr + 2 ^ 32 - rd) % 2 ^ 32

/-- Whether a context's event ring has room. -/
def Context.evRoom (c : Context) : Bool :=
  decide (c.fix.evSize ≠ 0 ∧ inRing c.ev.wr c.ev.rd < 2 ^ c.fix.evSize)

/-- Whether an event of a context can be posted or held now (11 R299). -/
def Context.mayHold (c : Context) : Bool := c.ev.waits.isEmpty && decide (c.ev.held.length < 16)

/-- An event written into the ring: entry, write index, and MSI-X when the ring turns non-empty (11 R299). -/
def State.ringEvent (s : State) (ctx : Nat) (e : Event) : State :=
  let c := s.ctx ctx
  let s1 := s.hostPut (c.fix.evBase + 64 * (c.ev.wr % 2 ^ c.fix.evSize)) e.bytes
  let s2 := s1.modCtx ctx fun c => { c with ev := { c.ev with wr := (c.ev.wr + 1) % 2 ^ 32 } }
  if c.ev.wr = c.ev.rd then s2.msi (ctx / 8) else s2

/-- An event arises: posted, held, or its source waits; with drop, one that finds no place is lost and counted in
EVLOST instead (11 R299). -/
def State.post (s : State) (ctx : Nat) (drop : Bool) (e : Event) : State :=
  let c := s.ctx ctx
  let e := { e with seq := c.ev.seq }
  let next (s : State) : State := s.modCtx ctx fun c => { c with ev := { c.ev with seq := c.ev.seq + 1 } }
  if c.ev.held = [] ∧ c.ev.waits = [] ∧ c.evRoom then (next s).ringEvent ctx e
  else if c.ev.waits = [] ∧ c.ev.held.length < 16 then
    (next s).modCtx ctx fun c => { c with ev := { c.ev with held := c.ev.held ++ [e] } }
  else if drop then s.modCtx ctx fun c => { c with ev := { c.ev with lost := sat32 (c.ev.lost + 1) } }
  else (next s).modCtx ctx fun c => { c with ev := { c.ev with waits := c.ev.waits ++ [e] } }

/-- A kind-1 event arises, and the host's answer to it resumes r (11 R299, 19 R455). -/
def State.postFault (s : State) (ctx : Nat) (e : Event) (r : Resumes) : State :=
  let n := (s.ctx ctx).ev.seq
  (s.modCtx ctx fun c => { c with ev := { c.ev with outstanding := c.ev.outstanding ++ [(n, r)] } }).post ctx false e

/-- Whether the Shuttle and the tile command queue of a core stall: an event of theirs waits to be held (11 R299). -/
def State.stalls (s : State) (core : Nat) : Bool :=
  s.ctxs.any fun c => c.2.ev.waits.any fun e => e.core == core && (e.kind == 5 || (e.kind == 1 && e.detail / 8 % 2 == 1))

/-- Whether the device event ring has room (19 R458). -/
def DevQueue.room (q : DevQueue) : Bool := decide (q.size ≠ 0 ∧ inRing q.wr q.rd < 2 ^ q.size)

/-- A device event written into its ring. -/
def State.ringDevEvent (s : State) (e : Event) : State :=
  let q := s.devq
  let s1 := s.hostPut (q.base + 64 * (q.wr % 2 ^ q.size)) e.bytes
  let s2 := { s1 with devq := { q with wr := (q.wr + 1) % 2 ^ 32 } }
  if q.wr = q.rd then s2.msi 64 else s2

/-- A device event: posted, held up to 64, or lost and counted (19 R458). -/
def State.postDev (s : State) (e : Event) : State :=
  let e := { e with seq := s.devq.seq }
  let s' := { s with devq := { s.devq with seq := s.devq.seq + 1 } }
  if s.devq.held = [] ∧ s.devq.room then s'.ringDevEvent e
  else if s.devq.held.length < 64 then { s' with devq := { s'.devq with held := s'.devq.held ++ [e] } }
  else { s with devq := { s.devq with lost := sat32 (s.devq.lost + 1) } }

/-- The sector of a core (01 R12). -/
def sectorOf (core : Nat) : Nat := core / 24

end Sys2Proof.Machine
end

