-- ==== Sys2Proof/Machine/Mem.lean ====
section
/-! DEFINITION. Global memory at the home slices and in L1 (07 R187 to R191, 08 R209, R210), address translation and
copy-on-write (07 R180 to R184, 15 R378), scratchpad parts and compressed apertures (07 R192 to R197). -/

namespace Sys2Proof.Machine

/-- 384 GiB, the end of LPDDR 6 (07 R178). -/
def memEnd : Nat := 0x6000000000

/-- Bytes put at the home slice: a word covered whole loses its poison, the words of `bad` arrive poisoned, and the
lines' replicas go (07 R188, R202, R203). -/
def State.homePut (s : State) (pa : Nat) (bs : List Byte) (bad : List Nat) : State :=
  { s with mem := { s.mem with
      bytes := putBytes pa bs s.mem.bytes
      poison := addAll bad (dropAll (wholeUnits 8 pa bs.length) s.mem.poison)
      replicas := (units 128 pa bs.length).foldl (fun m k => del k m) s.mem.replicas } }

/-- The 128 bytes of a line held in L1. -/
def L1Line.bytes (l : L1Line) : List Byte := bytesAt l.data 0 128

/-- A line of a core's L1 written back and dropped if it is exclusive or dirty, else dropped (07 R190, R191). -/
def State.evict (s : State) (core line : Nat) : State :=
  match look (s.core core).l1 line with
  | none => s
  | some l =>
    let s1 := if l.excl || l.dirty then s.homePut (128 * line) l.bytes (l.poison.map (16 * line + ·)) else s
    s1.modCore core fun c => { c with l1 := del line c.l1 }

/-- A dirty or exclusive line written back and kept clean (08 R222). -/
def State.clean (s : State) (core line : Nat) : State :=
  match look (s.core core).l1 line with
  | none => s
  | some l =>
    if l.excl || l.dirty then
      (s.homePut (128 * line) l.bytes (l.poison.map (16 * line + ·))).modCore core fun c =>
        { c with l1 := ins line { l with excl := false, dirty := false } c.l1 }
    else s

/-- A request for a line by another agent: every other core that holds it exclusively gives it up (07 R191). -/
def State.recall (s : State) (line : Nat) (by_ : Option Nat) : State :=
  (s.cores.map (·.1)).foldl (fun s c =>
    if some c = by_ then s
    else match look (s.core c).l1 line with
      | some l => if l.excl then s.evict c line else s
      | none => s) s

/-- A request for a range of lines. -/
def State.recallRange (s : State) (pa n : Nat) (by_ : Option Nat) : State :=
  (units 128 pa n).foldl (fun s k => s.recall k by_) s

/-- A read at the home slice: the bytes and the poisoned words among them. -/
def State.homeRead (s : State) (pa n : Nat) (by_ : Option Nat) : State × List Byte × List Nat :=
  let s := s.recallRange pa n by_
  (s, bytesAt s.mem.bytes pa n, (units 8 pa n).filter s.mem.poison.contains)

/-- A write that performs at the home slice. -/
def State.homeWrite (s : State) (pa : Nat) (bs : List Byte) (bad : List Nat) (by_ : Option Nat) : State :=
  (s.recallRange pa bs.length by_).homePut pa bs bad

/-- The bytes of a line with a core's write-throughs to it taken in, in order (08 R210). -/
def overlay (wt : List WriteThrough) (base n : Nat) (m : SMap Byte) : SMap Byte :=
  wt.foldl (fun m w =>
    (numbered w.pa w.bytes).foldl (fun m q =>
      if base ≤ q.1 ∧ q.1 < base + n then set 0 (q.1 - base) q.2 m else m) m) m

/-- The poisoned words that no write-through covers whole. -/
def overlayBad (wt : List WriteThrough) (bad : List Nat) : List Nat :=
  bad.filter fun k => !wt.any fun w => (wholeUnits 8 w.pa w.bytes.length).contains k

/-- Home slice of a line (07 R187). -/
def homeSlice (line : Nat) : Nat := (line % 96 + 32 * (line / 96 % 3)) % 96

/-- Room for a line in its L1 set, of 16 ways less those lent: where other lines hold them all, one of these, freely chosen,
goes (07 R190, R198, log entry 7). -/
def State.l1Room (s : State) (core line : Nat) : State :=
  let c := s.core core
  let set := (c.l1.map (·.1)).filter fun m => m % 256 == line % 256 && m != line
  if set.length + c.lent < 16 then s else let r := s.pick set.length; r.2.evict core (set.getD r.1 0)

/-- A fill of L1 from the home slice or a replica (07 R188, R190). -/
def State.fill (s : State) (core line : Nat) (dirty : Bool) : State :=
  let r := (s.l1Room core line).homeRead (128 * line) 128 (some core)
  let s := r.1
  let wt := (s.core core).wt
  let l : L1Line := {
    data := overlay wt (128 * line) 128 (putBytes 0 r.2.1 [])
    poison := (overlayBad wt r.2.2).map (· - 16 * line)
    dirty := dirty }
  let s := if homeSlice line / 32 = sectorOf core then s
    else { s with mem := { s.mem with
            replicas := ins line (Nat.lor (lookD 0 s.mem.replicas line) (2 ^ sectorOf core)) s.mem.replicas } }
  s.modCore core fun c => { c with l1 := ins line l c.l1 }

/-- Whether an L1 line is kept until this access or was replaced before it (07 R190, log entry 7). -/
def State.l1Settle (s : State) (core line : Nat) : State :=
  match look (s.core core).l1 line with
  | none => s
  | some _ =>
    let r := s.choose
    if r.1 then r.2 else r.2.evict core line

/-- A plain load of device kind through L1, within one line: the bytes and whether one of them lies in a poisoned word
(07 R190, R202). -/
def State.l1Load (s : State) (core pa n : Nat) : State × List Byte × List Nat :=
  let line := pa / 128
  let s := s.l1Settle core line
  let s := match look (s.core core).l1 line with
    | none => s.fill core line false
    | some _ => s
  let l := lookD {} (s.core core).l1 line
  (s, bytesAt l.data (pa % 128) n, ((units 8 (pa % 128) n).filter l.poison.contains).map (16 * line + ·))

/-- A load that reads the home slice or a replica and leaves L1 unchanged; a line that this core holds exclusively or
dirty is read there (07 R190, R191, 08 R210). -/
def State.homeLoad (s : State) (core pa n : Nat) : State × List Byte × List Nat :=
  let line := pa / 128
  match look (s.core core).l1 line with
  | some l =>
    if l.excl || l.dirty then
      (s, bytesAt l.data (pa % 128) n, ((units 8 (pa % 128) n).filter l.poison.contains).map (16 * line + ·))
    else
      let r := s.homeRead pa n (some core)
      let wt := (r.1.core core).wt
      (r.1, bytesAt (overlay wt pa n (putBytes 0 r.2.1 [])) 0 n, overlayBad wt r.2.2)
  | none =>
    let r := s.homeRead pa n (some core)
    let wt := (r.1.core core).wt
    (r.1, bytesAt (overlay wt pa n (putBytes 0 r.2.1 [])) 0 n, overlayBad wt r.2.2)

/-- An L1 line with bytes stored into it. -/
def L1Line.store (l : L1Line) (off : Nat) (bs : List Byte) (dirty : Bool) : L1Line :=
  { l with data := putBytes off bs l.data, poison := dropAll (wholeUnits 8 off bs.length) l.poison,
           dirty := l.dirty || dirty }

/-- A store of device kind performs at the core: into L1, and through to the home slice unless the line is exclusive or
the private stack's (07 R190, R191). -/
def State.l1Store (s : State) (core ctx pa : Nat) (bs : List Byte) (priv : Bool) : State :=
  let line := pa / 128
  let s := if priv && (look (s.core core).l1 line).isNone then s.fill core line true else s
  match look (s.core core).l1 line with
  | some l =>
    let s1 := s.modCore core fun c => { c with l1 := ins line (l.store (pa % 128) bs (priv || l.excl)) c.l1 }
    if priv || l.excl then s1
    else s1.modCore core fun c => { c with wt := c.wt ++ [{ pa := pa, bytes := bs, ctx := ctx }] }
  | none => s.modCore core fun c => { c with wt := c.wt ++ [{ pa := pa, bytes := bs, ctx := ctx }] }

/-- The k-th write-through of a core performs at the home slice (08 R210). -/
def State.performThrough (s : State) (core k : Nat) : State :=
  match (s.core core).wt[k]? with
  | none => s
  | some w =>
    (s.homeWrite w.pa w.bytes [] (some core)).modCore core fun c => { c with wt := c.wt.eraseIdx k }

/-- Every write-through of a core performs, in order. -/
def State.drainThrough (s : State) (core : Nat) : State :=
  (s.core core).wt.foldl (fun s _ => s.performThrough core 0) s

/-- A core's dirty private-stack lines written back (08 R212). -/
def State.cleanPrivate (s : State) (core : Nat) : State :=
  ((s.core core).l1.filterMap fun p => if p.2.dirty && !p.2.excl then some p.1 else none).foldl
    (fun s line => s.clean core line) s

-- TRANSLATION

/-- A page-table word at the home slice: the word, or none where it is poisoned (07 R182). -/
def State.pte (s : State) (a : Nat) : State × Option Nat :=
  let r := s.homeRead a 8 none
  (r.1, if r.2.2 = [] then some (ofBytes r.2.1) else none)

/-- The leaf of a walk: the address of its entry, the entry and its level. -/
structure Leaf where
  at_ : Nat
  pte : Nat
  level : Nat
  deriving DecidableEq, Repr

/-- log2 of the page that a leaf of a level maps (07 R180). -/
def levelBits (level : Nat) : Nat := if level = 1 then 30 else if level = 2 then 21 else 12

/-- One level of the walk, and the levels below it (07 R180, R182): index bits of the address, table size. -/
def walkFrom (va : Nat) : List (Nat × Nat × Nat) → Nat → State → State × Except Cause Leaf
  | [], _, s => (s, .error .page)
  | (level, lo, n) :: rest, table, s =>
    let a := table - table % (8 * 2 ^ n) + 8 * bits va lo n
    if memEnd ≤ a then (s, .error .prot)
    else
      match s.pte a with
      | (s, none) => (s, .error .eccPoison)
      | (s, some e) =>
        if bits e 0 1 = 0 then (s, .error .page)
        else if level = 3 ∨ (bits e 10 1 = 1 ∧ level ≠ 0) then (s, .ok ⟨a, e, level⟩)
        else if bits e 10 1 = 1 then (s, .error .prot)
        else walkFrom va rest (bits e 12 40 * 4096) s

/-- The four levels of 07 R180: level, low bit of the index, width of the index. -/
def walkLevels : List (Nat × Nat × Nat) := [(0, 40, 12), (1, 30, 10), (2, 21, 9), (3, 12, 9)]

/-- The physical address that a leaf gives an address (07 R180, R181). -/
def Leaf.pa (l : Leaf) (va : Nat) : Nat :=
  let b := levelBits l.level
  bits l.pte 12 40 * 4096 / 2 ^ b * 2 ^ b + va % 2 ^ b

/-- The fingerprint of a 4 KiB page (15 R376). -/
def fingerprint (ws : List Nat) : Nat :=
  let r := ws.foldl (fun (acc : Nat × Nat × Nat) w =>
    ((acc.1 + w * (2 * acc.2.2 + 1)) % 2 ^ 64, Nat.xor acc.2.1 w, acc.2.2 + 1)) (0, 0, 0)
  Nat.xor r.1 ((r.2.1 * 2 ^ 29) % 2 ^ 64 + r.2.1 / 2 ^ 35)

/-- The 512 words of the page at a physical address. -/
def State.pageWords (s : State) (pa : Nat) : List Nat :=
  (List.range 512).map fun i => natAt s.mem.bytes (pa + 8 * i) 8

/-- The bucket of a fingerprint in a table of 2^b buckets (15 R376). -/
def bucketOf (b f : Nat) : Nat := (Nat.xor f (f / 2 ^ 29)) % 2 ^ b

/-- The address of way v of bucket k (15 R375). -/
def Context.wayAt (c : Context) (k v : Nat) : Nat := c.fix.dedupBase + 64 * k + 16 * v

/-- The valid way of a frame's bucket that names the frame (15 R378). -/
def State.wayOf (s : State) (ctx frame : Nat) (f : Nat) : Option Nat :=
  let c := s.ctx ctx
  if c.fix.dedupBits = 0 then none
  else ((List.range 4).map (c.wayAt (bucketOf c.fix.dedupBits f))).find? fun a =>
    let w1 := natAt s.mem.bytes (a + 8) 8
    bits w1 63 1 == 1 && bits w1 0 40 == frame

/-- A frame taken from the head of a context's free-page queue; a kind-8 event when the count falls to the low
watermark (11 R300). Frames stand in the queue as 8-byte physical addresses (log entry 16). -/
def State.takeFrame (s : State) (ctx : Nat) : Option (Nat × State) :=
  let c := s.ctx ctx
  if c.freeCount = 0 then none
  else
    let pa := natAt s.mem.bytes (c.fix.freeBase + 8 * c.freeHead) 8
    let s1 := s.modCtx ctx fun c =>
      { c with freeHead := (c.freeHead + 1) % 2 ^ c.fix.freeSize, freeCount := c.freeCount - 1 }
    some (pa, if c.freeCount - 1 = c.var.lowMark then s1.post ctx false { kind := 8, extra := word (c.freeCount - 1) }
              else s1)

/-- A frame appended to a context's free-page queue; none where it is full (11 R300). -/
def State.addFrame (s : State) (ctx pa : Nat) : Option State :=
  let c := s.ctx ctx
  if c.fix.freeSize = 0 ∨ 2 ^ c.fix.freeSize ≤ c.freeCount then none
  else
    let at_ := c.fix.freeBase + 8 * ((c.freeHead + c.freeCount) % 2 ^ c.fix.freeSize)
    some ((s.homeWrite at_ (toBytes 8 pa) [] none).modCtx ctx fun c => { c with freeCount := c.freeCount + 1 })

/-- TLB entries of an ASID that touch a page range, dropped in every core (07 R183, 08 R230). -/
def State.dropTlb (s : State) (asid lo n : Nat) (all : Bool) : State :=
  (s.cores.map (·.1)).foldl (fun s c => s.modCore c fun k =>
    { k with tlb := k.tlb.filter fun e =>
        !(e.asid == asid && (all || (decide (e.va < lo + n) && decide (lo < e.va + 2 ^ e.bits)))) }) s

/-- A page's lines dropped from every L1 and every replica (08 R230). -/
def State.dropPageLines (s : State) (pa : Nat) : State :=
  let lines := units 128 pa 4096
  let s1 := (s.cores.map (·.1)).foldl (fun s c => s.modCore c fun k =>
    { k with l1 := k.l1.filter fun p => !lines.contains p.1 }) s
  { s1 with mem := { s1.mem with replicas := s1.mem.replicas.filter fun p => !lines.contains p.1 } }

/-- A 4 KiB page copied with its poison (07 R203). -/
def State.copyPage (s : State) (src dst : Nat) : State :=
  let r := s.homeRead src 4096 none
  r.1.homeWrite dst r.2.1 (r.2.2.map fun k => k - src / 8 + dst / 8) none

/-- Whether an event would have to wait for its place before a frame is taken: copy-on-write and make_private wait for it
(11 R299, R300). -/
def Context.frameWaits (c : Context) : Bool := c.freeCount != 0 && c.freeCount - 1 == c.var.lowMark && !c.mayHold

/-- Copy-on-write of a dedup-shared 4 KiB leaf (15 R378): the state, or COW_NOPAGE with nothing changed. With copy
clear the frame is taken without its copy, as make_private does (09 R251). -/
def State.cow (s : State) (ctx va : Nat) (l : Leaf) (copy : Bool) : Except Cause State :=
  let c := s.ctx ctx
  let frame := bits l.pte 12 40
  let s := s.recallRange (4096 * frame) 4096 none
  let f := fingerprint (s.pageWords (4096 * frame))
  let way := s.wayOf ctx frame f
  let open_ (fr : Nat) : Nat := setBits (setBits (setBits (setBits l.pte 12 40 fr) 4 1 0) 1 1 1) 5 2 3
  let ref (a : Nat) : Nat := bits (natAt s.mem.bytes (a + 8) 8) 40 16
  match way with
  | some a =>
    if ref a = 1 then
      let w1 := natAt s.mem.bytes (a + 8) 8
      .ok (((s.homeWrite (a + 8) (toBytes 8 (setBits w1 63 1 0)) [] none).homeWrite l.at_ (toBytes 8 (open_ frame)) [] none).dropTlb
        c.fix.asid (va / 4096 * 4096) 4096 false)
    else
      match s.takeFrame ctx with
      | none => .error .cowNopage
      | some (pa, s) =>
        let s := if copy then s.copyPage (4096 * frame) pa else s
        let s := (s.dropPageLines pa).homeWrite l.at_ (toBytes 8 (open_ (pa / 4096))) [] none
        let s := s.dropTlb c.fix.asid (va / 4096 * 4096) 4096 false
        let w1 := natAt s.mem.bytes (a + 8) 8
        let n := bits w1 40 16
        .ok (if n = 0xFFFF then s else s.homeWrite (a + 8) (toBytes 8 (setBits w1 40 16 (n - 1))) [] none)
  | none =>
    match s.takeFrame ctx with
    | none => .error .cowNopage
    | some (pa, s) =>
      let s := if copy then s.copyPage (4096 * frame) pa else s
      let s := (s.dropPageLines pa).homeWrite l.at_ (toBytes 8 (open_ (pa / 4096))) [] none
      .ok (s.dropTlb c.fix.asid (va / 4096 * 4096) 4096 false)

/-- Checks 3 and 4 of 07 R182 on a leaf, and those of R178; `some none` asks for copy-on-write, which a 4 KiB leaf alone
can ask for (15 R378, log entry 93). -/
def leafCheck (l : Leaf) (va : Nat) (acc : AccKind) (user : Bool) : Option (Option Cause) :=
  let kind := bits l.pte 8 2
  if (kind = 0 ∨ kind = 3) ∧ memEnd ≤ l.pa va then some (some .prot)
  else if bits l.pte 63 1 = 1 then some (some .eccPoison)
  else if user ∧ bits l.pte 3 1 = 0 then some (some .prot)
  else if acc = .fetch ∧ (bits l.pte 2 1 = 0 ∨ kind ≠ 0) then some (some .prot)
  else if acc = .write ∧ bits l.pte 4 1 = 1 ∧ l.level = 3 then some none
  else if acc = .write ∧ bits l.pte 1 1 = 0 then some (some .prot)
  else none

/-- The walk of 07 R182 with its checks, without copy-on-write: the leaf, or the fault; `.ok` of a leaf that asks for
copy-on-write comes with true. -/
def State.walkOnly (s : State) (ctx va : Nat) (acc : AccKind) (user : Bool) : State × Except Cause (Leaf × Bool) :=
  match walkFrom va walkLevels (s.ctx ctx).fix.root s with
  | (s, .error c) => (s, .error c)
  | (s, .ok l) =>
    match leafCheck l va acc user with
    | some (some c) => (s, .error c)
    | some none => (s, .ok (l, true))
    | none => (s, .ok (l, false))

/-- Whether the way of a dedup-shared frame counts one sharer: its page is opened in place (15 R378). -/
def State.loneWay (s : State) (ctx frame : Nat) : Bool :=
  ((s.wayOf ctx frame (fingerprint (s.pageWords (4096 * frame)))).map fun a =>
    bits (natAt s.mem.bytes (a + 8) 8) 40 16 == 1).getD false

/-- Whether a write to a page has to wait before its copy-on-write: the copy runs between commands of the core's Shuttle, and
its event must find a place (11 R297, R299). `own` is a write of the Shuttle's own command. -/
def State.cowWaits (s : State) (core ctx va : Nat) (user own : Bool) : Bool :=
  match s.walkOnly ctx va .write user with
  | (s, .ok (l, true)) => !s.loneWay ctx (bits l.pte 12 40) &&
    ((!own && (s.core core).started.isSome) || (s.ctx ctx).frameWaits)
  | _ => false

/-- Accessed, and dirty on a write, set in the leaf at the home slice (07 R181, R182). -/
def State.touchLeaf (s : State) (l : Leaf) (acc : AccKind) : State × Leaf :=
  let e := Nat.lor l.pte (if acc = .write then 0x60 else 0x20)
  if e = l.pte then (s, l) else (s.homeWrite l.at_ (toBytes 8 e) [] none, { l with pte := e })

/-- The TLB entry that a leaf fills (07 R183, R184). -/
def tlbOf (asid va : Nat) (l : Leaf) : TlbEntry :=
  let b := if l.level = 3 ∧ bits l.pte 7 1 = 1 then 16 else levelBits l.level
  let own := l.pa va - va % 2 ^ levelBits l.level
  { asid := asid, va := va / 2 ^ b * 2 ^ b, bits := b,
    pa := if b = 16 then (own + 2 ^ 52 - (va % 65536 - va % 4096)) % 2 ^ 52 else own,
    kind := bits l.pte 8 2, user := bits l.pte 3 1 = 1, exec := bits l.pte 2 1 = 1, write := bits l.pte 1 1 = 1,
    dirty := bits l.pte 6 1 = 1, shared := bits l.pte 4 1 = 1 }

/-- An entry fills a core's TLB, in place of one of its page; where 2048 others are held, one of these, freely chosen, goes
(07 R183, log entry 7). -/
def State.fillTlb (s : State) (core : Nat) (e : TlbEntry) : State :=
  let old := (s.core core).tlb.filter fun x => !(x.asid == e.asid && x.va == e.va && x.bits == e.bits)
  let r := if old.length < 2048 then (old, s) else s.dropOne old
  r.2.modCore core fun c => { c with tlb := e :: r.1 }

/-- PAGE_WALK of 07 R182: walk, copy-on-write where it is due, then the fill of the core's TLB. -/
def State.pageWalk (s : State) (core ctx va : Nat) (acc : AccKind) (user : Bool) :
    State × Except Cause TlbEntry :=
  let asid := (s.ctx ctx).fix.asid
  let fill (s : State) (l : Leaf) : State × Except Cause TlbEntry :=
    let r := s.touchLeaf l acc
    let e := tlbOf asid va r.2
    (r.1.fillTlb core e, .ok e)
  match s.walkOnly ctx va acc user with
  | (s, .error c) => (s, .error c)
  | (s, .ok (l, false)) => fill s l
  | (s, .ok (l, true)) =>
    match s.cow ctx va l true with
    | .error c => (s, .error c)
    | .ok s =>
      match s.walkOnly ctx va acc user with
      | (s, .ok (l, false)) => fill s l
      | (s, .ok (_, true)) => (s, .error .prot)
      | (s, .error c) => (s, .error c)

/-- Whether a TLB entry serves an access (07 R183): one that does not is walked again. -/
def TlbEntry.serves (e : TlbEntry) (asid va : Nat) (acc : AccKind) (user : Bool) : Bool :=
  e.asid == asid && e.va == va / 2 ^ e.bits * 2 ^ e.bits && (!user || e.user) &&
  (acc != .fetch || (e.exec && e.kind == 0)) && (acc != .write || (e.write && e.dirty && !e.shared))

/-- A physical address of a TLB entry's page; none beyond 384 GiB for device and uncached kind (07 R178). -/
def TlbEntry.reach (e : TlbEntry) (va : Nat) : Except Cause (Nat × Nat) :=
  let pa := e.pa + (va - e.va)
  if (e.kind = 0 ∨ e.kind = 3) ∧ memEnd ≤ pa then .error .prot else .ok (pa, e.kind)

/-- A global address translated for a core (07 R182, R183): physical address and kind code. Whether a TLB entry is
still held is a free choice (log entry 7). -/
def State.translate (s : State) (core ctx va : Nat) (acc : AccKind) (user : Bool) :
    State × Except Cause (Nat × Nat) :=
  let asid := (s.ctx ctx).fix.asid
  let walk (s : State) : State × Except Cause (Nat × Nat) :=
    match s.pageWalk core ctx va acc user with
    | (s, .ok e) => (s, e.reach va)
    | (s, .error c) => (s, .error c)
  match (s.core core).tlb.find? fun e => e.serves asid va acc user with
  | none => walk s
  | some e =>
    let r := s.choose
    if r.1 then (r.2, e.reach va)
    else walk (r.2.modCore core fun c => { c with tlb := c.tlb.filter fun x => x != e })

-- SCRATCHPAD

/-- The lines of a scratchpad range that are absent and carry no ring mark (07 R193). -/
def Part.missing (p : Part) (off n : Nat) : List Nat :=
  (units 128 off n).filter fun k => p.absent.contains k && (look p.marks k).isNone

/-- Bytes stored into a part: a word covered whole loses its poison, the words of `bad` arrive poisoned. -/
def Part.store (p : Part) (off : Nat) (bs : List Byte) (bad : List Nat) : Part :=
  { p with bytes := putBytes off bs p.bytes
           poison := addAll bad (dropAll (wholeUnits 8 off bs.length) p.poison) }

/-- Why a compressed aperture gives no bytes: a fault, a line that is not present, or a line's ring mark. -/
inductive AperErr where
  | prot
  | wait
  | mark (dropped : Bool) (line : Nat)
  deriving DecidableEq, Repr

/-- Bytes of a grant that an aperture access reads, and whether one lies in a poisoned word: PROT beyond the grant, a
wait on an absent line, and the ring mark that a line carries (13 R347). -/
def Part.need (p : Part) (grant off n : Nat) : Except AperErr (Nat × Bool) :=
  if grant < off + n then .error .prot
  else if p.missing off n ≠ [] then .error .wait
  else match (units 128 off n).find? fun k => (look p.marks k).isSome with
    | some k => .error (.mark ((look p.marks k).getD false) k)
    | none => .ok (natAt p.bytes off n, (units 8 off n).any p.poison.contains)

/-- Payload bytes of a block of a compressed tile by its code; none for a reserved code (07 R196). -/
def aperPayload (code : Nat) : Option Nat :=
  match code with
  | 0 => some 0
  | 1 => some 4
  | 2 => some 68
  | 3 => some 132
  | 4 => some 256
  | _ => none

/-- The sum of the payloads of the blocks before block b, none where one of them has a reserved code. -/
def aperSkip (header : Nat) : Nat → Option Nat
  | 0 => some 0
  | b + 1 => match aperSkip header b, aperPayload (bits header (4 * b) 4) with
    | some x, some y => some (x + y)
    | _, _ => none

/-- The storage of the tile that an aperture offset lies in: storage offset and capacity in bytes (07 R194, R195). -/
def Part.tile (p : Part) (grant off : Nat) : Except AperErr (Nat × Nat × Bool) :=
  let o := off - 0x180000
  let d := (lookD 0 p.desc (o / 0x20000)).toNat
  let i := o % 0x20000 / 4096
  if bits d 31 1 = 0 ∨ bits d 26 5 < i then .error .prot
  else do
    let e ← p.need grant (bits d 0 21 + 4 * i) 4
    if bits e.1 24 8 = 0 then .error .prot else .ok (bits e.1 0 21 / 32 * 32, 32 * bits e.1 24 8, e.2)

/-- One 32-bit word of an aperture, and whether a byte that it needs is poisoned (07 R196, R202). -/
def Part.aperWord (p : Part) (grant off : Nat) : Except AperErr (Nat × Bool) := do
  let (store, cap, bad0) ← p.tile grant off
  let b := off % 4096 / 256
  let j := off % 256 / 4
  if cap < 8 then .error .prot
  else
    let (h, bad1) ← p.need grant store 8
    let code := bits h (4 * b) 4
    match aperSkip h b, aperPayload code with
    | some skip, some len =>
      let base := store + 8 + skip
      if cap < 8 + skip + len then .error .prot
      else match code with
        | 0 => .ok (0, bad0 || bad1)
        | 1 => do
          let (w, bad) ← p.need grant base 4
          .ok (w, bad0 || bad1 || bad)
        | 2 => do
          let (w, bad) ← p.need grant base 4
          let (x, bad') ← p.need grant (base + 4 + j) 1
          .ok (wrap 32 (w + sextNat 32 8 x), bad0 || bad1 || bad || bad')
        | 3 => do
          let (w, bad) ← p.need grant base 4
          let (x, bad') ← p.need grant (base + 4 + 2 * j) 2
          .ok (wrap 32 (w + sextNat 32 16 x), bad0 || bad1 || bad || bad')
        | _ => do
          let (w, bad) ← p.need grant (base + 4 * j) 4
          .ok (w, bad0 || bad1 || bad)
    | _, _ => .error .prot

/-- The words of an aperture at the offsets given, and the offsets of the poisoned ones. -/
def Part.aperWords (p : Part) (grant : Nat) : List Nat → Except AperErr (List Nat × List Nat)
  | [] => .ok ([], [])
  | o :: r => do
    let (w, bad) ← p.aperWord grant o
    let (ws, bad') ← p.aperWords grant r
    .ok (w :: ws, if bad then o :: bad' else bad')

/-- n bytes read through a compressed aperture, and the offsets of the poisoned 32-bit words among them (07 R196, R202). -/
def Part.aperRead (p : Part) (grant off n : Nat) : Except AperErr (List Byte × List Nat) := do
  let lo := off / 4 * 4
  let (ws, bad) ← p.aperWords grant ((List.range (ceilDiv (off + n - lo) 4)).map fun i => lo + 4 * i)
  .ok (((ws.flatMap (toBytes 4)).drop (off - lo)).take n, bad)

/-- The poisoned 8-byte words of a range of a part. -/
def Part.badIn (p : Part) (off n : Nat) : List Nat := (units 8 off n).filter p.poison.contains

end Sys2Proof.Machine
end

