-- ==== Sys2Proof/Machine/Ops.lean ====
section
/-! DEFINITION. The named operations over memory and registers: instruction fetch (07 R175, 05 R140), checked addresses
(07 R174 to R179), the store queue (08 R209 to R214), taking an exception and returning from one (04 R94 to R110). -/

namespace Sys2Proof.Machine

-- FETCH

/-- Whether a core still holds a line for fetch is a free choice (log entry 7). -/
def State.settleLine (s : State) (core line : Nat) : State :=
  match look (s.core core).icache line with
  | none => s
  | some _ =>
    let r := s.choose
    if r.1 then r.2 else r.2.modCore core fun c => { c with icache := del line c.icache }

/-- A line held for fetch, filled from the home slice or a replica with the core's own writes (05 R140). -/
def State.fetchLine (s : State) (core line : Nat) : State :=
  match look (s.core core).icache line with
  | some _ => s
  | none =>
    let r := s.homeLoad core (128 * line) 128
    let l : L1Line := { data := putBytes 0 r.2.1 [], poison := r.2.2.map (· - 16 * line) }
    r.1.modCore core fun c => { c with icache := ins line l c.icache }

/-- A word fetched for a thread, or the fault of row 1 of 03 R79 (07 R174, R175, R202, 05 R140). No word lies at an address
that is no multiple of 8 (03 R57): what is fetched there is the word that the address falls in (log entry 43). -/
def State.fetch (s : State) (core ctx : Nat) (va : Word) (user : Bool) : State × Except Cause Word :=
  let a := va.toNat
  if 2 ^ 52 ≤ a ∨ a / 2 ^ 48 = 0xF then (s, .error .prot)
  else match s.translate core ctx a .fetch user with
    | (s, .error c) => (s, .error c)
    | (s, .ok (pa, _)) =>
      let line := pa / 128
      let s := (s.settleLine core line).fetchLine core line
      let l := lookD {} (s.core core).icache line
      if l.poison.contains (pa % 128 / 8) then (s, .error .eccPoison)
      else (s, .ok (word (natAt l.data (pa % 128 / 8 * 8) 8)))

-- CHECKED ADDRESSES

/-- What an access is for, as 07 R175 tells its uses apart. -/
inductive Use where
  | load | store | atom
  deriving DecidableEq, Repr

/-- A fault on data: TRAPADDR is the access's lowest byte (04 R98). -/
def dataTrap (c : Cause) (va : Word) (acc : AccKind) : Trap := { cause := c, addr := va, acc := acc }

/-- A window address (07 R174 to R177, R200) for a workgroup's thread on a core. -/
def State.window (s : State) (core ctx wgk : Nat) (va : Word) (n : Nat) (use : Use) (user : Bool) :
    Except Cause Place :=
  let a := va.toNat
  let w := s.wg wgk
  let cslot := (w.bind (·.slotOf core)).getD 0
  let grant := (w.map (·.scratch)).getD 0
  let scr (off : Nat) : Except Cause Place :=
    if off + n ≤ grant then .ok (.scr wgk cslot off)
    else if 0x180000 ≤ off ∧ off + n ≤ 0x200000 then (if use = .load then .ok (.aper wgk cslot off) else .error .prot)
    else .error .prot
  match bits a 40 8 with
  | 0x00 => if bits a 21 19 ≠ 0 then .error .prot else scr (bits a 0 21)
  | 0x01 => if bits a 23 17 ≠ 0 ∨ bits a 21 2 ≠ cslot then .error .prot else scr (bits a 0 21)
  | 0x02 =>
    if bits a 25 15 ≠ 0 ∨ use = .atom then .error .prot
    else match s.skein core (bits a 15 10) with
      | none => .error .prot
      | some k =>
        if k.ctx ≠ ctx ∨ k.alloc < bits a 0 10 + n then .error .prot
        else .ok (.reg (bits a 15 10) (bits a 10 5) (bits a 0 10))
  | 0x03 =>
    if bits a 26 14 ≠ 0 ∨ use = .atom ∨ user ∨ 0x3000000 < bits a 0 26 + n then .error .prot
    else .ok (.strip (bits a 0 26))
  | _ => .error .prot

/-- An address checked and placed for a thread (07 R174, R178, R179, R182). -/
def State.place (s : State) (core ctx wgk : Nat) (va : Word) (n : Nat) (use : Use) (user : Bool) :
    State × Except Trap Place :=
  let acc := if use = .load then AccKind.read else AccKind.write
  let a := va.toNat
  if 2 ^ 52 ≤ a then (s, .error (dataTrap .prot va acc))
  else if a / 2 ^ 48 = 0xF then
    match s.window core ctx wgk va n use user with
    | .ok p => (s, .ok p)
    | .error c => (s, .error (dataTrap c va acc))
  else match s.translate core ctx a acc user with
    | (s, .error c) => (s, .error (dataTrap c va acc))
    | (s, .ok (pa, kind)) =>
      match kind with
      | 0 => (s, .ok (.dev pa))
      | 1 => (s, .ok (.host pa))
      | 2 => (s, if use = .store then .ok (.peer pa) else .error (dataTrap .prot va acc))
      | _ => (s, .ok (.unc pa))

/-- Pipeline i of a core. -/
def Core.pipe (c : Core) (i : Nat) : Pipe := lookD {} c.pipes i

/-- A context's entry as the skein of a slot sees it: new values apply from its next run on (15 R382). -/
def State.varOf (s : State) (core slot ctx : Nat) : CtxVar :=
  match ((s.core core).pipe (slot / 8)).run with
  | none => (s.ctx ctx).var
  | some r => if r.slot = slot then r.var.getD (s.ctx ctx).var else (s.ctx ctx).var

/-- Whether an address lies in the context's private stack, as the skein of a slot sees it (07 R190). -/
def State.isPrivate (s : State) (core slot ctx va : Nat) : Bool :=
  let c := s.varOf core slot ctx
  decide (c.stackBase ≤ va ∧ va < c.stackBase + c.stackSize)

-- STORES

/-- Whether the host link reports an access to bus addresses as unsupported (07 R179). -/
def State.linkDenies (s : State) (pa n : Nat) : Bool := s.mem.denied.any fun r => decide (r.1 < pa + n ∧ pa < r.1 + r.2)

/-- The same for an access to a place. -/
def State.placeDenied (s : State) (p : Place) (n : Nat) : Bool :=
  match p with
  | .host pa => s.linkDenies pa n
  | _ => false

/-- A posted write of host or peer kind arrives (08 R220, log entry 95); one that the link reports as unsupported is dropped
and counted (07 R179). -/
def State.linkPut (s : State) (ctx pa : Nat) (bs : List Byte) (peer : Bool) : State :=
  if s.linkDenies pa bs.length then s.count ctx 13 1
  else if peer then { s with mem := { s.mem with peer := s.mem.peer ++ [(pa, bs)] } }
  else s.hostPut pa bs

/-- A store performs at the core (08 R209); all of its bytes at once, the 16 of the widest too (log entry 96). -/
def State.storeAt (s : State) (core ctx : Nat) (p : Place) (bs : List Byte) (bad : List Nat) (priv : Bool) : State :=
  match p with
  | .dev pa => s.l1Store core ctx pa bs priv
  | .unc pa => s.modCore core fun c => { c with wt := c.wt ++ [{ pa := pa, bytes := bs, ctx := ctx, unc := true }] }
  | .host pa => s.linkPut ctx pa bs false
  | .peer pa => s.linkPut ctx pa bs true
  | .scr w c off => s.modPart w c fun x => x.store off bs bad
  | .aper _ _ _ => s
  | .reg slot lane off => s.modThread core slot lane fun th =>
      if th.gone then th else (th.at s.cycle).store (numbered off bs)
  | .strip off => s.putRing off bs

/-- An atomic's new value at width w bits from the old value and the operand; CAS compares with c (09 R235, R236).
FADD is given by `fadd`. -/
def atomValue (fadd : Nat → Nat → Nat → Nat) (op : AtomOp) (w old v c : Nat) : Nat :=
  match op with
  | .add => wrap w (old + v)
  | .mins => if sgn w v < sgn w old then v else old
  | .minn => if v < old then v else old
  | .maxs => if sgn w old < sgn w v then v else old
  | .maxn => if old < v then v else old
  | .and => Nat.land old v
  | .or => Nat.lor old v
  | .xor => Nat.xor old v
  | .exch => v
  | .cas => if old = c then v else old
  | .fadd => fadd w old v

-- TRAPS

/-- The codes of 04 R97. -/
def Cause.code : Cause → Nat
  | .illegalOp => 0x01
  | .illegalField => 0x02
  | .badTarget => 0x03
  | .blockOverrun => 0x04
  | .regRange => 0x05
  | .stallShort => 0x06
  | .priv => 0x07
  | .align => 0x10
  | .page => 0x11
  | .prot => 0x12
  | .cowNopage => 0x13
  | .eccPoison => 0x14
  | .tileFreed => 0x20
  | .tileOwner => 0x21
  | .tileNoframe => 0x22
  | .cvrMismatch => 0x23
  | .launchFull => 0x30
  | .nestDepth => 0x31
  | .ringCorrupt => 0x32
  | .ringDropped => 0x33
  | .putDrop => 0x34
  | .barErr => 0x35
  | .engineErr => 0x36
  | .watchdog => 0x40
  | .brk => 0x50
  | .step => 0x51
  | .trap => 0x52

/-- The replayable causes of 04 R97. -/
def Cause.replayable : Cause → Bool
  | .page => true
  | .cowNopage => true
  | _ => false

/-- The causes routed D (04 R97). -/
def Cause.debug : Cause → Bool
  | .brk => true
  | .step => true
  | _ => false

/-- TRAPCAUSE (04 R90, R100): replay, nested, user and the code. -/
def causeWord (c : Cause) (nested sup : Bool) : BitVec 32 :=
  BitVec.ofNat 32 (1024 * c.replayable.toNat + 512 * nested.toNat + 256 * (!sup).toNat + c.code)

/-- The trap record as a fault of a user thread writes it; TRAPSCRA and TRAPSCRB stay (04 R90, R100). -/
def Thread.record (th : Thread) (c : Cause) (pc addr info : Word) : TrapRec :=
  { cause := causeWord c false th.sup, pc := pc, addr := addr, info := info, pred := th.pred, link := th.link,
    blk := th.blk, view := th.views.pack, scrA := th.trec.scrA, scrB := th.trec.scrB }

/-- Handler entry of one thread (04 R100). -/
def Thread.enter (th : Thread) (c : Cause) (pc addr info vec : Word) : Thread :=
  { th with trec := th.record c pc addr info, pred := 0, link := 0, sup := true, views := {}, pc := vec, blk := vec,
            pend := th.pend.filter fun p => !(p.onPred || p.onLink) }

/-- Every result in flight lands: at a trap every older instruction of the thread has completed (04 R95). -/
def Thread.settle (th : Thread) : Thread := th.pend.foldl (fun t p => t.land p.what) { th with pend := [] }

/-- The event of a fragment: its lowest thread gives cause, pc, addr and info (04 R104, 11 R299). -/
def fragmentEvent (k : Skein) (kind core slot : Nat) (lanes : List Nat) (cause : BitVec 32) (pc addr info : Word)
    (detail : Nat) : Event :=
  { kind := kind, core := core, slot := slot, mask := maskOf lanes, cause := cause, grid := k.grid, pc := pc,
    addr := addr, info := info, wg := k.wg, detail := detail }

/-- Detail bits of a replayable fault (11 R299). -/
def accDetail : AccKind → Nat
  | .read => 1
  | .write => 2
  | .fetch => 4

/-- Threads of a skein leave its current block. -/
def Skein.leave (k : Skein) (lanes : List Nat) : Skein := { k with joined := k.joined &&& ~~~ maskOf lanes }

/-- A fault's values for TRAPADDR and TRAPINFO (04 R98). -/
def Trap.infoOr (t : Trap) (w : Word) : Word := t.info.getD w

/-- Whether a fault of a supervisor thread with this cause is nested (04 R99, R103): one routed V or D. -/
def Cause.nests (c : Cause) : Bool := !c.replayable && c != .watchdog

/-- One fragment parks in state st (04 R103 to R105, R107): a user thread's record is written, a supervisor thread's is
left; one event is posted, of kind 1 for a replayable fault and 2 or 3 otherwise, with the cause of its lowest thread. -/
def State.parkFragment (s : State) (core slot kind : Nat) (pc w : Word) (c : Cause) (st : ThreadState)
    (fs : List (Nat × Trap)) : State :=
  match s.skein core slot, fs with
  | some k, (l0, t0) :: _ =>
    let sup := (laneOf k.threads l0).sup
    let s1 := fs.foldl (fun s f => s.modThread core slot f.1 fun th =>
      { th with trec := if th.sup then th.trec else th.record c pc f.2.addr (f.2.infoOr w), st := st }) s
    let lanes := fs.map (·.1)
    -- a replayable event names the lowest faulting address of the fragment (07 R186)
    let addr := if c.replayable then
        (fs.map (·.2.addr)).foldl (fun a b => if b.toNat < a.toNat then b else a) t0.addr else t0.addr
    let e := fragmentEvent k kind core slot lanes (causeWord c (sup && c.nests) sup) pc addr (t0.infoOr w)
      (if kind = 1 then accDetail t0.acc else 0)
    if kind = 1 then s1.postFault k.ctx e (.fragment k.wgKey k.idx (maskOf lanes)) else s1.post k.ctx false e
  | _, _ => s

/-- A fragment enters the handler at TRAPVEC; one whose handler address is no header of length 2 or more, or no address of a
word, takes BAD_TARGET as a nested fault (03 R57, 04 R100, R103). Where the word at TRAPVEC cannot be fetched the threads
stand at TRAPVEC and take the fetch fault there (log entry 90). -/
def State.enterHandler (s : State) (core slot : Nat) (pc w : Word) (c : Cause) (fs : List (Nat × Trap)) : State :=
  match s.skein core slot with
  | none => s
  | some k =>
    let vec := (s.varOf core slot k.ctx).trapvec
    let s1 := fs.foldl (fun s f => s.modThread core slot f.1 fun th =>
      th.enter c pc f.2.addr (f.2.infoOr w) vec) s
    match s1.fetch core k.ctx vec false with
    | (s2, .error _) => s2
    | (s2, .ok h) =>
      if isHeader h && decide (2 ≤ fld h 47 8) && vec.toNat % 8 == 0 then s2
      else s2.parkFragment core slot 2 vec h .badTarget .hostParked
        (fs.map fun f => (f.1, { cause := .badTarget, addr := vec, info := some h }))

/-- TAKING AN EXCEPTION: one fragment of threads faults at a word with one cause, and is routed as 04 R97, R99, R103 to R105
and R107 say; a D-routed fault under DBGHOST debug-parks supervisor threads too, as nested (log entry 17). Its threads
leave the block. -/
def State.raiseFragment (s : State) (core slot : Nat) (pc w : Word) (c : Cause) (fs : List (Nat × Trap)) : State :=
  match s.skein core slot with
  | none => s
  | some k =>
    let s := s.modSkein core slot fun k => k.leave (fs.map (·.1))
    let s := fs.foldl (fun s f => s.modThread core slot f.1 Thread.settle) s
    let hostDebug := c.debug && k.dbgctl.getLsbD 2
    if c.replayable then s.parkFragment core slot 1 pc w c .replayParked fs
    else if c = .watchdog then s.parkFragment core slot 3 pc w c .hostParked fs
    else if hostDebug then
      (s.parkFragment core slot 2 pc w c .debugParked fs).modSkein core slot fun k => { k with stop := true }
    else if (s.varOf core slot k.ctx).trapvec = 0 then s.parkFragment core slot 2 pc w c .hostParked fs
    else
      let sup (f : Nat × Trap) : Bool := (laneOf k.threads f.1).sup
      let s := match fs.filter sup with
        | [] => s
        | l => s.parkFragment core slot 2 pc w c .hostParked l
      match fs.filter fun f => !sup f with
      | [] => s
      | l => s.enterHandler core slot pc w c l

/-- The faults of one cause, in ascending thread position (04 R96, R104). -/
def faultsOf (c : Cause) (fs : List (Nat × Trap)) : List (Nat × Trap) :=
  (List.range 32).flatMap fun l => fs.filter fun f => f.2.cause == c && f.1 == l

/-- The causes in the order of their codes. -/
def allCauses : List Cause :=
  [.illegalOp, .illegalField, .badTarget, .blockOverrun, .regRange, .stallShort, .priv, .align, .page, .prot,
   .cowNopage, .eccPoison, .tileFreed, .tileOwner, .tileNoframe, .cvrMismatch, .launchFull, .nestDepth, .ringCorrupt,
   .ringDropped, .putDrop, .barErr, .engineErr, .watchdog, .brk, .step, .trap]

/-- The threads that fault at one word, one fragment per cause (04 R96). -/
def State.raise (s : State) (core slot : Nat) (pc w : Word) (fs : List (Nat × Trap)) : State :=
  allCauses.foldl (fun s c =>
    match faultsOf c fs with
    | [] => s
    | l => s.raiseFragment core slot pc w c l) s

/-- RETURN FROM AN EXCEPTION: the restores of 04 R102 into a thread, with the PC given; none where TRAPVIEW holds a
descriptor that 03 R71 rejects. -/
def Thread.restore (th : Thread) (pc : Word) : Option Thread :=
  let v := Views.unpack th.trec.view
  if v.ok then
    some { th with pred := th.trec.pred, link := th.trec.link, blk := th.trec.blk, views := v, pc := pc,
                   sup := !th.trec.cause.getLsbD 8, pend := th.pend.filter fun p => !(p.onPred || p.onLink) }
  else none

/-- A thread becomes running, or debug-parked where a debug stop waits for it (04 R94, R107). -/
def Thread.wake (th : Thread) : Thread :=
  if th.stopNext then { th with st := .debugParked, stopNext := false } else { th with st := .running }

/-- Threads whose wait has ended go on at a PC; those whose step waited raise STEP, as one fragment (04 R96, R108). -/
def State.wakeLanes (s : State) (core slot : Nat) (lanes : List Nat) (pc : Word) : State :=
  let steps := lanes.filterMap fun l => ((s.thread core slot l).bind (·.stepNext)).map fun from_ =>
    (l, ({ cause := .step, info := some from_ } : Trap))
  (lanes.foldl (fun s l => s.modThread core slot l fun th => { th.wake with pc := pc, stepNext := none }) s).raise core slot
    pc 0 steps

/-- One thread whose wait has ended. -/
def State.wakeAt (s : State) (core slot lane : Nat) (pc : Word) : State := s.wakeLanes core slot [lane] pc

/-- A thread exits: results still owed are discarded (05 R135). -/
def Thread.exit (th : Thread) : Thread := { th with st := .exited, held := [], pend := [], stopNext := false, stepNext := none }

-- RUNS

/-- Whether a thread is runnable (02 R42, 04 R94). -/
def Thread.runnable (th : Thread) : Bool := th.st = .running

/-- At a run boundary a pending debug stop with STOPALL parks the running threads, and the waiting and replay-parked
ones when they would next run (04 R107, log entry 18). -/
def Skein.stopAll (k : Skein) : Skein :=
  if k.stop && k.dbgctl.getLsbD 1 then
    { k with stop := false, joined := 0, threads := k.threads.map fun th =>
        match th.st with
        | .running => { th with st := .debugParked }
        | .waiting _ => { th with stopNext := true }
        | .replayParked => { th with stopNext := true }
        | _ => th }
  else { k with stop := false }

/-- A step is over for the threads that do not run on (04 R108). -/
def Skein.stepOver (k : Skein) : Skein :=
  { k with step := k.step &&& maskOf ((List.range 32).filter fun l => (laneOf k.threads l).runnable) }

/-- A halted skein's threads exit at its run boundary (14 R360). -/
def Skein.haltNow (k : Skein) : Skein :=
  if k.halt then { k with halt := false, joined := 0, threads := k.threads.map Thread.exit } else k

/-- The program counters of a list of threads, each once. -/
def pcsOf (ths : List (Nat × Thread)) : List Word := (ths.map (·.2.pc)).dedup

/-- The watchdog's action at a run boundary: every running or waiting thread is host-parked (04 R106). -/
def State.wdogPark (s : State) (core slot : Nat) : State :=
  match s.skein core slot with
  | none => s
  | some k =>
    match k.wdog with
    | none => s
    | some us =>
      let hit := ((List.range 32).zip k.threads).filter fun p =>
        match p.2.st with
        | .running => true
        | .waiting _ => true
        | _ => false
      let s := s.modSkein core slot fun k => { k with wdog := none }
      (pcsOf hit).foldl (fun s pc => s.raise core slot pc 0 ((hit.filter fun p => p.2.pc == pc).map fun p =>
        (p.1, { cause := .watchdog, info := some (word us) }))) s

/-- Pipeline i of a core set. -/
def Core.setPipe (c : Core) (i : Nat) (p : Pipe) : Core := { c with pipes := set {} i p c.pipes }

/-- A run of a pipeline ends: its slot goes to the end of the rotation (02 R39, R40). -/
def State.endRun (s : State) (core slot : Nat) : State :=
  ((s.modCore core fun c =>
    let p := c.pipe (slot / 8)
    let rot := if p.rot.contains slot then dropFrom slot p.rot ++ [slot] else p.rot
    c.setPipe (slot / 8) { p with rot := rot, run := none }).modSkein core slot fun k => k.stopAll.haltNow.stepOver).wdogPark core slot

/-- Whether a thread waits for room in the tile command queue or in a Spindle queue, or for the end of a tile's landing: its whole
skein waits (10 R263, 14 R358, R366). -/
def Thread.holdsSkein (th : Thread) : Bool :=
  match th.st with
  | .waiting w => w.what == .tileRoom || w.what == .pushRoom || w.what == .alight
  | _ => false

/-- The threads that may run: the runnable ones; in the run of a step those that it steps, in another run the others
(04 R108); none while the skein waits for the tile command queue (10 R263). -/
def Skein.ready (k : Skein) (step : Bool) : List Nat :=
  (List.range 32).filter fun l => (laneOf k.threads l).runnable && k.step.getLsbD l == step && !k.threads.any Thread.holdsSkein

/-- The run's count after an instruction, and its end by 02 R39: run-end, the 24th instruction, no runnable thread, or
1,792 cycles; a step has a run of its own (04 R108). A block header that faults is no instruction and counts for none
(03 R59). -/
def State.endInstr (s : State) (core slot occ stall : Nat) (runEnd : Bool) (counts : Nat := 1) : State :=
  let s := { (s.modSkein core slot fun k => { k with readyAt := s.cycle + occ + stall, blocked := none }) with issue := none }
  let s := s.modCore core fun c => c.setPipe (slot / 8) { c.pipe (slot / 8) with busy := s.cycle + occ }
  match ((s.core core).pipe (slot / 8)).run with
  | none => s
  | some r =>
    let alive := match s.skein core slot with
      | none => false
      | some k => k.ready r.step ≠ []
    if runEnd || r.step || decide (24 ≤ r.count + counts) || !alive || decide (1792 ≤ s.cycle + occ + stall - r.start) then
      s.endRun core slot
    else s.modCore core fun c =>
      c.setPipe (slot / 8) { c.pipe (slot / 8) with run := some { r with count := r.count + counts } }

/-- What the scoreboard's hold on a skein's next word depends on: the results its threads are owed, and which may run. -/
def Skein.holds (k : Skein) : Nat × List Nat :=
  ((k.threads.map fun th => th.held.length).foldl (· + ·) 0, (List.range 32).filter fun l => (laneOf k.threads l).runnable)

/-- Other threads take back the block that a step interrupted (04 R108). -/
def Skein.unstep (k : Skein) : Skein := { k with joined := k.kept, blkEnd := k.keptEnd, kept := 0 }

/-- The scoreboard holds an operand of the word that a skein is to issue (02 R40, 03 R66). The skein was not ready: a run that
has not issued yet is taken back, and the slot keeps its place in the rotation; one that has waits, until it has occupied
the pipeline for 1,792 cycles (02 R39). -/
def State.holdBack (s : State) (core slot : Nat) : State :=
  let s := { (s.modSkein core slot fun k => { k with blocked := some k.holds }) with issue := none }
  match ((s.core core).pipe (slot / 8)).run with
  | none => s
  | some r =>
    if r.count = 0 then
      (s.modCore core fun c => c.setPipe (slot / 8) { c.pipe (slot / 8) with run := none }).modSkein core slot fun k =>
        if r.step then k.unstep else k
    else if 1792 ≤ s.cycle - r.start then s.endRun core slot
    else s

end Sys2Proof.Machine
end

