-- ==== Sys2Proof/Machine/Drive.lean ====
section
/-! DEFINITION. How an instruction runs over the threads of its skein: guards, the uniform bit, rows 5 to 8 of 03 R79,
results in flight, and what becomes of each thread (02 R37 to R43, 03 R65 to R80, 04 R95, R96). -/

namespace Sys2Proof.Machine

/-- What an instruction names before it acts: source operands, operands that it names and reads only by what the sources hold
(09 R244), destination operands with width and number, whether a
thread may not execute it at its privilege (03 R79 row 5), what it reads of P and LINK, whether every thread reads the
leader's operands, the issue cycles of a thread (02 R37), the views under which it is ILLEGAL_FIELD for a thread (row
8), and whether its operands raise neither STALL_SHORT nor ECC_POISON (09 R238). -/
structure Op where
  reads : Views → List Rd := fun _ => []
  names : Views → List (RegOp × Nat × Nat) := fun _ => []
  more : List Nat → List Rd := fun _ => []
  dsts : Views → List (RegOp × Nat × Nat) := fun _ => []
  denied : Thread → Bool := fun _ => false
  readsPred : Bool := false
  readsLink : Bool := false
  lead : Bool := false
  cost : Nat := 1
  illegal : Views → Bool := fun _ => false
  quiet : Bool := false

/-- One thread that executes the instruction: its lane, its place among the active threads, its issue cycle and the
values of its sources. -/
structure LaneIn where
  lane : Nat
  cyc : Nat
  vals : List Nat
  pred : BitVec 8
  link : Word
  deriving DecidableEq, Repr

/-- Source i of a thread. -/
def LaneIn.val (x : LaneIn) (i : Nat) : Nat := x.vals.getD i 0

/-- What the checks of rows 5 to 8 (register parity) leave: the threads present, those active, those that go on, the
faults, and parity errors found now. -/
structure Gathered where
  present : List Nat
  active : List Nat
  go : List LaneIn
  faults : List (Nat × Trap)
  parity : List (Nat × Nat)
  deriving DecidableEq, Repr

/-- The first operand of a list that breaks 03 R70, as its byte address: the choice among several is the model's (log
entry 9). -/
def firstBad (vs : Views) (alloc : Nat) (ops : List (RegOp × Nat × Nat)) : Option Nat :=
  (ops.find? fun o => !regOk vs alloc o.1 o.2.1 o.2.2).map fun o => regAddr vs o.1

/-- Whether a thread reads a result still in flight at its issue cycle (03 R66): pieces of register space, predicates,
the link register. -/
def shortRead (ts : Lanes) (pieces : List (Nat × Nat × Nat)) (t : Nat) (p l : Bool) : Bool :=
  (pieces.any fun q => (laneOf ts q.1).st != .exited && (laneOf ts q.1).pend.any fun d => d.touches q.2.1 q.2.2) ||
  (p && (laneOf ts t).pend.any Pend.onPred) || (l && (laneOf ts t).pend.any Pend.onLink)

/-- The issue cycles of the active threads: each takes `cost` cycles after the one before it; one issue under the
uniform bit (02 R37, R38). Guards are read at a thread's own cycle. -/
def activeLanes (c : Ctl) (cost : Nat) (ts : Lanes) : List Nat → Nat → List (Nat × Nat)
  | [], _ => []
  | t :: r, cyc =>
    if guardHolds c ((laneOf ts t).at cyc).pred then
      (t, cyc) :: activeLanes c cost ts r (if c.uni then cyc else cyc + cost)
    else activeLanes c cost ts r cyc

/-- The checks of one active thread: rows 6 and 7 of 03 R79, then register parity (log entry 10). `own` is the thread
whose sources are read. Of several operands out of range the destination counts first, then the sources (log entry 9). -/
def checkLane (op : Op) (c : Ctl) (alloc : Nat) (sb : Bool) (slot : Nat) (threads : Lanes) (t own cyc : Nat) :
    Except Trap LaneIn × List (Nat × Nat) :=
  let ts := threads.map fun th => th.at cyc
  let vs := (laneOf ts own).views
  let base := op.reads vs
  let rds := base ++ op.more (base.map fun r => r.value ts own)
  let pieces := rds.flatMap fun r => r.pieces ts own
  match firstBad (laneOf ts t).views alloc (op.dsts (laneOf ts t).views), firstBad vs alloc (base.flatMap Rd.ops ++ op.names vs) with
  | some a, _ => (.error { cause := .regRange, addr := word a }, [])
  | none, some a => (.error { cause := .regRange, addr := word a }, [])
  | none, none =>
    let me := if c.uni then own else t
    if !op.quiet && sb && (shortRead ts pieces me op.readsPred op.readsLink ||
        (c.guarded && (laneOf ts t).pend.any Pend.onPred)) then
      (.error { cause := .stallShort }, [])
    else
      let found := (pieces.flatMap fun p => badWords ts p)
      let fresh := found.filter fun q => (laneOf ts q.1).perr.contains q.2
      match if op.quiet then [] else found with
      | q :: _ => (.error { cause := .eccPoison, addr := regWindow slot q.1 (4 * q.2) }, fresh)
      | [] =>
        if op.illegal (laneOf ts t).views then (.error { cause := .illegalField }, fresh)
        else (.ok { lane := t, cyc := cyc, vals := rds.map fun r => r.value ts own,
                     pred := (laneOf ts me).pred, link := (laneOf ts me).link }, fresh)

/-- The threads of a skein at the fetched word, checked (03 R79 rows 5 to 8). -/
def gather (op : Op) (c : Ctl) (k : Skein) (slot cycle : Nat) (present : List Nat) : Gathered :=
  let denied := present.filter fun t => op.denied (laneOf k.threads t)
  let here := dropAll denied present
  let act := activeLanes c op.cost k.threads here cycle
  let leader := (act.map (·.1)).headD 0
  let res := act.map fun p =>
    (p.1, checkLane op c k.alloc (k.dbgctl.getLsbD 0) slot k.threads p.1 (if c.uni || op.lead then leader else p.1) p.2)
  { present := present
    active := act.map (·.1)
    go := res.filterMap fun r => match r.2.1 with
      | .ok x => some x
      | .error _ => none
    faults := (denied.map fun t => (t, { cause := .priv })) ++ res.filterMap fun r => match r.2.1 with
      | .ok _ => none
      | .error e => some (r.1, e)
    parity := (res.flatMap fun r => r.2.2).dedup }

/-- Whether the scoreboard holds an operand of the instruction for a thread present, in its own registers or in those
of the thread that the source modifier reads (02 R40, 03 R66, R73). -/
def heldBack (op : Op) (k : Skein) (present : List Nat) : Bool :=
  present.any fun t =>
    let th := laneOf k.threads t
    ((((op.reads th.views).flatMap Rd.ops) ++ op.names th.views ++ op.dsts th.views).any fun o =>
      th.owes (regAddr th.views o.1) (o.2.1 * o.2.2)) ||
    ((op.reads th.views).flatMap fun r => r.pieces k.threads t).any fun p =>
      (laneOf k.threads p.1).owes p.2.1 p.2.2

/-- Parity errors found now: the words are marked bad and counted once each (07 R204, R205). -/
def State.markParity (s : State) (core slot ctx : Nat) (found : List (Nat × Nat)) : State :=
  found.foldl (fun s q => (s.modThread core slot q.1 fun th =>
    { th with bad := addTo q.2 th.bad, perr := dropFrom q.2 th.perr }).count ctx 0 1) s

/-- A result of a thread: a destination register with its width, or a change of P. -/
inductive Wr where
  | reg (r : RegOp) (w v : Nat)
  | push (b : Bool)
  | pop (n : Nat)
  | setPred (p : BitVec 8)
  deriving DecidableEq, Repr

/-- A fixed-latency result put in flight: it lands L cycles after the thread's issue cycle (03 R66). -/
def Thread.pendWr (th : Thread) (due : Nat) : Wr → Thread
  | .reg r w v => th.pendReg due (regAddr th.views r) (toBytes w v)
  | .push b => th.pendPred due (.push b)
  | .pop n => th.pendPred due (.pop n)
  | .setPred p => th.pendPred due (.setPred p)

/-- A result written now. -/
def Thread.putWr (th : Thread) : Wr → Thread
  | .reg r w v => th.putReg (regAddr th.views r) (toBytes w v)
  | .push b => th.pushNow b
  | .pop n => { th.pushNow false with pred := (th.pushNow false).pred >>> (n + 1) }
  | .setPred p => th.putPred p

-- THE ORDER OF A SKEIN'S ACCESSES

/-- Instructions that stand in their skein's store queue while they wait: the entries after them wait (08 R209). -/
def inQueue : Instr → Bool
  | .st _ _ => true
  | .atom _ _ _ => true
  | .red _ _ _ => true
  | .ctadd _ => true
  | .bara _ => true
  | .put _ => true
  | .putm _ => true
  | .spz _ => true
  | .spabs _ => true
  | .imst _ => true
  | _ => false

/-- Atomics: later loads of the skein wait for them (08 R209). -/
def isAtomic : Instr → Bool
  | .atom _ _ _ => true
  | .red _ _ _ => true
  | .ctadd _ => true
  | .bara _ => true
  | _ => false

/-- Instructions that place an engine command after the skein's earlier stores (08 R211). -/
def placesCommand : Instr → Bool
  | .cpy _ => true
  | .cpyq _ => true
  | .stamp _ => true
  | .board _ => true
  | .tload _ => true
  | .tloadr _ => true
  | .tstore _ => true
  | .tstorer _ => true
  | _ => false

/-- Puts. -/
def isPut : Instr → Bool
  | .put _ => true
  | .putm _ => true
  | _ => false

/-- Instructions that wait for room in the Shuttle queue, which takes a skein's commands in order (09 R244, 18 R443). -/
def waitsRoom : Instr → Bool
  | .cpy _ => true
  | .stamp _ => true
  | _ => false

/-- Signatures of a matrix command: a skein's are given in order (10 R282). -/
def signs : Instr → Bool
  | .tmma _ => true
  | .tmmasp _ => true
  | _ => false

/-- Loads, and what reads as they do. -/
def isLoad : Instr → Bool
  | .ld _ _ => true
  | .ldg _ _ => true
  | .wait _ => true
  | .barw _ => true
  | .ddupqFp _ => true
  | .ddupqSt _ => true
  | _ => false

/-- Instructions that are a release when they issue (05 R137, R140, 08 R214, R218, 11 R298, 14 R351 to R358, 15
R382, 17 R435, R436). -/
def isRelease : Instr → Bool
  | .fence x => !x.ctl.flag
  | .atom _ _ x => x.ctl.flag
  | .bara x => x.ctl.flag
  | .fencei _ => true
  | .bar _ => true
  | .emit _ => true
  | .nclose _ => true
  | .dlaunch _ => true
  | .qpush _ => true
  | .tblw _ => true
  | .tblinv _ => true
  | .swr x => decide (0x200 ≤ x.num.toNat)
  | .carve _ => true
  | _ => false

/-- Waits that hold an instruction's own access back. -/
def WaitFor.blocks : WaitFor → Bool
  | .presence => true
  | .link => true
  | .shuttleRoom => true
  | .tileRoom => true
  | _ => false

/-- Whether a thread of the skein waits at such an instruction, earlier in the order of accesses than q. -/
def Skein.waitsBefore (k : Skein) (q : Nat) (f : Instr → Bool) : Bool :=
  k.threads.any fun th => match th.st with
    | .waiting w => w.what.blocks && decide (w.seq < q) && f w.instr
    | _ => false

/-- Whether a queue entry cannot perform yet: an earlier access of the skein waits; for a release, an earlier engine command's
issue too (08 R209, R214). -/
def Skein.stuck (k : Skein) (e : SqEntry) : Bool :=
  k.waitsBefore e.seq fun i => inQueue i || (e.rel && placesCommand i)

/-- Whether an access at place q of the skein's order has to wait for earlier ones that wait: a load for atomics; an atomic
or a put for what stands in the queue; an engine command for stores, and for room after those that wait for it; a release for
all of them (08 R209, R211, R214). -/
def Skein.mustWait (k : Skein) (q : Nat) (i : Instr) : Bool :=
  let queued (f : SqEntry → Bool) : Bool := k.sq.any fun e => decide (e.seq < q) && f e && k.stuck e
  let plain (e : SqEntry) : Bool := match e.act with
    | .store _ _ _ _ => true
    | .fence => true
    | _ => false
  (isRelease i && (k.waitsBefore q (fun j => inQueue j || placesCommand j) || queued fun _ => true)) ||
  (isLoad i && (k.waitsBefore q isAtomic || queued fun e => !plain e)) ||
  ((isAtomic i || isPut i) && (k.waitsBefore q inQueue || queued fun _ => true)) ||
  (placesCommand i && queued fun _ => true) || (waitsRoom i && k.waitsBefore q waitsRoom) || (signs i && k.waitsBefore q signs)

/-- What becomes of a thread that executed the instruction. -/
inductive Fate where
  /-- It goes on at the next word. -/
  | next
  /-- Its PC is set. -/
  | jump (pc : Word)
  /-- Its PC was set by the instruction itself (TRET, ESCL, EXIT). -/
  | moved
  /-- It waits at the instruction. -/
  | wait (w : WaitFor) (vals : List Nat)
  /-- It faults. -/
  | trap (t : Trap)
  deriving DecidableEq, Repr

/-- The place of a skein's next access in its order. -/
def State.ordOf (s : State) (core slot : Nat) : Nat := ((s.skein core slot).map (·.ord)).getD 0

/-- One thread moves on from the instruction. -/
def State.applyFate (s : State) (core slot : Nat) (i : Instr) (w : Word) (pc : Word) (lane : Nat) (group : List Nat) :
    Fate → State
  | .next => s.modThread core slot lane fun th => { th with pc := pc + 8 }
  | .jump p => (s.modThread core slot lane fun th => { th with pc := p }).modSkein core slot fun k => k.leave [lane]
  | .moved => s.modSkein core slot fun k => k.leave [lane]
  | .wait what vals =>
    (s.modSkein core slot fun k => k.leave [lane]).modThread core slot lane fun th =>
      { th with st := .waiting { what := what, instr := i, word := w, lanes := group, vals := vals, seq := s.ordOf core slot } }
  | .trap _ => s

/-- The threads that share a fate move on; a wait takes the next place in the order of the skein's accesses. -/
def State.applyFates (s : State) (i : Instr) (is : Issue) (f : List Nat × Fate) : State :=
  let s := f.1.foldl (fun s l => s.applyFate is.core is.slot i is.word is.pc l f.1 f.2) s
  match f.2 with
  | .wait _ _ => s.modSkein is.core is.slot fun k => { k with ord := k.ord + 1 }
  | _ => s

/-- Whether a fate is a wait that holds the instruction's own access back. -/
def Fate.holds : Fate → Bool
  | .wait what _ => what.blocks
  | _ => false

/-- The threads that an effect stands for: the lane itself, or every thread that goes on under the uniform bit. -/
def fateLanes (c : Ctl) (go : List LaneIn) (lane : Nat) : List Nat := if c.uni then go.map (·.lane) else [lane]

/-- STEP after a stepped instruction (04 R108): raised for a thread that runs on, left to the end of its wait for one
that waits; a fault that was taken (`hit`) is reported instead. The skein's other threads go back to their block. -/
def State.afterStep (s : State) (core slot : Nat) (pc : Word) (present hit : List Nat) : State :=
  match s.skein core slot with
  | none => s
  | some k =>
    if k.step &&& maskOf present = 0 then s
    else
      let s := s.modSkein core slot fun k => { k.unstep with step := k.step &&& ~~~ maskOf present }
      let on := (dropAll hit present).map fun l => (l, laneOf k.threads l)
      let s := on.foldl (fun s p => match p.2.st with
        | .waiting _ => s.modThread core slot p.1 fun th => { th with stepNext := some pc }
        | _ => s) s
      let go := on.filter fun p => p.2.runnable
      (pcsOf go).foldl (fun s q => s.raise core slot q 0
        ((go.filter fun p => p.2.pc == q).map fun p => (p.1, { cause := .step, info := some pc }))) s

/-- The fate of each thread, and the threads that share it. -/
abbrev Fates := List (List Nat × Fate)

/-- The end of an instruction: fates of the threads that executed it, guard-false threads fall through (02 R43), faults
are taken, and the run goes on or ends (02 R37, R39). -/
def State.retire (s : State) (i : Instr) (is : Issue) (c : Ctl) (cost stall : Nat) (ends : Bool) (g : Gathered)
    (fates : Fates) : State :=
  let hit := g.faults ++ fates.flatMap fun f => match f.2 with
    | .trap t => f.1.map fun l => (l, t)
    | _ => []
  let idle := dropAll (g.faults.map (·.1)) (dropAll g.active g.present)
  let s := idle.foldl (fun s l => s.applyFate is.core is.slot i is.word is.pc l [l] .next) s
  let s := fates.foldl (fun s f => s.applyFates i is f) s
  let s := s.raise is.core is.slot is.pc is.word hit
  let n := g.active.length
  let occ := if n = 0 then 1 else if c.uni then cost else cost * n
  (s.afterStep is.core is.slot is.pc g.present (hit.map (·.1))).endInstr is.core is.slot occ stall (c.runEnd || (ends && decide (0 < n)))

/-- The skein and issue that an instruction acts for. -/
def State.issued (s : State) : Option (Issue × Skein) :=
  s.issue.bind fun is => (s.skein is.core is.slot).map fun k => (is, k)

/-- A fixed- or variable-latency instruction whose results each thread computes from its own sources and, for the
skein-wide ones, from those of the threads that go on with it. -/
structure LaneOp extends Op where
  lat : Option Nat := none
  eval : LaneIn → List LaneIn → Except Trap (List Wr)

/-- The results of the threads that go on: under the uniform bit the leader's, for each of them (02 R38). A thread that faults
at the word is no participant for the others (05 R125, log entry 29). -/
def laneResults (op : LaneOp) (c : Ctl) (go : List LaneIn) : List (LaneIn × Except Trap (List Wr)) :=
  if c.uni then
    match go with
    | [] => []
    | x :: _ => let r := op.eval x go; go.map fun y => (y, r)
  else go.map fun x => (x, op.eval x go)

/-- The results of one thread written or put in flight. -/
def State.applyResults (s : State) (core slot : Nat) (lat : Option Nat) (x : LaneIn) (ws : List Wr) : State :=
  s.modThread core slot x.lane fun th =>
    ws.foldl (fun th w => match lat with
      | some l => th.pendWr (x.cyc + l) w
      | none => th.putWr w) th

/-- An instruction that acts on registers and predicates alone. -/
def State.runLanes (s : State) (i : Instr) (c : Ctl) (op : LaneOp) : State :=
  match s.issued with
  | none => s
  | some (is, k) =>
    let present := lanesOf is.present
    if heldBack op.toOp k present then s.holdBack is.core is.slot
    else
      let g := gather op.toOp c k is.slot s.cycle present
      let res := laneResults op c g.go
      let s1 := s.markParity is.core is.slot k.ctx g.parity
      let s2 := res.foldl (fun s r => match r.2 with
        | .ok ws => s.applyResults is.core is.slot op.lat r.1 ws
        | .error _ => s) s1
      let fates := res.map fun r => ([r.1.lane], match r.2 with
        | .ok _ => Fate.next
        | .error t => Fate.trap t)
      s2.retire i is c op.cost c.stall false g fates

/-- Where a thread's effect takes place: its skein, its lane, the threads it stands for under the uniform bit, its
issue cycle, and its place in the order of the skein's accesses. -/
structure Site where
  core : Nat
  slot : Nat
  lane : Nat
  lanes : List Nat
  cyc : Nat
  pc : Word
  word : Word
  ord : Nat := 0
  deriving DecidableEq, Repr

/-- Whether the access of an instruction at a site has to wait for earlier ones of its skein. -/
def State.mustWait (s : State) (x : Site) (i : Instr) : Bool :=
  ((s.skein x.core x.slot).map fun k => k.mustWait x.ord i).getD false

/-- A result register of every thread that an effect stands for. -/
def State.putRegs (s : State) (x : Site) (ws : List Wr) : State :=
  x.lanes.foldl (fun s l => s.modThread x.core x.slot l fun th => ws.foldl Thread.putWr th) s

/-- An instruction whose threads act one after another on the machine. -/
structure SeqOp extends Op where
  run : Site → LaneIn → State → State × Fate

/-- The effects of the threads that go on, in ascending position (08 R207); under the uniform bit the leader's once. An access
waits for earlier ones of its skein; where the skein's queue or an engine's takes the threads' accesses in order, those after a
waiting one wait (09 R232, R244, 10 R282). -/
def runSeq (op : SeqOp) (i : Instr) (is : Issue) (c : Ctl) (go : List LaneIn) (s : State) : State × Fates :=
  let todo := if c.uni then go.take 1 else go
  todo.foldl (fun (acc : State × Fates) x =>
    let site : Site := { core := is.core, slot := is.slot, lane := x.lane, lanes := fateLanes c go x.lane,
                         cyc := x.cyc, pc := is.pc, word := is.word, ord := acc.1.ordOf is.core is.slot }
    let late := (inQueue i || placesCommand i || signs i) && acc.2.any fun f => f.2.holds
    let r := if late || acc.1.mustWait site i then (acc.1, .wait (if signs i then .tileRoom else .presence) x.vals)
      else op.run site x acc.1
    (r.1, acc.2 ++ [(site.lanes, r.2)])) (s, [])

/-- An instruction that acts on the machine thread by thread. -/
def State.runEach (s : State) (i : Instr) (c : Ctl) (stall : Nat) (ends : Bool) (op : SeqOp) : State :=
  match s.issued with
  | none => s
  | some (is, k) =>
    let present := lanesOf is.present
    if heldBack op.toOp k present then s.holdBack is.core is.slot
    else
      let g := gather op.toOp c k is.slot s.cycle present
      let s1 := s.markParity is.core is.slot k.ctx g.parity
      let r := runSeq op i is c g.go s1
      r.1.retire i is c op.cost stall ends g r.2

/-- An instruction that acts once for the skein, with the operands of every thread that goes on (14 R351); one that waits for
earlier accesses keeps a word of each thread. -/
def State.runOnce (s : State) (i : Instr) (c : Ctl) (op : Op) (act : Site → List LaneIn → State → State × Fate) : State :=
  match s.issued with
  | none => s
  | some (is, k) =>
    let present := lanesOf is.present
    if heldBack op k present then s.holdBack is.core is.slot
    else
      let g := gather op c k is.slot s.cycle present
      let s1 := s.markParity is.core is.slot k.ctx g.parity
      match g.go with
      | [] => s1.retire i is c op.cost 0 false g []
      | x :: _ =>
        let site : Site := { core := is.core, slot := is.slot, lane := x.lane, lanes := g.go.map (·.lane),
                             cyc := x.cyc, pc := is.pc, word := is.word, ord := k.ord }
        let own := (List.range 32).map fun t => ((g.go.find? fun y => y.lane = t).map (·.val 0)).getD 0
        let r := if k.mustWait k.ord i then (s1, .wait .presence own) else act site g.go s1
        r.1.retire i is c op.cost 0 false g [(site.lanes, r.2)]

/-- A waiting thread takes up its instruction again with the operands it issued with (04 R94): it goes on, waits on, or
faults. -/
def State.retake (s : State) (core slot lane : Nat) (wt : Wait) (act : Site → LaneIn → State → State × Fate) : State :=
  match s.thread core slot lane with
  | none => s
  | some th =>
    let x : Site := { core := core, slot := slot, lane := lane, lanes := wt.lanes, cyc := s.cycle, pc := th.pc,
                      word := wt.word, ord := wt.seq }
    let r := if wt.what.blocks && s.mustWait x wt.instr then (s, .wait wt.what wt.vals)
      else act x { lane := lane, cyc := s.cycle, vals := wt.vals, pred := th.pred, link := th.link } s
    match r.2 with
    | .next => r.1.wakeLanes core slot wt.lanes (th.pc + 8)
    | .jump p => r.1.wakeLanes core slot wt.lanes p
    | .moved => r.1
    | .wait what vals => wt.lanes.foldl (fun s l => s.modThread core slot l fun t =>
        { t with st := .waiting { wt with what := what, vals := vals } }) r.1
    | .trap t =>
      let s1 := wt.lanes.foldl (fun s l => s.modThread core slot l fun th => { th.wake with stepNext := none }) r.1
      s1.raise core slot th.pc wt.word (wt.lanes.map fun l => (l, t))

end Sys2Proof.Machine
end

