-- ==== Sys2Proof/Machine/Num.lean ====
section
/-! DEFINITION. Number formats, rounding, and arithmetic on exact values (00 R7, R8, 06 R144 to R160, R169).

A finite value is a sign, a natural and a power of two, so sums and products are exact; a quotient or a root carries
one sticky bit below more bits than any format keeps. -/

namespace Sys2Proof.Machine

/-- mix32 (00 R8). -/
def mix32 (x : Nat) : Nat :=
  let x := Nat.xor x (x / 2 ^ 16)
  let x := x * 0x7FEB352D % 2 ^ 32
  let x := Nat.xor x (x / 2 ^ 15)
  let x := x * 0x846CA68B % 2 ^ 32
  Nat.xor x (x / 2 ^ 16)

/-- A plain float format (06 R144): exponent and mantissa bits, bias, whether it has infinities, and its NaNs: all of
the top exponent's nonzero mantissas, the two of e4m3, or none. -/
structure Fmt where
  e : Nat
  m : Nat
  bias : Int
  inf : Bool := true
  nan : Nat := 2
  deriving DecidableEq, Repr

/-- The formats by code (06 R144, R166); any other code is not asked for. -/
def fmtOf (code : Nat) : Fmt :=
  match code with
  | 0 => { e := 8, m := 23, bias := 127 }
  | 1 => { e := 8, m := 10, bias := 127 }
  | 2 => { e := 8, m := 7, bias := 127 }
  | 3 => { e := 5, m := 10, bias := 15 }
  | 4 => { e := 5, m := 2, bias := 15 }
  | 5 => { e := 4, m := 3, bias := 7, inf := false, nan := 1 }
  | 6 => { e := 3, m := 2, bias := 3, inf := false, nan := 0 }
  | 7 => { e := 2, m := 3, bias := 1, inf := false, nan := 0 }
  | 8 => { e := 2, m := 1, bias := 1, inf := false, nan := 0 }
  | _ => { e := 11, m := 52, bias := 1023 }

/-- f32. -/
def f32 : Fmt := fmtOf 0
/-- f64. -/
def f64 : Fmt := fmtOf 32

/-- Width of a format in bits. -/
def Fmt.width (f : Fmt) : Nat := 1 + f.e + f.m

/-- A value: a NaN with its sign and the w payload bits below its quiet bit, an infinity, or ±num × 2^exp. -/
inductive Val where
  | nan (neg : Bool) (pay w : Nat)
  | inf (neg : Bool)
  | fin (neg : Bool) (num : Nat) (exp : Int)
  deriving DecidableEq, Repr

/-- A NaN that carries nothing. -/
def qnan : Val := .nan false 0 0

/-- Whether the bits are a NaN of the format. -/
def Fmt.isNan (f : Fmt) (x : Nat) : Bool :=
  let e := bits x f.m f.e
  let m := bits x 0 f.m
  match f.nan with
  | 2 => e == 2 ^ f.e - 1 && m != 0
  | 1 => e == 2 ^ f.e - 1 && m == 2 ^ f.m - 1
  | _ => false

/-- The value of an encoding (06 R144). -/
def Fmt.val (f : Fmt) (x : Nat) : Val :=
  let s := x.testBit (f.e + f.m)
  let e := bits x f.m f.e
  let m := bits x 0 f.m
  if f.isNan x then .nan s (m % 2 ^ (f.m - 1)) (f.m - 1)
  else if f.inf && e == 2 ^ f.e - 1 then .inf s
  else if e = 0 then .fin s m (1 - f.bias - f.m)
  else .fin s (2 ^ f.m + m) ((e : Int) - f.bias - f.m)

/-- Sign bit of an encoding. -/
def Fmt.signBit (f : Fmt) (neg : Bool) : Nat := if neg then 2 ^ (f.e + f.m) else 0

/-- The largest finite magnitude's encoding (06 R144). -/
def Fmt.maxBits (f : Fmt) : Nat :=
  if f.inf then (2 ^ f.e - 1) * 2 ^ f.m - 1
  else if f.nan = 1 then 2 ^ (f.e + f.m) - 2
  else 2 ^ (f.e + f.m) - 1

/-- The canonical quiet NaN (06 R151). -/
def Fmt.cnan (f : Fmt) : Nat := (2 ^ f.e - 1) * 2 ^ f.m + 2 ^ (f.m - 1)

/-- Infinity. -/
def Fmt.infBits (f : Fmt) (neg : Bool) : Nat := f.signBit neg + (2 ^ f.e - 1) * 2 ^ f.m

/-- The rounding codes of 06 R149. -/
inductive Rm where
  | rne | rtz | rup | rdn
  deriving DecidableEq, Repr

/-- The mode of a rounding code. -/
def rmOf (code : Nat) : Rm :=
  match code with
  | 0 => .rne
  | 1 => .rtz
  | 2 => .rup
  | _ => .rdn

/-- num / 2^k rounded to an integer, for a number of the given sign. -/
def roundShift (rm : Rm) (neg : Bool) (num k : Nat) : Nat :=
  if k = 0 then num
  else
    let far := decide (Nat.log2 num + 2 < k)
    let q := if far then 0 else num / 2 ^ k
    let exact := if far then num == 0 else num % 2 ^ k == 0
    let half := if far then (0 : Nat) else num / 2 ^ (k - 1) % 2
    let above := if far then true else num % 2 ^ (k - 1) != 0
    match rm with
    | .rne => if half = 1 ∧ (above ∨ q % 2 = 1) then q + 1 else q
    | .rtz => q
    | .rup => if !exact && !neg then q + 1 else q
    | .rdn => if !exact && neg then q + 1 else q

/-- A finite value rounded to a format's precision with the exponent unbounded above (06 R152): mantissa and its
power of two. -/
def Fmt.round (f : Fmt) (rm : Rm) (neg : Bool) (num : Nat) (exp : Int) : Nat × Int :=
  let top := (Nat.log2 num : Int) + exp
  let q := max top (1 - f.bias) - f.m
  if q ≤ exp then (num * 2 ^ (exp - q).toNat, q) else (roundShift rm neg num (q - exp).toNat, q)

/-- The encoding of mant × 2^q, exact in the format but for overflow; none where it exceeds the largest finite value. -/
def Fmt.pack (f : Fmt) (mant : Nat) (q : Int) : Option Nat :=
  let (mant, q) := if 2 ^ (f.m + 1) ≤ mant then (mant / 2, q + 1) else (mant, q)
  if mant < 2 ^ f.m then some mant
  else
    let e := q + f.m + f.bias
    let x := e.toNat * 2 ^ f.m + (mant - 2 ^ f.m)
    if f.maxBits < x then none else some x

/-- Overflow to an infinity rather than to the largest finite value (06 R152). -/
def overflowsToInf (rm : Rm) (neg : Bool) : Bool :=
  match rm with
  | .rne => true
  | .rtz => false
  | .rup => !neg
  | .rdn => neg

/-- ovf of 06 R152. -/
def Fmt.ovf (f : Fmt) (neg toInf sat : Bool) : Nat :=
  if !toInf || sat then f.signBit neg + f.maxBits
  else if f.inf then f.infBits neg
  else if f.nan = 1 then f.signBit neg + 2 ^ (f.e + f.m) - 1
  else f.signBit neg + f.maxBits

/-- keepnan of 06 R151: the sign, the quiet bit and the top payload bits. -/
def Fmt.keepNan (f : Fmt) (neg : Bool) (pay w : Nat) : Nat :=
  match f.nan with
  | 2 => f.signBit neg + f.cnan + (if w ≤ f.m - 1 then pay * 2 ^ (f.m - 1 - w) else pay / 2 ^ (w - (f.m - 1)))
  | 1 => f.signBit neg + 2 ^ (f.e + f.m) - 1
  | _ => 0

/-- cvt of 06 R152. -/
def Fmt.cvt (f : Fmt) (rm : Rm) (sat : Bool) (v : Val) : Nat :=
  match v with
  | .nan s p w => f.keepNan s p w
  | .inf s => f.ovf s true sat
  | .fin s num exp =>
    if num = 0 then f.signBit s
    else
      let (mant, q) := f.round rm s num exp
      match f.pack mant q with
      | some x => f.signBit s + x
      | none => f.ovf s (overflowsToInf rm s) sat

/-- The result of an arithmetic instruction: a NaN is the canonical one (06 R151). -/
def Fmt.arith (f : Fmt) (rm : Rm) (v : Val) : Nat :=
  match v with
  | .nan _ _ _ => f.cnan
  | _ => f.cvt rm false v

/-- A value as a signed multiple of 2^e, for e at most its exponent. -/
def scaled (neg : Bool) (num : Nat) (exp e : Int) : Int :=
  let x : Int := num * 2 ^ (exp - e).toNat
  if neg then -x else x

/-- The value of a signed multiple of a power of two. -/
def Val.ofInt (x : Int) (e : Int) : Val := .fin (decide (x < 0)) x.natAbs e

/-- Exact sum; a zero sum of nonzero or unlike zeros is +0, or −0 toward −∞ (06 R150). -/
def Val.add (rm : Rm) (a b : Val) : Val :=
  match a, b with
  | .nan _ _ _, _ => qnan
  | _, .nan _ _ _ => qnan
  | .inf s, .inf t => if s = t then .inf s else qnan
  | .inf s, _ => .inf s
  | _, .inf t => .inf t
  | .fin s n e, .fin t m f =>
    let lo := min e f
    let x := scaled s n e lo + scaled t m f lo
    if x = 0 then .fin (if n = 0 ∧ m = 0 ∧ s = t then s else decide (rm = .rdn)) 0 0
    else Val.ofInt x lo

/-- Negation. -/
def Val.neg : Val → Val
  | .nan s p w => .nan (!s) p w
  | .inf s => .inf (!s)
  | .fin s n e => .fin (!s) n e

/-- Exact product. -/
def Val.mul (a b : Val) : Val :=
  match a, b with
  | .nan _ _ _, _ => qnan
  | _, .nan _ _ _ => qnan
  | .inf s, .inf t => .inf (s != t)
  | .inf s, .fin t n _ => if n = 0 then qnan else .inf (s != t)
  | .fin s n _, .inf t => if n = 0 then qnan else .inf (s != t)
  | .fin s n e, .fin t m f => .fin (s != t) (n * m) (e + f)

/-- Quotient to 160 bits or more, with a sticky bit; x/0 is infinite (06 R154). -/
def Val.div (a b : Val) : Val :=
  match a, b with
  | .nan _ _ _, _ => qnan
  | _, .nan _ _ _ => qnan
  | .inf _, .inf _ => qnan
  | .inf s, .fin t _ _ => .inf (s != t)
  | .fin s _ _, .inf t => .fin (s != t) 0 0
  | .fin s n e, .fin t m f =>
    if m = 0 then (if n = 0 then qnan else .inf (s != t))
    else
      let k := 160 + Nat.log2 m
      let q := n * 2 ^ k / m
      .fin (s != t) (2 * q + (if n * 2 ^ k % m = 0 then 0 else 1)) (e - f - k - 1)

/-- Integer square root of a number below 4^k, bit by bit. -/
def isqrtAux (n : Nat) : Nat → Nat → Nat
  | 0, r => r
  | k + 1, r =>
    let c := r + 2 ^ k
    isqrtAux n k (if c * c ≤ n then c else r)

/-- Integer square root. -/
def isqrt (n : Nat) : Nat := isqrtAux n (Nat.log2 n / 2 + 1) 0

/-- Square root to 60 bits or more, with a sticky bit (06 R154). -/
def Val.sqrt (a : Val) : Val :=
  match a with
  | .nan _ _ _ => qnan
  | .inf s => if s then qnan else .inf false
  | .fin s n e =>
    if n = 0 then .fin s 0 0
    else if s then qnan
    else
      let t : Nat := if e % 2 = 0 then 200 else 201
      let x := n * 2 ^ t
      let r := isqrt x
      .fin false (2 * r + (if r * r = x then 0 else 1)) ((e - (t : Int)) / 2 - 1)

/-- A finite value rounded to an integer (06 R154, R167). -/
def roundInt (rm : Rm) (neg : Bool) (num : Nat) (exp : Int) : Int :=
  let x : Nat := if 0 ≤ exp then num * 2 ^ exp.toNat else roundShift rm neg num (-exp).toNat
  if neg then -(x : Int) else x

/-- A value to an integer clamped to a range; an infinity takes its end, a NaN gives 0 (06 R167). -/
def Val.toIntIn (rm : Rm) (lo hi : Int) (v : Val) : Int :=
  match v with
  | .nan _ _ _ => 0
  | .inf s => if s then lo else hi
  | .fin s n e =>
    if n = 0 then 0
    else if 200 < e then (if s then lo else hi)
    else clampInt lo hi (roundInt rm s n e)

/-- A comparison key of a value that is no NaN, against another: −1, 0 or 1. -/
def Val.cmp (a b : Val) : Int :=
  match a, b with
  | .inf s, .inf t => if s = t then 0 else if s then -1 else 1
  | .inf s, _ => if s then -1 else 1
  | _, .inf t => if t then 1 else -1
  | .fin s n e, .fin t m f =>
    let lo := min e f
    let x := scaled s n e lo - scaled t m f lo
    if x < 0 then -1 else if x = 0 then 0 else 1
  | _, _ => 0

/-- Whether a value is a NaN. -/
def Val.isNan : Val → Bool
  | .nan _ _ _ => true
  | _ => false

/-- The conditions of 06 R156. -/
def condFloat (code : Nat) (a b : Val) : Bool :=
  let un := a.isNan || b.isNan
  match code with
  | 6 => un
  | 7 => !un
  | 1 => un || a.cmp b != 0
  | c => !un && condInt' c (a.cmp b)
where
  /-- EQ, LT, LE, GT, GE against zero. -/
  condInt' (c : Nat) (x : Int) : Bool :=
    match c with
    | 0 => decide (x = 0)
    | 2 => decide (x < 0)
    | 3 => decide (x ≤ 0)
    | 4 => decide (0 < x)
    | _ => decide (0 ≤ x)

/-- The lesser (or the greater) of two encodings, −0 below +0; a lone NaN gives the other operand, two the canonical
one (06 R155). -/
def Fmt.minMax (f : Fmt) (isMax : Bool) (a b : Nat) : Nat :=
  if f.isNan a then (if f.isNan b then f.cnan else b)
  else if f.isNan b then a
  else
    let c := (f.val a).cmp (f.val b)
    let aLess := if c = 0 then a.testBit (f.e + f.m) else decide (c < 0)
    if isMax then (if aLess then b else a) else (if aLess then a else b)

/-- FCLMP of 06 R155. -/
def Fmt.clamp (f : Fmt) (a b c : Nat) : Nat := f.minMax false (f.minMax true a b) c

/-- The class mask of 06 R157. -/
def Fmt.classify (f : Fmt) (x : Nat) : Nat :=
  let s := x.testBit (f.e + f.m)
  let e := bits x f.m f.e
  let m := bits x 0 f.m
  if e = 2 ^ f.e - 1 then
    if m = 0 then (if s then 1 else 128)
    else if m.testBit (f.m - 1) then 512 else 256
  else if e = 0 then
    if m = 0 then (if s then 8 else 16) else (if s then 4 else 32)
  else (if s then 2 else 64)

/-- Stochastic rounding of an f32 value to a format (06 R169). -/
def Fmt.sr (f : Fmt) (x r : Nat) (sat : Bool) : Nat :=
  match f32.val x with
  | .fin s n e =>
    if n = 0 then f.cvt .rne sat (.fin s n e)
    else
      let top := (Nat.log2 n : Int) + e
      let q := max top (1 - f.bias) - f.m
      let q32 := max top (-126) - 23
      let d := (q - q32).toNat
      let k := min d 32
      -- |x| in units of 2^q32 is a whole number
      let u := if q32 ≤ e then n * 2 ^ (e - q32).toNat else n / 2 ^ (q32 - e).toNat
      let lo := u / 2 ^ d
      let rho := u % 2 ^ d / 2 ^ (d - k)
      let y := if 2 ^ k ≤ rho + r % 2 ^ k then lo + 1 else lo
      f.cvt .rne sat (.fin s y q)
  | v => f.cvt .rne sat v

/-- The element value of a lone integer format code (06 R145). -/
def intElem (code x : Nat) : Int :=
  match code with
  | 9 => sgn 16 x
  | 10 => (x % 2 ^ 16 : Nat)
  | 11 => sgn 8 x
  | 12 => (x % 2 ^ 8 : Nat)
  | 13 => sgn 4 x
  | 14 => (x % 2 ^ 4 : Nat)
  | 15 => match x % 4 with
    | 1 => 1
    | 3 => -1
    | _ => 0
  | 16 => if x % 2 = 1 then 1 else -1
  | _ => sgn 32 x

/-- The range of an integer element format (06 R145). -/
def intRange (code : Nat) : Int × Int :=
  match code with
  | 9 => (-32768, 32767)
  | 10 => (0, 65535)
  | 11 => (-128, 127)
  | 12 => (0, 255)
  | 13 => (-8, 7)
  | 14 => (0, 15)
  | 15 => (-1, 1)
  | _ => (-2147483648, 2147483647)

/-- The value of an element of a plain format, codes 0 to 16 and 32 for s32 (06 R144, R145, 10 R269). -/
def elemVal (code x : Nat) : Val :=
  if code ≤ 8 then (fmtOf code).val x else Val.ofInt (intElem code x) 0

/-- The bits of an element of a plain format: floats by cvt, integers rounded and clamped (06 R152, R171). -/
def elemBits (code : Nat) (rm : Rm) (sat : Bool) (v : Val) : Nat :=
  if code ≤ 8 then (fmtOf code).cvt rm sat v
  else if code = 16 then
    match v with
    | .fin true n _ => if n = 0 then 1 else 0
    | .inf true => 0
    | _ => 1
  else
    let (lo, hi) := intRange code
    wrapInt (match code with
      | 9 => 16
      | 10 => 16
      | 11 => 8
      | 12 => 8
      | 13 => 4
      | 14 => 4
      | 15 => 2
      | _ => 32) (v.toIntIn rm lo hi)

/-- A block format: its element's code, the elements of a block, the bytes of its scale (4 with a minimum), and the
format of the scale (33 for E8M0); 06 R146. -/
structure BlockFmt where
  elem : Nat
  size : Nat
  scale : Nat
  sfmt : Nat
  deriving DecidableEq, Repr

/-- The block formats by code (06 R146). -/
def blockOf (code : Nat) : BlockFmt :=
  match code with
  | 17 => ⟨4, 32, 1, 33⟩
  | 18 => ⟨5, 32, 1, 33⟩
  | 19 => ⟨6, 32, 1, 33⟩
  | 20 => ⟨7, 32, 1, 33⟩
  | 21 => ⟨8, 32, 1, 33⟩
  | 22 => ⟨11, 32, 1, 33⟩
  | 23 => ⟨8, 16, 1, 5⟩
  | 24 => ⟨6, 16, 1, 5⟩
  | 25 => ⟨13, 32, 2, 3⟩
  | 26 => ⟨14, 32, 4, 3⟩
  | 27 => ⟨11, 32, 2, 3⟩
  | 28 => ⟨12, 32, 4, 3⟩
  | 29 => ⟨15, 64, 2, 3⟩
  | 30 => ⟨16, 64, 2, 3⟩
  | _ => ⟨5, 32, 2, 2⟩

/-- The value of an E8M0 scale byte (06 R146). -/
def e8m0 (s : Nat) : Val := if s = 255 then qnan else .fin false 1 ((s : Int) - 127)

/-- Scale and minimum of a block from its scale bytes (06 R146). -/
def blockScale (code sc : Nat) : Val × Val :=
  let b := blockOf code
  let s := if b.sfmt = 33 then e8m0 (sc % 256) else (fmtOf b.sfmt).val (if b.scale = 1 then sc % 256 else sc % 2 ^ 16)
  (s, if b.scale = 4 then (fmtOf 3).val (sc / 2 ^ 16 % 2 ^ 16) else .fin false 0 0)

/-- scale × x + minimum, with MXINT8's factor (06 R146); the minimum is 0 but for qn4 and qn8 (06 R172). -/
def blockVal (code sc x : Nat) : Val :=
  let b := blockOf code
  let (s, m) := blockScale code sc
  let v := s.mul (elemVal b.elem x)
  let v := if code = 22 then v.mul (.fin false 1 (-6)) else v
  v.add .rne m

/-- Width in bits of an element of a plain format (06 R144, R145, 10 R260). -/
def elemWidth (code : Nat) : Nat :=
  match code with
  | 0 => 32
  | 1 => 19
  | 2 => 16
  | 3 => 16
  | 4 => 8
  | 5 => 8
  | 6 => 6
  | 7 => 6
  | 8 => 4
  | 9 => 16
  | 10 => 16
  | 11 => 8
  | 12 => 8
  | 13 => 4
  | 14 => 4
  | 15 => 2
  | 16 => 1
  | _ => 32

/-- The container of a lone value in bytes (06 R147). -/
def container (code : Nat) : Nat :=
  match code with
  | 0 => 4
  | 1 => 4
  | 2 => 2
  | 3 => 2
  | 9 => 2
  | 10 => 2
  | 32 => 8
  | _ => 1

/-- The encoding that a container holds, and the container that holds an encoding (06 R147): f19 lies in [31:13]. -/
def fromContainer (code x : Nat) : Nat :=
  if code = 1 then bits x 13 19 else if code = 32 then x % 2 ^ 64 else x % 2 ^ elemWidth code

/-- The container of an encoding. -/
def toContainer (code x : Nat) : Nat := if code = 1 then x * 2 ^ 13 else x

-- SPECIAL FUNCTIONS

/-- Nearest integer to a quotient of naturals, ties away from zero (06 R158). -/
def rndaDiv (n d : Nat) : Nat := (2 * n + d) / (2 * d)

/-- Nearest integer to the square root of a quotient. -/
def rndaSqrt (n d : Nat) : Nat := (isqrt (4 * n / d) + 1) / 2

/-- Bits of the fixed point in which the transcendental table entries are formed (log entry 19). -/
def fx : Nat := 192

/-- The sum of the first n terms of an alternating or plain odd power series of arctangents: x^(2k+1)/(2k+1) for
x = 1/d, in units of 2^-p. -/
def atanSum (p d : Nat) (alt : Bool) : Nat → Nat → Nat → Int → Int
  | 0, _, _, acc => acc
  | n + 1, k, pw, acc =>
    let t : Int := pw / (2 * k + 1)
    atanSum p d alt n (k + 1) (pw / (d * d)) (if alt && k % 2 == 1 then acc - t else acc + t)

/-- π in units of 2^-p, by Machin's formula. -/
def piFx (p : Nat) : Nat :=
  (16 * atanSum p 5 true (p / 4 + 4) 0 (2 ^ p / 5) 0 - 4 * atanSum p 239 true (p / 14 + 4) 0 (2 ^ p / 239) 0).toNat

/-- ln 2 in units of 2^-p: twice the area tangent of 1/3. -/
def ln2Fx (p : Nat) : Nat := (2 * atanSum p 3 false (p / 3 + 4) 0 (2 ^ p / 3) 0).toNat

/-- The sum of x^k/k! from term k on, signs alternating in pairs on request: terms of units 2^-p; `step` is 1 for exp
and 2 for sine and cosine. -/
def taylor (p x step : Nat) (alt : Bool) : Nat → Nat → Nat → Bool → Int → Int
  | 0, _, _, _, acc => acc
  | n + 1, k, t, neg, acc =>
    let t' := if step = 1 then t * x / 2 ^ p / (k + 1) else t * x / 2 ^ p / (k + 1) * x / 2 ^ p / (k + 2)
    taylor p x step alt n (k + step) t' (if alt then !neg else neg) (if neg then acc - t else acc + t)

/-- 2^(j/256) in units of 2^-fx. -/
def exp2Fx (j : Nat) : Nat := (taylor fx (ln2Fx fx * j / 256) 1 false 60 0 (2 ^ fx) false 0).toNat

/-- sin and cos of (π/2)(j/256), in units of 2^-fx. -/
def sinFx (j : Nat) : Nat :=
  let x := piFx fx * j / 512
  (taylor fx x 2 true 40 1 x false 0).toNat

/-- The cosine. -/
def cosFx (j : Nat) : Nat := (taylor fx (piFx fx * j / 512) 2 true 40 0 (2 ^ fx) false 0).toNat

/-- ln(1 + j/256) in units of 2^-fx: twice the area tangent of j/(512 + j). -/
def ln1pFx (j : Nat) : Nat :=
  let x := 2 ^ fx * j / (512 + j)
  (List.range 70).foldl (fun (acc : Nat × Nat) k =>
    (acc.1 + acc.2 / (2 * k + 1), acc.2 * x / 2 ^ fx * x / 2 ^ fx)) (0, x) |>.1 * 2

/-- Nearest integer to a fixed-point number times 2^30. -/
def rnda30 (x : Nat) : Nat := rndaDiv (x * 2 ^ 30) (2 ^ fx)

/-- The kernels g of 06 R159. -/
inductive Kern where
  | rcp | rsqEven | rsqOdd | ex2 | lg2 | sin | cos
  deriving DecidableEq, Repr

/-- C0, C1 and C2 of segment j (06 R158). -/
def coefs (g : Kern) (j : Nat) : Int × Int × Int :=
  let d := 256 + j
  let neg (x : Nat) : Int := -(x : Int)
  let mulFx (a b : Nat) : Nat := a * b / 2 ^ fx
  match g with
  | .rcp => (rndaDiv (2 ^ 30 * 256) d, neg (rndaDiv (2 ^ 30 * 256 ^ 2) (d ^ 2)), rndaDiv (2 ^ 30 * 256 ^ 3) (d ^ 3))
  | .rsqEven => (rndaSqrt (2 ^ 60 * 256) d, neg (rndaSqrt (2 ^ 58 * 256 ^ 3) (d ^ 3)),
      rndaSqrt (9 * 2 ^ 54 * 256 ^ 5) (d ^ 5))
  | .rsqOdd => (rndaSqrt (2 ^ 60 * 256) (2 * d), neg (rndaSqrt (2 ^ 58 * 256 ^ 3) (2 * d ^ 3)),
      rndaSqrt (9 * 2 ^ 54 * 256 ^ 5) (2 * d ^ 5))
  | .ex2 =>
    let e := exp2Fx j
    let l := ln2Fx fx
    (rnda30 e, rnda30 (mulFx e l), rnda30 (mulFx (mulFx e l) l / 2))
  | .lg2 =>
    let l := ln2Fx fx
    let inv (x : Nat) : Nat := 2 ^ (2 * fx) / x
    (rnda30 (ln1pFx j * 2 ^ fx / l), rnda30 (inv (l * d / 256)), neg (rnda30 (inv (2 * l * d * d / 65536))))
  | .sin =>
    let h := piFx fx / 2
    (rnda30 (sinFx j), rnda30 (mulFx h (cosFx j)), neg (rnda30 (mulFx (mulFx h h) (sinFx j) / 2)))
  | .cos =>
    let h := piFx fx / 2
    (rnda30 (cosFx j), neg (rnda30 (mulFx h (sinFx j))), neg (rnda30 (mulFx (mulFx h h) (cosFx j) / 2)))

/-- kern of 06 R158. -/
def kern (g : Kern) (u : Nat) : Int :=
  let dl := u % 2 ^ 24
  let (c0, c1, c2) := coefs g (u / 2 ^ 24)
  c0 + c1 * dl / 2 ^ 32 + c2 * ((dl * dl / 2 ^ 32 : Nat) : Int) / 2 ^ 32

/-- e and U of a finite nonzero f32 value num × 2^exp (06 R159). -/
def splitFrac (num : Nat) (exp : Int) : Int × Nat :=
  let k := Nat.log2 num
  ((k : Int) + exp, (num - 2 ^ k) * 2 ^ 32 / 2 ^ k)

/-- rne of a kernel value times a power of two, with a sign. -/
def kernOut (neg : Bool) (y : Int) (e : Int) : Nat :=
  f32.cvt .rne false (.fin (neg != decide (y < 0)) y.natAbs (e - 30))

/-- FRCP (06 R159). -/
def fRcp (x : Nat) : Nat :=
  match f32.val x with
  | .nan _ _ _ => f32.cnan
  | .inf s => f32.signBit s
  | .fin s n ex =>
    if n = 0 then f32.infBits s
    else
      let (e, u) := splitFrac n ex
      kernOut s (kern .rcp u) (-e)

/-- FRSQ (06 R159). -/
def fRsq (x : Nat) : Nat :=
  match f32.val x with
  | .nan _ _ _ => f32.cnan
  | .inf s => if s then f32.cnan else 0
  | .fin s n ex =>
    if n = 0 then f32.infBits s
    else if s then f32.cnan
    else
      let (e, u) := splitFrac n ex
      kernOut false (kern (if e % 2 = 0 then .rsqEven else .rsqOdd) u) (-(e / 2))

/-- FEX2 (06 R159). -/
def fEx2 (x : Nat) : Nat :=
  match f32.val x with
  | .nan _ _ _ => f32.cnan
  | .inf s => if s then 0 else f32.infBits false
  | .fin s n ex =>
    let v : Val := .fin s n ex
    if 0 ≤ v.cmp (.fin false 128 0) then f32.infBits false
    else if v.cmp (.fin true 150 0) < 0 then 0
    else
      let i := roundInt .rdn s n ex
      let lo := min ex 0
      let fr := scaled s n ex lo - i * 2 ^ (-lo).toNat
      kernOut false (kern .ex2 (fr.toNat * 2 ^ 32 / 2 ^ (-lo).toNat)) i

/-- FLG2 (06 R159). -/
def fLg2 (x : Nat) : Nat :=
  match f32.val x with
  | .nan _ _ _ => f32.cnan
  | .inf s => if s then f32.cnan else f32.infBits false
  | .fin s n ex =>
    if n = 0 then f32.infBits true
    else if s then f32.cnan
    else
      let (e, u) := splitFrac n ex
      f32.cvt .rne false (Val.ofInt (e * 2 ^ 30 + kern .lg2 u) (-30))

/-- floor(frac(x / 2π) × 2^32) of a finite f32 value (06 R159), with π to 400 bits (log entry 19). -/
def turns (neg : Bool) (num : Nat) (exp : Int) : Nat :=
  let p := 400
  let q : Nat := if 0 ≤ exp then num * 2 ^ (exp.toNat + 32 + p) / (2 * piFx p)
    else num * 2 ^ (32 + p) / (2 ^ (-exp).toNat * (2 * piFx p))
  let exact := num == 0
  if neg && !exact then (2 ^ 32 - 1 - q % 2 ^ 32) else q % 2 ^ 32

/-- FSIN and, one quarter turn on, FCOS (06 R159). -/
def fSinCos (quarter : Nat) (x : Nat) : Nat :=
  match f32.val x with
  | .nan _ _ _ => f32.cnan
  | .inf _ => f32.cnan
  | .fin s n ex =>
    if (Val.fin false n ex).cmp (.fin false 1 (-12)) < 0 then (if quarter = 0 then x else 0x3F800000)
    else
      let u := turns s n ex
      let q := (u / 2 ^ 30 + quarter) % 4
      let v := u * 4 % 2 ^ 32
      let y := kern (if q % 2 = 0 then .sin else .cos) v
      if y = 0 then 0 else kernOut (decide (2 ≤ q)) y 0

end Sys2Proof.Machine
end

