-- ==== Sys2Proof/Machine/Float.lean ====
section
/-! DEFINITION. Floating-point, special-function, conversion and random-number instructions (06 R149 to R173). -/

namespace Sys2Proof.Machine

/-- The rounding of sub[1:0] (06 R149, R153). -/
def subRm {n : Nat} (sub : BitVec n) : Rm := rmOf (fld sub 0 2)

/-- Operands a and b of one width, b under the modifier with its kind, to a destination (06 R153). -/
def flt2 (x : FmtR) (w : Nat) (k : ModKind) (lat : Nat) (f : Nat → Nat → Nat) : LaneOp :=
  { reads := fun _ => [.reg x.a w, .mod x.b x.mod w k]
    dsts := fun _ => [(x.dst, w, 1)]
    lat := some lat
    eval := fun t _ => .ok [.reg x.dst w (f (t.val 0) (t.val 1))] }

/-- Operand b alone (06 R153). -/
def flt1 (x : FmtR) (lat : Nat) (f : Nat → Nat) : LaneOp :=
  { reads := fun _ => [.mod x.b x.mod 4 (.float 32 1)]
    dsts := fun _ => [(x.dst, 4, 1)]
    lat := some lat
    eval := fun t _ => .ok [.reg x.dst 4 (f (t.val 0))] }

/-- Operands a, b and c (06 R153). -/
def flt3 (x : FmtF) (w lat : Nat) (f : Nat → Nat → Nat → Nat) : LaneOp :=
  { reads := fun _ => [.reg x.a w, .reg x.b w, .reg x.c w]
    dsts := fun _ => [(x.dst, w, 1)]
    lat := some lat
    eval := fun t _ => .ok [.reg x.dst w (f (t.val 0) (t.val 1) (t.val 2))] }

/-- round(a + b) (06 R154). -/
def Fmt.add (f : Fmt) (rm : Rm) (a b : Nat) : Nat := f.arith rm ((f.val a).add rm (f.val b))

/-- round(a − b) (06 R154). -/
def Fmt.sub (f : Fmt) (rm : Rm) (a b : Nat) : Nat := f.arith rm ((f.val a).add rm (f.val b).neg)

/-- round(a × b) (06 R154). -/
def Fmt.mul (f : Fmt) (rm : Rm) (a b : Nat) : Nat := f.arith rm ((f.val a).mul (f.val b))

/-- round(a × b + c), fused (06 R154). -/
def Fmt.fma (f : Fmt) (rm : Rm) (a b c : Nat) : Nat := f.arith rm (((f.val a).mul (f.val b)).add rm (f.val c))

/-- round(b − floor(b)) (06 R154). -/
def fFrc (rm : Rm) (x : Nat) : Nat :=
  match f32.val x with
  | .fin s n e =>
    if 0 ≤ e then 0
    else
      let r := Val.add .rne (.fin s n e) (Val.ofInt (-(roundInt .rdn s n e)) 0)
      match r with
      | .fin _ 0 _ => 0
      | r => f32.arith rm r
  | _ => f32.cnan

/-- b rounded to an integral value (06 R154). -/
def fRnd (rm : Rm) (x : Nat) : Nat :=
  match f32.val x with
  | .fin s n e => if 0 ≤ e ∨ n = 0 then x else f32.cvt rm false (.fin s (roundInt rm s n e).natAbs 0)
  | .inf _ => x
  | .nan _ _ _ => f32.cnan

/-- round(a × 2^b) for a signed 32-bit b; beyond ±1000 every result is that of ±1000 (06 R154). -/
def fScl (rm : Rm) (a b : Nat) : Nat :=
  f32.arith rm ((f32.val a).mul (.fin false 1 (clampInt (-1000) 1000 (sgn 32 b))))

/-- The element format and the rounding of the half-pair instructions (06 R163). -/
def halfFmt {n : Nat} (sub : BitVec n) : Fmt := if sub.getLsbD 0 then fmtOf 2 else fmtOf 3

/-- RNE or RTZ by sub[1] (06 R163). -/
def halfRm {n : Nat} (sub : BitVec n) : Rm := if sub.getLsbD 1 then .rtz else .rne

/-- Element by element over two operands. -/
def pair2 (e n : Nat) (f : Nat → Nat → Nat) (a b : Nat) : Nat :=
  joinElems e ((elems e n a).zipWith f (elems e n b))

/-- Element by element over three operands. -/
def pair3 (e n : Nat) (f : Nat → Nat → Nat → Nat) (a b c : Nat) : Nat :=
  joinElems e (((elems e n a).zip (elems e n b)).zipWith (fun p c => f p.1 p.2 c) (elems e n c))

/-- c plus the exact products, rounded once by RNE (06 R164). -/
def dotSum (ps : List (Val × Val)) (c : Nat) : Nat :=
  f32.arith .rne (ps.foldl (fun acc p => acc.add .rne (p.1.mul p.2)) (f32.val c))

/-- round(round(b − a) × c + a) (06 R165). -/
def fLerp (rm : Rm) (a b c : Nat) : Nat := f32.fma rm (f32.sub rm b a) c a

/-- FADD (06 R154). -/
def execFadd (x : FmtR) (s : State) : Out State :=
  .next (s.runLanes (.fadd x) x.ctl (flt2 x 4 (.float 32 1) 6 (f32.add (subRm x.sub))))

/-- FSUB (06 R154). -/
def execFsub (x : FmtR) (s : State) : Out State :=
  .next (s.runLanes (.fsub x) x.ctl (flt2 x 4 (.float 32 1) 6 (f32.sub (subRm x.sub))))

/-- FMUL (06 R154). -/
def execFmul (x : FmtR) (s : State) : Out State :=
  .next (s.runLanes (.fmul x) x.ctl (flt2 x 4 (.float 32 1) 6 (f32.mul (subRm x.sub))))

/-- FFMA (06 R154). -/
def execFfma (x : FmtF) (s : State) : Out State :=
  .next (s.runLanes (.ffma x) x.ctl (flt3 x 4 6 (f32.fma (subRm x.sub))))

/-- FMIN (06 R155). -/
def execFmin (x : FmtR) (s : State) : Out State :=
  .next (s.runLanes (.fmin x) x.ctl (flt2 x 4 (.float 32 1) 6 (f32.minMax false)))

/-- FMAX (06 R155). -/
def execFmax (x : FmtR) (s : State) : Out State :=
  .next (s.runLanes (.fmax x) x.ctl (flt2 x 4 (.float 32 1) 6 (f32.minMax true)))

/-- A float comparison, pushed (06 R156). -/
def fltCmp (x : FmtR) (f : Fmt) (w lat cost : Nat) : LaneOp :=
  { reads := fun _ => [.reg x.a w, .mod x.b x.mod w (.float (8 * w) 1)]
    lat := some lat
    cost := cost
    eval := fun t _ => .ok [.push (condFloat (fld x.dst 0 3) (f.val (t.val 0)) (f.val (t.val 1)))] }

/-- FCMP (06 R156). -/
def execFcmp (x : FmtR) (s : State) : Out State :=
  .next (s.runLanes (.fcmp x) x.ctl (fltCmp x f32 4 6 1))

/-- FCLS (06 R157). -/
def execFcls (x : FmtR) (s : State) : Out State :=
  let w := if x.sub = 0 then 4 else 8
  let f := if x.sub = 0 then f32 else f64
  .next (s.runLanes (.fcls x) x.ctl
    { reads := fun _ => [.mod x.b x.mod w (.float (8 * w) 1)], dsts := fun _ => [(x.dst, 4, 1)], lat := some 6
      eval := fun t _ => .ok [.reg x.dst 4 (f.classify (t.val 0))] })

/-- FRCP (06 R159). -/
def execFrcp (x : FmtR) (s : State) : Out State :=
  .next (s.runLanes (.frcp x) x.ctl (flt1 x 12 fRcp))

/-- FRSQ (06 R159). -/
def execFrsq (x : FmtR) (s : State) : Out State :=
  .next (s.runLanes (.frsq x) x.ctl (flt1 x 12 fRsq))

/-- FSQRT (06 R154). -/
def execFsqrt (x : FmtR) (s : State) : Out State :=
  .next (s.runLanes (.fsqrt x) x.ctl (flt1 x 16 fun b => f32.arith (subRm x.sub) (f32.val b).sqrt))

/-- FEX2 (06 R159). -/
def execFex2 (x : FmtR) (s : State) : Out State :=
  .next (s.runLanes (.fex2 x) x.ctl (flt1 x 12 fEx2))

/-- FLG2 (06 R159). -/
def execFlg2 (x : FmtR) (s : State) : Out State :=
  .next (s.runLanes (.flg2 x) x.ctl (flt1 x 12 fLg2))

/-- FSIN (06 R159). -/
def execFsin (x : FmtR) (s : State) : Out State :=
  .next (s.runLanes (.fsin x) x.ctl (flt1 x 12 (fSinCos 0)))

/-- FCOS (06 R159). -/
def execFcos (x : FmtR) (s : State) : Out State :=
  .next (s.runLanes (.fcos x) x.ctl (flt1 x 12 (fSinCos 1)))

/-- FFRC (06 R154). -/
def execFfrc (x : FmtR) (s : State) : Out State :=
  .next (s.runLanes (.ffrc x) x.ctl (flt1 x 6 (fFrc (subRm x.sub))))

/-- FRND (06 R154). -/
def execFrnd (x : FmtR) (s : State) : Out State :=
  .next (s.runLanes (.frnd x) x.ctl (flt1 x 6 (fRnd (subRm x.sub))))

/-- FDIV (06 R154). -/
def execFdiv (x : FmtR) (s : State) : Out State :=
  .next (s.runLanes (.fdiv x) x.ctl (flt2 x 4 (.float 32 1) 16 fun a b => f32.arith (subRm x.sub) ((f32.val a).div (f32.val b))))

/-- FSCL (06 R154). -/
def execFscl (x : FmtR) (s : State) : Out State :=
  .next (s.runLanes (.fscl x) x.ctl (flt2 x 4 (.int 32 1) 6 (fScl (subRm x.sub))))

/-- FCLMP (06 R155). -/
def execFclmp (x : FmtF) (s : State) : Out State :=
  .next (s.runLanes (.fclmp x) x.ctl (flt3 x 4 6 f32.clamp))

/-- DADD (06 R161). -/
def execDadd (x : FmtR) (s : State) : Out State :=
  .next (s.runLanes (.dadd x) x.ctl ({ flt2 x 8 (.float 64 1) 10 (f64.add (subRm x.sub)) with cost := 4 }))

/-- DMUL (06 R161). -/
def execDmul (x : FmtR) (s : State) : Out State :=
  .next (s.runLanes (.dmul x) x.ctl ({ flt2 x 8 (.float 64 1) 10 (f64.mul (subRm x.sub)) with cost := 4 }))

/-- DFMA (06 R161). -/
def execDfma (x : FmtF) (s : State) : Out State :=
  .next (s.runLanes (.dfma x) x.ctl ({ flt3 x 8 10 (f64.fma (subRm x.sub)) with cost := 4 }))

/-- DCMP (06 R156, R161). -/
def execDcmp (x : FmtR) (s : State) : Out State :=
  .next (s.runLanes (.dcmp x) x.ctl (fltCmp x f64 8 10 4))

/-- PKADD (06 R162). -/
def execPkadd (x : FmtR) (s : State) : Out State :=
  .next (s.runLanes (.pkadd x) x.ctl (flt2 x 8 (.float 32 2) 6 (pair2 32 2 (f32.add (subRm x.sub)))))

/-- PKMUL (06 R162). -/
def execPkmul (x : FmtR) (s : State) : Out State :=
  .next (s.runLanes (.pkmul x) x.ctl (flt2 x 8 (.float 32 2) 6 (pair2 32 2 (f32.mul (subRm x.sub)))))

/-- PKFMA (06 R162). -/
def execPkfma (x : FmtF) (s : State) : Out State :=
  .next (s.runLanes (.pkfma x) x.ctl (flt3 x 8 6 (pair3 32 2 (f32.fma (subRm x.sub)))))

/-- HADD2 (06 R163). -/
def execHadd2 (x : FmtR) (s : State) : Out State :=
  .next (s.runLanes (.hadd2 x) x.ctl (flt2 x 4 (.float 16 2) 6 (pair2 16 2 ((halfFmt x.sub).add (halfRm x.sub)))))

/-- HMUL2 (06 R163). -/
def execHmul2 (x : FmtR) (s : State) : Out State :=
  .next (s.runLanes (.hmul2 x) x.ctl (flt2 x 4 (.float 16 2) 6 (pair2 16 2 ((halfFmt x.sub).mul (halfRm x.sub)))))

/-- HFMA2 (06 R163). -/
def execHfma2 (x : FmtF) (s : State) : Out State :=
  .next (s.runLanes (.hfma2 x) x.ctl (flt3 x 4 6 (pair3 16 2 ((halfFmt x.sub).fma (halfRm x.sub)))))

/-- HMIN2 (06 R163). -/
def execHmin2 (x : FmtR) (s : State) : Out State :=
  .next (s.runLanes (.hmin2 x) x.ctl (flt2 x 4 (.float 16 2) 6 (pair2 16 2 ((halfFmt x.sub).minMax false))))

/-- HMAX2 (06 R163). -/
def execHmax2 (x : FmtR) (s : State) : Out State :=
  .next (s.runLanes (.hmax2 x) x.ctl (flt2 x 4 (.float 16 2) 6 (pair2 16 2 ((halfFmt x.sub).minMax true))))

/-- FDOT2 (06 R164). -/
def execFdot2 (x : FmtF) (s : State) : Out State :=
  .next (s.runLanes (.fdot2 x) x.ctl (flt3 x 4 8 fun a b c =>
    let f := halfFmt x.sub
    dotSum (((elems 16 2 a).map f.val).zip ((elems 16 2 b).map f.val)) c))

/-- FDOT4E (06 R164). -/
def execFdot4e (x : FmtF) (s : State) : Out State :=
  .next (s.runLanes (.fdot4e x) x.ctl (flt3 x 4 8 fun a b c =>
    let fa := if x.sub.getLsbD 1 then fmtOf 4 else fmtOf 5
    let fb := if x.sub.getLsbD 0 then fmtOf 4 else fmtOf 5
    dotSum (((elems 8 4 a).map fa.val).zip ((elems 8 4 b).map fb.val)) c))

/-- FLERP (06 R165). -/
def execFlerp (x : FmtF) (s : State) : Out State :=
  .next (s.runLanes (.flerp x) x.ctl (flt3 x 4 8 (fLerp (subRm x.sub))))

-- CONVERSIONS

/-- A one-operand conversion between widths, at latency 6 (03 R67). -/
def cvtOp (x : FmtI) (ws wd : Nat) (f : Nat → Nat) : LaneOp :=
  { reads := fun _ => [.reg x.a ws]
    dsts := fun _ => [(x.dst, wd, 1)]
    lat := some 6
    eval := fun t _ => .ok [.reg x.dst wd (f (t.val 0))] }

/-- A float converted to another format, or returned as it is, a NaN made quiet, where the format is the same (06 R166). -/
def cvtFloat (src dst : Nat) (m : Rm) (sat : Bool) (a : Nat) : Nat :=
  let b := fromContainer src a
  toContainer dst (if src = dst ∧ !(fmtOf src).isNan b then b else (fmtOf dst).cvt m sat ((fmtOf src).val b))

/-- CVTFF (06 R166). -/
def execCvtff (x : FmtI) (s : State) : Out State :=
  let src := fld x.imm 0 6
  let dst := fld x.imm 6 6
  .next (s.runLanes (.cvtff x) x.ctl (cvtOp x (container src) (container dst)
    (cvtFloat src dst (rmOf (fld x.imm 12 2)) (x.imm.getLsbD 14))))

/-- Width in bytes of an integer type of 06 R167. -/
def intTypeBytes (t : Nat) : Nat := 2 ^ (t / 2)

/-- Range of an integer type of 06 R167: even codes are signed. -/
def intTypeRange (t : Nat) : Int × Int :=
  let b := 8 * intTypeBytes t
  if t % 2 = 0 then (-(2 ^ (b - 1) : Nat), (2 ^ (b - 1) : Nat) - 1) else (0, (2 ^ b : Nat) - 1)

/-- CVTFI (06 R167). -/
def execCvtfi (x : FmtI) (s : State) : Out State :=
  let src := fld x.imm 0 6
  let ty := fld x.imm 6 3
  let (lo, hi) := intTypeRange ty
  .next (s.runLanes (.cvtfi x) x.ctl (cvtOp x (container src) (intTypeBytes ty) fun a =>
    wrapInt (8 * intTypeBytes ty)
      (((fmtOf src).val (fromContainer src a)).toIntIn (rmOf (fld x.imm 9 2)) lo hi)))

/-- CVTIF (06 R168). -/
def execCvtif (x : FmtI) (s : State) : Out State :=
  let ty := fld x.imm 0 3
  let dst := fld x.imm 3 6
  .next (s.runLanes (.cvtif x) x.ctl (cvtOp x (intTypeBytes ty) (container dst) fun a =>
    toContainer dst ((fmtOf dst).cvt (rmOf (fld x.imm 9 2)) (x.imm.getLsbD 11)
      (Val.ofInt (if ty % 2 = 0 then sgn (8 * intTypeBytes ty) a else (a : Int)) 0))))

/-- CVTSR (06 R170). -/
def execCvtsr (x : FmtR) (s : State) : Out State :=
  let dst := fld x.mod 0 6
  .next (s.runLanes (.cvtsr x) x.ctl
    { reads := fun _ => [.reg x.a 4, .reg x.b 4], dsts := fun _ => [(x.dst, container dst, 1)], lat := some 6
      eval := fun t _ => .ok [.reg x.dst (container dst)
        (toContainer dst ((fmtOf dst).sr (t.val 0) (t.val 1) (x.mod.getLsbD 6)))] })

/-- Slot width in bits of a format of PACK and UNPK (06 R171, R172). -/
def slotWidth (code : Nat) : Nat :=
  let w := elemWidth (if 17 ≤ code then (blockOf code).elem else code)
  if w = 6 then 8 else w

/-- PACK (06 R171). -/
def execPack (x : FmtF) (s : State) : Out State :=
  .next (s.runLanes (.pack x) x.ctl
    { reads := fun _ => [.reg x.dst 4, .reg x.a 4, .reg x.b 4, .reg x.c 4], dsts := fun _ => [(x.dst, 4, 1)]
      lat := some 6
      eval := fun t _ =>
        let c := t.val 3
        let code := bits c 0 6
        if code < 2 ∨ 16 < code then .error { cause := .illegalField }
        else
          let e := slotWidth code
          let k := bits c 9 5
          let el (v : Nat) : Nat := elemBits code (rmOf (bits c 6 2)) (c.testBit 8) (f32.val v)
          let d := setBits (t.val 0) (e * (k % (32 / e))) e (el (t.val 1))
          .ok [.reg x.dst 4 (setBits d (e * ((k + 1) % (32 / e))) e (el (t.val 2)))] })

/-- UNPK (06 R172); slot k is k mod (32 / e), as PACK's (log entry 91). -/
def execUnpk (x : FmtF) (s : State) : Out State :=
  .next (s.runLanes (.unpk x) x.ctl
    { reads := fun _ => [.reg x.a 4, .reg x.b 4, .reg x.c 4], dsts := fun _ => [(x.dst, 4, 1)]
      lat := some 6
      eval := fun t _ =>
        let code := bits (t.val 1) 0 6
        if code < 2 ∨ 31 < code then .error { cause := .illegalField }
        else
          let e := slotWidth code
          let el := bits (t.val 0) (e * (bits (t.val 1) 9 5 % (32 / e))) e
          .ok [.reg x.dst 4 (if code ≤ 16 then f32.cvt .rne false (elemVal code (el % 2 ^ elemWidth code))
            else f32.arith .rne (blockVal code (t.val 2) (el % 2 ^ elemWidth (blockOf code).elem)))] })

/-- RNG (06 R173). -/
def execRng (x : FmtR) (s : State) : Out State :=
  .next (s.runLanes (.rng x) x.ctl (flt2 x 4 .plain 6 fun a b => mix32 (Nat.xor (mix32 b) a)))

/-- RNGI (06 R173). -/
def execRngi (x : FmtI) (s : State) : Out State :=
  .next (s.runLanes (.rngi x) x.ctl (cvtOp x 4 4 fun a => mix32 (Nat.xor (mix32 a) x.imm.toNat)))

end Sys2Proof.Machine
end

