-- ==== Sys2Proof/Machine/StoreQ.lean ====
section
/-! DEFINITION. The store queue, releases and atomics (08 R209 to R222, 09 R232 to R240, R253, R254), and reads of a
place (07 R177, R193, R202, 13 R347). -/

namespace Sys2Proof.Machine

/-- A scope that reaches the home slices: .sector or wider, or .wg on a cluster of more than one core (08 R212). -/
def State.wideScope (s : State) (k : Skein) (scope : Nat) : Bool :=
  decide (3 ≤ scope) || (scope == 1 && decide (1 < ((s.wg k.wgKey).map (·.cluster.length)).getD 1))

/-- An atomic's new value at w bits (09 R235, R236). -/
def atomNew (op : AtomOp) (w old v c : Nat) : Nat :=
  atomValue (fun w a b => if w = 32 then f32.add .rne a b else f64.add .rne a b) op w old v c

/-- What an atomic stores, none where a CAS fails (09 R235). -/
def atomStore (op : AtomOp) (w old v c : Nat) : Option Nat :=
  if op = .cas ∧ old ≠ c then none else some (atomNew op w old v c)

/-- The locality predictor after an atomic to a line, and whether the line is promoted (07 R191). -/
def Core.predict (c : Core) (line cycle : Nat) : Core × Bool :=
  let old := ((c.predictor.find? fun e => e.line = line).map (·.times)).getD []
  let times := cycle :: (old.filter fun t => decide (cycle < t + 1024))
  let rest := c.predictor.filter fun e => e.line ≠ line
  ({ c with predictor := ({ line := line, times := times } :: rest).take 32 }, decide (3 ≤ times.length))

/-- Write-throughs of a core to a line perform before an access to it at the home slice. -/
def State.flushLine (s : State) (core line : Nat) : State :=
  let mine := (s.core core).wt.filter fun w => (units 128 w.pa w.bytes.length).contains line
  let s := mine.foldl (fun s w => s.homeWrite w.pa w.bytes [] (some core)) s
  s.modCore core fun c => { c with wt := c.wt.filter fun w => !(units 128 w.pa w.bytes.length).contains line }

/-- A line made ready for an atomic at its home slice: the issuer's write-throughs to it perform, its L1 copy goes, and a
core that holds it exclusively gives it up (07 R191, 08 R219). -/
def State.homeSite (s : State) (core pa n : Nat) : State :=
  ((s.flushLine core (pa / 128)).evict core (pa / 128)).recallRange pa n (some core)

/-- A read-modify-write of `n` bytes of global memory at the home slice (08 R219). -/
def State.atomHome (s : State) (core pa n : Nat) (f : Nat → Option Nat) : State × Nat :=
  let r := (s.homeSite core pa n).homeRead pa n (some core)
  let old := ofBytes r.2.1
  match f old with
  | none => (r.1, old)
  | some v => (r.1.homeWrite pa (toBytes n v) [] (some core), old)

/-- The same in an L1 that holds the line exclusively (07 R191). -/
def State.atomL1 (s : State) (core pa n : Nat) (f : Nat → Option Nat) : State × Nat :=
  let l := lookD {} (s.core core).l1 (pa / 128)
  let old := natAt l.data (pa % 128) n
  match f old with
  | none => (s, old)
  | some v => (s.modCore core fun c =>
      { c with l1 := ins (pa / 128) (l.store (pa % 128) (toBytes n v) true) c.l1 }, old)

/-- Whether a core's L1 holds a line exclusively (07 R191). -/
def State.holdsLine (s : State) (core line : Nat) : Bool := ((look (s.core core).l1 line).map (·.excl)).getD false

/-- A place made ready for an atomic: a line that executes at its home slice. -/
def State.atomSite (s : State) (core : Nat) (p : Place) (n : Nat) : State :=
  match p with
  | .dev pa => if s.holdsLine core (pa / 128) then s else s.homeSite core pa n
  | .unc pa => s.homeSite core pa n
  | _ => s

/-- A line moved to a core's L1 in exclusive state (07 R191). -/
def State.promote (s : State) (core line : Nat) : State :=
  let s := (s.flushLine core line).evict core line
  (s.fill core line false).modCore core fun c =>
    { c with l1 := ins line { lookD {} c.l1 line with excl := true } c.l1 }

/-- An atomic on a place (09 R236, 08 R219): the state and the old value. -/
def State.atomAt (s : State) (core : Nat) (p : Place) (n : Nat) (f : Nat → Option Nat) : State × Nat :=
  match p with
  | .dev pa =>
    let line := pa / 128
    if s.holdsLine core line then s.atomL1 core pa n f
    else
      let r := s.atomHome core pa n f
      let c := (r.1.core core).predict line s.cycle
      let s1 := r.1.setCore core c.1
      (if c.2 then s1.promote core line else s1, r.2)
  | .unc pa => s.atomHome core pa n f
  | .host pa =>
    let old := natAt s.mem.host pa n
    match f old with
    | none => (s, old)
    | some v => (s.hostPut pa (toBytes n v), old)
  | .scr w c off =>
    let old := natAt (s.part w c).bytes off n
    match f old with
    | none => (s, old)
    | some v => (s.modPart w c fun x => x.store off (toBytes n v) [], old)
  | _ => (s, 0)

/-- The poisoned 8-byte words of the range of an atomic whose place is ready, as byte offsets of it (07 R202). -/
def State.poisonAt (s : State) (core : Nat) (p : Place) (n : Nat) : List Nat :=
  (match p with
  | .dev pa =>
    if s.holdsLine core (pa / 128) then
      ((units 8 (pa % 128) n).filter (lookD ({} : L1Line) (s.core core).l1 (pa / 128)).poison.contains).map (16 * (pa / 128) + ·)
    else (units 8 pa n).filter s.mem.poison.contains
  | .unc pa => (units 8 pa n).filter s.mem.poison.contains
  | .scr w c off => (s.part w c).badIn off n
  | _ => []).map (8 * ·)

/-- CMO on physical ranges of a core (08 R222, 09 R240): op 0 clean, 1 invalidate, 2 both; level 0 is L1, and an
invalidation above it takes the replicas as well. One that reaches the home slices recalls lines that other cores hold
exclusively (07 R191). -/
def State.cmo (s : State) (core level op : Nat) (ranges : List (Nat × Nat)) : State :=
  let inside (line : Nat) : Bool := ranges.any fun r =>
    decide (r.1 < 128 * line + 128 ∧ 128 * line < r.1 + r.2)
  let lines := ((s.core core).l1.map (·.1)).filter inside
  let s := lines.foldl (fun s line => if op = 0 then s.clean core line else (s.evict core line)) s
  let s := if level = 0 ∨ (level = 1 ∧ op = 0) then s
    else (s.cores.flatMap fun c => c.2.l1.filterMap fun l => if l.2.excl && inside l.1 then some l.1 else none).foldl
      (fun s line => s.recall line (some core)) s
  if level = 0 ∨ op = 0 then s
  else { s with mem := { s.mem with replicas := s.mem.replicas.filter fun p => !inside p.1 } }

/-- An arrival at a barrier object (18 R446): the part, and whether the arrival was dropped. -/
def Part.arrive (x : Part) (off amount gen : Nat) (engine aborted : Bool) : Part × Bool :=
  let w0 := natAt x.bytes off 8
  let w1 := natAt x.bytes (off + 8) 8
  let put1 (v : Nat) : Part := x.store (off + 8) (toBytes 8 v) []
  if engine ∧ bits w1 1 15 ≠ gen then (put1 (setBits w1 16 1 1), true)
  else if aborted then (put1 (setBits w1 18 1 1), false)
  else
    let sum := bits w0 32 32 + amount
    let expected := bits w0 0 32
    if expected ≤ sum then
      let y := put1 (setBits w1 0 1 (1 - bits w1 0 1))
      (y.store off (toBytes 8 (setBits w0 32 32 (sat32 (sum - expected)))) [], false)
    else (x.store off (toBytes 8 (setBits w0 32 32 sum)) [], false)

/-- BARI's write of an object (18 R447): the phase stays. -/
def Part.bari (x : Part) (off expected : Nat) (arr : Bool) : Part :=
  let w1 := natAt x.bytes (off + 8) 8
  let gen := (bits w1 1 15 + 1) % 2 ^ 15
  x.store off (toBytes 8 expected ++
    toBytes 8 (setBits (setBits (setBits (setBits w1 1 15 gen) 16 1 0) 17 1 arr.toNat) 18 1 0)) []

/-- CTADD's new value (18 R444). -/
def ctaddNew (old v : Nat) (err : Bool) : Nat :=
  (if err then 2 ^ 63 else bits old 63 1 * 2 ^ 63) + (old + v) % 2 ^ 63

/-- What a queued entry does at the core (08 R209). An atomic whose word another agent has poisoned since it issued changes
nothing (log entry 97). -/
def State.performAct (s : State) (core ctx : Nat) : SqAct → State
  | .store p bs bad priv => s.storeAt core ctx p bs bad priv
  | .red p op wide v =>
    let n := if wide then 8 else 4
    let s := s.atomSite core p n
    if s.placeDenied p n then s.count ctx 13 1
    else if s.poisonAt core p n ≠ [] then s else (s.atomAt core p n fun old => atomStore op (8 * n) old v 0).1
  | .cmo level op ranges => s.cmo core level op ranges
  | .spz w c off n => s.modPart w c fun x =>
      { (x.store off (List.replicate n 0) []) with
        absent := dropAll (units 128 off n) x.absent
        marks := (units 128 off n).foldl (fun m k => del k m) x.marks }
  | .spabs w c off n => s.modPart w c fun x =>
      { x with absent := addAll (units 128 off n) x.absent
               marks := (units 128 off n).foldl (fun m k => del k m) x.marks }
  | .spcrd w c j d => s.modPart w c fun x => { x with desc := set 0 j d x.desc }
  | .bari w c off e arr => s.modPart w c fun x => x.bari off e arr
  | .arrive w c off n => s.modPart w c fun x => (x.arrive off n 0 false false).1
  | .fence => s
  | .ctadd p v err =>
    let s := s.atomSite core p 8
    if s.poisonAt core p 8 ≠ [] then s else (s.atomAt core p 8 fun old => some (ctaddNew old v err)).1

/-- Earlier stores of a core performed where a scope asks for them (08 R212, R214). -/
def State.release (s : State) (core : Nat) (wide : Bool) : State :=
  if wide then (s.drainThrough core).cleanPrivate core else s

/-- The head of a skein's store queue performs at the core, unless an earlier access of the skein still waits; a release
first makes earlier stores perform (08 R209, R214). -/
def State.performHead (s : State) (core slot : Nat) : State :=
  match s.skein core slot with
  | none => s
  | some k =>
    match k.sq with
    | [] => s
    | e :: r =>
      if k.stuck e then s
      else
        let s := s.setSkein core slot { k with sq := r }
        let s := if e.rel then s.release core (s.wideScope k e.scope) else s
        s.performAct core k.ctx e.act

/-- Every entry of a skein's queue performs, in order. -/
def State.drainQueue (s : State) (core slot : Nat) : State :=
  match s.skein core slot with
  | none => s
  | some k => k.sq.foldl (fun s _ => s.performHead core slot) s

/-- Earlier stores of a skein performed at the point of a scope (08 R214). -/
def State.drainTo (s : State) (core slot scope : Nat) : State :=
  let s := s.drainQueue core slot
  match s.skein core slot with
  | none => s
  | some k => s.release core (s.wideScope k scope)

/-- Earlier stores of a skein performed where an engine reads them (08 R211). -/
def State.drainForEngine (s : State) (core slot : Nat) : State :=
  ((s.drainQueue core slot).drainThrough core).cleanPrivate core

/-- An entry joins a skein's store queue. -/
def State.enqueue (s : State) (core slot : Nat) (e : SqEntry) : State :=
  s.modSkein core slot fun k => { k with sq := k.sq ++ [{ e with seq := k.ord }], ord := k.ord + 1 }

/-- Whether a later load of the skein waits for the queue: an atomic or a CMO stands in it (08 R209, R222); a release fence
orders later stores alone (08 R218). -/
def Skein.loadWaits (k : Skein) : Bool := k.sq.any fun e =>
  match e.act with
  | .store _ _ _ _ => false
  | .fence => false
  | _ => true

/-- The offset of a place within its space, and whether two places lie in one space. -/
def Place.off : Place → Nat
  | .dev a => a
  | .unc a => a
  | .host a => a
  | .peer a => a
  | .scr _ _ o => o
  | .aper _ _ o => o
  | .reg _ _ o => o
  | .strip o => o

/-- The place at another offset of the same space. -/
def Place.move (p : Place) (o : Nat) : Place :=
  match p with
  | .dev _ => .dev o
  | .unc _ => .unc o
  | .host _ => .host o
  | .peer _ => .peer o
  | .scr w c _ => .scr w c o
  | .aper w c _ => .aper w c o
  | .reg k l _ => .reg k l o
  | .strip _ => .strip o

/-- The skein's own queued stores taken into bytes read from a place (08 R209). -/
def Skein.forward (k : Skein) (p : Place) (bs : List Byte) : List Byte :=
  k.sq.foldl (fun bs e => match e.act with
    | .store q new _ _ =>
      if q.move 0 = p.move 0 then
        (bs.zipIdx).map fun x =>
          let a := p.off + x.2
          if q.off ≤ a ∧ a < q.off + new.length then new.getD (a - q.off) 0 else x.1
      else bs
    | _ => bs) bs

/-- What a read of a place comes to. -/
inductive ReadResult where
  /-- The bytes, the places of poisoned words among them, and the bad 32-bit words that a register-window read meets. -/
  | ok (bytes : List Byte) (poison : List Nat) (bad : List Nat)
  /-- A line is not present (07 R193). -/
  | absent
  /-- A line carries a ring mark: dropped or corrupt, and the line (13 R347). -/
  | mark (dropped : Bool) (line : Nat)
  /-- A compressed tile cannot be read (07 R195, R196). -/
  | prot
  deriving DecidableEq, Repr

/-- n bytes of a place read for a core; `home` bypasses L1 (09 R233). -/
def State.readPlace (s : State) (core : Nat) (p : Place) (n : Nat) (home : Bool) : State × ReadResult :=
  match p with
  | .dev pa =>
    let r := if home then s.homeLoad core pa n else s.l1Load core pa n
    (r.1, .ok r.2.1 (r.2.2.map (8 * ·)) [])
  | .unc pa => let r := s.homeLoad core pa n; (r.1, .ok r.2.1 (r.2.2.map (8 * ·)) [])
  | .host pa => (s, .ok (bytesAt s.mem.host pa n) [] [])
  | .peer _ => (s, .prot)
  | .scr w c off =>
    let x := s.part w c
    if x.missing off n ≠ [] then (s, .absent)
    else match (units 128 off n).find? fun k => (look x.marks k).isSome with
      | some k => (s, .mark ((look x.marks k).getD false) k)
      | none => (s, .ok (bytesAt x.bytes off n) ((x.badIn off n).map (8 * ·)) [])
  | .aper w c off =>
    match (s.part w c).aperRead (((s.wg w).map (·.scratch)).getD 0) off n with
    | .error .wait => (s, .absent)
    | .error .prot => (s, .prot)
    | .error (.mark d line) => (s, .mark d line)
    | .ok (bs, bad) => (s, .ok bs bad [])
  | .reg slot lane off =>
    match s.thread core slot lane with
    | none => (s, .prot)
    | some th0 =>
      let th := th0.at s.cycle
      if th.gone then (s, .ok (List.replicate n 0) [] [])
      else
        let words := (units 4 off n).filter fun k => th.bad.contains k || th.perr.contains k
        let fresh := words.filter th.perr.contains
        let s := fresh.foldl (fun s k => (s.modThread core slot lane fun t =>
          { t with bad := addTo k t.bad, perr := dropFrom k t.perr }).count
            (((s.skein core slot).map (·.ctx)).getD 0) 0 1) s
        (s, .ok (bytesAt th.regs off n) [] (words.map fun k => 4 * k - off))
  | .strip off => (s, .ok (bytesAt s.mem.strip off n) [] [])

/-- The address that RING_CORRUPT and RING_DROPPED report (13 R347): the slot of a boarding record that holds the line,
or the line itself, in the window of the access. -/
def State.markAddr (s : State) (core wgk : Nat) (va : Word) (off line : Nat) : Word :=
  let recs := (s.core core).boards.filterMap fun b =>
    let o := b.2.buffer
    if b.2.wg = wgk ∧ o ≤ 128 * line ∧ 128 * line < o + 16384 * b.2.slots then
      some (o + (128 * line - o) / 16384 * 16384) else none
  va - word off + word (recs.headD (128 * line))

/-- The lowest poisoned byte of an access, from the places of the poisoned words (04 R98, 07 R202). -/
def poisonAddr (va : Word) (p : Place) (bad : List Nat) : Word :=
  match bad with
  | [] => va
  | b :: _ => if b ≤ p.off then va else va + word (b - p.off)

end Sys2Proof.Machine
end

