-- ==== Sys2Proof/Machine/Work.lean ====
section
/-! DEFINITION. The life of skeins and workgroups: the barrier (05 R137), the end of a skein (05 R135, 10 R259) and of
a workgroup (02 R52, 10 R257, 13 R348, 14 R356, 15 R380). -/

namespace Sys2Proof.Machine

/-- The slot that SPSTART gives the Spindle (11 R295). -/
def spindleSlot : Nat := 1023

/-- The index that the model gives a Spindle's skein, which no skein of a workgroup has (02 R49). -/
def spindleIdx : Nat := 4095

/-- The skeins of a workgroup, each with its core and slot; the Spindle among them only on request. -/
def State.skeinsOf (s : State) (wgk : Nat) (spindle : Bool) : List (Nat × Nat × Skein) :=
  s.skeins.filterMap fun p =>
    if p.2.wgKey = wgk ∧ (spindle || p.1 % 1024 != spindleSlot) then some (p.1 / 1024, p.1 % 1024, p.2) else none

/-- The threads of a workgroup that wait in Heddle entries. -/
def State.inHeddle (s : State) (wgk : Nat) : Nat :=
  (s.cores.flatMap fun c => c.2.heddle.filterMap fun e =>
    if e.2.wg = wgk then some e.2.threads.length else none).foldl (· + ·) 0

/-- Whether a workgroup is being vacated: its skeins stop at their run boundaries (11 R304). -/
def State.stopped (s : State) (wgk : Nat) : Bool := s.vacates.any fun v => v.2.started && v.2.wgs.contains wgk

/-- Whether the skein of a slot is being vacated: its waiting threads stop in their states (11 R304). -/
def State.halted (s : State) (core slot : Nat) : Bool := ((s.skein core slot).map fun k => s.stopped k.wgKey).getD false

/-- Whether a thread waits for the event f. -/
def Thread.waits (th : Thread) (f : WaitFor → Bool) : Bool :=
  match th.st with
  | .waiting w => f w.what
  | _ => false

/-- BAR completes when every thread of the workgroup waits at a BAR or has exited (05 R137). -/
def State.barCheck (s : State) (wgk : Nat) : State :=
  let ks := s.skeinsOf wgk false
  let ths := ks.flatMap fun k => k.2.2.threads
  let here (th : Thread) : Bool := th.waits (· = .bar)
  if s.inHeddle wgk = 0 ∧ ths.any here ∧ ths.all (fun th => here th || th.st == .exited) then
    ks.foldl (fun s k =>
      let at_ := ((List.range 32).zip k.2.2.threads).filter fun p => here p.2
      (pcsOf at_).foldl (fun s pc => s.wakeLanes k.1 k.2.1 ((at_.filter fun p => p.2.pc == pc).map (·.1)) (pc + 8)) s) s
  else s

/-- Handle entries of a workgroup are kept by cluster slot and number. -/
def hKey (cslot h : Nat) : Nat := 256 * cslot + h

/-- Whether an accepted tile command still refers to a frame (10 R263). -/
def Core.tileUses (c : Core) (frame : Nat) : Bool :=
  c.tileq.any fun q => [q.d, q.a, q.b, q.m].any fun r => decide (r.map (·.1) = some frame)

/-- A frame released: free at once, or awaiting the commands that refer to it (10 R263, R265). -/
def Core.release (c : Core) (frame wgk : Nat) : Core :=
  if c.tileUses frame then { c with releasing := c.releasing ++ [(frame, wgk)] } else c

/-- Frames whose last command has completed are free (10 R263). -/
def Core.settleFrames (c : Core) : Core :=
  { c with releasing := c.releasing.filter fun p => c.tileUses p.1 }

/-- The bound handles of a workgroup on a cluster slot: number and entry. -/
def Workgroup.bound (w : Workgroup) (cslot : Nat) : List (Nat × Handle) :=
  w.handles.filterMap fun p => if p.1 / 256 = cslot ∧ p.2.bound then some (p.1 % 256, p.2) else none

/-- The handles that a skein owned on a core become ownerless (10 R259). -/
def Workgroup.disown (w : Workgroup) (cslot idx : Nat) : Workgroup :=
  { w with handles := w.handles.map fun p =>
      if p.1 / 256 = cslot ∧ p.2.owner = idx then (p.1, { p.2 with owner := 0x1FF }) else p }

/-- A slot emptied: its skein leaves the rotation and the run of its pipeline. -/
def State.clearSlot (s : State) (core slot : Nat) : State :=
  (s.dropSkein core slot).modCore core fun c =>
    let p := c.pipe (slot / 8)
    c.setPipe (slot / 8) { p with rot := dropFrom slot p.rot, run := p.run.filter fun r => r.slot != slot }

/-- A workgroup's exit on one core: its handles, boarding records and Heddle entries are freed, and the Spindle's
threads killed (10 R257, 13 R348, 14 R356, 15 R380). -/
def State.exitOn (s : State) (w : Workgroup) (wgk core cslot : Nat) : State :=
  let s := s.modCore core fun c =>
    let c := (w.bound cslot).foldl (fun c h => c.release h.2.frame wgk) c
    { c with boards := c.boards.filter fun b => b.2.wg != wgk, heddle := c.heddle.filter fun e => e.2.wg != wgk }
  match s.skein core spindleSlot with
  | none => s
  | some k =>
    if k.wgKey = wgk then
      if k.sq = [] then s.clearSlot core spindleSlot
      else s.setSkein core spindleSlot { k with threads := k.threads.map Thread.exit }
    else s

/-- A workgroup whose last thread has exited frees its resources (02 R52). -/
def State.wgExit (s : State) (wgk : Nat) : State :=
  match s.wg wgk with
  | none => s
  | some w =>
    if s.skeinsOf wgk false ≠ [] ∨ s.inHeddle wgk ≠ 0 then s
    else
      let s := (w.cluster.zipIdx).foldl (fun s c => s.exitOn w wgk c.1 c.2) s
      { s with wgs := del wgk s.wgs }

/-- Whether a skein's slot is free: every position exited, queue drained, Shuttle commands accepted (05 R135). -/
def State.over (s : State) (core slot : Nat) (k : Skein) : Bool :=
  k.threads.all (fun th => th.st == .exited) && k.sq.isEmpty && !(s.core core).shuttle.any fun q => q.slot == slot

/-- A Spindle skein that is over closes its workgroup's queues (14 R360). -/
def Workgroup.closeQueues (w : Workgroup) (cslot : Nat) (drain : Bool) : Workgroup :=
  { w with sqs := w.sqs.map fun p =>
      if p.1 / 8 = cslot then (p.1, { p.2 with opened := false, entries := if drain then [] else p.2.entries }) else p }

/-- A slot freed: its skein leaves the rotation, its handles become ownerless, and its workgroup may end. -/
def State.freeSlot (s : State) (core slot : Nat) (k : Skein) : State :=
  let cslot := ((s.wg k.wgKey).bind (·.slotOf core)).getD 0
  let s := s.clearSlot core slot
  if slot = spindleSlot then s
  else (s.modWg k.wgKey fun w => w.disown cslot k.idx).wgExit k.wgKey

/-- The slot is freed when its skein is over (05 R135). The queues close when every Spindle thread has exited. -/
def State.reap (s : State) (core slot : Nat) : State :=
  match s.skein core slot with
  | none => s
  | some k =>
    let cslot := ((s.wg k.wgKey).bind (·.slotOf core)).getD 0
    let s := if slot = spindleSlot ∧ k.threads.all (fun th => th.st == .exited) then
        s.modWg k.wgKey fun w => w.closeQueues cslot false else s
    if s.over core slot k then s.freeSlot core slot k else s

/-- After threads of a skein have exited: the barrier and the slot (05 R135, R137). -/
def State.settle (s : State) (core slot : Nat) : State :=
  match s.skein core slot with
  | none => s
  | some k => (s.barCheck k.wgKey).reap core slot

end Sys2Proof.Machine
end

