-- ==== Sys2Proof/Machine/Access.lean ====
section
/-! DEFINITION. LD, LDG, ST, ATOM, RED, FENCE, PREF, CMO and the steps that complete them (09 R231 to R240, 07 R179,
R182, R191, R193, 08 R209 to R222). -/

namespace Sys2Proof.Machine

/-- EA of a format M access (09 R231). -/
def effAddr (base : Nat) (off : BitVec 24) : Word := word (base + sextTo 64 off)

/-- A register operand of a thread as the skein of a site holds it. -/
def State.siteThread (s : State) (x : Site) : Thread := (s.thread x.core x.slot x.lane).getD {}

/-- Bytes read, destination width and sign extension of a load size (09 R233). -/
def LdSize.shape : LdSize → Nat × Nat × Bool
  | .s8 => (1, 4, true)
  | .n8 => (1, 4, false)
  | .s16 => (2, 4, true)
  | .n16 => (2, 4, false)
  | .b32 => (4, 4, false)
  | .b64 => (8, 8, false)
  | .b128 => (16, 16, false)

/-- A load's result held for every thread that the load stands for (03 R66, 09 R233). -/
def State.hold (s : State) (x : Site) (dst : RegOp) (w v : Nat) (bad : List Nat) : State :=
  x.lanes.foldl (fun s l => s.modThread x.core x.slot l fun th =>
    let a := regAddr th.views dst
    { th with held := th.held ++ [{ addr := a, bytes := toBytes w v, bad := (bad.map fun b => (a + b) / 4).dedup }] }) s

/-- Whether a read lets the skein's queued stores perform first: through an aperture, whose bytes stand elsewhere, or a
register window, whose marks they may clear (07 R177, R196, 08 R209). -/
def Place.drains : Place → Bool
  | .aper _ _ _ => true
  | .reg _ _ _ => true
  | _ => false

/-- A read of a place, with the skein's queue performed first where a load waits for it or where poison might be
covered by a queued store (08 R209). -/
def State.readFor (s : State) (core slot : Nat) (p : Place) (n : Nat) (home : Bool) : State × ReadResult :=
  match s.skein core slot with
  | none => (s, .prot)
  | some k =>
    let s := if k.loadWaits || p.drains then s.drainQueue core slot else s
    match s.readPlace core p n home with
    | (s, .ok bs [] bad) => (s, .ok (((s.skein core slot).getD k).forward p bs) [] bad)
    | (s, .ok _ (_ :: _) _) => (s.drainQueue core slot).readPlace core p n home
    | r => r

/-- The fault of a read that gives no bytes (07 R202, 13 R347). -/
def State.readFault (s : State) (x : Site) (wgk : Nat) (ea : Word) (p : Place) : ReadResult → Option Trap
  | .mark dropped line => some { cause := if dropped then .ringDropped else .ringCorrupt,
                                 addr := s.markAddr x.core wgk ea p.off line }
  | .prot => some (dataTrap .prot ea .read)
  | .ok _ (b :: r) _ => some (dataTrap .eccPoison (poisonAddr ea p (b :: r)) .read)
  | _ => none

/-- Whether a tile command writes memory. -/
def TileCmd.stores (q : TileCmd) : Bool :=
  match q.instr with
  | .tstore _ => true
  | .tstorer _ => true
  | _ => false

/-- Whether an accepted tile command of the skein still has to read or write bytes of a scratchpad access (08 R226); an
aperture's tile may lie anywhere in the grant. -/
def State.tileBusy (s : State) (core slot : Nat) (p : Place) (n : Nat) (store : Bool) : Bool :=
  let hit (w c : Nat) (f : Nat → Bool) : Bool := (s.core core).tileq.any fun q =>
    !q.done && q.io.slot == slot && q.io.wg == w && q.io.cslot == c && q.words.any f && (store || q.stores)
  match p with
  | .scr w c off => hit w c fun u => decide (off < 8 * u + 8 ∧ 8 * u < off + n)
  | .aper w c _ => hit w c fun _ => true
  | _ => false

/-- One thread's LD or LDG (09 R231, R233), read at its issue: racing LDGs of a thread read in program order (log entry 98).
`linked` says that the host link has answered. -/
def loadRun (ldg : Bool) (size : LdSize) (x : FmtM) (linked : Bool) (st : Site) (l : LaneIn) (s : State) :
    State × Fate :=
  match s.skein st.core st.slot with
  | none => (s, .next)
  | some k =>
    let (n, w, sx) := (LdSize.shape size)
    let ea := effAddr (l.val 0) x.off
    if ea.toNat % n ≠ 0 then (s, .trap (dataTrap .align ea .read))
    else match s.place st.core k.ctx k.wgKey ea n .load (!(s.siteThread st).sup) with
      | (s, .error t) => (s, .trap t)
      | (s, .ok p) =>
        let isHost := match p with
          | .host _ => true
          | _ => false
        if isHost && !linked then (s, .wait .link l.vals)
        else if s.tileBusy st.core st.slot p n false then (s, .wait .presence l.vals)
        else
          let home := ldg || (x.ctl.flag && s.wideScope k x.ctl.scope.toNat)
          match s.readFor st.core st.slot p n home with
          | (s, .absent) => (s, .wait .presence l.vals)
          | (s, .ok bs [] bad) =>
            let v := ofBytes bs
            (s.hold st x.data w (if sx then sextNat 32 (8 * n) v else v) bad, .next)
          | (s, r) => match s.readFault st k.wgKey ea p r with
            | some t => (s, .trap t)
            | none => (s, .next)

/-- The base register of an access (09 R231). -/
def baseRead (x : FmtM) : Rd := .reg x.base 8

/-- LD and LDG as instructions. -/
def loadOp (ldg : Bool) (size : LdSize) (x : FmtM) : SeqOp :=
  { reads := fun _ => [baseRead x], dsts := fun _ => [(x.data, (LdSize.shape size).2.1, 1)]
    run := loadRun ldg size x false }

/-- LD (09 R233). -/
def execLd (size : LdSize) (x : FmtM) (s : State) : Out State :=
  .next (s.runEach (.ld size x) x.ctl 0 false (loadOp false size x))

/-- LDG (09 R233). -/
def execLdg (size : LdSize) (x : FmtM) (s : State) : Out State :=
  .next (s.runEach (.ldg size x) x.ctl 0 false (loadOp true size x))

/-- Bytes written and source width of a store size (09 R234). -/
def StSize.shape : StSize → Nat × Nat
  | .b8 => (1, 4)
  | .b16 => (2, 4)
  | .b32 => (4, 4)
  | .b64 => (8, 8)
  | .b128 => (16, 16)

/-- Whether a thread's write to an address has to wait for its page's copy-on-write (11 R297, R299). -/
def State.copyWaits (s : State) (st : Site) (k : Skein) (va : Word) : Bool :=
  decide (va.toNat < 0xF * 2 ^ 48) && s.cowWaits st.core k.ctx va.toNat (!(s.siteThread st).sup) false

/-- One thread's ST: checked, then queued (09 R231, R234). -/
def storeRun (size : StSize) (x : FmtM) (st : Site) (l : LaneIn) (s : State) : State × Fate :=
  match s.skein st.core st.slot with
  | none => (s, .next)
  | some k =>
    let n := (StSize.shape size).1
    let ea := effAddr (l.val 0) x.off
    if ea.toNat % n ≠ 0 then (s, .trap (dataTrap .align ea .write))
    else if s.copyWaits st k ea then (s, .wait .presence l.vals)
    else match s.place st.core k.ctx k.wgKey ea n .store (!(s.siteThread st).sup) with
      | (s, .error t) => (s, .trap t)
      | (s, .ok p) =>
        if s.tileBusy st.core st.slot p n true then (s, .wait .presence l.vals) else
        (s.enqueue st.core st.slot
          { act := .store p (toBytes n (l.val 1)) [] (s.isPrivate st.core st.slot k.ctx ea.toNat), rel := x.ctl.flag,
            scope := x.ctl.scope.toNat, lane := st.lane }, .next)

/-- ST (09 R234). -/
def execSt (size : StSize) (x : FmtM) (s : State) : Out State :=
  .next (s.runEach (.st size x) x.ctl 0 false
    { reads := fun _ => [baseRead x, .reg x.data (StSize.shape size).2], run := storeRun size x })

/-- Whether host kind takes an atomic (07 R178, 09 R236). -/
def hostAtomic (red : Bool) (op : AtomOp) : Bool := op == .add || (!red && (op == .exch || op == .cas))

/-- The checks of an atomic on its place (09 R231, R236). -/
def State.atomPlace (s : State) (st : Site) (k : Skein) (ea : Word) (n : Nat) (red : Bool) (op : AtomOp) :
    State × Except Trap Place :=
  if ea.toNat % n ≠ 0 then (s, .error (dataTrap .align ea .write))
  else match s.place st.core k.ctx k.wgKey ea n .atom (!(s.siteThread st).sup) with
    | (s, .error t) => (s, .error t)
    | (s, .ok p) =>
      match p with
      | .host _ => (s, if hostAtomic red op then .ok p else .error (dataTrap .prot ea .write))
      | _ => (s, .ok p)

/-- A line that an atomic must wait for, or the fault of what it would read (07 R193, R202, 13 R347). -/
def State.atomCheck (s : State) (st : Site) (wgk : Nat) (ea : Word) (p : Place) (n : Nat) : Option Fate :=
  match p with
  | .scr w c off =>
    let x := s.part w c
    if x.missing off n ≠ [] then some (.wait .presence [])
    else match (units 128 off n).find? fun j => (look x.marks j).isSome with
      | some j => (s.readFault st wgk ea p (.mark ((look x.marks j).getD false) j)).map Fate.trap
      | none => if x.badIn off n ≠ [] then some (.trap (dataTrap .eccPoison (poisonAddr ea p (x.badIn off n)) .write))
                else none
  | _ =>
    let bad := s.poisonAt st.core p n
    if bad ≠ [] then some (.trap (dataTrap .eccPoison (poisonAddr ea p bad) .write)) else none

/-- An atomic's place once the skein's earlier entries have performed: what it must wait for, or the fault of what it would
read (07 R193, R202, 08 R209, R226). -/
def State.atomReady (s : State) (st : Site) (wgk : Nat) (ea : Word) (p : Place) (n : Nat) : State × Option Fate :=
  let s := s.drainQueue st.core st.slot
  if s.tileBusy st.core st.slot p n true then (s, some (.wait .presence []))
  else let s := s.atomSite st.core p n; (s, s.atomCheck st wgk ea p n)

/-- One thread's ATOM: it performs after the skein's earlier entries (08 R209, 09 R235). -/
def atomRun (op : AtomOp) (wide : Bool) (x : FmtM) (linked : Bool) (st : Site) (l : LaneIn) (s : State) :
    State × Fate :=
  match s.skein st.core st.slot with
  | none => (s, .next)
  | some k =>
    let n := if wide then 8 else 4
    let ea := effAddr (l.val 0) x.off
    if ea.toNat % n = 0 ∧ s.copyWaits st k ea then (s, .wait .presence l.vals)
    else match s.atomPlace st k ea n false op with
    | (s, .error t) => (s, .trap t)
    | (s, .ok p) =>
      let isHost := match p with
        | .host _ => true
        | _ => false
      if isHost && !linked then (s.drainQueue st.core st.slot, .wait .link l.vals)
      else
        match s.atomReady st k.wgKey ea p n with
        | (s, some (.wait w _)) => (s, .wait w l.vals)
        | (s, some f) => (s, f)
        | (s, none) =>
          let s := if x.ctl.flag then s.drainTo st.core st.slot x.ctl.scope.toNat else s
          let d := l.val 1
          let (v, c) := if op = .cas then (bits d (8 * n) (8 * n), bits d 0 (8 * n)) else (d, 0)
          let r := s.atomAt st.core p n fun old => atomStore op (8 * n) old v c
          (r.1.hold st x.data n r.2 [], .next)

/-- ATOM (09 R235). -/
def execAtom (op : AtomOp) (wide : Bool) (x : FmtM) (s : State) : Out State :=
  let n := if wide then 8 else 4
  let g := if op = .cas then 2 else 1
  .next (s.runEach (.atom op wide x) x.ctl 0 false
    { reads := fun _ => [baseRead x, .group x.data n g], dsts := fun _ => [(x.data, n, g)]
      run := atomRun op wide x false })

/-- One thread's RED: checked, then queued (09 R235). -/
def redRun (op : AtomOp) (wide : Bool) (x : FmtM) (st : Site) (l : LaneIn) (s : State) : State × Fate :=
  match s.skein st.core st.slot with
  | none => (s, .next)
  | some k =>
    let n := if wide then 8 else 4
    let ea := effAddr (l.val 0) x.off
    if ea.toNat % n = 0 ∧ s.copyWaits st k ea then (s, .wait .presence l.vals)
    else match s.atomPlace st k ea n true op with
    | (s, .error t) => (s, .trap t)
    | (s, .ok p) =>
      match s.atomReady st k.wgKey ea p n with
      | (s, some (.wait w _)) => (s, .wait w l.vals)
      | (s, some f) => (s, f)
      | (s, none) =>
        (s.enqueue st.core st.slot
          { act := .red p op wide (l.val 1), rel := x.ctl.flag, scope := x.ctl.scope.toNat, lane := st.lane }, .next)

/-- RED (09 R235). -/
def execRed (op : AtomOp) (wide : Bool) (x : FmtM) (s : State) : Out State :=
  .next (s.runEach (.red op wide x) x.ctl 0 false
    { reads := fun _ => [baseRead x, .reg x.data (if wide then 8 else 4)], run := redRun op wide x })

/-- One thread's FENCE: the release part of a full fence is met before it ends; a release fence stands in the skein's queue
and orders what comes after it there (08 R218, 09 R237). -/
def fenceRun (x : FmtM) (st : Site) (_ : LaneIn) (s : State) : State × Fate :=
  if x.ctl.flag then
    (s.enqueue st.core st.slot { act := .fence, rel := true, scope := x.ctl.scope.toNat, lane := st.lane }, .next)
  else (s.drainTo st.core st.slot x.ctl.scope.toNat, .next)

/-- FENCE (09 R237, 08 R218). -/
def execFence (x : FmtM) (s : State) : Out State := .next (s.runEach (.fence x) x.ctl 0 false { run := fenceRun x })

/-- One thread's PREF: a line of device kind that the thread may read is filled into L1; no walk leaves a trace in the
tables (09 R238). -/
def prefRun (x : FmtM) (st : Site) (l : LaneIn) (s : State) : State × Fate :=
  match s.skein st.core st.slot with
  | none => (s, .next)
  | some k =>
    let ea := (effAddr (l.val 0) x.off).toNat
    if x.ctl.flag ∨ 2 ^ 52 ≤ ea ∨ ea / 2 ^ 48 = 0xF then (s, .next)
    else match s.walkOnly k.ctx ea .read (!(s.siteThread st).sup) with
      | (_, .error _) => (s, .next)
      | (_, .ok (lf, _)) =>
        let line := lf.pa ea / 128
        if bits lf.pte 8 2 ≠ 0 ∨ (units 8 (128 * line) 128).any s.mem.poison.contains ∨
            (look (s.core st.core).l1 line).isSome then (s, .next)
        else (s.fill st.core line false, .next)

/-- PREF (09 R238). -/
def execPref (x : FmtM) (s : State) : Out State :=
  .next (s.runEach (.pref x) x.ctl 0 false { reads := fun _ => [baseRead x], quiet := true, run := prefRun x })

/-- The leaves of a table that map part of [lo, hi), with the address each maps first: the levels of 07 R180. -/
def State.leavesIn (s : State) (lo hi : Nat) : List (Nat × Nat × Nat) → Nat → Nat → List (Nat × Leaf)
  | [], _, _ => []
  | (level, sh, n) :: rest, table, va =>
    let at_ := table - table % (8 * 2 ^ n)
    (List.range (2 ^ n)).flatMap fun i =>
      let v := va + i * 2 ^ sh
      if hi ≤ v ∨ v + 2 ^ sh ≤ lo ∨ 0xF * 2 ^ 48 ≤ v then []
      else
        let e := natAt s.mem.bytes (at_ + 8 * i) 8
        if bits e 0 1 = 0 then []
        else if level = 3 ∨ (bits e 10 1 = 1 ∧ level ≠ 0) then [(v, ⟨at_ + 8 * i, e, level⟩)]
        else if bits e 10 1 = 1 then []
        else s.leavesIn lo hi rest (bits e 12 40 * 4096) v

/-- The physical ranges of device kind that a thread may read in [lo, hi) (09 R240). -/
def State.rangesIn (s : State) (ctx lo hi : Nat) (user : Bool) : List (Nat × Nat) :=
  (s.leavesIn lo hi walkLevels (s.ctx ctx).fix.root 0).filterMap fun q =>
    let (v, lf) := q
    let a := max lo v
    let b := min hi (v + 2 ^ levelBits lf.level)
    if (user ∧ bits lf.pte 3 1 = 0) ∨ bits lf.pte 8 2 ≠ 0 ∨ bits lf.pte 63 1 = 1 ∨ b ≤ a then none
    else some (lf.pa a, b - a)

/-- One thread's CMO: the range is translated and the operation queued (09 R239, R240). -/
def cmoRun (x : FmtX) (st : Site) (l : LaneIn) (s : State) : State × Fate :=
  match s.skein st.core st.slot with
  | none => (s, .next)
  | some k =>
    let lo := l.val 0
    let hi := lo + l.val 1
    if 2 ^ 52 < hi then (s, .trap (dataTrap .prot (word (max lo (2 ^ 52))) .read))
    else
      let rs := if l.val 1 = 0 then [] else s.rangesIn k.ctx lo hi (!(s.siteThread st).sup)
      (s.enqueue st.core st.slot { act := .cmo (fld x.imm 2 2) (fld x.imm 0 2) rs, lane := st.lane }, .next)

/-- CMO (09 R239). -/
def execCmo (x : FmtX) (s : State) : Out State :=
  .next (s.runEach (.cmo x) x.ctl 0 false
    { reads := fun _ => [.reg x.r1 8, .reg x.r2 8], run := cmoRun x })

-- STEPS

/-- The wait of a thread, where it waits for w; that of a vacated one stands, but for an answer of the host link (11 R304). -/
def State.waitingFor (s : State) (core slot lane : Nat) (f : WaitFor → Bool) : Option Wait :=
  match s.thread core slot lane with
  | none => none
  | some th => match th.st with
    | .waiting w => if f w.what && (w.what == .link || !s.halted core slot) then some w else none
    | _ => none

/-- A held result lands: the scoreboard releases its destination (03 R66); bad words arrive marked (07 R177, R204). -/
def State.landHeld (s : State) (core slot lane idx : Nat) : State :=
  s.modThread core slot lane fun th =>
    match th.held[idx]? with
    | none => th
    | some h =>
      let t := ({ th with held := th.held.eraseIdx idx }).putReg h.addr h.bytes
      { t with bad := addAll h.bad t.bad }

/-- LINE_RECALL (07 R191): a core gives up a line that it holds exclusively. -/
def execLineRecall (core line : Nat) (s : State) : Out State :=
  .next (match look (s.core core).l1 line with
    | some l => if l.excl then s.evict core line else s
    | none => s)

/-- PAGE_WALK (07 R182, R183, R185, 15 R378): the walk of an access fills the core's TLB, or faults without a trace in
it; the access that missed takes the fault. -/
def execPageWalk (core ctx : Nat) (va : Word) (acc : AccKind) (user : Bool) (s : State) : Out State :=
  .next (if 0xF * 2 ^ 48 ≤ va.toNat then s else (s.pageWalk core ctx va.toNat acc user).1)

end Sys2Proof.Machine
end

