-- ==== Sys2Proof/Machine/Control.lean ====
section
/-! DEFINITION. Control flow, the barrier, traps and their returns (05 R130 to R140), system registers and views (05
R141 to R143, 04 R89 to R93), TIME and MON (18 R440, R449). -/

namespace Sys2Proof.Machine

-- BRANCHES

/-- A branch target (03 R61, 05 R132): BAD_TARGET where its bits forbid it or its word is no header; one whose word
cannot be fetched passes. -/
def State.badTarget (s : State) (core ctx : Nat) (t : Word) (user : Bool) : State × Bool :=
  if 2 ^ 52 ≤ t.toNat ∨ t.toNat % 8 ≠ 0 then (s, true)
  else match s.fetch core ctx t user with
    | (s, .ok h) => (s, !isHeader h)
    | (s, .error _) => (s, false)

/-- One thread's branch; `link` writes LINK with the word after the block, 4 cycles after its issue (05 R133). -/
def branchRun (target : Site → LaneIn → Word) (link : Bool) (x : Site) (l : LaneIn) (s : State) : State × Fate :=
  match s.skein x.core x.slot with
  | none => (s, .next)
  | some k =>
    let t := target x l
    match s.badTarget x.core k.ctx t (!(s.siteThread x).sup) with
    | (s, true) => (s, .trap { cause := .badTarget, addr := t })
    | (s, false) =>
      (if link then x.lanes.foldl (fun s i => s.modThread x.core x.slot i fun th =>
        th.pendLink (x.cyc + 4) k.blkEnd) s else s, .jump t)

/-- PC + 8 × offset (05 R130). -/
def offsetTarget (x : FmtC) (st : Site) (_ : LaneIn) : Word := st.pc + word (8 * sextTo 64 x.off)

/-- The register target. -/
def regTarget (_ : Site) (l : LaneIn) : Word := word (l.val 0)

/-- A target register, read with W = 8. -/
def targetRead (x : FmtC) (_ : Views) : List Rd := [.reg x.reg 8]

/-- BRA (05 R132). -/
def execBra (x : FmtC) (s : State) : Out State :=
  .next (s.runEach (.bra x) x.ctl x.ctl.stall false { run := branchRun (offsetTarget x) false })

/-- BRX (05 R132). -/
def execBrx (x : FmtC) (s : State) : Out State :=
  .next (s.runEach (.brx x) x.ctl x.ctl.stall false { reads := targetRead x, run := branchRun regTarget false })

/-- CALL (05 R133). -/
def execCall (x : FmtC) (s : State) : Out State :=
  .next (s.runEach (.call x) x.ctl x.ctl.stall false { run := branchRun (offsetTarget x) true })

/-- CALLX (05 R133). -/
def execCallx (x : FmtC) (s : State) : Out State :=
  .next (s.runEach (.callx x) x.ctl x.ctl.stall false { reads := targetRead x, run := branchRun regTarget true })

/-- RET (05 R134). -/
def execRet (x : FmtC) (s : State) : Out State :=
  .next (s.runEach (.ret x) x.ctl x.ctl.stall false { readsLink := true, run := branchRun (fun _ l => l.link) false })

-- ENDS AND WAITS

/-- The skein that an instruction acted for, after threads of it may have exited or come to the barrier. -/
def State.settleIssue (before after : State) : State :=
  match before.issue with
  | none => after
  | some is => after.settle is.core is.slot

/-- STORE_QUEUE_PERFORM (08 R208 to R210, R214): the head of a skein's queue performs at the core, or the k-th
write-through of the core at its home slice, where no earlier one touches the same bytes. -/
def execStoreQueuePerform (core slot : Nat) (home : Option Nat) (s : State) : Out State :=
  .next (match home with
    | none => (s.performHead core slot).reap core slot
    | some k =>
      match (s.core core).wt[k]? with
      | none => s
      | some w =>
        if ((s.core core).wt.take k).any fun v => decide (v.pa < w.pa + w.bytes.length ∧ w.pa < v.pa + v.bytes.length)
        then s else s.performThrough core k)

/-- EXIT (05 R135). -/
def execExit (x : FmtC) (s : State) : Out State :=
  .next (s.settleIssue (s.runEach (.exit x) x.ctl x.ctl.stall false
    { run := fun st _ s =>
        (st.lanes.foldl (fun s l => s.modThread st.core st.slot l Thread.exit) s, .moved) }))

/-- YIELD (05 R136): the next grant prefers other ready slots. -/
def execYield (x : FmtC) (s : State) : Out State :=
  .next (s.runEach (.yield x) x.ctl x.ctl.stall true
    { run := fun st _ s => (s.modSkein st.core st.slot fun k => { k with yielded := true }, .next) })

/-- One thread's BAR: a release at .wg, then the arrival (05 R137). -/
def barRun (st : Site) (l : LaneIn) (s : State) : State × Fate := (s.drainTo st.core st.slot 1, .wait .bar l.vals)

/-- BAR (05 R137). -/
def execBar (x : FmtC) (s : State) : Out State :=
  .next (s.settleIssue (s.runEach (.bar x) x.ctl x.ctl.stall false
    { run := barRun }))

/-- SLEEP (05 R136): 64 × n cycles from the thread's issue; SLEEP 0 acts as YIELD. -/
def execSleep (x : FmtC) (s : State) : Out State :=
  .next (s.runEach (.sleep x) x.ctl x.ctl.stall true
    { run := fun st l s =>
        if x.imm = 0 then (s.modSkein st.core st.slot fun k => { k with yielded := true }, .next)
        else (s, .wait (.sleep (st.cyc + 64 * x.imm.toNat)) l.vals) })

/-- SLEEP_WAKE (05 R136). -/
def execSleepWake (core slot lane : Nat) (s : State) : Out State :=
  .next (match s.thread core slot lane with
    | none => s
    | some th => match th.st with
      | .waiting w => match w.what with
        | .sleep c => if c ≤ s.cycle ∧ !s.halted core slot then s.wakeAt core slot lane (th.pc + 8) else s
        | _ => s
      | _ => s)

-- TRAPS

/-- TRAP (05 R138). -/
def execTrap (x : FmtC) (s : State) : Out State :=
  .next (s.runEach (.trap x) x.ctl x.ctl.stall false
    { run := fun _ _ s => (s, .trap { cause := .trap, info := some (x.imm.setWidth 64) }) })

/-- BRK (05 R138, 04 R107). -/
def execBrk (x : FmtC) (s : State) : Out State :=
  .next (s.runEach (.brk x) x.ctl x.ctl.stall false
    { run := fun _ _ s => (s, .trap { cause := .brk, info := some (x.imm.setWidth 64) }) })

/-- A supervisor instruction (03 R78). -/
def supOnly (th : Thread) : Bool := !th.sup

/-- RETURN FROM AN EXCEPTION, one thread: results of P and LINK in flight land first, then the restores of 04 R102; a
rejected TRAPVIEW is ILLEGAL_FIELD and restores nothing. -/
def tretRun (next : Bool) (st : Site) (_ : LaneIn) (s : State) : State × Fate :=
  let th := s.siteThread st
  match th.restore (if next then th.trec.pc + 8 else th.trec.pc) with
  | none => (s, .trap { cause := .illegalField })
  | some t => (s.modThread st.core st.slot st.lane fun _ => t, .moved)

/-- TRET (05 R139, 04 R102). -/
def execTret (x : FmtC) (s : State) : Out State :=
  .next (s.runEach (.tret x) x.ctl x.ctl.stall false { denied := supOnly, run := tretRun (x.imm.getLsbD 0) })

/-- One thread's ESCL: the restores of 04 R102 at TRAPPC, then host-parked (04 R104). -/
def esclRun (st : Site) (_ : LaneIn) (s : State) : State × Fate :=
  let th := s.siteThread st
  match th.restore th.trec.pc with
  | none => (s, .trap { cause := .illegalField })
  | some t => (s.modThread st.core st.slot st.lane fun _ => { t with st := .hostParked }, .moved)

/-- The one event of an escalated fragment: cause, pc, addr and info from the record of its lowest thread (04 R104). -/
def State.esclEvent (s : State) (core slot : Nat) (k : Skein) (lanes : List Nat) : State :=
  match lanes with
  | [] => s
  | l :: _ =>
    let r := (laneOf k.threads l).trec
    s.post k.ctx false (fragmentEvent k 2 core slot lanes r.cause r.pc r.addr r.info 0)

/-- ESCL (05 R139, 04 R104). -/
def execEscl (x : FmtC) (s : State) : Out State :=
  let op : SeqOp := { denied := supOnly, run := esclRun }
  .next (match s.issued with
    | none => s
    | some (is, k) =>
      let go := (gather op.toOp x.ctl k is.slot s.cycle (lanesOf is.present)).go.map (·.lane)
      let ok := go.filter fun l => ((laneOf k.threads l).restore 0).isSome
      (s.runEach (.escl x) x.ctl x.ctl.stall false op).esclEvent is.core is.slot k ok)

/-- One thread's FENCEI: the queue drains at the scope, then the core's lines for fetch go (05 R140). -/
def fenceiRun (x : FmtC) (st : Site) (_ : LaneIn) (s : State) : State × Fate :=
  ((s.drainTo st.core st.slot (fld x.imm 0 3)).modCore st.core fun c => { c with icache := [] }, .next)

/-- FENCEI (05 R140). -/
def execFencei (x : FmtC) (s : State) : Out State :=
  .next (s.runEach (.fencei x) x.ctl x.ctl.stall false
    { run := fenceiRun x })

-- SYSTEM REGISTERS

/-- W of SRD and SWR: 8 when the view's elements have 64 or 128 bits, else 4 (05 R141). -/
def sysWidth (vs : Views) (r : RegOp) : Nat := if 64 ≤ viewWidth (vs.get (RegOp.view r)) then 8 else 4

/-- A grid. -/
def State.grid (s : State) (ctx num : Nat) : Option Grid := look s.grids (gridKey ctx num)

/-- A grid changed. -/
def State.modGrid (s : State) (ctx num : Nat) (f : Grid → Grid) : State :=
  match s.grid ctx num with
  | none => s
  | some g => { s with grids := ins (gridKey ctx num) (f g) s.grids }

/-- The bits of PARKMASK: threads exited, and threads host-parked or debug-parked (04 R91). -/
def parkMask (k : Skein) : Nat :=
  let at_ (f : ThreadState → Bool) : Nat := (maskOf ((List.range 32).filter fun i => f (laneOf k.threads i).st)).toNat
  at_ (· == .exited) * 2 ^ 32 + at_ fun st => st == .hostParked || st == .debugParked

/-- A special register of 04 R93; %skein and %tid of a Spindle thread are 0xFFFF_FFFF (14 R356). -/
def State.special (s : State) (core slot lane : Nat) (k : Skein) (th : Thread) (n : Nat) : Nat :=
  let w := (s.wg k.wgKey).getD { ctx := 0, grid := 0, lin := 0 }
  let g := s.grid k.ctx k.grid
  let spin := slot == spindleSlot
  match n with
  | 0x300 => if spin then 0xFFFFFFFF else 32 * k.idx + lane
  | 0x301 => lane
  | 0x302 => if spin then 0xFFFFFFFF else k.idx
  | 0x303 => w.x
  | 0x304 => w.y
  | 0x305 => w.z
  | 0x306 => w.threads
  | 0x307 => k.grid
  | 0x308 => core
  | 0x309 => sectorOf core
  | 0x30A => (g.map (·.depth)).getD 0
  | 0x30B => k.ctx
  | 0x30C => ((g.bind (·.strip)).map (·.k)).getD 0xFFFFFFFF
  | _ => th.shlevel

/-- The value of a system register for a thread (04 R89 to R93); P and LINK as they stand at the issue cycle. -/
def State.sysRead (s : State) (x : Site) (l : LaneIn) (n : Nat) : Nat :=
  match s.skein x.core x.slot, s.thread x.core x.slot x.lane with
  | some k, some th =>
    let r := th.trec
    let v := s.varOf x.core x.slot k.ctx
    match n with
    | 0x000 => r.cause.toNat
    | 0x001 => r.pc.toNat
    | 0x002 => r.addr.toNat
    | 0x003 => r.info.toNat
    | 0x004 => r.pred.toNat
    | 0x005 => r.link.toNat
    | 0x006 => r.blk.toNat
    | 0x007 => r.view.toNat
    | 0x008 => r.scrA.toNat
    | 0x009 => r.scrB.toNat
    | 0x010 => th.views.v0.toNat
    | 0x011 => th.views.v1.toNat
    | 0x012 => th.views.v2.toNat
    | 0x013 => th.views.v3.toNat
    | 0x014 => l.link.toNat
    | 0x015 => l.pred.toNat
    | 0x100 => k.dbgctl.toNat
    | 0x101 => (k.dbgctl.getLsbD 0).toNat
    | 0x102 => 0
    | 0x103 => parkMask k
    | 0x200 => v.trapvec.toNat
    | 0x201 => v.trapstk.toNat
    | 0x202 => v.watchdog
    | 0x203 => v.carve
    | 0x204 => v.dbgdef.toNat
    | _ => s.special x.core x.slot x.lane k th n
  | _, _ => 0

/-- SRD (05 R141, R142). -/
def execSrd (x : FmtS) (s : State) : Out State :=
  .next (s.runEach (.srd x) x.ctl x.ctl.stall false
    { dsts := fun vs => [(x.reg, sysWidth vs x.reg, 1)]
      denied := fun th => !th.sup && !SysReg.userRead x.num
      illegal := fun vs => SysReg.wide x.num && sysWidth vs x.reg == 4
      readsPred := x.num == 0x015, readsLink := x.num == 0x014
      run := fun st l s =>
        let v := s.sysRead st l x.num.toNat
        (st.lanes.foldl (fun s i =>
          let own := { st with lane := i, lanes := [i] }
          s.hold own x.reg (sysWidth (s.siteThread own).views x.reg) v []) s, .next) })

/-- A trap-record item written (04 R90): reserved bits of TRAPCAUSE stay zero. -/
def TrapRec.write (r : TrapRec) (n v : Nat) : TrapRec :=
  match n with
  | 0 => { r with cause := BitVec.ofNat 32 (v % 2 ^ 11) }
  | 1 => { r with pc := word v }
  | 2 => { r with addr := word v }
  | 3 => { r with info := word v }
  | 4 => { r with pred := BitVec.ofNat 8 v }
  | 5 => { r with link := word v }
  | 6 => { r with blk := word v }
  | 7 => { r with view := word v }
  | 8 => { r with scrA := word v }
  | _ => { r with scrB := word v }

/-- The part of a wait or a park that DBGRES ends for one thread (04 R104): 0 continue, 2 continue after, 3 kill. -/
def State.resume (s : State) (core slot lane : Nat) (action : Nat) : State :=
  s.modThread core slot lane fun th =>
    if th.st = .hostParked ∨ th.st = .debugParked then
      match action with
      | 0 => th.wake
      | 2 => { th.wake with pc := th.pc + 8 }
      | 3 => th.exit
      | _ => th
    else th

/-- After the watchdog's action, the count of a workgroup starts again when one of its threads is resumed (04 R106). -/
def State.wdRestart (s : State) (wgk : Nat) : State :=
  s.modWg wgk fun w => if w.wdFired then { w with wdStart := s.time.now, wdFired := false } else w

/-- A write of DBGRES (04 R91, R104, R108, R110): applied to the masked threads that are host-parked or debug-parked. -/
def State.dbgres (s : State) (core slot action : Nat) (mask : BitVec 32) : State :=
  match s.skein core slot with
  | none => s
  | some k =>
    let hit := (lanesOf mask).filter fun l =>
      (laneOf k.threads l).st == .hostParked || (laneOf k.threads l).st == .debugParked
    if hit = [] then s
    else
      if action = 1 then
        let dbg := hit.filter fun l => (laneOf k.threads l).st == .debugParked
        if dbg = [] then s
        else
          let s := s.wdRestart k.wgKey
          let s := dbg.foldl (fun s l => s.modThread core slot l fun th => { th with st := .running, stopNext := false }) s
          s.modSkein core slot fun k => { k with step := k.step ||| maskOf dbg }
      else
        let s := if action = 3 then s else s.wdRestart k.wgKey
        let s := hit.foldl (fun s l => s.resume core slot l action) s
        if action = 3 then s.settle core slot else s

/-- The address of a context's entry (15 R381), none while CTXBASE is 0. -/
def State.ctxEntry (s : State) (ctx : Nat) : Option Nat :=
  let b := (lookD 0 s.w0 0).toNat
  if b = 0 then none else some (b + 256 * ctx)

/-- A field of a context's entry written as a release at .dev (15 R382). -/
def State.putEntry (s : State) (ctx off : Nat) (bs : List Byte) : State :=
  match s.ctxEntry ctx with
  | none => s
  | some a => s.homeWrite (a + off) bs [] none

/-- The runs of a context's skeins changed. -/
def State.modRuns (s : State) (ctx : Nat) (f : Run → Run) : State :=
  { s with cores := s.cores.map fun c => (c.1, { c.2 with pipes := c.2.pipes.map fun p =>
      (p.1, { p.2 with run := p.2.run.map fun r =>
        if ((s.skein c.1 r.slot).map (·.ctx)) = some ctx then f r else r }) }) }

/-- A field of a context's entry changed in the device's copy, at once in every run. -/
def State.modVar (s : State) (ctx : Nat) (f : CtxVar → CtxVar) : State :=
  (s.modRuns ctx fun r => { r with var := r.var.map f }).modCtx ctx fun c => { c with var := f c.var }

/-- A write of TRAPVEC, TRAPSTK, WATCHDOG or DBGDEF: the device's copy and the entry (04 R92, 15 R382). -/
def State.ctxWrite (s : State) (ctx n v : Nat) : State :=
  match n with
  | 0x200 => (s.modVar ctx fun c => { c with trapvec := word v }).putEntry ctx 0x18 (toBytes 8 v)
  | 0x201 => (s.modVar ctx fun c => { c with trapstk := word v }).putEntry ctx 0x20 (toBytes 8 v)
  | 0x202 => (s.modVar ctx fun c => { c with watchdog := v % 2 ^ 32 }).putEntry ctx 0x28 (toBytes 4 v)
  | _ => (s.modVar ctx fun c => { c with dbgdef := BitVec.ofNat 3 v }).putEntry ctx 0x2D (toBytes 1 (v % 8))

/-- DBGCTL or its SBCHK bit written (04 R91). -/
def Skein.writeDbg (k : Skein) (n v : Nat) : Skein :=
  if n = 0x100 then { k with dbgctl := BitVec.ofNat 3 v }
  else { k with dbgctl := k.dbgctl.extractLsb' 1 2 ++ BitVec.ofNat 1 v }

/-- One thread's SWR (05 R141, R142, 04 R89 to R92). -/
def swrRun (x : FmtS) (st : Site) (l : LaneIn) (s : State) : State × Fate :=
  let n := x.num.toNat
  let v := l.val 0
  let w := sysWidth (s.siteThread st).views x.reg
  let ths (f : Thread → Thread) : State := st.lanes.foldl (fun s i => s.modThread st.core st.slot i f) s
  if SysReg.wide x.num && w == 4 then (s, .trap { cause := .illegalField })
  else if n ≤ 9 then (ths fun th => { th with trec := th.trec.write n v }, .next)
  else if 0x010 ≤ n ∧ n ≤ 0x013 then
    if viewOk (BitVec.ofNat 16 v) then (ths fun th => { th with views := th.views.put (n - 0x010) (BitVec.ofNat 16 v) }, .next)
    else (s, .trap { cause := .illegalField })
  else if n = 0x014 then (ths fun th => th.putLink (word v), .next)
  else if n = 0x015 then (ths fun th => th.putPred (BitVec.ofNat 8 v), .next)
  else if n = 0x102 then
    (s.modSkein st.core st.slot fun k => { k with dbg := k.dbg ++ [(bits v 32 2, BitVec.ofNat 32 v)] }, .next)
  else if n < 0x200 then (s.modSkein st.core st.slot fun k => k.writeDbg n v, .next)
  else match s.skein st.core st.slot with
    | none => (s, .next)
    | some k => ((s.drainTo st.core st.slot 4).ctxWrite k.ctx n v, .next)

/-- The writes of DBGRES that a skein's own threads have made are applied: last of what meets them at an instruction boundary
(04 R110). -/
def State.ownDbgres (s : State) (core slot : Nat) : State :=
  match s.skein core slot with
  | none => s
  | some k =>
    if k.dbg = [] then s
    else k.dbg.foldl (fun s d => s.dbgres core slot d.1 d.2) (s.modSkein core slot fun k => { k with dbg := [] })

/-- SWR (05 R141, R142). -/
def execSwr (x : FmtS) (s : State) : Out State :=
  let t := s.runEach (.swr x) x.ctl x.ctl.stall false
    { reads := fun vs => [.reg x.reg (sysWidth vs x.reg)]
      denied := fun th => !th.sup && !SysReg.userWrite x.num
      run := swrRun x }
  .next (match s.issue with
    | none => t
    | some is => t.ownDbgres is.core is.slot)

/-- SVIEW (05 R143). -/
def execSview (x : FmtI) (s : State) : Out State :=
  .next (s.runEach (.sview x) x.ctl x.ctl.stall false
    { run := fun st _ s =>
        (st.lanes.foldl (fun s i => s.modThread st.core st.slot i fun th =>
          { th with views := th.views.put (fld x.dst 0 2) (x.imm.setWidth 16) }) s, .next) })

-- TIME AND MONITORS

/-- The counter in units of 2^-16 ns (12 R308). -/
def State.sub (s : State) : Nat := s.time.now / 2 ^ 24

/-- What TIME reads (18 R440). -/
def State.timeRead (s : State) (sel : Nat) : Nat :=
  match sel with
  | 0 => s.sub / 2 ^ 16
  | 1 => s.sub
  | _ => s.sub / 2 ^ 16 / 1000000000

/-- TIME (18 R440). The readings of one instruction's threads are one reading of the counter (log entry 20). -/
def execTime (x : FmtI) (s : State) : Out State :=
  .next (s.runEach (.time x) x.ctl x.ctl.stall false
    { dsts := fun _ => [(x.dst, 8, 1)]
      run := fun st _ s => (s.hold st x.dst 8 (s.timeRead (fld x.imm 0 2) % 2 ^ 64) [], .next) })

/-- The value of a monitor (18 R449). Counters 8 and 9 have no context copy, so MON 0x508 and 0x509 read zero (log
entry 21). -/
def State.monitor (s : State) (ctx n : Nat) : Nat :=
  if n < 0x100 then (lookD 0 s.mon.temps n).toNat
  else if n < 0x200 then (lookD 0 s.mon.volts (n - 0x100)).toNat
  else if n < 0x300 then (lookD 0 s.mon.procs (n - 0x200)).toNat
  else if n = 0x300 then s.mon.mhz
  else if n = 0x301 then s.mon.throttle
  else if n < 0x600 then
    (if n = 0x508 ∨ n = 0x509 then 0 else lookD 0 (s.ctx ctx).errors (n - 0x500))
  else lookD 0 s.errors (n - 0x600)

/-- The core clock as a run knows it: it never changes in the middle of a run (01 R10, 18 R450). -/
def State.runClock (s : State) (core slot : Nat) : Nat :=
  (((s.core core).pipe (slot / 8)).run.map (·.mhz)).getD s.mon.mhz

/-- MON (18 R449). -/
def execMon (x : FmtS) (s : State) : Out State :=
  .next (s.runEach (.mon x) x.ctl x.ctl.stall false
    { dsts := fun _ => [(x.reg, 4, 1)], denied := supOnly
      run := fun st _ s => match s.skein st.core st.slot with
        | none => (s, .next)
        | some k => (s.hold st x.reg 4 (if x.num = 0x300 then s.runClock st.core st.slot
            else s.monitor k.ctx x.num.toNat) [], .next) })

end Sys2Proof.Machine
end

