-- ==== Sys2Proof/Machine/Counter.lean ====
section
/-! DEFINITION. Waiting on words, counters and barrier objects (18 R441 to R447): WAIT, CTADD, BARI, BARA, BARW; the
scratchpad control of 09 R253 to R255 (SPZ, SPABS, SPCRD, CARVE) and DDUPQ (09 R256). -/

namespace Sys2Proof.Machine

/-- The `d` register that holds an address, and a second operand of w bytes. -/
def pairReads (x : FmtX) (w : Nat) (_ : Views) : List Rd := [.reg x.r1 8, .reg x.r2 w]

-- WAIT

/-- Whether a word read meets WAIT's condition (18 R442): none where it traps instead. -/
def waitMet (kind cond v c : Nat) : Option Bool :=
  if kind ≠ 0 ∧ v.testBit 63 then none
  else
    let a := if kind = 0 then v else v % 2 ^ 63
    let b := if kind = 0 then c else c % 2 ^ 63
    some (match cond with
      | 0 => decide (b ≤ a)
      | 1 => a == b
      | _ => a != b)

/-- Whether a word may be waited on where it lies (18 R442). -/
def waitPlace : Place → Bool
  | .reg _ _ _ => false
  | .strip _ => false
  | .peer _ => false
  | _ => true

/-- One thread's WAIT: the word is read, and the thread goes on, traps, or waits and reads again (18 R442). -/
def waitRun (x : FmtX) (st : Site) (l : LaneIn) (s : State) : State × Fate :=
  match s.skein st.core st.slot with
  | none => (s, .next)
  | some k =>
    let va := word (l.val 0)
    let kind := fld x.imm 2 2
    if va.toNat % 8 ≠ 0 then (s, .trap (dataTrap .align va .read))
    else match s.place st.core k.ctx k.wgKey va 8 .load (!(s.siteThread st).sup) with
      | (s, .error t) => (s, .trap t)
      | (s, .ok p) =>
        if !waitPlace p then (s, .trap (dataTrap .prot va .read))
        else if s.placeDenied p 8 then (s.count k.ctx 13 1, .trap (dataTrap .eccPoison va .read))
        else if s.tileBusy st.core st.slot p 8 false then (s, .wait .word l.vals)
        else match s.readFor st.core st.slot p 8 true with
          | (s, .absent) => (s, .wait .word l.vals)
          | (s, .ok bs [] bad) =>
            match waitMet kind (fld x.imm 0 2) (ofBytes bs) (l.val 1) with
            | none => (s, .trap { cause := if kind = 1 then .engineErr else .ringDropped, addr := va })
            | some true => (s.hold st x.r2 8 (ofBytes bs) bad, .next)
            | some false => (s, .wait .word l.vals)
          | (s, r) => match s.readFault st k.wgKey va p r with
            | some t => (s, .trap t)
            | none => (s, .next)

/-- WAIT (18 R442). -/
def execWait (x : FmtX) (s : State) : Out State :=
  .next (s.runEach (.wait x) x.ctl 0 false
    { reads := pairReads x 8, dsts := fun _ => [(x.r2, 8, 1)], run := waitRun x })

/-- WAIT_SATISFIED (18 R442): a waiting WAIT reads its word again. -/
def execWaitSatisfied (core slot lane : Nat) (s : State) : Out State :=
  .next (match s.waitingFor core slot lane (· = .word) with
    | none => s
    | some w => match w.instr with
      | .wait x => s.retake core slot lane w (waitRun x)
      | _ => s)

-- CTADD AND BARRIER OBJECTS

/-- One thread's CTADD (18 R444). -/
def ctaddRun (x : FmtX) (st : Site) (l : LaneIn) (s : State) : State × Fate :=
  match s.skein st.core st.slot with
  | none => (s, .next)
  | some k =>
    let va := word (l.val 0)
    if va.toNat % 8 = 0 ∧ s.copyWaits st k va then (s, .wait .presence l.vals)
    else match s.atomPlace st k va 8 true .add with
    | (s, .error t) => (s, .trap t)
    | (s, .ok p) =>
      match p with
      | .host _ => (s, .trap (dataTrap .prot va .write))
      | _ => match s.atomReady st k.wgKey va p 8 with
        | (s, some (.wait w _)) => (s, .wait w l.vals)
        | (s, some f) => (s, f)
        | (s, none) => (s.enqueue st.core st.slot
            { act := .ctadd p (l.val 1 % 2 ^ 63) (x.imm.getLsbD 0), rel := x.ctl.flag, scope := x.ctl.scope.toNat,
              lane := st.lane }, .next)

/-- CTADD (18 R444). -/
def execCtadd (x : FmtX) (s : State) : Out State :=
  .next (s.runEach (.ctadd x) x.ctl 0 false { reads := pairReads x 8, run := ctaddRun x })

/-- A barrier object's place: 16 aligned bytes in the issuer's grant (18 R445). -/
def State.objectPlace (s : State) (st : Site) (k : Skein) (va : Word) : Except Trap (Nat × Nat) :=
  if va.toNat % 16 ≠ 0 then .error (dataTrap .align va .write)
  else if va.toNat / 2 ^ 48 ≠ 0xF then .error (dataTrap .prot va .write)
  else match s.window st.core k.ctx k.wgKey va 16 .atom (!(s.siteThread st).sup) with
    | .ok (.scr _ c off) => .ok (c, off)
    | _ => .error (dataTrap .prot va .write)

/-- One thread's BARI: the address first, then the count (18 R447). -/
def bariRun (x : FmtX) (st : Site) (l : LaneIn) (s : State) : State × Fate :=
  match s.skein st.core st.slot with
  | none => (s, .next)
  | some k => match s.objectPlace st k (word (l.val 0)) with
    | .error t => (s, .trap t)
    | .ok (c, off) =>
      if l.val 1 = 0 then (s, .trap { cause := .illegalField })
      else if s.tileBusy st.core st.slot (.scr k.wgKey c off) 16 true then (s, .wait .presence l.vals)
      else (s.enqueue st.core st.slot { act := .bari k.wgKey c off (l.val 1) (x.imm.getLsbD 0), lane := st.lane }, .next)

/-- BARI (18 R447). -/
def execBari (x : FmtX) (s : State) : Out State :=
  .next (s.runEach (.bari x) x.ctl 0 false { reads := pairReads x 4, run := bariRun x })

/-- One thread's BARA: an arrival through the store queue; an N of 0 only orders (18 R446, R447). -/
def baraRun (x : FmtX) (st : Site) (l : LaneIn) (s : State) : State × Fate :=
  match s.skein st.core st.slot with
  | none => (s, .next)
  | some k => match s.objectPlace st k (word (l.val 0)) with
    | .error t => (s, .trap t)
    | .ok (c, off) => match s.atomReady st k.wgKey (word (l.val 0)) (.scr k.wgKey c off) 16 with
      | (s, some (.wait w _)) => (s, .wait w l.vals)
      | (s, some f) => (s, f)
      | (s, none) =>
        let s := if x.ctl.flag then s.drainTo st.core st.slot x.ctl.scope.toNat else s
        (if l.val 1 = 0 then s else s.enqueue st.core st.slot
          { act := .arrive k.wgKey c off (l.val 1), rel := x.ctl.flag, scope := x.ctl.scope.toNat, lane := st.lane }, .next)

/-- BARA (18 R447). -/
def execBara (x : FmtX) (s : State) : Out State :=
  .next (s.runEach (.bara x) x.ctl 0 false { reads := pairReads x 4, run := baraRun x })

/-- One thread's BARW: errors first, then the phase (18 R447). -/
def barwRun (_x : FmtX) (st : Site) (l : LaneIn) (s : State) : State × Fate :=
  match s.skein st.core st.slot with
  | none => (s, .next)
  | some k =>
    let va := word (l.val 0)
    match s.objectPlace st k va with
    | .error t => (s, .trap { t with acc := .read })
    | .ok (c, off) =>
      if s.tileBusy st.core st.slot (.scr k.wgKey c off) 16 false then (s, .wait .barrier l.vals)
      else match s.readFor st.core st.slot (.scr k.wgKey c (off + 8)) 8 true with
      | (s, .absent) => (s, .wait .barrier l.vals)
      | (s, .ok bs [] _) =>
        let w := ofBytes bs
        if w.testBit 18 then (s, .trap { cause := .engineErr, addr := va })
        else if w.testBit 16 then (s, .trap { cause := .barErr, addr := va })
        else if w.testBit 0 != (l.val 1).testBit 0 then (s, .next)
        else (s, .wait .barrier l.vals)
      | (s, r) => match s.readFault st k.wgKey (va + 8) (.scr k.wgKey c (off + 8)) r with
        | some t => (s, .trap t)
        | none => (s, .next)

/-- BARW (18 R447). -/
def execBarw (x : FmtX) (s : State) : Out State :=
  .next (s.runEach (.barw x) x.ctl 0 false { reads := pairReads x 4, run := barwRun x })

/-- BARW_COMPLETE (18 R447): a waiting BARW reads its object again. -/
def execBarwComplete (core slot lane : Nat) (s : State) : Out State :=
  .next (match s.waitingFor core slot lane (· = .barrier) with
    | none => s
    | some w => match w.instr with
      | .barw x => s.retake core slot lane w (barwRun x)
      | _ => s)

-- SCRATCHPAD CONTROL

/-- The grant of a workgroup in bytes. -/
def State.grantOf (s : State) (wgk : Nat) : Nat := ((s.wg wgk).map (·.scratch)).getD 0

/-- The range of SPZ or SPABS (09 R253): cluster slot and offset, or the fault; none for a length of 0. -/
def State.lineRange (s : State) (st : Site) (k : Skein) (va : Word) (n : Nat) : Except Trap (Option (Nat × Nat)) :=
  let a := va.toNat
  let c := ((s.wg k.wgKey).bind (·.slotOf st.core)).getD 0
  let own := a / 2 ^ 48 == 0xF && ((bits a 40 8 == 0 && bits a 21 19 == 0) ||
    (bits a 40 8 == 1 && bits a 23 17 == 0 && bits a 21 2 == c))
  let grant := s.grantOf k.wgKey
  let off := bits a 0 21
  if a % 128 ≠ 0 ∨ n % 128 ≠ 0 then .error (dataTrap .align va .write)
  else if n = 0 then .ok none
  else if 2 ^ 52 ≤ a ∨ !own then .error (dataTrap .prot va .write)
  else if off + n ≤ grant then .ok (some (c, off))
  else .error (dataTrap .prot (va + word (grant - off)) .write)

/-- One thread's SPZ or SPABS: the range is checked, and the act on its lines queued as a store (09 R253). -/
def linesRun (act : Nat → Nat → Nat → Nat → SqAct) (st : Site) (l : LaneIn) (s : State) : State × Fate :=
  match s.skein st.core st.slot with
  | none => (s, .next)
  | some k => match s.lineRange st k (word (l.val 0)) (l.val 1) with
    | .error t => (s, .trap t)
    | .ok none => (s, .next)
    | .ok (some (c, off)) =>
      if s.tileBusy st.core st.slot (.scr k.wgKey c off) (l.val 1) true then (s, .wait .presence l.vals)
      else (s.enqueue st.core st.slot { act := act k.wgKey c off (l.val 1), lane := st.lane }, .next)

/-- SPZ (09 R253): zeroed and present. -/
def execSpz (x : FmtX) (s : State) : Out State :=
  .next (s.runEach (.spz x) x.ctl 0 false { reads := pairReads x 4, run := linesRun .spz })

/-- SPABS (09 R253): absent, with the data left. -/
def execSpabs (x : FmtX) (s : State) : Out State :=
  .next (s.runEach (.spabs x) x.ctl 0 false { reads := pairReads x 4, run := linesRun .spabs })

/-- One thread's SPCRD: a descriptor of 07 R194 is checked, then queued (09 R254). -/
def spcrdRun (x : FmtX) (st : Site) (l : LaneIn) (s : State) : State × Fate :=
  match s.skein st.core st.slot with
  | none => (s, .next)
  | some k =>
    let d := l.val 0
    let table := bits d 0 21
    let c := ((s.wg k.wgKey).bind (·.slotOf st.core)).getD 0
    if bits d 21 5 ≠ 0 ∨ table % 4 ≠ 0 then (s, .trap { cause := .illegalField })
    else if bits d 31 1 = 1 ∧ s.grantOf k.wgKey < table + 4 * (bits d 26 5 + 1) then
      let va := word (0xF * 2 ^ 48 + max table (s.grantOf k.wgKey))
      (s, .trap (dataTrap .prot va .read))
    else (s.enqueue st.core st.slot
      { act := .spcrd k.wgKey c (fld x.imm 0 2) (BitVec.ofNat 32 d), lane := st.lane }, .next)

/-- SPCRD (09 R254). -/
def execSpcrd (x : FmtX) (s : State) : Out State :=
  .next (s.runEach (.spcrd x) x.ctl 0 false { reads := fun _ => [.reg x.r1 4], run := spcrdRun x })

/-- CARVE's act: CARVECFG.ways of the context, in the device's copy and, as a release at .dev, in its entry (15 R382). -/
def carveRun (x : FmtX) (st : Site) (_ : LaneIn) (s : State) : State × Fate :=
  match s.skein st.core st.slot with
  | none => (s, .next)
  | some k =>
    let n := fld x.imm 0 4
    (((s.drainTo st.core st.slot 4).modVar k.ctx fun c => { c with carve := n }).putEntry k.ctx 0x2C (toBytes 1 n), .next)

/-- CARVE (09 R255). -/
def execCarve (x : FmtX) (s : State) : Out State :=
  .next (s.runEach (.carve x) x.ctl 0 false { run := carveRun x })

-- DDUPQ

/-- The place of the page that a thread names, readable as by an LD of the whole page (09 R256). -/
def State.pageFor (s : State) (st : Site) (k : Skein) (va : Nat) : State × Except Trap Place :=
  s.place st.core k.ctx k.wgKey (word (va / 4096 * 4096)) 4096 .load (!(s.siteThread st).sup)

/-- The words of a page, read as 512 loads; or why the read stops (09 R256). -/
def State.pageLoads (s : State) (st : Site) (wgk : Nat) (base : Word) (p : Place) (all : List Nat) :
    List Nat → List Nat → State × Except Fate (List Nat)
  | [], acc => (s, .ok acc)
  | i :: r, acc =>
    match s.readFor st.core st.slot (p.move (p.off + 8 * i)) 8 false with
    | (s, .absent) => (s, .error (.wait .presence all))
    | (s, .ok bs [] _) => s.pageLoads st wgk base p all r (acc ++ [ofBytes bs])
    | (s, q) => (s, match s.readFault st wgk (base + word (8 * i)) (p.move (p.off + 8 * i)) q with
        | some t => .error (.trap t)
        | none => .ok acc)

/-- The page that a thread names, read as an LD of it would read it: its place and words, or what the thread does instead (09
R231, R256). `linked` says that the host link has answered. -/
def State.pageRead (s : State) (st : Site) (k : Skein) (l : LaneIn) (linked : Bool) :
    State × Except Fate (Place × List Nat) :=
  match s.pageFor st k (l.val 0) with
  | (s, .error t) => (s, .error (.trap t))
  | (s, .ok p) =>
    let isHost := match p with
      | .host _ => true
      | _ => false
    if isHost && !linked then (s, .error (.wait .link l.vals))
    else if s.tileBusy st.core st.slot p 4096 false then (s, .error (.wait .presence l.vals))
    else match s.pageLoads st k.wgKey (word (l.val 0 / 4096 * 4096)) p l.vals (List.range 512) [] with
      | (s, .error f) => (s, .error f)
      | (s, .ok ws) => (s, .ok (p, ws))

/-- One thread's DDUPQ.fp: the fingerprint of the page (09 R256). -/
def ddupFpRun (x : FmtX) (linked : Bool) (st : Site) (l : LaneIn) (s : State) : State × Fate :=
  match s.skein st.core st.slot with
  | none => (s, .next)
  | some k => match s.pageRead st k l linked with
    | (s, .error f) => (s, f)
    | (s, .ok (_, ws)) => (s.hold st x.r1 8 (fingerprint ws) [], .next)

/-- One thread's DDUPQ.st: the page's entry, dedup-shared bit and refcount (09 R256, 15 R377). A page that is no memory
of the device has no entry. -/
def ddupStRun (x : FmtX) (linked : Bool) (st : Site) (l : LaneIn) (s : State) : State × Fate :=
  match s.skein st.core st.slot with
  | none => (s, .next)
  | some k => match s.pageRead st k l linked with
    | (s, .error f) => (s, f)
    | (s, .ok (p, _)) =>
      let off := (s.ctx k.ctx).fix.dedupBits = 0 ∨ l.val 0 / 2 ^ 48 = 0xF
      let pa := match p with
        | .dev a => some a
        | .unc a => some a
        | _ => none
      match s.walkOnly k.ctx (l.val 0) .read false with
      | (s', .ok (lf, _)) =>
        if off then (s.hold st x.r1 8 0 [], .next)
        else
          let v := match pa.bind fun a => s'.wayOf k.ctx (a / 4096) (fingerprint (s'.pageWords (a / 4096 * 4096))) with
            | some a => 2 ^ 17 + bits (natAt s'.mem.bytes (a + 8) 8) 40 16
            | none => 0
          (s'.hold st x.r1 8 (v + bits lf.pte 4 1 * 2 ^ 16) [], .next)
      | _ => (s.hold st x.r1 8 0 [], .next)

/-- DDUPQ.fp (09 R256). -/
def execDdupqFp (x : FmtX) (s : State) : Out State :=
  .next (s.runEach (.ddupqFp x) x.ctl 0 false
    { reads := fun _ => [.reg x.r2 8], dsts := fun _ => [(x.r1, 8, 1)], run := ddupFpRun x false })

/-- DDUPQ.st (09 R256). -/
def execDdupqSt (x : FmtX) (s : State) : Out State :=
  .next (s.runEach (.ddupqSt x) x.ctl 0 false
    { reads := fun _ => [.reg x.r2 8], dsts := fun _ => [(x.r1, 8, 1)], run := ddupStRun x false })

end Sys2Proof.Machine
end

