-- ==== Sys2Proof/Machine/Engine.lean ====
section
/-! DEFINITION. What the Shuttle and the tile commands share: accesses of an engine (07 R175, R192, R197, R203), layout
entries and elements (15 R371 to R373), conversion (09 R248), and completions (09 R250, 18 R446). -/

namespace Sys2Proof.Machine

/-- On whose behalf an engine acts, with the compressed-region descriptors that its command uses (09 R254). -/
structure Who where
  core : Nat
  ctx : Nat
  wg : Nat
  cslot : Nat
  user : Bool
  cpy : Bool
  descs : SMap (BitVec 32) := []

/-- Why an engine stops: a page fault that parks it, an engine error, or a line that is not present. -/
inductive EngStop where
  | page (c : Cause) (va : Word) (acc : AccKind)
  | abort
  | wait
  deriving DecidableEq, Repr

/-- A state with what an engine's action gave. -/
abbrev Eng (α : Type) := State × Except EngStop α

/-- One action after another. -/
def engThen {α β : Type} (x : Eng α) (f : α → State → Eng β) : Eng β :=
  match x with
  | (s, .ok a) => f a s
  | (s, .error e) => (s, .error e)

/-- The stop that a translation fault causes (09 R249). -/
def stopOf (c : Cause) (va : Nat) (acc : AccKind) : EngStop :=
  if c.replayable then .page c (word va) acc else .abort

/-- An engine's address checked and placed (07 R174, R175): registers for CPY alone, no strip ring, and an aperture for
a write as well. -/
def State.engPlace (s : State) (w : Who) (va n : Nat) (acc : AccKind) : Eng Place :=
  if 2 ^ 52 ≤ va then (s, .error .abort)
  else if va / 2 ^ 48 = 0xF then
    match s.window w.core w.ctx w.wg (word va) n .load true with
    | .ok (.reg a b c) => (s, if w.cpy then .ok (.reg a b c) else .error .abort)
    | .ok p => (s, .ok p)
    | .error _ => (s, .error .abort)
  else if acc = .write ∧ s.cowWaits w.core w.ctx va w.user w.cpy then (s, .error .wait)
  else match s.translate w.core w.ctx va acc w.user with
    | (s, .error c) => (s, .error (stopOf c va acc))
    | (s, .ok (pa, kind)) => match kind with
      | 0 => (s, .ok (.dev pa))
      | 1 => (s, .ok (.host pa))
      | 2 => (s, if acc = .write then .ok (.peer pa) else .error .abort)
      | _ => (s, .ok (.unc pa))

/-- What a read through an aperture gives an engine. -/
def aperEng (s : State) : Except AperErr (List Byte × List Nat) → Eng (List Byte × Bool)
  | .ok (bs, bad) => (s, .ok (bs, bad ≠ []))
  | .error .wait => (s, .error .wait)
  | .error _ => (s, .error .abort)

/-- Bytes that an engine reads at a place, at the home slices, and whether one is poisoned or bad (07 R177, R203); what the
host link reports as unsupported comes as all ones, poisoned, and is counted (07 R179, log entry 94). -/
def State.engGet (s : State) (core ctx : Nat) (p : Place) (n : Nat) : Eng (List Byte × Bool) :=
  match p with
  | .host pa =>
    if s.linkDenies pa n then (s.count ctx 13 1, .ok (List.replicate n 0xFF, true))
    else (s, .ok (bytesAt s.mem.host pa n, false))
  | .dev pa => let r := s.homeRead pa n none; (r.1, .ok (r.2.1, r.2.2 ≠ []))
  | .unc pa => let r := s.homeRead pa n none; (r.1, .ok (r.2.1, r.2.2 ≠ []))
  | _ => match s.readPlace core p n true with
    | (s, .ok bs bad1 bad2) => (s, .ok (bs, bad1 ≠ [] || bad2 ≠ []))
    | (s, .absent) => (s, .error .wait)
    | (s, _) => (s, .error .abort)

/-- An L1 line of a core that holds bytes which its engine has written: a tile store updates it, and so does any engine where
it is dirty; another clean line keeps the value it was filled with (07 R190, 08 R221, 10 R271, log entry 7). -/
def State.touchL1 (s : State) (core pa : Nat) (bs : List Byte) (bad : List Nat) (tile : Bool) : State :=
  match look (s.core core).l1 (pa / 128) with
  | none => s
  | some l =>
    if tile || l.dirty then
      let l := l.store (pa % 128) bs false
      s.modCore core fun c =>
        { c with l1 := ins (pa / 128) { l with poison := addAll (bad.map (· % 16)) l.poison } c.l1 }
    else s

/-- Bytes that an engine writes at a place; poisoned data poisons the words it touches (07 R203, R204). -/
def State.engPut (s : State) (core ctx : Nat) (p : Place) (bs : List Byte) (bad tile : Bool) : State :=
  let words (a : Nat) : List Nat := if bad then units 8 a bs.length else []
  match p with
  | .dev pa => (s.homeWrite pa bs (words pa) none).touchL1 core pa bs (words pa) tile
  | .unc pa => s.homeWrite pa bs (words pa) none
  | .host pa => s.linkPut ctx pa bs false
  | .peer pa => s.linkPut ctx pa bs true
  | .scr w c off => s.modPart w c fun x => x.store off bs (words off)
  | .reg slot lane off => s.modThread core slot lane fun th =>
      if th.gone then th
      else
        let t := (th.at s.cycle).store (numbered off bs)
        if bad then { t with bad := addAll (units 4 off bs.length) t.bad } else t
  | _ => s

/-- Bytes that an engine reads at an address. -/
def State.engRead (s : State) (w : Who) (va n : Nat) : Eng (List Byte × Bool) :=
  engThen (s.engPlace w va n .read) fun p s => match p with
    | .aper k c off => aperEng s (({ s.part k c with desc := w.descs } : Part).aperRead (s.grantOf k) off n)
    | _ => s.engGet w.core w.ctx p n

/-- Bytes that an engine writes at an address; an aperture takes no plain write (07 R197). -/
def State.engWrite (s : State) (w : Who) (va : Nat) (bs : List Byte) (bad : Bool) : Eng Unit :=
  engThen (s.engPlace w va bs.length .write) fun p s => match p with
    | .aper _ _ _ => (s, .error .abort)
    | _ => (s.engPut w.core w.ctx p bs bad (!w.cpy), .ok ())

-- LAYOUTS

/-- The formats of 1, 2 and 4 bits, which are packed in memory (15 R372). -/
def packedFmt (code : Nat) : Bool := code == 8 || (decide (13 ≤ code) && decide (code ≤ 16))

/-- The block formats. -/
def blockFmt (code : Nat) : Bool := decide (17 ≤ code) && decide (code ≤ 31)

/-- Bytes of the container of a plain format in memory (06 R147, 15 R372). -/
def layContainer (code : Nat) : Nat := if code = 32 then 4 else container code

/-- Bytes of a block record (15 R372). -/
def recordBytes (code : Nat) : Nat :=
  let b := blockOf code
  b.scale + b.size * elemWidth b.elem / 8

/-- The 80 bytes of an entry taken apart; none where it is not valid (15 R371, R373). -/
def layoutOf (bs : List Byte) : Option Layout :=
  let n (off k : Nat) : Nat := ofBytes ((bs.drop off).take k)
  let l : Layout := {
    ext := (List.range 6).map fun j => n (4 * j) 4
    stride := (List.range 6).map fun j => sgn 64 (n (24 + 8 * j) 8)
    fmt := n 72 1, zbits := n 73 1, zsrc := n 74 1 }
  let ok := n 75 1 == 1 && n 76 4 == 0 && decide (l.fmt ≤ 32) && decide (l.zbits ≤ 3) &&
    (l.zbits == 0 || (decide (7 ≤ l.zsrc) && decide (l.zsrc ≤ 40))) &&
    (!(packedFmt l.fmt || blockFmt l.fmt) || l.stride.headD 0 == 0) &&
    (!blockFmt l.fmt || l.ext.headD 0 % (blockOf l.fmt).size == 0)
  if ok then some l else none

/-- The bytes of layout entry n of a context, read at the home slices, and whether one is poisoned (15 R369 to R371). -/
def State.layBytes (s : State) (w : Who) (n : Nat) : Eng (List Byte × Bool) :=
  let base := (s.ctx w.ctx).var.layoutBase + 80 * n
  let who := { w with user := false, cpy := false }
  -- 80 bytes may lie on two pages
  let first := min 80 (4096 - base % 4096)
  engThen (s.engRead who base first) fun a s =>
    engThen (if first = 80 then (s, .ok ([], false)) else s.engRead who (base + first) (80 - first)) fun b s =>
      (s, .ok (a.1 ++ b.1, a.2 || b.2))

/-- Layout entry n of a context; a poisoned or invalid one aborts. -/
def State.layout (s : State) (w : Who) (n : Nat) : Eng Layout :=
  engThen (s.layBytes w n) fun a s =>
    match layoutOf a.1 with
    | some l => (s, if a.2 then .error .abort else .ok l)
    | none => (s, .error .abort)

/-- Offset of 15 R372 over the dimensions from j0 on, as a 64-bit number. -/
def Layout.offset (l : Layout) (i : List Int) (j0 : Nat) : Nat :=
  let o := wrapInt 64 (((i.zip l.stride).drop j0).foldl (fun (acc : Int) p => acc + p.1 * p.2) 0)
  if l.zbits = 0 then o else Nat.xor o (bits o l.zsrc l.zbits * 16)

/-- Where an element lies: the address of its first byte, its bit there, its width in bits, and for a block format the
address of its scale. -/
structure ElemAt where
  va : Nat
  bit : Nat
  width : Nat
  scale : Option Nat
  deriving DecidableEq, Repr

/-- The place of an element (15 R372); the address wraps at 64 bits. -/
def Layout.elem (l : Layout) (base : Nat) (i : List Int) : ElemAt :=
  let i0 := (i.headD 0).toNat
  if packedFmt l.fmt then
    let w := elemWidth l.fmt
    { va := (base + l.offset i 1 + i0 * w / 8) % 2 ^ 64, bit := i0 * w % 8, width := w, scale := none }
  else if blockFmt l.fmt then
    let b := blockOf l.fmt
    let w := elemWidth b.elem
    let r := (base + l.offset i 1 + i0 / b.size * recordBytes l.fmt) % 2 ^ 64
    { va := (r + b.scale + i0 % b.size * w / 8) % 2 ^ 64, bit := i0 % b.size * w % 8, width := w, scale := some r }
  else { va := (base + l.offset i 0) % 2 ^ 64, bit := 0, width := 8 * layContainer l.fmt, scale := none }

/-- Bytes that an element touches. -/
def ElemAt.span (e : ElemAt) : Nat := (e.bit + e.width + 7) / 8

/-- Whether an element's address is a multiple of its container (15 R373). -/
def Layout.aligned (l : Layout) (e : ElemAt) : Bool :=
  packedFmt l.fmt || blockFmt l.fmt || e.va % layContainer l.fmt == 0

/-- The value that a container of a plain format holds. -/
def layRaw (code x : Nat) : Nat := if code = 1 then bits x 13 19 else x % 2 ^ elemWidth code

/-- The container of a plain format's value. -/
def layBox (code x : Nat) : Nat := if code = 1 then x * 2 ^ 13 else x

/-- An element read: its bits, its block's scale, and whether a byte of it, or of the scale, is poisoned. -/
structure Elem where
  raw : Nat
  scale : Nat := 0
  bad : Bool := false
  sbad : Bool := false
  deriving DecidableEq, Repr

/-- Whether an element's value rests on poisoned data. -/
def Elem.poisoned (x : Elem) : Bool := x.bad || x.sbad

/-- An element read from memory. -/
def State.readElem (s : State) (w : Who) (l : Layout) (e : ElemAt) : Eng Elem :=
  if !l.aligned e then (s, .error .abort)
  else engThen (s.engRead w e.va e.span) fun r s =>
    let x := bits (ofBytes r.1) e.bit e.width
    match e.scale with
    | none => (s, .ok { raw := if packedFmt l.fmt then x else layRaw l.fmt x, bad := r.2 })
    | some a => engThen (s.engRead w a (blockOf l.fmt).scale) fun q s =>
        (s, .ok { raw := x, scale := ofBytes q.1, bad := r.2, sbad := q.2 })

/-- The bytes that an element of less than a byte is written into, as they stand: an absent line does not hold the write up (07
R497). -/
def State.engOld (s : State) (w : Who) (p : Place) (n : Nat) : Eng (List Byte) :=
  match p with
  | .scr k c off => (s, .ok (bytesAt (s.part k c).bytes off n))
  | .aper _ _ _ => (s, .error .abort)
  | _ => engThen (s.engGet w.core w.ctx p n) fun r s => (s, .ok r.1)

/-- An element written to memory; the first element of a block brings its scale. -/
def State.writeElem (s : State) (w : Who) (l : Layout) (e : ElemAt) (first : Bool) (x : Elem) : Eng Unit :=
  if !l.aligned e then (s, .error .abort)
  else
    let put (s : State) : Eng Unit :=
      if e.bit = 0 ∧ e.width % 8 = 0 then
        s.engWrite w e.va (toBytes e.span (if blockFmt l.fmt then x.raw else layBox l.fmt x.raw)) x.bad
      else engThen (s.engPlace w e.va e.span .write) fun p s =>
        engThen (s.engOld w p e.span) fun old s =>
          (s.engPut w.core w.ctx p (toBytes e.span (setBits (ofBytes old) e.bit e.width x.raw)) x.bad (!w.cpy), .ok ())
    match e.scale with
    | none => put s
    | some a =>
      if first then engThen (s.engWrite w a (toBytes (blockOf l.fmt).scale x.scale) x.sbad) fun _ s => put s
      else put s

-- CONVERSION

/-- Whether 09 R248 gives a conversion under a rounding (0 RNE, 1 RTZ, 2 SR). -/
def convOk (src dst mode : Nat) : Bool :=
  let int (c : Nat) : Bool := decide (9 ≤ c) && decide (c ≤ 16)
  (decide (src ≤ 8) && decide (dst ≤ 8)) || (decide (src ≤ 8) && int dst && mode != 2) ||
  (int src && decide (dst ≤ 8)) || (int src && int dst && mode != 2) || (blockFmt src && decide (dst ≤ 8))

/-- The value of an element in its format. -/
def Elem.val (code : Nat) (x : Elem) : Val :=
  if blockFmt code then blockVal code x.scale x.raw else elemVal code x.raw

/-- conv of 09 R248: the destination's bits. -/
def convElem (src dst mode : Nat) (sat : Bool) (r : Nat) (x : Elem) : Nat :=
  let v := x.val src
  let v := if blockFmt src then f32.val (f32.arith .rne v) else v
  if dst ≤ 8 then
    if mode = 2 then (fmtOf dst).sr (f32.cvt .rne false v) r sat else (fmtOf dst).cvt (rmOf mode) sat v
  else elemBits dst (rmOf mode) sat v

/-- The draw of SR for an element (09 R247, 06 R173). -/
def srDraw (seed n : Nat) : Nat := mix32 (Nat.xor (mix32 (n % 2 ^ 32)) seed)

-- COMPRESSED TILES

/-- The payload and code of a 256-byte block, by the lowest code that represents it (07 R196, R197). -/
def packBlock (ws : List Nat) : Nat × List Byte :=
  let base := ws.headD 0
  let fits (k : Nat) : Bool := ws.all fun w => wrap 32 (base + sextNat 32 k (wrap 32 (w + 2 ^ 32 - base))) == w
  let deltas (k : Nat) : List Byte := ws.flatMap fun w => toBytes (k / 8) (wrap 32 (w + 2 ^ 32 - base))
  if ws.all (· == 0) then (0, [])
  else if ws.all (· == base) then (1, toBytes 4 base)
  else if fits 8 then (2, toBytes 4 base ++ deltas 8)
  else if fits 16 then (3, toBytes 4 base ++ deltas 16)
  else (4, ws.flatMap (toBytes 4))

/-- The stored image of a 4 KiB tile: header, payloads, padding to 32 bytes (07 R196). -/
def packTile (bs : List Byte) : List Byte :=
  let blocks := (List.range 16).map fun b => packBlock ((List.range 64).map fun j =>
    ofBytes ((bs.drop (256 * b + 4 * j)).take 4))
  let body := toBytes 8 (joinElems 4 (blocks.map (·.1))) ++ blocks.flatMap (·.2)
  body ++ List.replicate ((32 - body.length % 32) % 32) 0

/-- The storage of an aperture's tile for a command, by the descriptors of its placement (07 R195, 09 R254). -/
def State.tileStore (s : State) (w : Who) (off : Nat) : Except AperErr (Nat × Nat × Bool) :=
  ({ s.part w.wg w.cslot with desc := w.descs } : Part).tile (s.grantOf w.wg) off

/-- A whole tile written through an aperture (07 R197): aborts where its image exceeds the capacity. One poisoned word of the
data poisons the whole image, and a poisoned tile-offset entry is used as it stands (log entry 100). -/
def State.putTile (s : State) (w : Who) (off : Nat) (bs : List Byte) (bad : Bool) : Eng Unit :=
  match s.tileStore w off with
  | .error .wait => (s, .error .wait)
  | .error _ => (s, .error .abort)
  | .ok (store, cap, _) =>
    let img := packTile bs
    if cap < img.length ∨ s.grantOf w.wg < store + img.length then (s, .error .abort)
    else (s.engPut w.core w.ctx (.scr w.wg w.cslot store) img bad false, .ok ())

-- COMPLETIONS

/-- The address checks of a stamp at placement (09 R245): ALIGN, then step 2 of R231 for an ST. -/
def State.stampFault (s : State) (core : Nat) (k : Skein) (va : Word) (user : Bool) : Option Trap :=
  if va.toNat % 8 ≠ 0 then some (dataTrap .align va .write)
  else if 2 ^ 52 ≤ va.toNat then some (dataTrap .prot va .write)
  else if va.toNat / 2 ^ 48 = 0xF then
    match s.window core k.ctx k.wgKey va 8 .store user with
    | .ok _ => none
    | .error c => some (dataTrap c va .write)
  else none

/-- The fault of a barrier tag at placement (09 R245): 16-byte aligned and inside the grant. -/
def State.barrierFault (s : State) (wgk off : Nat) : Option Trap :=
  let va := word (0xF * 2 ^ 48 + off)
  if off % 16 ≠ 0 ∨ s.grantOf wgk < off + 16 then some (dataTrap .prot va .write) else none

/-- The generation that a barrier object holds now (09 R245). -/
def State.generation (s : State) (wgk cslot off : Nat) : Nat :=
  bits (natAt (s.part wgk cslot).bytes (off + 8) 8) 1 15

/-- The event of a completion that could not be stored (09 R250, 11 R299). -/
def Done.dropEvent (d : Done) (core : Nat) (grid lin : Nat) (va : Word) : Event :=
  { kind := 6, core := core, slot := d.slot, grid := grid, wg := lin, addr := va }

/-- The stamp of a completion stored as an ST of the issuing thread would be: done, parked on a page fault, or dropped
with an event (09 R250). -/
def State.stampStore (s : State) (core : Nat) (d : Done) (va : Word) (v : Nat) : Eng Unit :=
  let lin := (s.wg d.wg).map fun w => (w.grid, w.lin)
  let lost (s : State) : Eng Unit :=
    (s.post d.ctx false (d.dropEvent core ((lin.map (·.1)).getD 0) ((lin.map (·.2)).getD 0) va), .ok ())
  match s.place core d.ctx d.wg va 8 .store d.user with
  | (s, .ok p) =>
    let s := s.release core (decide (3 ≤ d.scope) || (d.scope == 1 && decide (1 < ((s.wg d.wg).map (·.cluster.length)).getD 1)))
    (s.storeAt core d.ctx p (toBytes 8 v) [] (s.isPrivate core d.slot d.ctx va.toNat), .ok ())
  | (s, .error t) => if t.cause.replayable then (s, .error (.page t.cause va .write)) else lost s

/-- An engine's arrival at a barrier object (18 R446); one whose workgroup has exited is discarded and counted. -/
def State.engArrive (s : State) (d : Done) (off gen : Nat) : Eng Unit :=
  match s.wg d.wg with
  | none => (s.count d.ctx 17 1, .ok ())
  | some _ =>
    let x := s.part d.wg d.cslot
    if x.missing off 16 ≠ [] then (s, .error .wait)
    else
      let amount := if bits (natAt x.bytes (off + 8) 8) 17 1 = 1 then 1 else d.bytes
      let r := x.arrive off amount gen true d.failed
      let s := s.modPart d.wg d.cslot fun _ => r.1
      (if r.2 then s.count d.ctx 17 1 else s, .ok ())

/-- A completion performs (09 R250): its stamp, its arrival, or, for an aborted command without a tag, a kind-5 event.
A context that is being reset has none performed (19 R460). -/
def State.complete (s : State) (core : Nat) (d : Done) : Eng Unit :=
  if (s.ctx d.ctx).resetting then (s, .ok ()) else match d.tag with
  | .none =>
    if d.failed then
      let w := s.wg d.wg
      (s.post d.ctx false { kind := 5, core := core, slot := d.slot, grid := (w.map (·.grid)).getD 0,
                            wg := (w.map (·.lin)).getD 0, extra := d.dst }, .ok ())
    else (s, .ok ())
  | .barrier off gen => s.engArrive d off gen
  | .stamp va v =>
    let flag := d.only && (s.core core).aborts.contains (d.wg, d.skein)
    let s1 := s.stampStore core d va (v + if d.failed || flag then 2 ^ 63 else 0)
    engThen s1 fun _ s => (if d.only then s.modCore core fun c =>
      { c with aborts := c.aborts.filter fun a => a != (d.wg, d.skein) } else s, .ok ())

/-- A kind-1 event for an engine that a page fault parks, and what the host's answer resumes (07 R186, 11 R299). -/
def State.engFault (s : State) (ctx core slot wgk : Nat) (c : Cause) (va : Word) (acc : AccKind) (r : Resumes) : State :=
  let w := s.wg wgk
  s.postFault ctx { kind := 1, core := core, slot := slot, cause := causeWord c false false, addr := va,
                    grid := (w.map (·.grid)).getD 0, wg := (w.map (·.lin)).getD 0, detail := 8 + accDetail acc } r

end Sys2Proof.Machine
end

