-- ==== Sys2Proof/Machine/Shuttle.lean ====
section
/-! DEFINITION. The Shuttle (09 R244 to R252, 11 R297, 18 R443): CPY, CPYQ, STAMP, and the steps that start, walk and
complete its commands. -/

namespace Sys2Proof.Machine

-- THE COMMAND (09 R244)

/-- Fields of a command's 32 bytes. -/
def ShCmd.src (c : ShCmd) : Nat := bits c.body 0 64
def ShCmd.dst (c : ShCmd) : Nat := bits c.body 64 64
def ShCmd.scope (c : ShCmd) : Nat := bits c.body 157 3
def ShCmd.pres (c : ShCmd) : Bool := c.body.testBit 156
def ShCmd.compress (c : ShCmd) : Bool := c.body.testBit 155
def ShCmd.dedup (c : ShCmd) : Bool := c.body.testBit 154
def ShCmd.mode (c : ShCmd) : Nat := bits c.body 152 2
def ShCmd.sat (c : ShCmd) : Bool := c.body.testBit 145
def ShCmd.convert (c : ShCmd) : Bool := c.body.testBit 144

/-- On whose behalf a command acts. -/
def ShCmd.who (c : ShCmd) (core : Nat) : Who :=
  { core := core, ctx := c.ctx, wg := c.wg, cslot := c.cslot, user := c.user, cpy := true, descs := c.descs }

/-- The source and destination layout entries (15 R370). -/
def State.shLayouts (s : State) (core : Nat) (c : ShCmd) : Eng (Layout × Layout) :=
  engThen (s.layout (c.who core) (bits c.body 128 8)) fun a s =>
    engThen (s.layout (c.who core) (bits c.body 136 8)) fun b s => (s, .ok (a, b))

/-- Elements of a walk. -/
def Layout.total (l : Layout) : Nat := l.ext.foldl (· * ·) 1

/-- The coordinates of the n-th element, dimension 0 fastest (09 R247). -/
def coordsOf : List Nat → Nat → List Int
  | [], _ => []
  | e :: r, n => ((n % e : Nat) : Int) :: coordsOf r (n / e)

/-- An element's bytes added to a cover: a mask of each 8-byte word. -/
def coverAdd (m : SMap Nat) (a n : Nat) (bad : Bool) : SMap Nat :=
  (upFrom a n).foldl (fun m b => set 0 (b / 8)
    (Nat.lor (lookD 0 m (b / 8)) (2 ^ (b % 8) + if bad then 256 else 0)) m) m

/-- The bytes that writing an element touches: its own, and its block's scale at the first element of a block. -/
def Layout.pieces (l : Layout) (e : ElemAt) (i : List Int) : List (Nat × Nat) :=
  (e.va, e.span) :: match e.scale with
    | some a => if (i.headD 0).toNat % (blockOf l.fmt).size = 0 then [(a, (blockOf l.fmt).scale)] else []
    | none => []

/-- Those bytes added to a cover. -/
def coverPieces (m : SMap Nat) (ps : List (Nat × Nat)) (bad : Bool) : SMap Nat :=
  ps.foldl (fun m p => coverAdd m p.1 p.2 bad) m

/-- The bytes of an element, and of its scale, added to the cover of what has been written. -/
def coverElem (m : SMap Nat) (ps : List (Nat × Nat)) (x : Elem) : SMap Nat :=
  coverPieces (coverPieces m (ps.take 1) x.bad) (ps.drop 1) x.sbad

/-- The destination bytes that a walk names. -/
def destCover (c : ShCmd) (l : Layout × Layout) (from_ : Nat) : SMap Nat :=
  (upFrom from_ (l.1.total - from_)).foldl (fun m n =>
    let i := coordsOf l.1.ext n
    coverPieces m (l.2.pieces (l.2.elem c.dst i) i) false) []

/-- The number of bytes of a cover. -/
def coverBytes (m : SMap Nat) : Nat := (m.map fun p => bitsSet 8 p.2).foldl (· + ·) 0

/-- Whether an address lies in a compressed aperture. -/
def inAperture (a : Nat) : Bool := a / 2 ^ 48 == 0xF && decide (bits a 40 8 ≤ 1) && decide (0x180000 ≤ bits a 0 21)

/-- The scratchpad lines of the issuer's grant that a cover names by windows 0x00 and 0x01; for an aperture, the lines of the
storage that its tiles have (07 R197, log entry 101). -/
def State.coverLines (s : State) (w : Who) (m : SMap Nat) : List Nat :=
  let plain := m.filterMap fun p =>
    let a := 8 * p.1
    if a / 2 ^ 48 = 0xF ∧ bits a 40 8 ≤ 1 ∧ bits a 0 21 < 0x180000 then some (bits a 0 21 / 128) else none
  let tiles := ((m.filter fun p => inAperture (8 * p.1)).map fun p => bits (8 * p.1) 0 21 / 4096).dedup
  let stored := tiles.flatMap fun t => match s.tileStore w (4096 * t) with
    | .ok (store, cap, _) => units 128 store cap
    | .error _ => []
  (plain ++ stored).dedup.filter fun k => decide (128 * k < s.grantOf w.wg)

/-- Whether a cover is made of whole units of u bytes. -/
def coverWhole (m : SMap Nat) (u : Nat) : Bool :=
  (m.map fun p => 8 * p.1 / u).dedup.all fun k =>
    (m.filter fun p => decide (8 * p.1 / u = k ∧ p.2 % 256 = 255)).length == u / 8

/-- Bytes of a walk of n elements in a format, whole block records for a block format. -/
def walkBytes (code n : Nat) : Nat :=
  if blockFmt code then ceilDiv n (blockOf code).size * recordBytes code
  else ceilDiv (n * if packedFmt code then elemWidth code else 8 * layContainer code) 8

/-- Whether every page of a dedup command's destination has a leaf that 09 R251 asks for. -/
def State.dedupLeaves (s : State) (c : ShCmd) (pages : List Nat) : Bool :=
  pages.all fun p => match s.walkOnly c.ctx (4096 * p) .read c.user with
    | (_, .ok (lf, _)) => lf.level == 3 && bits lf.pte 7 1 == 0 && bits lf.pte 3 1 == 1 && bits lf.pte 8 2 == 0 &&
        (bits lf.pte 1 1 == 1 || bits lf.pte 4 1 == 1)
    | _ => false

/-- The checks of 09 R246 before a byte is written. -/
def State.shCheck (s : State) (core : Nat) (c : ShCmd) (l : Layout × Layout) : Bool :=
  let n := l.1.total
  let m := destCover c l 0
  let w := c.who core
  let window (a k : Nat) : Bool := decide (a / 2 ^ 48 ≠ 0xF) || (s.engPlace w a k .read).2.toOption.isSome
  decide (walkBytes l.1.fmt n ≤ 2 ^ 20) && decide (walkBytes l.2.fmt n ≤ 2 ^ 20) &&
  (if c.convert then convOk l.1.fmt l.2.fmt c.mode else l.1.fmt == l.2.fmt) &&
  (if c.compress then m.all (fun p => inAperture (8 * p.1)) && coverWhole m 4096
    else m.all fun p => !inAperture (8 * p.1)) &&
  ((List.range n).all fun i =>
    let e := l.1.elem c.src (coordsOf l.1.ext i)
    let d := l.2.elem c.dst (coordsOf l.1.ext i)
    window e.va e.span && window d.va d.span) &&
  (!c.dedup || (!c.pres && !c.compress && (s.ctx c.ctx).fix.dedupBits != 0 && coverWhole m 4096 &&
    coverBytes m == walkBytes l.2.fmt n && s.dedupLeaves c ((m.map fun p => p.1 / 512).dedup)))

-- DEDUPLICATION (09 R251)

/-- The leaf of a destination page. -/
def State.leafOf (s : State) (ctx va : Nat) : Option Leaf :=
  match s.walkOnly ctx va .read false with
  | (_, .ok (lf, _)) => some lf
  | _ => none

/-- A leaf written, with its page dropped from every TLB (08 R230). -/
def State.putLeaf (s : State) (ctx va : Nat) (l : Leaf) (frame : Nat) (shared : Bool) : State :=
  let e := setBits l.pte 12 40 frame
  let e := if shared then setBits (setBits e 4 1 1) 1 1 0 else e
  (s.homeWrite l.at_ (toBytes 8 e) [] none).dropTlb (s.ctx ctx).fix.asid (va / 4096 * 4096) 4096 false

/-- A valid way of a bucket whose fingerprint is F, and the lowest free way (09 R251, 15 R375). -/
def State.dedupWays (s : State) (ctx f : Nat) : Option Nat × Option Nat :=
  let c := s.ctx ctx
  let ways := (List.range 4).map (c.wayAt (bucketOf c.fix.dedupBits f))
  let valid (a : Nat) : Bool := natAt s.mem.bytes (a + 8) 8 / 2 ^ 63 == 1
  (ways.find? fun a => valid a && natAt s.mem.bytes a 8 == f, ways.find? fun a => !valid a)

/-- A way's two words. -/
def State.putWay (s : State) (a f ref frame : Nat) : State :=
  s.homeWrite a (toBytes 8 f ++ toBytes 8 (2 ^ 63 + ref % 2 ^ 16 * 2 ^ 40 + frame)) [] none

/-- One destination page whose last byte has been formed (09 R251); one that is no longer present parks the command (09 R249),
and a frame's event that cannot be held makes it wait (11 R299). -/
def State.dedupPage (s : State) (ctx va : Nat) (page : List Byte) (bad : List Nat) : Eng Unit :=
  match s.leafOf ctx va with
  | none => (s, .error (.page .page (word va) .write))
  | some l0 =>
    let mine := bits l0.pte 4 1 = 1
    let s1 : Except Cause State := if mine then s.cow ctx va l0 false else .ok s
    if mine ∧ !s.loneWay ctx (bits l0.pte 12 40) ∧ (s.ctx ctx).frameWaits then (s, .error .wait) else match s1 with
    | .error c => (s, .error (.page c (word va) .write))
    | .ok s =>
      match s.leafOf ctx va with
      | none => (s, .error .abort)
      | some l =>
        let frame := bits l.pte 12 40
        let f := fingerprint ((List.range 512).map fun i => ofBytes ((page.drop (8 * i)).take 8))
        let put (s : State) : State := (s.homeWrite (4096 * frame) page (bad.map (512 * frame + ·)) none).dropPageLines
          (4096 * frame)
        let (hit, spare) := s.dedupWays ctx f
        let insert (s : State) (a : Nat) : State := (s.putWay a f 1 frame).putLeaf ctx va l frame true
        match hit with
        | some a =>
          let w1 := natAt s.mem.bytes (a + 8) 8
          let ref := bits w1 40 16
          if ref = 0xFFFF then (insert (put s) a, .ok ())
          else
            let s := s.recallRange (4096 * bits w1 0 40) 4096 none
            let same := bytesAt s.mem.bytes (4096 * bits w1 0 40) 4096 == page
            match if same then s.addFrame ctx (4096 * frame) else none with
            | some s =>
              ((s.putWay a f (min (ref + 1) 0xFFFF) (bits w1 0 40)).putLeaf ctx va l (bits w1 0 40) true, .ok ())
            | none => (if same then put s else (put s).count ctx 18 1, .ok ())
        | none => (match spare with
          | some a => insert (put s) a
          | none => put s, .ok ())

-- THE WALK (09 R247)

/-- A poisoned word that clean bytes have covered whole loses its poison (07 R202). -/
def State.unpoison (s : State) (p : Place) : State :=
  match p with
  | .dev pa => { s with mem := { s.mem with poison := dropFrom (pa / 8) s.mem.poison } }
  | .unc pa => { s with mem := { s.mem with poison := dropFrom (pa / 8) s.mem.poison } }
  | .scr w c off => s.modPart w c fun x => { x with poison := dropFrom (off / 8) x.poison }
  | _ => s

/-- Words of the cover that an element has just filled with clean bytes. -/
def State.coverDone (s : State) (w : Who) (m : SMap Nat) (a n : Nat) : State :=
  (units 8 a n).foldl (fun s k =>
    if lookD 0 m k = 255 then
      match s.engPlace w (8 * k) 8 .read with
      | (s, .ok p) => s.unpoison p
      | (s, _) => s
    else s) s

/-- The bytes of an element in its place's first bytes, taken over what stands there. -/
def elemBytes (l : Layout) (e : ElemAt) (x : Elem) (old : List Byte) : List Byte :=
  toBytes e.span (setBits (ofBytes old) e.bit e.width (if packedFmt l.fmt || blockFmt l.fmt then x.raw else layBox l.fmt x.raw))

/-- An element written to the buffer of a dedup or compressing command, with its block's scale; a page or tile that is complete
goes out. An aperture's address is checked as any window's is (07 R174 to R176). -/
def State.bufElem (s : State) (w : Who) (c : ShCmd) (l : Layout) (e : ElemAt) (i : List Int) (x : Elem) : Eng ShCmd :=
  let window := e.va / 2 ^ 48 = 0xF
  if !l.aligned e ∨ (window ∧ (s.engPlace w e.va e.span .write).2.toOption.isNone) then (s, .error .abort)
  else
    let ps := l.pieces e i
    let buf := putBytes e.va (elemBytes l e x (bytesAt c.buf e.va e.span)) c.buf
    let buf := (ps.drop 1).foldl (fun m p => putBytes p.1 (toBytes p.2 x.scale) m) buf
    let cover := coverElem c.cover ps x
    let bad := addAll (((if x.bad then ps.take 1 else []) ++ if x.sbad then ps.drop 1 else []).flatMap fun p =>
      units 8 p.1 p.2) c.bufBad
    let c := { c with buf := buf, cover := cover, bufBad := bad }
    let page := e.va / 4096
    if (cover.filter fun p => decide (p.1 / 512 = page ∧ p.2 % 256 = 255)).length = 512 then
      let bs := bytesAt buf (4096 * page) 4096
      let words := (bad.filter fun k => k / 512 = page).map (· % 512)
      engThen (if c.dedup then s.dedupPage c.ctx (4096 * page) bs words
        else s.putTile w (bits (4096 * page) 0 21) bs (words ≠ [])) fun _ s => (s, .ok c)
    else (s, .ok c)

/-- The n-th element of the walk. -/
def State.shElem (s : State) (core : Nat) (c : ShCmd) (l : Layout × Layout) (n : Nat) : Eng ShCmd :=
  let w := c.who core
  let i := coordsOf l.1.ext n
  let d := l.2.elem c.dst i
  engThen (s.readElem w l.1 (l.1.elem c.src i)) fun x s =>
    let y : Elem := if c.convert then
        { raw := convElem l.1.fmt l.2.fmt c.mode c.sat (srDraw (bits c.body 160 32) (bits c.body 192 32 + n)) x, bad := x.poisoned }
      else x
    if c.dedup || c.compress then s.bufElem w c l.2 d i y
    else engThen (s.writeElem w l.2 d ((i.headD 0).toNat % (blockOf l.2.fmt).size == 0) y) fun _ s =>
      let ps := l.2.pieces d i
      let cover := coverElem c.cover ps y
      (ps.foldl (fun s p => s.coverDone w cover p.1 p.2) s, .ok { c with cover := cover })

/-- The elements still to walk, and where the walk stops. -/
def State.shWalk (core : Nat) (l : Layout × Layout) : Nat → ShCmd → State → State × ShCmd × Option EngStop
  | 0, c, s => (s, c, none)
  | k + 1, c, s =>
    match s.shElem core c l c.pos with
    | (s, .ok c) => shWalk core l k { c with pos := c.pos + 1 } s
    | (s, .error e) => (s, c, some e)

/-- Lines made present (07 R497). -/
def State.setPresent (s : State) (wgk cslot : Nat) (lines : List Nat) : State :=
  s.modPart wgk cslot fun x => { x with absent := dropAll lines x.absent }

/-- The completion that a command leaves. -/
def ShCmd.result (c : ShCmd) (failed : Bool) : Done :=
  { wg := c.wg, ctx := c.ctx, slot := c.slot, skein := c.skein, cslot := c.cslot, user := c.user, tag := c.tag,
    scope := c.scope, bytes := coverBytes c.cover, failed := failed, dst := word c.dst, only := c.only }

/-- A command leaves the walker: its lines are present and its completion is due (09 R250). -/
def State.shEnd (s : State) (core : Nat) (c : ShCmd) (failed : Bool) : State :=
  let s := s.setPresent c.wg c.cslot c.lines
  s.modCore core fun k =>
    { k with started := none, done := k.done ++ [c.result failed]
             aborts := if failed then (k.aborts.filter (· != (c.wg, c.skein))) ++ [(c.wg, c.skein)] else k.aborts }

/-- The command stays started; a line it cleared that no element still to come names has had its last byte, and is present (07
R497). -/
def State.shStay (s : State) (core : Nat) (c : ShCmd) (l : Layout × Layout) : State :=
  let rest := s.coverLines (c.who core) (destCover c l c.pos)
  (s.setPresent c.wg c.cslot (dropAll rest c.lines)).modCore core fun k =>
    { k with started := some { c with lines := c.lines.filter rest.contains } }

/-- A started command walks on until it ends, waits for a line, or parks (09 R249). -/
def State.shRun (s : State) (core : Nat) (c : ShCmd) (l : Layout × Layout) : State :=
  match s.shWalk core l (l.1.total - c.pos) { c with lay := some l } with
  | (s, c, none) => s.shEnd core c false
  | (s, c, some .abort) => s.shEnd core c true
  | (s, c, some .wait) => s.shStay core c l
  | (s, c, some (.page e va acc)) =>
    (s.shStay core { c with parked := true } l).engFault c.ctx core c.slot c.wg e va acc (.shuttle core c.wg c.cslot)

/-- A command starts: its layouts are read, once, and it is checked (09 R246, 07 R497). A page fault on a layout parks it, to
start again. -/
def State.shBegin (s : State) (core : Nat) (c : ShCmd) : State :=
  let hold (s : State) (c : ShCmd) : State := s.modCore core fun k => { k with started := some c }
  match s.shLayouts core c with
  | (s, .error .wait) => hold s c
  | (s, .error (.page e va acc)) =>
    (hold s { c with parked := true }).engFault c.ctx core c.slot c.wg e va acc (.shuttle core c.wg c.cslot)
  | (s, .error .abort) => s.shEnd core c true
  | (s, .ok l) => if s.shCheck core c l then s.shRun core c l else s.shEnd core c true

/-- SHUTTLE_START (09 R246, R249, 11 R297): the next placed command starts, or the started one goes on. -/
def execShuttleStart (core : Nat) (s : State) : Out State :=
  let k := s.core core
  .next (if s.stalls core then s else match k.started with
    | some c =>
      if c.parked then s
      else match c.lay with
        | some l => s.shRun core c l
        | none => s.shBegin core c
    | none => match k.shuttle with
      | [] => s
      | c :: rest =>
        let s := s.setCore core { k with shuttle := rest }
        if c.parked then s.modCore core fun k => { k with started := some c }
        else (if c.only then s.shEnd core c false else s.shBegin core c).reap core c.slot)

/-- SHUTTLE_COMPLETE (09 R250): the oldest completion performs, or parks on a page fault. -/
def execShuttleComplete (core : Nat) (s : State) : Out State :=
  let k := s.core core
  .next (match k.done with
    | [] => s
    | d :: rest =>
      if k.doneParked || s.stalls core then s
      else match s.complete core d with
        | (s, .ok ()) => s.modCore core fun k => { k with done := rest }
        | (s, .error (.page e va acc)) =>
          (s.modCore core fun k => { k with doneParked := true }).engFault d.ctx core d.slot d.wg e va acc (.stamp core d.wg d.cslot)
        | (s, .error _) => s)

-- THE INSTRUCTIONS

/-- Commands that the queue of a core holds (11 R296). -/
def Core.shCount (c : Core) : Nat := c.shuttle.length + c.started.toList.length + c.done.length

/-- The faults of a command at its instruction (09 R245). -/
def State.cpyFault (s : State) (core : Nat) (k : Skein) (user : Bool) (body stamp : Nat) : Option Trap :=
  let kind := bits body 254 2
  if bits body 152 2 = 3 ∨ bits body 146 6 ≠ 0 ∨ 6 ≤ bits body 157 3 ∨ kind = 3 then some { cause := .illegalField }
  else if kind = 2 then s.stampFault core k (word stamp) user
  else if kind = 1 then s.barrierFault k.wgKey (bits body 224 30)
  else none

/-- A command as its instruction places it: a barrier tag captures the object's generation (09 R245), and the compressed-region
descriptors are those of its placement (09 R254). -/
def State.cpyCmd (s : State) (st : Site) (k : Skein) (body stamp : Nat) : ShCmd :=
  let cslot := ((s.wg k.wgKey).bind (·.slotOf st.core)).getD 0
  let v := bits body 224 30
  { wg := k.wgKey, ctx := k.ctx, slot := st.slot, skein := k.idx, cslot := cslot, user := !(s.siteThread st).sup, seq := st.ord, body := body
    descs := (s.part k.wgKey cslot).desc
    tag := match bits body 254 2 with
      | 1 => .barrier v (s.generation k.wgKey cslot v)
      | 2 => .stamp (word stamp) v
      | _ => .none }

/-- A command placed, once its skein's stores have performed: the presence flag clears its destination lines (09 R244,
08 R211, 07 R497). -/
def State.shPlace (s : State) (st : Site) (c : ShCmd) : State :=
  if c.pres && !c.only then
    match s.shLayouts st.core c with
    | (s, .ok l) =>
      let lines := if walkBytes l.2.fmt l.1.total ≤ 2 ^ 20 then
          s.coverLines (c.who st.core) (destCover c l 0) else []
      let s := s.modPart c.wg c.cslot fun x =>
        { x with absent := addAll lines x.absent }
      s.modCore st.core fun k => { k with shuttle := k.shuttle ++ [{ c with lines := lines }] }
    | (s, .error _) => s.modCore st.core fun k => { k with shuttle := k.shuttle ++ [c] }
  else s.modCore st.core fun k => { k with shuttle := k.shuttle ++ [c] }

/-- One thread's CPY (09 R244, R245). -/
def cpyRun (st : Site) (l : LaneIn) (s : State) : State × Fate :=
  match s.skein st.core st.slot with
  | none => (s, .next)
  | some k => match s.cpyFault st.core k (!(s.siteThread st).sup) (l.val 0) (l.val 1) with
    | some t => (s, .trap t)
    | none =>
      if 32 ≤ (s.core st.core).shCount then (s, .wait .shuttleRoom l.vals)
      else
        let s := s.drainForEngine st.core st.slot
        (s.shPlace st (s.cpyCmd st k (l.val 0) (l.val 1)), .next)

/-- The operands of CPY and CPYQ: eight `w` elements, and the stamp address, which a tag of kind 2 alone reads (09 R244). -/
def cpyOp (x : FmtX) (run : Site → LaneIn → State → State × Fate) : SeqOp :=
  { reads := fun _ => [.group x.r1 4 8], names := fun _ => [(x.r2, 8, 1)]
    more := fun vals => if bits (vals.headD 0) 254 2 = 2 then [.reg x.r2 8] else []
    run := run }

/-- CPY (09 R244). -/
def execCpy (x : FmtX) (s : State) : Out State :=
  .next (s.runEach (.cpy x) x.ctl 0 false (cpyOp x cpyRun))

/-- One thread's CPYQ, where the queue has room for every thread's command or not (09 R252). -/
def cpyqRun (room : Bool) (st : Site) (l : LaneIn) (s : State) : State × Fate :=
  match s.skein st.core st.slot with
  | none => (s, .next)
  | some k => match s.cpyFault st.core k (!(s.siteThread st).sup) (l.val 0) (l.val 1) with
    | some t => (s, .trap t)
    | none =>
      let s := if room then
          let s := s.drainForEngine st.core st.slot
          s.shPlace st (s.cpyCmd st k (l.val 0) (l.val 1)) else s
      (s.putRegs st [.push room], .next)

/-- CPYQ (09 R252). -/
def execCpyq (x : FmtX) (s : State) : Out State :=
  let op (room : Bool) : SeqOp := cpyOp x (cpyqRun room)
  .next (match s.issued with
    | none => s
    | some (is, k) =>
      let go := (gather (op true).toOp x.ctl k is.slot s.cycle (lanesOf is.present)).go
      let go := if x.ctl.uni then go.take 1 else go
      let n := (go.filter fun l => (s.cpyFault is.core k (!(laneOf k.threads l.lane).sup) (l.val 0) (l.val 1)).isNone).length
      s.runEach (.cpyq x) x.ctl 0 false (op (decide ((s.core is.core).shCount + n ≤ 32))))

/-- One thread's STAMP: a command that only completes (18 R443). -/
def stampRun (x : FmtX) (st : Site) (l : LaneIn) (s : State) : State × Fate :=
  match s.skein st.core st.slot with
  | none => (s, .next)
  | some k => match s.stampFault st.core k (word (l.val 0)) (!(s.siteThread st).sup) with
    | some t => (s, .trap t)
    | none =>
      if 32 ≤ (s.core st.core).shCount then (s, .wait .shuttleRoom l.vals)
      else
        let body := x.ctl.scope.toNat * 2 ^ 157
        let c := { s.cpyCmd st k body 0 with tag := .stamp (word (l.val 0)) (l.val 1 % 2 ^ 63), only := true }
        ((s.drainForEngine st.core st.slot).shPlace st c, .next)

/-- STAMP (18 R443). -/
def execStamp (x : FmtX) (s : State) : Out State :=
  .next (s.runEach (.stamp x) x.ctl 0 false { reads := pairReads x 8, run := stampRun x })

/-- SHUTTLE_QUEUE_ROOM (09 R244, 18 R443): a waiting CPY or STAMP places its command. -/
def execShuttleQueueRoom (core slot lane : Nat) (s : State) : Out State :=
  .next (match s.waitingFor core slot lane (· = .shuttleRoom) with
    | none => s
    | some w => match w.instr with
      | .cpy _ => s.retake core slot lane w cpyRun
      | .stamp x => s.retake core slot lane w (stampRun x)
      | _ => s)

end Sys2Proof.Machine
end

