-- ==== Sys2Proof/Machine/Image.lean ====
section
/-! DEFINITION. Save images in memory: where their parts lie, and the scratchpad part, which puts also reach (11 R305, 08 R229). -/

namespace Sys2Proof.Machine

/-- n rounded up to 128. -/
def pad128 (n : Nat) : Nat := 128 * ceilDiv n 128

/-- A piece of an image: bytes with the 8-byte words among them that are poisoned, or bytes that the spec leaves open. -/
inductive ImgPiece where
  | given (bs : List Byte) (bad : List Nat)
  | open_ (n : Nat)
  deriving DecidableEq, Repr

/-- Bytes of a piece. -/
def ImgPiece.size : ImgPiece → Nat
  | .given bs _ => bs.length
  | .open_ n => n

/-- Bytes of a list of pieces. -/
def piecesSize (l : List ImgPiece) : Nat := (l.map ImgPiece.size).foldl (· + ·) 0

/-- Pieces, with open bytes up to a multiple of 128. -/
def padPieces (l : List ImgPiece) : List ImgPiece := l ++ [.open_ (pad128 (piecesSize l) - piecesSize l)]

/-- Bytes at a physical address that the spec leaves open: free values (11 R305, log entry 12). -/
def State.fillFree (s : State) (pa n : Nat) : State :=
  { (s.homeWrite pa ((List.range n).map fun i => Config.freeByte (s.free + i)) [] none) with free := s.free + n }

/-- Pieces written one after another at the home slices (11 R304). -/
def State.putPieces (s : State) : Nat → List ImgPiece → State
  | _, [] => s
  | pa, .given bs bad :: r => (s.homeWrite pa bs (bad.map (pa / 8 + ·)) none).putPieces (pa + bs.length) r
  | pa, .open_ n :: r => (s.fillFree pa n).putPieces (pa + n) r

/-- Bytes of an image read back at the home slices, with their poisoned words counted from the first (11 R306). -/
def State.imageRead (s : State) (pa n : Nat) : State × List Byte × List Nat :=
  let r := s.homeRead pa n none
  (r.1, r.2.1, r.2.2.map (· - pa / 8))

-- WHERE THE PARTS LIE

/-- Bytes of the part for a grant: data, presence bits, descriptors. -/
def scrSize (grant : Nat) : Nat := pad128 (grant + grant / 1024 + 64)

/-- The addresses of the parts of a core's image (11 R305). -/
def SavedCore.threadAt (p : SavedCore) : Nat := p.base + 512 + 256 * p.skeins.length
def SavedCore.regAt (p : SavedCore) : Nat :=
  p.threadAt + 128 * ((p.skeins.map (·.threads.length)).foldl (· + ·) 0 + (p.heddle.map (·.threads.length)).foldl (· + ·) 0)
def SavedCore.scrAt (p : SavedCore) : Nat := p.regAt + pad128 (p.keeps.foldl (· + ·) 0)
def SavedCore.tileAt (p : SavedCore) (grant : Nat) : Nat := p.scrAt + scrSize grant
def SavedCore.tableAt (p : SavedCore) (grant : Nat) : Nat := p.tileAt grant + 16896 * p.frames.length
def SavedCore.heddleAt (p : SavedCore) (grant : Nat) : Nat := p.tileAt grant + pad128 (16896 * p.frames.length + 1280)
def SavedCore.ringAt (p : SavedCore) (grant : Nat) : Nat := p.heddleAt grant + pad128 (64 * p.heddle.length)
def SavedCore.cmdAt (p : SavedCore) (grant : Nat) : Nat := p.ringAt grant + 256
def SavedCore.spindleAt (p : SavedCore) (grant : Nat) : Nat :=
  p.cmdAt grant + pad128 (32 * p.shuttle.length + if p.parkSlot then 48 else 0)

/-- The end of a core's image. -/
def SavedCore.stop (p : SavedCore) (grant : Nat) : Nat :=
  p.spindleAt grant + match p.spindle with
    | some k => 256 + 128 * k.threads.length + pad128 (p.spKeeps.foldl (· + ·) 0)
    | none => 0

-- THE SCRATCHPAD

/-- Bytes of bits, eight to a byte, the lowest first. -/
def bitBytes (n : Nat) (f : Nat → Bool) : List Byte :=
  (List.range n).map fun i => BitVec.ofNat 8 (((List.range 8).map fun j => (f (8 * i + j)).toNat * 2 ^ j).foldl (· + ·) 0)

/-- The scratchpad part of an image (11 R305): data, a presence bit for each line, and the four descriptors. -/
def Part.image (x : Part) (grant : Nat) : List ImgPiece :=
  [.given (bytesAt x.bytes 0 grant) (x.poison.filter fun w => decide (8 * w < grant)),
   .given (bitBytes (grant / 1024) fun k => !x.absent.contains k) [],
   .given ((List.range 4).flatMap fun j => toBytes 4 (lookD 0 x.desc j).toNat) []]

/-- A scratchpad read back from an image; its ring marks are the record's (log entry 12). -/
def State.partBack (s : State) (pa grant : Nat) (marks : SMap Bool) : State × Part :=
  let d := s.imageRead pa grant
  let p := d.1.imageRead (pa + grant) (grant / 1024)
  let c := p.1.imageRead (pa + grant + grant / 1024) 16
  (c.1, { bytes := putBytes 0 d.2.1 []
          absent := (List.range (grant / 128)).filter fun k => !(p.2.1.getD (k / 8) 0).getLsbD (k % 8)
          marks := marks
          poison := d.2.2
          desc := (List.range 4).foldl (fun m j => set 0 j (BitVec.ofNat 32 (ofBytes ((c.2.1.drop (4 * j)).take 4))) m) [] })

/-- A saved workgroup's scratchpad changed in its image (08 R229). -/
def State.modImage (s : State) (wgk cslot : Nat) (v : Saved) (f : Part → Part) : State :=
  match v.cores[cslot]? with
  | none => s
  | some p =>
    let r := s.partBack p.scrAt v.wg.scratch (lookD {} v.wg.parts cslot).marks
    let x := f r.2
    let s := r.1.putPieces p.scrAt (x.image v.wg.scratch)
    { s with saved := ins wgk { v with wg := { v.wg with parts := set {} cslot { marks := x.marks } v.wg.parts } } s.saved }

end Sys2Proof.Machine
end

