-- ==== Sys2Proof/Machine/Put.lean ====
section
/-! DEFINITION. Puts and the Reed (09 R241 to R243, 08 R227 to R229). -/

namespace Sys2Proof.Machine

-- TARGETS

/-- A workgroup's scratchpad changed where it is: resident, or in its saved image (08 R229). -/
def State.modAnyPart (s : State) (wgk cslot : Nat) (f : Part → Part) : State :=
  match s.wg wgk, look s.saved wgk with
  | some _, _ => s.modPart wgk cslot f
  | none, some v => s.modImage wgk cslot v f
  | none, none => s

/-- A workgroup, resident or saved. -/
def State.anyWg (s : State) (wgk : Nat) : Option Workgroup :=
  match s.wg wgk with
  | some w => some w
  | none => (look s.saved wgk).map (·.wg)

/-- The pages of an address range: address and length of each piece. -/
def pagePieces (va n : Nat) : List (Nat × Nat) :=
  (units 4096 va n).map fun k => (max va (4096 * k), min (va + n) (4096 * (k + 1)) - max va (4096 * k))

/-- The lowest byte of a window range that may not be accessed, where the whole may not (09 R242). -/
def State.windowEnd (s : State) (st : Site) (k : Skein) (va : Nat) (use : Use) (user : Bool) : Word :=
  match s.window st.core k.ctx k.wgKey (word va) 1 use user with
  | .ok (.scr _ _ off) => word (va + (s.grantOf k.wgKey - off))
  | .ok (.aper _ _ off) => word (va + (0x200000 - off))
  | .ok (.reg slot _ off) => word (va + (((s.skein st.core slot).map (·.alloc)).getD 0 - off))
  | .ok (.strip off) => word (va + (0x3000000 - off))
  | _ => word va

/-- Step 2 of 09 R231 on an address range: address bits and windows; the lowest byte that breaks it. -/
def State.rangeBits (s : State) (st : Site) (k : Skein) (va n : Nat) (use : Use) (user : Bool) : Option Word :=
  if n = 0 then none
  else if 2 ^ 52 < va + n then some (word (max va (2 ^ 52)))
  else if va / 2 ^ 48 = 0xF then
    match s.window st.core k.ctx k.wgKey (word va) n use user with
    | .ok _ => none
    | .error _ => some (s.windowEnd st k va use user)
  else if 0xF * 2 ^ 48 < va + n then some (word (0xF * 2 ^ 48)) else none

/-- The pieces of an address range, translated; or the fault of step 3. -/
def State.rangePieces (s : State) (st : Site) (k : Skein) (use : Use) (user : Bool) :
    List (Nat × Nat) → List (Place × Nat) → State × Except Trap (List (Place × Nat))
  | [], acc => (s, .ok acc)
  | (va, n) :: r, acc => match s.place st.core k.ctx k.wgKey (word va) n use user with
    | (s, .error t) => (s, .error t)
    | (s, .ok p) => s.rangePieces st k use user r (acc ++ [(p, n)])

/-- An address range as pieces; a window is one piece. -/
def State.rangeTo (s : State) (st : Site) (k : Skein) (va n : Nat) (use : Use) (user : Bool) :
    State × Except Trap (List (Place × Nat)) :=
  if n = 0 then (s, .ok [])
  else s.rangePieces st k use user (if va / 2 ^ 48 = 0xF then [(va, n)] else pagePieces va n) []

-- THE COMMAND (09 R241)

/-- A put as its thread issues it. -/
structure PutCmd where
  kind : Nat
  dst : Nat
  src : Nat
  cnt : Nat
  inc : Nat
  len : Nat
  mask : Nat
  nocnt : Bool
  pres : Bool
  target : Nat
  deriving DecidableEq, Repr

/-- The fields of a put from its registers and word. -/
def putCmd (x : FmtX) (l : LaneIn) : PutCmd :=
  let d := l.val 0
  let e3 := bits d 192 64
  { kind := fld x.imm 0 2, dst := bits d 0 64, src := bits d 64 64, cnt := bits d 128 64, inc := bits e3 0 32,
    len := bits e3 32 20, mask := fld x.imm 2 4, nocnt := x.imm.getLsbD 6, pres := x.imm.getLsbD 7, target := l.val 1 }

/-- The workgroup that a put of kind 1 or 2 names. -/
def PutCmd.wg (c : PutCmd) (k : Skein) : Nat :=
  if c.kind = 1 then k.wgKey else wgKey k.ctx (c.target / 2 ^ 32) (c.target % 2 ^ 32)

/-- Step 2 for a grant-offset range of the target: the lowest offset beyond its grant, or the range's first where a slot
is beyond its cluster (09 R242). An absent target is not checked. -/
def State.offsetBad (s : State) (c : PutCmd) (wgk off n : Nat) : Option Word :=
  match s.anyWg wgk with
  | none => none
  | some w =>
    if n = 0 then none
    else if (List.range 4).any fun i => c.mask.testBit i && decide (w.cluster.length ≤ i) then some (word off)
    else if w.scratch < off + n then some (word (max off w.scratch)) else none

/-- Step 2 of a put's checks: destination, source, counter (09 R242). A destination may lie in another slot of the
cluster; a counter only where ATOM may act. -/
def State.putBits (s : State) (st : Site) (k : Skein) (c : PutCmd) (user : Bool) : Option Word :=
  let dstWin : Option Word :=
    if c.len ≠ 0 ∧ c.dst / 2 ^ 48 = 0xF ∧ bits c.dst 40 8 = 1 then
      let n := ((s.wg k.wgKey).map (·.cluster.length)).getD 1
      let off := bits c.dst 0 21
      if bits c.dst 23 17 ≠ 0 ∨ n ≤ bits c.dst 21 2 then some (word c.dst)
      else if s.grantOf k.wgKey < off + c.len then some (word (c.dst + (s.grantOf k.wgKey - off))) else none
    else if c.len ≠ 0 ∧ c.dst / 2 ^ 48 = 0xF ∧ bits c.dst 40 8 ≠ 0 then some (word c.dst)
    else s.rangeBits st k c.dst c.len .store user
  let dst := if c.kind = 0 then dstWin else s.offsetBad c (c.wg k) c.dst c.len
  let cnt := if c.nocnt then none
    else if c.kind = 0 then s.rangeBits st k c.cnt 8 .atom user else s.offsetBad c (c.wg k) c.cnt 8
  (dst.orElse fun _ => s.rangeBits st k c.src c.len .load user).orElse fun _ => cnt

/-- Whether a page that a put writes is to be copied first (11 R297, R299). -/
def State.putCopies (s : State) (st : Site) (k : Skein) (c : PutCmd) : Bool :=
  c.kind == 0 && ((pagePieces c.dst c.len).any (fun p => s.copyWaits st k (word p.1)) ||
    (!c.nocnt && s.copyWaits st k (word c.cnt)))

/-- Destination pieces of kind 0: a scratchpad is named by workgroup and generation (08 R229). -/
def State.memTarget (s : State) (st : Site) (k : Skein) (va n : Nat) (use : Use) (user : Bool) : State × Except Trap PutTo :=
  let gen := ((s.wg k.wgKey).map (·.gen)).getD 0
  if va / 2 ^ 48 = 0xF then
    let c := if bits va 40 8 = 1 then bits va 21 2 else ((s.wg k.wgKey).bind (·.slotOf st.core)).getD 0
    (s, .ok (.scr k.wgKey gen c (bits va 0 21)))
  else match s.rangeTo st k va n use user with
    | (s, .error t) => (s, .error t)
    | (s, .ok ps) => (s, .ok (.mem ps))

/-- The source of a put read in aligned 8-byte units: its bytes and the positions of poisoned ones. -/
def State.putSource (s : State) (st : Site) (ctx wgk : Nat) (va : Nat) :
    List (Place × Nat) → List Byte → List Nat → State × Except Fate (List Byte × List Nat)
  | [], acc, bad => (s, .ok (acc, bad))
  | (p, n) :: r, acc, bad =>
    let one (q : State × Except Fate (List Byte × List Nat)) (k : Nat) : State × Except Fate (List Byte × List Nat) :=
      match q with
      | (s, .error f) => (s, .error f)
      | (s, .ok (acc, bad)) =>
        let lo := max p.off (8 * k)
        let len := min (p.off + n) (8 * k + 8) - lo
        match s.engGet st.core ctx (p.move lo) len with
        | (s, .ok (bs, b)) => (s, .ok (acc ++ bs, if b then bad ++ upFrom acc.length len else bad))
        | (s, .error .wait) => (s, .error (.wait .presence []))
        | (s, .error _) =>
          let line := lo / 128
          let t := match p with
            | .scr w c _ => (look (s.part w c).marks line).map fun d => s.readFault st wgk (word va) p (.mark d line)
            | _ => none
          (s, .error (.trap ((t.bind id).getD (dataTrap .prot (word va) .read))))
    if s.tileBusy st.core st.slot p n false then (s, .error (.wait .presence []))
    else match (units 8 p.off n).foldl one (s, .ok (acc, bad)) with
    | (s, .error f) => (s, .error f)
    | (s, .ok (acc, bad)) => s.putSource st ctx wgk va r acc bad

/-- The slots of a mask. -/
def slotsIn (mask : Nat) : List Nat := (List.range 4).filter fun i => mask.testBit i

/-- The deliveries of a put, one for each destination. -/
def putDeliveries (s : State) (st : Site) (k : Skein) (c : PutCmd) (multi strict : Bool) (scope : Nat) (dst : PutTo)
    (cnt : Option PutTo) (bs : List Byte) (bad : List Nat) : List Delivery :=
  let base : Delivery := {
    num := s.order, ctx := k.ctx, core := st.core, skein := (k.wgKey, k.idx), multi := multi, to_ := dst,
    strict := if strict then some s.order else none, bytes := bs, bad := bad, counter := cnt, inc := c.inc,
    scope := scope, pres := c.pres }
  if c.kind = 0 then [base]
  else
    let w := c.wg k
    -- an absent target has the put's own number, which no admission has
    let gen := ((s.anyWg w).map (·.gen)).getD s.order
    (slotsIn c.mask).map fun i =>
      { base with to_ := .scr w gen i c.dst, counter := if c.nocnt then none else some (.scr w gen i c.cnt) }

/-- The lines of a delivery lose their presence at issue (07 R497). -/
def State.putAbsent (s : State) (d : Delivery) : State :=
  match d.to_, d.pres with
  | .scr w gen c off, true =>
    if (s.anyWg w).map (·.gen) = some gen then
      s.modAnyPart w c fun x => { x with absent := addAll (units 128 off d.bytes.length) x.absent }
    else s
  | _, _ => s

/-- One thread's PUT or PUTM (09 R241 to R243). -/
def putRun (multi : Bool) (x : FmtX) (st : Site) (l : LaneIn) (s : State) : State × Fate :=
  match s.skein st.core st.slot with
  | none => (s, .next)
  | some k =>
    let c := putCmd x l
    let user := !(s.siteThread st).sup
    if bits (l.val 0) 244 12 ≠ 0 then (s, .trap { cause := .illegalField })
    else if !c.nocnt && c.cnt % 8 != 0 then (s, .trap (dataTrap .align (word c.cnt) .write))
    else match s.putBits st k c user with
    | some va => (s, .trap (dataTrap .prot va .write))
    | none => if s.putCopies st k c then (s, .wait .presence l.vals) else
      let d : State × Except Trap PutTo := if c.kind = 0 then s.memTarget st k c.dst c.len .store user else (s, .ok (.mem []))
      match d with
      | (s, .error t) => (s, .trap t)
      | (s, .ok dst) => match s.rangeTo st k c.src c.len .load user with
        | (s, .error t) => (s, .trap t)
        | (s, .ok src) =>
          let q : State × Except Trap (Option PutTo) := if c.nocnt ∨ c.kind ≠ 0 then (s, .ok none)
            else match s.memTarget st k c.cnt 8 .atom user with
              | (s, .error t) => (s, .error t)
              | (s, .ok t) => (s, .ok (some t))
          match q with
          | (s, .error t) => (s, .trap t)
          | (s, .ok cnt) =>
            let s := s.drainForEngine st.core st.slot
            match s.putSource st k.ctx k.wgKey c.src src [] [] with
            | (s, .error (.wait w _)) => (s, .wait w l.vals)
            | (s, .error f) => (s, f)
            | (s, .ok (bs, bad)) =>
              let ds := putDeliveries s st k c multi x.ctl.flag x.ctl.scope.toNat dst cnt bs bad
              let s := ds.foldl State.putAbsent s
              ({ s with puts := s.puts ++ ds, order := s.order + 1 },
                if x.ctl.flag then .wait (.putStrict s.order) l.vals else .next)

/-- The operands of a put: four `d` elements, and a target for kind 2. -/
def putReads (x : FmtX) (_ : Views) : List Rd :=
  .group x.r1 8 4 :: if fld x.imm 0 2 = 2 then [.reg x.r2 8] else []

/-- PUT (09 R241). -/
def execPut (x : FmtX) (s : State) : Out State :=
  .next (s.runEach (.put x) x.ctl 0 false { reads := putReads x, run := putRun false x })

/-- PUTM (09 R241). -/
def execPutm (x : FmtX) (s : State) : Out State :=
  .next (s.runEach (.putm x) x.ctl 0 false { reads := putReads x, run := putRun true x })

-- DELIVERY

/-- REED_WINDOW (08 R228): every multicast that has reached its core's interface is announced in the next window. -/
def execReedWindow (s : State) : Out State :=
  .next { s with reed := s.reed + 1
                 puts := s.puts.map fun d => if d.multi && d.window.isNone then { d with window := some s.reed } else d }

/-- Whether two deliveries share a destination: a workgroup on one core. -/
def PutTo.shares : PutTo → PutTo → Bool
  | .scr w _ c _, .scr v _ d _ => w == v && c == d
  | _, _ => false

/-- Whether delivery e must land before d (08 R227, R228): unicasts of one skein to one destination in program order, and
multicasts to one destination in Reed order. -/
def Delivery.before (e d : Delivery) : Bool :=
  e.to_.shares d.to_ && e.num != d.num &&
  ((!e.multi && !d.multi && e.skein == d.skein && decide (e.num < d.num)) ||
   (e.multi && d.multi && match e.window, d.window with
      | some v, some w => decide (v < w) || (v == w && (decide (e.core < d.core) || (e.core == d.core && decide (e.num < d.num))))
      | _, _ => false))

/-- Bytes of a put into pieces of memory. -/
def State.landMem (s : State) (core ctx : Nat) (bad : List Nat) : List (Place × Nat) → Nat → List Byte → State
  | [], _, _ => s
  | (p, n) :: r, pos, bs =>
    let words := (units 8 p.off n).filter fun k =>
      (upFrom (8 * k) 8).any fun a => decide (p.off ≤ a ∧ a < p.off + n) && bad.contains (pos + (a - p.off))
    let s := s.engPut core ctx p (bs.take n) false false
    let s := words.foldl (fun s k => match p with
      | .dev _ => { s with mem := { s.mem with poison := addTo k s.mem.poison } }
      | .unc _ => { s with mem := { s.mem with poison := addTo k s.mem.poison } }
      | _ => s) s
    s.landMem core ctx bad r (pos + n) (bs.drop n)

/-- A put's increment at a counter in memory, a relaxed atomic ADD at the home slice; a poisoned word takes none (08 R219, 09
R242). -/
def State.bumpMem (s : State) (core ctx : Nat) (p : Place) (inc : Nat) : State :=
  let add (pa : Nat) : State :=
    let s := s.homeSite core pa 8
    if (units 8 pa 8).any s.mem.poison.contains then s
    else (s.atomHome core pa 8 fun old => some (old + inc)).1
  match p with
  | .dev pa => add pa
  | .unc pa => add pa
  | .host pa => s.linkPut ctx pa (toBytes 8 (natAt s.mem.host pa 8 + inc)) false
  | _ => s

/-- The words of a scratchpad range that poisoned bytes fall on. -/
def badWordsAt (off : Nat) (bad : List Nat) : List Nat := (bad.map fun b => (off + b) / 8).dedup

/-- A put's data and increment at a scratchpad: ring landings, presence and marks as 07 R192 and 13 R347 give. -/
def Part.landPut (x : Part) (off : Nat) (bs : List Byte) (bad : List Nat) (pres : Bool) : Part :=
  let y := x.store off bs (badWordsAt off bad)
  if pres then { y with absent := dropAll (units 128 off bs.length) y.absent } else y

/-- A put's increment at a scratchpad counter. -/
def Part.bump (x : Part) (off inc : Nat) : Part :=
  if x.badIn off 8 ≠ [] then x else x.store off (toBytes 8 (natAt x.bytes off 8 + inc)) []

/-- Whether a target still is what the put named (08 R229). -/
def State.targetLives (s : State) : PutTo → Bool
  | .mem _ => true
  | .scr w gen _ _ => (s.anyWg w).map (·.gen) == some gen

/-- A delivery lands, data before counter, or is dropped and counted (08 R227, R229). A counter in the scratchpad of a
workgroup that has exited takes no increment from data that land in memory (log entry 102). -/
def State.land (s : State) (d : Delivery) : State :=
  if s.targetLives d.to_ then
    let s := match d.to_ with
      | .mem ps => s.landMem d.core d.ctx d.bad ps 0 d.bytes
      | .scr w _ c off => s.modAnyPart w c fun x => x.landPut off d.bytes d.bad d.pres
    match d.counter with
    | none => s
    | some (.mem ps) => ps.foldl (fun s p => s.bumpMem d.core d.ctx p.1 d.inc) s
    | some (.scr w gen c off) =>
      if s.targetLives (.scr w gen c off) then s.modAnyPart w c fun x => x.bump off d.inc else s
  else
    let s := s.count d.ctx 16 1
    match d.strict with
    | none => s
    | some n => { s with putDrops := addTo n s.putDrops }

/-- PUT_DELIVERY (08 R227 to R229): the idx-th delivery in flight lands, where none must land before it. -/
def execPutDelivery (idx : Nat) (s : State) : Out State :=
  .next (match s.puts[idx]? with
    | none => s
    | some d =>
      if (d.multi && d.window.isNone) || s.puts.any fun e => e.before d then s
      else { s with puts := s.puts.eraseIdx idx }.land d)

/-- PUT_STRICT_RESOLVE (09 R243): every delivery has landed or been dropped. -/
def execPutStrictResolve (core slot lane : Nat) (s : State) : Out State :=
  let strict (f : WaitFor) : Bool := match f with
    | .putStrict _ => true
    | _ => false
  .next (match s.waitingFor core slot lane strict with
    | none => s
    | some w => match w.what with
      | .putStrict n =>
        if s.puts.any fun d => d.strict == some n then s
        else
          let drop := s.putDrops.contains n
          let s := { s with putDrops := dropFrom n s.putDrops }
          s.retake core slot lane w fun _ l s =>
            (s, if drop then .trap { cause := .putDrop, addr := word (bits (l.val 0) 128 64) } else .next)
      | _ => s)

end Sys2Proof.Machine
end

