-- ==== Sys2Proof/Machine/Matrix.lean ====
section
/-! DEFINITION. Frames of the tile store and arithmetic on them (10 R260 to R262, R270, R274 to R278). -/

namespace Sys2Proof.Machine

/-- Storage width in bits of an element in a frame (10 R260). -/
def tileWidth (code : Nat) : Nat :=
  if blockFmt code then elemWidth (blockOf code).elem
  else if packedFmt code then elemWidth code else 8 * layContainer code

/-- Row capacity K of a frame's format (10 R260). -/
def rowCap (code : Nat) : Nat :=
  if blockFmt code then
    (if code ≤ 22 then 256 else if code = 26 ∨ code = 28 then 64 else if code = 29 ∨ code = 30 then 256 else 128)
  else 2048 / tileWidth code

/-- The 8-byte words of a frame's data that n bits from bit `at_` of row r touch. -/
def rowWords (r at_ n : Nat) : List Nat := upFrom (32 * r + at_ / 64) ((at_ + n + 63) / 64 - at_ / 64)

/-- The elements of a row, with their scales and poison. -/
def Frame.row (f : Frame) (code r : Nat) : List Elem :=
  let w := tileWidth code
  let bits_ := natAt f.data (256 * r) 256
  let b := blockOf code
  (List.range (rowCap code)).map fun e =>
    let raw := bits bits_ (w * e) w
    let sa := 16384 + 8 * r + e / b.size * b.scale
    let bad := (rowWords r (w * e) w).any f.poison.contains
    if blockFmt code then { raw := raw, scale := natAt f.data sa b.scale, bad := bad, sbad := f.poison.contains (sa / 8) }
    else { raw := layRaw code raw, bad := bad }

/-- A row written: elements, then the scales of its blocks; bits above position K − 1 are zero (10 R260, R261). -/
def Frame.putRow (f : Frame) (code r : Nat) (es : List Elem) : Frame :=
  let w := tileWidth code
  let b := blockOf code
  let es := es.take (rowCap code)
  let body := joinElems w (es.map fun e => if blockFmt code then e.raw else layBox code e.raw)
  let scales : List Byte := if blockFmt code then
      ((List.range (rowCap code / b.size)).flatMap fun k => toBytes b.scale ((es.getD (k * b.size) { raw := 0 }).scale))
    else []
  let side := (scales ++ List.replicate 8 0).take 8
  let bad := (es.zipIdx.flatMap fun p => if p.1.bad then rowWords r (w * p.2) w else []) ++
    if es.any (·.sbad) then [2048 + r] else []
  let clear := upFrom (32 * r) 32 ++ [2048 + r]
  { f with
    data := putBytes (16384 + 8 * r) side (putBytes (256 * r) (toBytes 256 body) f.data)
    poison := addAll bad (dropAll clear f.poison) }

/-- A frame written row by row from row r on. -/
def Frame.putRows (code : Nat) : Nat → List (List Elem) → Frame → Frame
  | _, [], f => f
  | r, es :: rest, f => putRows code (r + 1) rest (f.putRow code r es)

-- QUANTISATION (10 R276)

/-- Absolute value. -/
def Val.abs : Val → Val
  | .nan _ p w => .nan false p w
  | .inf _ => .inf false
  | .fin _ n e => .fin false n e

/-- Whether a value is a NaN or infinite. -/
def Val.special : Val → Bool
  | .fin _ _ _ => false
  | _ => true

/-- Whether a value is zero. -/
def Val.isZero : Val → Bool
  | .fin _ n _ => n == 0
  | _ => false

/-- The greatest or least of a list of values. -/
def valBest (less : Bool) : List Val → Val
  | [] => .fin false 0 0
  | x :: r => r.foldl (fun a b => if (if less then decide (b.cmp a < 0) else decide (0 < b.cmp a)) then b else a) x

/-- floor(log2) of a finite nonzero value. -/
def Val.log2 : Val → Int
  | .fin _ n e => (Nat.log2 n : Int) + e
  | _ => 0

/-- A power of two as a value. -/
def pow2 (e : Int) : Val := .fin false 1 e

/-- emax of the elements of an mx format (10 R276). -/
def mxEmax (code : Nat) : Int :=
  match code with
  | 17 => 15
  | 18 => 8
  | 19 => 4
  | 20 => 2
  | 21 => 2
  | _ => 0

/-- maxval of an element format (10 R276). -/
def maxVal (elem : Nat) : Val :=
  match elem with
  | 13 => .fin false 7 0
  | 11 => .fin false 127 0
  | 15 => .fin false 1 0
  | _ => (fmtOf elem).val (fmtOf elem).maxBits

/-- A block quantised: its scale bytes and elements (10 R276). -/
def quantBlock (code : Nat) (rm : Rm) (xs : List Val) : Nat × List Nat :=
  let b := blockOf code
  let h := fmtOf 3
  let zero := xs.map fun _ => 0
  if xs.any Val.special then
    ((if b.sfmt = 33 then 255 else if b.sfmt = 5 then 127 else (fmtOf b.sfmt).cnan) +
      (if b.scale = 4 then h.cnan * 2 ^ 16 else 0), zero)
  else
    let amax := valBest false (xs.map Val.abs)
    if code ≤ 22 then
      let x := if amax.isZero then (-127 : Int) else clampInt (-127) 127 (amax.log2 - mxEmax code)
      (((x + 127).toNat), xs.map fun v =>
        if code = 22 then wrapInt 8 ((v.mul (pow2 (6 - x))).toIntIn rm (-128) 127)
        else (fmtOf b.elem).cvt rm true (v.mul (pow2 (-x))))
    else if b.scale = 4 then
      let hi : Nat := 2 ^ elemWidth b.elem - 1
      let mn := h.cvt .rne false (valBest true xs)
      let s := h.cvt .rne false (((valBest false xs).add .rne (h.val mn).neg).div (.fin false hi 0))
      (s + mn * 2 ^ 16, xs.map fun v =>
        if (h.val s).isZero then 0 else (((v.add .rne (h.val mn).neg).div (h.val s)).toIntIn rm 0 hi).toNat)
    else if code = 30 then
      let sum := (xs.map Val.abs).foldl (Val.add .rne) (.fin false 0 0)
      (h.cvt .rne false (sum.mul (pow2 (-6))), xs.map fun v => match v with
        | .fin true n _ => if n = 0 then 1 else 0
        | _ => 1)
    else
      let f := fmtOf b.sfmt
      let s := f.cvt .rne false (amax.div (maxVal b.elem))
      (s, xs.map fun v => if (f.val s).isZero then 0 else elemBits b.elem rm true (v.div (f.val s)))

/-- A list cut into pieces of n. -/
def chunks {α : Type} (n : Nat) : Nat → List α → List (List α)
  | 0, _ => []
  | k + 1, l => l.take n :: chunks n k (l.drop n)

/-- A row of values in a format: converted, or quantised block by block (10 R274, R276). -/
def rowOf (code : Nat) (rm : Rm) (sat : Bool) (vs : List (Val × Bool)) : List Elem :=
  if blockFmt code then
    let n := (blockOf code).size
    (chunks n (vs.length / n) vs).flatMap fun b =>
      let q := quantBlock code rm (b.map (·.1))
      let bad := b.any (·.2)
      q.2.map fun x => { raw := x, scale := q.1, bad := bad, sbad := bad }
  else vs.map fun v => { raw := elemBits code rm sat v.1, bad := v.2 }

-- SPARSITY (10 R270)

/-- A row of k dense positions expanded by row r of a metadata frame: n kept values of each group of four, the other positions
zero (10 R262); a poisoned metadata word poisons the groups that it places (07 R203). -/
def expandRow (n k : Nat) (kept : List Elem) (m : Frame) (r : Nat) : List Elem :=
  let marks := natAt m.data (256 * r) 256
  let dense := (List.range (n * k / 4)).foldl (fun (acc : List Elem) j =>
    modAt (4 * (j / n) + bits marks (2 * j) 2) (fun e => (kept[j]?).getD e) acc) (List.replicate k { raw := 0 })
  dense.zipIdx.map fun p =>
    { p.1 with bad := p.1.bad || (rowWords r (2 * n * (p.2 / 4)) (2 * n)).any m.poison.contains }

/-- The positions that a group of four keeps: the n of largest magnitude, a NaN counting as largest, ties to the lower
position; in ascending order. -/
def keepOf (code n : Nat) (g : List Elem) : List Nat :=
  let v (i : Nat) : Val := (((g[i]?).map (Elem.val code)).getD (.fin false 0 0)).abs
  let beats (i j : Nat) : Bool :=
    let a := v i
    let b := v j
    let c := if a.isNan || b.isNan then (if a.isNan == b.isNan then 0 else if a.isNan then 1 else -1) else a.cmp b
    decide (0 < c) || (c == 0 && decide (i < j))
  (List.range g.length).filter fun i => decide (((List.range g.length).filter fun j => j ≠ i ∧ beats j i).length < n)

/-- A dense row made sparse: the kept elements in front, and its metadata row, with the 8-byte words of it that are poisoned.
The choice in a group rests on all four elements: one that is poisoned poisons what is kept and where (07 R203). -/
def sparseRow (code n : Nat) (row : List Elem) : List Elem × Nat × List Nat :=
  let gs := chunks 4 (row.length / 4) row
  let ks := gs.map (keepOf code n)
  let kept := (gs.zip ks).flatMap fun p => p.2.map fun i => { p.1.getD i { raw := 0 } with bad := p.1.any (·.bad) }
  let bad := gs.zipIdx.filterMap fun p => if p.1.any (·.bad) then some (2 * n * p.2 / 64) else none
  (kept ++ List.replicate (row.length - kept.length) { raw := 0 }, joinElems 2 (ks.flatMap id), bad.dedup)

-- MATRIX MULTIPLY (10 R277, R278)

/-- M, N and K of a shape (10 R277). -/
def mmaShape (shape ka : Nat) : Nat × Nat × Nat :=
  match shape with
  | 0 => (64, 64, ka)
  | 1 => (64, 64, ka / 2)
  | 2 => (32, 64, ka)
  | 3 => (16, 64, ka)
  | _ => (64, 32, ka)

/-- The exact sum of a list, the sign of an all-zero sum kept (10 R278). -/
def sumVals : List Val → Val
  | [] => .fin false 0 0
  | x :: r => r.foldl (Val.add .rne) x

/-- One float element of a product: 32 products at a time, each block sum and each accumulation rounded (10 R278). -/
def dotFloat (acc : Nat) (ps : List Val) : Nat :=
  (chunks 32 (ps.length / 32) ps).foldl (fun acc b =>
    f32.arith .rne ((f32.val acc).add .rne (f32.val (f32.arith .rne (sumVals b))))) acc

/-- The integer that a value of an integer format is. -/
def Val.int : Val → Int
  | .fin s n e => scaled s n e 0
  | _ => 0

/-- A row of values of the left operand, and their poison: expanded where the instruction is sparse, when each value rests on
every kept one. -/
def leftRow (f : Frame) (code k : Nat) (sparse : Option (Nat × Frame)) (r : Nat) : List (Val × Bool) :=
  let row := f.row code r
  match sparse with
  | none => (row.take k).map fun e => (e.val code, e.poisoned)
  | some (n, m) =>
    let bad := (row.take (n * k / 4)).any (·.bad)
    (expandRow n k row m r).map fun e => (e.val code, e.bad || bad)

/-- D after TMMA or TMMASP (10 R278). -/
def mmaFrame (shape : Nat) (clr : Bool) (d : Frame) (dfmt : Nat) (a : Frame) (afmt : Nat) (b : Frame) (bfmt : Nat)
    (sparse : Option (Nat × Frame)) : Frame :=
  let (m, n, k) := mmaShape shape (rowCap afmt)
  let cols := (List.range n).map fun c => ((b.row bfmt c).take k).map fun e => (e.val bfmt, e.poisoned)
  (List.range m).foldl (fun f r =>
    let left := leftRow a afmt k sparse r
    let old := f.row dfmt r
    let new := cols.zipIdx.map fun q =>
      let o := old.getD q.2 { raw := 0 }
      let ps := (left.zip q.1).map fun p => p.1.1.mul p.2.1
      let bad := left.any (·.2) || q.1.any (·.2) || (!clr && o.bad)
      if dfmt = 32 then
        let acc : Int := if clr then 0 else sgn 32 o.raw
        { raw := wrapInt 32 (ps.foldl (fun (x : Int) v => x + v.int) acc), bad := bad : Elem }
      else { raw := dotFloat (if clr then 0 else o.raw) ps, bad := bad }
    f.putRow dfmt r (new ++ old.drop n)) d

/-- Whether the formats of a multiply obey 10 R278. -/
def mmaFmts (sparse : Bool) (d a b : Nat) : Bool :=
  let set (l : List Nat) : Bool := l.contains a && l.contains b
  (a == b || set [4, 5, 6, 7] || set [17, 18, 19, 20] || set [9, 10] || set [11, 12] || set [13, 14]) &&
  a != 32 && d == (if 9 ≤ a ∧ a ≤ 16 then 32 else 0) && (!sparse || !blockFmt a)

-- TCVT AND TSCL

/-- TCVT (10 R274). -/
def cvtFrame (off : Nat) (rm : Rm) (sat : Bool) (dfmt : Nat) (a : Frame) (afmt : Nat) : Frame :=
  let kd := rowCap dfmt
  Frame.putRows dfmt 0 ((List.range 64).map fun r =>
    let row := a.row afmt r
    rowOf dfmt rm sat ((List.range kd).map fun e => match row[e + off * kd]? with
      | some x => (x.val afmt, x.poisoned)
      | none => (.fin false 0 0, false))) {}

/-- TSCL (10 R275). -/
def sclFrame (byRow : Bool) (rm : Rm) (a b : Frame) : Frame :=
  let s := b.row 0 0
  let o := b.row 0 1
  Frame.putRows 0 0 ((List.range 64).map fun r =>
    ((a.row 0 r).zipIdx).map fun p =>
      let i := if byRow then r else p.2
      let x := s.getD i { raw := 0 }
      let y := o.getD i { raw := 0 }
      { raw := f32.fma rm p.1.raw x.raw y.raw, bad := p.1.bad || x.bad || y.bad : Elem }) {}

end Sys2Proof.Machine
end

