-- ==== Sys2Proof/Machine/Tile.lean ====
section
/-! DEFINITION. The tile store (10 R257 to R283): handles, acceptance, the commands and their execution, convergence
registers and signing. -/

namespace Sys2Proof.Machine

-- HANDLES

/-- The skein, its workgroup and its cluster slot that a tile instruction acts for. -/
def State.tileSite (s : State) (st : Site) : Option (Skein × Workgroup × Nat) :=
  match s.skein st.core st.slot with
  | none => none
  | some k => (s.wg k.wgKey).map fun w => (k, w, (w.slotOf st.core).getD 0)

/-- A handle's entry (10 R258). -/
def Workgroup.handle (w : Workgroup) (cslot h : Nat) : Handle := lookD {} w.handles (hKey cslot h)

/-- A handle's entry changed. -/
def State.modHandle (s : State) (wgk cslot h : Nat) (f : Handle → Handle) : State :=
  s.modWg wgk fun w => { w with handles := set {} (hKey cslot h) (f (w.handle cslot h)) w.handles }

/-- The first tile fault of 10 R283: a named handle that is unbound, then a written one that the skein does not own. -/
def Workgroup.tileFault (w : Workgroup) (cslot idx : Nat) (named written : List Nat) : Option Trap :=
  match named.find? fun h => !(w.handle cslot h).bound with
  | some h => some { cause := .tileFreed, addr := word h }
  | none => (written.find? fun h => (w.handle cslot h).owner ≠ idx).map fun h => { cause := .tileOwner, addr := word h }

/-- Frames of a core that no handle names and no command holds (10 R263, R265). -/
def State.freeFrames (s : State) (core : Nat) : List Nat :=
  let used := (s.wgs.flatMap fun p => match p.2.slotOf core with
    | some c => (p.2.bound c).map fun h => h.2.frame
    | none => []) ++ (s.core core).releasing.map (·.1)
  (List.range 64).filter fun f => !used.contains f

/-- Whether an accepted command writes a frame (10 R258). -/
def TileCmd.writes (q : TileCmd) : List Nat :=
  let meta_ := match q.instr with
    | .tload _ => q.m
    | .tloadr _ => q.m
    | _ => none
  (q.d.toList ++ meta_.toList).map (·.1)

/-- Whether an accepted command, not yet complete, writes a frame. -/
def Core.tilePending (c : Core) (frame : Nat) : Bool := c.tileq.any fun q => q.writes.contains frame

/-- Whether an accepted command that writes a frame was aborted at its acceptance (10 R269). -/
def Core.tileFailed (c : Core) (frame : Nat) : Bool := c.tileq.any fun q => q.failed && q.writes.contains frame

/-- A frame of a core. -/
def Core.frame (c : Core) (n : Nat) : Frame := lookD {} c.frames n

/-- A frame of a core set. -/
def Core.setFrame (c : Core) (n : Nat) (f : Frame) : Core := { c with frames := set {} n f c.frames }

/-- A handle unbound and its frame released (10 R263, R265); the other fields of the entry stay. -/
def State.unbind (s : State) (core wgk cslot h : Nat) : State :=
  match s.wg wgk with
  | none => s
  | some w =>
    let f := (w.handle cslot h).frame
    let c := s.core core
    (s.modHandle wgk cslot h fun e =>
      { e with bound := false, pending := c.tilePending f, error := (c.frame f).error }).modCore core fun c =>
      c.release f wgk

/-- One thread's TALLOC (10 R265): the old frame of a bound handle is released first, also where the thread then waits. -/
def tallocRun (x : FmtT) (st : Site) (l : LaneIn) (s : State) : State × Fate :=
  match s.tileSite st with
  | none => (s, .next)
  | some (k, w, cs) =>
    let h := x.d.toNat
    let e := w.handle cs h
    if e.bound ∧ e.owner ≠ k.idx then (s, .trap { cause := .tileOwner, addr := word h })
    else
      let s := if e.bound then s.unbind st.core k.wgKey cs h else s
      let waits := ((s.core st.core).releasing.filter fun p => p.2 = k.wgKey).length
      let held := (((s.wg k.wgKey).getD w).bound cs).length + waits
      match if held < w.frames then s.freeFrames st.core else [] with
      | f :: _ =>
        ((s.modHandle k.wgKey cs h fun _ => { bound := true, owner := k.idx, frame := f, fmt := x.aux.toNat }).modCore
          st.core fun c => c.setFrame f {}, .next)
      | [] =>
        if waits ≠ 0 then (s, .wait .frameFreed l.vals)
        else (s, .trap { cause := .tileNoframe, addr := word h })

/-- TALLOC (10 R265). -/
def execTalloc (x : FmtT) (s : State) : Out State :=
  .next (s.runEach (.talloc x) x.ctl x.ctl.stall false { run := tallocRun x })

/-- TFREE (10 R265). -/
def execTfree (x : FmtT) (s : State) : Out State :=
  .next (s.runEach (.tfree x) x.ctl x.ctl.stall false
    { run := fun st _ s => match s.tileSite st with
        | none => (s, .next)
        | some (k, w, cs) => match w.tileFault cs k.idx [x.d.toNat] [x.d.toNat] with
          | some t => (s, .trap t)
          | none => (s.unbind st.core k.wgKey cs x.d.toNat, .next) })

/-- TGIVE (10 R265). -/
def execTgive (x : FmtT) (s : State) : Out State :=
  .next (s.runEach (.tgive x) x.ctl x.ctl.stall false
    { run := fun st _ s => match s.tileSite st with
        | none => (s, .next)
        | some (k, w, cs) => match w.tileFault cs k.idx [x.d.toNat] [x.d.toNat] with
          | some t => (s, .trap t)
          | none => (s.modHandle k.wgKey cs x.d.toNat fun e => { e with owner := 0x1FF }, .next) })

/-- The waits of a skein for f, each with the first of its threads (02 R38). -/
def Skein.waitsFor (k : Skein) (f : WaitFor → Bool) : List (Nat × Wait) :=
  (List.range 32).filterMap fun l => match (laneOf k.threads l).st with
    | .waiting w => if f w.what && w.lanes.headD l == l then some (l, w) else none
    | _ => none

/-- The order numbers of the skeins of a workgroup that wait on a core in TTAKE for a handle (10 R265). -/
def State.takers (s : State) (core wgk h : Nat) : List Nat :=
  (s.slotsOf core).flatMap fun p =>
    if p.2.wgKey = wgk then
      (p.2.waitsFor (· = .takeOwner)).filterMap fun w => match w.2.instr with
        | .ttake x => if x.d.toNat = h then some (w.2.vals.headD 0) else none
        | _ => none
    else []

/-- One thread's TTAKE; `since` is its place among those that wait (10 R265). -/
def ttakeRun (x : FmtT) (st : Site) (l : LaneIn) (s : State) : State × Fate :=
  match s.tileSite st with
  | none => (s, .next)
  | some (k, w, cs) =>
    let h := x.d.toNat
    let e := w.handle cs h
    if !e.bound then (s, .trap { cause := .tileFreed, addr := word h })
    else if e.owner = k.idx then (s, .next)
    else
      let since := l.vals.headD s.order
      if e.owner = 0x1FF ∧ (s.takers st.core k.wgKey h).all (since ≤ ·) then
        (s.modHandle k.wgKey cs h fun e => { e with owner := k.idx }, .next)
      else if l.vals = [] then ({ s with order := s.order + 1 }, .wait .takeOwner [since])
      else (s, .wait .takeOwner l.vals)

/-- TTAKE (10 R265). -/
def execTtake (x : FmtT) (s : State) : Out State :=
  .next (s.runEach (.ttake x) x.ctl x.ctl.stall false { run := ttakeRun x })

/-- One thread's TQRY (10 R266). -/
def tqryRun (x : FmtX) (st : Site) (_ : LaneIn) (s : State) : State × Fate :=
  match s.tileSite st with
  | none => (s, .next)
  | some (_, w, cs) =>
    let e := w.handle cs (fld x.imm 16 8)
    let c := s.core st.core
    let pend := if e.bound then c.tilePending e.frame else e.pending
    let err := if e.bound ∨ e.pending then (c.frame e.frame).error || c.tileFailed e.frame else e.error
    let v := e.bound.toNat * 2 ^ 31 + pend.toNat * 2 ^ 30 + err.toNat * 2 ^ 29 + e.owner * 2 ^ 20 + e.frame * 2 ^ 12 + e.fmt
    (s.hold st x.r1 4 v [], .next)

/-- TQRY (10 R266). -/
def execTqry (x : FmtX) (s : State) : Out State :=
  .next (s.runEach (.tqry x) x.ctl 0 false { dsts := fun _ => [(x.r1, 4, 1)], run := tqryRun x })

/-- The waits of a skein taken up again, in ascending thread position; none of a vacated one's (11 R304). -/
def State.retakeAll (s : State) (core slot : Nat) (f : WaitFor → Bool)
    (act : Instr → Option (Site → LaneIn → State → State × Fate)) : State :=
  match s.skein core slot with
  | none => s
  | some k => if s.stopped k.wgKey then s else (k.waitsFor f).foldl (fun s w => match act w.2.instr with
      | some a => s.retake core slot w.1 w.2 a
      | none => s) s

/-- TALLOC_FRAME_FREED (10 R265). -/
def execTallocFrameFreed (core slot : Nat) (s : State) : Out State :=
  .next (s.retakeAll core slot (· = .frameFreed) fun i => match i with
    | .talloc x => some (tallocRun x)
    | _ => none)

/-- TTAKE_GRANT (10 R265): a skein that waits takes an ownerless handle when no other has waited longer. -/
def execTtakeGrant (core slot : Nat) (s : State) : Out State :=
  .next (s.retakeAll core slot (· = .takeOwner) fun i => match i with
    | .ttake x => some (ttakeRun x)
    | _ => none)

-- ACCEPTANCE

/-- Whether the command queue has room (10 R263). -/
def Core.tileRoom (c : Core) : Bool := decide (c.tileq.length < 16)

/-- The frame and format that a handle names now. -/
def Workgroup.named (w : Workgroup) (cslot h : Nat) : Option (Nat × Nat) :=
  some ((w.handle cslot h).frame, (w.handle cslot h).fmt)

/-- A command that has no memory side, as its skein issues it. -/
def State.tileIo (s : State) (st : Site) (k : Skein) (cs : Nat) : ShCmd :=
  { wg := k.wgKey, ctx := k.ctx, slot := st.slot, skein := k.idx, cslot := cs, user := !(s.siteThread st).sup, seq := st.ord, body := 0,
    tag := .none, descs := (s.part k.wgKey cs).desc }

/-- A command accepted. -/
def State.accept (s : State) (core : Nat) (q : TileCmd) : State :=
  s.modCore core fun c => { c with tileq := c.tileq ++ [q] }

-- THE MEMORY SIDE (10 R267 to R272)

/-- The operand-map code of a load or store, and its handle and layout numbers. -/
def mapBit (x : FmtX) (i : Nat) : Bool := x.imm.getLsbD i
def mapMode (x : FmtX) : Nat := fld x.imm 4 2
def mapKeep (x : FmtX) : Nat := match fld x.imm 1 2 with
  | 1 => 2
  | 2 => 1
  | _ => 0
def mapHandle (x : FmtX) : Nat := fld x.imm 16 8
def mapLayout (x : FmtX) : Nat := fld x.imm 8 8

/-- A load or store as its constructor names it: its fields, whether it stores, and whether it gathers. -/
def tileForm : Instr → Option (FmtX × Bool × Bool)
  | .tload x => some (x, false, false)
  | .tloadr x => some (x, false, true)
  | .tstore x => some (x, true, false)
  | .tstorer x => some (x, true, true)
  | _ => none

/-- Coordinates of frame position (r, e), none where they are out of bounds (10 R269). -/
def tileCoords (l : Layout) (x : FmtX) (desc : Nat) (rows : List Nat) (r e : Nat) : Option (List Int) :=
  let c0 := sgn 32 (bits desc 64 32)
  let c1 := sgn 32 (bits desc 96 32)
  let row : Int := if rows = [] then c1 + r else c1 + sgn 32 (rows.getD r 0)
  let (i0, i1) := if mapBit x 0 then (c0 + (r : Int), c1 + (e : Int)) else (c0 + (e : Int), row)
  let i := i0 :: i1 :: (List.range 4).map fun j => ((bits desc (128 + 16 * j) 16 : Nat) : Int)
  if (i.zip l.ext).all fun p => decide (0 ≤ p.1 ∧ p.1 < p.2) then some i else none

/-- The places of a row's positions in memory (10 R269, 15 R372). -/
def tileRow (l : Layout) (x : FmtX) (desc : Nat) (rows : List Nat) (fmt r : Nat) : List (Option (List Int × ElemAt)) :=
  (List.range (rowCap fmt)).map fun e =>
    (tileCoords l x desc rows r e).map fun i => (i, l.elem (bits desc 0 64) i)

/-- A format code as 09 R248 knows it for a tile command: f32 for 1 and an integer for 32 (10 R269). -/
def tileCode (c : Nat) : Nat := if c = 1 then 0 else if c = 32 then 9 else c

/-- Whether a layout, a format and a map code go together (10 R269, R271): equal codes or a conversion, and block rows
neither transposed nor gathered, from whole blocks. -/
def tileFmts (l : Layout) (x : FmtX) (store gather : Bool) (desc fmt : Nat) : Bool :=
  let (src, dst) := if store then (fmt, l.fmt) else (l.fmt, fmt)
  (if mapBit x 3 then convOk (tileCode src) (tileCode dst) (mapMode x) || (blockFmt dst && mapMode x ≠ 2) else src == dst) &&
  (!blockFmt l.fmt || (!mapBit x 0 && !gather && bits desc 64 32 % (blockOf l.fmt).size == 0))

/-- The bytes of memory that a command names from position `pos` of row `from_` on. -/
def tileCover (l : Layout) (x : FmtX) (desc : Nat) (rows : List Nat) (fmt from_ pos : Nat) : SMap Nat :=
  (upFrom from_ (64 - from_)).foldl (fun m r =>
    ((tileRow l x desc rows fmt r).drop (if r = from_ then pos else 0)).foldl (fun m e => match e with
      | some (i, a) => coverPieces m (l.pieces a i) false
      | none => m) m) []

/-- The scratchpad words of a cover, in a grant (08 R226): an aperture's tiles may lie anywhere in it. -/
def coverWords (m : SMap Nat) (grant : Nat) : List Nat :=
  if m.any fun p => inAperture (8 * p.1) then upFrom 0 (grant / 8)
  else (m.filterMap fun p =>
    let a := 8 * p.1
    if a / 2 ^ 48 = 0xF ∧ bits a 40 8 ≤ 1 then some (bits a 0 21 / 8) else none).dedup

/-- On whose behalf a tile command acts. -/
def TileCmd.who (q : TileCmd) (core : Nat) : Who := { q.io.who core with cpy := false }

/-- A row converted (10 R269, R276), none standing for a position that is out of bounds: zero in the frame (10 R262), and the
value 0 where a block is quantised. SR draws are numbered over the frame. -/
def tileConv (src dst : Nat) (x : FmtX) (seed base : Nat) (es : List (Option Elem)) : List Elem :=
  if !mapBit x 3 then es.map fun o => o.getD { raw := 0 }
  else if blockFmt dst then rowOf dst (rmOf (mapMode x)) (mapBit x 6) (es.map fun o => match o with
    | some e => (e.val src, e.poisoned)
    | none => (.fin false 0 0, false))
  else es.zipIdx.map fun p => match p.1 with
    | some e => { raw := convElem src dst (mapMode x) (mapBit x 6) (srDraw seed (base + p.2)) e, bad := e.poisoned }
    | none => { raw := 0 }

/-- The elements of a row read from memory, none where a position is out of bounds. -/
def State.readRow (w : Who) (l : Layout) :
    List (Option (List Int × ElemAt)) → List (Option Elem) → State → Eng (List (Option Elem))
  | [], acc, s => (s, .ok acc.reverse)
  | none :: r, acc, s => readRow w l r (none :: acc) s
  | some (_, a) :: r, acc, s => match s.readElem w l a with
    | (s, .ok x) => readRow w l r (some x :: acc) s
    | (s, .error e) => (s, .error e)

/-- Row r of a load written to its frame, and its metadata (10 R269, R270). -/
def State.loadRow (s : State) (core : Nat) (q : TileCmd) (x : FmtX) (l : Layout) (r : Nat) : Eng Unit :=
  match q.d with
  | none => (s, .ok ())
  | some (f, fmt) =>
    let ps := tileRow l x q.desc q.rows fmt r
    match State.readRow (q.who core) l ps [] s with
    | (s, .error e) => (s, .error e)
    | (s, .ok es) =>
      let es := tileConv l.fmt fmt x (bits q.desc 192 32) (r * rowCap fmt) es
      match mapKeep x, q.m with
      | 0, _ => (s.modCore core fun c => c.setFrame f ((c.frame f).putRow fmt r es), .ok ())
      | n + 1, some (mf, _) =>
        let sp := sparseRow fmt (n + 1) es
        (s.modCore core fun c =>
          let c := c.setFrame f ((c.frame f).putRow fmt r sp.1)
          let m := c.frame mf
          c.setFrame mf { m with
            data := putBytes (16384 + 8 * r) (List.replicate 8 0) (putBytes (256 * r) (toBytes 256 sp.2.1) m.data)
            poison := addAll (sp.2.2.map (32 * r + ·)) (dropAll (upFrom (32 * r) 32 ++ [2048 + r]) m.poison) }, .ok ())
      | _, none => (s, .ok ())

/-- Row r of a store as it goes to memory (10 R269, R270). -/
def storeElems (c : Core) (q : TileCmd) (x : FmtX) (l : Layout) (r : Nat) : List Elem :=
  match q.a with
  | none => []
  | some (f, fmt) =>
    let row := (c.frame f).row fmt r
    let es := match mapKeep x, q.m with
      | n + 1, some (mf, _) =>
        expandRow (n + 1) (rowCap fmt) row (c.frame mf) r
      | _, _ => row
    tileConv fmt l.fmt x (bits q.desc 192 32) (r * rowCap fmt) (es.map some)

/-- An element of a store written to memory, or to the buffer of a compressed tile (10 R271). -/
def State.storeElem (s : State) (core : Nat) (q : TileCmd) (l : Layout) (i : List Int) (a : ElemAt) (x : Elem) : Eng ShCmd :=
  if inAperture a.va then s.bufElem (q.who core) q.io l a i x
  else engThen (s.writeElem (q.who core) l a ((i.headD 0).toNat % (blockOf l.fmt).size == 0) x) fun _ s =>
    let ps := l.pieces a i
    let cover := coverElem q.io.cover ps x
    (ps.foldl (fun s p => s.coverDone (q.who core) cover p.1 p.2) s, .ok { q.io with cover := cover })

/-- The elements of a row still to store. -/
def State.storeRow (core : Nat) (l : Layout) : List (Option (List Int × ElemAt) × Elem) → TileCmd → State →
    State × TileCmd × Option EngStop
  | [], q, s => (s, q, none)
  | (none, _) :: r, q, s => storeRow core l r { q with io := { q.io with pos := q.io.pos + 1 } } s
  | (some (i, a), x) :: r, q, s => match s.storeElem core q l i a x with
    | (s, .ok io) => storeRow core l r { q with io := { io with pos := q.io.pos + 1 } } s
    | (s, .error e) => (s, q, some e)

/-- The rows of a load or store still to walk. -/
def State.tileWalk (core : Nat) (x : FmtX) (store : Bool) (l : Layout) : Nat → TileCmd → State →
    State × TileCmd × Option EngStop
  | 0, q, s => (s, q, none)
  | n + 1, q, s =>
    if store then
      let es := storeElems (s.core core) q x l q.row
      let ps := tileRow l x q.desc q.rows ((q.a.map (·.2)).getD 0) q.row
      match State.storeRow core l ((ps.zip es).drop q.io.pos) q s with
      | (s, q, none) => tileWalk core x store l n { q with row := q.row + 1, io := { q.io with pos := 0 } } s
      | r => r
    else match s.loadRow core q x l q.row with
      | (s, .ok ()) => tileWalk core x store l n { q with row := q.row + 1 } s
      | (s, .error e) => (s, q, some e)

/-- The frame and format whose positions a load or store walks. -/
def TileCmd.walked (q : TileCmd) (store : Bool) : Nat := ((if store then q.a else q.d).map (·.2)).getD 0

/-- A command takes the layout entry's bytes, none of them poisoned: formats that do not go together abort it before it reads or
writes an element; otherwise its walk is known, and a store with the presence flag clears the lines of it (07 R497, 10 R269). -/
def State.tileBind (s : State) (core : Nat) (q : TileCmd) (x : FmtX) (store gather : Bool) (lay : List Byte) :
    State × TileCmd :=
  let q := { q with lay := lay, words := [] }
  match layoutOf lay with
  | none => (s, q)
  | some l =>
    if !tileFmts l x store gather q.desc (q.walked store) then (s, { q with failed := true })
    else
      let m := tileCover l x q.desc q.rows (q.walked store) 0 0
      let lines := if store && x.ctl.flag then s.coverLines (q.who core) m else []
      (s.modPart q.io.wg q.io.cslot fun p => { p with absent := addAll lines p.absent },
        { q with words := coverWords m (s.grantOf q.io.wg), io := { q.io with lines := lines } })

/-- A layout entry read for a command: none where a page fault stops the read, invalid where it is poisoned (15 R370, R371). -/
def State.layAt (s : State) (w : Who) (n : Nat) : State × Except EngStop (List Byte) :=
  match s.layBytes w n with
  | (s, .ok (bs, bad)) => (s, .ok (if bad then [0] else bs))
  | (s, .error .abort) => (s, .ok [0])
  | (s, .error e) => (s, .error e)

/-- Whether the destinations of a store in compressed apertures are whole tiles (07 R197, 10 R271). -/
def tileWhole (m : SMap Nat) : Bool := coverWhole (m.filter fun p => inAperture (8 * p.1)) 4096

/-- A load or store executed: it ends, aborts, waits for a line, or parks. -/
def State.tileMemory (s : State) (core : Nat) (q : TileCmd) (x : FmtX) (store : Bool) : State × TileCmd × Option EngStop :=
  match layoutOf q.lay with
  | none => (s, q, some .abort)
  | some l =>
    if q.failed || (store && q.row == 0 && q.io.pos == 0 && !tileWhole (tileCover l x q.desc q.rows (q.walked store) 0 0)) then
      (s, q, some .abort)
    else State.tileWalk core x store l (64 - q.row) q s

/-- The command stays in the queue; a line it cleared that no element still to come names is present (07 R497). -/
def State.tileStay (s : State) (core j : Nat) (q : TileCmd) : State :=
  let rest := match tileForm q.instr, layoutOf q.lay with
    | some (x, store, _), some l => s.coverLines (q.who core) (tileCover l x q.desc q.rows (q.walked store) q.row q.io.pos)
    | _, _ => []
  (s.setPresent q.io.wg q.io.cslot (dropAll rest q.io.lines)).modCore core fun c =>
    { c with tileq := modAt j (fun _ => { q with io := { q.io with lines := q.io.lines.filter rest.contains } }) c.tileq }

-- THE INSTRUCTIONS WITH A MEMORY SIDE

/-- The operands of a load or store: the descriptor group and the row indices (10 R267). -/
def tileReads (x : FmtX) (store gather : Bool) (_ : Views) : List Rd :=
  .group x.r1 8 (if store then 6 else 4) :: if gather then [.group x.r2 4 64] else []

/-- The tag of a store's completion, from descriptor bytes 32 to 35 and the stamp address (10 R267, 09 R244). -/
def State.tileTag (s : State) (wgk cs desc : Nat) : Tag :=
  let v := bits desc 256 30
  match bits desc 286 2 with
  | 1 => .barrier v (s.generation wgk cs v)
  | 2 => .stamp (word (bits desc 320 64)) v
  | _ => .none

/-- The faults of a load or store (10 R283). -/
def State.tileMemFault (s : State) (core : Nat) (k : Skein) (w : Workgroup) (cs : Nat) (user : Bool) (x : FmtX)
    (store gather : Bool) (desc : Nat) : Option Trap :=
  let h := mapHandle x
  let mh := bits desc 224 8
  let sparse := mapKeep x ≠ 0
  let fmt := (w.handle cs h).fmt
  let named := h :: if sparse then [mh] else []
  let written := if store then (if mapBit x 7 then [h] else []) else named
  match w.tileFault cs k.idx named written with
  | some t => some t
  | none =>
    if bits desc 232 24 ≠ 0 ∨ (store ∧ (bits desc 288 32 ≠ 0 ∨ bits desc 286 2 = 3)) ∨
        (sparse ∧ (blockFmt fmt ∨ fmt = 32 ∨ (w.handle cs mh).fmt ≠ 12)) ∨
        (blockFmt fmt ∧ (mapBit x 0 ∨ gather ∨ bits desc 64 32 % (blockOf fmt).size ≠ 0)) then
      some { cause := .illegalField }
    else if !store then none
    else match bits desc 286 2 with
      | 1 => s.barrierFault k.wgKey (bits desc 256 30)
      | 2 => s.stampFault core k (word (bits desc 320 64)) user
      | _ => none

/-- A load or store as it is accepted (10 R263, R267, R272). One whose layout entry cannot be read yet reads it when it executes,
and may name any word of the grant until then. -/
def State.tileMemCmd (s : State) (st : Site) (i : Instr) (x : FmtX) (store gather : Bool) (k : Skein) (w : Workgroup)
    (cs : Nat) (desc : Nat) (rows : List Nat) : State :=
  let s := s.drainForEngine st.core st.slot
  let io := s.tileIo st k cs
  let io := if store then { io with
      tag := s.tileTag k.wgKey cs desc
      body := bits desc 0 64 * 2 ^ 64 + x.ctl.scope.toNat * 2 ^ 157 + 2 ^ 155 + x.ctl.flag.toNat * 2 ^ 156 } else io
  let h := mapHandle x
  let fr := w.named cs h
  let sparse := if mapKeep x ≠ 0 then w.named cs (bits desc 224 8) else none
  let q : TileCmd := { instr := i, desc := desc, rows := rows, io := io, m := sparse,
                       words := upFrom 0 (s.grantOf k.wgKey / 8)
                       d := if store then none else fr, a := if store then fr else none }
  let r : State × TileCmd := match s.layAt (q.who st.core) (mapLayout x) with
    | (s, .ok lay) => s.tileBind st.core q x store gather lay
    | (s, .error _) => (s, q)
  let s := r.1.accept st.core r.2
  if store && mapBit x 7 then s.unbind st.core k.wgKey cs h else s

/-- One thread's load or store of a frame (10 R267, R272, R283). -/
def tileMemRun (i : Instr) (x : FmtX) (store gather : Bool) (st : Site) (l : LaneIn) (s : State) : State × Fate :=
  match s.tileSite st with
  | none => (s, .next)
  | some (k, w, cs) =>
    match s.tileMemFault st.core k w cs (!(s.siteThread st).sup) x store gather (l.val 0) with
    | some t => (s, .trap t)
    | none =>
      if !(s.core st.core).tileRoom then (s, .wait .tileRoom l.vals)
      else (s.tileMemCmd st i x store gather k w cs (l.val 0) (if gather then elems 32 64 (l.val 1) else []), .next)

/-- TLOAD (10 R267). -/
def execTload (x : FmtX) (s : State) : Out State :=
  .next (s.runEach (.tload x) x.ctl 0 false
    { reads := tileReads x false false, run := tileMemRun (.tload x) x false false })

/-- TLOADR (10 R267). -/
def execTloadr (x : FmtX) (s : State) : Out State :=
  .next (s.runEach (.tloadr x) x.ctl 0 false
    { reads := tileReads x false true, run := tileMemRun (.tloadr x) x false true })

/-- TSTORE (10 R267, R272). -/
def execTstore (x : FmtX) (s : State) : Out State :=
  .next (s.runEach (.tstore x) x.ctl 0 false
    { reads := tileReads x true false, run := tileMemRun (.tstore x) x true false })

/-- TSTORER (10 R267, R272). -/
def execTstorer (x : FmtX) (s : State) : Out State :=
  .next (s.runEach (.tstorer x) x.ctl 0 false
    { reads := tileReads x true true, run := tileMemRun (.tstorer x) x true true })

-- FRAME ARITHMETIC

/-- One thread's TZERO, TCVT or TSCL: the handles it writes and reads, and the rule on their formats (10 R273 to R275,
R283). -/
def tileArithRun (i : Instr) (d : Nat) (a b : Option Nat) (ok : Nat → Nat → Nat → Bool) (st : Site) (l : LaneIn)
    (s : State) : State × Fate :=
  match s.tileSite st with
  | none => (s, .next)
  | some (k, w, cs) =>
    let fmt (h : Nat) : Nat := (w.handle cs h).fmt
    match w.tileFault cs k.idx (d :: a.toList ++ b.toList) [d] with
    | some t => (s, .trap t)
    | none =>
      if !ok (fmt d) (fmt (a.getD d)) (fmt (b.getD d)) then (s, .trap { cause := .illegalField })
      else if !(s.core st.core).tileRoom then (s, .wait .tileRoom l.vals)
      else
        (s.accept st.core { instr := i, d := w.named cs d, a := a.bind (w.named cs), b := b.bind (w.named cs),
                            io := s.tileIo st k cs }, .next)

/-- TZERO (10 R273). -/
def tzeroRun (x : FmtT) : Site → LaneIn → State → State × Fate :=
  tileArithRun (.tzero x) x.d.toNat none none fun _ _ _ => true

/-- TCVT: no block format to an integer one (10 R274). -/
def tcvtRun (x : FmtT) : Site → LaneIn → State → State × Fate :=
  tileArithRun (.tcvt x) x.d.toNat (some x.a.toNat) none fun d a _ =>
    !(blockFmt a && ((decide (9 ≤ d) && decide (d ≤ 16)) || d == 32))

/-- TSCL: every frame f32 (10 R275). -/
def tsclRun (x : FmtT) : Site → LaneIn → State → State × Fate :=
  tileArithRun (.tscl x) x.d.toNat (some x.a.toNat) (some x.b.toNat) fun d a b => d == 0 && a == 0 && b == 0

/-- TZERO (10 R273). -/
def execTzero (x : FmtT) (s : State) : Out State :=
  .next (s.runEach (.tzero x) x.ctl x.ctl.stall false { run := tzeroRun x })

/-- TCVT (10 R274). -/
def execTcvt (x : FmtT) (s : State) : Out State :=
  .next (s.runEach (.tcvt x) x.ctl x.ctl.stall false { run := tcvtRun x })

/-- TSCL (10 R275). -/
def execTscl (x : FmtT) (s : State) : Out State :=
  .next (s.runEach (.tscl x) x.ctl x.ctl.stall false { run := tsclRun x })

-- CONVERGENCE REGISTERS (10 R280 to R282)

/-- The key of a convergence register. -/
def cvKey (cslot n : Nat) : Nat := 16 * cslot + n

/-- A convergence register set. -/
def State.setCv (s : State) (wgk cslot n : Nat) (c : CvReg) : State :=
  s.modWg wgk fun w => { w with cvs := set {} (cvKey cslot n) c w.cvs }

/-- CVSET (10 R281). -/
def execCvset (x : FmtI) (s : State) : Out State :=
  .next (s.runEach (.cvset x) x.ctl x.ctl.stall false
    { run := fun st _ s => match s.tileSite st with
        | none => (s, .next)
        | some (k, _, cs) => (s.setCv k.wgKey cs (fld x.dst 0 4) { target := x.imm.toNat }, .next) })

/-- What TMMA's command asks of its handles at acceptance: each bound, and formats that go together (10 R278, R282). -/
def mmaFault (x : FmtT) (sparse : Bool) (k : Skein) (w : Workgroup) (cs : Nat) (owned : Bool) : Option Trap :=
  let fmt (h : Nat) : Nat := (w.handle cs h).fmt
  match w.tileFault cs k.idx ([x.d.toNat, x.a.toNat, x.b.toNat] ++ if sparse then [x.aux.toNat] else []) [] with
  | some t => some t
  | none =>
    if !owned then some { cause := .tileOwner, addr := word x.d.toNat }
    else if !mmaFmts sparse (fmt x.d.toNat) (fmt x.a.toNat) (fmt x.b.toNat) || (sparse && fmt x.aux.toNat != 12) then
      some { cause := .illegalField }
    else none

/-- The command of a round whose checks have passed, accepted once the queue has room; its handles, which other skeins may have
freed while it waited, are looked at again (10 R263, R282, log entry 103). -/
def mmaAccept (x : FmtT) (sparse : Bool) (st : Site) (k : Skein) (w : Workgroup) (cs : Nat) (s : State) : State × Fate :=
  if !(s.core st.core).tileRoom then (s, .wait .tileRoom [1])
  else match mmaFault x sparse k w cs true with
    | some t => (s, .trap t)
    | none =>
      (s.accept st.core {
        instr := if sparse then .tmmasp x else .tmma x, d := w.named cs x.d.toNat, a := w.named cs x.a.toNat, b := w.named cs x.b.toNat
        m := if sparse then w.named cs x.aux.toNat else none, io := s.tileIo st k cs }, .next)

/-- One thread's signature (10 R282): the last signer checks once and closes the round; it waits with its command where the queue
is full. -/
def mmaRun (x : FmtT) (sparse : Bool) (st : Site) (l : LaneIn) (s : State) : State × Fate :=
  match s.tileSite st with
  | none => (s, .next)
  | some (k, w, cs) => if l.vals = [1] then mmaAccept x sparse st k w cs s else
    let n := x.cv.toNat
    let c := lookD {} w.cvs (cvKey cs n)
    let wd := st.word.extractLsb' 0 44
    let c1 : CvReg := if c.count = 0 then { c with sparse := sparse, word := wd }
      else { c with mismatch := c.mismatch || c.word != wd || c.sparse != sparse }
    let d := w.handle cs x.d.toNat
    let c2 := { c1 with ownsig := c1.ownsig || (d.owner == k.idx), count := c1.count + 1 }
    if c2.count < c2.target then (s.setCv k.wgKey cs n c2, .next)
    else
      let closed := s.setCv k.wgKey cs n { target := c.target }
      if c2.mismatch then (closed, .trap { cause := .cvrMismatch, addr := word n })
      else match mmaFault x sparse k w cs (d.owner != 0x1FF && c2.ownsig) with
        | some t => (closed, .trap t)
        | none => mmaAccept x sparse st k w cs closed

/-- TMMA (10 R277, R282). -/
def execTmma (x : FmtT) (s : State) : Out State :=
  .next (s.runEach (.tmma x) x.ctl x.ctl.stall false { run := mmaRun x false })

/-- TMMASP (10 R277, R282). -/
def execTmmasp (x : FmtT) (s : State) : Out State :=
  .next (s.runEach (.tmmasp x) x.ctl x.ctl.stall false { run := mmaRun x true })

/-- The instructions that wait for room in the command queue. -/
def tileRoomAct : Instr → Option (Site → LaneIn → State → State × Fate)
  | .tload x => some (tileMemRun (.tload x) x false false)
  | .tloadr x => some (tileMemRun (.tloadr x) x false true)
  | .tstore x => some (tileMemRun (.tstore x) x true false)
  | .tstorer x => some (tileMemRun (.tstorer x) x true true)
  | .tzero x => some (tzeroRun x)
  | .tcvt x => some (tcvtRun x)
  | .tscl x => some (tsclRun x)
  | .tmma x => some (mmaRun x false)
  | .tmmasp x => some (mmaRun x true)
  | _ => none

/-- TILE_QUEUE_ROOM (10 R263, R282). -/
def execTileQueueRoom (core slot : Nat) (s : State) : Out State :=
  .next (s.retakeAll core slot (· = .tileRoom) tileRoomAct)

-- EXECUTION

/-- The frames that a command reads (10 R271). -/
def TileCmd.readsOf (q : TileCmd) : List Nat :=
  let dm : List (Option (Nat × Nat)) := match q.instr with
    | .tmma x => if x.sub.getLsbD 0 then [] else [q.d]
    | .tmmasp x => if x.sub.getLsbD 0 then [q.m] else [q.d, q.m]
    | .tstore _ => [q.m]
    | .tstorer _ => [q.m]
    | _ => []
  (([q.a, q.b] ++ dm).filterMap id).map (·.1)

/-- D after a command without a memory side (10 R273 to R278). -/
def TileCmd.arith (q : TileCmd) (c : Core) : Core :=
  let fr (r : Option (Nat × Nat)) : Frame := (r.map fun p => c.frame p.1).getD {}
  let fmt (r : Option (Nat × Nat)) : Nat := (r.map (·.2)).getD 0
  let mma (x : FmtT) (sp : Bool) : Frame :=
    mmaFrame x.shape.toNat (x.sub.getLsbD 0) (fr q.d) (fmt q.d) (fr q.a) (fmt q.a) (fr q.b) (fmt q.b)
      (if sp then some (if x.sub.getLsbD 1 then 1 else 2, fr q.m) else none)
  let new : Frame := match q.instr with
    | .tcvt x => cvtFrame (fld x.aux 0 2) (rmOf (fld x.sub 0 2)) (x.sub.getLsbD 2) (fmt q.d) (fr q.a) (fmt q.a)
    | .tscl x => sclFrame (x.aux.getLsbD 0) (rmOf (fld x.sub 0 2)) (fr q.a) (fr q.b)
    | .tmma x => mma x false
    | .tmmasp x => mma x true
    | _ => {}
  match q.d with
  | some (f, _) => c.setFrame f new
  | none => c

/-- The error bits of the frames that a command writes: set by an abort, cleared by a completed write (10 R258). -/
def Core.markFrames (c : Core) (q : TileCmd) (bad : Bool) : Core :=
  q.writes.foldl (fun c f => c.setFrame f { c.frame f with error := bad }) c

/-- Command j of the queue replaced. -/
def State.setCmd (s : State) (core j : Nat) (q : TileCmd) : State :=
  s.modCore core fun c => { c with tileq := modAt j (fun _ => q) c.tileq }

/-- A command has executed: its error bits and the lines that it made absent (07 R497, 10 R271). -/
def State.tileEnd (s : State) (core j : Nat) (q : TileCmd) (failed : Bool) : State :=
  ((s.setCmd core j { q with done := true, failed := failed, parked := false }).modCore core fun c =>
    c.markFrames q failed).setPresent q.io.wg q.io.cslot q.io.lines

/-- A command with its layout entry: as read at acceptance, else read now (15 R370). -/
def State.tileOpen (s : State) (core : Nat) (q : TileCmd) (x : FmtX) (store gather : Bool) : State × TileCmd × Option EngStop :=
  if q.lay ≠ [] then (s, q, none)
  else match s.layAt (q.who core) (mapLayout x) with
    | (s, .error e) => (s, q, some e)
    | (s, .ok lay) => let r := s.tileBind core q x store gather lay; (r.1, r.2, none)

/-- One command executes (10 R263, R271). -/
def State.tileExec (s : State) (core j : Nat) (q : TileCmd) : State :=
  if q.readsOf.any fun f => ((s.core core).frame f).error then s.tileEnd core j q true
  else match tileForm q.instr with
    | none => (s.modCore core q.arith).tileEnd core j q false
    | some (x, store, gather) =>
      let r := match s.tileOpen core q x store gather with
        | (s, q, none) => s.tileMemory core q x store
        | r => r
      match r with
      | (s, q, none) => s.tileEnd core j q false
      | (s, q, some .abort) => s.tileEnd core j q true
      | (s, q, some .wait) => s.tileStay core j q
      | (s, q, some (.page e va acc)) =>
        (s.tileStay core j { q with parked := true }).engFault q.io.ctx core q.io.slot q.io.wg e va acc
          (.tile core q.io.wg q.io.cslot)

/-- TILE_COMMAND_EXECUTE (10 R263): the oldest command that has not executed does, unless it is parked. -/
def execTileCommandExecute (core : Nat) (s : State) : Out State :=
  .next (match (s.core core).tileq.zipIdx.find? fun p => !p.1.done with
    | some (q, j) => if q.parked || s.stalls core then s else s.tileExec core j q
    | none => s)

/-- The entries of unbound handles take their last pending and error bits once no accepted command writes their frames (10
R258). -/
def State.settleHandles (s : State) (core : Nat) : State :=
  { s with wgs := s.wgs.map fun p => match p.2.slotOf core with
      | none => p
      | some c => (p.1, { p.2 with handles := p.2.handles.map fun h =>
          if h.1 / 256 = c ∧ !h.2.bound ∧ h.2.pending ∧ !(s.core core).tilePending h.2.frame then
            (h.1, { h.2 with pending := false, error := ((s.core core).frame h.2.frame).error })
          else h }) }

/-- The completion of a store (10 R272). -/
def TileCmd.completion (q : TileCmd) : Done :=
  { wg := q.io.wg, ctx := q.io.ctx, slot := q.io.slot, skein := q.io.skein, cslot := q.io.cslot, user := q.io.user,
    tag := q.io.tag, scope := q.io.scope, bytes := coverBytes q.io.cover, failed := q.failed, dst := word q.io.dst }

/-- The oldest command leaves the queue (10 R263). -/
def State.tilePop (s : State) (core : Nat) : State :=
  (s.modCore core fun c => ({ c with tileq := c.tileq.drop 1 }).settleFrames).settleHandles core

/-- TILE_COMMAND_COMPLETE (10 R263, R271, R272): the oldest command, once executed, completes; its completion may park. -/
def execTileCommandComplete (core : Nat) (s : State) : Out State :=
  .next (match (s.core core).tileq with
    | [] => s
    | q :: _ =>
      if !q.done || q.parked || s.stalls core then s
      else match tileForm q.instr with
        | some (_, true, _) => match s.complete core q.completion with
          | (s, .ok ()) => s.tilePop core
          | (s, .error (.page e va acc)) =>
            (s.setCmd core 0 { q with parked := true }).engFault q.io.ctx core q.io.slot q.io.wg e va acc (.tileDone core q.io.wg q.io.cslot)
          | (s, .error _) => s
        | _ => s.tilePop core)

end Sys2Proof.Machine
end

