-- ==== Sys2Proof/Machine/Slots.lean ====
section
/-! DEFINITION. Slots and new skeins (11 R295, 04 R85, R86, R91), the Spindle and its queues (14 R356 to R360), and
Heddle (14 R361 to R364, 15 R380). -/

namespace Sys2Proof.Machine

-- SLOTS

/-- Register bytes that the skeins of a core hold. -/
def State.regUse (s : State) (core : Nat) : Nat := ((s.slotsOf core).map fun p => p.2.regBytes).foldl (· + ·) 0

/-- Register bytes of a core (01 R14). -/
def regFile : Nat := 2 ^ 21

/-- The slot that a new skein takes on a core (11 R295): the pipeline with the fewest occupied slots, the lowest on a
tie, and its lowest free slot; 1023 is not assigned. -/
def State.slotFor (s : State) (core : Nat) : Option Nat :=
  let used := (s.slotsOf core).map (·.1)
  let free (p : Nat) : List Nat := (upFrom (8 * p) 8).filter fun x => x ≠ spindleSlot ∧ !used.contains x
  let count (p : Nat) : Nat := (used.filter fun x => x / 8 = p).length
  let open_ := (List.range 128).filter fun p => free p ≠ []
  match least (open_.map count) with
  | none => none
  | some n => ((open_.find? fun p => count p = n).map free).bind List.head?

/-- A new skein in a slot, at the end of its pipeline's rotation (02 R40); an abort flag that a former skein of its
number left is gone. -/
def State.addSkein (s : State) (core slot : Nat) (k : Skein) : State :=
  (s.setSkein core slot { k with readyAt := s.cycle }).modCore core fun c =>
    let p := c.pipe (slot / 8)
    { c with aborts := c.aborts.filter (· != (k.wgKey, k.idx)) }.setPipe (slot / 8) { p with rot := dropFrom slot p.rot ++ [slot] }

/-- A thread at its launch (04 R85, R86): at its entry header, with d0. -/
def newThread (entry param : Word) (views : Views) : Thread :=
  { pc := entry, blk := entry, views := views, regs := putBytes 0 (toBytes 8 param.toNat) [] }

/-- A position that is exited from launch (02 R36). -/
def deadThread : Thread := { st := .exited }

-- THE SPINDLE

/-- The key of a queue of a workgroup. -/
def sqKey (cslot n : Nat) : Nat := 8 * cslot + n

/-- A queue. -/
def Workgroup.queue (w : Workgroup) (cslot n : Nat) : SpQueue := lookD {} w.sqs (sqKey cslot n)

/-- A queue changed. -/
def State.modQueue (s : State) (wgk cslot n : Nat) (f : SpQueue → SpQueue) : State :=
  s.modWg wgk fun w => { w with sqs := set {} (sqKey cslot n) (f (w.queue cslot n)) w.sqs }

/-- A workgroup's eight queues on a core emptied and opened. -/
def State.openQueues (s : State) (wgk cslot : Nat) : State :=
  (List.range 8).foldl (fun s n => s.modQueue wgk cslot n fun _ => { opened := true }) s

/-- One thread's SPSTART (14 R356). -/
def spstartRun (x : FmtC) (st : Site) (l : LaneIn) (s : State) : State × Fate :=
  match s.tileSite st with
  | none => (s, .next)
  | some (k, _, cs) =>
    let alloc := 64 * (fld x.imm 0 4 + 1)
    if (s.skein st.core spindleSlot).isSome ∨ regFile < s.regUse st.core + 32 * alloc then
      (s.putRegs st [.push false], .next)
    else
      let entry := st.pc + word (sextTo 64 x.off * 8)
      let sp : Skein := {
        ctx := k.ctx, grid := k.grid, wg := k.wg, idx := spindleIdx, alloc := alloc, dbgctl := (s.ctx k.ctx).var.dbgdef
        threads := List.replicate 32 (newThread entry (word (l.val 0)) {}), node := k.node, regBytes := 32 * alloc }
      (((s.openQueues k.wgKey cs).addSkein st.core spindleSlot sp).putRegs st [.push true], .next)

/-- SPSTART (14 R356). -/
def execSpstart (x : FmtC) (s : State) : Out State :=
  .next (s.runEach (.spstart x) x.ctl x.ctl.stall false { reads := fun _ => [.reg x.reg 8], run := spstartRun x })

/-- Every Spindle thread exits: now, or at the end of the run that the Spindle is in (14 R360). -/
def State.haltSpindle (s : State) (core : Nat) : State :=
  let inRun := (((s.core core).pipe (spindleSlot / 8)).run.map fun r => r.slot == spindleSlot).getD false
  let s := s.modSkein core spindleSlot fun k => { k with halt := true }
  if inRun then s else (s.modSkein core spindleSlot Skein.haltNow).reap core spindleSlot

/-- SPSTOP (14 R360). -/
def execSpstop (x : FmtC) (s : State) : Out State :=
  .next (s.runEach (.spstop x) x.ctl x.ctl.stall false
    { run := fun st _ s => match s.tileSite st, s.skein st.core spindleSlot with
        | some (k, _, cs), some sp =>
          if sp.wgKey = k.wgKey then
            ((s.modWg k.wgKey fun w => w.closeQueues cs (x.imm.getLsbD 0)).haltSpindle st.core, .next)
          else (s, .next)
        | _, _ => (s, .next) })

/-- The Spindle skein's QPUSH of an entry: a release at .core (14 R358). -/
def qpushEntry (x : FmtX) (words : List Nat) (st : Site) (s : State) : State × Fate :=
  match s.tileSite st with
  | none => (s, .next)
  | some (k, w, cs) =>
    let n := fld x.imm 0 3
    if 64 ≤ (w.queue cs n).entries.length then (s, .wait .pushRoom words)
    else
      let s := s.drainTo st.core st.slot 2
      (s.modQueue k.wgKey cs n fun q => { q with entries := q.entries ++ [words] }, .next)

/-- QPUSH (14 R358): thread t's word at place t, zero for the others. -/
def execQpush (x : FmtX) (s : State) : Out State :=
  .next (s.runOnce (.qpush x) x.ctl { reads := fun _ => [.reg x.r1 4] } fun st go s =>
    let words := (List.range 32).map fun t => ((go.find? fun l => l.lane = t).map (·.val 0)).getD 0
    qpushEntry x words st s)

/-- QPUSH_ROOM (14 R358). -/
def execQpushRoom (core slot : Nat) (s : State) : Out State :=
  .next (s.retakeAll core slot (· = .pushRoom) fun i => match i with
    | .qpush x => some fun st l s => qpushEntry x l.vals st s
    | _ => none)

/-- An entry's words written, and true pushed, for the threads that pop or peek (14 R359): each takes the word of its place, or
under the uniform bit the leader's (14 R351). -/
def State.giveEntry (s : State) (st : Site) (uni : Bool) (dst : RegOp) (words : List Nat) : State :=
  (st.lanes.foldl (fun s l => s.hold { st with lanes := [l] } dst 4 (words.getD (if uni then st.lanes.headD l else l) 0) []) s).putRegs
    st [.push true]

/-- The order numbers of the skeins of a workgroup that wait on a core to pop a queue (14 R359). -/
def State.poppers (s : State) (core wgk n : Nat) : List Nat :=
  (s.slotsOf core).flatMap fun p =>
    if p.2.wgKey = wgk then
      (p.2.waitsFor (· = .popEntry)).filterMap fun w => match w.2.instr with
        | .qpop x => if fld x.imm 0 3 = n then some (w.2.vals.headD 0) else none
        | _ => none
    else []

/-- QPOP of the threads of a site; `since` is their place in the order of acceptance (14 R359). -/
def qpopTake (x : FmtX) (vals : List Nat) (st : Site) (s : State) : State × Fate :=
  match s.tileSite st with
  | none => (s, .next)
  | some (k, w, cs) =>
    let n := fld x.imm 0 3
    let q := w.queue cs n
    let since := vals.headD s.order
    match q.entries with
    | e :: r =>
      if (s.poppers st.core k.wgKey n).all (since ≤ ·) then
        (({ s with order := s.order + 1 }.modQueue k.wgKey cs n fun q => { q with entries := r }).giveEntry st x.ctl.uni x.r1 e, .next)
      else ({ s with order := s.order + 1 }, .wait .popEntry [since])
    | [] =>
      if q.opened then ({ s with order := s.order + 1 }, .wait .popEntry [since])
      else (s.putRegs st [.push false], .next)

/-- QPOP (14 R359). -/
def execQpop (x : FmtX) (s : State) : Out State :=
  .next (s.runOnce (.qpop x) x.ctl { dsts := fun _ => [(x.r1, 4, 1)] } fun st _ s => qpopTake x [] st s)

/-- QPOP_WAKE (14 R359): an entry has arrived, or the queue has closed. -/
def execQpopWake (core slot : Nat) (s : State) : Out State :=
  .next (s.retakeAll core slot (· = .popEntry) fun i => match i with
    | .qpop x => some fun st l s => qpopTake x l.vals st s
    | _ => none)

/-- QPEEK (14 R359). -/
def execQpeek (x : FmtX) (s : State) : Out State :=
  .next (s.runOnce (.qpeek x) x.ctl { dsts := fun _ => [(x.r1, 4, 1)] } fun st _ s =>
    match s.tileSite st with
    | none => (s, .next)
    | some (_, w, cs) => match (w.queue cs (fld x.imm 0 3)).entries with
      | e :: _ => (s.giveEntry st x.ctl.uni x.r1 e, .next)
      | [] => (s.putRegs st [.push false], .next))

-- HEDDLE

/-- A word of an entry of a Heddle call table (15 R380). -/
def HEntry.word (h : HEntry) (cycle w : Nat) : Nat :=
  match w with
  | 0 => h.target.toNat
  | 1 => 2 ^ 63 + (h.threshold - 1) * 2 ^ 54 + h.timeout * 2 ^ 38 +
      (h.timeout - (cycle - ((h.threads.head?.map (·.arrived)).getD cycle))) * 2 ^ 22 + h.threads.length
  | 2 => h.wg / 512 % 2 ^ 32 * 2 ^ 32 + h.wg / 2 ^ 41
  | _ => 0

/-- One thread's HCALL or HRET (14 R361): the control register, the target header, LINK, then the wait. -/
def heddleRun (ret : Bool) (x : FmtC) (st : Site) (l : LaneIn) (s : State) : State × Fate :=
  match s.skein st.core st.slot with
  | none => (s, .next)
  | some k =>
    let ctl := l.val 0
    let t := if ret then l.link else st.pc + word (sextTo 64 x.off * 8)
    let bad : Trap := { cause := .badTarget, addr := t }
    if bits ctl 5 11 ≠ 0 then (s, .trap { cause := .illegalField })
    else if 2 ^ 52 ≤ t.toNat ∨ t.toNat % 8 ≠ 0 then (s, .trap bad)
    else match s.fetch st.core k.ctx t (!(s.siteThread st).sup) with
      | (s, .error c) => (s, .trap { cause := c, addr := t, acc := .fetch })
      | (s, .ok h) =>
        if !isHeader h || !h.getLsbD 5 then (s, .trap bad)
        else
          let s := if ret then s else st.lanes.foldl (fun s i => s.modThread st.core st.slot i fun th =>
            th.pendLink (st.cyc + 4) k.blkEnd) s
          ({ s with order := s.order + 1 },
           .wait .heddleDrain [t.toNat, bits ctl 0 5 + 1, bits ctl 16 16, fld h 41 6, s.order])

/-- HCALL (14 R361). -/
def execHcall (x : FmtC) (s : State) : Out State :=
  .next (s.runEach (.hcall x) x.ctl x.ctl.stall false
    { reads := fun _ => [.reg x.reg 4], lead := true, run := heddleRun false x })

/-- HRET (14 R361). -/
def execHret (x : FmtC) (s : State) : Out State :=
  .next (s.runEach (.hret x) x.ctl x.ctl.stall false
    { reads := fun _ => [.reg x.reg 4], lead := true, readsLink := true, run := heddleRun true x })

/-- The register words of a thread that a repack or a save reads and that fail their parity check now (07 R204). -/
def Thread.lost (th : Thread) (keep : Nat) : List Nat := th.perr.filter fun w => decide (4 * w < keep)

/-- The first bytes of a thread's registers read with their parity, every result landed; the rest is zero (07 R204, 14 R364). -/
def Thread.keepRegs (th : Thread) (keep : Nat) : Thread :=
  let th := th.settle
  { th with regs := th.regs.filter fun p => decide (p.1 < keep)
            bad := addAll (th.lost keep) (th.bad.filter fun w => decide (4 * w < keep)), perr := [] }

/-- The bytes of an allocation that a live field keeps (03 R59, 14 R364). -/
def liveBytes (alloc live : Nat) : Nat := if live = 63 then alloc else min alloc (16 * live)

/-- The lowest skein index that no live skein of a workgroup holds (14 R363). -/
def State.freeIndex (s : State) (wgk : Nat) : Option Nat :=
  let used := (s.skeinsOf wgk false).map fun k => k.2.2.idx
  (List.range 384).find? fun i => !used.contains i

/-- One launch from an entry, where it is due and an index and a slot are free (14 R363, R364). -/
def State.heddleLaunch (s : State) (core e : Nat) : State :=
  match look (s.core core).heddle e with
  | none => s
  | some h =>
    let due := match h.threads with
      | [] => false
      | t :: _ => decide (h.threshold ≤ h.threads.length) || decide (t.arrived + h.timeout ≤ s.cycle)
    match due && !s.stopped h.wg, s.freeIndex h.wg, s.slotFor core, s.wg h.wg with
    | true, some idx, some slot, some w =>
      let go := h.threads.take 32
      let alloc := (go.map (·.alloc)).headD 64
      let keep := liveBytes alloc h.live
      let ths := go.map fun t => { t.thread.keepRegs keep with pc := h.target, blk := h.target, st := .running }
      let s := s.count w.ctx 0 ((go.map fun t => (t.thread.settle.lost keep).length).foldl (· + ·) 0)
      let k : Skein := {
        ctx := w.ctx, grid := w.grid, wg := w.lin, idx := idx, alloc := alloc, dbgctl := (s.ctx w.ctx).var.dbgdef
        threads := ths ++ List.replicate (32 - ths.length) deadThread, node := w.node, regBytes := ths.length * alloc }
      let rest := h.threads.drop 32
      let s := s.modCore core fun c =>
        { c with heddle := if rest = [] then del e c.heddle else ins e { h with threads := rest } c.heddle }
      (s.addSkein core slot k).wakeLanes core slot (List.range ths.length) h.target
    | _, _, _, _ => s

/-- Launches of an entry while they are due. -/
def State.heddleLaunches (s : State) (core e : Nat) : Nat → State
  | 0 => s
  | n + 1 => (s.heddleLaunch core e).heddleLaunches core e n

/-- The entry of a key, else the lowest free one (14 R362). -/
def Core.heddleEntry (c : Core) (wgk : Nat) (target : Word) : Option Nat :=
  match c.heddle.find? fun e => e.2.wg = wgk ∧ e.2.target = target with
  | some e => some e.1
  | none => (List.range 64).find? fun i => (look c.heddle i).isNone

/-- One group of threads joins Heddle, once its loads have landed and its skein's stores have performed at the core
(14 R361, R362). -/
def State.heddleJoin (s : State) (core slot : Nat) (w : Wait) : State :=
  match s.skein core slot with
  | none => s
  | some k =>
    let s := s.drainQueue core slot
    let k := (s.skein core slot).getD k
    if (w.lanes.any fun l => (laneOf k.threads l).held ≠ []) ∨ (k.sq.any fun e => decide (e.seq < w.seq)) ∨
        k.waitsBefore w.seq inQueue then s
    else
      let target := word (w.vals.getD 0 0)
      match (s.core core).heddleEntry k.wgKey target with
      | none => s
      | some e =>
        let old := (look (s.core core).heddle e).getD {
          wg := k.wgKey, target := target, threshold := w.vals.getD 1 1, timeout := w.vals.getD 2 0, live := w.vals.getD 3 63 }
        let come := w.lanes.map fun l =>
          { thread := { laneOf k.threads l with stopNext := false }, alloc := k.alloc, arrived := s.cycle,
            seq := w.vals.getD 4 0 : HThread }
        let s := s.modCore core fun c =>
          { c with heddle := ins e { old with threads := come.foldl (fun l t => insBy (·.seq) t l) old.threads } c.heddle }
        w.lanes.foldl (fun s l => s.modThread core slot l fun _ => deadThread) s

/-- HEDDLE_ARRIVE (14 R361 to R363): threads of a skein that have called join their entries, in the order of
acceptance. -/
def execHeddleArrive (core slot : Nat) (s : State) : Out State :=
  .next (match s.skein core slot with
    | none => s
    | some k =>
      let ws := (k.waitsFor (· = .heddleDrain)).map (·.2)
      let ws := sortBy (fun w => w.vals.getD 4 0) ws
      let seqs := (ws.map fun w => w.vals.getD 4 0).dedup
      if ws = [] ∨ s.stopped k.wgKey then s else (seqs.foldl (fun s q =>
        let s := (ws.filter fun w => w.vals.getD 4 0 == q).foldl (fun s w => s.heddleJoin core slot w) s
        ((s.core core).heddle.map (·.1)).foldl (fun s e => s.heddleLaunches core e 384) s) s).settle core slot)

/-- HEDDLE_TIMEOUT (14 R363): an entry launches by its timeout, or once an index and a slot are free. -/
def execHeddleTimeout (core entry : Nat) (s : State) : Out State := .next (s.heddleLaunches core entry 384)

end Sys2Proof.Machine
end

