-- ==== Sys2Proof/Machine/Admit.lean ====
section
/-! DEFINITION. Accesses of a context that no core makes; launch records, graph descriptors and their checks (11 R286 to
R298); room on cores and the placing of workgroups (02 R36, R47, R48, 11 R291 to R295). -/

namespace Sys2Proof.Machine

-- ACCESSES OF A CONTEXT

/-- An address of a context translated for a unit that belongs to no core: physical address and kind (07 R182). -/
def State.ctxPlace (s : State) (ctx va : Nat) (acc : AccKind) (user : Bool) : State × Except Cause (Nat × Nat) :=
  let finish (s : State) (l : Leaf) : State × Except Cause (Nat × Nat) :=
    ((s.touchLeaf l acc).1, .ok (l.pa va, bits l.pte 8 2))
  if 2 ^ 52 ≤ va ∨ va / 2 ^ 48 = 0xF then (s, .error .prot)
  else match s.walkOnly ctx va acc user with
    | (s, .error c) => (s, .error c)
    | (s, .ok (l, false)) => finish s l
    | (s, .ok (l, true)) =>
      match s.cow ctx va l true with
      | .error c => (s, .error c)
      | .ok s => match s.walkOnly ctx va acc user with
        | (s, .ok (l, _)) => finish s l
        | (s, .error c) => (s, .error c)

/-- Bytes of device kind read at the home slices for a context, within one page; the poisoned words among them. -/
def State.ctxRead (s : State) (ctx va n : Nat) : State × Except Cause (List Byte × List Nat) :=
  match s.ctxPlace ctx va .read false with
  | (s, .error c) => (s, .error c)
  | (s, .ok (pa, kind)) =>
    if kind ≠ 0 then (s, .error .prot)
    else let r := s.homeRead pa n none; (r.1, .ok (r.2.1, r.2.2.map (· - pa / 8)))

/-- Bytes of any kind read for a context, within one page (07 R178, R179). -/
def State.ctxReadAny (s : State) (ctx va n : Nat) : State × Except Cause (List Byte × List Nat) :=
  match s.ctxPlace ctx va .read false with
  | (s, .error c) => (s, .error c)
  | (s, .ok (pa, kind)) => match kind with
    | 1 => if s.linkDenies pa n then (s.count ctx 13 1, .error .eccPoison) else (s, .ok (bytesAt s.mem.host pa n, []))
    | 2 => (s, .error .prot)
    | _ => let r := s.homeRead pa n none; (r.1, .ok (r.2.1, r.2.2.map (· - pa / 8)))

/-- Bytes of device kind written at the home slices for a context, within one page. -/
def State.ctxWriteBytes (s : State) (ctx va : Nat) (bs : List Byte) (bad : List Nat) : State × Except Cause Unit :=
  match s.ctxPlace ctx va .write false with
  | (s, .error c) => (s, .error c)
  | (s, .ok (pa, kind)) =>
    if kind ≠ 0 then (s, .error .prot) else (s.homeWrite pa bs (bad.map (pa / 8 + ·)) none, .ok ())

/-- Bytes of a context stored where its translation says (07 R178), within one page. -/
def State.ctxStore (s : State) (ctx va : Nat) (bs : List Byte) (user : Bool) : State × Option Cause :=
  match s.ctxPlace ctx va .write user with
  | (s, .error c) => (s, some c)
  | (s, .ok (pa, kind)) => match kind with
    | 1 => (s.linkPut ctx pa bs false, none)
    | 2 => (s.linkPut ctx pa bs true, none)
    | _ => (s.homeWrite pa bs [] none, none)

/-- Bytes of a context stored over several pages, until one faults; the address of the first byte not stored, and why. -/
def State.ctxStores (ctx : Nat) : Nat → Nat → List Byte → State → State × Option (Nat × Cause)
  | 0, _, _, s => (s, none)
  | _ + 1, _, [], s => (s, none)
  | n + 1, va, b :: r, s =>
    let k := 4096 - va % 4096
    match s.ctxStore ctx va ((b :: r).take k) false with
    | (s, some c) => (s, some (va, c))
    | (s, none) => ctxStores ctx n (va + k) ((b :: r).drop k) s

-- RECORDS

/-- A number within a record's bytes. -/
def numAt (bs : List Byte) (off n : Nat) : Nat := ofBytes ((bs.drop off).take n)

/-- A launch record from its 64 bytes (11 R286). -/
def recordOf (bs : List Byte) : Record := {
  entry := word (numAt bs 0 8), param := word (numAt bs 8 8), completion := word (numAt bs 16 8), seq := word (numAt bs 24 8)
  x := numAt bs 32 4, y := numAt bs 36 4, z := numAt bs 40 4, threads := numAt bs 44 2, regbytes := numAt bs 46 1
  scratch := 256 * numAt bs 47 2, views := Views.unpack (word (numAt bs 49 8)), cls := numAt bs 57 1, band := numAt bs 58 1
  scope := numAt bs 59 1, kind := numAt bs 60 1, frames := numAt bs 61 1 }

/-- Reason 1 of 11 R287, the graph descriptor apart. -/
def recordFields (bs : List Byte) : Bool :=
  let r := recordOf bs
  r.entry.toNat / 2 ^ 52 == 0 && r.entry.toNat % (if r.kind = 1 then 64 else 8) == 0 && r.completion.toNat % 8 == 0 &&
  decide (1 ≤ r.regbytes ∧ r.regbytes ≤ 16) && decide (r.scratch ≤ 5120 * 256) && decide (r.cls ≤ 2) &&
  decide (r.band ≤ 2) && decide (r.scope ≤ 5) && decide (r.kind ≤ 1) && decide (r.frames ≤ 64) && numAt bs 62 2 == 0 &&
  (r.kind == 1 || decide (1 ≤ r.threads ∧ r.threads ≤ 12288))

/-- Threads of a workgroup of a record: 32 in a graph. -/
def Record.threadCount (r : Record) : Nat := if r.kind = 1 then 32 else r.threads

/-- Register bytes of a thread. -/
def Record.alloc (r : Record) : Nat := 64 * r.regbytes

/-- The number of workgroups of a grid (02 R50); a graph launches its own. -/
def Record.total (r : Record) : Nat := if r.kind = 1 then 0 else r.x * r.y * r.z

-- GRAPH DESCRIPTORS

/-- What reading a record's descriptor comes to: a graph, a fault that may be resolved, or a rejection. -/
inductive GraphCheck where
  | ok (g : Graph)
  | page (c : Cause) (va : Nat)
  | bad

/-- A descriptor's entry for node i of n, checked (11 R298). -/
def nodeOf (n i : Nat) (bs : List Byte) : Option Node :=
  let kind := numAt bs 20 1
  let out := numAt bs 22 1
  let target := if out = 0 then i + 1 else out
  let emits := kind = 1 ∨ kind = 2 ∨ kind = 3
  if numAt bs 8 8 % 64 = 0 ∧ 32 ≤ numAt bs 16 4 ∧ numAt bs 16 4 ≤ 2 ^ 20 ∧ kind ≤ 6 ∧ numAt bs 21 1 ≤ 64 ∧
      numAt bs 23 9 = 0 ∧ (if emits then i < target ∧ target < n else out = 0) then
    some { entry := word (numAt bs 0 8), arena := word (numAt bs 8 8), cap := numAt bs 16 4, kind := kind,
           output := if emits then target else 0 }
  else none

/-- Whether the node kinds suit a graph, or a strip chain (02 R54, 12 R313). -/
def kindsOk (strip : Bool) (ks : List Nat) : Bool :=
  let n (k : Nat) : Nat := (ks.filter (· = k)).length
  if strip then n 1 == 1 && n 2 == 1 && n 4 == 1 && decide (n 5 ≤ 1) && n 6 == n 5
  else n 1 == 0 && n 2 == 0 && n 4 == 0 && n 5 == 0 && n 6 == 0

/-- A page that a graph uses: translated, and of device kind if it is an arena's. -/
def State.graphPage (s : State) (ctx va : Nat) (acc : AccKind) : State × Option GraphCheck :=
  match s.ctxPlace ctx va acc false with
  | (s, .ok (_, kind)) => (s, if acc = .write ∧ kind ≠ 0 then some .bad else none)
  | (s, .error c) => (s, some (if c.replayable then .page c va else .bad))

/-- Every page of a list of ranges, until one fails. -/
def State.graphPages (ctx : Nat) (acc : AccKind) : List Nat → State → State × Option GraphCheck
  | [], s => (s, none)
  | k :: r, s => match s.graphPage ctx (4096 * k) acc with
    | (s, some e) => (s, some e)
    | (s, none) => graphPages ctx acc r s

/-- The node entries of a descriptor. -/
def State.graphNodes (ctx base n : Nat) : Nat → Nat → List Node → State → State × Except GraphCheck (List Node)
  | 0, _, acc, s => (s, .ok acc.reverse)
  | k + 1, i, acc, s => match s.ctxRead ctx (base + 64 + 32 * i) 32 with
    | (s, .error c) => (s, .error (if c.replayable then .page c (base + 64 + 32 * i) else .bad))
    | (s, .ok (_, _ :: _)) => (s, .error .bad)
    | (s, .ok (bs, [])) => match nodeOf n i bs with
      | none => (s, .error .bad)
      | some x => graphNodes ctx base n k (i + 1) (x :: acc) s

/-- A graph descriptor read and checked (11 R298). -/
def State.graphOf (s : State) (ctx base : Nat) (strip : Bool) : State × GraphCheck :=
  match s.ctxRead ctx base 64 with
  | (s, .error c) => (s, if c.replayable then .page c base else .bad)
  | (s, .ok (_, _ :: _)) => (s, .bad)
  | (s, .ok (h, [])) =>
    let n := numAt h 0 2
    let left := numAt h 4 4
    let init := numAt h 8 8
    if n = 0 ∨ 64 < n ∨ 2 ^ 20 < left ∨ init % 64 ≠ 0 ∨ numAt h 2 2 ≠ 0 ∨ numAt h 16 48 ≠ 0 then (s, .bad)
    else match State.graphNodes ctx base n n 0 [] s with
      | (s, .error e) => (s, e)
      | (s, .ok nodes) =>
        if !kindsOk strip (nodes.map (·.kind)) then (s, .bad)
        else match State.graphPages ctx .write (nodes.flatMap fun x => units 4096 x.arena.toNat (64 * x.cap)) s with
          | (s, some e) => (s, e)
          | (s, none) => match State.graphPages ctx .read (units 4096 init (64 * left)) s with
            | (s, some e) => (s, e)
            | (s, none) => (s, .ok { nodes := nodes, init := word init, left := left })

-- ROOM

/-- What a core has free (11 R293), and whether it already holds a workgroup of the context. -/
structure Room where
  core : Nat
  slots : Nat
  regs : Nat
  scr : Nat
  frames : Nat
  held : Bool
  deriving DecidableEq, Repr

/-- The workgroups with a part on a core. -/
def State.wgsOn (s : State) (core : Nat) : List Workgroup :=
  (s.wgs.filter fun w => w.2.cluster.contains core).map (·.2)

/-- Whether a workgroup belongs to a strip chain. -/
def State.isStrip (s : State) (w : Workgroup) : Bool := ((s.grid w.ctx w.grid).bind (·.strip)).isSome

/-- Whether a core is being vacated (11 R304). -/
def State.vacating (s : State) (core : Nat) : Bool := s.vacates.any fun v => v.2.started && v.2.cores.contains core

/-- The ways that a core is to lend: the largest CARVECFG.ways of the contexts resident on it and of those given, which
are being placed (07 R198). -/
def State.carveDue (s : State) (core : Nat) (ctxs : List Nat) : Nat :=
  ((ctxs ++ (s.wgsOn core).map (·.ctx)).map fun c => (s.ctx c).var.carve).foldl max 0

/-- Scratchpad bytes of a core with n lent ways: 1 MiB and 32 KiB for each (07 R198). -/
def scratchOf (n : Nat) : Nat := 2 ^ 20 + 32768 * n

/-- Scratchpad bytes that a core's workgroups were granted. -/
def State.granted (s : State) (core : Nat) : Nat := ((s.wgsOn core).map (·.scratch)).foldl (· + ·) 0

/-- The room of a core for a context; ways that are to go back to L1 take no new grant (07 R198). -/
def State.room (s : State) (ctx core : Nat) : Room :=
  let ws := s.wgsOn core
  { core := core
    slots := 1023 - ((s.slotsOf core).filter fun k => k.1 ≠ spindleSlot).length
    regs := regFile - s.regUse core
    scr := scratchOf (min (s.core core).lent (s.carveDue core [ctx])) - s.granted core
    frames := 64 - (ws.map (·.frames)).foldl (· + ·) 0
    held := ws.any fun w => w.ctx == ctx && !s.isStrip w }

/-- The cores open to the distributor: neither vacated nor reserved (11 R293); none for a context that is being reset (19
R460). -/
def State.rooms (s : State) (ctx : Nat) : List Room :=
  if (s.ctx ctx).resetting then [] else ((List.range 72).filter fun c => !s.vacating c && (look s.reserved c).isNone).map (s.room ctx)

/-- How many further cores the quota lets a context take; reserved ones do not count (11 R292, 12 R318). -/
def State.quotaLeft (s : State) (ctx : Nat) : Nat :=
  (s.ctx ctx).var.quota -
    (((List.range 72).filter fun c => (look s.reserved c).isNone).map (s.room ctx) |>.filter (·.held)).length

/-- Register bytes of each skein of a workgroup: its threads' allocations. -/
def Record.needs (r : Record) : List Nat :=
  (List.range (ceilDiv r.threadCount 32)).map fun i => min 32 (r.threadCount - 32 * i) * r.alloc

/-- How many of the skeins a core takes: as many, in order, as it holds, so that a lower core fills before the next (02 R47, log
entry 55). -/
def Room.takes (slots regs : Nat) : List Nat → Nat
  | [] => 0
  | n :: r => if 0 < slots ∧ n ≤ regs then takes (slots - 1) (regs - n) r + 1 else 0

/-- The skeins spread over cores in order: the count of each, none where they do not fit or a core stays without. -/
def splitRun : List Room → List Nat → Option (List Nat)
  | [], [] => some []
  | [], _ :: _ => none
  | m :: r, need =>
    let k := Room.takes m.slots m.regs need
    if k = 0 then none else (splitRun r (need.drop k)).map (k :: ·)

/-- A cluster of cores that holds a workgroup of a record, with the skeins of each (02 R47, R48, 11 R292, R293). -/
def clusterFor (limit : Nat) (r : Record) (ms : List Room) : Option (List (Nat × Nat)) :=
  if (ms.all fun m => decide (r.scratch ≤ m.scr ∧ r.frames ≤ m.frames) && sectorOf m.core == sectorOf ((ms.map (·.core)).headD 0)) &&
      decide ((ms.filter fun m => !m.held).length ≤ limit) then
    (splitRun ms r.needs).map fun ks => (ms.map (·.core)).zip ks
  else none

/-- The sets of k rooms of one sector, in the order in which the distributor prefers sectors, most free register bytes
first, and lower cores first within one (11 R293). -/
def roomSets (k : Nat) (ms : List Room) : List (List Room) :=
  let free (l : List Room) : Nat := (l.map (·.regs)).foldl (· + ·) 0
  let put (x : List Room) (l : List (List Room)) : List (List Room) :=
    l.takeWhile (fun y => decide (free x < free y)) ++ x :: l.dropWhile fun y => decide (free x < free y)
  (([0, 1, 2].map fun sec => ms.filter fun m => sectorOf m.core == sec).foldr put []).flatMap fun l =>
    (l.sublistsLen k).reverse

/-- The first of the elements with the greatest measure. -/
def firstMost {α : Type} (f : α → Nat) : List α → Option α
  | [] => none
  | x :: r => some (r.foldl (fun b y => if f b < f y then y else b) x)

/-- Of the rooms, how many of a list of cores hold the context already. -/
def heldOf (ms : List Room) (cores : List Nat) : Nat := (ms.filter fun m => m.held && cores.contains m.core).length

/-- The cluster of k cores that the distributor prefers for a workgroup (11 R293). -/
def clusterOf (limit : Nat) (r : Record) (ms : List Room) (k : Nat) : Option (List (Nat × Nat)) :=
  firstMost (fun cl => heldOf ms (cl.map (·.1))) ((roomSets k ms).filterMap (clusterFor limit r))

/-- A cluster for a workgroup: the fewest cores that hold it (02 R47). -/
def pickCluster (limit : Nat) (r : Record) (ms : List Room) : Option (List (Nat × Nat)) :=
  [1, 2, 3, 4].findSome? (clusterOf limit r ms)

/-- A given cluster, where it is one that the distributor may choose. -/
def checkCluster (limit : Nat) (r : Record) (ms : List Room) (cluster : List Nat) : Option (List (Nat × Nat)) :=
  let mine := ms.filter fun m => cluster.contains m.core
  match pickCluster limit r ms with
  | none => none
  | some best =>
    if best.length = cluster.length ∧ mine.map (·.core) = cluster then clusterFor limit r mine else none

/-- The rooms once a cluster has taken a workgroup. -/
def takeRooms (r : Record) (cl : List (Nat × Nat)) (ms : List Room) : List Room :=
  (ms.foldl (fun (acc : List Room × List Nat) m => match cl.find? fun c => c.1 = m.core with
    | none => (acc.1 ++ [m], acc.2)
    | some (_, k) =>
      (acc.1 ++ [{ m with slots := m.slots - k, regs := m.regs - (acc.2.take k).foldl (· + ·) 0, scr := m.scr - r.scratch,
                          frames := m.frames - r.frames, held := true }], acc.2.drop k)) ([], r.needs)).1

/-- Clusters for n workgroups at once, none where they do not all fit. -/
def pickAll (r : Record) : Nat → Nat → List Room → Option (List (List (Nat × Nat)))
  | 0, _, _ => some []
  | n + 1, limit, ms => match pickCluster limit r ms with
    | none => none
    | some cl =>
      let fresh := (cl.filter fun c => (ms.any fun m => m.core == c.1 && !m.held)).length
      (pickAll r n (limit - fresh) (takeRooms r cl ms)).map (cl :: ·)

/-- Whether a context's quota holds every workgroup of a concurrent grid, with its other workgroups absent (11 R287
reason 5). -/
def State.quotaHolds (s : State) (ctx : Nat) (r : Record) : Bool :=
  let q := min 72 (s.ctx ctx).var.quota
  let empty : List Room := (List.range 72).map fun c =>
    { core := c, slots := 1023, regs := regFile, scr := scratchOf (s.ctx ctx).var.carve, frames := 64, held := false }
  decide (r.total ≤ 1023 * q) && (pickAll r r.total q empty).isSome

-- PLACING

/-- The threads of skein i of a workgroup (02 R36, 04 R85, R86); `recs` are the records of a node's threads, with their
poisoned words (02 R55, 07 R203). -/
def skeinThreads (r : Record) (entry : Word) (i : Nat) (recs : Option (List (List Byte × List Nat))) : List Thread :=
  (List.range 32).map fun t =>
    match recs with
    | none => if 32 * i + t < r.threadCount then newThread entry r.param r.views else deadThread
    | some l => match l[t]? with
      | none => deadThread
      | some (bs, bad) =>
        let th := newThread entry r.param r.views
        { th with regs := putBytes 64 bs th.regs, bad := bad.flatMap fun w => [16 + 2 * w, 17 + 2 * w] }

/-- The skeins of a workgroup placed on its cluster, from number i on (11 R295). -/
def State.placeSkeins (g : Grid) (lin : Nat) (entry : Word) (node : Option Nat)
    (recs : Option (List (List Byte × List Nat))) : List Nat → Nat → State → State
  | [], _, s => s
  | core :: r, i, s =>
    match s.slotFor core with
    | none => s
    | some slot =>
      let n := match recs with
        | none => min 32 (g.lr.threadCount - 32 * i)
        | some l => l.length
      let k : Skein := {
        ctx := g.ctx, grid := g.num, wg := lin, idx := i, alloc := g.lr.alloc, dbgctl := (s.ctx g.ctx).var.dbgdef
        threads := skeinThreads g.lr entry i recs, node := node, regBytes := n * g.lr.alloc }
      placeSkeins g lin entry node recs r (i + 1) (s.addSkein core slot k)

/-- A workgroup admitted on a cluster: a new generation, its grant zeroed and present, its skeins in slots (02 R36, R48,
07 R192, 08 R229, 11 R295). -/
def State.placeWg (s : State) (g : Grid) (lin : Nat) (entry : Word) (node : Option Nat)
    (recs : Option (List (List Byte × List Nat))) (cl : List (Nat × Nat)) : State :=
  let w : Workgroup := {
    ctx := g.ctx, grid := g.num, lin := lin, gen := s.order
    x := if g.lr.kind = 1 then lin else lin % g.lr.x, y := if g.lr.kind = 1 then 0 else lin / g.lr.x % g.lr.y
    z := if g.lr.kind = 1 then 0 else lin / (g.lr.x * g.lr.y)
    threads := g.lr.threadCount, regBytes := g.lr.alloc, scratch := g.lr.scratch, frames := g.lr.frames
    cluster := cl.map (·.1), views := g.lr.views, cls := g.lr.cls, band := g.lr.band, param := g.lr.param, entry := entry
    node := node, wdStart := s.time.now }
  let s := { s with wgs := ins (wgKey g.ctx g.num lin) w s.wgs, order := s.order + 1 }
  State.placeSkeins g lin entry node recs (cl.flatMap fun c => List.replicate c.2 c.1) 0 s

end Sys2Proof.Machine
end

