-- ==== Sys2Proof/Machine/Graph.lean ====
section
/-! DEFINITION. Work graphs: node input queues, closing, EMIT and NCLOSE (02 R54 to R56, 11 R298, 14 R354, R355), and
DLAUNCH (14 R352, R353). -/

namespace Sys2Proof.Machine

-- NODES

/-- The graph of a grid. -/
def State.graph (s : State) (ctx grid : Nat) : Option Graph := (s.grid ctx grid).bind (·.graph)

/-- The graph of a grid changed. -/
def State.modGraph (s : State) (ctx grid : Nat) (f : Graph → Graph) : State :=
  s.modGrid ctx grid fun g => { g with graph := g.graph.map f }

/-- A node of a graph changed. -/
def State.modNode (s : State) (ctx grid i : Nat) (f : Node → Node) : State :=
  s.modGraph ctx grid fun g => { g with nodes := modAt i f g.nodes }

/-- The workgroups of a grid, resident or vacated. -/
def State.gridWgs (s : State) (ctx grid : Nat) : List Workgroup :=
  ((s.wgs.map (·.2)) ++ s.saved.map (·.2.wg)).filter fun w => w.ctx == ctx && w.grid == grid

/-- Whether a node has closed its output to node n (14 R355); `input` says whether its own input is closed. -/
def Node.outClosed (x : Node) (ws : List Workgroup) (m n : Nat) (input : Bool) : Bool :=
  input && x.count == 0 && x.out.isEmpty &&
  (if x.kind = 0 then ws.all fun w => w.node != some m || w.closed.contains n
   else if x.kind = 4 ∨ x.kind = 5 then x.ended else true)

/-- Whether each node's input is closed, by number (14 R355, 11 R298). -/
def Graph.inputs (g : Graph) (ws : List Workgroup) : List Bool :=
  (List.range g.nodes.length).foldl (fun acc n =>
    acc ++ [(n != 0 || g.left == 0) && (List.range n).all fun m => match g.nodes[m]? with
      | some x => x.outClosed ws m n (acc.getD m false)
      | none => true]) []

/-- Whether node n's input is closed. -/
def State.inputClosed (s : State) (ctx grid n : Nat) : Bool :=
  match s.graph ctx grid with
  | none => false
  | some g => (g.inputs (s.gridWgs ctx grid)).getD n false

/-- An event about a grid from a unit of no core (11 R299). -/
def gridEvent (kind grid va detail : Nat) : Event :=
  { kind := kind, grid := grid, addr := word va, detail := detail }

/-- A graph abandoned by a fault on a record (11 R298). -/
def State.abandon (s : State) (ctx grid va : Nat) : State :=
  (s.modGraph ctx grid fun g => { g with abandoned := true }).post ctx false (gridEvent 6 grid va 0)

/-- A fault on a record of node n: a page fault holds the writes of its records, or what the node does itself, until the host
answers; another abandons the graph (11 R298). -/
def State.recordFault (s : State) (ctx grid n va : Nat) (c : Cause) (acc : AccKind) (own : Bool) : State :=
  if c.replayable then
    (s.modNode ctx grid n fun x => { x with stalled := x.stalled || !own, waits := x.waits || own }).postFault ctx
      { gridEvent 1 grid va (8 + accDetail acc) with cause := causeWord c false false } (.arena grid n va own)
  else s.abandon ctx grid va

/-- The address of a slot of a node's arena, counted from its oldest record. -/
def Node.slot (x : Node) (k : Nat) : Nat := x.arena.toNat + 64 * ((x.head + k) % x.cap)

/-- A record placed in a node's input queue: true where it is taken (or discarded by an abandoned graph), false where
the producer waits (14 R354, 11 R298). -/
def State.placeRecord (s : State) (ctx grid n : Nat) (bs : List Byte) (bad : List Nat) : State × Bool :=
  match s.graph ctx grid with
  | none => (s, true)
  | some g => match g.nodes[n]? with
    | none => (s, true)
    | some x =>
      if g.abandoned then (s, true)
      else if x.stalled ∨ x.cap ≤ x.count then (s, false)
      else match s.ctxWriteBytes ctx (x.slot x.count) bs bad with
        | (s, .ok ()) => (s.modNode ctx grid n fun x => { x with count := x.count + 1 }, true)
        | (s, .error c) =>
          let s := s.recordFault ctx grid n (x.slot x.count) c .write false
          (s, !c.replayable)

/-- Node 0 takes initial records while its arena has room, at most n (11 R298). -/
def State.feed (ctx grid : Nat) : Nat → State → State
  | 0, s => s
  | n + 1, s => match s.graph ctx grid with
    | none => s
    | some g => match g.nodes[0]? with
      | none => s
      | some x =>
        if g.left = 0 ∨ g.abandoned ∨ x.stalled ∨ x.cap ≤ x.count then s
        else match s.ctxReadAny ctx g.init.toNat 64 with
          | (s, .error c) => s.recordFault ctx grid 0 g.init.toNat c .read false
          | (s, .ok (bs, bad)) => match s.placeRecord ctx grid 0 bs bad with
            | (s, false) => s
            | (s, true) => feed ctx grid n (s.modGraph ctx grid fun g => { g with left := g.left - 1, init := g.init + 64 })

/-- The oldest records of a node read and taken out, at most n; fewer where one faults (11 R298). -/
def State.takeRecords (ctx grid i : Nat) : Nat → List (List Byte × List Nat) → State → State × Option (List (List Byte × List Nat))
  | 0, acc, s => (s, some acc.reverse)
  | n + 1, acc, s => match (s.graph ctx grid).bind (·.nodes[i]?) with
    | none => (s, none)
    | some x => match s.ctxRead ctx (x.slot acc.length) 64 with
      | (s, .error c) => (s.recordFault ctx grid i (x.slot acc.length) c .read true, none)
      | (s, .ok r) => takeRecords ctx grid i n (r :: acc) s

/-- n records leave a node's queue; node 0 takes initial records into the slots freed. -/
def State.dropRecords (s : State) (ctx grid i n : Nat) : State :=
  let s := s.modNode ctx grid i fun x => { x with head := (x.head + n) % x.cap, count := x.count - n }
  if i = 0 then State.feed ctx grid n s else s

/-- A node's records placed in its output node while there is room (14 R354). -/
def State.pump (ctx grid i target : Nat) : Nat → State → State
  | 0, s => s
  | n + 1, s => match (s.graph ctx grid).bind (·.nodes[i]?) with
    | none => s
    | some x => match x.out with
      | [] => s
      | r :: rest => match s.placeRecord ctx grid target r [] with
        | (s, false) => s
        | (s, true) => pump ctx grid i target n (s.modNode ctx grid i fun x => { x with out := rest })

/-- A node's output given to its output node, and whether none of it is left. -/
def State.flush (s : State) (ctx grid i target : Nat) : State × Bool :=
  let n := (((s.graph ctx grid).bind (·.nodes[i]?)).map (·.out.length)).getD 0
  let s := State.pump ctx grid i target n s
  (s, (((s.graph ctx grid).bind (·.nodes[i]?)).map (·.out.isEmpty)).getD false)

/-- A Scarab node takes its oldest record (02 R54, 11 R298): how many records it emits for it, and what they hold, are free
values (log entry 15). -/
def State.scarabNode (s : State) (ctx grid i : Nat) (x : Node) : State :=
  match s.flush ctx grid i x.output with
  | (s, false) => s
  | (s0, true) =>
    if x.count = 0 then s0
    else match State.takeRecords ctx grid i 1 [] s0 with
      | (s, none) => s
      | (s, some _) =>
        let n := (Config.freeByte s.free).toNat
        let recs := (List.range n).map fun j => (List.range 64).map fun b => Config.freeByte (s.free + 1 + 64 * j + b)
        let s := { s with free := s.free + 1 + 64 * n }
        (((s.dropRecords ctx grid i 1).modNode ctx grid i fun x => { x with out := recs }).flush ctx grid i x.output).1

-- EMIT AND NCLOSE

/-- The order numbers of the threads that wait to emit, those of one thread apart: of its skein, whose records are accepted in
program order (02 R54, 14 R354), or of its whole workgroup, which NCLOSE awaits (14 R355). -/
def State.emitters (s : State) (wgk core slot lane : Nat) (whole : Bool) : List Nat :=
  s.skeins.flatMap fun p =>
    if p.2.wgKey = wgk ∧ (whole = true ∨ p.1 = slotKey core slot) then
      (p.2.waitsFor (· = .arenaRoom)).filterMap fun w =>
        if p.1 = slotKey core slot ∧ w.1 = lane then none else some (w.2.vals.getD 1 0)
    else []

/-- The graph node of the issuing workgroup, where it may name node n: in the order of 14 R354. -/
def State.mayEmit (s : State) (k : Skein) (n : Nat) (again : Bool) : Bool :=
  match s.wg k.wgKey, s.graph k.ctx k.grid with
  | some w, some g => match w.node with
    | some own => decide (n < g.nodes.length) && decide (own < n) && (again || !w.closed.contains n)
    | none => false
  | _, _ => false

/-- One thread's EMIT (14 R354): a release at .dev; it waits behind the skein's earlier waiting records. -/
def emitRun (x : FmtX) (st : Site) (l : LaneIn) (s : State) : State × Fate :=
  match s.skein st.core st.slot with
  | none => (s, .next)
  | some k =>
    let n := fld x.imm 0 6
    if !s.mayEmit k n false then (s, .trap { cause := .illegalField })
    else
      let since := l.vals.getD 1 s.order
      let s := if l.vals.length < 2 then { s with order := s.order + 1 } else s
      let wait : Fate := .wait .arenaRoom [l.val 0, since]
      if (s.emitters k.wgKey st.core st.slot st.lane false).any (· < since) then (s, wait)
      else match (s.drainTo st.core st.slot 4).placeRecord k.ctx k.grid n (toBytes 64 (l.val 0)) [] with
        | (s, true) => (s, .next)
        | (s, false) => (s, wait)

/-- EMIT (14 R354). -/
def execEmit (x : FmtX) (s : State) : Out State :=
  .next (s.runEach (.emit x) x.ctl 0 false { reads := fun _ => [.group x.r1 8 8], run := emitRun x })

/-- NCLOSE of the issuing workgroup: after its earlier records have been accepted (14 R355). -/
def ncloseRun (x : FmtX) (st : Site) (l : LaneIn) (s : State) : State × Fate :=
  match s.skein st.core st.slot with
  | none => (s, .next)
  | some k =>
    let n := fld x.imm 0 6
    if !s.mayEmit k n true then (s, .trap { cause := .illegalField })
    else
      let since := l.vals.getD 1 s.order
      if (s.emitters k.wgKey st.core st.slot st.lane true).any (· < since) then
        ({ s with order := s.order + 1 }, .wait .arenaRoom [0, since])
      else (s.modWg k.wgKey fun w => { w with closed := addTo n w.closed }, .next)

/-- NCLOSE (14 R355). -/
def execNclose (x : FmtX) (s : State) : Out State :=
  .next (s.runEach (.nclose x) x.ctl 0 false { run := ncloseRun x })

/-- ARENA_ROOM (14 R354, R355): a waiting record is placed, or a close that waited behind records is performed. -/
def execArenaRoom (core slot lane : Nat) (s : State) : Out State :=
  .next (match s.waitingFor core slot lane (· = .arenaRoom) with
    | none => s
    | some w => match w.instr with
      | .emit x => s.retake core slot lane w (emitRun x)
      | .nclose x => s.retake core slot lane w (ncloseRun x)
      | _ => s)

-- DLAUNCH

/-- One thread's DLAUNCH (14 R352, R353). -/
def dlaunchRun (x : FmtX) (st : Site) (l : LaneIn) (s : State) : State × Fate :=
  match s.skein st.core st.slot with
  | none => (s, .next)
  | some k =>
    let depth := ((s.grid k.ctx k.grid).map (·.depth)).getD 0
    let mine := (s.pending.filter fun p => p.ctx = k.ctx).length
    if 10 ≤ depth then (s, .trap { cause := .nestDepth })
    else if 4096 ≤ s.pending.length ∨ (s.ctx k.ctx).var.pendQuota ≤ mine then
      if x.ctl.flag then (s.putRegs st [.push false], .next) else (s, .trap { cause := .launchFull })
    else
      let s := s.drainTo st.core st.slot 4
      let s := { s with pending := s.pending ++
        [{ ctx := k.ctx, parent := k.grid, depth := depth + 1, bytes := toBytes 64 (l.val 0) }] }
      (if x.ctl.flag then s.putRegs st [.push true] else s, .next)

/-- DLAUNCH (14 R352). -/
def execDlaunch (x : FmtX) (s : State) : Out State :=
  .next (s.runEach (.dlaunch x) x.ctl 0 false { reads := fun _ => [.group x.r1 8 8], run := dlaunchRun x })

end Sys2Proof.Machine
end

