-- ==== Sys2Proof/Machine/Chain.lean ====
section
/-! DEFINITION. The strip ring: regions, slot headers and the freeing of slots (12 R322 to R327); the end of a chain
(12 R318, R324). -/

namespace Sys2Proof.Machine

/-- The time counter in the units of 12 R308. -/
def State.unitsNow (s : State) : Int := ((s.time.now / 2 ^ 24 : Nat) : Int)

/-- A plain register of window 0, zero at reset. -/
def State.reg0 (s : State) (off : Nat) : Word := lookD 0 s.w0 off

-- REGIONS AND SLOTS

/-- A consumer's region (12 R322). -/
structure Region where
  valid : Bool
  n : Nat
  base : Nat
  size : Nat
  low : Nat
  deriving DecidableEq, Repr

/-- The region of consumer j, from its descriptor in window 0 (19 R452). -/
def State.region (s : State) (j : Nat) : Region :=
  let w0 := (s.reg0 (0x021000 + 16 * j)).toNat
  let w1 := (s.reg0 (0x021008 + 16 * j)).toNat
  { valid := bits w0 63 1 == 1, n := bits w0 48 7, base := bits w0 0 26, size := bits w1 0 24, low := bits w1 32 24 }

/-- Where output slot j begins (12 R323). -/
def Region.outAt (r : Region) (j : Nat) : Nat := r.base + j * r.size

/-- Where low-res slot j begins (12 R323). -/
def Region.lowAt (r : Region) (j : Nat) : Nat := r.base + r.n * r.size + j * r.low

/-- Bytes of the strip ring. -/
def State.ringBytes (s : State) (a n : Nat) : List Byte := bytesAt s.mem.strip a n

/-- The tag of the slot at a. -/
def State.slotTag (s : State) (a : Nat) : Nat := natAt s.mem.strip a 8

/-- The states of the slot at a: bit 0 claimed, 1 complete, 2 late (12 R323). -/
def State.slotBits (s : State) (a : Nat) : Nat := natAt s.mem.strip (a + 8) 1

/-- Whether the slot at a is claimed. -/
def State.claimed (s : State) (a : Nat) : Bool := s.slotBits a % 2 == 1

/-- States of the slot at a set. -/
def State.setSlot (s : State) (a v : Nat) : State := s.putRing (a + 8) (toBytes 1 (Nat.lor (s.slotBits a) v))

/-- The slot at a freed: no longer claimed; its tag and other states stay until it is claimed again. -/
def State.freeAt (s : State) (a : Nat) : State := s.putRing (a + 8) (toBytes 1 (s.slotBits a / 2 * 2))

/-- The slot at a claimed for a tag: its header, the pixels unchanged (12 R323, R324). -/
def State.claim (s : State) (a tag : Nat) : State := s.putRing a (toBytes 8 tag ++ toBytes 1 1 ++ toBytes 119 0)

/-- Whether a write of a chain lands in the slot at a: it holds the chain's tag and is not late (12 R325). -/
def State.lands (s : State) (a tag : Nat) : Bool := s.slotTag a == tag && s.slotBits a / 4 % 2 == 0

/-- The key of slot j of a consumer. -/
def slotAt (entry j : Nat) : Nat := 64 * entry + j

-- CHAINS

/-- Whether the chain of a strip runs, of an entry's enable. -/
def State.chainLive (s : State) (entry gen g : Nat) : Bool :=
  s.grids.any fun x => (x.2.strip.map fun t => t.entry == entry && t.gen == gen && t.g == g).getD false

/-- Whether a chain belongs to the present enable of its entry. -/
def State.current (s : State) (t : Strip) : Bool := ((look s.sched t.entry).map fun e => e.gen == t.gen).getD false

/-- Whether a strip of an entry's enable is past admission: admitted or denied, or never to be. -/
def State.passed (s : State) (entry gen g : Nat) : Bool :=
  match look s.sched entry with
  | none => true
  | some e => e.gen != gen || (decide (g < e.next) && !e.tries.any fun t => t.1 == g)

/-- Low-res slots that are done with: the output slot is free, and the next strip's chain has retired or was denied
(12 R324). -/
def State.sweepLow (s : State) (entry : Nat) : State :=
  let r := s.region entry
  if r.low = 0 then s
  else (List.range r.n).foldl (fun s j =>
    match look s.slots (slotAt entry j) with
    | none => s
    | some (g, gen) =>
      if s.claimed (r.lowAt j) && !s.claimed (r.outAt j) && s.passed entry gen (g + 1) && !s.chainLive entry gen (g + 1) then
        s.freeAt (r.lowAt j)
      else s) s

/-- An output slot that its consumer has finished with (12 R324, R326, R327). -/
def State.freeOut (s : State) (entry j : Nat) : State := (s.freeAt ((s.region entry).outAt j)).sweepLow entry

/-- The retirement of a chain (12 R318, R324): complete is set while the slot is the chain's, its cores go back, and a
slot whose consumer is no longer enabled is free. -/
def State.stripRetire (s : State) (key : Nat) (t : Strip) : State :=
  let s := { s with reserved := s.reserved.filter fun p => p.2 != key }
  let s := if s.claimed t.out && s.slotTag t.out == t.tag then s.setSlot t.out 2 else s
  if s.current t || !(s.slotTag t.out == t.tag) then s else s.freeAt t.out

end Sys2Proof.Machine
end

