-- ==== Sys2Proof/Machine/Boards.lean ====
section
/-! DEFINITION. Boarding records: slots, ring marks, counters and drops (13 R339 to R347). -/

namespace Sys2Proof.Machine

/-- The cluster slot of a boarding record's workgroup on its core. -/
def State.boardSlot (s : State) (core : Nat) (b : Board) : Nat := ((s.wg b.wg).bind (·.slotOf core)).getD 0

/-- A part with lines made absent and unmarked (13 R340, R343). -/
def Part.blank (p : Part) (lines : List Nat) : Part :=
  { p with absent := addAll lines p.absent, marks := p.marks.filter fun m => !lines.contains m.1 }

/-- A part with lines present and unmarked, as a landing leaves them (13 R342, R347). -/
def Part.fresh (p : Part) (lines : List Nat) : Part :=
  { p with absent := dropAll lines p.absent, marks := p.marks.filter fun m => !lines.contains m.1 }

/-- A part with lines marked, which makes them present (13 R347): false corrupt, true dropped. -/
def Part.mark (p : Part) (lines : List Nat) (m : Bool) : Part :=
  { p with absent := dropAll lines p.absent, marks := lines.foldl (fun ms k => ins k m ms) p.marks }

/-- The grant offset of slot i of a buffer. -/
def Board.at (b : Board) (i : Nat) : Nat := b.buffer + 16384 * i

/-- The lines of slot i. -/
def Board.lines (b : Board) (i : Nat) : List Nat := units 128 (b.at i) 16384

/-- Slots that hold a tile, landed or landing (13 R341). -/
def Board.used (b : Board) : Nat := b.taken - b.acked

/-- The four words of a boarding record (13 R339). -/
def Board.words (b : Board) : List Nat :=
  [b.st * 2 ^ 61 + b.retry.toNat * 2 ^ 60 + b.scope * 2 ^ 57 + b.first * 2 ^ 45 + b.last * 2 ^ 33 + b.buffer * 2 ^ 12 +
     (b.slots - 1) * 2 ^ 6,
   b.counter, b.next * 2 ^ 44 + b.lastSeq * 2 ^ 24, b.taken * 2 ^ 43 + b.acked * 2 ^ 22]

/-- A record with the fields of its four words. -/
def Board.ofWords (b : Board) (w : List Nat) : Board :=
  let w0 := w.getD 0 0
  let w2 := w.getD 2 0
  let w3 := w.getD 3 0
  { b with
    st := bits w0 61 3, retry := w0.testBit 60, scope := bits w0 57 3, first := bits w0 45 12, last := bits w0 33 12
    buffer := bits w0 12 21, slots := bits w0 6 6 + 1, counter := bits (w.getD 1 0) 0 21, next := bits w2 44 20
    lastSeq := bits w2 24 20, taken := bits w3 43 21, acked := bits w3 22 21 }

/-- The counter word of a boarding changed (13 R342, R345). -/
def State.boardCount (s : State) (core : Nat) (b : Board) (f : Nat → Nat) : State :=
  s.modPart b.wg (s.boardSlot core b) fun p =>
    p.store b.counter (toBytes 8 (f (natAt p.bytes b.counter 8))) []

/-- One more tile in bits [62:0] of a counter. -/
def countTile (v : Nat) : Nat := v / 2 ^ 63 * 2 ^ 63 + (v + 1) % 2 ^ 63

/-- Bit 63 of a counter set. -/
def countDrop (v : Nat) : Nat := Nat.lor v (2 ^ 63)

/-- Record i of a core set. -/
def State.setBoard (s : State) (core i : Nat) (b : Board) : State :=
  s.modCore core fun c => { c with boards := ins i b c.boards }

/-- The end of a drop: bit 63 of the counter, and dropped marks on the slots without a landed tile (13 R345). -/
def State.finishDrop (s : State) (core i : Nat) (b : Board) : State :=
  let s := (s.setBoard core i { b with dropped := false }).boardCount core b countDrop
  let lost := (List.range b.slots).filter fun j => !b.landed.contains j
  s.modPart b.wg (s.boardSlot core b) fun p => lost.foldl (fun p j => p.mark (b.lines j) true) p

/-- The drops of a core's records that await no landing end. -/
def State.finishDrops (s : State) (core : Nat) : State :=
  (s.core core).boards.foldl (fun s b =>
    if b.2.dropped ∧ b.2.landing.isNone then s.finishDrop core b.1 b.2 else s) s

/-- A boarding dropped (13 R345): at once, or once the tile that it is landing has completed. -/
def State.dropBoard (s : State) (core i : Nat) (b : Board) : State :=
  if b.st = 1 then
    ((s.setBoard core i { b with st := 3, dropped := true }).count (b.wg % 512) 15 1).finishDrops core
  else s

/-- Every boarding that is not complete is dropped, those of vacated workgroups among them (13 R332 to R334). -/
def State.dropAllBoards (s : State) : State :=
  let s := s.cores.foldl (fun s c => c.2.boards.foldl (fun s b => s.dropBoard c.1 b.1 b.2) s) s
  let lost := s.saved.flatMap fun p => p.2.cores.flatMap fun c => c.boards.filterMap fun b =>
    if b.2.st = 1 then some (b.2.wg % 512) else none
  let s := lost.foldl (fun s ctx => s.count ctx 15 1) s
  { s with saved := s.saved.map fun p => (p.1, { p.2 with cores := p.2.cores.map fun c =>
      { c with boards := c.boards.map fun b =>
          if b.2.st = 1 then (b.1, { b.2 with st := 3, dropped := true }) else b } }) }

/-- Whether a boarding may catch tiles: boarded, not being cancelled, its workgroup not being vacated (13 R341, R344,
R349). -/
def State.boarding (s : State) (b : Board) : Bool := b.st == 1 && !b.cancel && !s.stopped b.wg

end Sys2Proof.Machine
end

