-- ==== Sys2Proof/Machine/Save.lean ====
section
/-! DEFINITION. What a vacate takes off a core, writes to the save image and reads back from it (11 R304 to R306, 07 R204). -/

namespace Sys2Proof.Machine

/-- The live field of a thread's current block in bytes, at most its allocation (03 R62); the allocation where the header
cannot be read; none for a position that has exited. -/
def State.liveOf (s : State) (ctx alloc : Nat) (th : Thread) : Nat :=
  if th.st = .exited then 0
  else match (s.ctxRead ctx th.blk.toNat 8).2 with
    | .ok (bs, _) => liveBytes alloc (fld (word (ofBytes bs)) 41 6)
    | .error _ => alloc

/-- The ray slot of a TRACE or HIT instruction. -/
def raySlot : Instr → Option RegOp
  | .trace x => some x.r1
  | .hitacc x => some x.r1
  | .hitign x => some x.r1
  | .hitend x => some x.r1
  | _ => none

/-- A thread as a vacate saves it: its results in flight have landed, and one that traverses is saved as waiting in TRACE, with
status 6 (11 R304, 17 R434). -/
def Thread.saved (th : Thread) : Thread :=
  let th := th.settle
  match th.st with
  | .waiting w => match w.what, raySlot w.instr with
    | .trace, some r => th.putReg (regAddr th.views r + 48) (toBytes 4 6)
    | _, _ => th
  | _ => th

/-- The skeins of a workgroup on a core, the Spindle among them. -/
def State.skeinsAt (s : State) (wgk core : Nat) : List (Nat × Skein) := (s.slotsOf core).filter fun p => p.2.wgKey == wgk

/-- The frames of a workgroup on a core: bound, and awaiting release. -/
def State.heldFrames (s : State) (w : Workgroup) (wgk core cslot : Nat) : List Nat :=
  addAll ((w.bound cslot).map fun h => h.2.frame) (((s.core core).releasing.filter fun p => p.2 == wgk).map (·.1)).mergeSort

-- TAKING A WORKGROUP OFF A CORE

/-- One core's part of a workgroup as it stands: its results in flight have landed (11 R304). -/
def State.partOf (s : State) (w : Workgroup) (wgk core cslot : Nat) : SavedCore :=
  let ks := s.skeinsAt wgk core
  let c := s.core core
  let mine (x : Nat) : Bool := x == wgk
  let land (k : Skein) : Skein := { k with threads := k.threads.map Thread.saved }
  let skeins := sortBy (·.idx) ((ks.filter fun p => p.1 != spindleSlot).map fun p => land p.2)
  let spindle := ((ks.filter fun p => p.1 == spindleSlot).map fun p => land p.2).head?
  let heddle := (c.heddle.filter fun e => mine e.2.wg).map fun e =>
    { e.2 with threads := e.2.threads.map fun t => { t with thread := t.thread.saved } }
  let cmds := (c.started.toList ++ c.shuttle).filter fun q => mine q.wg
  { keeps := (skeins.flatMap fun k => k.threads.map (s.liveOf k.ctx k.alloc)) ++
      heddle.flatMap fun e => e.threads.map fun t => liveBytes t.alloc e.live
    spKeeps := spindle.toList.flatMap fun k => k.threads.map (s.liveOf k.ctx k.alloc)
    parkSlot := cmds.any (·.parked)
    skeins := skeins
    spindle := spindle
    heddle := heddle
    boards := c.boards.filter fun b => mine b.2.wg
    shuttle := cmds.filter fun q => !q.parked
    parked := cmds.find? (·.parked)
    tiles := c.tileq.filter fun q => mine q.io.wg
    frames := (s.heldFrames w wgk core cslot).map fun f => (f, c.frame f)
    releasing := (c.releasing.filter fun p => mine p.2).map (·.1)
    done := c.done.filter fun d => mine d.wg
    doneParked := c.doneParked && (c.done.head?.map fun d => mine d.wg).getD false
    aborts := (c.aborts.filter fun a => mine a.1).map (·.2) }

/-- A core without a workgroup. -/
def State.clearPart (s : State) (wgk core : Nat) : State :=
  let mine (x : Nat) : Bool := x == wgk
  let s := (s.skeinsAt wgk core).foldl (fun s p => s.clearSlot core p.1) s
  s.modCore core fun c => { c with
    heddle := c.heddle.filter fun e => !mine e.2.wg
    boards := c.boards.filter fun b => !mine b.2.wg
    shuttle := c.shuttle.filter fun q => !mine q.wg
    started := c.started.filter fun q => !mine q.wg
    tileq := c.tileq.filter fun q => !mine q.io.wg
    releasing := c.releasing.filter fun p => !mine p.2
    done := c.done.filter fun d => !mine d.wg
    doneParked := c.doneParked && !(c.done.head?.map fun d => mine d.wg).getD false
    aborts := c.aborts.filter fun a => !mine a.1 }

/-- A workgroup taken off its cores, its engines' state with it. -/
def State.clearParts (s : State) (w : Workgroup) (wgk : Nat) : State :=
  let s := w.cluster.foldl (fun s c => s.clearPart wgk c) s
  { s with wgs := del wgk s.wgs }

/-- The parts of a workgroup, one for each core of its cluster. -/
def State.partsOf (s : State) (w : Workgroup) (wgk : Nat) : List SavedCore :=
  w.cluster.zipIdx.map fun c => s.partOf w wgk c.1 c.2

/-- Bytes of a part's image, its header among them (11 R305). -/
def SavedCore.size (p : SavedCore) (grant : Nat) : Nat := p.stop grant - p.base

/-- The image of a workgroup (11 R305). -/
def State.imageSize (s : State) (w : Workgroup) (wgk : Nat) : Nat :=
  ((s.partsOf w wgk).map fun p => p.size w.scratch).foldl (· + ·) 0

-- REGISTERS

/-- The threads of a part whose registers stand together: those of the skeins, then those in Heddle (11 R305). -/
def SavedCore.threads (p : SavedCore) : List Thread :=
  (p.skeins.flatMap (·.threads)) ++ p.heddle.flatMap fun e => e.threads.map (·.thread)

/-- Skeins with other threads, in order, and those left over. -/
def refillSkeins : List Skein → List Thread → List Skein × List Thread
  | [], ts => ([], ts)
  | k :: r, ts =>
    let n := k.threads.length
    let q := refillSkeins r (ts.drop n)
    ({ k with threads := ts.take n } :: q.1, q.2)

/-- Heddle entries with other threads, in order. -/
def refillHeddle : List HEntry → List Thread → List HEntry
  | [], _ => []
  | e :: r, ts =>
    { e with threads := (e.threads.zip ts).map fun p => { p.1 with thread := p.2 } } :: refillHeddle r (ts.drop e.threads.length)

/-- A part with other threads. -/
def SavedCore.refill (p : SavedCore) (ts : List Thread) : SavedCore :=
  let q := refillSkeins p.skeins ts
  { p with skeins := q.1, heddle := refillHeddle p.heddle q.2 }

/-- Threads as their registers are read for the image: parity errors are marked and counted once (07 R204). -/
def State.checkRegs (s : State) (ctx : Nat) (keeps : List Nat) (ts : List Thread) : State × List Thread :=
  let ps := ts.zip keeps
  (s.count ctx 0 ((ps.map fun p => (p.1.lost p.2).length).foldl (· + ·) 0),
    ps.map fun p => { p.1 with bad := addAll (p.1.lost p.2) p.1.bad, perr := dropAll (p.1.lost p.2) p.1.perr })

/-- The registers of threads in the image: the bytes of the live field, a word with a bad half poisoned (07 R203, R204). -/
def regPieces (keeps : List Nat) (ts : List Thread) : List ImgPiece :=
  padPieces ((ts.zip keeps).map fun p =>
    .given (bytesAt p.1.regs 0 p.2) ((p.1.bad.filter fun w => decide (4 * w < p.2)).map (· / 2)).dedup)

/-- What a saved thread's record keeps beside the image: which words are bad, and registers above the live field, which the
device may discard, a free choice (03 R62). -/
def State.trim (s : State) (ts : List Thread) (keeps : List Nat) : State × List Thread :=
  (ts.zip keeps).foldl (fun (acc : State × List Thread) p =>
    let r := acc.1.choose
    let above (a : Nat) : Bool := decide (p.2 ≤ a) && r.1
    (r.2, acc.2 ++ [{ p.1 with
      regs := p.1.regs.filter fun q => above q.1
      bad := p.1.bad.filter fun w => decide (4 * w < p.2) || above (4 * w)
      perr := p.1.perr.filter fun w => above (4 * w) }])) (s, [])

/-- A thread with the bytes of its live field read back: a word is bad where its 8 bytes are poisoned and it was saved so, or its
neighbour was not either. -/
def Thread.readBack (th : Thread) (keep : Nat) (bs : List Byte) (poison : List Nat) : Thread :=
  let bad := (List.range (keep / 4)).filter fun w => poison.contains (w / 2) &&
    (th.bad.contains w || !(th.bad.contains (w / 2 * 2) || th.bad.contains (w / 2 * 2 + 1)))
  { th with regs := putBytes 0 bs th.regs, bad := bad ++ th.bad.filter fun w => decide (keep ≤ 4 * w) }

/-- Registers of threads read back. -/
def State.regsBack : Nat → List (Thread × Nat) → State → State × List Thread
  | _, [], s => (s, [])
  | pa, (th, keep) :: r, s =>
    let d := s.imageRead pa keep
    let q := regsBack (pa + keep) r d.1
    (q.1, th.readBack keep d.2.1 d.2.2 :: q.2)

-- THE TILE STORE

/-- A handle's entry (10 R258) on a core. -/
def Core.handleWord (c : Core) (e : Handle) : Nat :=
  let pend := if e.bound then c.tilePending e.frame else e.pending
  let err := if e.bound ∨ e.pending then (c.frame e.frame).error || c.tileFailed e.frame else e.error
  e.bound.toNat * 2 ^ 31 + pend.toNat * 2 ^ 30 + err.toNat * 2 ^ 29 + e.owner * 2 ^ 20 + e.frame * 2 ^ 12 + e.fmt

/-- A handle with the bound, owner, frame and format fields of its entry; pending and error follow its frame, which keeps them. -/
def Handle.ofWord (e : Handle) (w : Nat) : Handle :=
  { e with bound := w.testBit 31, owner := bits w 20 9, frame := bits w 12 6, fmt := bits w 0 6 }

/-- A convergence register in 16 bytes (10 R280), and back. -/
def CvReg.bits (c : CvReg) : Nat :=
  c.mismatch.toNat * 2 ^ 75 + c.ownsig.toNat * 2 ^ 74 + c.sparse.toNat * 2 ^ 73 + c.word.toNat * 2 ^ 29 + c.count * 2 ^ 14 + c.target
def CvReg.ofBits (v : Nat) : CvReg :=
  { mismatch := v.testBit 75, ownsig := v.testBit 74, sparse := v.testBit 73, word := BitVec.ofNat 44 (Machine.bits v 29 44)
    count := Machine.bits v 14 14, target := Machine.bits v 0 14 }

/-- The rename table and the convergence registers of a workgroup on a core (11 R305). -/
def tablePieces (w : Workgroup) (c : Core) (cslot : Nat) : List ImgPiece :=
  [.given ((List.range 256).flatMap fun h => toBytes 4 (c.handleWord (w.handle cslot h))) [],
   .given ((List.range 16).flatMap fun n => toBytes 16 (lookD {} w.cvs (cvKey cslot n)).bits) []]

-- THE IMAGE

/-- The image of a part (11 R305): the header and the control of skeins, threads and parked commands have no layout in the spec and
are open bytes (log entry 12). -/
def SavedCore.image (p : SavedCore) (w : Workgroup) (c : Core) (x : Part) (cslot cycle : Nat) : List ImgPiece :=
  let frames : List ImgPiece := p.frames.map fun f => .given (bytesAt f.2.data 0 16896) f.2.poison
  let cmd (q : ShCmd) : ImgPiece := .given (toBytes 32 q.body) []
  let board (i : Nat) : List Nat := (((p.boards.find? fun b => b.1 = i).map fun b => b.2.words)).getD [0, 0, 0, 0]
  [.open_ (p.regAt - p.base)] ++ regPieces p.keeps p.threads ++
  x.image w.scratch ++ [.open_ (scrSize w.scratch - piecesSize (x.image w.scratch))] ++
  padPieces (frames ++ tablePieces w c cslot) ++
  padPieces (p.heddle.map fun e => .given ((List.range 8).flatMap fun i => toBytes 8 (e.word cycle i)) []) ++
  [.given ((List.range 8).flatMap fun i => (board i).flatMap (toBytes 8)) []] ++
  padPieces ((if p.parkSlot then (p.parked.toList.map cmd) ++ [.open_ 16] else []) ++ p.shuttle.map cmd) ++
  match p.spindle with
  | some k => .open_ (256 + 128 * k.threads.length) :: regPieces p.spKeeps k.threads
  | none => []

/-- One part written to its image, and what its record keeps (11 R305). -/
def State.savePart (s : State) (w : Workgroup) (core cslot : Nat) (p : SavedCore) : State × SavedCore :=
  let x := lookD {} w.parts cslot
  let a := s.checkRegs w.ctx p.keeps p.threads
  let b := a.1.checkRegs w.ctx p.spKeeps (p.spindle.toList.flatMap (·.threads))
  let p := p.refill a.2
  let p : SavedCore := { p with spindle := p.spindle.map fun (k : Skein) => { k with threads := b.2 } }
  let s := b.1.putPieces p.base (p.image w (s.core core) x cslot s.cycle)
  let ts := s.trim p.threads p.keeps
  let sp := ts.1.trim b.2 p.spKeeps
  let blank := p.refill ts.2
  (sp.1, { blank with
    spindle := p.spindle.map fun (k : Skein) => { k with threads := sp.2 }
    frames := p.frames.map fun f => (f.1, ({ error := f.2.error } : Frame))
    shuttle := p.shuttle.map fun q => { q with body := 0 }
    parked := p.parked.map fun q => { q with body := 0 } })

/-- The parts of a workgroup written one after another from an address on. -/
def State.saveParts (s : State) (w : Workgroup) : Nat → List (Nat × Nat × SavedCore) → State × List SavedCore
  | _, [] => (s, [])
  | pa, (core, cslot, p) :: r =>
    let p := { p with base := pa }
    let a := s.savePart w core cslot p
    let b := a.1.saveParts w (p.stop w.scratch) r
    (b.1, a.2 :: b.2)

-- READING BACK

/-- A part with what its image holds (11 R306): registers, frames, call-table entries, boarding records and commands. -/
def State.partRead (s : State) (grant : Nat) (p : SavedCore) : State × SavedCore :=
  let a := State.regsBack p.regAt (p.threads.zip p.keeps) s
  let sp := p.spindle.toList.flatMap (·.threads)
  let b := State.regsBack (p.spindleAt grant + 256 + 128 * sp.length) (sp.zip p.spKeeps) a.1
  let p := p.refill a.2
  let s := b.1
  let f := p.frames.zipIdx.foldl (fun (acc : State × List (Nat × Frame)) q =>
    let d := acc.1.imageRead (p.tileAt grant + 16896 * q.2) 16896
    (d.1, acc.2 ++ [(q.1.1, { q.1.2 with data := putBytes 0 d.2.1 [], poison := d.2.2 })])) (s, [])
  let h := f.1.imageRead (p.heddleAt grant) (64 * p.heddle.length)
  let g := h.1.imageRead (p.ringAt grant) 256
  let c := g.1.imageRead (p.cmdAt grant) (32 * p.shuttle.length + if p.parkSlot then 48 else 0)
  let n (bs : List Byte) (off k : Nat) : Nat := ofBytes ((bs.drop off).take k)
  let first := if p.parkSlot then 48 else 0
  (c.1, { p with
    spindle := p.spindle.map fun k => { k with threads := b.2 }
    frames := f.2
    heddle := p.heddle.zipIdx.map fun e =>
      let w1 := n h.2.1 (64 * e.2 + 8) 8
      let timeout := bits w1 38 16
      let late := bits w1 22 16
      -- the arrivals move so that the oldest has its remaining time
      let old := ((e.1.threads.head?).map (·.arrived)).getD 0
      { e.1 with
        target := word (n h.2.1 (64 * e.2) 8), threshold := bits w1 54 5 + 1, timeout := timeout
        threads := e.1.threads.map fun t => { t with arrived := t.arrived - old + (s.cycle + late - timeout) } }
    boards := p.boards.map fun b =>
      let r := b.2.ofWords ((List.range 4).map fun i => n g.2.1 (32 * b.1 + 8 * i) 8)
      (b.1, { r with st := if b.2.dropped then b.2.st else r.st })
    parked := p.parked.map fun q => { q with body := n c.2.1 0 32 }
    shuttle := p.shuttle.zipIdx.map fun q => { q.1 with body := n c.2.1 (first + 32 * q.2) 32 } })

/-- The rename table and the convergence registers of a core read back into a workgroup (10 R258, R280). -/
def State.tableRead (s : State) (cslot : Nat) (p : SavedCore) (w : Workgroup) : State × Workgroup :=
  let t := s.imageRead (p.tableAt w.scratch) 1024
  let c := t.1.imageRead (p.tableAt w.scratch + 1024) 256
  let n (bs : List Byte) (off k : Nat) : Nat := ofBytes ((bs.drop off).take k)
  (c.1, { w with
    handles := (List.range 256).foldl (fun m h =>
      set {} (hKey cslot h) ((w.handle cslot h).ofWord (n t.2.1 (4 * h) 4)) m) w.handles
    cvs := (List.range 16).foldl (fun m i => set {} (cvKey cslot i) (CvReg.ofBits (n c.2.1 (16 * i) 16)) m) w.cvs })

/-- A saved workgroup with its parts as their images give them, in order. -/
def State.readParts (s : State) (w : Workgroup) : List (Nat × SavedCore) → State × Workgroup × List SavedCore
  | [] => (s, w, [])
  | (cslot, p) :: r =>
    let x := s.partBack p.scrAt w.scratch (lookD {} w.parts cslot).marks
    let a := x.1.partRead w.scratch p
    let b := a.1.tableRead cslot p { w with parts := set {} cslot x.2 w.parts }
    let c := b.1.readParts b.2 r
    (c.1, c.2.1, a.2 :: c.2.2)

end Sys2Proof.Machine
end

