-- ==== Sys2Proof/Machine/Vacate.lean ====
section
/-! DEFINITION. Spatial pre-emption: choosing victims, draining, saving and restoring workgroups (11 R302 to R307, 13
R349); the carve-out (07 R198) and the watchdog (04 R106). -/

namespace Sys2Proof.Machine

-- LIGHT CONTEXTS

/-- Whether no image of a workgroup on a core exceeds 256 KiB (11 R307). -/
def State.lightWg (s : State) (w : Workgroup) (wgk : Nat) : Bool :=
  (s.partsOf w wgk).all fun p => decide (p.size w.scratch ≤ 262144)

/-- Whether a context is light (11 R307). -/
def State.lightCtx (s : State) (ctx : Nat) : Bool := s.wgs.all fun p => p.2.ctx != ctx || s.lightWg p.2 p.1

-- VICTIMS

/-- Whether a workgroup is of a concurrent grid. -/
def Workgroup.whole (w : Workgroup) : Bool := w.cls == 2

/-- The workgroups that vacating cores vacates: each with a skein there, and concurrent grids whole; no strip chain's and
none that is being vacated (11 R303, R319). -/
def State.victims (s : State) (cores : List Nat) : List Nat :=
  let free := s.wgs.filter fun p => !s.isStrip p.2 && !s.stopped p.1
  let hit := free.filter fun p => p.2.cluster.any cores.contains
  (free.filter fun p => (hit.any fun q => q.1 == p.1) ||
    (p.2.whole && hit.any fun q => q.2.ctx == p.2.ctx && q.2.grid == p.2.grid)).map (·.1)

/-- Save slots of a context that hold an image. -/
def State.slotsUsed (s : State) (ctx : Nat) : List Nat :=
  s.saved.filterMap fun p => if p.2.wg.ctx = ctx then some p.2.slot else none

/-- Workgroups of a context that a vacate under way has still to save. -/
def State.savesDue (s : State) (ctx : Nat) : Nat :=
  (s.vacates.map fun v => if v.2.started && !v.2.saved && !v.2.kill then (v.2.wgs.filter (· % 512 = ctx)).length else 0).foldl (· + ·) 0

/-- Whether save slots hold the images of workgroups (11 R303). -/
def State.saveRoom (s : State) (wgs : List Nat) : Bool :=
  (wgs.all fun k => (s.wg k).all fun w => decide (s.imageSize w k ≤ 65536 * (s.ctx w.ctx).fix.slotSize)) &&
  wgs.all fun k =>
    let ctx := k % 512
    decide ((wgs.filter (· % 512 = ctx)).length + s.savesDue ctx + (s.slotsUsed ctx).length ≤ (s.ctx ctx).fix.slotCount)

/-- A vacate begins: its workgroups stop at their run boundaries and their watchdog time stops (11 R304, 04 R106); it
joins those under way on its cores. -/
def State.startVacate (s : State) (id : Nat) (v : Vacate) (wgs : List Nat) : State :=
  let cores := addAll (wgs.flatMap fun k => ((s.wg k).map (·.cluster)).getD []) v.cores
  let after := (s.vacates.filter fun p => p.1 != id && p.2.started && p.2.cores.any cores.contains).map (·.1)
  let s := wgs.foldl (fun s k => s.modWg k fun w =>
    { w with wdHeld := some s.time.now, lastVac := some s.time.now }) s
  { s with vacates := ins id { v with cores := cores, wgs := wgs, started := true, after := after } s.vacates }

/-- A new vacate of cores. -/
def State.vacate (s : State) (v : Vacate) (wgs : List Nat) : State :=
  { s with order := s.order + 1 }.startVacate s.order v wgs

-- DRAINING

/-- Whether a command of the vacated workgroups still runs on a core, a parked one apart (11 R304). -/
def Core.engineBusy (c : Core) (mine : Nat → Bool) : Bool :=
  (c.started.any fun q => mine q.wg && !q.parked) ||
  (!c.doneParked && c.done.any fun d => mine d.wg) ||
  (c.tileq.takeWhile fun q => !q.parked).any fun q => mine q.io.wg

/-- Whether no skein of a vacate's workgroups is in a run on a core, and no tile lands for them (11 R304, 13 R349). -/
def State.paused (s : State) (core : Nat) (mine : Nat → Bool) : Bool :=
  let c := s.core core
  (c.pipes.all fun p => match p.2.run with
    | none => true
    | some r => !(((s.skein core r.slot).map fun k => mine k.wgKey).getD false)) &&
  c.boards.all fun b => !mine b.2.wg || b.2.landing.isNone

/-- Whether the skeins and engines of a vacate's workgroups are at rest on a core, and no load or atomic of theirs awaits the
host link (11 R304). -/
def State.restful (s : State) (core : Nat) (mine : Nat → Bool) : Bool :=
  s.paused core mine && !(s.core core).engineBusy mine &&
  (s.slotsOf core).all fun p => !mine p.2.wgKey || (p.2.waitsFor (· = .link)) == []

/-- The stores of a core's skeins of some workgroups performed, their loads landed (11 R304). -/
def State.quiesce (s : State) (core : Nat) (mine : Nat → Bool) : State :=
  let s := (s.slotsOf core).foldl (fun s p =>
    if mine p.2.wgKey then
      let s := s.drainQueue core p.1
      (List.range 32).foldl (fun s l =>
        (laneOf p.2.threads l).held.foldl (fun s _ => s.landHeld core p.1 l 0) s) s
    else s) s
  let s := (s.drainThrough core).cleanPrivate core
  ((s.core core).l1.filterMap fun l => if l.2.excl then some l.1 else none).foldl (fun s l => s.clean core l) s

-- SAVING

/-- A workgroup saved: its image in the lowest free slot, its cores' room free; the record keeps what no image byte gives (11
R304, R305, log entry 12). -/
def State.saveWg (s : State) (wgk : Nat) : State :=
  match s.wg wgk with
  | none => s
  | some w =>
    let used := s.slotsUsed w.ctx
    let slot := ((List.range (used.length + 1)).find? fun i => !used.contains i).getD 0
    let fix := (s.ctx w.ctx).fix
    let parts := w.cluster.zipIdx.map fun c => (c.1, c.2, s.partOf w wgk c.1 c.2)
    let r := s.saveParts w (fix.saveBase + slot * fix.slotSize * 65536) parts
    let rest := { w with parts := w.parts.map fun p => (p.1, ({ marks := p.2.marks } : Part)), cvs := [] }
    let t := r.1.clearParts w wgk
    { t with saved := ins wgk { wg := rest, slot := slot, cores := r.2, cycle := s.cycle, time := s.time.now } t.saved }

/-- A workgroup killed on every core (19 R460). -/
def State.killWg (s : State) (wgk : Nat) : State :=
  match s.wg wgk with
  | none => s
  | some w => s.clearParts w wgk

/-- Cores of a context that hold one of its workgroups, for a host request of n: without concurrent grids first, light
first, then lower; none that a strip chain's workgroup shares (11 R302, R307, R319). -/
def State.hostCores (s : State) (ctx : Nat) : Option Nat → List Nat
  | none => (List.range 72).filter fun c => (s.wgsOn c).any fun w => w.ctx == ctx && !s.isStrip w
  | some n =>
    let cs := (List.range 72).filter fun c =>
      let ws := s.wgsOn c
      (ws.any fun w => w.ctx == ctx) && !ws.any s.isStrip
    let rank (c : Nat) : Nat :=
      let ws := s.wgsOn c
      (if ws.any Workgroup.whole then 2 else 0) + (if ws.all fun w => s.lightCtx w.ctx then 0 else 1)
    (sortBy rank cs).take n

/-- A host request takes its first step once the save slots are free (11 R302, R303): `all` takes the context's own
workgroups, n the whole cores. -/
def State.hostStart (s : State) (id : Nat) (v : Vacate) (ctx : Nat) : State :=
  let cores := s.hostCores ctx v.count
  let wgs := match v.count with
    | some _ => s.victims cores
    | none => (s.victims cores).filter fun k => k % 512 == ctx
  let others := (s.vacates.filter fun p => p.1 != id && p.2.started && p.2.cores.any cores.contains).map (·.1)
  if s.saveRoom wgs then
    let s := s.startVacate id { v with cores := if v.count.isSome then cores else [] } wgs
    { s with vacates := s.vacates.map fun p => if p.1 = id then (p.1, { p.2 with after := addAll others p.2.after }) else p }
  else s

/-- VACATE_DRAIN_END (11 R304): a host request that waits for save slots starts; one whose skeins and engines are at rest
has its images written. A context reset saves nothing: the commands that still run end as they stand, and the skeins are
killed (19 R460). -/
def execVacateDrainEnd (req : Nat) (s : State) : Out State :=
  .next (match look s.vacates req with
    | none => s
    | some v =>
      if v.saved then s
      else if !v.started then match v.host with
        | some ctx => s.hostStart req v ctx
        | none => s
      else
        let mine (k : Nat) : Bool := v.wgs.contains k
        let end_ (f : State → Nat → State) : State :=
          let s := v.cores.foldl (fun s c => s.quiesce c mine) s
          let s := v.wgs.foldl f s
          { s with vacates := ins req { v with saved := true } s.vacates }
        if v.kill then (if v.cores.all fun c => s.paused c mine then end_ State.killWg else s)
        else if v.cores.all fun c => s.restful c mine then end_ State.saveWg
        else s)

/-- The end of a vacate (11 R302, R304): the cores are free; a host request posts its kind-7 event once it can be held. -/
def State.vacateDone (s : State) (req : Nat) (v : Vacate) : State :=
  let done (s : State) : State := { s with vacates := del req s.vacates }
  match v.host with
  | none => done s
  | some ctx =>
    let e := (s.ctx ctx).ev
    if e.waits = [] ∧ e.held.length < 16 then
      ((done s).modCtx ctx fun c => { c with preempting := false }).post ctx false { kind := 7 }
    else s

-- RESTORING

/-- The slots, register bytes, call-table entries, boarding records and Spindle that a core's image needs (11 R306). -/
def State.holdsPart (s : State) (w : Workgroup) (m : Room) (p : SavedCore) : Bool :=
  let c := s.core m.core
  let regs := ((p.skeins ++ p.spindle.toList).map (·.regBytes)).foldl (· + ·) 0
  decide (p.skeins.length ≤ m.slots) && decide (regs ≤ m.regs) && decide (w.scratch ≤ m.scr) && decide (w.frames ≤ m.frames) &&
  decide (p.heddle.length + c.heddle.length ≤ 64) && (p.boards.all fun b => (look c.boards b.1).isNone) &&
  (p.spindle.isNone || (s.skein m.core spindleSlot).isNone)

/-- Whether a cluster holds a saved workgroup (11 R293, R306). -/
def State.holdsAll (s : State) (sv : Saved) (ms : List Room) : Bool :=
  ms.length == sv.cores.length && (ms.all fun m => sectorOf m.core == sectorOf ((ms.map (·.core)).headD 0)) &&
  decide ((ms.filter fun m => !m.held).length ≤ s.quotaLeft sv.wg.ctx) &&
  (ms.zip sv.cores).all fun p => s.holdsPart sv.wg p.1 p.2

/-- The cluster preferred for a saved workgroup (11 R293, R306). -/
def State.restoreAt (s : State) (sv : Saved) : Option (List Nat) :=
  let ms := s.rooms sv.wg.ctx
  firstMost (heldOf ms) (((roomSets sv.cores.length ms).filter (s.holdsAll sv)).map fun l => l.map (·.core))

/-- A frame number under a map of old to new. -/
def newFrame (m : List (Nat × Nat)) (f : Nat) : Nat := ((m.find? fun p => p.1 = f).map (·.2)).getD f

/-- A command with its frames renumbered and its skein's new slot. -/
def TileCmd.moved (q : TileCmd) (m : List (Nat × Nat)) (slot : Nat → Nat) : TileCmd :=
  let f (r : Option (Nat × Nat)) : Option (Nat × Nat) := r.map fun p => (newFrame m p.1, p.2)
  { q with d := f q.d, a := f q.a, b := f q.b, m := f q.m, io := { q.io with slot := slot q.io.skein } }

/-- A saved skein placed in a slot of a core: its stall count remaining starts again (11 R305). -/
def State.putBack (s : State) (core slot n : Nat) (k : Skein) : State :=
  (s.addSkein core slot k).setSkein core slot { k with readyAt := k.readyAt + n }

/-- One core's part of a saved workgroup placed on a core, with the handles of its rename table (11 R306, 13 R349). -/
def State.putPart (s : State) (wgk core cslot n : Nat) (handles : SMap Handle) (p : SavedCore) : State :=
  let s := p.skeins.foldl (fun s k => match s.slotFor core with
    | some slot => s.putBack core slot n k
    | none => s) s
  let s := p.spindle.toList.foldl (fun s k => s.putBack core spindleSlot n k) s
  let slot (idx : Nat) : Nat :=
    if idx = spindleIdx then spindleSlot
    else (((s.skeinsAt wgk core).find? fun q => q.2.idx = idx ∧ q.1 ≠ spindleSlot).map (·.1)).getD 0
  let map := (p.frames.map (·.1)).zip (s.freeFrames core)
  let cmd (q : ShCmd) : ShCmd := { q with slot := slot q.skein }
  let mine := handles.filter fun h => h.1 / 256 = cslot
  let s := s.modWg wgk fun w => { w with handles := mine.foldl (fun m h =>
    set {} h.1 { h.2 with frame := newFrame map h.2.frame } m) w.handles }
  let entries := (List.range 64).filter fun i => (look (s.core core).heddle i).isNone
  s.modCore core fun c =>
    let c := p.frames.foldl (fun (c : Core) f => c.setFrame (newFrame map f.1) f.2) c
    { c with
      releasing := c.releasing ++ p.releasing.map fun f => (newFrame map f, wgk)
      heddle := (entries.zip p.heddle).foldl (fun m e => ins e.1 e.2 m) c.heddle
      boards := p.boards.foldl (fun m b => ins b.1 { b.2 with since := s.cycle } m) c.boards
      started := if c.started.isNone then p.parked.map cmd else c.started
      shuttle := (if c.started.isNone then [] else p.parked.toList.map cmd) ++ c.shuttle ++ p.shuttle.map cmd
      tileq := c.tileq ++ p.tiles.map fun q => q.moved map slot
      done := if p.doneParked then p.done.map (fun d => { d with slot := slot d.skein }) ++ c.done
        else c.done ++ p.done.map fun d => { d with slot := slot d.skein }
      doneParked := c.doneParked || p.doneParked
      aborts := c.aborts ++ p.aborts.map fun i => (wgk, i) }

/-- A saved workgroup restored onto a cluster: its image is read back, then its parts are placed (11 R306). -/
def State.restoreOn (s : State) (wgk : Nat) (sv : Saved) (cores : List Nat) : State :=
  let n := s.cycle - sv.cycle
  let held := sv.wg.wdHeld.getD s.time.now
  let r := s.readParts sv.wg (sv.cores.zipIdx.map fun p => (p.2, p.1))
  let w := { r.2.1 with cluster := cores, wdStart := sv.wg.wdStart + (s.time.now - held), wdHeld := none, handles := [] }
  let s := { r.1 with saved := del wgk s.saved, wgs := ins wgk w s.wgs }
  let s := ((cores.zip r.2.2).zipIdx).foldl (fun s c => s.putPart wgk c.1.1 c.2 n r.2.1.handles c.1.2) s
  cores.foldl State.finishDrops s

/-- Saved workgroups restored one after another wherever they fit, none of them unless all do. -/
def State.restoreAll : List Nat → State → Option State
  | [], s => some s
  | k :: r, s => match look s.saved k with
    | none => restoreAll r s
    | some sv => match s.restoreAt sv with
      | none => none
      | some cl => restoreAll r (s.restoreOn k sv cl)

/-- The rank of a saved workgroup in its band (11 R294, R306): a weakly parallel grid with nothing resident, and parallel
ones, come before the other weakly parallel ones. -/
def State.restoreRank (s : State) (w : Workgroup) : Nat :=
  if w.cls ≠ 0 then 1
  else if s.wgs.any fun p => p.2.ctx == w.ctx && p.2.grid == w.grid then 2
  else 0

/-- Whether a saved workgroup can be restored now: a concurrent grid whole. -/
def State.restorable (s : State) (wgk : Nat) (sv : Saved) : Bool :=
  if sv.wg.whole then
    (State.restoreAll ((s.saved.filter fun p => p.2.wg.ctx == sv.wg.ctx && p.2.wg.grid == sv.wg.grid).map (·.1)) s).isSome
  else (s.restoreAt sv).isSome && (look s.saved wgk).isSome

/-- Whether a restore is next in order (11 R294, R306): no restorable workgroup of a higher band, none of a lower rank in
the same band, none of a lower index in its grid. -/
def State.restoreNext (s : State) (wgk : Nat) (sv : Saved) : Bool :=
  !s.saved.any fun p =>
    let a := p.2.wg
    let b := sv.wg
    p.1 != wgk &&
    (decide (b.band < a.band) || (a.band == b.band && decide (s.restoreRank a < s.restoreRank b)) ||
      (a.ctx == b.ctx && a.grid == b.grid && decide (a.lin < b.lin) && !b.whole)) &&
    s.restorable p.1 p.2

/-- WORKGROUP_RESTORE (11 R306): a vacated workgroup is restored onto a cluster; a concurrent grid whole, in one step. -/
def execWorkgroupRestore (ctx grid wg : Nat) (cluster : List Nat) (s : State) : Out State :=
  let wgk := wgKey ctx grid wg
  .next (match look s.saved wgk with
    | none => s
    | some sv =>
      let ms := (s.rooms ctx).filter fun m => cluster.contains m.core
      if ms.map (·.core) = cluster ∧ s.holdsAll sv ms ∧ s.restoreNext wgk sv then
        let t := s.restoreOn wgk sv cluster
        if sv.wg.whole then
          (State.restoreAll ((s.saved.filter fun p => p.2.wg.ctx == ctx && p.2.wg.grid == grid && p.1 != wgk).map (·.1)) t).getD s
        else t
      else s)

-- THE CARVE-OUT

/-- The contexts with a workgroup to place: a grid in admission, or a vacated workgroup. -/
def State.placing (s : State) : List Nat :=
  (s.grids.filterMap fun g => if g.2.next < g.2.lr.total ∨ g.2.graph.isSome then some g.2.ctx else none) ++
  s.saved.map fun p => p.2.wg.ctx

/-- The lines of an L1 set beyond 16 ways less n go, one after another, freely chosen (07 R198, log entry 7). -/
def State.l1Fit (s : State) (core n line : Nat) : State :=
  let set := ((s.core core).l1.map (·.1)).filter fun m => m % 256 == line % 256
  if set.length + n ≤ 16 then s else let r := s.pick set.length; r.2.evict core (set.getD r.1 0)

/-- CARVE_RAISE (07 R198): a core writes back and drops the lines of the added ways, and lends them. Which lines lie in
them is a free choice (log entry 7); no more stay than the other ways hold. -/
def execCarveRaise (core : Nat) (s : State) : Out State :=
  let n := s.carveDue core s.placing
  .next (if n ≤ (s.core core).lent then s
    else
      let s := ((s.core core).l1.map (·.1)).foldl (fun s line =>
        let r := s.choose
        if r.1 then r.2.evict core line else r.2) s
      let s := ((s.core core).l1.map (·.1)).foldl (fun s line => s.l1Fit core n line) s
      s.modCore core fun c => { c with lent := n })

/-- CARVE_LOWER (07 R198): the ways that no grant lies in go back to L1 empty. -/
def execCarveLower (core : Nat) (s : State) : Out State :=
  let n := max (s.carveDue core []) (ceilDiv (s.granted core - 2 ^ 20) 32768)
  .next (if (s.core core).lent ≤ n then s else s.modCore core fun c => { c with lent := n })

-- THE WATCHDOG

/-- WATCHDOG (04 R106): past its limit, each skein of a workgroup host-parks its threads at its next run boundary; one
that is in no run does so now. -/
def execWatchdog (ctx grid wg : Nat) (s : State) : Out State :=
  let wgk := wgKey ctx grid wg
  .next (match s.wg wgk with
    | none => s
    | some w =>
      let limit := (s.ctx ctx).var.watchdog
      let us := (s.time.now - w.wdStart) / (1000 * 2 ^ 40)
      if limit = 0 ∨ w.wdFired ∨ w.wdHeld.isSome ∨ s.time.now - w.wdStart ≤ limit * (1000 * 2 ^ 40) then s
      else
        let s := (s.modWg wgk fun w => { w with wdFired := true }).count ctx 22 1
        (s.skeinsOf wgk true).foldl (fun s k =>
          let s := s.modSkein k.1 k.2.1 fun k => { k with wdog := some us }
          let inRun := (((s.core k.1).pipe (k.2.1 / 8)).run.map fun r => r.slot == k.2.1).getD false
          if inRun then s else s.wdogPark k.1 k.2.1) s)

end Sys2Proof.Machine
end

