-- ==== Sys2Proof/Machine/Launch.lean ====
section
/-! DEFINITION. Launch windows and queues, the check of a record, the distributor, node launches, retirement and held
events (11 R284 to R294, R299, R301, 02 R50 to R56). -/

namespace Sys2Proof.Machine

-- THE LAUNCH QUEUE

/-- A launch-reject event (11 R299). -/
def rejectEvent (reason : Nat) (extra : Word) : Event := { kind := 4, detail := reason, extra := extra }

/-- A launch-window write that is discarded with a reason (11 R285). -/
def State.discardLaunch (s : State) (ctx reason : Nat) : State := (s.count ctx 21 1).post ctx true (rejectEvent reason 0)

/-- LAUNCH_RECORD_WRITE (11 R284, R285, R288): a write to a context's launch window. -/
def execLaunchRecordWrite (ctx off : Nat) (data : List Byte) (s : State) : Out State :=
  let c := s.ctx ctx
  .next (if s.boot.recovery ∨ 512 ≤ ctx ∨ 0x40 ≤ off then s
    else if !c.enabled ∨ c.var.quota = 0 ∨ c.resetting then s.count ctx 21 1
    else if off ≠ 0 ∨ data.length ≠ 64 then s.discardLaunch ctx 7
    else if 256 ≤ c.lq.length then s.discardLaunch ctx 6
    else
      let slot := (((List.range 256).map fun i => (c.lqNext + i) % 256).find? fun i => !c.lq.contains i).getD 0
      let s := s.homeWrite (c.fix.launchBase + 64 * slot) data [] none
      s.modCtx ctx fun c => { c with
        lq := c.lq ++ [slot], lqNext := (slot + 1) % 256, lastSeq := word (numAt data 24 8) })

-- THE HEAD OF A SOURCE

/-- The band that a record with a band byte falls in (11 R290). -/
def bandOf (ceiling b : Nat) : Nat := if ceiling < b then ceiling else b

/-- The first record of a context's launch queue that falls in a band: its slot and bytes (11 R288, R290). -/
def State.queueHead (ctx band : Nat) : List Nat → State → State × Option (Nat × List Byte)
  | [], s => (s, none)
  | i :: r, s =>
    let c := s.ctx ctx
    let h := s.homeRead (c.fix.launchBase + 64 * i) 64 none
    if bandOf c.var.ceiling (numAt h.2.1 58 1) = band then (h.1, some (i, h.2.1)) else queueHead ctx band r h.1

/-- The first entry of the pending-launch store for a context and band: its index (11 R289, R290). -/
def State.pendHead (s : State) (ctx band : Nat) : Option (Nat × Pending) :=
  (s.pending.zipIdx.find? fun p => p.1.ctx == ctx && bandOf (s.ctx ctx).var.ceiling (numAt p.1.bytes 58 1) == band).map
    fun p => (p.2, p.1)

/-- Whether a grid has still workgroups to admit; a graph does not hold its source. -/
def Grid.admitting (g : Grid) : Bool := g.graph.isNone && decide (g.next < g.lr.total)

/-- Whether a source has a grid in admission (11 R290). -/
def State.sourceBusy (s : State) (ctx band : Nat) (src : Source) : Bool :=
  s.grids.any fun g => g.2.ctx == ctx && g.2.lr.band == band && g.2.src == src && g.2.admitting

/-- The conditions of 02 R49. -/
def Record.fits (r : Record) : Bool :=
  decide (r.threadCount * r.alloc ≤ 2 ^ 23) && decide (ceilDiv r.threadCount 32 ≤ 4092) && decide (r.scratch ≤ 1310720) &&
  decide (r.frames ≤ 64) && decide (1 ≤ r.alloc ∧ r.alloc ≤ 1024)

/-- Reasons 2 to 5 of 11 R287, none where they all pass. -/
def State.laterReason (s : State) (ctx : Nat) (r : Record) : Option Nat :=
  if !r.views.ok then some 2
  else if !r.fits then some 3
  else if r.kind = 1 ∧ (r.cls = 2 ∨ r.regbytes < 2) then some 4
  else if r.kind = 0 ∧ r.cls = 2 ∧ !s.quotaHolds ctx r then some 5
  else none

/-- The record at the head of a source leaves it. -/
def State.popHead (s : State) (ctx : Nat) (pend : Bool) (at_ : Nat) : State :=
  if pend then { s with pending := s.pending.eraseIdx at_ }
  else s.modCtx ctx fun c => { c with lq := dropFrom at_ c.lq }

/-- The number of a context's next grid: its counter's, past those of grids not yet retired (04 R93). -/
def State.gridNum (s : State) (ctx : Nat) : Nat :=
  let held := (s.grids.filter fun p => p.2.ctx == ctx).map (·.2.num)
  let n := (s.ctx ctx).nextGrid
  (((List.range (held.length + 1)).map fun i => (n - 1 + i) % (2 ^ 32 - 1) + 1).find? fun m => !held.contains m).getD n

/-- A grid taken: it has the next number of its context, and a graph's node 0 takes its first records (02 R51, 11 R298). -/
def State.takeGrid (s : State) (g : Grid) : State :=
  let num := s.gridNum g.ctx
  let s := s.modCtx g.ctx fun c => { c with nextGrid := num % (2 ^ 32 - 1) + 1 }
  let s := { s with grids := ins (gridKey g.ctx num) { g with num := num } s.grids }
  match g.graph with
  | none => s
  | some w => State.feed g.ctx num (min w.left (((w.nodes[0]?).map (·.cap)).getD 0)) s

/-- A record at the head is rejected (11 R287). -/
def State.rejectHead (s : State) (ctx : Nat) (pend : Bool) (at_ : Nat) (reason : Nat) (seq : Word) : State :=
  ((s.popHead ctx pend at_).count ctx 21 1).post ctx false (rejectEvent reason seq)

/-- The checks of 11 R287 on the record at a head, then its taking or its rejection; a page fault on its descriptor
holds it (11 R298), and a rejected record holds its source back until its event can be held (11 R299). -/
def State.checkHead (s : State) (ctx band : Nat) (pend : Bool) (at_ : Nat) (bs : List Byte) (depth : Nat)
    (parent : Option Nat) : State :=
  let r := recordOf bs
  let reject (t : State) (n : Nat) : State := if (s.ctx ctx).mayHold then t.rejectHead ctx pend at_ n r.seq else s
  let take (s : State) (graph : Option Graph) : State :=
    match s.laterReason ctx r with
    | some n => reject s n
    | none => (s.popHead ctx pend at_).takeGrid {
        ctx := ctx, num := 0, lr := { r with band := band }, src := if pend then .pend else .queue, depth := depth,
        parent := parent, graph := graph }
  if !recordFields bs then reject s 1
  else if r.kind = 1 then
    match s.graphOf ctx r.entry.toNat false with
    | (s, .bad) => reject s 1
    | (s, .ok g) => take s (some g)
    | (s, .page c va) => s.postFault ctx
        { kind := 1, cause := causeWord c false false, addr := word va, detail := 8 + accDetail .read } (.head band pend)
  else take s none

/-- LAUNCH_HEAD_CHECK (11 R287, R290): unless the source has a grid in admission, or the event of an abandoned record
waits. -/
def execLaunchHeadCheck (ctx band : Nat) (pend : Bool) (s : State) : Out State :=
  let c := s.ctx ctx
  .next (if !c.enabled ∨ c.resetting ∨ 3 ≤ band ∨ c.ev.waits.any (·.kind == 4) ∨ s.sourceBusy ctx band (if pend then .pend else .queue) ∨
      c.ev.outstanding.any (fun o => o.2 == .head band pend) then s
    else if pend then match s.pendHead ctx band with
      | none => s
      | some (i, p) => s.checkHead ctx band true i p.bytes p.depth (some p.parent)
    else match State.queueHead ctx band c.lq s with
      | (s, none) => s
      | (s, some (i, bs)) => s.checkHead ctx band false i bs 0 none)

-- THE DISTRIBUTOR

/-- Whether node i of a graph has a launch due: 32 records, or its flush point (02 R55). -/
def Graph.ready (g : Graph) (ws : List Workgroup) (i : Nat) : Bool :=
  match g.nodes[i]? with
  | none => false
  | some x => !g.abandoned && x.kind == 0 && !x.waits &&
      (decide (32 ≤ x.count) || (decide (0 < x.count) && (g.inputs ws).getD i false))

/-- The threads that a node launch has: a record of one skein of n threads. -/
def Record.nodeNeed (r : Record) (n : Nat) : Record := { r with kind := 0, threads := n }

/-- The threads of the node launches of a grid that are due, one count for each node (02 R55). -/
def State.nodesDue (s : State) (g : Grid) : List Nat :=
  match g.graph with
  | none => []
  | some w => ((List.range w.nodes.length).filter (w.ready (s.gridWgs g.ctx g.num))).map fun i =>
      min 32 (((w.nodes[i]?).map (·.count)).getD 0)

/-- Whether a grid of the distributor has a workgroup to place: its context is enabled and not being reset (11 R291). -/
def State.wantsRoom (s : State) (g : Grid) : Bool :=
  g.strip.isNone && (s.ctx g.ctx).enabled && !(s.ctx g.ctx).resetting && (g.admitting || s.nodesDue g != [])

/-- Whether a grid of the distributor can place its next workgroup (11 R291). -/
def State.placeable (s : State) (g : Grid) : Bool :=
  let ms := s.rooms g.ctx
  let left := s.quotaLeft g.ctx
  s.wantsRoom g && match g.graph with
  | some _ => (s.nodesDue g).any fun n => (pickCluster left (g.lr.nodeNeed n) ms).isSome
  | none =>
      (if g.lr.cls = 2 then (pickAll g.lr g.lr.total left ms).isSome else (pickCluster left g.lr ms).isSome)

/-- The place of a context in a band's rotation, which goes on after the one served last (11 R291). -/
def State.turn (s : State) (ctx band : Nat) : Nat := (ctx + 512 - 1 - lookD 511 s.served band) % 512

/-- Whether a grid is the one that the distributor serves next (11 R290, R291, R294, R306): the highest band, the rotation
of its contexts, the pending source first, and no restore before it. -/
def State.serves (s : State) (g : Grid) : Bool :=
  (s.grids.all fun p =>
    let a := p.2
    let first :=
      decide (g.lr.band < a.lr.band) ||
      (a.lr.band == g.lr.band && decide (s.turn a.ctx a.lr.band < s.turn g.ctx g.lr.band)) ||
      (a.lr.band == g.lr.band && a.ctx == g.ctx && a.src == .pend && g.src != .pend)
    a.strip.isSome || !first || !s.placeable a) &&
  !s.saved.any fun p =>
    (decide (g.lr.band < p.2.wg.band) ||
      (p.2.wg.band == g.lr.band && (p.2.wg.ctx == g.ctx || decide (s.restoreRank p.2.wg = 0)))) && s.restorable p.1 p.2

/-- The context served in a band. -/
def State.serve (s : State) (g : Grid) : State := { s with served := ins g.lr.band g.ctx s.served }

/-- One workgroup of a kernel admitted. -/
def State.admitOne (s : State) (g : Grid) (cl : List (Nat × Nat)) : State :=
  match s.grid g.ctx g.num with
  | none => s
  | some g =>
    (s.placeWg g g.next g.lr.entry none none cl).modGrid g.ctx g.num fun g => { g with next := g.next + 1 }

/-- A core that the distributor may vacate for a grid: background work only, no concurrent grid, nothing vacated within
100 µs, save slots free (11 R302, R303). -/
def State.mayVacate (s : State) (core : Nat) : Bool :=
  let ws := s.wgsOn core
  let vs := s.victims [core]
  !s.vacating core && (look s.reserved core).isNone && ws != [] &&
  (ws.all fun w => w.band == 0 && !w.whole && !s.isStrip w) &&
  (vs.all fun k => (s.wg k).all fun w => w.band == 0 &&
    (w.lastVac.map fun t => decide (t + 100000 * 2 ^ 40 ≤ s.time.now)).getD true) && s.saveRoom vs

/-- The distributor vacates a core of background work for a grid below its quota that no cluster holds; light first, then
lower, and one core at a time: the room that a vacate under way frees comes first (11 R302, R307; log entry 36). -/
def State.makeRoom (s : State) (g : Grid) : State :=
  let light (c : Nat) : Nat := if (s.wgsOn c).all fun w => s.lightCtx w.ctx then 0 else 1
  if 1 ≤ g.lr.band ∧ 0 < s.quotaLeft g.ctx ∧ s.wantsRoom g ∧ !s.placeable g ∧
      (s.vacates.all fun v => v.2.host.isSome) then
    match sortBy light ((List.range 72).filter s.mayVacate) with
    | [] => s
    | c :: _ => s.vacate { cores := [c], wgs := [] } (s.victims [c])
  else s

/-- WORKGROUP_ADMIT (11 R291 to R294): the next workgroup of a kernel on the cluster given, a concurrent grid at once; an
empty cluster lets the distributor vacate a core for it. -/
def execWorkgroupAdmit (ctx grid : Nat) (cluster : List Nat) (s : State) : Out State :=
  .next (match s.grid ctx grid with
    | none => s
    | some g =>
      if g.strip.isSome ∨ !(s.ctx ctx).enabled then s
      else if cluster = [] then s.makeRoom g
      else if !g.admitting ∨ !s.serves g then s
      else
        let ms := s.rooms ctx
        let left := s.quotaLeft ctx
        match checkCluster left g.lr ms cluster with
        | none => s
        | some cl =>
          let s := s.serve g
          if g.lr.cls = 2 then
            let fresh := (cl.filter fun c => ms.any fun m => m.core == c.1 && !m.held).length
            match pickAll g.lr (g.lr.total - 1) (left - fresh) (takeRooms g.lr cl ms), pickAll g.lr g.lr.total left ms with
            | some rest, _ => (cl :: rest).foldl (fun s c => s.admitOne g c) s
            | none, some all => all.foldl (fun s c => s.admitOne g c) s
            | none, none => s
          else s.admitOne g cl)

-- NODE LAUNCHES

/-- The core of a chain that takes its next node workgroup: of the reserved cores that are free of a vacate, the one with
the fewest occupied slots (12 R318). -/
def State.chainCore (s : State) (t : Strip) : Option Nat :=
  let cs := t.cores.filter fun c => !s.vacating c
  (sortBy (fun c => (s.slotsOf c).length) cs).head?

/-- Whether a core may take a node workgroup of n threads. -/
def State.nodeFits (s : State) (g : Grid) (core n : Nat) : Bool :=
  let one (limit : Nat) : Bool :=
    !(s.ctx g.ctx).resetting && (clusterFor limit (g.lr.nodeNeed n) [s.room g.ctx core]).isSome
  match g.strip with
  | some t => decide (s.chainCore t = some core) && one 1
  | none => (s.ctx g.ctx).enabled && ((s.rooms g.ctx).any fun m => m.core == core) && one (s.quotaLeft g.ctx) && s.serves g

/-- The shading level of a node's records: that of the rasteriser's, else 0 (04 R93, 12 R312). -/
def Graph.levels (g : Graph) (i : Nat) (recs : List (List Byte × List Nat)) : List Nat :=
  let fed := g.nodes.any fun x => x.kind == 2 && x.output == i
  recs.map fun r => if fed ∧ numAt r.1 4 1 ≤ 4 then numAt r.1 4 1 else 0

/-- A workgroup of one skein with a node's oldest records (02 R55). -/
def State.launchNode (s : State) (g : Grid) (w : Graph) (x : Node) (i core n : Nat) : State :=
  match State.takeRecords g.ctx g.num i n [] s with
  | (s, none) => s
  | (s, some recs) =>
    let lin := g.next
    let s := (s.dropRecords g.ctx g.num i n).placeWg g lin x.entry (some i) (some recs) [(core, 1)]
    let s := s.modGrid g.ctx g.num fun g => { g with next := g.next + 1 }
    (s.skeinsOf (wgKey g.ctx g.num lin) false).foldl (fun s k =>
      s.modSkein k.1 k.2.1 fun k => { k with threads := (k.threads.zipIdx).map fun t =>
        { t.1 with shlevel := (w.levels i recs).getD t.2 0 } }) s

/-- NODE_LAUNCH (02 R54, R55, 12 R318): 32 records, or the rest at the flush point; a Scarab node takes one. -/
def execNodeLaunch (ctx grid node core : Nat) (s : State) : Out State :=
  .next (match s.grid ctx grid with
    | none => s
    | some g => match g.graph with
      | none => s
      | some w => match w.nodes[node]? with
        | none => s
        | some x =>
          let n := min 32 x.count
          if x.kind = 3 then (if w.abandoned ∨ x.waits then s else s.scarabNode ctx grid node x)
          else if w.ready (s.gridWgs ctx grid) node ∧ s.nodeFits g core n then
            (if g.strip.isSome then s else s.serve g).launchNode g w x node core n
          else s)

-- RETIREMENT

/-- Whether a work graph has nothing left to do (02 R56). -/
def Graph.finished (g : Graph) (ws : List Workgroup) : Bool :=
  g.abandoned || ((g.inputs ws).all id && g.nodes.all fun x => x.count == 0 && x.out.isEmpty &&
    (x.ended || (x.kind != 4 && x.kind != 5)))

/-- Whether a grid may retire (02 R52, R56, 11 R289); a child that waits for its completion store alone has retired (11 R301). -/
def State.retirable (s : State) (g : Grid) : Bool :=
  s.gridWgs g.ctx g.num == [] &&
  (s.grids.all fun p => p.2.ctx != g.ctx || p.2.parent != some g.num || p.2.held) &&
  (s.pending.all fun p => p.ctx != g.ctx || p.parent != g.num) &&
  match g.graph with
  | some w => w.finished []
  | none => !g.admitting

/-- The completion store (11 R301): a user store of the sequence value, a release. -/
def State.completeGrid (s : State) (g : Grid) : State × Option Cause :=
  let s := (s.cores.map (·.1)).foldl (fun s c => (s.drainThrough c).cleanPrivate c) s
  s.ctxStore g.ctx g.lr.completion.toNat (toBytes 8 g.lr.seq.toNat) true

/-- A grid leaves the device. -/
def State.dropGrid (s : State) (g : Grid) : State := { s with grids := del (gridKey g.ctx g.num) s.grids }

/-- GRID_RETIRE (02 R52, R56, 11 R298, R301, 12 R324): the completion store, held by a page fault; the grid retires. It
pauses while a kind-6 event of the context waits (11 R299). -/
def execGridRetire (ctx grid : Nat) (s : State) : Out State :=
  .next (match s.grid ctx grid with
    | none => s
    | some g =>
      if g.held ∨ (s.ctx ctx).resetting ∨ !s.retirable g ∨ (s.ctx ctx).ev.waits.any (·.kind == 6) then s
      else
        let s := match g.strip, g.handed with
          | some t, false => s.stripRetire (gridKey ctx grid) t
          | _, _ => s
        let finish (s : State) : State :=
          let s := s.dropGrid g
          match g.strip with
          | some t => s.sweepLow t.entry
          | none => s
        if g.lr.completion = 0 ∨ (g.graph.map (·.abandoned)).getD false then finish s
        else match s.completeGrid g with
          | (s, none) => finish s
          | (s, some c) =>
            let va := g.lr.completion
            if c = .page then
              (s.modGrid ctx grid fun g => { g with held := true, handed := true }).postFault ctx
                { gridEvent 1 grid va.toNat (8 + accDetail .write) with cause := causeWord c false false } (.completion grid)
            else (finish s).post ctx false (gridEvent 6 grid va.toNat 0))

-- HELD EVENTS

/-- The first source that waits with an event of a context has it held (11 R299). -/
def State.holdNext (s : State) (ctx : Nat) : State :=
  match (s.ctx ctx).ev.waits with
  | e :: r =>
    if (s.ctx ctx).ev.held.length < 16 then
      s.modCtx ctx fun c => { c with ev := { c.ev with held := c.ev.held ++ [e], waits := r } }
    else s
  | [] => s

/-- HELD_EVENT_POST (11 R299, 19 R458): the oldest held event is posted where the ring has room; for no context, the
device's. -/
def execHeldEventPost (ctx : Option Nat) (s : State) : Out State :=
  .next (match ctx with
    | some c => match (s.ctx c).ev.held with
      | [] => s
      | e :: r =>
        if (s.ctx c).evRoom then
          ((s.modCtx c fun x => { x with ev := { x.ev with held := r } }).ringEvent c e).holdNext c
        else s
    | none => match s.devq.held with
      | [] => s
      | e :: r => if s.devq.room then { s with devq := { s.devq with held := r } }.ringDevEvent e else s)

end Sys2Proof.Machine
end

