-- ==== Sys2Proof/Machine/Ring.lean ====
section
/-! DEFINITION. The Weft Ring: its registers, programs, injector and taps (13 R330 to R350, 15 R385), and BOARD, ALIGHT
and RINGACK (14 R365 to R367). -/

namespace Sys2Proof.Machine

/-- The ring changed. -/
def State.modRing (s : State) (f : Ring → Ring) : State := { s with ring := f s.ring }

-- PROGRAMS

/-- A list cut into pieces of n, the last perhaps shorter. -/
def pieces {α : Type} (n : Nat) : Nat → List α → List (List α)
  | 0, _ => []
  | _ + 1, [] => []
  | k + 1, x :: r => ((x :: r).take n) :: pieces n k ((x :: r).drop n)

/-- The elements of w bits that bytes hold, w being 4, 8, 16 or 32. -/
def elemsIn (w : Nat) (bs : List Byte) : List Nat :=
  if w = 4 then bs.flatMap fun b => [b.toNat % 16, b.toNat / 16]
  else (pieces (w / 8) bs.length bs).map ofBytes

/-- Source bytes of a tile (13 R337, 15 R385). -/
def tileBytes (fmt comp : Nat) : Nat :=
  if comp = 0 then 16384
  else
    let n := if comp = 1 then 2 else 1
    4096 * n + 131072 / tileWidth fmt * n / 16

/-- Formats that may be compressed (13 R337). -/
def compressible (fmt : Nat) : Bool := decide (fmt ≤ 5) || decide (8 ≤ fmt ∧ fmt ≤ 14) || fmt == 32

/-- A group of 4 elements from its kept values and their positions; a later one wins (13 R337). -/
def expandGroup (kept : List (Nat × Nat)) : List Nat :=
  kept.foldl (fun g k => modAt k.2 (fun _ => k.1) g) [0, 0, 0, 0]

/-- The dense tile of a source (13 R337). -/
def expandTile (fmt comp : Nat) (bs : List Byte) : List Byte :=
  if comp = 0 then bs
  else
    let n := if comp = 1 then 2 else 1
    let w := tileWidth fmt
    let kept := elemsIn w (bs.take (4096 * n))
    let places := (bs.drop (4096 * n)).flatMap fun b => elems 2 4 b.toNat
    (pieces n kept.length (kept.zip places)).flatMap fun g => toBytes (w / 2) (joinElems w (expandGroup g))

/-- The tile that an entry of 16 bytes names, none where it breaks 13 R332. -/
def tileOf (layer : Nat) (bs : List Byte) : Option RingTile :=
  let src := numAt bs 0 8
  let w1 := numAt bs 8 8
  let comp := bits w1 1 2
  let fmt := bits w1 3 6
  if src % 128 = 0 ∧ src / 2 ^ 52 = 0 ∧ w1 / 512 = 0 ∧ comp ≠ 3 ∧ (fmt ≤ 16 ∨ fmt = 32) ∧ (comp = 0 ∨ compressible fmt) ∧
      src + tileBytes fmt comp ≤ memEnd then
    some { l2 := !w1.testBit 0, src := src, comp := comp, fmt := fmt, layer := layer }
  else none

/-- The program of a table: its layer words, then its tiles; none where it is rejected (13 R332, 15 R385). -/
def progOf (words : List Nat) (entries : List (List Byte)) : Option (List RingTile) :=
  if words.any fun w => w / 2 ^ 20 ≠ 0 then none
  else
    let layers := words.zipIdx.flatMap fun l => List.replicate (l.1 % 2 ^ 20 + 1) l.2
    if 2 ^ 20 < layers.length then none
    else
      let ts := (layers.zip entries).map fun p => tileOf p.1 p.2
      if ts.any Option.isNone then none else some (ts.filterMap id)

/-- The waiting program read at the home slices (13 R332). -/
def State.readProg (s : State) : State × Option (List RingTile) :=
  let base := 4096 * s.ring.base
  let n := s.ring.layers + 1
  let r := s.homeRead base (8 * n) none
  let words := (pieces 8 n r.2.1).map ofBytes
  let total := (words.map fun w => w % 2 ^ 20 + 1).foldl (· + ·) 0
  if 2 ^ 20 < total then (r.1, none)
  else
    let e := r.1.homeRead (base + 16 * ceilDiv n 2) (16 * total) none
    (e.1, progOf words (pieces 16 total e.2.1))

/-- The first tile of a layer, and the last of one (13 R332). -/
def Ring.firstOf (r : Ring) (layer : Nat) : Nat := ((r.prog.getD []).takeWhile fun t => decide (t.layer < layer)).length

/-- The number of layers of the adopted program. -/
def Ring.layerCount (r : Ring) : Nat := (((r.prog.getD []).getLast?).map fun t => t.layer + 1).getD 0

/-- A program rejected, or none to run: enable clears, the error is set, and every incomplete boarding is dropped (13
R332). -/
def State.ringFail (s : State) : State :=
  ((s.modRing fun r => { r with enable := false, error := true, running := false, holding := none,
                                stopping := false }).postDev { kind := 17 }).dropAllBoards

/-- The pending program adopted, before a given pick; pending is cleared at that moment (13 R332, R334). -/
def State.adopt (s : State) (pick : Nat) : State :=
  let s := s.modRing fun r => { r with pending := false }
  match s.readProg with
  | (s, none) => s.ringFail
  | (s, some p) => s.dropAllBoards.modRing fun q => { q with prog := some p, next := 0, nextPick := pick }

/-- Enable has turned on: a pending program is adopted, and the first pick is pick 0 (13 R332, R333). -/
def State.ringStart (s : State) : State :=
  let s := s.modRing fun r => { r with
    error := false, nextPick := 0, next := 0, ready := s.cycle, stopping := false, holding := none }
  if s.ring.pending then s.adopt 0 else if s.ring.prog.isNone then s.ringFail else s

/-- The ring stops at a tile boundary (13 R333). -/
def State.ringStop (s : State) : State :=
  let s := (s.modRing fun r => { r with running := false, holding := none, stopping := false }).dropAllBoards
  if s.ring.enable then s.ringStart else s

/-- Whether no tile is being injected. -/
def State.tileOver (s : State) : Bool := decide (s.ring.ready ≤ s.cycle)

/-- A write of RINGCTL (13 R331, R333). -/
def State.ringctl (s : State) (v : Word) : State :=
  if s.boot.recovery then s
  else
    let was := s.ring.enable
    let on := v.getLsbD 0
    let s := s.modRing fun r => { r with
      enable := on, rate := bits v.toNat 1 2, owner := if was then r.owner else bits v.toNat 4 9 }
    if on = was then s
    else if on then (if s.ring.stopping then s.modRing fun r => { r with error := false } else s.ringStart)
    else if s.tileOver then s.ringStop
    else s.modRing fun r => { r with stopping := true }

/-- RINGCTL_ENABLE (13 R333). -/
def execRingctlEnable (value : Word) (s : State) : Out State := .next (s.ringctl value)

/-- RINGCTL_DISABLE (13 R333): injection stops after the tile in progress. -/
def execRingctlDisable (value : Word) (s : State) : Out State := .next (s.ringctl value)

/-- RINGNEXT_WRITE (13 R331, R334). -/
def execRingnextWrite (value : Word) (s : State) : Out State :=
  .next (if s.boot.recovery then s
    else s.modRing fun r =>
      { r with pending := value.getLsbD 63, base := bits value.toNat 12 40, layers := bits value.toNat 0 12 })

/-- Whether the next tile begins a pick. -/
def Ring.pickEnd (r : Ring) : Bool := decide ((r.prog.getD []).length ≤ r.next)

/-- RING_ADOPT (13 R332, R334, R350): between picks; at enable the write of RINGCTL adopts. -/
def execRingAdopt (s : State) : Out State :=
  let r := s.ring
  .next (if !r.enable ∨ r.stopping ∨ !r.pending ∨ !s.tileOver ∨ !r.pickEnd then s
    else s.adopt ((r.nextPick + 1) % 65536))

-- THE INJECTOR

/-- The pick and sequence of the tile that is due. -/
def Ring.due (r : Ring) : Nat × Nat := if r.pickEnd then ((r.nextPick + 1) % 65536, 0) else (r.nextPick, r.next)

/-- The cycle at which flit 0 of a tile reaches a core's tap, and flit 15 (13 R330). -/
def Flight.first (x : Flight) (core : Nat) : Nat := x.start + core + 4

/-- The cycle at which flit 15 reaches a core's tap (13 R330). -/
def Flight.final (x : Flight) (core : Nat) : Nat := x.first core + 15 * x.gap

/-- The tile that a boarding takes after those that are landing or on their way to its tap, and the slots then in use
(13 R341, R344): the tiles on their way count as good. -/
def State.ahead (s : State) (core : Nat) (b : Board) : Nat × Nat :=
  s.ring.flying.foldl (fun (a : Nat × Nat) x =>
    if !x.caught.contains core ∧ b.since < x.first core ∧ x.seq = a.1 ∧ a.2 < b.slots then (a.1 + 1, a.2 + 1) else a)
    (if b.landing.isSome then b.next + 1 else b.next, b.used)

/-- Whether a boarding would catch tile n and lacks a slot for it (13 R344). -/
def State.lacks (s : State) (n core : Nat) (b : Board) : Bool :=
  let a := s.ahead core b
  s.boarding b && a.1 == n && decide (n ≤ b.lastSeq) && decide (b.slots ≤ a.2)

/-- The boardings that hold tile n. -/
def State.holders (s : State) (n : Nat) : List (Nat × Nat × Board) :=
  s.cores.flatMap fun c => c.2.boards.filterMap fun b => if s.lacks n c.1 b.2 then some (c.1, b.1, b.2) else none

/-- Whether a tap has still to act on a flit that has reached it. -/
def State.tapDue (s : State) : Bool :=
  s.cores.any fun c => c.2.boards.any fun b =>
    s.ring.flying.any fun x =>
      (b.2.landing.isSome && x.caught.contains c.1 && !x.landed.contains c.1 && decide (x.final c.1 < s.cycle)) ||
      (s.boarding b.2 && !x.caught.contains c.1 && b.2.next == x.seq && decide (b.2.since < x.first c.1) &&
        decide (x.first c.1 < s.cycle))

/-- CRC-32C after one more byte (13 R335): the Castagnoli polynomial 0x1EDC6F41, reflected. -/
def crcByte (c : Nat) (b : Byte) : Nat :=
  (List.range 8).foldl (fun c _ => if c % 2 = 1 then Nat.xor (c / 2) 0x82F63B78 else c / 2) (Nat.xor c b.toNat)

/-- CRC-32C of bytes (13 R335). -/
def crc32c (bs : List Byte) : Nat := Nat.xor (bs.foldl crcByte 0xFFFFFFFF) 0xFFFFFFFF

/-- The side-band header of a tile's flit (13 R335). -/
def Flight.header (x : Flight) (flit : Nat) : Nat :=
  x.pick * 2 ^ 48 + x.layer * 2 ^ 36 + x.seq * 2 ^ 16 + flit * 2 ^ 12 + x.lead.toNat * 2 ^ 11 + x.poison.toNat * 2 ^ 10

/-- The payload as it reaches a core's tap. -/
def Flight.got (x : Flight) (core : Nat) : List Byte :=
  (x.errs.filter fun e => e.1 = core).foldl (fun bs e => modAt e.2.1 (· ^^^ e.2.2) bs) x.data

/-- Whether a tile's CRC matches at a core's tap (13 R342). -/
def Flight.crcOk (x : Flight) (core : Nat) : Bool := crc32c (x.got core) == x.crc

/-- The next tile injected (13 R330, R335, R336, R338); its CRC is formed after the expansion. A source of either kind is read at
the home slices: that one of them leaves the lines allocated there is not seen (log entry 8). -/
def State.inject (s : State) : State :=
  let (pick, seq) := s.ring.due
  match (s.ring.prog.getD [])[seq]? with
  | none => s
  | some t =>
    let r := s.homeRead t.src (tileBytes t.fmt t.comp) none
    let gap := 2 ^ s.ring.rate
    let data := expandTile t.fmt t.comp r.2.1
    let x : Flight := {
      pick := pick, seq := seq, layer := t.layer, lead := s.ring.firstOf t.layer == seq, data := data, crc := crc32c data
      poison := r.2.2 ≠ []
      start := s.cycle, gap := gap }
    r.1.modRing fun q => { q with
      holding := none, expired := none, running := true, pick := pick, tile := seq, layer := t.layer, nextPick := pick, next := seq + 1
      ready := s.cycle + 16 * gap, flying := (q.flying.filter fun y => decide (s.cycle ≤ y.final 71)) ++ [x] }

/-- Whether the injector stands at a tile boundary with a tile to inject. -/
def State.atBoundary (s : State) : Bool :=
  let r := s.ring
  r.enable && !r.stopping && r.prog.isSome && s.tileOver && !s.tapDue && !(r.pending && r.pickEnd)

/-- TILE_INJECT (13 R333, R344, R350): the hold check, then the tile; a ring that stops does so here. -/
def execTileInject (s : State) : Out State :=
  .next (if s.ring.stopping then (if s.tileOver then s.ringStop else s)
    else if !s.atBoundary then s
    else
      let hs := s.holders s.ring.due.2
      if hs = [] then s.inject
      else if s.ring.hold = 0 then (hs.foldl (fun s h => s.dropBoard h.1 h.2.1 h.2.2) s).inject
      else s.modRing fun r => { r with holding := some (r.holding.getD s.time.now), expired := if r.holding.isSome then r.expired else none })

/-- HOLD_TIMEOUT (13 R344): the boardings that still lack a slot once the cycle of the limit has passed, in which a RINGACK still
ends the hold (13 R350), are dropped, and the tile is injected. -/
def execHoldTimeout (s : State) : Out State :=
  .next (match s.ring.holding with
    | none => s
    | some t =>
      if !s.atBoundary ∨ s.time.now < t + s.ring.hold * 2 ^ 40 then s
      else if (s.ring.expired.map fun c => decide (s.cycle ≤ c)).getD true then
        s.modRing fun r => { r with expired := some (r.expired.getD s.cycle) }
      else ((s.holders s.ring.due.2).foldl (fun s h => s.dropBoard h.1 h.2.1 h.2.2) s).inject)

-- THE TAPS

/-- A tile of the ring changed for a core. -/
def State.modFlight (s : State) (i : Nat) (f : Flight → Flight) : State :=
  s.modRing fun r => { r with flying := modAt i f r.flying }

/-- TAP_CATCH (13 R341, R342): flit 0 of the next tile reaches a tap. -/
def execTapCatch (core : Nat) (s : State) : Out State :=
  .next (match s.ring.flying.zipIdx.find? fun x => !x.1.caught.contains core with
    | none => s
    | some (x, i) =>
      let bs := (s.core core).boards
      if s.cycle < x.first core ∨ 72 ≤ core ∨ bs.any (fun b => b.2.landing.isSome) then s
      else
        let hit := bs.filter fun b => s.boarding b.2 && b.2.next == x.seq && decide (b.2.since < x.first core) &&
          decide (b.2.used < b.2.slots)
        let s := hit.foldl (fun s b => s.setBoard core b.1
          { b.2 with landing := some (b.2.taken % b.2.slots), taken := b.2.taken + 1 }) s
        s.modFlight i fun x =>
          { x with caught := addTo core x.caught, landed := if hit = [] then addTo core x.landed else x.landed })

/-- A tile's end at one boarding: landed, marked corrupt, or to be taken again (13 R342, R346); the payload is in the slot in each
case (log entry 106). -/
def State.landBoard (s : State) (core i : Nat) (x : Flight) (data : List Byte) (ok : Bool) (b : Board) (j : Nat) : State :=
  let cs := s.boardSlot core b
  let next := { b with landing := none, next := x.seq + 1 }
  let done (b : Board) : Board := { b with st := if b.st = 1 ∧ b.lastSeq < b.next then 2 else b.st }
  let bad := if ok && x.poison then wholeUnits 8 (b.at j) 16384 else []
  let s := s.modPart b.wg cs fun p => p.store (b.at j) data bad
  if ok then
    let s := s.modPart b.wg cs fun p => p.fresh (b.lines j)
    (s.setBoard core i (done { next with landed := addTo j b.landed })).boardCount core b countTile
  else if b.retry then s.setBoard core i { b with landing := none, taken := b.taken - 1 }
  else
    let s := s.modPart b.wg cs fun p => p.mark (b.lines j) false
    (s.setBoard core i (done { next with landed := dropFrom j b.landed })).boardCount core b countTile

/-- Records that ALIGHT has cancelled and that land nothing are freed, and their ALIGHTs go on (13 R348). -/
def State.freeCancelled (s : State) (core : Nat) : State :=
  let gone := (s.core core).boards.filter fun b => b.2.cancel && b.2.landing.isNone
  let s := s.modCore core fun c => { c with boards := c.boards.filter fun b => !(b.2.cancel && b.2.landing.isNone) }
  gone.foldl (fun s b =>
    (s.skeinsAt b.2.wg core).foldl (fun s k =>
      (k.2.waitsFor (· = .alight)).foldl (fun s w =>
        if w.2.vals.headD 8 = b.1 then
          s.wakeLanes core k.1 w.2.lanes ((laneOf k.2.threads w.1).pc + 8)
        else s) s) s) s

/-- TILE_LAND (13 R342, R345, R346): flit 15 of a caught tile reaches a tap, and its CRC matches or fails; `crcOk` says which, as
the tap finds it. -/
def execTileLand (core : Nat) (crcOk : Bool) (s : State) : Out State :=
  .next (match s.ring.flying.zipIdx.find? fun x => x.1.caught.contains core && !x.1.landed.contains core with
    | none => s
    | some (x, i) =>
      if s.cycle < x.final core ∨ crcOk ≠ x.crcOk core then s
      else
        let s := s.modFlight i fun x => { x with landed := addTo core x.landed }
        let bs := (s.core core).boards.filterMap fun b => b.2.landing.map fun j => (b.1, b.2, j)
        let s := match bs with
          | [] => s
          | b :: _ => if crcOk then s else s.count (b.2.1.wg % 512) 14 1
        let s := bs.foldl (fun s b => s.landBoard core b.1 x (x.got core) crcOk b.2.1 b.2.2) s
        (s.finishDrops core).freeCancelled core)

-- THE INSTRUCTIONS

/-- The window-0x00 address of a grant offset (07 R174). -/
def grantVa (off : Nat) : Word := word (0xF * 2 ^ 48 + off)

/-- The faults of a BOARD from its two elements (14 R365). -/
def State.boardFault (s : State) (k : Skein) (e0 e1 : Nat) : Option Trap :=
  let buf := bits e0 24 21
  let stop := buf + 16384 * (bits e0 45 6 + 1)
  let ctr := bits e1 0 21
  let grant := s.grantOf k.wgKey
  let outs := (if grant < stop then [max buf grant] else []) ++ (if grant < ctr + 8 then [max ctr grant] else [])
  if e0 / 2 ^ 51 ≠ 0 ∨ e1 / 2 ^ 21 ≠ 0 ∨ buf % 128 ≠ 0 ∨ bits e0 12 12 < bits e0 0 12 then some { cause := .illegalField }
  else if ctr % 8 ≠ 0 then some { cause := .align, addr := grantVa ctr }
  else if k.ctx ≠ s.ring.owner ∨ s.ring.prog.isNone ∨ s.ring.layerCount ≤ bits e0 12 12 then some { cause := .prot }
  else match least outs with
    | some a => some { cause := .prot, addr := grantVa a }
    | none => if ctr < stop ∧ buf < ctr + 8 then some { cause := .prot, addr := grantVa ctr } else none

/-- BOARD's act for the skein (13 R340, 14 R365). -/
def boardRun (x : FmtX) (st : Site) (l : LaneIn) (s : State) : State × Fate :=
  match s.skein st.core st.slot with
  | none => (s, .next)
  | some k =>
    let e0 := l.val 0 % 2 ^ 64
    let e1 := l.val 0 / 2 ^ 64
    match s.boardFault k e0 e1 with
    | some t => (s, .trap t)
    | none => match (List.range 8).find? fun i => (look (s.core st.core).boards i).isNone with
      | none => (s.putRegs st [.push false], .next)
      | some i =>
        let s := s.drainForEngine st.core st.slot
        let b : Board := {
          wg := k.wgKey, retry := x.ctl.flag, scope := x.ctl.scope.toNat, first := bits e0 0 12, last := bits e0 12 12
          buffer := bits e0 24 21, slots := bits e0 45 6 + 1, counter := bits e1 0 21, next := s.ring.firstOf (bits e0 0 12)
          lastSeq := s.ring.firstOf (bits e0 12 12 + 1) - 1, since := s.cycle }
        let cs := s.boardSlot st.core b
        let s := s.modPart k.wgKey cs fun p =>
          (p.blank (units 128 b.buffer (16384 * b.slots))).store b.counter (toBytes 8 0) []
        (((s.setBoard st.core i b).hold st x.r2 4 i []).putRegs st [.push true], .next)

/-- BOARD (14 R365). -/
def execBoard (x : FmtX) (s : State) : Out State :=
  .next (s.runEach (.board x) x.ctl 0 false
    { reads := fun _ => [.group x.r1 8 2], dsts := fun _ => [(x.r2, 4, 1)], run := boardRun x })

/-- The record of an index register that the issuing workgroup holds (14 R366). -/
def State.ownBoard (s : State) (core : Nat) (k : Skein) (i : Nat) : Option Board :=
  (look (s.core core).boards i).filter fun b => b.wg == k.wgKey

/-- ALIGHT's act for the skein (13 R348, 14 R366): the skein waits while a tile is landing. -/
def alightRun (st : Site) (l : LaneIn) (s : State) : State × Fate :=
  match s.skein st.core st.slot with
  | none => (s, .next)
  | some k =>
    let i := l.val 0
    if 8 ≤ i then (s, .trap { cause := .illegalField })
    else match s.ownBoard st.core k i with
      | none => (s, .next)
      | some b =>
        let s := s.setBoard st.core i { b with cancel := true }
        if b.landing.isSome then (s, .wait .alight [i]) else (s.freeCancelled st.core, .next)

/-- ALIGHT (14 R366). -/
def execAlight (x : FmtX) (s : State) : Out State :=
  .next (s.runEach (.alight x) x.ctl 0 false { reads := fun _ => [.reg x.r1 4], run := alightRun })

/-- The oldest slots of a boarding freed, at most n (13 R343). -/
def State.ackBoard (s : State) (core i : Nat) (b : Board) (n : Nat) : State :=
  let m := min n b.used
  let slots := (List.range m).map fun j => (b.acked + j) % b.slots
  let s := s.modPart b.wg (s.boardSlot core b) fun p => slots.foldl (fun p j => p.blank (b.lines j)) p
  s.setBoard core i { b with acked := b.acked + m, landed := dropAll slots b.landed }

/-- Instructions whose bytes a RINGACK of their skein awaits (14 R367). -/
def readsBytes : Instr → Bool
  | .ld _ _ => true
  | .ldg _ _ => true
  | .atom _ _ _ => true
  | .red _ _ _ => true
  | .tload _ => true
  | .tloadr _ => true
  | .cpy _ => true
  | .cpyq _ => true
  | _ => false

/-- Whether a skein's loads, atomics, TLOAD, TLOADR or CPY before a place in its order have still to read their bytes (14 R367). -/
def State.readsDue (s : State) (core : Nat) (k : Skein) (q : Nat) : Bool :=
  let c := s.core core
  let mine (x : ShCmd) : Bool := x.wg == k.wgKey && x.skein == k.idx && decide (x.seq ≤ q)
  (c.shuttle ++ c.started.toList).any (fun x => mine x && !x.only) ||
  (c.tileq.any fun x => mine x.io && !x.done && readsBytes x.instr) || k.waitsBefore q readsBytes ||
  k.sq.any fun e => decide (e.seq < q) && match e.act with
    | .red _ _ _ _ => true
    | _ => false

/-- RINGACK's act for the skein: it waits while the skein's earlier reads are due (14 R367). -/
def ringackRun (st : Site) (l : LaneIn) (s : State) : State × Fate :=
  match s.skein st.core st.slot with
  | none => (s, .next)
  | some k =>
    let i := l.val 0
    if 8 ≤ i then (s, .trap { cause := .illegalField })
    else match s.ownBoard st.core k i with
      | none => (s, .next)
      | some b =>
        if b.st ≠ 1 ∧ b.st ≠ 2 then (s, .next)
        else if s.readsDue st.core k st.ord then (s, .wait .presence l.vals)
        else (s.ackBoard st.core i b (l.val 1), .next)

/-- RINGACK (14 R367). -/
def execRingack (x : FmtX) (s : State) : Out State :=
  .next (s.runEach (.ringack x) x.ctl 0 false { reads := fun _ => [.reg x.r1 4, .reg x.r2 4], run := ringackRun })

end Sys2Proof.Machine
end

