-- ==== Sys2Proof/Machine/Strips.lean ====
section
/-! DEFINITION. The strip schedule, the Treadle, heads, encode sessions and engines (12 R308 to R329, 15 R383, R384), and
STRIPQ (14 R368). -/

namespace Sys2Proof.Machine

-- THE SCHEDULE

/-- Strips of a frame (12 R310). -/
def Sched.perFrame (e : Sched) : Nat := ceilDiv e.h e.rows

/-- The frame of a strip, and its index in it. -/
def Sched.place (e : Sched) (g : Nat) : Nat × Nat := (g / e.perFrame, g % e.perFrame)

/-- Lines of a strip (12 R310). -/
def Sched.lines (e : Sched) (g : Nat) : Nat := min e.rows (e.h - (e.place g).2 * e.rows)

/-- The epoch of a strip's frame (12 R309). -/
def Sched.epoch (e : Sched) (g : Nat) : Int := ((e.e0 + (e.place g).1 * e.v * e.period : Nat) : Int)

/-- A strip's deadline (12 R310). -/
def Sched.due (e : Sched) (g : Nat) : Int := e.epoch g + (((e.place g).2 * e.rows : Nat) - 2 : Int) * e.period

/-- A strip's admission time (12 R310). -/
def Sched.adm (e : Sched) (g : Nat) : Int := e.due g - e.budget

/-- A strip's tag (12 R311). -/
def Sched.tag (e : Sched) (g : Nat) : Nat := (e.place g).1 % 2 ^ 32 * 2 ^ 32 + (e.place g).2

/-- Pitch of an output line (12 R323). -/
def Sched.pitch (e : Sched) : Nat := 128 * ceilDiv (4 * e.w) 128

/-- Payload bits per 2^16 ns of a trained link: lanes, rate and line code (19 R463, log entry 23). -/
def linkBits (l : DpLink) : Nat :=
  let lanes := 2 ^ l.lanes.toNat
  let rate := match l.rate.toNat with
    | 0 => 10000 * 128 * 10
    | 1 => 13500 * 128 * 10
    | 2 => 20000 * 128 * 10
    | _ => 8100 * 8 * 132
  lanes * rate * 65536 / (1000 * 1320)

/-- Whether a head's timing is within its values and its bit rate within the trained link (15 R384, 19 R463). -/
def State.timingOk (s : State) (j period : Nat) : Bool :=
  let w0 := (s.reg0 (0x020000 + 256 * j)).toNat
  let total := bits (s.reg0 (0x020008 + 256 * j)).toNat 0 16
  let w := bits w0 0 16
  let h := bits w0 16 16
  let v := bits w0 32 16
  decide (64 ≤ w ∧ w ≤ 7680 ∧ 64 ≤ h ∧ h ≤ 4320 ∧ h ≤ v ∧ bits w0 58 2 ≠ 3) &&
  match look s.links j with
  | none => false
  | some l => decide (24 * total * 2 ^ 32 ≤ linkBits l * period)

/-- Whether a consumer's region is valid (12 R322): it lies in the 48 MiB of the SRAM (01 R17, log entry 105). -/
def Region.ok (r : Region) : Bool :=
  r.valid && decide (2 ≤ r.n ∧ r.n ≤ 64) && r.base % 128 == 0 && r.size % 128 == 0 && r.low % 128 == 0 &&
  decide (r.base + r.n * (r.size + r.low) ≤ 0x3000000)

/-- A schedule entry's fields, with W, H and V of a head's timing (15 R383). -/
def State.schedFields (s : State) (j : Nat) (bs : List Byte) : Sched :=
  let w0 := (s.reg0 (0x020000 + 256 * j)).toNat
  { gen := s.order, ctx := numAt bs 0 2, rows := numAt bs 2 1, maxLevel := numAt bs 3 1, cores := numAt bs 4 1
    cols := numAt bs 5 1, graph := numAt bs 8 8, e0 := numAt bs 16 16, period := numAt bs 32 8, budget := numAt bs 40 8
    guard := numAt bs 48 8, hint := numAt bs 56 8, fill := (bs.drop 64).take 4
    w := if j < 4 then bits w0 0 16 else numAt bs 0x44 2
    h := if j < 4 then bits w0 16 16 else numAt bs 0x46 2
    v := if j < 4 then bits w0 32 16 else numAt bs 0x48 2
    slack := numAt bs 0x50 8, ringBase := numAt bs 0x58 8, ringSize := numAt bs 0x60 8, progress := numAt bs 0x68 8 }

/-- Whether an entry may be enabled (15 R383, R384). -/
def State.schedOk (s : State) (j : Nat) (bs : List Byte) : Bool :=
  let e := s.schedFields j bs
  let c := s.ctx e.ctx
  decide (e.ctx ≤ 511) && (e.rows == 64 || (decide (j < 4) && (e.rows == 16 || e.rows == 32))) && decide (e.maxLevel ≤ 4) &&
  decide (1 ≤ e.cores ∧ e.cores ≤ 24) && numAt bs 6 2 == 0 && e.graph % 64 == 0 && decide (1 ≤ e.period) &&
  decide (1 ≤ e.budget ∧ e.budget ≤ e.v * e.period) && numAt bs 0x70 16 == 0 &&
  (if j < 4 then numAt bs 0x44 44 == 0 && s.timingOk j e.period
   else decide (e.cols ≤ 6) && decide (64 ≤ e.w ∧ e.w ≤ 3840 ∧ 64 ≤ e.h ∧ e.h ≤ 2160 ∧ e.h ≤ e.v) &&
     e.ringBase % 4096 == 0 && e.ringSize % 4096 == 0 && decide (4096 ≤ e.ringSize) && e.progress % 8 == 0) &&
  c.enabled && c.var.quota != 0 && (s.region j).ok

/-- SCHEDULE_ENABLE (15 R384): the entry is read once; a refused one leaves its bit clear. -/
def execScheduleEnable (entry : Nat) (s : State) : Out State :=
  .next (if s.boot.recovery ∨ 132 ≤ entry ∨ (look s.sched entry).isSome then s
    else
      let r := s.homeRead ((s.reg0 8).toNat + 128 * entry) 128 none
      let s := r.1
      if s.schedOk entry r.2.1 then
        { s with sched := ins entry (s.schedFields entry r.2.1) s.sched, order := s.order + 1 }
      else s.postDev { kind := 19, extra := word entry })

/-- An entry's admissions stop; slots that no chain of it holds are free (15 R384). -/
def State.schedStop (s : State) (entry : Nat) : State :=
  let s := { s with sched := del entry s.sched }
  let r := s.region entry
  (List.range r.n).foldl (fun s j => match look s.slots (slotAt entry j) with
    | none => s
    | some (g, gen) =>
      if s.chainLive entry gen g then s
      else
        let s := s.freeAt (r.outAt j)
        if r.low = 0 then s else s.freeAt (r.lowAt j)) s

/-- SCHEDULE_DISABLE (15 R384). -/
def execScheduleDisable (entry : Nat) (s : State) : Out State :=
  .next (if s.boot.recovery ∨ (look s.sched entry).isNone then s else s.schedStop entry)

-- PREDICTION

/-- predict() of 12 R321. -/
def Strip.predict (t : Strip) (now : Int) : Strip :=
  if t.dl - t.guard < now + t.left * t.cost ∧ t.level < t.maxLevel then { t with level := t.level + 1 } else t

/-- The binner has closed its output: t_prev, total and acc (12 R321). -/
def Strip.binned (t : Strip) (now : Int) (total : Nat) : Strip :=
  { t with closed := true, tPrev := now, total := total, acc := 0 }

/-- A record accepted by the rasteriser (12 R321); div rounds towards minus infinity (01 R6). -/
def Strip.accept (t : Strip) (now : Int) : Strip :=
  let t := { t with acc := t.acc + 1 }
  if t.acc % 8 = 0 then
    ({ t with cost := t.cost + ((now - t.tPrev).fdiv 8 - t.cost).fdiv 8, tPrev := now, left := (t.total : Int) - t.acc }).predict now
  else t

-- THE TREADLE

/-- The blocks of a chain's fixed-function nodes (16 R399, R410, R414). -/
structure Blocks where
  raster : List Byte
  blend : List Byte
  feed : Option (List Byte)
  deriving DecidableEq, Repr

/-- Every byte from off to the block's end is zero. -/
def zeroTail (bs : List Byte) (off : Nat) : Bool := (bs.drop off).all (· == 0)

/-- A raster state within 16 R399. -/
def rasterOk (b : List Byte) : Bool :=
  (numAt b 0 1 == 1 || numAt b 0 1 == 4) && decide (numAt b 1 1 ≤ 2) && decide (numAt b 2 1 < 16) &&
  decide (numAt b 3 1 ≤ 7) && numAt b 8 8 % 128 == 0 && zeroTail b 16

/-- A blender state within 16 R410, its reserved bytes read as zero (00 R4); one that blends does not write an f16 slot
(16 R413). -/
def blendOk (b : List Byte) (f16 : Bool) : Bool :=
  ((List.range 6).all fun i => decide (numAt b i 1 ≤ if i % 3 = 2 then 4 else 7)) && decide (numAt b 6 1 < 4) &&
  numAt b 16 8 % 128 == 0 && !(f16 && (numAt b 6 1) % 2 == 1)

/-- An upscaler-feed state within 16 R414 and 12 R315: q, the format, and a shader node after the feed. -/
def feedOk (e : Sched) (g : Graph) (i : Nat) (b : List Byte) : Bool :=
  let q := numAt b 0 1
  let n := numAt b 2 1
  (q == 1 || q == 2 || q == 4) && decide (4 ≤ e.rows / q) && decide (numAt b 1 1 ≤ 1) && numAt b 3 5 == 0 && zeroTail b 16 &&
  decide (i < n) && ((g.nodes[n]?).map fun x => x.kind == 0).getD false

/-- A node's block of 64 bytes. -/
def State.block (s : State) (ctx : Nat) (x : Option Node) : State × Option (List Byte) :=
  match x with
  | none => (s, none)
  | some x => match s.ctxReadAny ctx x.entry.toNat 64 with
    | (s, .ok (bs, [])) => (s, some bs)
    | (s, _) => (s, none)

/-- The nodes of a kind. -/
def Graph.node (g : Graph) (kind : Nat) : Option Node := g.nodes.find? fun x => x.kind == kind

/-- Every page of a buffer is one that the context may write, of device kind. -/
def State.buffer (s : State) (ctx va n : Nat) : State × Bool :=
  match State.graphPages ctx .write (units 4096 va n) s with
  | (s, none) => (s, true)
  | (s, some _) => (s, false)

/-- The blocks read and checked (12 R312, 16 R399, R410, R413, R414); none where one faults or breaks its table. -/
def State.blocks (s : State) (e : Sched) (g : Graph) (lines : Nat) : State × Option Blocks :=
  let fi := (g.nodes.findIdx? fun x => x.kind == 5).getD 0
  match s.block e.ctx (g.node 2) with
  | (s, none) => (s, none)
  | (s, some r) => match s.block e.ctx (g.node 4) with
    | (s, none) => (s, none)
    | (s, some b) =>
      let done (s : State) (f : Option (List Byte)) : State × Option Blocks :=
        let q := (f.map fun x => numAt x 0 1).getD 1
        let f16 := (f.map fun x => numAt x 1 1 == 1).getD false
        let samples := numAt r 0 1
        let w := ceilDiv e.w q
        let l := if f.isSome then e.rows / q else lines
        if !(rasterOk r && blendOk b f16 && (f.map fun x => feedOk e g fi x).getD true) then (s, none)
        else
          let d := if numAt r 2 1 / 4 = 0 then (s, true) else s.buffer e.ctx (numAt r 8 8) (4 * samples * w * l)
          let m := if samples = 1 then (d.1, true) else d.1.buffer e.ctx (numAt b 16 8) (16 * w * l)
          (m.1, if d.2 && m.2 then some { raster := r, blend := b, feed := f } else none)
      match g.node 5 with
      | none => done s none
      | some x => match s.block e.ctx (some x) with
        | (s, none) => (s, none)
        | (s, some f) => done s (some f)

/-- Cores that strip chains hold reserved in a sector. -/
def State.reservedIn (s : State) (sec : Nat) : Nat := (s.reserved.filter fun p => sectorOf p.1 == sec).length

/-- Whether the Treadle may choose a core (12 R317). -/
def State.mayReserve (s : State) (core : Nat) : Bool :=
  (look s.reserved core).isNone && ((s.wgsOn core).all fun w => !w.whole && decide (w.band < 2)) && s.saveRoom (s.victims [core])

/-- The order in which the Treadle prefers cores: free, background, normal; light first, then lower (12 R317). -/
def State.coreRank (s : State) (core : Nat) : Nat :=
  let ws := s.wgsOn core
  let group := if ws = [] then 0 else if ws.all fun w => w.band == 0 then 1 else 2
  2 * group + if ws.all fun w => s.lightCtx w.ctx then 0 else 1

/-- Cores of a sector for a chain, as many as it needs, none where the sector cannot supply them (12 R317, 11 R303). -/
def State.coresIn (s : State) (sec need : Nat) : Option (List Nat) :=
  let cs := sortBy s.coreRank (((List.range 24).map (24 * sec + ·)).filter s.mayReserve)
  let got := cs.foldl (fun acc c =>
    if acc.length < need ∧ s.saveRoom (s.victims (acc ++ [c])) then acc ++ [c] else acc) []
  if got.length = need then some got else none

/-- The cores for a chain: sectors in ascending count of reserved cores (12 R317). -/
def State.chainCores (s : State) (need : Nat) : Option (List Nat) :=
  (sortBy s.reservedIn [0, 1, 2]).findSome? fun sec => s.coresIn sec need

/-- A strip that is tried no more. -/
def Sched.close (e : Sched) (g : Nat) : Sched :=
  { e with next := max e.next (g + 1), tries := e.tries.filter fun t => t.1 != g }

/-- A strip tried at a time and not admitted. -/
def Sched.try_ (e : Sched) (g : Nat) (now : Int) : Sched :=
  { e with next := max e.next (g + 1), tries := insBy (·.1) (g, now) (e.close g).tries }

/-- A strip denied by a check (12 R312). -/
def State.denyStrip (s : State) (j : Nat) (e : Sched) (g : Nat) (seq : Word) : State :=
  let s := { s with sched := ins j (e.close g) s.sched }
  ((s.count e.ctx 20 1).post e.ctx true (rejectEvent 1 seq)).sweepLow j

/-- A chain admitted on its cores (12 R312, R316 to R318, R321, R324). -/
def State.admitStrip (s : State) (j : Nat) (e : Sched) (n : Nat) (r : Record) (g : Graph) (b : Blocks) (cores : List Nat) : State :=
  let reg := s.region j
  let slot := n % reg.n
  let q := (b.feed.map fun x => numAt x 0 1).getD 1
  let bpp := if (b.feed.map fun x => numAt x 1 1).getD 0 = 1 then 8 else 4
  let t : Strip := {
    entry := j, gen := e.gen, g := n, k := (e.place n).2, rows := e.rows, lines := e.lines n, tag := e.tag n, dl := e.due n
    adm := e.adm n, guard := e.guard, maxLevel := if (s.ctx e.ctx).var.lock then 0 else e.maxLevel, cost := e.hint, left := g.left
    slot := slot, out := reg.outAt slot, pitch := e.pitch, low := reg.lowAt slot
    lowPitch := 128 * ceilDiv (bpp * ceilDiv e.w q) 128, lowBytes := bpp, ratio := q, upscale := b.feed.isSome
    outWidth := e.w, cores := cores, raster := b.raster, blend := b.blend, feed := b.feed.getD [] }
  let s := { s with
    sched := ins j (e.close n) s.sched
    slots := ins (slotAt j slot) (n, e.gen) s.slots
    reserved := cores.foldl (fun m k => ins k (gridKey e.ctx (s.gridNum e.ctx)) m) s.reserved }
  let s := s.claim t.out t.tag
  let s := if reg.low = 0 then s else s.claim t.low t.tag
  let vs := s.victims cores
  let s := if vs = [] then s else s.vacate { cores := cores.filter fun k => s.wgsOn k != [], wgs := [] } vs
  s.takeGrid {
    ctx := e.ctx, num := 0, lr := { r with band := 3, seq := word t.tag }, src := .strip j, graph := some g
    strip := some (t.predict s.unitsNow) }

/-- Whether slots hold a full strip of a chain (12 R323). -/
def Region.holds (r : Region) (e : Sched) (b : Blocks) : Bool :=
  decide (128 + e.rows * e.pitch ≤ r.size) &&
  match b.feed with
  | none => true
  | some f =>
    let q := numAt f 0 1
    let bpp := if numAt f 1 1 = 1 then 8 else 4
    decide (0 < r.low ∧ 128 + e.rows / q * (128 * ceilDiv (bpp * ceilDiv e.w q) 128) ≤ r.low)

/-- One attempt at a strip (12 R312, R316): the slots, the cores, then the record and its checks. -/
def State.tryStrip (s : State) (j : Nat) (e : Sched) (n : Nat) : State :=
  let reg := s.region j
  let slot := n % reg.n
  let tried := { s with sched := ins j (e.try_ n s.unitsNow) s.sched }
  if s.claimed (reg.outAt slot) ∨ (reg.low ≠ 0 ∧ s.claimed (reg.lowAt slot)) then tried
  else match s.chainCores e.cores with
    | none => tried
    | some cores => match s.ctxReadAny e.ctx e.graph 64 with
      | (s, .error _) => s.denyStrip j e n 0
      | (s, .ok (bs, bad)) =>
        let r := recordOf bs
        if bad ≠ [] ∨ !recordFields bs ∨ r.kind ≠ 1 ∨ (s.laterReason e.ctx r).isSome then s.denyStrip j e n r.seq
        else match s.graphOf e.ctx r.entry.toNat true with
          | (s, .ok g) => match s.blocks e g (e.lines n) with
            | (s, none) => s.denyStrip j e n r.seq
            | (s, some b) =>
              if reg.holds e b then s.admitStrip j e n r g b cores
              else { s with sched := ins j (e.try_ n s.unitsNow) s.sched }
          | (s, _) => s.denyStrip j e n r.seq

/-- A microsecond in the units of 12 R308. -/
def microsecond : Int := 1000 * 65536

/-- The earliest strip of an entry at which an attempt is due: at A and each microsecond after it until D (12 R316). -/
def Sched.attempt (e : Sched) (now : Int) : Option Nat :=
  let again (t : Nat × Int) : Bool :=
    let a := e.adm t.1
    decide (now ≤ e.due t.1) && decide ((t.2 - a).fdiv microsecond < (now - a).fdiv microsecond)
  match e.tries.find? again with
  | some t => some t.1
  | none => if e.adm e.next ≤ now ∧ now ≤ e.due e.next then some e.next else none

/-- TREADLE_ADMIT (12 R316): strips that are due at once are tried in ascending D, then by entry. -/
def execTreadleAdmit (entry : Nat) (s : State) : Out State :=
  .next (match look s.sched entry with
    | none => s
    | some e => match e.attempt s.unitsNow with
      | none => s
      | some g =>
        let first (p : Nat × Sched) : Bool := (p.2.attempt s.unitsNow).any fun x =>
          decide (p.2.due x < e.due g) || (p.2.due x == e.due g && decide (p.1 < entry))
        if s.sched.any first then s else s.tryStrip entry e g)

/-- The first strip of an entry that may still be admitted. -/
def Sched.oldest (e : Sched) : Nat := (e.tries.head?.map (·.1)).getD e.next

/-- STRIP_DENIED (12 R316): a strip that was not admitted by D. -/
def execStripDenied (entry : Nat) (s : State) : Out State :=
  .next (match look s.sched entry with
    | none => s
    | some e =>
      if e.due e.oldest < s.unitsNow then
        ({ s with sched := ins entry (e.close e.oldest) s.sched }.count e.ctx 20 1).sweepLow entry
      else s)

-- CONSUMERS

/-- Where the slot of a consumer's strip lies. -/
def State.outSlot (s : State) (j g : Nat) : Nat := let r := s.region j; r.outAt (g % r.n)

/-- Whether a strip's slot holds its tag with complete set at a time or earlier (12 R326, R327). -/
def State.stripReady (s : State) (j : Nat) (e : Sched) (g : Nat) (by_ : Int) : Bool :=
  let a := s.outSlot j g
  s.slotTag a == e.tag g && s.slotBits a / 2 % 2 == 1 &&
  ((look s.mem.stripSet (a + 8)).map fun t => decide ((t : Int) ≤ by_)).getD false

/-- A strip marked late, unless another strip's tag is there, and counted (12 R326, R327). -/
def State.markLate (s : State) (j : Nat) (e : Sched) (g : Nat) : State :=
  let a := s.outSlot j g
  (if s.slotTag a = e.tag g then s.setSlot a 4 else s).count e.ctx 19 1

/-- The pixels of a strip in its slot, RGBA, line by line. -/
def State.stripPixels (s : State) (j : Nat) (e : Sched) (g : Nat) : List Byte :=
  (List.range (e.lines g)).flatMap fun i => s.ringBytes (s.outSlot j g + 128 + i * e.pitch) (4 * e.w)

/-- The flat pixels of a late strip. -/
def Sched.flat (e : Sched) (g : Nat) : List Byte := (List.replicate (e.w * e.lines g) e.fill).flatten

/-- RGBA pixels as a head sends them: the A byte ignored (12 R326). -/
def rgbOf : List Byte → List Byte
  | r :: g :: b :: _ :: rest => r :: g :: b :: rgbOf rest
  | _ => []

/-- The first of the strips that a head scans with a line still to send, and that line. -/
def Sched.nextLine (e : Sched) : Option (Nat × Bool × Nat) := e.shown.find? fun x => decide (x.2.2 < e.lines x.1)

/-- Where line i of a strip begins: E_f + j * L (12 R309). -/
def Sched.lineTime (e : Sched) (g i : Nat) : Int := e.epoch g + ((e.place g).2 * e.rows + i : Nat) * e.period

/-- The pixels of a line as a head sends them: from the slot as it is then, or the late-fill colour (12 R309, R326). -/
def State.linePixels (s : State) (head : Nat) (e : Sched) (g i : Nat) (ok : Bool) : List Byte :=
  rgbOf (if ok then s.ringBytes (s.outSlot head g + 128 + i * e.pitch) (4 * e.w) else (List.replicate e.w e.fill).flatten)

/-- A head sends a line of a strip. -/
def State.sendLine (s : State) (head : Nat) (e : Sched) (x : Nat × Bool × Nat) : State :=
  { s with
    sched := ins head { e with shown := e.shown.map fun y => if y.1 = x.1 then (y.1, y.2.1, y.2.2 + 1) else y } s.sched
    out := s.out ++ [.line head x.1 x.2.2 (!x.2.1) (s.linePixels head e x.1 x.2.2 x.2.1)] }

/-- A head decides at D on its next strip, which it scans or fills (12 R326). -/
def State.headDecide (s : State) (head : Nat) (e : Sched) : State :=
  let g := e.con
  let ok := s.stripReady head e g (e.due g)
  let s := if ok then s else s.markLate head e g
  { s with sched := ins head { e with con := g + 1, shown := e.shown ++ [(g, ok, 0)] } s.sched }

/-- HEAD_STRIP_READ (12 R309, R326): a head sends each line at its time, from a complete strip or in the late-fill colour, as it
decides at D. -/
def execHeadStripRead (head : Nat) (s : State) : Out State :=
  .next (match look s.sched head with
    | none => s
    | some e =>
      let decide_ := if 4 ≤ head ∨ s.unitsNow < e.due e.con then s else s.headDecide head e
      match e.nextLine with
      | none => decide_
      | some x => if e.lineTime x.1 x.2.2 ≤ s.unitsNow then s.sendLine head e x else decide_)

/-- STRIP_SLOT_FREE (12 R326): a head's slot is free at the end of its strip's lines, where it still holds that strip. -/
def execStripSlotFree (head : Nat) (s : State) : Out State :=
  .next (match look s.sched head with
    | none => s
    | some e => match e.shown with
      | [] => s
      | (g, _, sent) :: r =>
        if sent < e.lines g ∨ s.unitsNow < e.lineTime g (e.lines g) then s
        else
          let s := { s with sched := ins head { e with shown := r } s.sched }
          if s.slotTag (s.outSlot head g) = e.tag g then s.freeOut head (g % (s.region head).n) else s)

/-- SESSION_LATE (12 R327): at D + slack a strip that is not ready is late. -/
def execSessionLate (session : Nat) (s : State) : Out State :=
  let j := session + 4
  .next (match look s.sched j with
    | none => s
    | some e =>
      let g := e.judged
      let at_ := e.due g + e.slack
      if s.stripReady j e g at_ then { s with sched := ins j { e with judged := g + 1 } s.sched }
      else if s.unitsNow < at_ then s
      else { (s.markLate j e g) with sched := ins j { e with judged := g + 1, lates := e.lates ++ [g] } s.sched })

/-- Whether a session's next strip may be taken, and whether it is late (12 R327). -/
def State.stripWaiting (s : State) (j : Nat) (e : Sched) : Option Bool :=
  if j < 4 ∨ s.engines.any fun x => x.2.entry == j then none
  else if e.lates.contains e.con then some true
  else if s.stripReady j e e.con (e.due e.con + e.slack) then some false
  else none

/-- ENCODE_STRIP_TAKE (12 R327): a free engine takes the ready or late strip with the smallest D. -/
def execEncodeStripTake (engine : Nat) (s : State) : Out State :=
  .next (if 8 ≤ engine ∨ (look s.engines engine).isSome then s
    else
      let cs := s.sched.filterMap fun p => (s.stripWaiting p.1 p.2).map fun l => (p.1, p.2, l)
      match cs with
      | [] => s
      | c :: r =>
        let best := r.foldl (fun (b : Nat × Sched × Bool) x =>
          if x.2.1.due x.2.1.con < b.2.1.due b.2.1.con then x else b) c
        let (j, e, late) := best
        { s with
          engines := ins engine { entry := j, g := e.con, late := late, sched := e } s.engines
          sched := ins j { e with con := e.con + 1, judged := max e.judged (e.con + 1), lates := dropFrom e.con e.lates } s.sched })

/-- Y, Cb and Cr of a pixel (12 R328). -/
def yccOf (r g b : Int) : Nat × Nat × Nat :=
  ((16 + (47 * r + 157 * g + 16 * b + 128) / 256).toNat,
   (128 + (-26 * r - 86 * g + 112 * b + 128) / 256).toNat,
   (128 + (112 * r - 102 * g - 10 * b + 128) / 256).toNat)

/-- The converted pixels of RGBA bytes. -/
def yccAll : List Byte → List (Nat × Nat × Nat)
  | r :: g :: b :: _ :: rest => yccOf r.toNat g.toNat b.toNat :: yccAll rest
  | _ => []

/-- One plane's 4:2:0 samples from two lines of it; a missing neighbour at an edge repeats the last (12 R328). -/
def halve : List Nat → List Nat → List Nat
  | a :: b :: r, c :: d :: r' => (a + b + c + d + 2) / 4 :: halve r r'
  | [a], [c] => [(2 * a + 2 * c + 2) / 4]
  | _, _ => []

/-- A chroma plane of lines halved both ways. -/
def halveLines : List (List Nat) → List Nat
  | a :: b :: r => halve a b ++ halveLines r
  | [a] => halve a a
  | [] => []

/-- The planes of a strip: Y, then Cb and Cr at 4:2:0 (12 R328). -/
def planesOf (w : Nat) (px : List Byte) : List Byte :=
  let ps := yccAll px
  let lines (f : Nat × Nat × Nat → Nat) : List (List Nat) := pieces w ps.length (ps.map f)
  ((ps.map (·.1)) ++ halveLines (lines (·.2.1)) ++ halveLines (lines (·.2.2))).map (BitVec.ofNat 8)

/-- Bytes appended to a session's bitstream ring (12 R329). -/
def State.appendStream (s : State) (e : Sched) (sent : Nat) (code : List Byte) : State × Option (Nat × Cause) :=
  let at_ := sent % e.ringSize
  let n := e.ringSize - at_
  match State.ctxStores e.ctx (code.length + 1) (e.ringBase + at_) (code.take n) s with
  | (s, some c) => (s, some c)
  | (s, none) => State.ctxStores e.ctx (code.length + 1) e.ringBase (code.drop n) s

/-- What an engine appends for a strip: a sequence header once in a session, a frame header before strip 0, and the strip's tile
group (12 R329, log entry 14). -/
def Sched.obus (e : Sched) (g : Nat) (planes : List Byte) : List Byte :=
  (if e.begun then [] else Config.av1Sequence e.w e.h) ++
  (if (e.place g).2 = 0 then Config.av1Frame (e.place g).1 e.perFrame e.cols else []) ++
  Config.av1TileGroup (e.place g).2 e.cols e.refs planes

/-- ENCODE_STRIP_END (12 R328, R329): the strip's OBUs are appended and the progress word stored, a release at .sys; the
slot is free. A ring that may be full makes the engine wait, a free choice, and so does one that cannot be written (log
entries 14 and 24). -/
def execEncodeStripEnd (engine : Nat) (s : State) : Out State :=
  .next (match look s.engines engine with
    | none => s
    | some job =>
      let j := job.entry
      let live := ((look s.sched j).map fun e => e.gen == job.sched.gen).getD false
      let e := if live then (look s.sched j).getD job.sched else job.sched
      let g := job.g
      let px := planesOf e.w (if job.late then e.flat g else s.stripPixels j e g)
      let code := e.obus g px
      let full := s.choose
      if e.ringSize < code.length ∨ (e.ringSize < e.sent + code.length ∧ full.1) then full.2
      else match s.appendStream e e.sent code with
        | (_, some _) => s
        | (t, none) => match t.ctxStore e.ctx e.progress (toBytes 8 (e.sent + code.length)) false with
          | (_, some _) => s
          | (t, none) =>
            let t := { t with engines := del engine t.engines }
            if live then
              let t := { t with sched := ins j { e with
                sent := e.sent + code.length, begun := true, refs := Config.av1Refs e.refs px } t.sched }
              if t.slotTag (t.outSlot j g) = e.tag g then t.freeOut j (g % (t.region j).n) else t
            else t)

-- STRIPQ

/-- What STRIPQ reads (14 R368). -/
def Strip.query (t : Strip) (sel : Nat) : Nat :=
  match sel with
  | 0 => wrapInt 64 t.dl
  | 1 => wrapInt 64 t.adm
  | 2 => t.tag
  | _ => t.level + 8 * t.maxLevel

/-- STRIPQ (14 R368). -/
def execStripq (x : FmtX) (s : State) : Out State :=
  .next (s.runEach (.stripq x) x.ctl 0 false
    { dsts := fun _ => [(x.r1, 8, 1)]
      run := fun st _ s =>
        let t := ((s.skein st.core st.slot).bind fun k => s.grid k.ctx k.grid).bind (·.strip)
        (s.hold st x.r1 8 ((t.map fun t => t.query (fld x.imm 0 2)).getD (2 ^ 64 - 1)) [], .next) })

end Sys2Proof.Machine
end

