-- ==== Sys2Proof/Machine/Texture.lean ====
section
/-! DEFINITION. Descriptor tables, sampling and texel stores: TEX, TEXL, TEXG, TEXQ, IMST, TBLW, TBLR, TBLINV (16 R386 to
R398, 17 R424 to R429, R435, R436), and the wake of a thread that waits for a line (07 R193). -/

namespace Sys2Proof.Machine

-- READS OF THE SAMPLING UNITS

/-- The step of 09 R231 at which an access faulted: address bits and windows, the walk, the data read. -/
def trapStep (t : Trap) : Nat :=
  if t.cause = .eccPoison ∨ t.cause = .ringCorrupt ∨ t.cause = .ringDropped then 2
  else if 0xF * 2 ^ 48 ≤ t.addr.toNat then 0 else 1

/-- The fault of two that a thread takes: the earlier step, then the lower address (09 R231, 17 R425). -/
def firstTrap (a : Option Trap) (b : Trap) : Trap :=
  match a with
  | none => b
  | some a => if trapStep b < trapStep a ∨ (trapStep b = trapStep a ∧ b.addr.toNat < a.addr.toNat) then b else a

/-- Reads of a thread's own loads, each within one line: the bytes of each, or its fault, or a wait (17 R425); `home`
bypasses L1. One of host kind that the link does not support is counted and poisoned (07 R179). -/
def State.texReads (st : Site) (k : Skein) (user home : Bool) :
    List (Nat × Nat) → List (List Byte) → Option Trap → Bool → State → State × Except Fate (List (List Byte))
  | [], _, some t, _, s => (s, .error (.trap t))
  | [], _, none, true, s => (s, .error (.wait .presence []))
  | [], acc, none, false, s => (s, .ok acc.reverse)
  | (va, n) :: r, acc, bad, wait, s =>
    match s.place st.core k.ctx k.wgKey (word va) n .load user with
    | (s, .error t) => texReads st k user home r acc (some (firstTrap bad t)) wait s
    | (s, .ok p) =>
      if s.placeDenied p n then
        texReads st k user home r acc (some (firstTrap bad (dataTrap .eccPoison (word va) .read))) wait (s.count k.ctx 13 1)
      else if s.tileBusy st.core st.slot p n false then texReads st k user home r acc bad true s
      else match s.readFor st.core st.slot p n home with
      | (s, .absent) => texReads st k user home r acc bad true s
      | (s, .ok bs [] _) => texReads st k user home r (bs :: acc) bad wait s
      | (s, q) => match s.readFault st k.wgKey (word va) p q with
        | some t => texReads st k user home r acc (some (firstTrap bad t)) wait s
        | none => texReads st k user home r acc bad wait s

-- DESCRIPTORS

/-- Base, count and entry size of table 0, 1 or 2 of a context (16 R386). -/
def CtxVar.table (v : CtxVar) (t : Nat) : Nat × Nat × Nat :=
  match t with
  | 0 => (v.texBase, v.texCount, 32)
  | 1 => (v.sampBase, v.sampCount, 16)
  | _ => (v.hitBase, v.hitCount, 16)

/-- The key of an entry in a descriptor cache. -/
def descKey (ctx table idx : Nat) : Nat := ctx + 512 * (table + 4 * idx)

/-- A descriptor as the core's units read it, none beyond the count; whether a cached entry is still held is a free
choice, and one that is not is read past L1, so that an access after a TBLW or TBLINV sees the new entry (16 R386, R387, 17
R436, log entry 7). -/
def State.descRead (s : State) (st : Site) (k : Skein) (table idx : Nat) : State × Except Fate (Option (List Byte)) :=
  let (base, count, size) := (s.varOf st.core st.slot k.ctx).table table
  let key := descKey k.ctx table idx
  let load (s : State) : State × Except Fate (Option (List Byte)) :=
    match State.texReads st k (!(s.siteThread st).sup) true [(base + size * idx, size)] [] none false s with
    | (s, .error f) => (s, .error f)
    | (s, .ok bs) =>
      let d := bs.headD []
      (s.modCore st.core fun c => { c with descs := ins key d c.descs }, .ok (some d))
  if count ≤ idx then (s, .ok none)
  else match look (s.core st.core).descs key with
    | none => load s
    | some d =>
      let r := s.choose
      if r.1 then (r.2, .ok (some d)) else load r.2

/-- A texture descriptor (16 R388). -/
structure Tex where
  base : Nat
  width : Nat
  height : Nat
  layers : Nat
  levels : Nat
  array : Bool
  fmt : Nat
  deriving DecidableEq, Repr

/-- A valid texture descriptor from its 32 bytes (16 R388). -/
def texOf (bs : List Byte) : Option Tex :=
  let base := numAt bs 0 8
  let t : Tex := {
    base := base, width := numAt bs 8 2 + 1, height := numAt bs 10 2 + 1, layers := numAt bs 12 2 + 1
    levels := numAt bs 14 1 % 16 + 1, array := numAt bs 14 1 / 16 == 1, fmt := numAt bs 15 1 }
  if numAt bs 16 1 = 1 ∧ numAt bs 17 15 = 0 ∧ base % 256 = 0 ∧ base < 2 ^ 52 ∧ t.width ≤ 16384 ∧ t.height ≤ 16384 ∧
      t.layers ≤ 2048 ∧ numAt bs 14 1 / 16 ≤ 1 ∧ (t.array ∨ t.layers = 1) ∧ t.levels ≤ 15 ∧ t.fmt ≤ 9 ∧
      t.levels ≤ Nat.log2 (max t.width t.height) + 1 then some t
  else none

/-- A sampler (16 R391). -/
structure Samp where
  maxlod : Nat
  minlod : Nat
  bias : Int
  aniso : Nat
  mip : Nat
  minLin : Bool
  magLin : Bool
  av : Nat
  au : Nat
  border : List Nat
  deriving DecidableEq, Repr

/-- A valid sampler from its 16 bytes (16 R391). -/
def sampOf (bs : List Byte) : Option Samp :=
  let w := numAt bs 0 8
  let b := numAt bs 8 8
  if bits w 56 8 = 0 ∧ bits w 28 4 = 0 ∧ bits w 12 4 = 0 ∧ bits w 8 2 ≠ 3 ∧ bits w 3 3 ≤ 3 ∧ bits w 0 3 ≤ 3 ∧
      b < 2 ^ 32 then
    some { maxlod := bits w 44 12, minlod := bits w 32 12, bias := sgn 12 (bits w 16 12), aniso := bits w 10 2
           mip := bits w 8 2, minLin := w.testBit 7, magLin := w.testBit 6, av := bits w 3 3, au := bits w 0 3
           border := elems 8 4 b }
  else none

/-- Bytes of a texel, its channels, and whether it takes the integer path (16 R389). -/
def texelShape (fmt : Nat) : Nat × Nat × Bool :=
  match fmt with
  | 0 => (1, 1, true)
  | 1 => (2, 2, true)
  | 2 => (4, 4, true)
  | 3 => (4, 4, false)
  | 4 => (2, 1, false)
  | 5 => (4, 2, false)
  | 6 => (8, 4, false)
  | 7 => (4, 1, false)
  | 8 => (8, 2, false)
  | _ => (16, 4, false)

/-- Bytes of a texel. -/
def Tex.bpt (t : Tex) : Nat := (texelShape t.fmt).1

/-- Width of level m (16 R390). -/
def Tex.w (t : Tex) (m : Nat) : Nat := max 1 (t.width >>> m)

/-- Height of level m (16 R390). -/
def Tex.h (t : Tex) (m : Nat) : Nat := max 1 (t.height >>> m)

/-- Row pitch of level m (16 R390). -/
def Tex.pitch (t : Tex) (m : Nat) : Nat := 128 * ceilDiv (t.w m * t.bpt) 128

/-- The address of texel (i, j) of layer l of level m (16 R390). -/
def Tex.at (t : Tex) (m l i j : Nat) : Nat :=
  t.base + (((List.range m).map fun k => t.layers * t.pitch k * t.h k).foldl (· + ·) 0) + l * t.pitch m * t.h m +
    j * t.pitch m + i * t.bpt

-- SAMPLING ARITHMETIC

/-- An integer, or a multiple of a power of two, as f32 bits. -/
def f32Of (x : Int) (e : Int) : Nat := f32.cvt .rne false (Val.ofInt x e)

/-- A quotient of integers rounded once to f32. -/
def f32Ratio (a b : Nat) : Nat := f32.arith .rne ((Val.ofInt a 0).div (Val.ofInt b 0))

/-- The fixed-point position of a coordinate on an axis of n texels (16 R393). -/
def texPos (c n : Nat) : Int :=
  let x := f32.mul .rne c (f32Of n 0)
  if f32.isNan x then -128
  else (((f32.val x).mul (Val.ofInt 1 8)).toIntIn .rdn (-2 ^ 30) (2 ^ 30)) - 128

/-- The address function of an axis of n texels; none is the border (16 R393). -/
def texAddr (i : Int) (n mode : Nat) : Option Nat :=
  match mode with
  | 0 => some (i % (n : Int)).toNat
  | 1 => some (clampInt 0 ((n : Int) - 1) i).toNat
  | 2 =>
    let k := (i % (2 * n : Nat)).toNat
    some (if k < n then k else 2 * n - 1 - k)
  | _ => if 0 ≤ i ∧ i < n then some i.toNat else none

/-- The layer that a layer coordinate names (16 R393). -/
def Tex.layer (t : Tex) (rl : Nat) : Nat :=
  if t.array then ((f32.val rl).toIntIn .rne 0 (t.layers - 1)).toNat else 0

/-- floor of the fifth root of a number below 2^(5k), bit by bit. -/
def root5 (n : Nat) : Nat → Nat → Nat
  | 0, r => r
  | k + 1, r =>
    let c := r + 2 ^ k
    root5 n k (if c ^ 5 ≤ n then c else r)

/-- The decoded value of an srgb8x4 colour byte (16 R394): its 2.4th power is a fifth root of a twelfth power. -/
def srgbDecode (b : Nat) : Nat :=
  if b ≤ 10 then f32Ratio (10 * b) 32946
  else
    let num := (1000 * b + 14025) ^ 12 * 2 ^ 400
    let den := 269025 ^ 12
    let r := root5 (num / den) 82 0
    f32.arith .rne (.fin false (2 * r + (if r ^ 5 * den = num then 0 else 1)) (-81))

/-- A texel's channels: bytes on the integer path, f32 bits on the float path (16 R394). -/
def texelOf (fmt : Nat) (bs : List Byte) : List Nat :=
  let v := ofBytes bs
  match fmt with
  | 0 => elems 8 1 v
  | 1 => elems 8 2 v
  | 2 => elems 8 4 v
  | 3 => ((elems 8 3 v).map srgbDecode) ++ [f32Ratio (bits v 24 8) 255]
  | 4 => (elems 16 1 v).map fun x => f32.cvt .rne false ((fmtOf 3).val x)
  | 5 => (elems 16 2 v).map fun x => f32.cvt .rne false ((fmtOf 3).val x)
  | 6 => (elems 16 4 v).map fun x => f32.cvt .rne false ((fmtOf 3).val x)
  | 7 => elems 32 1 v
  | 8 => elems 32 2 v
  | _ => elems 32 4 v

/-- The border colour in the channels of a format (16 R394). -/
def borderOf (fmt : Nat) (border : List Nat) : List Nat :=
  let (_, ch, int) := texelShape fmt
  (if int then border else border.map fun b => f32Ratio b 255).take ch

/-- The level of detail for gradients, the probe count's log2, and whether the axis of the larger gradient is x (16
R396). -/
def texLod (t : Tex) (p : Samp) (g : Nat × Nat × Nat × Nat) : Int × Nat × Bool :=
  let w := f32Of t.width 0
  let h := f32Of t.height 0
  let sq (a b : Nat) : Nat :=
    let v := f32.arith .rne (((f32.val a).mul (f32.val a)).add .rne ((f32.val b).mul (f32.val b)))
    if f32.isNan v then f32.infBits false else v
  let px := sq (f32.mul .rne g.1 w) (f32.mul .rne g.2.1 h)
  let py := sq (f32.mul .rne g.2.2.1 w) (f32.mul .rne g.2.2.2 h)
  let hi := f32.val (max px py)
  let lo := f32.val (min px py)
  let n := if p.minLin then
      ((List.range p.aniso).takeWhile fun (k : Nat) => decide (((Val.ofInt 1 (2 * k)).mul lo).cmp hi < 0)).length
    else 0
  let raw := ((f32.val (fLg2 (max px py))).mul (Val.ofInt 1 7)).toIntIn .rdn (-2 ^ 31) (2 ^ 31 - 1) - 256 * n
  (raw, n, decide (py ≤ px))

/-- L from an unclamped level: bias and clamp; an upper bound below the lower one wins, as FCLMP's does (16 R396). -/
def lodClamp (t : Tex) (p : Samp) (raw : Int) : Int :=
  min (max (raw + p.bias) p.minlod) (min p.maxlod (256 * (t.levels - 1)))

/-- TEXL's level (17 R426). -/
def lodGiven (lod : Nat) : Int :=
  ((f32.val lod).mul (Val.ofInt 1 8)).toIntIn .rne (-2 ^ 30) (2 ^ 30)

/-- The levels that a sample takes, each with its filter, and the blend between two (16 R397). -/
def texFilter (t : Tex) (p : Samp) (l : Int) : List (Nat × Bool) × Nat :=
  if p.mip = 0 then ([(0, if l ≤ 0 then p.magLin else p.minLin)], 0)
  else if l ≤ 0 then ([(0, p.magLin)], 0)
  else if p.mip = 1 then ([(min ((l.toNat + 128) / 256) (t.levels - 1), p.minLin)], 0)
  else
    let m := l.toNat / 256
    ([(m, p.minLin), (min (m + 1) (t.levels - 1), p.minLin)], l.toNat % 256)

/-- The probes of a sample: their coordinates (16 R398). -/
def texProbes (n : Nat) (ds dt s t : Nat) : List (Nat × Nat) :=
  if n = 0 then [(s, t)]
  else (List.range (2 ^ n)).map fun (j : Nat) =>
    let k := f32Of (2 * j + 1 - (2 ^ n : Nat)) (-(n + 1 : Nat))
    (f32.fma .rne ds k s, f32.fma .rne dt k t)

/-- The texels of one level for a probe, none being the border, with the weights of a bilinear one (16 R393, R395). -/
def texTaps (t : Tex) (p : Samp) (layer : Nat) (sc tc : Nat) (m : Nat) (lin : Bool) : List (Option Nat) × Nat × Nat :=
  let u := texPos sc (t.w m)
  let v := texPos tc (t.h m)
  let one (i j : Int) : Option Nat :=
    match texAddr i (t.w m) p.au, texAddr j (t.h m) p.av with
    | some i, some j => some (t.at m layer i j)
    | _, _ => none
  if lin then
    let i := u / 256
    let j := v / 256
    ([one i j, one (i + 1) j, one i (j + 1), one (i + 1) (j + 1)], (u % 256).toNat, (v % 256).toNat)
  else ([one ((u + 128) / 256) ((v + 128) / 256)], 0, 0)

/-- One channel of one level from its texels (16 R395): v16 on the integer path, f32 bits on the float path. -/
def texLevel (int : Bool) (ts : List Nat) (fu fv : Nat) : Nat :=
  match ts with
  | [a, b, c, d] =>
    if int then ((a * (256 - fu) + b * fu) * (256 - fv) + (c * (256 - fu) + d * fu) * fv + 128) / 256
    else
      let wu := f32Of fu (-8)
      fLerp .rne (fLerp .rne a b wu) (fLerp .rne c d wu) (f32Of fv (-8))
  | _ => if int then 256 * ts.headD 0 else ts.headD 0

/-- One channel of a probe from its one or two levels (16 R397). -/
def texBlend (int : Bool) (vs : List Nat) (f : Nat) : Nat :=
  match vs with
  | [a, b] => if int then (a * (256 - f) + b * f + 128) / 256 else fLerp .rne a b (f32Of f (-8))
  | _ => vs.headD 0

/-- One channel of a sample from its 2^n probes (16 R395, R398). -/
def texMean (int : Bool) (vs : List Nat) (n : Nat) : Nat :=
  if int then
    let v := if n = 0 then vs.headD 0 else (vs.foldl (· + ·) 0 + 2 ^ n / 2) / 2 ^ n
    f32Ratio v 65280
  else if n = 0 then vs.headD 0
  else f32.mul .rne ((vs.drop 1).foldl (f32.add .rne) (vs.headD 0)) (f32Of 1 (-(n : Int)))

/-- A list cut into the pieces of the given lengths. -/
def cut {α : Type} : List Nat → List α → List (List α)
  | [], _ => []
  | n :: r, l => l.take n :: cut r (l.drop n)

/-- R, G, B and A from the channels of a format (16 R389). -/
def fourOf (ch : List Nat) : List Nat :=
  [ch.getD 0 0, ch.getD 1 0, ch.getD 2 0, ch.getD 3 0x3F800000]

/-- Where a sample looks: its coordinates, layer, level, and the probes' count and direction. -/
structure TexPlan where
  s : Nat
  t : Nat
  layer : Nat
  lod : Int
  n : Nat := 0
  ds : Nat := 0
  dt : Nat := 0

/-- A sample: its texels read, then the arithmetic of 16 R393 to R398 per channel. -/
def State.texSample (st : Site) (k : Skein) (t : Tex) (p : Samp) (q : TexPlan) (s : State) :
    State × Except Fate (List Nat) :=
  let (_, chans, int) := texelShape t.fmt
  let (looks, f) := texFilter t p q.lod
  let taps := (texProbes q.n q.ds q.dt q.s q.t).map fun c =>
    looks.map fun l => texTaps t p q.layer c.1 c.2 l.1 l.2
  let addrs := taps.flatMap fun ls => ls.flatMap fun x => x.1
  match State.texReads st k (!(s.siteThread st).sup) false ((addrs.filterMap id).map fun a => (a, t.bpt)) [] none false s with
  | (s, .error e) => (s, .error e)
  | (s, .ok raw) =>
    -- the texels in the order of their taps, the border where no memory is read
    let texels := (addrs.foldl (fun (acc : List (List Nat) × List (List Byte)) a => match a with
      | none => (borderOf t.fmt p.border :: acc.1, acc.2)
      | some _ => (texelOf t.fmt (acc.2.headD []) :: acc.1, acc.2.drop 1)) ([], raw)).1.reverse
    let value (c : Nat) : Nat :=
      let one := texels.map fun x => x.getD c 0
      let perProbe := cut (taps.map fun ls => (ls.map fun x => x.1.length).foldl (· + ·) 0) one
      texMean int ((taps.zip perProbe).map fun x =>
        texBlend int ((x.1.zip (cut (x.1.map fun y => y.1.length) x.2)).map fun y => texLevel int y.2 y.1.2.1 y.1.2.2) f) q.n
    (s, .ok (fourOf ((List.range chans).map value)))

-- TEX, TEXL, TEXG

/-- The forms of a sample (17 R426). -/
inductive TexForm where
  | quad | level | grad
  deriving DecidableEq, Repr

/-- What a sampling instruction reads: its group, and for TEX the s and t of its quad (17 R427). -/
def TexForm.reads (m : TexForm) (x : FmtX) (_ : Views) : List Rd :=
  -- the source modifier that names position n of the thread's quad (03 R73)
  let pos (n : Nat) : BitVec 12 := BitVec.ofNat 12 (3072 + 256 + 4 * n)
  match m with
  | .quad => .group x.r2 4 5 :: ([0, 1, 2].map fun n => .mod (x.r2 + 2) (pos n) 4 .plain) ++
      [0, 1, 2].map fun n => .mod (x.r2 + 3) (pos n) 4 .plain
  | .level => [.group x.r2 4 6]
  | .grad => [.group x.r2 4 9]

/-- The plan of a sample from the source words (16 R396, 17 R426, R427). -/
def TexForm.plan (m : TexForm) (t : Tex) (p : Samp) (l : LaneIn) : TexPlan :=
  let w (i : Nat) : Nat := bits (l.val 0) (32 * i) 32
  let base : TexPlan := { s := w 2, t := w 3, layer := t.layer (w 4), lod := 0 }
  let by_ (g : Nat × Nat × Nat × Nat) : TexPlan :=
    let (raw, n, x) := texLod t p g
    { base with lod := lodClamp t p raw, n := n, ds := if x then g.1 else g.2.2.1, dt := if x then g.2.1 else g.2.2.2 }
  match m with
  | .level => { base with lod := lodClamp t p (lodGiven (w 5)) }
  | .grad => by_ (w 5, w 6, w 7, w 8)
  | .quad => by_ (f32.sub .rne (l.val 2) (l.val 1), f32.sub .rne (l.val 5) (l.val 4),
      f32.sub .rne (l.val 3) (l.val 1), f32.sub .rne (l.val 6) (l.val 4))

/-- Four words as one group. -/
def words4 (ws : List Nat) : Nat := joinElems 32 ws

/-- A wait takes the operands with it; every other fate stands. -/
def Fate.keep (f : Fate) (vals : List Nat) : Fate :=
  match f with
  | .wait w _ => .wait w vals
  | f => f

/-- One thread's sample (16 R392, 17 R425, R426). -/
def texRun (m : TexForm) (x : FmtX) (st : Site) (l : LaneIn) (s : State) : State × Fate :=
  match s.skein st.core st.slot with
  | none => (s, .next)
  | some k =>
    let w (i : Nat) : Nat := bits (l.val 0) (32 * i) 32
    match s.descRead st k 0 (w 0) with
    | (s, .error f) => (s, f.keep l.vals)
    | (s, .ok td) => match td.bind texOf with
      | none => (s.hold st x.r1 16 0 [], .next)
      | some t => match s.descRead st k 1 (w 1) with
        | (s, .error f) => (s, f.keep l.vals)
        | (s, .ok pd) => match pd.bind sampOf with
          | none => (s.hold st x.r1 16 0 [], .next)
          | some p => match State.texSample st k t p (m.plan t p l) s with
            | (s, .error f) => (s, f.keep l.vals)
            | (s, .ok c) => (s.hold st x.r1 16 (words4 c) [], .next)

/-- A sampling instruction. -/
def texOp (m : TexForm) (x : FmtX) : SeqOp :=
  { reads := m.reads x, dsts := fun _ => [(x.r1, 4, 4)], run := texRun m x }

/-- TEX (17 R426, R427). -/
def execTex (x : FmtX) (s : State) : Out State := .next (s.runEach (.tex x) x.ctl 0 false (texOp .quad x))

/-- TEXL (17 R426). -/
def execTexl (x : FmtX) (s : State) : Out State := .next (s.runEach (.texl x) x.ctl 0 false (texOp .level x))

/-- TEXG (17 R426). -/
def execTexg (x : FmtX) (s : State) : Out State := .next (s.runEach (.texg x) x.ctl 0 false (texOp .grad x))

-- TEXQ AND IMST

/-- One thread's TEXQ (17 R428). -/
def texqRun (x : FmtX) (st : Site) (l : LaneIn) (s : State) : State × Fate :=
  match s.skein st.core st.slot with
  | none => (s, .next)
  | some k =>
    let m := bits (l.val 0) 32 32
    match s.descRead st k 0 (bits (l.val 0) 0 32) with
    | (s, .error f) => (s, f.keep l.vals)
    | (s, .ok td) => match td.bind texOf with
      | none => (s.hold st x.r1 16 0 [], .next)
      | some t =>
        let wh := if t.levels ≤ m then [0, 0] else [t.w m, t.h m]
        (s.hold st x.r1 16 (words4 (wh ++ [t.layers, t.levels])) [], .next)

/-- TEXQ (17 R428). -/
def execTexq (x : FmtX) (s : State) : Out State :=
  .next (s.runEach (.texq x) x.ctl 0 false
    { reads := fun _ => [.group x.r2 4 2], dsts := fun _ => [(x.r1, 4, 4)], run := texqRun x })

/-- An f32 channel as a byte (16 R409, 17 R429). -/
def unorm8 (c : Nat) : Nat :=
  if f32.isNan c then 0
  else ((f32.val (f32.clamp c 0 0x3F800000)).mul (Val.ofInt 255 0)).toIntIn .rne 0 255 |>.toNat

/-- The distance of two finite values. -/
def gap (a b : Val) : Val :=
  match a.add .rne b.neg with
  | .fin _ n e => .fin false n e
  | v => v

/-- The srgb byte whose decoded value is nearest, the lower of two (17 R429). -/
def srgbEncode (c : Nat) : Nat :=
  if f32.isNan c then 0
  else
    let v := f32.val (f32.clamp c 0 0x3F800000)
    let far (b : Nat) : Val := gap (f32.val (srgbDecode b)) v
    (List.range 256).foldl (fun best b => if (far b).cmp (far best) < 0 then b else best) 0

/-- The texel that IMST stores (17 R429). -/
def texelBytes (fmt : Nat) (c : List Nat) : List Byte :=
  let (n, ch, int) := texelShape fmt
  let four := (c.take ch)
  if int then toBytes n (joinElems 8 (four.map unorm8))
  else if fmt = 3 then toBytes n (joinElems 8 ((c.take 3).map srgbEncode ++ [unorm8 (c.getD 3 0)]))
  else if fmt ≤ 6 then toBytes n (joinElems 16 (four.map fun x => (fmtOf 3).cvt .rne false (f32.val x)))
  else toBytes n (joinElems 32 four)

/-- One thread's IMST (17 R429): the texel joins the store queue as an ST's bytes do. -/
def imstRun (st : Site) (l : LaneIn) (s : State) : State × Fate :=
  match s.skein st.core st.slot with
  | none => (s, .next)
  | some k =>
    let w (i : Nat) : Nat := bits (l.val 1) (32 * i) 32
    match s.descRead st k 0 (w 0) with
    | (s, .error f) => (s, f.keep l.vals)
    | (s, .ok td) => match td.bind texOf with
      | none => (s, .next)
      | some t =>
        let m := w 1
        if t.levels ≤ m then (s, .next)
        else if t.w m ≤ w 2 ∨ t.h m ≤ w 3 ∨ t.layers ≤ w 4 then (s, .next)
        else
          let va := t.at m (w 4) (w 2) (w 3)
          if s.copyWaits st k (word va) then (s, .wait .presence l.vals)
          else match s.place st.core k.ctx k.wgKey (word va) t.bpt .store (!(s.siteThread st).sup) with
          | (s, .error e) => (s, .trap e)
          | (s, .ok p) =>
            if s.tileBusy st.core st.slot p t.bpt true then (s, .wait .presence l.vals)
            else (s.enqueue st.core st.slot
              { act := .store p (texelBytes t.fmt (elems 32 4 (l.val 0))) [] (s.isPrivate st.core st.slot k.ctx va), lane := st.lane }, .next)

/-- IMST (17 R429). -/
def execImst (x : FmtX) (s : State) : Out State :=
  .next (s.runEach (.imst x) x.ctl 0 false
    { reads := fun _ => [.group x.r1 4 4, .group x.r2 4 5], run := imstRun })

-- TABLE WRITES, READS AND INVALIDATIONS

/-- The elements of a table's data group (17 R424). -/
def tblGroup (table : Nat) : Nat := if table = 0 then 4 else 2

/-- A descriptor changed in every cache that holds it. -/
def State.descReplace (s : State) (key : Nat) (d : List Byte) : State :=
  (s.cores.map (·.1)).foldl (fun s c =>
    if (look (s.core c).descs key).isSome then s.modCore c fun x => { x with descs := ins key d x.descs } else s) s

/-- One thread's TBLW: a release at .dev that stores the entry and replaces it in every cache (17 R435, R436). -/
def tblwRun (x : FmtX) (st : Site) (l : LaneIn) (s : State) : State × Fate :=
  match s.skein st.core st.slot with
  | none => (s, .next)
  | some k =>
    let table := fld x.imm 0 2
    let (base, count, size) := (s.varOf st.core st.slot k.ctx).table table
    let idx := l.val 1
    let va := base + size * idx
    if count ≤ idx then (s, .trap (dataTrap .prot (word va) .write))
    else if s.copyWaits st k (word va) then (s, .wait .presence l.vals)
    else match s.place st.core k.ctx k.wgKey (word va) size .store (!(s.siteThread st).sup) with
      | (s, .error t) => (s, .trap t)
      | (s, .ok p) =>
        if s.tileBusy st.core st.slot p size true then (s, .wait .presence l.vals)
        else
          let d := toBytes size (l.val 0)
          let s := (s.drainTo st.core st.slot 4).storeAt st.core k.ctx p d [] (s.isPrivate st.core st.slot k.ctx va)
          ((s.release st.core true).descReplace (descKey k.ctx table idx) d, .next)

/-- TBLW (17 R435). -/
def execTblw (x : FmtX) (s : State) : Out State :=
  .next (s.runEach (.tblw x) x.ctl 0 false
    { reads := fun _ => [.group x.r1 8 (tblGroup (fld x.imm 0 2)), .reg x.r2 4], denied := supOnly, run := tblwRun x })

/-- One thread's TBLR (17 R435). -/
def tblrRun (x : FmtX) (st : Site) (l : LaneIn) (s : State) : State × Fate :=
  match s.skein st.core st.slot with
  | none => (s, .next)
  | some k =>
    let table := fld x.imm 0 2
    match s.descRead st k table (l.val 0) with
    | (s, .error f) => (s, f.keep l.vals)
    | (s, .ok d) => (s.hold st x.r1 (8 * tblGroup table) (ofBytes (d.getD [])) [], .next)

/-- TBLR (17 R435). -/
def execTblr (x : FmtX) (s : State) : Out State :=
  .next (s.runEach (.tblr x) x.ctl 0 false
    { reads := fun _ => [.reg x.r2 4], dsts := fun _ => [(x.r1, 8, tblGroup (fld x.imm 0 2))], run := tblrRun x })

/-- Entries of a context's table dropped from every descriptor cache (17 R436). -/
def State.descDrop (s : State) (ctx table idx n : Nat) : State :=
  let hit (key : Nat) : Bool :=
    key % 512 == ctx && key / 512 % 4 == table && decide (idx ≤ key / 2048 ∧ key / 2048 < idx + n)
  (s.cores.map (·.1)).foldl (fun s c => s.modCore c fun x => { x with descs := x.descs.filter fun d => !hit d.1 }) s

/-- TLB entries of an ASID that touch a range, dropped in one core (07 R183). -/
def State.dropTlbOf (s : State) (core asid lo n : Nat) : State :=
  s.modCore core fun c => { c with tlb := c.tlb.filter fun e =>
    !(e.asid == asid && decide (e.va < lo + n) && decide (lo < e.va + 2 ^ e.bits)) }

/-- One thread's TBLINV: a release at .dev, then the caches change (17 R436). -/
def tblinvRun (x : FmtX) (st : Site) (l : LaneIn) (s : State) : State × Fate :=
  match s.skein st.core st.slot with
  | none => (s, .next)
  | some k =>
    let n := l.val 1
    let s := s.drainTo st.core st.slot 4
    let asid := (s.ctx k.ctx).fix.asid
    let lo := l.val 0 / 4096 * 4096
    (if n = 0 then s
     else if fld x.imm 0 2 ≠ 3 then s.descDrop k.ctx (fld x.imm 0 2) (l.val 0) n
     else if x.ctl.scope = 2 then s.dropTlbOf st.core asid lo (4096 * n)
     else s.dropTlb asid lo (4096 * n) false, .next)

/-- TBLINV (17 R436). -/
def execTblinv (x : FmtX) (s : State) : Out State :=
  .next (s.runEach (.tblinv x) x.ctl 0 false
    { reads := fun _ => [.reg x.r1 (if fld x.imm 0 2 = 3 then 8 else 4), .reg x.r2 4], denied := supOnly
      run := tblinvRun x })

end Sys2Proof.Machine
end

