-- ==== Sys2Proof/Machine/Scarab.lean ====
section
/-! DEFINITION. The Scarab: structures, box and triangle tests, traversal (16 R416 to R423), TRACE, the HIT instructions
and the steps that end a traversal or call a shader (17 R430 to R434). -/

namespace Sys2Proof.Machine

-- ARITHMETIC ON F32 BITS

/-- a < b, false for a NaN. -/
def fLt (a b : Nat) : Bool := condFloat 2 (f32.val a) (f32.val b)

/-- a ≤ b, false for a NaN. -/
def fLe (a b : Nat) : Bool := condFloat 3 (f32.val a) (f32.val b)

/-- a = b as numbers. -/
def fEq (a b : Nat) : Bool := condFloat 0 (f32.val a) (f32.val b)

/-- FDIV under RNE (06 R154). -/
def fDiv (a b : Nat) : Nat := f32.arith .rne ((f32.val a).div (f32.val b))

/-- One ulp up or down; a NaN, and the infinity of that side, stay (16 R420). -/
def fNext (up : Bool) (x : Nat) : Nat :=
  if f32.isNan x ∨ x = f32.infBits (!up) then x
  else if x % 2 ^ 31 = 0 then (if up then 1 else 2 ^ 31 + 1)
  else if (x < 2 ^ 31) = up then x + 1 else x - 1

/-- An exact sum of products, rounded once by RNE (16 R421). -/
def fExact (ps : List (Nat × Nat)) : Nat :=
  f32.arith .rne (match ps.map fun p => (f32.val p.1).mul (f32.val p.2) with
    | [] => .fin false 0 0
    | v :: r => r.foldl (Val.add .rne) v)

/-- f32 one. -/
def fOne : Nat := 0x3F800000

/-- f32 minus infinity. -/
def fNegInf : Nat := 0xFF800000

/-- The negation of f32 bits. -/
def fNeg (x : Nat) : Nat := fnegBits 32 x

/-- Component i of a vector. -/
def comp (v : List Nat) (i : Nat) : Nat := v.getD i 0

/-- One axis of the box test: none is a miss (16 R420). -/
def boxAxis (mn mx o d : Nat) (q : Nat × Nat) : Option (Nat × Nat) :=
  if f32.isNan mn || f32.isNan mx || fLt mx mn then none
  else if fEq d 0 then (if fLt o mn || fLt mx o then none else some q)
  else
    let inv := fDiv fOne d
    let t0 := f32.mul .rne (f32.sub .rne mn o) inv
    let t1 := f32.mul .rne (f32.sub .rne mx o) inv
    some (f32.minMax true q.1 (f32.minMax false t0 t1), f32.minMax false q.2 (f32.minMax true t0 t1))

/-- The box test: t_j of a hit (16 R420). -/
def boxHit (mn mx o d : List Nat) (tmin tcur : Nat) : Option Nat :=
  match ([0, 1, 2] : List Nat).foldl (fun (q : Option (Nat × Nat)) i =>
      q.bind (boxAxis (comp mn i) (comp mx i) (comp o i) (comp d i))) (some (fNegInf, f32.infBits false)) with
  | none => none
  | some (a, b) =>
    let tn := fNext false a
    let tf := fNext true b
    if fLe tn tf && fLe tmin tf && fLe tn tcur then some tn else none

/-- A triangle's hit: t, b1, b2 and front (16 R421). -/
def triHit (v0 v1 v2 o d : List Nat) : Option (Nat × Nat × Nat × Bool) :=
  let mag (i : Nat) : Nat := fabsBits 32 (comp d i)
  let kz := if fLt (mag 0) (mag 1) then (if fLt (mag 1) (mag 2) then 2 else 1)
    else if fLt (mag 0) (mag 2) then 2 else 0
  let flip := fLt (comp d kz) 0
  let kx := if flip then (kz + 2) % 3 else (kz + 1) % 3
  let ky := if flip then (kz + 1) % 3 else (kz + 2) % 3
  let sx := fDiv (comp d kx) (comp d kz)
  let sy := fDiv (comp d ky) (comp d kz)
  let sz := fDiv fOne (comp d kz)
  let shear (v : List Nat) : Nat × Nat × Nat :=
    let r (i : Nat) : Nat := f32.sub .rne (comp v i) (comp o i)
    (f32.fma .rne (fNeg sx) (r kz) (r kx), f32.fma .rne (fNeg sy) (r kz) (r ky), f32.mul .rne sz (r kz))
  let a := shear v0
  let b := shear v1
  let c := shear v2
  let cross (p q : Nat × Nat × Nat) : Nat := fExact [(p.1, q.2.1), (fNeg p.2.1, q.1)]
  let u := cross c b
  let v := cross a c
  let w := cross b a
  let any (f : Nat → Bool) : Bool := f u || f v || f w
  if any (fun x => fLt x 0) && any (fun x => fLt 0 x) then none
  else
    let det := fExact [(u, fOne), (v, fOne), (w, fOne)]
    if fEq det 0 then none
    else some (fDiv (fExact [(u, a.2.2), (v, b.2.2), (w, c.2.2)]) det, fDiv v det, fDiv w det, fLt 0 det)

/-- A point or a direction in an instance's space (16 R419). -/
def xform (m : List Nat) (v : List Nat) (point : Bool) : List Nat :=
  [0, 1, 2].map fun r =>
    let e (c : Nat) : Nat := m.getD (4 * r + c) 0
    let x := if point then f32.fma .rne (e 0) (comp v 0) (e 3) else f32.mul .rne (e 0) (comp v 0)
    f32.fma .rne (e 2) (comp v 2) (f32.fma .rne (e 1) (comp v 1) x)

-- TRAVERSAL

/-- What one step of a traversal comes to. -/
inductive TravNext where
  /-- It goes on. -/
  | go (t : Trav)
  /-- It ends with a hit or a miss, or with status 2. -/
  | over (t : Trav) (broken : Bool)
  /-- A read faulted: status 3. -/
  | fault (t : Trap)
  /-- A line is awaited (07 R193). -/
  | wait
  /-- A shader is to run, for an any-hit candidate or for an intersection. -/
  | shader (t : Trav) (anyhit : Bool) (addr : Nat)

/-- A triangle that no instance reaches has this instance index (16 R422). -/
def noInstance : Nat := 0xFFFFFFFF

/-- The key of a hit (16 R422). -/
def Hit.key (h : Hit) : Nat := (h.inst * 2 ^ 32 + h.geom) * 2 ^ 32 + h.prim

/-- A candidate committed; the traversal ends where its flags or its HITEND say so (16 R422, 17 R430, R433). -/
def Trav.commit (t : Trav) (h : Hit) (last : Bool) : Trav :=
  let t1 := { t with tcur := h.t, best := some h, cand := none, last := false }
  if last || t.flags.testBit 0 then { t1 with levels := [] } else t1

/-- A candidate handled: rejected, sent to its any-hit shader, or committed (16 R422). -/
def Trav.submit (t : Trav) (h : Hit) (anyhit : Nat) (opaque_ : Bool) : TravNext :=
  let drop := .go { t with cand := none, last := false }
  if f32.isNan h.t || fLt h.t t.tmin || fLt t.tcur h.t then drop
  else if fEq h.t t.tcur && (match t.best with
      | none => false
      | some b => decide (b.key ≤ h.key)) then drop
  else if !opaque_ && anyhit != 0 then .shader { t with cand := some (h, anyhit, opaque_) } true anyhit
  else .go (t.commit h t.last)

/-- A structure's bytes, read as loads of 16 bytes each (16 R387, R423). -/
def State.structRead (s : State) (st : Site) (k : Skein) (va n : Nat) : State × Except TravNext (List Byte) :=
  let user := !(s.siteThread st).sup
  match State.texReads st k user false ((List.range (n / 16)).map fun i => ((va + 16 * i) % 2 ^ 64, 16)) [] none false s with
  | (s, .ok bs) => (s, .ok bs.flatten)
  | (s, .error (.trap t)) => (s, .error (.fault t))
  | (s, .error _) => (s, .error .wait)

/-- n consecutive f32 words. -/
def floatsAt (bs : List Byte) (off n : Nat) : List Nat := (List.range n).map fun i => numAt bs (off + 4 * i) 4

/-- A node's hit children, pushed so that the nearest, then the lower slot, pops first (16 R419). -/
def nodeHits (t : Trav) (v : TravLevel) (bs : List Byte) (depth : Nat) : List (Nat × Nat × Nat) :=
  let hits := (List.range 4).filterMap fun j =>
    let ref := numAt bs (96 + 4 * j) 4
    if ref / 2 ^ 30 = 0 then none
    else (boxHit (floatsAt bs (24 * j) 3) (floatsAt bs (24 * j + 12) 3) v.o v.d t.tmin t.tcur).map fun tn =>
      (ref, tn, depth + 1)
  hits.foldl (fun acc x => ins x acc) []
where
  /-- In rising order of distance; equals keep the order of their slots. -/
  ins (x : Nat × Nat × Nat) : List (Nat × Nat × Nat) → List (Nat × Nat × Nat)
    | [] => [x]
    | y :: r => if fLt x.2.1 y.2.1 then x :: y :: r else y :: ins x r

/-- A traversal with its innermost level changed. -/
def Trav.put (t : Trav) (v : TravLevel) : Trav := { t with levels := v :: t.levels.drop 1 }

/-- A node visited (16 R416, R419). -/
def State.visitNode (s : State) (st : Site) (k : Skein) (t : Trav) (v : TravLevel) (ref depth : Nat) : State × TravNext :=
  if 64 ≤ depth then (s, .over t true)
  else match s.structRead st k (v.base + 16 * bits ref 0 30) 128 with
    | (s, .error e) => (s, e)
    | (s, .ok bs) => (s, .go (t.put { v with stack := nodeHits t v bs depth ++ v.stack }))

/-- An instance visited (16 R417, R419). -/
def State.visitInstance (s : State) (st : Site) (k : Skein) (t : Trav) (v : TravLevel) (ref : Nat) : State × TravNext :=
  if v.inst.isSome then (s, .over t true)
  else match s.structRead st k (v.base + 16 * bits ref 0 30) 64 with
    | (s, .error e) => (s, e)
    | (s, .ok bs) =>
      let root := numAt bs 48 8
      let flags := numAt bs 61 1
      if 4 ≤ flags ∨ root = 0 ∨ root % 16 ≠ 0 then (s, .over t true)
      else if Nat.land (numAt bs 60 1) t.mask = 0 then (s, .go (t.put v))
      else
        let m := floatsAt bs 0 12
        let w : TravLevel := {
          base := root, o := xform m v.o true, d := xform m v.d false, stack := [(2 ^ 30, fNegInf, 0)]
          inst := some (numAt bs 56 4, numAt bs 62 2, flags) }
        (s, .go { t with levels := w :: v :: t.levels.drop 1 })

/-- The any-hit and the intersection shader that serve a hit, zero for none (16 R418). -/
def State.hitGroup (s : State) (st : Site) (k : Skein) (idx : Nat) : State × Except TravNext (Nat × Nat) :=
  match s.descRead st k 2 idx with
  | (s, .ok none) => (s, .ok (0, 0))
  | (s, .ok (some bs)) => (s, .ok (numAt bs 0 8, numAt bs 8 8))
  | (s, .error (.trap t)) => (s, .error (.fault t))
  | (s, .error _) => (s, .error .wait)

/-- A triangle or a procedural primitive tested (16 R417, R418, R420 to R422). What an intersection shader is not given,
b1, b2 and front, are free values (log entry 2). -/
def State.visitTriangle (s : State) (st : Site) (k : Skein) (t : Trav) (v : TravLevel) (va : Nat) : State × TravNext :=
  match s.structRead st k va 48 with
  | (s, .error e) => (s, e)
  | (s, .ok bs) =>
    let flags := numAt bs 44 1
    if 4 ≤ flags ∨ numAt bs 45 3 ≠ 0 then (s, .over t true)
    else
      let prim := numAt bs 36 4
      let geom := numAt bs 40 4
      let (inst, hg, force) := v.inst.getD (noInstance, 0, 0)
      let opaque_ := force.testBit 0 || (flags.testBit 0 && !force.testBit 1) || t.flags.testBit 1
      let group (s : State) : State × Except TravNext (Nat × Nat) := s.hitGroup st k (hg + geom)
      let t := t.put v
      if flags.testBit 1 then
        match boxHit (floatsAt bs 0 3) (floatsAt bs 12 3) v.o v.d t.tmin t.tcur with
        | none => (s, .go t)
        | some tn => match group s with
          | (s, .error e) => (s, e)
          | (s, .ok (_, 0)) => (s, .go t)
          | (s, .ok (ah, isect)) =>
            let open_ (i : Nat) : Nat := (Config.freeWord (s.free + i)).toNat % 2 ^ 32
            let h : Hit := { t := tn, b1 := open_ 0, b2 := open_ 1, inst := inst, geom := geom, prim := prim,
                             front := Config.freeBool (s.free + 2), proc := true }
            ({ s with free := s.free + 3 }, .shader { t with cand := some (h, ah, opaque_) } false isect)
      else match triHit (floatsAt bs 0 3) (floatsAt bs 12 3) (floatsAt bs 24 3) v.o v.d with
        | none => (s, .go t)
        | some (tt, b1, b2, front) =>
          let h : Hit := { t := tt, b1 := b1, b2 := b2, inst := inst, geom := geom, prim := prim, front := front,
                           proc := false }
          if opaque_ then (s, t.submit h 0 true)
          else match group s with
            | (s, .error e) => (s, e)
            | (s, .ok (ah, _)) => (s, t.submit h ah false)

/-- One step of a traversal (16 R419). -/
def State.travStep (s : State) (st : Site) (k : Skein) (t : Trav) : State × TravNext :=
  match t.cand, t.levels with
  | some (h, ah, op), _ => (s, t.submit h ah op)
  | none, [] => (s, .over t false)
  | none, v :: _ =>
    match v.leaf, v.stack with
    | a :: r, _ => s.visitTriangle st k t { v with leaf := r } a
    | [], [] => (s, .go { t with levels := t.levels.drop 1 })
    | [], (ref, tn, depth) :: r =>
      let v := { v with stack := r }
      if fLt t.tcur tn then (s, .go (t.put v))
      else match ref / 2 ^ 30 with
        | 1 => s.visitNode st k t v ref depth
        | 2 => (s, .go (t.put { v with
            leaf := (List.range (bits ref 26 4 + 1)).map fun i => v.base + 16 * bits ref 0 26 + 48 * i }))
        | 3 => s.visitInstance st k t v ref
        | _ => (s, .go (t.put v))

/-- Steps of a traversal until it ends, calls a shader or waits; one that takes more goes on at its next event. -/
def State.travRun (st : Site) (k : Skein) : Nat → Trav → State → State × TravNext
  | 0, t, s => (s, .go t)
  | n + 1, t, s => match s.travStep st k t with
    | (s, .go t') => travRun st k n t' s
    | r => r

-- THE RAY SLOT

/-- Bytes 52 to 77 of a slot for a hit, and the zeros after them (17 R430). -/
def Hit.slotBytes (h : Hit) : List Byte :=
  toBytes 4 h.t ++ toBytes 4 h.b1 ++ toBytes 4 h.b2 ++ toBytes 4 h.inst ++ toBytes 4 h.geom ++ toBytes 4 h.prim ++
  toBytes 1 h.front.toNat ++ toBytes 1 h.proc.toNat ++ toBytes 2 0

/-- Bytes written into a ray slot. -/
def Thread.slotPut (th : Thread) (r : RegOp) (off : Nat) (bs : List Byte) : Thread :=
  th.putReg (regAddr th.views r + off) bs

/-- A slot at the end of its traversal (17 R431). -/
def Thread.slotEnd (th : Thread) (r : RegOp) (status : Nat) (best : Option Hit) (va : Word) (cause : Nat) : Thread :=
  let th := th.slotPut r 48 (toBytes 4 status)
  match status with
  | 1 => (th.slotPut r 52 (((best.map Hit.slotBytes).getD []))).slotPut r 92 (toBytes 4 0)
  | 3 => (((th.slotPut r 80 (toBytes 8 va.toNat)).slotPut r 88 (toBytes 4 cause)).slotPut r 78 (toBytes 2 0)).slotPut
      r 92 (toBytes 4 0)
  | _ => th.slotPut r 52 (List.replicate 44 0)

-- TRACE AND THE HIT INSTRUCTIONS

/-- The traversal of a ray slot's first 48 bytes (17 R430, R431): one whose root or flags are not allowed has ended with
status 2. -/
def travOf (v : Nat) (st : Site) (blk : Word) : Trav × Bool :=
  let f (i : Nat) : Nat := bits v (32 * i) 32
  let root := bits v 256 64
  let flags := bits v 328 8
  ({ tmin := f 3, tcur := f 7, mask := bits v 320 8, flags := flags
     levels := [{ base := root, o := [f 0, f 1, f 2], d := [f 4, f 5, f 6], stack := [(2 ^ 30, fNegInf, 0)] }]
     pc := st.pc, blk := blk, word := st.word }, decide (root = 0 ∨ root % 16 ≠ 0 ∨ 4 ≤ flags))

/-- A traversal that has ended with status 2: nothing is left to visit, and its flags have a reserved bit. -/
def Trav.broken (t : Trav) : Trav := { t with levels := [], flags := 256 }

/-- One thread's TRACE (17 R431). -/
def traceRun (x : FmtX) (st : Site) (l : LaneIn) (s : State) : State × Fate :=
  let (t, bad) := travOf (l.val 0) st (s.siteThread st).blk
  (s.modThread st.core st.slot st.lane fun th =>
    { th.slotPut x.r1 48 (toBytes 4 6) with trav := some (if bad then t.broken else t) }, .wait .trace [])

/-- TRACE (17 R431). -/
def execTrace (x : FmtX) (s : State) : Out State :=
  .next (s.runEach (.trace x) x.ctl 0 false
    { reads := fun _ => [.group x.r1 4 12], dsts := fun _ => [(x.r1, 4, 64)], run := traceRun x })

/-- The decisions of a HIT instruction. -/
inductive HitKind where
  | acc | ign | stop
  deriving DecidableEq, Repr

/-- A traversal as a HIT instruction resumes it, for status 4 or 5 (17 R433); t, b1 and b2 are the reported ones. -/
def Trav.resume (t : Trav) (m : HitKind) (status tt b1 b2 : Nat) : Trav :=
  match t.cand with
  | none => t
  | some (h, ah, op) =>
    if m = .ign then { t with cand := none, last := false }
    else if status = 4 then t.commit h (t.last || m == .stop)
    else { t with cand := some ({ h with t := tt, b1 := b1, b2 := b2 }, ah, op), last := m == .stop }

/-- One thread's HITACC, HITIGN or HITEND (17 R433). -/
def hitRun (m : HitKind) (x : FmtX) (st : Site) (l : LaneIn) (s : State) : State × Fate :=
  let v := l.val 0
  let status := bits v 384 32
  if status ≠ 4 ∧ status ≠ 5 then (s, .trap { cause := .illegalField })
  else match s.travs.find? fun r => ofBytes r.1 == bits v 768 1280 with
    | none => (s.modThread st.core st.slot st.lane fun th => (th.slotEnd x.r1 2 none 0 0).pushNow false, .next)
    | some (_, t) =>
      (s.modThread st.core st.slot st.lane fun th =>
        { th with trav := some (t.resume m status (bits v 416 32) (bits v 448 32) (bits v 480 32)) }, .wait .trace [])

/-- A HIT instruction. -/
def hitOp (m : HitKind) (x : FmtX) : SeqOp :=
  { reads := fun _ => [.group x.r1 4 64], dsts := fun _ => [(x.r1, 4, 64)], run := hitRun m x }

/-- HITACC (17 R433). -/
def execHitacc (x : FmtX) (s : State) : Out State := .next (s.runEach (.hitacc x) x.ctl 0 false (hitOp .acc x))

/-- HITIGN (17 R433). -/
def execHitign (x : FmtX) (s : State) : Out State := .next (s.runEach (.hitign x) x.ctl 0 false (hitOp .ign x))

/-- HITEND (17 R433). -/
def execHitend (x : FmtX) (s : State) : Out State := .next (s.runEach (.hitend x) x.ctl 0 false (hitOp .stop x))

-- STEPS

/-- A traversing thread's slot, site, skein and traversal. -/
def State.tracing (s : State) (core slot lane : Nat) : Option (RegOp × Site × Skein × Trav) :=
  match s.waitingFor core slot lane (· = .trace), s.skein core slot, s.thread core slot lane with
  | some w, some k, some th => match raySlot w.instr, th.trav with
    | some r, some t =>
      some (r, { core := core, slot := slot, lane := lane, lanes := [lane], cyc := s.cycle, pc := th.pc, word := w.word }, k, t)
    | _, _ => none
  | _, _, _ => none

/-- Steps of a traversal that one event may take. -/
def travFuel : Nat := 4096

/-- A traversal's end: the slot is written, status == 1 is pushed, and the thread goes on after its TRACE with the
TRACE's BLK (17 R431, R433). -/
def State.travEnd (s : State) (core slot lane : Nat) (r : RegOp) (t : Trav) (status : Nat) (va : Word) (cause : Nat) : State :=
  (s.modThread core slot lane fun th =>
    { (th.slotEnd r status t.best va cause).pushNow (status == 1) with blk := t.blk, trav := none }).wakeAt core slot lane
    (t.pc + 8)

/-- TRAVERSAL_END (17 R431). -/
def execTraversalEnd (core slot lane : Nat) (s : State) : Out State :=
  .next (match s.tracing core slot lane with
    | none => s
    | some (r, st, k, t) =>
      match State.travRun st k travFuel t s with
      | (s, .go t') => s.modThread core slot lane fun th => { th with trav := some t' }
      | (s, .over t' b) =>
        s.travEnd core slot lane r t' (if b || t'.flags.testBit 8 then 2 else if t'.best.isSome then 1 else 0) 0 0
      | (s, .fault e) => s.travEnd core slot lane r t 3 e.addr e.cause.code
      | _ => s)

/-- The slot written for a shader: candidate, tcur, resume record and status (17 R432). -/
def State.slotCall (s : State) (core slot lane : Nat) (r : RegOp) (t : Trav) (anyhit : Bool) : State :=
  let rec_ := (List.range 160).map fun i => Config.freeByte (s.free + i)
  let h := (t.cand.map fun c => Hit.slotBytes c.1).getD []
  { s with free := s.free + 160, travs := (rec_, t) :: s.travs }.modThread core slot lane fun th =>
    ((((th.slotPut r 48 (toBytes 4 (if anyhit then 4 else 5))).slotPut r 52 h).slotPut r 88 (toBytes 4 t.tcur)).slotPut
      r 92 (toBytes 4 0)).slotPut r 96 rec_

/-- SCARAB_SHADER_CALL (17 R432): the slot is written and the thread runs the shader; one that is no header is
BAD_TARGET at the TRACE. -/
def execScarabShaderCall (core slot lane : Nat) (s : State) : Out State :=
  .next (match s.tracing core slot lane with
    | none => s
    | some (r, st, k, t) =>
      match State.travRun st k travFuel t s with
      | (s, .go t') => s.modThread core slot lane fun th => { th with trav := some t' }
      | (s, .shader t' anyhit addr) =>
        let s := s.slotCall core slot lane r t' anyhit
        match s.badTarget core k.ctx (word addr) (!(s.siteThread st).sup) with
        | (s, true) =>
          (s.modThread core slot lane fun th =>
            { th.wake with stepNext := none, pc := t'.pc, blk := t'.blk, trav := none }).raise core slot t'.pc t'.word
            [(lane, { cause := .badTarget, addr := word addr })]
        | (s, false) =>
          (s.modThread core slot lane fun th => { th with blk := word addr, trav := some t' }).wakeAt core slot lane (word addr)
      | _ => s)

end Sys2Proof.Machine
end

