-- ==== Sys2Proof/Machine/Raster.lean ====
section
/-! DEFINITION. The fixed-function nodes of a strip chain: binner, rasteriser, blender, upscaler-feed and strip writer (16
R399 to R415, 12 R313 to R315, R321). -/

namespace Sys2Proof.Machine

-- NODES AND THEIR RECORDS

/-- A strip chain changed. -/
def State.modStrip (s : State) (ctx grid : Nat) (f : Strip → Strip) : State :=
  s.modGrid ctx grid fun g => { g with strip := g.strip.map f }

/-- A chain's strip, its graph, and the number and state of its node of a kind; none for an abandoned graph. -/
def State.stage (s : State) (ctx grid kind : Nat) : Option (Strip × Graph × Nat × Node) :=
  match (s.grid ctx grid).bind (·.strip), s.graph ctx grid with
  | some t, some g =>
    match g.nodes.findIdx? fun x => x.kind == kind with
    | none => none
    | some i => if g.abandoned then none else g.nodes[i]?.map fun x => (t, g, i, x)
  | _, _ => none

/-- Poisoned words of a record as a fixed-function node reads them: free values (log entry 2). -/
def freeOver (free : Nat) (bs : List Byte) (bad : List Nat) : List Byte :=
  bs.zipIdx.map fun b => if bad.contains (b.2 / 8) then Config.freeByte (free + b.2) else b.1

/-- The oldest record of a node, left in its queue; none where there is none or it cannot be read. -/
def State.oldest (s : State) (ctx grid i : Nat) (x : Node) : State × Option (List Byte) :=
  if x.count = 0 ∨ x.waits then (s, none)
  else match State.takeRecords ctx grid i 1 [] s with
    | (s, some [(bs, bad)]) => ({ s with free := s.free + 64 }, some (freeOver s.free bs bad))
    | (s, _) => (s, none)

-- THE BINNER

/-- The raster grid of a chain: first line, lines, columns (16 R401). -/
def Strip.grid (t : Strip) : Nat × Nat × Nat :=
  if t.upscale then (t.k * t.rows / t.ratio, t.rows / t.ratio, ceilDiv t.outWidth t.ratio)
  else (t.k * t.rows, t.lines, t.outWidth)

/-- A raster record as the binner passes it (16 R400, R402): snapped vertices, signed area, front. -/
structure Tri where
  xs : List Int
  ys : List Int
  z : List Nat
  q : List Nat
  area : Int
  front : Bool
  prim : Nat
  attr : Nat
  deriving DecidableEq, Repr

/-- A coordinate snapped to 16.8; none where it is a NaN or out of range (16 R402). -/
def snap (c : Nat) : Option Int :=
  if f32.isNan c then none
  else
    let x := ((f32.val c).mul (Val.ofInt 1 8)).toIntIn .rne (-2 ^ 40) (2 ^ 40)
    if x < -2 ^ 23 ∨ 2 ^ 23 ≤ x then none else some x

/-- A record snapped and classified; none where the binner discards it (16 R402). -/
def triOf (raster : List Byte) (top lines : Nat) (bs : List Byte) : Option Tri := do
  let xs ← [0, 1, 2].mapM fun i => snap (numAt bs (16 * i) 4)
  let ys ← [0, 1, 2].mapM fun i => snap (numAt bs (16 * i + 4) 4)
  let z := [0, 1, 2].map fun i => numAt bs (16 * i + 8) 4
  let q := [0, 1, 2].map fun i => numAt bs (16 * i + 12) 4
  let x (i : Nat) : Int := xs.getD i 0
  let y (i : Nat) : Int := ys.getD i 0
  let area := (x 1 - x 0) * (y 2 - y 0) - (y 1 - y 0) * (x 2 - x 0)
  let front := decide (0 < area) == (numAt raster 2 1).testBit 0
  let cull := numAt raster 1 1
  if q.any (fun v => !fLt 0 v) || area == 0 || (cull == 1 && !front) || (cull == 2 && front) ||
      ys.all (fun v => decide (v < 256 * top)) || ys.all (fun v => decide (256 * ((top + lines : Nat) : Int) < v)) then none
  else some { xs := xs, ys := ys, z := z, q := q, area := area, front := front, prim := numAt bs 48 4, attr := numAt bs 56 8 }

/-- The binner closes its output once its input is closed and empty (12 R321). -/
def State.binClose (s : State) (ctx grid : Nat) : State :=
  match s.stage ctx grid 1 with
  | none => s
  | some (t, _, i, x) =>
    if !t.closed && x.count == 0 && x.out.isEmpty && s.inputClosed ctx grid i then
      s.modStrip ctx grid fun t => t.binned s.unitsNow t.total
    else s

/-- BINNER_RECORD (16 R402): one record in order; those that survive pass on unchanged. -/
def execBinnerRecord (ctx grid : Nat) (s : State) : Out State :=
  .next (match s.stage ctx grid 1 with
    | none => s
    | some (t, _, i, x) => match s.flush ctx grid i x.output with
      | (s, false) => s
      | (s, true) => match s.oldest ctx grid i x with
        | (s, none) => s.binClose ctx grid
        | (s, some bs) =>
          let s := s.dropRecords ctx grid i 1
          let (top, lines, _) := t.grid
          let s := match triOf t.raster top lines bs with
            | none => s
            | some _ => (s.modStrip ctx grid fun t => { t with total := t.total + 1 }).modNode ctx grid i fun x =>
                { x with out := x.out ++ [bs] }
          ((s.flush ctx grid i x.output).1).binClose ctx grid)

-- THE RASTERISER

/-- Edge i at a point: E, and whether it owns the point (16 R403). -/
def Tri.edge (t : Tri) (i : Nat) (px py : Int) : Int × Bool :=
  let sg : Int := if 0 < t.area then 1 else -1
  let j := (i + 1) % 3
  let dx := sg * (t.xs.getD j 0 - t.xs.getD i 0)
  let dy := sg * (t.ys.getD j 0 - t.ys.getD i 0)
  let e := dx * (py - t.ys.getD i 0) - dy * (px - t.xs.getD i 0)
  (e, decide (0 < e ∨ (e = 0 ∧ (dy < 0 ∨ (dy = 0 ∧ 0 < dx)))))

/-- Whether the triangle owns a point (16 R403). -/
def Tri.owns (t : Tri) (px py : Int) : Bool := [0, 1, 2].all fun i => (t.edge i px py).2

/-- An integer over the area, rounded once to f32. -/
def Tri.ratio (t : Tri) (w : Int) : Nat := f32.arith .rne ((Val.ofInt w 0).div (Val.ofInt t.area.natAbs 0))

/-- l0, l1 and l2 at a point (16 R405). -/
def Tri.bary (t : Tri) (px py : Int) : Nat × Nat × Nat :=
  let l1 := t.ratio (t.edge 2 px py).1
  let l2 := t.ratio (t.edge 0 px py).1
  (f32.arith .rne (((Val.ofInt 1 0).add .rne (f32.val l1).neg).add .rne (f32.val l2).neg), l1, l2)

/-- The depth at a point (16 R405). -/
def Tri.depth (t : Tri) (px py : Int) : Nat :=
  let (_, l1, l2) := t.bary px py
  let z (i : Nat) : Nat := t.z.getD i 0
  f32.fma .rne l2 (f32.sub .rne (z 2) (z 0)) (f32.fma .rne l1 (f32.sub .rne (z 1) (z 0)) (z 0))

/-- The weights m1 and m2 at a point (16 R405). -/
def Tri.weights (t : Tri) (persp : Bool) (px py : Int) : Nat × Nat :=
  let (l0, l1, l2) := t.bary px py
  let q (i : Nat) : Nat := t.q.getD i 0
  let a := f32.mul .rne l0 (q 0)
  let b := f32.mul .rne l1 (q 1)
  let c := f32.mul .rne l2 (q 2)
  let sum := f32.arith .rne (((f32.val a).add .rne (f32.val b)).add .rne (f32.val c))
  if persp && !fEq sum 0 && f32.classify sum % 128 / 2 != 0 then (fDiv b sum, fDiv c sum) else (l1, l2)

/-- The offset of a sample in its pixel (16 R404). -/
def sampleAt (samples s : Nat) : Int × Int :=
  if samples = 1 then (128, 128)
  else match s with
    | 0 => (80, 48)
    | 1 => (208, 80)
    | 2 => (48, 176)
    | _ => (176, 208)

/-- The cell of a shading level (16 R407). -/
def cellSize (level : Nat) : Nat × Nat :=
  match level with
  | 0 => (1, 1)
  | 1 => (2, 1)
  | 2 => (2, 2)
  | 3 => (4, 2)
  | _ => (4, 4)

/-- A depth function (16 R399, R406). -/
def depthPass (func z b : Nat) : Bool :=
  match func with
  | 0 => false
  | 1 => fLt z b
  | 2 => fEq z b
  | 3 => fLe z b
  | 4 => fLt b z
  | 5 => fLt z b || fLt b z
  | 6 => fLe b z
  | _ => true

/-- A fault of a node on its buffer: address, cause and access. -/
abbrev NodeFault := Nat × Cause × AccKind

/-- One covered sample under the depth test and depth write: whether it keeps its coverage (16 R406). -/
def State.depthSample (s : State) (ctx : Nat) (raster : List Byte) (va z : Nat) : State × Except NodeFault Bool :=
  let flags := numAt raster 2 1
  let write (s : State) : State × Except NodeFault Bool :=
    if flags.testBit 3 then match s.ctxWriteBytes ctx va (toBytes 4 z) [] with
      | (s, .error c) => (s, .error (va, c, .write))
      | (s, .ok ()) => (s, .ok true)
    else (s, .ok true)
  if flags.testBit 2 then match s.ctxRead ctx va 4 with
    | (s, .error c) => (s, .error (va, c, .read))
    | (s, .ok (bs, _)) => if depthPass (numAt raster 3 1) z (ofBytes bs) then write s else (s, .ok false)
  else write s

/-- The samples of a cell, as dy, dx and s. -/
def cellSamples (cw ch samples : Nat) : List (Nat × Nat × Nat) :=
  (List.range ch).flatMap fun dy => (List.range cw).flatMap fun dx => (List.range samples).map fun s => (dy, dx, s)

/-- The coverage of a cell after the depth test (16 R404, R406, R408). -/
def State.cellCover (s : State) (ctx : Nat) (t : Strip) (tri : Tri) (cx cy cw ch : Nat) : State × Except NodeFault Nat :=
  let (top, lines, width) := t.grid
  let samples := numAt t.raster 0 1
  (cellSamples cw ch samples).foldl (fun (acc : State × Except NodeFault Nat) c =>
    match acc with
    | (s, .error f) => (s, .error f)
    | (s, .ok cov) =>
      let (dy, dx, k) := c
      let px := cx + dx
      let py := cy + dy
      let (ox, oy) := sampleAt samples k
      let x := 256 * (px : Int) + ox
      let y := 256 * (py : Int) + oy
      if px < width ∧ top ≤ py ∧ py < top + lines ∧ tri.owns x y then
        match s.depthSample ctx t.raster (numAt t.raster 8 8 + 4 * (samples * (width * (py - top) + px) + k)) (tri.depth x y) with
        | (s, .error f) => (s, .error f)
        | (s, .ok true) => (s, .ok (cov + 2 ^ (4 * (dy * cw + dx) + k)))
        | (s, .ok false) => (s, .ok cov)
      else (s, .ok cov)) (s, .ok 0)

/-- A pixel record (16 R408). -/
def pixelRecord (t : Strip) (tri : Tri) (cx cy cw ch cov seq : Nat) : List Byte :=
  let (m1, m2) := tri.weights ((numAt t.raster 2 1).testBit 1) (256 * cx + 128 * cw : Nat) (256 * cy + 128 * ch : Nat)
  toBytes 2 cx ++ toBytes 2 cy ++ toBytes 1 t.level ++ toBytes 1 (numAt t.raster 0 1) ++ toBytes 2 0 ++ toBytes 8 cov ++
  toBytes 4 m1 ++ toBytes 4 m2 ++ toBytes 4 tri.prim ++ toBytes 4 seq ++ toBytes 8 tri.attr ++ toBytes 1 tri.front.toNat ++
  toBytes 23 0

/-- Multiples of a step that cover the range from lo to hi. -/
def stepsIn (step lo hi : Nat) : List Nat :=
  if hi < lo then [] else (List.range (hi / step - lo / step + 1)).map fun i => (lo / step + i) * step

/-- The pixels that a list of 16.8 coordinates spans. -/
def spanOf (cs : List Int) : Nat × Nat :=
  let c0 := cs.headD 0
  ((cs.foldl min c0 / 256).toNat, (cs.foldl max c0 / 256).toNat)

/-- The cells of a record, in ascending line and then column (16 R407, R408). -/
def Tri.cells (tri : Tri) (t : Strip) : List (Nat × Nat) :=
  let (top, lines, width) := t.grid
  let (cw, ch) := cellSize t.level
  let (x0, x1) := spanOf tri.xs
  let (y0, y1) := spanOf tri.ys
  (stepsIn ch (max top y0) (min (top + lines - 1) y1)).flatMap fun cy =>
    (stepsIn cw x0 (min (width - 1) x1)).map fun cx => (cx, cy)

/-- A record rasterised: its pixel records, with the depth buffer tested and written (16 R403 to R408). -/
def State.rasterise (ctx : Nat) (t : Strip) (tri : Tri) : List (Nat × Nat) → Nat → List (List Byte) → State →
    State × Except NodeFault (List (List Byte))
  | [], _, acc, s => (s, .ok acc.reverse)
  | (cx, cy) :: r, seq, acc, s =>
    let (cw, ch) := cellSize t.level
    match s.cellCover ctx t tri cx cy cw ch with
    | (s, .error f) => (s, .error f)
    | (s, .ok 0) => rasterise ctx t tri r seq acc s
    | (s, .ok cov) => rasterise ctx t tri r (seq + 1) (pixelRecord t tri cx cy cw ch cov seq :: acc) s

/-- The depth buffer filled with the clear depth before the first record (16 R406). -/
def State.depthFill (s : State) (ctx : Nat) (t : Strip) : State × Option NodeFault :=
  let (_, lines, width) := t.grid
  let n := numAt t.raster 0 1 * width * lines
  let va := numAt t.raster 8 8
  if t.filled ∨ numAt t.raster 2 1 / 4 = 0 then (s, none)
  else match State.ctxStores ctx (n / 512 + 2) va (List.replicate n ((t.raster.drop 4).take 4)).flatten s with
    | (s, some (at_, c)) => (s, some (at_, c, .write))
    | (s, none) => (s, none)

/-- RASTER_ACCEPT (12 R314, R321, 16 R406 to R408): one record, once every producer has closed; a fault on the depth buffer
is handled as one on a record, and leaves the record to be taken again. -/
def execRasterAccept (ctx grid : Nat) (s : State) : Out State :=
  .next (match s.stage ctx grid 2 with
    | none => s
    | some (t, _, i, x) => match s.flush ctx grid i x.output with
      | (s, false) => s
      | (s, true) =>
        if !t.closed || !s.inputClosed ctx grid i then s
        else match s.oldest ctx grid i x with
          | (s, none) => s
          | (s0, some bs) => match s0.depthFill ctx t with
            | (_, some (va, c, acc)) => s0.recordFault ctx grid i va c acc true
            | (s, none) =>
              let (top, lines, _) := t.grid
              let done : State × Except NodeFault (List (List Byte)) := match triOf t.raster top lines bs with
                | none => (s, .ok [])
                | some tri => State.rasterise ctx t tri (tri.cells t) t.seq [] s
              match done with
              | (_, .error (va, c, acc)) => s0.recordFault ctx grid i va c acc true
              | (s, .ok recs) =>
                let s := (s.dropRecords ctx grid i 1).modNode ctx grid i fun x => { x with out := recs }
                let s := s.modStrip ctx grid fun t =>
                  { t.accept s.unitsNow with filled := true, seq := t.seq + recs.length }
                (s.flush ctx grid i x.output).1)

-- THE BLENDER

/-- BLENDER_RECORD (16 R409, R412): a colour record is accepted; records apply in ascending sequence, equals in the order
of acceptance. -/
def execBlenderRecord (ctx grid : Nat) (s : State) : Out State :=
  .next (match s.stage ctx grid 4 with
    | none => s
    | some (_, _, i, x) => match s.oldest ctx grid i x with
      | (s, none) => s
      | (s, some bs) => (s.dropRecords ctx grid i 1).modStrip ctx grid fun t =>
          { t with recs := insBy (·.1) (numAt bs 32 4, bs) t.recs })

/-- Whether a colour record's coverage names a sample of a pixel (16 R407, R409). -/
def covers (bs : List Byte) (px py k : Nat) : Bool :=
  let (cw, ch) := cellSize (numAt bs 4 1)
  let cx := numAt bs 0 2
  let cy := numAt bs 2 2
  decide (numAt bs 4 1 ≤ 4 ∧ cx ≤ px ∧ px < cx + cw ∧ cy ≤ py ∧ py < cy + ch) &&
  (numAt bs 8 8).testBit (4 * ((py - cy) * cw + (px - cx)) + k)

/-- A blend factor (16 R410). -/
def blendFactor (code s sa da : Nat) : Nat :=
  match code with
  | 0 => 0
  | 1 => 255
  | 2 => s
  | 3 => 255 - s
  | 4 => sa
  | 5 => 255 - sa
  | 6 => da
  | _ => 255 - da

/-- A blend operation (16 R411). -/
def blendOp (op s d fs fd : Nat) : Nat :=
  match op with
  | 0 => min 255 ((s * fs + d * fd + 127) / 255)
  | 1 => (s * fs - d * fd + 127) / 255
  | 2 => (d * fd - s * fs + 127) / 255
  | 3 => min s d
  | _ => max s d

/-- A sample's four bytes after a record's (16 R411). -/
def blendTo (b : List Byte) (src dst : List Nat) : List Nat :=
  if (numAt b 6 1).testBit 0 then
    (List.range 4).map fun c =>
      let at_ := if c = 3 then 3 else 0
      let s := src.getD c 0
      let d := dst.getD c 0
      let sa := src.getD 3 0
      let da := dst.getD 3 0
      blendOp (numAt b (at_ + 2) 1) s d (blendFactor (numAt b at_ 1) s sa da) (blendFactor (numAt b (at_ + 1) 1) s sa da)
  else src

/-- The colour of a record in a slot's channels: bytes, or f16 in a slot of that format (16 R409, R413). -/
def recordColour (f16 : Bool) (bs : List Byte) : List Nat :=
  (List.range 4).map fun c =>
    let v := numAt bs (16 + 4 * c) 4
    if f16 then (fmtOf 3).cvt .rne false (f32.val v) else unorm8 v

/-- A slot pixel's four channels after every record, in one sample (16 R412, R413). -/
def sampleResult (t : Strip) (f16 : Bool) (start : List Nat) (px py k : Nat) : List Nat :=
  t.recs.foldl (fun d r => if covers r.2 px py k then blendTo t.blend (recordColour f16 r.2) d else d) start

/-- The bytes that the blender writes for a pixel that held `old`; four samples of an f16 slot have no stated mean: free
values (16 R412, R413, log entry 2). -/
def pixelResult (t : Strip) (free : Nat) (old : List Byte) (px py : Nat) : List Byte :=
  let f16 := t.upscale && t.lowBytes == 8
  let w := if f16 then 16 else 8
  let clear := (t.blend.drop 8).take 4
  let start := if (numAt t.blend 6 1).testBit 1 then
      clear.map fun b => if f16 then (fmtOf 3).arith .rne ((Val.ofInt b.toNat 0).div (Val.ofInt 255 0)) else b.toNat
    else elems w 4 (ofBytes old)
  if numAt t.raster 0 1 = 1 then toBytes (w / 2) (joinElems w (sampleResult t f16 start px py 0))
  else if f16 then (List.range 8).map fun i => Config.freeByte (free + i)
  else
    let ks := (List.range 4).map fun k => sampleResult t f16 start px py k
    toBytes 4 (joinElems 8 ((List.range 4).map fun c => ((ks.map fun k => k.getD c 0).foldl (· + ·) 0 + 2) / 4))

/-- Bytes of a chain into one of its slots, where they land (12 R325). -/
def State.slotWrite (s : State) (t : Strip) (slot a : Nat) (bs : List Byte) : State :=
  if s.lands slot t.tag then s.putRing a bs else s

/-- BLENDER_WRITE_STRIP (16 R412): the strip's pixels go to the slot; what the sample buffer holds then is not stated
(log entry 2), and a fault on it leaves the strip to be written again. -/
def execBlenderWriteStrip (ctx grid : Nat) (s : State) : Out State :=
  .next (match s.stage ctx grid 4 with
    | none => s
    | some (t, _, i, x) =>
      if x.ended ∨ x.waits ∨ x.count ≠ 0 ∨ !s.inputClosed ctx grid i then s
      else
        let (top, lines, width) := t.grid
        let (slot, pitch, size) := if t.upscale then (t.low, t.lowPitch, t.lowBytes) else (t.out, t.pitch, 4)
        let put (s : State) (p : Nat × Nat) : State :=
          let a := slot + 128 + p.2 * pitch + p.1 * size
          { s.slotWrite t slot a (pixelResult t s.free (s.ringBytes a size) p.1 (top + p.2)) with free := s.free + 8 }
        let w := ((List.range lines).flatMap fun y => (List.range width).map fun x => (x, y)).foldl put s
        let done (s : State) : State := s.modNode ctx grid i fun x => { x with ended := true }
        let n := 16 * width * lines
        if numAt t.raster 0 1 = 1 then done w
        else match State.ctxStores ctx (n / 2048 + 2) (numAt t.blend 16 8)
            ((List.range n).map fun i => Config.freeByte (w.free + i)) w with
          | (_, some (va, c)) => s.recordFault ctx grid i va c .write true
          | (u, none) => done { u with free := u.free + n })

-- THE UPSCALER-FEED AND THE STRIP WRITER

/-- LOWRES_COMPLETE (12 R315): the low-res slot is complete once its producers have closed. -/
def execLowresComplete (ctx grid : Nat) (s : State) : Out State :=
  .next (match s.stage ctx grid 5 with
    | none => s
    | some (t, _, i, _) =>
      if s.inputClosed ctx grid i && s.claimed t.low && s.slotTag t.low == t.tag then s.setSlot t.low 2 else s)

/-- The low-res slot of the chain's neighbour in its frame, where it holds that strip. -/
def State.lowOf (s : State) (t : Strip) (g tag : Nat) : Option Nat :=
  let r := s.region t.entry
  let a := r.lowAt (g % r.n)
  if s.slotTag a = tag then some a else none

/-- Whether the chain's strip is the last of its frame; a consumer that is no longer enabled has no next strip. -/
def State.lastStrip (s : State) (t : Strip) : Bool :=
  match look s.sched t.entry with
  | none => true
  | some e => e.gen != t.gen || t.k + 1 == e.perFrame

/-- Where staging row i lies in the strip ring: the chain's own lines, or a neighbour's, or the nearest line of its own
(12 R315, 16 R414). -/
def State.stagingRow (s : State) (t : Strip) (next : Option Nat) (i : Nat) : Nat :=
  let n := t.rows / t.ratio
  let line (slot j : Nat) : Nat := slot + 128 + j * t.lowPitch
  if i < 4 then
    match if t.k = 0 then none else s.lowOf t (t.g - 1) (t.tag - 1) with
    | some a => line a (n + i - 4)
    | none => line t.low 0
  else if i < n + 4 then line t.low (i - 4)
  else match next with
    | some a => line a (i - n - 4)
    | none => line t.low (n - 1)

/-- The feed's records: one for each block of 8 by 8 output pixels (16 R414). -/
def feedRecords (t : Strip) : List (List Byte) :=
  (List.range (ceilDiv t.lines 8)).flatMap fun y => (List.range (ceilDiv t.outWidth 8)).map fun x =>
    toBytes 2 (8 * x) ++ toBytes 2 (8 * y) ++ toBytes 4 0 ++ (t.feed.drop 8).take 8 ++ toBytes 4 t.lowPitch ++ toBytes 44 0

/-- The staging copy, row after row (16 R414). -/
def State.stageRows (ctx : Nat) (t : Strip) (next : Option Nat) : List Nat → State → State × Option NodeFault
  | [], s => (s, none)
  | i :: r, s =>
    let va := numAt t.feed 8 8 + i * t.lowPitch
    let bs := s.ringBytes (s.stagingRow t next i) (t.lowBytes * ceilDiv t.outWidth t.ratio)
    match State.ctxStores ctx (bs.length / 4096 + 2) va bs s with
    | (s, some (at_, c)) => (s, some (at_, c, .write))
    | (s, none) => stageRows ctx t next r s

/-- UPSCALER_FEED (12 R315, 16 R414): once the next strip's low-res slot is complete, or this strip is late, the halos are
staged; then the records go to the network's node. -/
def execUpscalerFeed (ctx grid : Nat) (s : State) : Out State :=
  .next (match s.stage ctx grid 5 with
    | none => s
    | some (t, _, i, x) =>
      let target := numAt t.feed 2 1
      if x.ended then (s.flush ctx grid i target).1
      else
        let own := s.slotTag t.low == t.tag && s.slotBits t.low / 2 % 2 == 1
        let next := if s.lastStrip t then none
          else (s.lowOf t (t.g + 1) (t.tag + 1)).filter fun a => s.slotBits a / 2 % 2 == 1
        let late := s.slotTag t.out != t.tag || s.slotBits t.out / 4 % 2 == 1
        if x.waits ∨ !s.inputClosed ctx grid i ∨ !(own || late) ∨ !(s.lastStrip t || next.isSome || late) then s
        else match State.stageRows ctx t next (List.range (t.rows / t.ratio + 8)) s with
          | (_, some (va, c, acc)) => s.recordFault ctx grid i va c acc true
          | (s, none) =>
            let s := s.modNode ctx grid i fun x => { x with ended := true, out := feedRecords t }
            ((s.modStrip ctx grid fun t => { t with staged := true }).flush ctx grid i target).1)

/-- STRIP_WRITER_RECORD (16 R415). -/
def execStripWriterRecord (ctx grid : Nat) (s : State) : Out State :=
  .next (match s.stage ctx grid 6 with
    | none => s
    | some (t, _, i, x) => match s.oldest ctx grid i x with
      | (s, none) => s
      | (s, some bs) =>
        let px := numAt bs 0 2
        let line := numAt bs 2 2
        let put (s : State) (j : Nat) : State :=
          if (numAt bs 4 1).testBit j ∧ px + j < t.outWidth ∧ line < t.lines then
            s.slotWrite t t.out (t.out + 128 + line * t.pitch + 4 * (px + j)) ((bs.drop (8 + 4 * j)).take 4)
          else s
        (List.range 8).foldl put (s.dropRecords ctx grid i 1))

end Sys2Proof.Machine
end

