-- ==== Sys2Proof/Machine/Answer.lean ====
section
/-! DEFINITION. The host's answers to kind-1 events: FAULTRES, resume and abandon, for resident and saved work (19 R455,
07 R186, 09 R249, R250, 11 R298, R301). -/

namespace Sys2Proof.Machine

/-- The core of a cluster slot of a resident workgroup. -/
def State.coreOf (s : State) (wgk cslot : Nat) : Option Nat := (s.wg wgk).bind (·.cluster[cslot]?)

/-- The core where an engine holds work of a workgroup: that of its cluster slot, or, for a workgroup that has exited,
the one whose work is meant. -/
def State.engineAt (s : State) (wgk cslot : Nat) (p : Core → Bool) : Option Nat :=
  match s.coreOf wgk cslot with
  | some c => some c
  | none => if (look s.saved wgk).isSome then none else (s.cores.find? fun c => p c.2).map (·.1)

/-- One core's part of a saved workgroup changed. -/
def State.modSaved (s : State) (wgk cslot : Nat) (f : SavedCore → SavedCore) : State :=
  match look s.saved wgk with
  | none => s
  | some v => { s with saved := ins wgk { v with cores := modAt cslot f v.cores } s.saved }

/-- The replay-parked threads of a fragment replay, or are host-parked (19 R455); one that a debug stop waits for is
debug-parked instead of replaying (04 R110). -/
def Skein.answer (mask : BitVec 32) (abandon : Bool) (k : Skein) : Skein :=
  { k with threads := k.threads.zipIdx.map fun t =>
      if mask.getLsbD t.2 && t.1.st == .replayParked then
        (if abandon then { t.1 with st := .hostParked } else t.1.wake)
      else t.1 }

/-- A skein of a workgroup changed where it is: resident, or saved. -/
def State.modSkeinOf (s : State) (wgk idx : Nat) (f : Skein → Skein) : State :=
  let g (k : Skein) : Skein := if k.idx = idx then f k else k
  let s := (s.skeinsOf wgk true).foldl (fun s k => s.modSkein k.1 k.2.1 g) s
  match look s.saved wgk with
  | none => s
  | some v => { s with saved := ins wgk { v with cores := v.cores.map fun c =>
      { c with skeins := c.skeins.map g, spindle := c.spindle.map g } } s.saved }

/-- The parked Shuttle commands among some answered: those that go on, and those abandoned. -/
def answerCmds (wgk : Nat) (abandon : Bool) (qs : List ShCmd) : List ShCmd × List ShCmd :=
  let hit (q : ShCmd) : Bool := q.wg == wgk && q.parked
  if abandon then (qs.filter fun q => !hit q, qs.filter hit)
  else (qs.map fun q => if hit q then { q with parked := false } else q, [])

/-- A parked Shuttle command resumes, or aborts with an engine error (19 R455, 09 R249). -/
def State.answerShuttle (s : State) (wgk cslot : Nat) (abandon : Bool) : State :=
  let present (s : State) (qs : List ShCmd) : State := qs.foldl (fun s q =>
    s.modAnyPart wgk cslot fun x => { x with absent := dropAll q.lines x.absent }) s
  match s.engineAt wgk cslot fun c =>
      (c.started.toList ++ c.shuttle).any fun q => q.wg == wgk && q.cslot == cslot && q.parked with
  | some core =>
    let c := s.core core
    let a := answerCmds wgk abandon c.started.toList
    let b := answerCmds wgk abandon c.shuttle
    let gone := a.2 ++ b.2
    present (s.setCore core { c with
      started := a.1.head?, shuttle := b.1, done := c.done ++ gone.map (·.result true)
      aborts := (gone.map fun q => (wgk, q.skein)) ++ c.aborts.filter fun x => !gone.any fun q => (wgk, q.skein) == x }) gone
  | none => match (look s.saved wgk).bind (·.cores[cslot]?) with
    | none => s
    | some c =>
      let a := answerCmds wgk abandon c.parked.toList
      present (s.modSaved wgk cslot fun c => { c with
        parked := a.1.head?, done := c.done ++ a.2.map (·.result true)
        aborts := addAll (a.2.map (·.skein)) c.aborts }) a.2

/-- The event of an abandoned completion: a dropped stamp (09 R250). -/
def State.dropStamp (s : State) (core wgk : Nat) (d : Done) : State :=
  match d.tag with
  | .stamp va _ => s.post d.ctx false (d.dropEvent core (wgk / 512 % 2 ^ 32) (wgk / 2 ^ 41) va)
  | _ => s

/-- A parked completion of the Shuttle performs again, or is dropped with its event (19 R455, 09 R250). -/
def State.answerStamp (s : State) (core wgk cslot : Nat) (abandon : Bool) : State :=
  let f (ds : List Done) : List Done :=
    if abandon then modAt 0 (fun d => { d with tag := .none, failed := false }) ds else ds
  let tell (s : State) (ds : List Done) : State := match abandon, ds with
    | true, d :: _ => s.dropStamp core wgk d
    | _, _ => s
  match s.engineAt wgk cslot fun k =>
      k.doneParked && k.done.head?.any fun d => d.wg == wgk && d.cslot == cslot with
  | some c =>
    let k := s.core c
    if k.doneParked then tell (s.setCore c { k with doneParked := false, done := f k.done }) k.done else s
  | none => match (look s.saved wgk).bind (·.cores[cslot]?) with
    | none => s
    | some k =>
      if k.doneParked then
        tell (s.modSaved wgk cslot fun k => { k with doneParked := false, done := f k.done }) k.done
      else s

/-- The parked tile commands of a workgroup, executed or not, answered: an abandoned walk has executed and failed (10
R271); an abandoned completion performs nothing. -/
def answerTiles (wgk : Nat) (executed abandon : Bool) (qs : List TileCmd) : List TileCmd × List TileCmd :=
  let hit (q : TileCmd) : Bool := q.io.wg == wgk && q.parked && q.done == executed
  let f (q : TileCmd) : TileCmd :=
    if !abandon then { q with parked := false }
    else if executed then { q with parked := false, failed := false, io := { q.io with tag := .none } }
    else { q with parked := false, done := true, failed := true }
  (qs.map fun q => if hit q then f q else q, if abandon then qs.filter hit else [])

/-- A parked tile command resumes, or aborts with an engine error; a parked completion of one performs again, or is
dropped (19 R455, 10 R271, R272). -/
def State.answerTile (s : State) (core wgk cslot : Nat) (executed abandon : Bool) : State :=
  let end_ (s : State) (qs : List TileCmd) : State := qs.foldl (fun s q =>
    if executed then s.dropStamp core wgk q.completion
    else s.modAnyPart wgk cslot fun x => { x with absent := dropAll q.io.lines x.absent }) s
  match s.engineAt wgk cslot fun c => c.tileq.any fun q => q.io.wg == wgk && q.io.cslot == cslot && q.parked with
  | some c =>
    let a := answerTiles wgk executed abandon (s.core c).tileq
    end_ (s.modCore c fun k =>
      let k := { k with tileq := a.1 }
      if executed then k else a.2.foldl (fun k q => k.markFrames q true) k) a.2
  | none => match (look s.saved wgk).bind (·.cores[cslot]?) with
    | none => s
    | some k =>
      let a := answerTiles wgk executed abandon k.tiles
      let lost := if executed then [] else a.2.flatMap TileCmd.writes
      end_ (s.modSaved wgk cslot fun k => { k with
        tiles := a.1, frames := k.frames.map fun f => if lost.contains f.1 then (f.1, { f.2 with error := true }) else f }) a.2

/-- The record at the head of a source rejected: its descriptor cannot be read (11 R287, R298). -/
def State.answerHead (s : State) (ctx band : Nat) (pend : Bool) : State :=
  if pend then match s.pendHead ctx band with
    | none => s
    | some (i, p) => s.rejectHead ctx true i 1 (recordOf p.bytes).seq
  else match State.queueHead ctx band (s.ctx ctx).lq s with
    | (s, none) => s
    | (s, some (i, bs)) => s.rejectHead ctx false i 1 (recordOf bs).seq

/-- The answer to one event (19 R455). -/
def State.answer (s : State) (ctx : Nat) (abandon : Bool) : Resumes → State
  | .fragment wgk idx mask => s.modSkeinOf wgk idx (Skein.answer mask abandon)
  | .shuttle _ wgk cs => s.answerShuttle wgk cs abandon
  | .stamp core wgk cs => s.answerStamp core wgk cs abandon
  | .tile core wgk cs => s.answerTile core wgk cs false abandon
  | .tileDone core wgk cs => s.answerTile core wgk cs true abandon
  | .completion grid => match s.grid ctx grid with
    | none => s
    | some g =>
      if abandon then
        (s.modGrid ctx grid fun g => { g with held := false, lr := { g.lr with completion := 0 } }).post ctx false
          (gridEvent 6 grid g.lr.completion.toNat 0)
      else s.modGrid ctx grid fun g => { g with held := false }
  | .head band pend => if abandon then s.answerHead ctx band pend else s
  | .arena grid node va own => match (s.graph ctx grid).bind (·.nodes[node]?) with
    | none => s
    | some x =>
      let s := s.modNode ctx grid node fun x => { x with stalled := x.stalled && own, waits := x.waits && !own }
      if abandon then s.abandon ctx grid va
      else if node = 0 ∧ !own then State.feed ctx grid x.cap s
      else s

/-- A FAULTRES write: one that names no outstanding event is discarded (19 R455). -/
def State.faultres (s : State) (ctx seq : Nat) (abandon : Bool) : State :=
  if s.boot.recovery then s
  else match (s.ctx ctx).ev.outstanding.find? fun o => o.1 == seq with
    | none => s
    | some (_, r) =>
      (s.modCtx ctx fun c =>
        { c with ev := { c.ev with outstanding := c.ev.outstanding.filter fun o => o.1 != seq } }).answer ctx abandon r

/-- FAULTRES_RESUME (19 R455): the fragment or the parked command replays. -/
def execFaultresResume (ctx seq : Nat) (s : State) : Out State := .next (s.faultres ctx seq false)

/-- FAULTRES_ABANDON (19 R455): the fragment is host-parked, the command aborts. -/
def execFaultresAbandon (ctx seq : Nat) (s : State) : Out State := .next (s.faultres ctx seq true)

end Sys2Proof.Machine
end

