-- ==== Sys2Proof/Machine/Frontier.lean ====
section
/-! DEFINITION. The thread frontier, block entry and instruction fetch (02 R42, 03 R58 to R61, R79 rows 1 to 4, 04 R101,
R108, 14 R357), the pipeline grant (02 R39, R40, 05 R136), time, and the place for a word to be run. -/

namespace Sys2Proof.Machine

/-- The end of an issue that met a fault before its instruction ran; a header takes no cycle and is no instruction of the run
(03 R59). -/
def State.endFault (s : State) (core slot : Nat) (pc : Word) (lanes : List Nat) (occ : Nat) : State :=
  (s.afterStep core slot pc lanes lanes).endInstr core slot occ 0 false occ

/-- The same fault for a list of threads. -/
def faultAll (lanes : List Nat) (t : Trap) : List (Nat × Trap) := lanes.map fun l => (l, t)

/-- A word fetched for threads at one PC: user and supervisor threads are checked apart, and those whose fetch fails
take the fault of row 1. The threads left, and the word. -/
def State.fetchFor (s : State) (core slot : Nat) (k : Skein) (pc at_ : Word) (lanes : List Nat) :
    State × List Nat × Word :=
  let part (s : State) (ls : List Nat) (user : Bool) : State × List Nat × Word :=
    match ls with
    | [] => (s, [], 0)
    | _ => match s.fetch core k.ctx at_ user with
      | (s, .ok w) => (s, ls, w)
      | (s, .error c) =>
        (s.raise core slot pc 0 (faultAll ls { cause := c, addr := at_, info := some 0, acc := .fetch }), [], 0)
  let sups := lanes.filter fun l => (laneOf k.threads l).sup
  let users := lanes.filter fun l => !(laneOf k.threads l).sup
  let a := part s users true
  let b := part a.1 sups false
  (b.1, lanes.filter fun l => a.2.1.contains l || b.2.1.contains l, if a.2.1 = [] then b.2.2 else a.2.2)

/-- The threads that hold the lowest program counter (02 R42). -/
def Skein.lowest (k : Skein) (lanes : List Nat) : List Nat :=
  match least (lanes.map fun l => (laneOf k.threads l).pc.toNat) with
  | none => []
  | some p => lanes.filter fun l => (laneOf k.threads l).pc.toNat == p

/-- Of threads at one program counter, those with the lowest BLK (04 R101). -/
def Skein.lowestBlk (k : Skein) (lanes : List Nat) : List Nat :=
  match least (lanes.map fun l => (laneOf k.threads l).blk.toNat) with
  | none => []
  | some p => lanes.filter fun l => (laneOf k.threads l).blk.toNat == p

/-- A header that passes the checks of 03 R59. -/
def headerOk (h : Word) : Bool := decide (2 ≤ fld h 47 8) && fld h 0 5 == 0

/-- What the fetch of an instruction comes to: the threads present with the word and its address, or a fault that ends
the issue. -/
inductive Fetched where
  | word (pc w : Word) (lanes : List Nat)
  | none

/-- The next word of a block that threads have joined. -/
def State.fetchIn (s : State) (core slot : Nat) (pc : Word) (lanes : List Nat) : State × Fetched :=
  match s.skein core slot with
  | none => (s, .none)
  | some k =>
    match s.fetchFor core slot k pc pc lanes with
    | (s, [], _) => (s.endFault core slot pc lanes 1, .none)
    | (s, ls, w) => (s, .word pc w ls)

/-- Threads at an entry address that holds no header take BAD_TARGET there; one that the Scarab sent to a shader takes it
at its TRACE (03 R61, 17 R432). -/
def State.badEntry (s : State) (core slot : Nat) (pc w : Word) (ls : List Nat) : State :=
  let trav (l : Nat) : Option Trav := (s.thread core slot l).bind (·.trav)
  let s1 := s.raise core slot pc w (faultAll (ls.filter fun l => (trav l).isNone) { cause := .badTarget, addr := pc })
  let sent := ls.filterMap fun l => (trav l).map fun t => (l, t)
  let s2 := sent.foldl (fun s p => s.modThread core slot p.1 fun th =>
    { th with pc := p.2.pc, blk := p.2.blk, trav := none }) s1
  ((sent.map fun p => (p.2.pc, p.2.word)).dedup).foldl (fun s q => s.raise core slot q.1 q.2
    (faultAll ((sent.filter fun p => (p.2.pc, p.2.word) == q).map (·.1)) { cause := .badTarget, addr := pc })) s2

/-- The block of threads at a word that is no header: the rest of BLK's block, BLOCK_OVERRUN, or for threads at an entry
address BAD_TARGET (03 R60, R61, 04 R101, log entry 22). At an address that is no multiple of 8 there is no word of any
block (03 R57, log entry 43). -/
def State.resumeIn (s : State) (core slot : Nat) (k : Skein) (pc w : Word) (all : List Nat) : State × Fetched :=
  let lanes := k.lowestBlk all
  let blk := (laneOf k.threads (lanes.headD 0)).blk
  match s.fetchFor core slot k pc blk lanes with
  | (s, [], _) => (s.endFault core slot pc lanes 1, .none)
  | (s, ls, h) =>
    let stop := blk + word (8 * fld h 47 8)
    if pc = blk then
      ((s.badEntry core slot pc w ls).endFault core slot pc ls 0, .none)
    else if isHeader h && blk.toNat % 8 == 0 && pc.toNat % 8 == 0 && decide (blk.toNat < pc.toNat) && decide (pc.toNat < stop.toNat) then
      (s.modSkein core slot fun k => { k with joined := maskOf ls, blkEnd := stop }, .word pc w ls)
    else
      ((s.raise core slot pc w (faultAll ls { cause := .blockOverrun })).endFault core slot pc ls 1, .none)

/-- Whether a thread's PC lies inside the block of its BLK, past its header: a word there is not entered, whatever its
opcode (03 R60, 04 R101). -/
def State.within (s : State) (core ctx : Nat) (th : Thread) : State × Bool :=
  if th.blk.toNat < th.pc.toNat then
    match s.fetch core ctx th.blk (!th.sup) with
    | (s, .ok h) => (s, isHeader h && th.blk.toNat % 8 == 0 && decide (th.pc.toNat < th.blk.toNat + 8 * fld h 47 8))
    | (s, .error _) => (s, false)
  else (s, false)

/-- The threads of a list that stand at a block to enter. -/
def State.entering (s : State) (core ctx : Nat) (threads : List Thread) (ls : List Nat) : State × List Nat :=
  ls.foldl (fun r l =>
    let q := r.1.within core ctx (laneOf threads l)
    (q.1, if q.2 then r.2 else r.2 ++ [l])) (s, [])

/-- The frontier choice, and the first instruction of what it enters (02 R42, 03 R58 to R60). -/
def State.enterBlock (s : State) (core slot : Nat) (k : Skein) (cands : List Nat) : State × Fetched :=
  let group := k.lowest cands
  let pc := (laneOf k.threads (group.headD 0)).pc
  let s := s.modSkein core slot fun k => { k with joined := 0 }
  match s.fetchFor core slot k pc pc group with
  | (s, [], _) => (s.endFault core slot pc group 1, .none)
  | (s, ls, w) =>
    let (s, es) := if isHeader w && pc.toNat % 8 == 0 then s.entering core k.ctx k.threads ls else (s, [])
    if es ≠ [] then
      let ls := es
      if headerOk w then
        let s := ls.foldl (fun s l => s.modThread core slot l fun th =>
          { th with blk := pc, pc := pc + 8, trav := none }) s
        let s := s.modSkein core slot fun k =>
          { k with joined := maskOf ls, blkEnd := pc + word (8 * fld w 47 8) }
        s.fetchIn core slot (pc + 8) ls
      else
        ((s.raise core slot pc w (faultAll ls { cause := .illegalField })).endFault core slot pc ls 0, .none)
    else s.resumeIn core slot k pc w ls

/-- The word that a skein executes next, and the threads present at it. -/
def State.nextWord (s : State) (core slot : Nat) : State × Fetched :=
  match s.skein core slot with
  | none => (s, .none)
  | some k =>
    let cands := k.ready ((((s.core core).pipe (slot / 8)).run.map (·.step)).getD false)
    let cur := cands.filter fun l => k.joined.getLsbD l
    let pc := (laneOf k.threads (cur.headD 0)).pc
    if cands = [] then (s, .none)
    else if cur ≠ [] ∧ pc ≠ k.blkEnd then s.fetchIn core slot pc cur
    else s.enterBlock core slot k cands

/-- Opcodes that the Spindle may execute (14 R357). -/
def spindleOp (k : Nat) (sup : Bool) : Bool :=
  decide (k ≤ 0x050) || decide (0x060 ≤ k ∧ k ≤ 0x066) || k == 0x068 || k == 0x069 || k == 0x06C || k == 0x06F ||
  k == 0x070 || decide (0x080 ≤ k ∧ k ≤ 0x0A2) || decide (0x0E0 ≤ k ∧ k ≤ 0x0E7) || decide (0x100 ≤ k ∧ k ≤ 0x10D) ||
  k == 0x180 || k == 0x182 || k == 0x1C3 || (sup && (k == 0x06A || k == 0x06B || k == 0x06D))

/-- Whether a thread may not execute a word where it runs: row 3 of 03 R79 (14 R357). -/
def barred (slot : Nat) (w : Word) (th : Thread) : Bool :=
  if slot = spindleSlot then !spindleOp (wordOpcode w) th.sup && !opcodeFree w else wordOpcode w == 0x1C3

/-- Rows 3 and 4 of 03 R79 for the fetched word: what is left is a well-formed instruction and the threads that may
execute it. -/
def State.admitWord (s : State) (core slot : Nat) (pc w : Word) (lanes : List Nat) : State × Option (Instr × List Nat) :=
  let th (l : Nat) : Thread := (s.thread core slot l).getD {}
  let bad := lanes.filter fun l => barred slot w (th l)
  let ok := dropAll bad lanes
  let s := s.raise core slot pc w (faultAll bad { cause := .illegalOp })
  match decode w, ok with
  | .ok i, _ :: _ => (s, some (i, ok))
  | .error _, _ =>
    ((s.raise core slot pc w (faultAll ok { cause := .illegalField })).endFault core slot pc lanes 1, none)
  | .ok _, [] => (s.endFault core slot pc lanes 1, none)

/-- Whether a slot holds the run of its pipeline and its stall count has elapsed (02 R37, R39). -/
def State.mayIssue (s : State) (core slot : Nat) : Bool :=
  match s.skein core slot, ((s.core core).pipe (slot / 8)).run with
  | some k, some r => r.slot == slot && decide (k.readyAt ≤ s.cycle)
  | _, _ => false

/-- The next instruction of a skein, with its issue recorded; none where nothing is to be executed. -/
def State.fetchNext (s : State) (core slot : Nat) : State × Option Instr :=
  if s.mayIssue core slot then
    match s.nextWord core slot with
    | (s, .none) => (s, none)
    | (s, .word pc w ls) =>
      match s.admitWord core slot pc w ls with
      | (s, none) => (s, none)
      | (s, some (i, ok)) =>
        ({ s with issue := some { core := core, slot := slot, pc := pc, word := w, present := maskOf ok } }, some i)
  else (s, none)

/-- Whether a slot is ready (02 R40): a runnable thread, its stall count elapsed, and no operand of its next word known to be
held. That the scoreboard holds one is found at the first issue, which takes the grant back (`State.holdBack`). -/
def State.slotReady (s : State) (core slot : Nat) : Bool :=
  match s.skein core slot with
  | none => false
  | some k => k.threads.any Thread.runnable && decide (k.readyAt ≤ s.cycle) && !(k.holds.1 != 0 && k.blocked == some k.holds)

/-- A skein that gets the grant of a step's run: the other threads' block is put by (04 R108). -/
def Skein.startRun (k : Skein) (step : Bool) : Skein :=
  if step then { k with kept := k.joined, keptEnd := k.blkEnd, joined := 0 } else k

/-- RUN_GRANT (02 R37, R40, 05 R136): a pipeline without a run, and that no instruction occupies, grants itself to the first
ready slot of its rotation; a slot whose run has just ended by a yield comes after the others, at that boundary alone. A
skein that has ended at the boundary frees its slot. -/
def execRunGrant (core pipe : Nat) (s : State) : Out State :=
  let s := ((s.core core).pipe pipe).rot.foldl (fun s x => s.reap core x) s
  let c := s.core core
  let p := c.pipe pipe
  let ready := p.rot.filter fun x => s.slotReady core x &&
    !((s.skein core x).map fun k => s.stopped k.wgKey).getD false
  let yielded (x : Nat) : Bool := ((s.skein core x).map (·.yielded)).getD false
  let step (x : Nat) : Bool := ((s.skein core x).map fun k => decide (k.ready true ≠ [])).getD false
  .next (if s.cycle < p.busy then s
    else match p.run, (ready.filter fun x => !yielded x) ++ ready.filter yielded with
    | none, x :: _ =>
      let s1 := s.setCore core (c.setPipe pipe { p with 
        run := some { slot := x, start := s.cycle, mhz := s.mon.mhz, step := step x } })
      (p.rot.foldl (fun s y => s.modSkein core y fun k => { k with yielded := false }) s1).modSkein core x fun k =>
        k.startRun (step x)
    | _, _ => s)

/-- UNALLOCATED_OPCODE (03 R78): ILLEGAL_OP for every thread present. -/
def execUnallocatedOpcode (w : Word) (s : State) : Out State :=
  .next (match s.issued with
    | none => s
    | some (is, _) =>
      let lanes := lanesOf is.present
      (s.raise is.core is.slot is.pc w (faultAll lanes { cause := .illegalOp })).endFault is.core is.slot is.pc lanes 1)

/-- The time counter after t units of 2^-40 ns of the reference oscillator (18 R439). -/
def TimeUnit.pass (u : TimeUnit) (t : Nat) : TimeUnit :=
  let step := (t * (2 ^ 40 + u.rate.toInt)).toNat + u.part
  { u with now := (u.now + step / 2 ^ 40) % (2 ^ 48 * 1000000000 * 2 ^ 40), part := step % 2 ^ 40 }

/-- Core cycles and reference time pass. -/
def State.pass (s : State) (cycles ticks : Nat) : State :=
  { s with cycle := s.cycle + cycles, time := s.time.pass ticks }

-- A PLACE FOR ONE WORD

/-- A page-table entry at a physical address. -/
def State.putPte (s : State) (a v : Nat) : State :=
  { s with mem := { s.mem with bytes := putBytes a (toBytes 8 v) s.mem.bytes } }

/-- The skein that runs one word: thread 0 of a workgroup of one, inside the block at 0x1000. -/
def wordSkein : Skein :=
  let th : Thread := { pc := 0x1008, blk := 0x1000 }
  { ctx := 0, grid := 0, wg := 0, idx := 0, alloc := 1024, joined := 1, blkEnd := 0x1010,
    threads := th :: List.replicate 31 { th with st := .exited } }

/-- A machine whose next step issues the word at 0x1008 for thread 0 of slot 0 of core 0 (log entry 5). -/
def State.placeWord (s : State) (w : Word) : State :=
  let s := (((s.putPte 0x100000 0x110001).putPte 0x110000 0x120001).putPte 0x120000 0x130001).putPte 0x130008 0x14006F
  let s := (s.putPte 0x140000 0xFF81000000000000).putPte 0x140008 w.toNat
  let s := s.modCtx 0 fun c => { c with enabled := true, fix := { c.fix with root := 0x100000 } }
  let s := s.modCore 0 fun c =>
    (({ c with tlb := [], icache := [] } : Core).setPipe 0 { rot := [0], run := some { slot := 0, start := s.cycle } })
  let s := { s with
    wgs := ins (wgKey 0 0 0) { ctx := 0, grid := 0, lin := 0, threads := 1, regBytes := 1024, cluster := [0] } s.wgs
    power := true, issue := none, agenda := { act := .issue 0 0 } :: s.agenda }
  s.setSkein 0 0 { wordSkein with readyAt := s.cycle }

end Sys2Proof.Machine
end

