-- ==== Sys2Proof/Machine/Host.lean ====
section
/-! DEFINITION. The host's registers: window 0 and the launch window, with the rows that they cause (19 R452 to R458, R463,
18 R438, R439, R449, R450, 15 R381, R382, 11 R284, R300, R302, 07 R189, 04 R91, R104). -/

namespace Sys2Proof.Machine

/-- The state after a row that ends in a next state. -/
def State.after (s : State) : Out State → State
  | .next t => t
  | _ => s

/-- A plain register of window 0 set. -/
def State.setReg0 (s : State) (off : Nat) (v : Nat) : State := { s with w0 := set 0 off (word v) s.w0 }

-- THE TIME COUNTER AND THE MONITORS

/-- One second in the units of `TimeUnit.now`. -/
def timeSecond : Nat := 1000000000 * 2 ^ 40

/-- Words 0 and 1 of TCNOW or of a capture, for a counter value (18 R438). -/
def timeWord (now i : Nat) : Nat :=
  if i = 0 then now / timeSecond else now % timeSecond / 2 ^ 24

/-- TCSET takes effect at its word 1 (18 R438). -/
def TimeUnit.put (u : TimeUnit) (w1 : Nat) : TimeUnit :=
  if 999999999 < bits w1 16 30 then u
  else { u with now := (bits u.set0.toNat 0 48 * timeSecond + bits w1 0 46 * 2 ^ 24), part := 0, valid := true }

/-- A TCOFS step (18 R439). -/
def TimeUnit.shift (u : TimeUnit) (step : Int) : TimeUnit :=
  { u with now := (((u.now : Nat) : Int) + step * 2 ^ 24).toNat % (2 ^ 48 * timeSecond) }

/-- TCSET (18 R438). -/
def execTcset (word1 : Word) (s : State) : Out State :=
  .next (if s.boot.recovery then s else { s with time := s.time.put word1.toNat })

/-- TCOFS (18 R438, R439). -/
def execTcofs (step : Word) (s : State) : Out State :=
  .next (if s.boot.recovery then s else { s with time := s.time.shift step.toInt })

/-- TCRATE (18 R438, R439). -/
def execTcrate (rate : Word) (s : State) : Out State :=
  .next (if s.boot.recovery then s else { s with time := { s.time with rate := rate.setWidth 32 } })

/-- PTM_DIALOGUE (18 R438, R439): t1 at the request, t4 at the response, `gap` of the reference oscillator later. -/
def execPtmDialogue (gap : Nat) (s : State) : Out State :=
  .next (
    let t1 := s.time.now
    let u := s.time.pass gap
    { s with time := { u with ptm := [(0, word (timeWord t1 0)), (1, word (timeWord t1 1)),
      (2, word (timeWord u.now 0)), (3, word (timeWord u.now 1))] } })

/-- The limit of temperature sensor i and the minimum of voltage monitor i (18 R450, 19 R498). -/
def State.tempLimit (s : State) (i : Nat) : Int := sgn 32 (lookD 1680 s.w0 (0x1100 + 8 * i)).toNat
def State.voltMin (s : State) (i : Nat) : Nat := (s.reg0 (0x1200 + 8 * i)).toNat

/-- Samples of consecutive sensors taken. -/
def takeSamples (xs : List (BitVec 32)) (n : Nat) (m : SMap (BitVec 32)) : SMap (BitVec 32) :=
  ((xs.take n).zipIdx).foldl (fun m x => set 0 x.2 x.1 m) m

/-- Whether a monitor asks for a lower clock (18 R450). -/
def State.tooHot (s : State) : Bool :=
  ((List.range 24).any fun i => decide (s.tempLimit i ≤ (lookD 0 s.mon.temps i).toInt)) ||
  (List.range 12).any fun i => decide ((lookD 0 s.mon.volts i).toNat < s.voltMin i)

/-- Whether every monitor is within its margin (18 R450). -/
def State.calm (s : State) : Bool :=
  ((List.range 24).all fun i => decide ((lookD 0 s.mon.temps i).toInt ≤ s.tempLimit i - 80)) &&
  (List.range 12).all fun i => decide (s.voltMin i + 10 ≤ (lookD 0 s.mon.volts i).toNat)

/-- A step of the core clock (18 R450). -/
def State.clockStep (s : State) : State :=
  if s.tooHot then
    { s with mon := { s.mon with
        calm := none
        mhz := if 1000 < s.mon.mhz then s.mon.mhz - 100 else s.mon.mhz
        throttle := if 1000 < s.mon.mhz then sat32 (s.mon.throttle + 1) else s.mon.throttle } }
  else if s.calm then match s.mon.calm with
    | none => { s with mon := { s.mon with calm := some s.time.now } }
    | some t =>
      if t + 1000000 * 2 ^ 40 ≤ s.time.now then
        { s with mon := { s.mon with calm := some s.time.now, mhz := min 2000 (s.mon.mhz + 100) } }
      else s
  else { s with mon := { s.mon with calm := none } }

/-- The shortest time between two checks of the monitors, 10 us (18 R449). -/
def monitorPeriod : Nat := 10000 * 2 ^ 40

/-- MONITOR_CHECK (18 R449, R450): the sensors' samples, and a step of the clock, 10 µs after the last check. -/
def execMonitorCheck (temps volts procs : List (BitVec 32)) (s : State) : Out State :=
  .next (if (s.mon.checked.map fun t => decide (s.time.now < t + monitorPeriod)).getD false then s
    else
      { s with mon := { s.mon with
          temps := takeSamples temps 24 s.mon.temps, volts := takeSamples volts 12 s.mon.volts
          procs := takeSamples procs 8 s.mon.procs, checked := some s.time.now } }.clockStep)

-- THE CONTEXT TABLE

/-- The fixed fields of an entry (15 R381). -/
def ctxFixedOf (b : List Byte) : CtxFixed :=
  { asid := numAt b 0 2, root := numAt b 8 8, launchBase := numAt b 0x10 8, saveBase := numAt b 0x30 8
    slotSize := numAt b 0x38 4, slotCount := numAt b 0x3C 4, evBase := numAt b 0x50 8, evSize := numAt b 0x58 1
    freeBase := numAt b 0x60 8, freeSize := numAt b 0x68 1, dedupBase := numAt b 0x78 8, dedupBits := numAt b 0x80 1 }

/-- The other fields of an entry (15 R381, 16 R386). -/
def ctxVarOf (b : List Byte) : CtxVar :=
  { quota := numAt b 2 1, lock := (numAt b 3 1).testBit 0, ceiling := bits (numAt b 3 1) 1 2, pendQuota := numAt b 4 2
    trapvec := word (numAt b 0x18 8), trapstk := word (numAt b 0x20 8), watchdog := numAt b 0x28 4
    carve := numAt b 0x2C 1, dbgdef := BitVec.ofNat 3 (numAt b 0x2D 1), stackBase := numAt b 0x40 8
    stackSize := numAt b 0x48 8, lowMark := numAt b 0x6A 2, layoutBase := numAt b 0x70 8, texBase := numAt b 0x88 8
    sampBase := numAt b 0x90 8, hitBase := numAt b 0x98 8, texCount := numAt b 0xA0 4, sampCount := numAt b 0xA4 2
    hitCount := numAt b 0xA6 2 }

/-- Whether the fixed fields keep the table (15 R381). -/
def fixedOk (f : CtxFixed) : Bool :=
  f.root % 32768 == 0 && f.launchBase % 16384 == 0 && f.saveBase % 65536 == 0 && decide (1 ≤ f.slotSize) &&
  f.evBase % 4096 == 0 && decide (6 ≤ f.evSize ∧ f.evSize ≤ 16) && f.freeBase % 4096 == 0 &&
  decide (8 ≤ f.freeSize ∧ f.freeSize ≤ 16) && f.dedupBase % 64 == 0 &&
  (f.dedupBits == 0 || decide (8 ≤ f.dedupBits ∧ f.dedupBits ≤ 24)) &&
  [f.root, f.launchBase, f.saveBase, f.freeBase, f.dedupBase].all fun a => decide (a < 2 ^ 52)

/-- Whether the other fields keep the table, with the capacity of the free-page queue (15 R381, 16 R386); reserved bytes
read as zero (00 R4). -/
def varOk (b : List Byte) (freeSize : Nat) : Bool :=
  let v := ctxVarOf b
  decide (v.quota ≤ 72) && decide (numAt b 3 1 < 8) && decide (v.ceiling ≤ 2) && decide (v.pendQuota ≤ 4096) &&
  decide (v.carve ≤ 8) && decide (numAt b 0x2D 1 < 8) && v.stackBase % 4096 == 0 && v.stackSize % 4096 == 0 &&
  decide (v.lowMark ≤ 2 ^ freeSize) && v.layoutBase % 128 == 0 && v.texBase % 32 == 0 && v.sampBase % 16 == 0 &&
  v.hitBase % 16 == 0 && decide (v.texCount ≤ 2 ^ 20) && decide (v.sampCount ≤ 4096)

/-- A write of CTXUPD (15 R382): the entry is read whole where the quota turns from 0, else its other fields; one that
breaks the table is refused with a device event. -/
def State.ctxupd (s : State) (ctx : Nat) : State :=
  match s.ctxEntry ctx with
  | none => s
  | some a =>
    if 512 ≤ ctx ∨ (s.ctx ctx).resetting then s
    else
      let r := s.homeRead a 256 none
      let b := r.2.1
      let c := s.ctx ctx
      let v := ctxVarOf b
      let turn := !c.enabled && v.quota != 0
      let fix := if turn then ctxFixedOf b else c.fix
      if r.2.2 = [] ∧ varOk b fix.freeSize ∧ (!turn ∨ fixedOk fix) then
        (r.1.modRuns ctx fun x => { x with var := some (x.var.getD c.var) }).modCtx ctx fun c =>
          { c with enabled := v.quota != 0, fix := fix, var := v }
      else r.1.postDev { kind := 18, extra := word ctx }

/-- CTXUPD (15 R382). -/
def execCtxupd (ctx : Nat) (s : State) : Out State := .next (if s.boot.recovery then s else s.ctxupd ctx)

/-- CTXBASE written (19 R453): 128 KiB aligned, its table below 384 GiB; 0 leaves no context enabled. -/
def State.setCtxBase (s : State) (n : Nat) : State :=
  if n % 2 ^ 17 ≠ 0 ∨ memEnd < n + 2 ^ 17 then s
  else
    let s := s.setReg0 0 n
    if n = 0 then { s with ctxs := s.ctxs.map fun c => (c.1, { c.2 with enabled := false }) } else s

/-- SCHEDBASE written (19 R453): 32 KiB aligned, its table below 384 GiB. -/
def State.setSchedBase (s : State) (n : Nat) : State :=
  if n % 2 ^ 15 ≠ 0 ∨ memEnd < n + 128 * 132 then s else s.setReg0 8 n

-- A CONTEXT'S REGISTERS

/-- FREEADD (11 R300): a misplaced frame, or one that finds the queue full, is discarded. -/
def State.freeadd (s : State) (ctx pa : Nat) : State :=
  if pa % 4096 ≠ 0 ∨ memEnd ≤ pa then s else (s.addFrame ctx pa).getD s

/-- FREEADD (11 R300). -/
def execFreeadd (ctx : Nat) (pa : Word) (s : State) : Out State :=
  .next (if s.boot.recovery then s else s.freeadd ctx pa.toNat)

/-- A PREEMPT write (11 R302, 19 R454): discarded while busy; the vacate's first step waits for save slots. -/
def State.preempt (s : State) (ctx : Nat) (count : Option Nat) : State :=
  if s.boot.recovery ∨ (s.ctx ctx).preempting ∨ (s.ctx ctx).resetting ∨
      (count.map fun n => decide (n = 0 ∨ 72 < n)).getD false then s
  else
    let v : Vacate := { cores := [], wgs := [], host := some ctx, count := count }
    { s.modCtx ctx fun c => { c with preempting := true } with
      order := s.order + 1, vacates := ins s.order v s.vacates }

/-- PREEMPT_N (11 R302). -/
def execPreemptN (ctx n : Nat) (s : State) : Out State := .next (s.preempt ctx (some n))

/-- PREEMPT_ALL (11 R302). -/
def execPreemptAll (ctx : Nat) (s : State) : Out State := .next (s.preempt ctx none)

/-- EVRD written (19 R454): a value ahead of EVWR is discarded. -/
def State.setEvrd (s : State) (ctx v : Nat) : State :=
  let q := (s.ctx ctx).ev
  if inRing q.wr q.rd < inRing v q.rd then s
  else s.modCtx ctx fun c => { c with ev := { c.ev with rd := v } }

/-- EVRD_WRITE (19 R454). -/
def execEvrdWrite (ctx : Nat) (value : Word) (s : State) : Out State :=
  .next (if s.boot.recovery then s else s.setEvrd ctx (bits value.toNat 0 32))

/-- An error-counter pair of a context, or a device counter, written: a half of zero clears its counter (19 R454). -/
def State.clearCounters (s : State) (off v : Nat) : State :=
  if 0x800000 ≤ off ∧ off < 0x800000 + 8 * 23 ∧ off % 8 = 0 then
    (if bits v 0 32 = 0 then { s with errors := del ((off - 0x800000) / 8) s.errors } else s)
  else if 0x100000 ≤ off ∧ off < 0x300000 ∧ 0x100 ≤ off % 0x1000 ∧ off % 0x1000 < 0x160 ∧ off % 8 = 0 then
    let i := 2 * ((off % 0x1000 - 0x100) / 8)
    let drop (c : Context) (i half : Nat) : Context := if half = 0 then { c with errors := del i c.errors } else c
    s.modCtx ((off - 0x100000) / 0x1000) fun c => drop (drop c i (bits v 0 32)) (i + 1) (bits v 32 32)
  else s

/-- ERROR_COUNTER_CLEAR (19 R454, 18 R448). -/
def execErrorCounterClear (off : Nat) (value : Word) (s : State) : Out State :=
  .next (if s.boot.recovery then s else s.clearCounters off value.toNat)

/-- A context reset starts (19 R460): the context's schedules stop, and a vacate of the cores that hold its workgroups
kills them. Where one is already being vacated, the kill takes it over. -/
def State.ctxreset (s : State) (ctx : Nat) : State :=
  if s.boot.recovery ∨ 512 ≤ ctx ∨ (s.ctx ctx).resetting then s
  else
    let s := (s.sched.filter fun p => p.2.ctx == ctx).foldl (fun s p => s.schedStop p.1) s
    let wgs := (s.wgs.filter fun p => p.2.ctx == ctx).map (·.1)
    let drop (p : Nat × Vacate) : Nat × Vacate := (p.1, { p.2 with wgs := dropAll wgs p.2.wgs })
    let s := { s with vacates := s.vacates.map drop }
    (s.modCtx ctx fun c => { c with resetting := true }).vacate
      { cores := [], wgs := [], host := some ctx, kill := true } wgs

/-- CTXRESET (19 R454, R460). -/
def execCtxreset (ctx : Nat) (s : State) : Out State := .next (s.ctxreset ctx)

/-- A write in a context's block of window 0 (19 R454). -/
def State.writeCtx (s : State) (ctx r : Nat) (v : Nat) : State :=
  match r with
  | 0x00 => s.ctxWrite ctx 0x200 v
  | 0x08 => s.ctxWrite ctx 0x201 v
  | 0x10 => s.ctxWrite ctx 0x202 v
  | 0x18 => s.ctxWrite ctx 0x204 v
  | 0x48 => s.setEvrd ctx (bits v 0 32)
  | 0x50 => s.faultres ctx (bits v 0 63) (v.testBit 63)
  | 0x58 => s.freeadd ctx v
  | 0x60 => s.preempt ctx (if v.testBit 63 then none else some (bits v 0 7))
  | 0x68 => if v = 1 then s.ctxreset ctx else s
  | 0x70 => if v = 0 then s.modCtx ctx fun c => { c with ev := { c.ev with lost := 0 } } else s
  | _ => s.clearCounters (0x100000 + 0x1000 * ctx + r) v

-- A SKEIN'S REGISTERS

/-- A write of DBGRES by the host (04 R91, R104). -/
def State.hostDbgres (s : State) (core slot action : Nat) (mask : BitVec 32) : State :=
  if s.boot.recovery then s else s.dbgres core slot action mask

/-- DBGRES_CONTINUE (04 R104). -/
def execDbgresContinue (core slot : Nat) (mask : BitVec 32) (s : State) : Out State := .next (s.hostDbgres core slot 0 mask)

/-- DBGRES_STEP (04 R108). -/
def execDbgresStep (core slot : Nat) (mask : BitVec 32) (s : State) : Out State := .next (s.hostDbgres core slot 1 mask)

/-- DBGRES_CONTINUE_AFTER (04 R104). -/
def execDbgresContinueAfter (core slot : Nat) (mask : BitVec 32) (s : State) : Out State :=
  .next (s.hostDbgres core slot 2 mask)

/-- DBGRES_KILL (04 R104, R110). -/
def execDbgresKill (core slot : Nat) (mask : BitVec 32) (s : State) : Out State := .next (s.hostDbgres core slot 3 mask)

-- DEVICE CONTROL

/-- DEVQBASE or DEVQCTL written (19 R453): both empty the ring, DEVQCTL where its size changes; a write of zero clears the
count of lost events. -/
def State.setDevq (s : State) (off v : Nat) : State :=
  let q := s.devq
  if off = 0x50 then { s with devq := { q with base := v / 4096 * 4096, wr := 0, rd := 0 } }
  else if off = 0x58 then
    let n := bits v 0 5
    if n ≠ 0 ∧ ¬ (6 ≤ n ∧ n ≤ 16) then s
    else
      let q := if bits v 32 32 = 0 then { q with lost := 0 } else q
      { s with devq := if n = q.size then q else { q with size := n, wr := 0, rd := 0 } }
  else s

/-- DEVQ_CONFIG_WRITE (19 R453). -/
def execDevqConfigWrite (off : Nat) (value : Word) (s : State) : Out State :=
  .next (if s.boot.recovery then s else s.setDevq off value.toNat)

/-- DEVQRD written (19 R453): a value ahead of the write index is discarded. -/
def State.setDevqrd (s : State) (v : Nat) : State :=
  let q := s.devq
  if inRing q.wr q.rd < inRing v q.rd then s else { s with devq := { q with rd := v } }

/-- DEVQRD_WRITE (19 R453). -/
def execDevqrdWrite (value : Word) (s : State) : Out State :=
  .next (if s.boot.recovery then s else s.setDevqrd (bits value.toNat 0 32))

/-- TLBINV word 1 written (19 R455): the invalidation starts. Until it ends, a core may still use an entry or have dropped
it, which is the free choice of log entry 7. -/
def State.tlbinv (s : State) (w1 : Nat) : State :=
  { s with tlbInv := s.tlbInv ++
      [(bits w1 0 16, (s.reg0 0x40).toNat, 4096 * bits w1 16 32, w1.testBit 63)] }

/-- TLBINV (19 R455). -/
def execTlbinv (word1 : Word) (s : State) : Out State := .next (if s.boot.recovery then s else s.tlbinv word1.toNat)

/-- TLB_INVALIDATION_END (19 R455): the entries are gone in every core. -/
def execTlbInvalidationEnd (s : State) : Out State :=
  .next { s.tlbInv.foldl (fun s x => s.dropTlb x.1 x.2.1 x.2.2.1 x.2.2.2) s with tlbInv := [] }

/-- The encoder partition written (07 R189): 0 to 8 ways, and only while no encode session is open. -/
def State.setEncways (s : State) (v : Nat) : State :=
  if 8 < v ∨ (s.sched.any fun p => decide (4 ≤ p.1)) ∨ s.engines ≠ [] then s else s.setReg0 0x30 v

/-- ENCODER_PARTITION_WRITE (07 R189). -/
def execEncoderPartitionWrite (value : Word) (s : State) : Out State :=
  .next (if s.boot.recovery then s else s.setEncways value.toNat)

/-- A word of SCHEDEN written: each bit that differs enables or disables its entry (15 R384). -/
def State.setScheden (s : State) (w v : Nat) : State :=
  (List.range 64).foldl (fun s b =>
    let j := 64 * w + b
    if 132 ≤ j ∨ v.testBit b = (look s.sched j).isSome then s
    else if v.testBit b then s.after (execScheduleEnable j s)
    else s.after (execScheduleDisable j s)) s

/-- A write of device control (19 R452, R453). RESET is the row CONVENTIONAL_RESET. -/
def State.writeDevice (s : State) (off v : Nat) : State :=
  match off with
  | 0x00 => s.setCtxBase v
  | 0x08 => s.setSchedBase v
  | 0x10 => s.setScheden 0 v
  | 0x18 => s.setScheden 1 v
  | 0x20 => s.setScheden 2 v
  | 0x28 => s.ctxupd v
  | 0x30 => s.setEncways v
  | 0x38 => if memEnd ≤ bits v 30 22 * 2 ^ 30 then s else s.setReg0 0x38 (bits v 30 22 * 2 ^ 30)
  | 0x40 => s.setReg0 0x40 (bits v 12 40 * 4096)
  | 0x48 => s.tlbinv v
  | 0x68 => s.setDevqrd (bits v 0 32)
  | _ => s.setDevq off v

/-- A write of the time and ring block (19 R498). -/
def State.writeTime (s : State) (off v : Nat) : State :=
  match off with
  | 0x1010 => { s with time := { s.time with set0 := word v } }
  | 0x1018 => { s with time := s.time.put v }
  | 0x1020 => { s with time := s.time.shift (sgn 64 v) }
  | 0x1028 => { s with time := { s.time with rate := BitVec.ofNat 32 v } }
  | 0x1080 => s.ringctl (word v)
  | 0x1088 => s.modRing fun r => { r with hold := bits v 0 32 }
  | 0x1090 => s.after (execRingnextWrite (word v) s)
  | _ =>
    if 0x1100 ≤ off ∧ off < 0x1100 + 8 * 24 then { s with w0 := set 1680 off (word (bits v 0 32)) s.w0 }
    else if 0x1200 ≤ off ∧ off < 0x1200 + 8 * 12 then s.setReg0 off (bits v 0 32)
    else s

/-- A word of the MSI-X table written: a vector that is unmasked while it is pending is sent (19 R458). -/
def State.writeMsix (s : State) (j v : Nat) : State :=
  let s := { s with msix := { s.msix with
    table := set (if j % 2 = 1 then 0x100000000 else 0) j (word v) s.msix.table } }
  if j % 2 = 1 ∧ !v.testBit 32 ∧ s.msix.pending.contains (j / 2) then
    { s with msix := { s.msix with pending := dropFrom (j / 2) s.msix.pending } }.msi (j / 2)
  else s

/-- A word of a region descriptor written (12 R322): discarded while its consumer's entry is enabled. -/
def State.writeRegion (s : State) (off v : Nat) : State :=
  let j := (off - 0x21000) / 16
  if (look s.sched j).isSome then s
  else if off % 16 = 0 then s.setReg0 off (bits v 63 1 * 2 ^ 63 + bits v 48 7 * 2 ^ 48 + bits v 0 26)
  else s.setReg0 off (bits v 32 24 * 2 ^ 32 + bits v 0 24)

/-- A write of a skein's registers (19 R452, 04 R91): one to an empty slot is discarded. -/
def State.writeSkein (s : State) (core slot r v : Nat) : State :=
  match r with
  | 0 => s.modSkein core slot fun k => k.writeDbg 0x100 v
  | 8 => s.dbgres core slot (bits v 32 2) (BitVec.ofNat 32 v)
  | _ => s

/-- An aligned 8-byte write to window 0 (19 R452): every other access, and an offset that is not allocated, is discarded. -/
def State.writeReg (s : State) (off v : Nat) : State :=
  if s.boot.recovery ∨ off % 8 ≠ 0 then s
  else if off < 0x1000 then s.writeDevice off v
  else if off < 0x2000 then s.writeTime off v
  else if 0x10000 ≤ off ∧ off < 0x10000 + 16 * 65 then s.writeMsix ((off - 0x10000) / 8) v
  else if 0x20000 ≤ off ∧ off < 0x20400 then (if off % 256 < 16 then s.setReg0 off v else s)
  else if 0x21000 ≤ off ∧ off < 0x21000 + 16 * 132 then s.writeRegion off v
  else if 0x100000 ≤ off ∧ off < 0x300000 then s.writeCtx ((off - 0x100000) / 0x1000) (off % 0x1000) v
  else if 0x400000 ≤ off ∧ off < 0x400000 + 0x8000 * 72 then
    s.writeSkein ((off - 0x400000) / 0x8000) (off % 0x8000 / 32) (off % 32) v
  else s.clearCounters off v

/-- REGISTER_WRITE (19 R452). -/
def execRegisterWrite (off : Nat) (value : Word) (s : State) : Out State := .next (s.writeReg off value.toNat)

/-- DISPLAYPORT_LINK_TRAINING (19 R463, 15 R384): a head's link is trained, or is lost. -/
def execDisplayportLinkTraining (head : Nat) (link : Option DpLink) (s : State) : Out State :=
  .next (if 4 ≤ head then s
    else { s with links := match link with
      | none => del head s.links
      | some l => ins head l s.links })

-- READS

/-- RINGCTL, RINGNEXT and RINGSTAT as they read (13 R331). -/
def Ring.reads (r : Ring) (off : Nat) : Nat :=
  match off with
  | 0x1080 => r.owner * 16 + r.rate * 2 + r.enable.toNat
  | 0x1088 => r.hold
  | 0x1090 => r.pending.toNat * 2 ^ 63 + r.base * 4096 + r.layers
  | _ => r.error.toNat * 2 ^ 63 + r.holding.isSome.toNat * 2 ^ 62 + r.running.toNat * 2 ^ 61 + r.pick * 2 ^ 32 +
      r.tile * 4096 + r.layer

/-- A read of device control (19 R452, R453). -/
def State.readDevice (s : State) (off : Nat) : Nat :=
  let on (w : Nat) : Nat := ((List.range 64).map fun b => (look s.sched (64 * w + b)).isSome.toNat * 2 ^ b).foldl (· + ·) 0
  match off with
  | 0x10 => on 0
  | 0x18 => on 1
  | 0x20 => on 2
  | 0x40 => if s.tlbInv = [] then 0 else 1
  | 0x50 => s.devq.base
  | 0x58 => s.devq.lost * 2 ^ 32 + s.devq.size
  | 0x60 => s.devq.wr
  | 0x68 => s.devq.rd
  | 0x78 => s.boot.version.toNat * 2 ^ 16 + s.boot.failed * 256 + s.boot.recovery.toNat * 4 + s.boot.verified.toNat * 2 +
      s.boot.ready.toNat
  | _ => if off = 0 ∨ off = 8 ∨ off = 0x30 ∨ off = 0x38 then (s.reg0 off).toNat else 0

/-- A read of the time and ring block (19 R498). -/
def State.readTime (s : State) (off : Nat) : Nat :=
  if off = 0x1000 ∨ off = 0x1008 then timeWord s.time.now ((off - 0x1000) / 8)
  else if off = 0x1028 then s.time.rate.toNat
  else if off = 0x1030 then s.time.valid.toNat
  else if 0x1040 ≤ off ∧ off < 0x1060 then (lookD 0 s.time.ptm ((off - 0x1040) / 8)).toNat
  else if 0x1080 ≤ off ∧ off < 0x10A0 then s.ring.reads off
  else if 0x1100 ≤ off ∧ off < 0x1100 + 8 * 24 then (lookD 1680 s.w0 off).toNat
  else if 0x1200 ≤ off ∧ off < 0x1200 + 8 * 12 then (s.reg0 off).toNat
  else 0

/-- A read in a context's block (19 R454). -/
def State.readCtx (s : State) (ctx r : Nat) : Nat :=
  let c := s.ctx ctx
  match r with
  | 0x00 => c.var.trapvec.toNat
  | 0x08 => c.var.trapstk.toNat
  | 0x10 => c.var.watchdog
  | 0x18 => c.var.dbgdef.toNat
  | 0x20 => c.var.carve
  | 0x40 => c.ev.wr
  | 0x48 => c.ev.rd
  | 0x60 => c.preempting.toNat
  | 0x68 => c.resetting.toNat
  | 0x70 => c.ev.lost
  | _ =>
    if 0x100 ≤ r ∧ r < 0x160 then
      let i := 2 * ((r - 0x100) / 8)
      lookD 0 c.errors i + lookD 0 c.errors (i + 1) * 2 ^ 32
    else 0

/-- A word of an entry of a Heddle call table (15 R380). -/
def State.readHeddle (s : State) (core e w : Nat) : Nat :=
  match look (s.core core).heddle e with
  | none => 0
  | some h => h.word s.cycle w

/-- An aligned 8-byte read of window 0 (19 R452): zero where nothing is allocated; in recovery BOOTSTAT alone answers. -/
def State.readReg (s : State) (off : Nat) : Nat :=
  if off % 8 ≠ 0 ∨ (s.boot.recovery ∧ off ≠ 0x78) then 0
  else if off < 0x1000 then s.readDevice off
  else if off < 0x2000 then s.readTime off
  else if 0x10000 ≤ off ∧ off < 0x10000 + 16 * 65 then (s.msix.word ((off - 0x10000) / 8)).toNat
  else if 0x11000 ≤ off ∧ off < 0x11010 then
    ((s.msix.pending.filter fun g => g / 64 == (off - 0x11000) / 8).map fun g => 2 ^ (g % 64)).foldl (· + ·) 0
  else if 0x20000 ≤ off ∧ off < 0x20400 then (s.reg0 off).toNat
  else if 0x21000 ≤ off ∧ off < 0x21000 + 16 * 132 then (s.reg0 off).toNat
  else if 0x100000 ≤ off ∧ off < 0x300000 then s.readCtx ((off - 0x100000) / 0x1000) (off % 0x1000)
  else if 0x400000 ≤ off ∧ off < 0x400000 + 0x8000 * 72 then
    match s.skein ((off - 0x400000) / 0x8000) (off % 0x8000 / 32) with
    | none => 0
    | some k => match off % 32 with
      | 0 => k.dbgctl.toNat
      | 16 => parkMask k
      | _ => 0
  else if 0x700000 ≤ off ∧ off < 0x700000 + 0x1000 * 72 then
    s.readHeddle ((off - 0x700000) / 0x1000) (off % 0x1000 / 64) (off % 64 / 8)
  else if 0x800000 ≤ off ∧ off < 0x800000 + 8 * 23 then lookD 0 s.errors ((off - 0x800000) / 8)
  else 0

/-- A 16-byte read of window 0 (19 R452, R498, 18 R438, 13 R331): both words at one instant; zero where no rule names one. -/
def State.readReg16 (s : State) (off : Nat) : Nat × Nat :=
  if off = 0x1000 ∨ off = 0x1040 ∨ off = 0x1050 ∨ off = 0x1090 then (s.readReg off, s.readReg (off + 8)) else (0, 0)

/-- A read of a context's launch window (11 R284). -/
def State.readLaunch (s : State) (ctx off : Nat) : Nat :=
  match off with
  | 0x40 => 256 - (s.ctx ctx).lq.length
  | 0x48 => (s.ctx ctx).lastSeq.toNat
  | _ => 0

/-- A 16-byte read of a launch window (11 R284): both registers at one instant. -/
def State.readLaunch16 (s : State) (ctx off : Nat) : Nat × Nat :=
  if off = 0x40 then (s.readLaunch ctx 0x40, s.readLaunch ctx 0x48) else (0, 0)

end Sys2Proof.Machine
end

