-- ==== Sys2Proof/Machine/Integer.lean ====
section
/-! DEFINITION. Integer, predicate and skein-wide instructions (05 R111 to R129). -/

namespace Sys2Proof.Machine

/-- Operand width in bytes, element width in bits and number of elements by sub (05 R111). -/
def intShape (sub : Nat) : Nat × Nat × Nat :=
  match sub with
  | 0 => (4, 32, 1)
  | 1 => (8, 64, 1)
  | 2 => (4, 16, 2)
  | _ => (4, 8, 4)

/-- Element by element over two operands (05 R112). -/
def zipElems (e n : Nat) (f : Nat → Nat → Nat) (a b : Nat) : Nat :=
  joinElems e ((elems e n a).zipWith f (elems e n b))

/-- An operand a and an operand b under the source modifier, combined element by element at latency l (05 R112). -/
def int2 (x : FmtR) (l : Nat) (f : Nat → Nat → Nat → Nat) : LaneOp :=
  let (w, e, n) := intShape x.sub.toNat
  { reads := fun _ => [.reg x.a w, .mod x.b x.mod w (.int e n)]
    dsts := fun _ => [(x.dst, w, 1)]
    lat := some l
    eval := fun t _ => .ok [.reg x.dst w (zipElems e n (f e) (t.val 0) (t.val 1))] }

/-- Operand b under the source modifier, element by element (05 R114). -/
def int1 (x : FmtR) (f : Nat → Nat → Nat) : LaneOp :=
  let (w, e, n) := intShape x.sub.toNat
  { reads := fun _ => [.mod x.b x.mod w (.int e n)]
    dsts := fun _ => [(x.dst, w, 1)]
    lat := some 4
    eval := fun t _ => .ok [.reg x.dst w (joinElems e ((elems e n (t.val 0)).map (f e)))] }

/-- Three operands of one shape (05 R116, R117). -/
def int3 (x : FmtF) (w wc wd l : Nat) (f : Nat → Nat → Nat → Nat) : LaneOp :=
  { reads := fun _ => [.reg x.a w, .reg x.b w, .reg x.c wc]
    dsts := fun _ => [(x.dst, wd, 1)]
    lat := some l
    eval := fun t _ => .ok [.reg x.dst wd (f (t.val 0) (t.val 1) (t.val 2))] }

/-- A 32-bit operand and the immediate (05 R118). -/
def intI (x : FmtI) (l : Nat) (f : Nat → Nat → Nat) : LaneOp :=
  { reads := fun _ => [.reg x.a 4]
    dsts := fun _ => [(x.dst, 4, 1)]
    lat := some l
    eval := fun t _ => .ok [.reg x.dst 4 (f (t.val 0) (sextTo 32 x.imm))] }

/-- Signed saturation at w bits (05 R113). -/
def satInt (w : Nat) (v : Int) : Nat := wrapInt w (clampInt (-(2 ^ (w - 1) : Nat)) ((2 ^ (w - 1) : Nat) - 1) v)

/-- The upper w bits of a product (05 R113). -/
def mulHigh (w : Nat) (p : Int) : Nat := wrapInt w (p / (2 ^ w : Nat))

/-- Rotation left at w bits (05 R113). -/
def rotl (w a k : Nat) : Nat := wrap w (a * 2 ^ k) + a % 2 ^ w / 2 ^ (w - k)

/-- Set bits of the low w bits. -/
def popCount (w a : Nat) : Nat := ((List.range w).filter a.testBit).length

/-- Leading zeros at width w (05 R114). -/
def leadZeros (w a : Nat) : Nat := if a % 2 ^ w = 0 then w else w - 1 - Nat.log2 (a % 2 ^ w)

/-- Bit j moved to bit w - 1 - j (05 R114). -/
def bitReverse (w a : Nat) : Nat :=
  (List.range w).foldl (fun r j => if a.testBit j then r + 2 ^ (w - 1 - j) else r) 0

/-- NOP (05 R120). -/
def execNop (x : FmtR) (s : State) : Out State :=
  .next (s.runLanes (.nop x) x.ctl { lat := some 4, eval := fun _ _ => .ok [] })

/-- ADD (05 R113). -/
def execAdd (x : FmtR) (s : State) : Out State :=
  .next (s.runLanes (.add x) x.ctl (int2 x 4 fun w a b => wrap w (a + b)))

/-- SUB (05 R113). -/
def execSub (x : FmtR) (s : State) : Out State :=
  .next (s.runLanes (.sub x) x.ctl (int2 x 4 fun w a b => wrapInt w ((a : Int) - b)))

/-- ADDS (05 R113). -/
def execAdds (x : FmtR) (s : State) : Out State :=
  .next (s.runLanes (.adds x) x.ctl (int2 x 4 fun w a b => satInt w (sgn w a + sgn w b)))

/-- ADDSN (05 R113). -/
def execAddsn (x : FmtR) (s : State) : Out State :=
  .next (s.runLanes (.addsn x) x.ctl (int2 x 4 fun w a b => min (a + b) (2 ^ w - 1)))

/-- SUBS (05 R113). -/
def execSubs (x : FmtR) (s : State) : Out State :=
  .next (s.runLanes (.subs x) x.ctl (int2 x 4 fun w a b => satInt w (sgn w a - sgn w b)))

/-- SUBSN (05 R113). -/
def execSubsn (x : FmtR) (s : State) : Out State :=
  .next (s.runLanes (.subsn x) x.ctl (int2 x 4 fun _ a b => a - b))

/-- MUL (05 R113). -/
def execMul (x : FmtR) (s : State) : Out State :=
  .next (s.runLanes (.mul x) x.ctl (int2 x 6 fun w a b => wrap w (a * b)))

/-- MULHS (05 R113). -/
def execMulhs (x : FmtR) (s : State) : Out State :=
  .next (s.runLanes (.mulhs x) x.ctl (int2 x 6 fun w a b => mulHigh w (sgn w a * sgn w b)))

/-- MULHN (05 R113). -/
def execMulhn (x : FmtR) (s : State) : Out State :=
  .next (s.runLanes (.mulhn x) x.ctl (int2 x 6 fun w a b => mulHigh w ((a * b : Nat) : Int)))

/-- MINS (05 R113). -/
def execMins (x : FmtR) (s : State) : Out State :=
  .next (s.runLanes (.mins x) x.ctl (int2 x 4 fun w a b => if sgn w b < sgn w a then b else a))

/-- MINN (05 R113). -/
def execMinn (x : FmtR) (s : State) : Out State :=
  .next (s.runLanes (.minn x) x.ctl (int2 x 4 fun _ a b => min a b))

/-- MAXS (05 R113). -/
def execMaxs (x : FmtR) (s : State) : Out State :=
  .next (s.runLanes (.maxs x) x.ctl (int2 x 4 fun w a b => if sgn w a < sgn w b then b else a))

/-- MAXN (05 R113). -/
def execMaxn (x : FmtR) (s : State) : Out State :=
  .next (s.runLanes (.maxn x) x.ctl (int2 x 4 fun _ a b => max a b))

/-- AND (05 R113). -/
def execAnd (x : FmtR) (s : State) : Out State :=
  .next (s.runLanes (.and x) x.ctl (int2 x 4 fun _ a b => Nat.land a b))

/-- OR (05 R113). -/
def execOr (x : FmtR) (s : State) : Out State :=
  .next (s.runLanes (.or x) x.ctl (int2 x 4 fun _ a b => Nat.lor a b))

/-- XOR (05 R113). -/
def execXor (x : FmtR) (s : State) : Out State :=
  .next (s.runLanes (.xor x) x.ctl (int2 x 4 fun _ a b => Nat.xor a b))

/-- ANDN (05 R113). -/
def execAndn (x : FmtR) (s : State) : Out State :=
  .next (s.runLanes (.andn x) x.ctl (int2 x 4 fun w a b => Nat.land a (2 ^ w - 1 - b)))

/-- SHL (05 R113). -/
def execShl (x : FmtR) (s : State) : Out State :=
  .next (s.runLanes (.shl x) x.ctl (int2 x 4 fun w a b => wrap w (a * 2 ^ (b % w))))

/-- SHR (05 R113). -/
def execShr (x : FmtR) (s : State) : Out State :=
  .next (s.runLanes (.shr x) x.ctl (int2 x 4 fun w a b => a / 2 ^ (b % w)))

/-- SAR (05 R113). -/
def execSar (x : FmtR) (s : State) : Out State :=
  .next (s.runLanes (.sar x) x.ctl (int2 x 4 fun w a b => wrapInt w (sgn w a / (2 ^ (b % w) : Nat))))

/-- ROL (05 R113). -/
def execRol (x : FmtR) (s : State) : Out State :=
  .next (s.runLanes (.rol x) x.ctl (int2 x 4 fun w a b => rotl w a (b % w)))

/-- ABS (05 R114). -/
def execAbs (x : FmtR) (s : State) : Out State :=
  .next (s.runLanes (.abs x) x.ctl (int1 x fun w a => wrapInt w ((sgn w a).natAbs : Int)))

/-- NEG (05 R114). -/
def execNeg (x : FmtR) (s : State) : Out State :=
  .next (s.runLanes (.neg x) x.ctl (int1 x fun w a => wrapInt w (-(a : Int))))

/-- POPC (05 R114). -/
def execPopc (x : FmtR) (s : State) : Out State :=
  .next (s.runLanes (.popc x) x.ctl (int1 x fun w a => popCount w a))

/-- CLZ (05 R114). -/
def execClz (x : FmtR) (s : State) : Out State :=
  .next (s.runLanes (.clz x) x.ctl (int1 x fun w a => leadZeros w a))

/-- BREV (05 R114). -/
def execBrev (x : FmtR) (s : State) : Out State :=
  .next (s.runLanes (.brev x) x.ctl (int1 x fun w a => bitReverse w a))

/-- MOV (05 R114). -/
def execMov (x : FmtR) (s : State) : Out State :=
  .next (s.runLanes (.mov x) x.ctl (int1 x fun _ a => a))

/-- ADDP (05 R115): a and dst are 64-bit, b is 32-bit sign-extended, 64-bit, or 32-bit zero-extended by sub. -/
def execAddp (x : FmtR) (s : State) : Out State :=
  let wb := if x.sub = 1 then 8 else 4
  .next (s.runLanes (.addp x) x.ctl
    { reads := fun _ => [.reg x.a 8, .mod x.b x.mod wb (.int (8 * wb) 1)]
      dsts := fun _ => [(x.dst, 8, 1)]
      lat := some 4
      eval := fun t _ => .ok [.reg x.dst 8 (wrap 64 (t.val 0 +
        (if x.sub = 0 then sextNat 64 32 (t.val 1) else t.val 1)))] })

/-- MAD (05 R116). -/
def execMad (x : FmtF) (s : State) : Out State :=
  let (w, e, n) := intShape (fld x.sub 0 2)
  .next (s.runLanes (.mad x) x.ctl (int3 x w w w 6 fun a b c =>
    joinElems e (((elems e n a).zipWith (· * ·) (elems e n b)).zipWith (· + ·) (elems e n c))))

/-- MADW (05 R116): 32-bit factors, signed or natural by sub, and a 64-bit addend. -/
def execMadw (x : FmtF) (s : State) : Out State :=
  .next (s.runLanes (.madw x) x.ctl (int3 x 4 8 8 6 fun a b c =>
    if x.sub = 0 then wrapInt 64 (sgn 32 a * sgn 32 b + c) else wrap 64 (a * b + c)))

/-- A sum over element pairs, added to a 32-bit value (05 R116). -/
def sumElems (x : FmtF) (f : Nat → Nat → Nat → Int) : LaneOp :=
  let (_, e, n) := intShape (fld x.sub 0 2)
  int3 x 4 4 4 6 fun a b c => wrapInt 32 (((elems e n a).zipWith (f e) (elems e n b)).foldl (· + ·) (c : Int))

/-- DOT4S (05 R116). -/
def execDot4s (x : FmtF) (s : State) : Out State :=
  .next (s.runLanes (.dot4s x) x.ctl (sumElems x fun w a b => sgn w a * sgn w b))

/-- DOT4N (05 R116). -/
def execDot4n (x : FmtF) (s : State) : Out State :=
  .next (s.runLanes (.dot4n x) x.ctl (sumElems x fun _ a b => (a * b : Nat)))

/-- SAD (05 R116). -/
def execSad (x : FmtF) (s : State) : Out State :=
  .next (s.runLanes (.sad x) x.ctl (sumElems x fun _ a b => (((a : Int) - b).natAbs : Int)))

/-- The position and length of a bit field, by its control operand (05 R117). -/
def fieldOf (w b : Nat) : Nat × Nat :=
  let pos := bits b 0 8
  (pos, min (bits b 8 8) (w - pos))

/-- BFX (05 R117). -/
def execBfx (x : FmtF) (s : State) : Out State :=
  let (w, e, _) := intShape (fld x.sub 0 2)
  .next (s.runLanes (.bfx x) x.ctl
    { reads := fun _ => [.reg x.a w, .reg x.b w]
      dsts := fun _ => [(x.dst, w, 1)]
      lat := some 4
      eval := fun t _ =>
        let (pos, len) := fieldOf e (t.val 1)
        .ok [.reg x.dst w (bits (t.val 0) pos len)] })

/-- BFXS (05 R117). -/
def execBfxs (x : FmtF) (s : State) : Out State :=
  let (w, e, _) := intShape (fld x.sub 0 2)
  .next (s.runLanes (.bfxs x) x.ctl
    { reads := fun _ => [.reg x.a w, .reg x.b w]
      dsts := fun _ => [(x.dst, w, 1)]
      lat := some 4
      eval := fun t _ =>
        let (pos, len) := fieldOf e (t.val 1)
        .ok [.reg x.dst w (if len = 0 then 0 else sextNat e len (bits (t.val 0) pos len))] })

/-- BFI (05 R117). -/
def execBfi (x : FmtF) (s : State) : Out State :=
  let (w, e, _) := intShape (fld x.sub 0 2)
  .next (s.runLanes (.bfi x) x.ctl (int3 x w w w 4 fun a b c =>
    let (pos, len) := fieldOf e b
    if len = 0 then c else setBits c pos len a))

/-- ADDI (05 R118). -/
def execAddi (x : FmtI) (s : State) : Out State :=
  .next (s.runLanes (.addi x) x.ctl (intI x 4 fun a i => wrap 32 (a + i)))

/-- MULI (05 R118). -/
def execMuli (x : FmtI) (s : State) : Out State :=
  .next (s.runLanes (.muli x) x.ctl (intI x 6 fun a i => wrap 32 (a * i)))

/-- ANDI (05 R118). -/
def execAndi (x : FmtI) (s : State) : Out State :=
  .next (s.runLanes (.andi x) x.ctl (intI x 4 fun a i => Nat.land a i))

/-- ORI (05 R118). -/
def execOri (x : FmtI) (s : State) : Out State :=
  .next (s.runLanes (.ori x) x.ctl (intI x 4 fun a i => Nat.lor a i))

/-- XORI (05 R118). -/
def execXori (x : FmtI) (s : State) : Out State :=
  .next (s.runLanes (.xori x) x.ctl (intI x 4 fun a i => Nat.xor a i))

/-- SHLI (05 R118). -/
def execShli (x : FmtI) (s : State) : Out State :=
  .next (s.runLanes (.shli x) x.ctl (intI x 4 fun a i => wrap 32 (a * 2 ^ (i % 32))))

/-- SHRI (05 R118). -/
def execShri (x : FmtI) (s : State) : Out State :=
  .next (s.runLanes (.shri x) x.ctl (intI x 4 fun a i => a / 2 ^ (i % 32)))

/-- SARI (05 R118). -/
def execSari (x : FmtI) (s : State) : Out State :=
  .next (s.runLanes (.sari x) x.ctl (intI x 4 fun a i => wrapInt 32 (sgn 32 a / (2 ^ (i % 32) : Nat))))

/-- A constant built into the destination; `old` reads it first (05 R119). -/
def constOp (x : FmtI) (w : Nat) (old : Bool) (f : Nat → Nat) : LaneOp :=
  { reads := fun _ => if old then [.reg x.dst w] else []
    dsts := fun _ => [(x.dst, w, 1)]
    lat := some 4
    eval := fun t _ => .ok [.reg x.dst w (f (t.val 0))] }

/-- MOVI (05 R119). -/
def execMovi (x : FmtI) (s : State) : Out State :=
  .next (s.runLanes (.movi x) x.ctl (constOp x 4 false fun _ => sextTo 32 x.imm))

/-- MOVHI (05 R119). -/
def execMovhi (x : FmtI) (s : State) : Out State :=
  .next (s.runLanes (.movhi x) x.ctl (constOp x 4 true fun d => fld x.imm 0 16 * 2 ^ 16 + d % 2 ^ 16))

/-- MOVTI (05 R119): dst[31:0] is read, at W = 8. -/
def execMovti (x : FmtI) (s : State) : Out State :=
  .next (s.runLanes (.movti x) x.ctl (constOp x 8 true fun d => sextTo 32 x.imm * 2 ^ 32 + d % 2 ^ 32))

-- PREDICATES

/-- A comparison of two registers, pushed (05 R121). -/
def cmpOp (x : FmtR) (f : Nat → Nat → Int) : LaneOp :=
  let w := if fld x.mod 3 1 = 1 then 8 else 4
  { reads := fun _ => [.reg x.a w, .reg x.b w]
    lat := some 4
    eval := fun t _ => .ok [.push (condInt (fld x.mod 0 3) (f (8 * w) (t.val 0)) (f (8 * w) (t.val 1)))] }

/-- CMPS (05 R121). -/
def execCmps (x : FmtR) (s : State) : Out State :=
  .next (s.runLanes (.cmps x) x.ctl (cmpOp x sgn))

/-- CMPN (05 R121). -/
def execCmpn (x : FmtR) (s : State) : Out State :=
  .next (s.runLanes (.cmpn x) x.ctl (cmpOp x fun _ a => (a : Int)))

/-- CMPSI (05 R122). -/
def execCmpsi (x : FmtI) (s : State) : Out State :=
  .next (s.runLanes (.cmpsi x) x.ctl
    { reads := fun _ => [.reg x.a 4], lat := some 4
      eval := fun t _ => .ok [.push (condInt (fld x.dst 0 3) (sgn 32 (t.val 0)) (sgn 24 x.imm.toNat))] })

/-- CMPNI (05 R122). -/
def execCmpni (x : FmtI) (s : State) : Out State :=
  .next (s.runLanes (.cmpni x) x.ctl
    { reads := fun _ => [.reg x.a 4], lat := some 4
      eval := fun t _ => .ok [.push (condInt (fld x.dst 0 3) (t.val 0) x.imm.toNat)] })

/-- Two predicates, each inverted on request, combined and pushed (05 R123). -/
def predOp (x : FmtR) (f : Bool → Bool → Bool) : LaneOp :=
  { readsPred := true, lat := some 4
    eval := fun t _ => .ok [.push (f (predAt t.pred (fld x.a 0 3) (x.sub.getLsbD 0))
                                     (predAt t.pred (fld x.b 0 3) (x.sub.getLsbD 1)))] }

/-- PAND (05 R123). -/
def execPand (x : FmtR) (s : State) : Out State := .next (s.runLanes (.pand x) x.ctl (predOp x (· && ·)))

/-- POR (05 R123). -/
def execPor (x : FmtR) (s : State) : Out State := .next (s.runLanes (.por x) x.ctl (predOp x (· || ·)))

/-- PXOR (05 R123). -/
def execPxor (x : FmtR) (s : State) : Out State := .next (s.runLanes (.pxor x) x.ctl (predOp x xor))

/-- PNOT (05 R123). -/
def execPnot (x : FmtR) (s : State) : Out State :=
  .next (s.runLanes (.pnot x) x.ctl
    { readsPred := true, lat := some 4, eval := fun t _ => .ok [.push (predAt t.pred (fld x.a 0 3) true)] })

/-- PPOP (05 R123). -/
def execPpop (x : FmtR) (s : State) : Out State :=
  .next (s.runLanes (.ppop x) x.ctl { lat := some 4, eval := fun _ _ => .ok [.pop (fld x.a 0 3 + 1)] })

/-- PPUSH (05 R123). -/
def execPpush (x : FmtR) (s : State) : Out State :=
  .next (s.runLanes (.ppush x) x.ctl
    { reads := fun _ => [.reg x.b (if x.sub = 0 then 4 else 8)], lat := some 4
      eval := fun t _ => .ok [.push (t.val 0 != 0)] })

/-- PMOV.get (05 R123). -/
def execPmovGet (x : FmtR) (s : State) : Out State :=
  .next (s.runLanes (.pmovGet x) x.ctl
    { dsts := fun _ => [(x.dst, 4, 1)], readsPred := true, lat := some 4
      eval := fun t _ => .ok [.reg x.dst 4 t.pred.toNat] })

/-- PMOV.set (05 R123). -/
def execPmovSet (x : FmtR) (s : State) : Out State :=
  .next (s.runLanes (.pmovSet x) x.ctl
    { reads := fun _ => [.reg x.b 4], lat := some 4
      eval := fun t _ => .ok [.setPred (BitVec.ofNat 8 (t.val 0))] })

/-- SEL (05 R124). -/
def execSel (x : FmtR) (s : State) : Out State :=
  let op := int2 x 4 fun _ a _ => a
  let w := (intShape x.sub.toNat).1
  .next (s.runLanes (.sel x) x.ctl
    { op with readsPred := true
              eval := fun t _ => .ok [.reg x.dst w (if t.pred.getLsbD 0 then t.val 0 else t.val 1)] })

-- SKEIN-WIDE

/-- The mask of the participants that satisfy a test (05 R126, R129). -/
def ballot (peers : List LaneIn) (f : LaneIn → Bool) : Nat :=
  peers.foldl (fun m t => if f t then m + 2 ^ t.lane else m) 0

/-- VOTE (05 R126). -/
def execVote (x : FmtR) (s : State) : Out State :=
  let px (t : LaneIn) : Bool := t.pred.getLsbD (fld x.a 0 3)
  .next (s.runLanes (.vote x) x.ctl
    { dsts := fun _ => if x.sub = 2 then [(x.dst, 4, 1)] else []
      readsPred := true, lat := some 8
      eval := fun t peers => .ok [match x.sub.toNat with
        | 0 => .push (peers.all px)
        | 1 => .push (peers.any px)
        | 2 => .reg x.dst 4 (ballot peers px)
        | _ => .push (peers.all fun u => px u == px t)] })

/-- PERM (05 R127). -/
def execPerm (x : FmtR) (s : State) : Out State :=
  let w := if x.sub = 0 then 4 else 8
  .next (s.runLanes (.perm x) x.ctl
    { reads := fun _ => [.perm x.b x.a w], dsts := fun _ => [(x.dst, w, 1)], lat := some 8
      eval := fun t _ => .ok [.reg x.dst w (t.val 0)] })

/-- The operations of SCAN and RDUC at width w, with their identities (05 R128). -/
def scanOp (code w : Nat) : (Nat → Nat → Nat) × Nat :=
  match code with
  | 0 => (fun a b => wrap w (a + b), 0)
  | 1 => (fun a b => if sgn w b < sgn w a then b else a, 2 ^ (w - 1) - 1)
  | 2 => (min, 2 ^ w - 1)
  | 3 => (fun a b => if sgn w a < sgn w b then b else a, 2 ^ (w - 1))
  | 4 => (max, 0)
  | 5 => (Nat.land, 2 ^ w - 1)
  | 6 => (Nat.lor, 0)
  | _ => (Nat.xor, 0)

/-- The combination of the participants' values up to a thread, itself included on request (05 R128). -/
def scanTo (f : Nat → Nat → Nat) (e : Nat) (peers : List LaneIn) (lane : Nat) (incl : Bool) : Nat :=
  (peers.filter fun t => decide (t.lane < lane) || (incl && t.lane == lane)).foldl (fun a t => f a (t.val 0)) e

/-- SCAN (05 R128). -/
def execScan (x : FmtR) (s : State) : Out State :=
  let w := if x.sub = 0 then 4 else 8
  let (f, e) := scanOp (fld x.a 0 3) (8 * w)
  .next (s.runLanes (.scan x) x.ctl
    { reads := fun _ => [.reg x.b w], dsts := fun _ => [(x.dst, w, 1)], lat := some 8
      eval := fun t peers => .ok [.reg x.dst w (scanTo f e peers t.lane (fld x.a 3 1 == 0))] })

/-- RDUC (05 R128). -/
def execRduc (x : FmtR) (s : State) : Out State :=
  let w := if x.sub = 0 then 4 else 8
  let (f, e) := scanOp (fld x.a 0 3) (8 * w)
  .next (s.runLanes (.rduc x) x.ctl
    { reads := fun _ => [.reg x.b w], dsts := fun _ => [(x.dst, w, 1)], lat := some 8
      eval := fun _ peers => .ok [.reg x.dst w (scanTo f e peers 32 false)] })

/-- MATCH (05 R129). -/
def execMatchMask (x : FmtR) (s : State) : Out State :=
  let w := if x.sub = 0 then 4 else 8
  .next (s.runLanes (.matchMask x) x.ctl
    { reads := fun _ => [.reg x.b w], dsts := fun _ => [(x.dst, 4, 1)], lat := some 8
      eval := fun t peers => .ok [.reg x.dst 4 (ballot peers fun u => u.val 0 == t.val 0)] })

end Sys2Proof.Machine
end

