-- ==== Sys2Proof/Machine/Resets.lean ====
section
/-! DEFINITION. The end of a vacate and of a context reset, the other resets and power (11 R302, 19 R459, R460, 01 R31),
start-up and attestation (19 R461, R462), and the aperture of window 4 (19 R456). -/

namespace Sys2Proof.Machine

-- THE CONTEXT RESET

/-- A grid discarded by a reset: its chain's cores go back, and its slot is freed (19 R459). -/
def State.killGrid (s : State) (key : Nat) (g : Grid) : State :=
  let s := { s with grids := del key s.grids, reserved := s.reserved.filter fun p => p.2 != key }
  match g.strip with
  | none => s
  | some t => (if s.slotTag t.out = t.tag then s.freeAt t.out else s).sweepLow t.entry

/-- The fixed fields reread (15 R382); those kept where no table is given. -/
def State.rereadFixed (s : State) (ctx : Nat) : CtxFixed :=
  match s.ctxEntry ctx with
  | none => (s.ctx ctx).fix
  | some a => ctxFixedOf (s.homeRead a 256 none).2.1

/-- The end of a context reset (19 R459, R460): the context's TLB entries, grids, pending launches, saved workgroups,
encode jobs and registers are gone; the ring is disabled if it is the context's; it stays disabled until CTXUPD. -/
def State.resetEnd (s : State) (ctx : Nat) : State :=
  let s := s.dropTlb (s.ctx ctx).fix.asid 0 0 true
  let s := (s.grids.filter fun g => g.2.ctx == ctx).foldl (fun s g => s.killGrid g.1 g.2) s
  let s : State := { s with
    pending := s.pending.filter fun p => p.ctx != ctx
    saved := s.saved.filter fun p => p.2.wg.ctx != ctx
    vacates := s.vacates.filter fun v => v.2.host != some ctx
    engines := s.engines.filter fun e => e.2.sched.ctx != ctx }
  let s : State := if s.ring.owner = ctx ∧ s.ring.enable then s.ringctl (word (s.ring.owner * 16 + s.ring.rate * 2)) else s
  let fix := s.rereadFixed ctx
  s.modCtx ctx fun _ => { fix := fix }

/-- VACATE_END (11 R302, R304, 19 R460): once its images are written and the vacates that it joined have ended. -/
def execVacateEnd (req : Nat) (s : State) : Out State :=
  .next (match look s.vacates req with
    | none => s
    | some v =>
      if !v.saved || v.after.any fun a => (look s.vacates a).isSome then s
      else if v.kill then match v.host with
        | none => s
        | some ctx => { s with vacates := del req s.vacates }.resetEnd ctx
      else s.vacateDone req v)

-- THE OTHER RESETS

/-- What lies outside the module, and the model's own counters (log entries 1 and 2). -/
def State.outside (s t : State) : State :=
  { t with mem := { t.mem with host := s.mem.host, peer := s.mem.peer, denied := s.mem.denied }, agenda := s.agenda, out := s.out
           cycle := s.cycle, free := s.free, order := s.order }

/-- FUNCTION_LEVEL_RESET (19 R459, R453): Nirsirum, the time counter and LPDDR 6 are kept (log entry 8), as are the
monitors and trained links; everything else is at its reset value. -/
def execFunctionLevelReset (s : State) : Out State :=
  .next { s.outside { boot := s.boot, time := s.time, mon := s.mon, links := s.links } with
    mem := { bytes := s.mem.bytes, host := s.mem.host, peer := s.mem.peer, denied := s.mem.denied } }

/-- MODULE_POWER_LOSS (01 R31): no state is retained. -/
def execModulePowerLoss (s : State) : Out State := .next (s.outside { power := false })

-- START-UP

/-- A digest's bytes, most significant first. -/
def digestBytes (d : BitVec 384) : List Byte := (toBytes 48 d.toNat).reverse

/-- What the signatures of an image cover (19 R461). -/
def signedPart (x : Image) : List Byte :=
  Config.headerBytes x.magic x.version x.size x.digest ++ x.edKey ++ x.mlKey ++ x.payload

/-- The step of 19 R461 at which an image fails, 0 where it passes. -/
def bootStep (x : Image) : Nat :=
  if x.magic ≠ Config.imageMagic ∨ x.edKey.length ≠ 32 ∨ x.mlKey.length ≠ 1952 ∨ x.edSig.length ≠ 64 ∨
      x.mlSig.length ≠ 3309 ∨ x.size ≠ x.payload.length ∨ x.digest ≠ Config.sha384 x.payload then 1
  else if Config.sha384 x.edKey ≠ Config.fusedHash false ∨ Config.sha384 x.mlKey ≠ Config.fusedHash true ∨
      x.version.toNat < Config.fusedVersion.toNat then 2
  else if Config.ed25519Verify x.edKey (signedPart x) x.edSig && Config.mldsaVerify x.mlKey (signedPart x) x.mlSig then 0
  else 3

/-- A measurement register extended (19 R461). -/
def extendReg (m : SMap (BitVec 384)) (i : Nat) (d : BitVec 384) : SMap (BitVec 384) :=
  set 0 i (Config.sha384 (digestBytes (lookD 0 m i) ++ digestBytes d)) m

/-- The measurement registers after step 4 of 19 R461. -/
def measured (m : SMap (BitVec 384)) (x : Image) : SMap (BitVec 384) :=
  [1, 2, 3].foldl (fun m i => extendReg m i (Config.sha384 (Config.microcode x.payload i))) (extendReg m 0 x.digest)

/-- First samples of the monitors (18 R449): free values. -/
def State.firstSamples (s : State) : State :=
  let f (n : Nat) (at_ : Nat) : SMap (BitVec 32) := takeSamples ((List.range n).map fun i =>
    (Config.freeWord (at_ + i)).setWidth 32) n []
  { s with mon := { s.mon with temps := f 24 s.free, volts := f 12 (s.free + 24), procs := f 8 (s.free + 36) }
           free := s.free + 44 }

/-- Start-up with an image (19 R461): ready, or in recovery. -/
def State.bootWith (s : State) (x : Image) : State :=
  match bootStep x with
  | 0 => { s with boot := { ready := true, verified := true, version := x.version
                            measures := measured s.boot.measures x } }.firstSamples
  | n => { s with boot := { s.boot with ready := false, verified := false, recovery := true, failed := n, version := 0 } }

/-- CONVENTIONAL_RESET (19 R459, R461): power-up or a RESET write; the image is what the module's flash holds. -/
def execConventionalReset (image : Image) (s : State) : Out State := .next ((s.outside State.reset).bootWith image)

/-- MAILBOX_IMAGE (19 R461): in recovery a good image starts the device; one that fails posts a security event and changes
nothing. -/
def execMailboxImage (image : Image) (s : State) : Out State :=
  .next (if bootStep image ≠ 0 then s.postDev { kind := 20 }
    else if s.boot.recovery then s.bootWith image
    else s)

-- ATTESTATION

/-- An answer sent over Data Object Exchange. -/
def State.reply (s : State) (bs : List Byte) : State := { s with out := s.out ++ [.report bs] }

/-- The nonce and the eight measurement registers with both signatures over them (19 R462). -/
def State.report (s : State) (nonce : List Byte) : List Byte :=
  let body := nonce ++ (List.range 8).flatMap fun i => digestBytes (lookD 0 s.boot.measures i)
  body ++ Config.identitySign false body ++ Config.identitySign true body

/-- GET_VERSION (19 R462). -/
def execGetVersion (s : State) : Out State := .next (s.reply (Config.spdmReply 0 []))

/-- GET_CAPABILITIES (19 R462). -/
def execGetCapabilities (s : State) : Out State := .next (s.reply (Config.spdmReply 1 []))

/-- NEGOTIATE_ALGORITHMS (19 R462). -/
def execNegotiateAlgorithms (request : List Byte) (s : State) : Out State := .next (s.reply (Config.spdmReply 2 request))

/-- GET_CERTIFICATE (19 R462): a portion of the certificate. -/
def execGetCertificate (off len : Nat) (s : State) : Out State := .next (s.reply ((Config.certificate.drop off).take len))

/-- CHALLENGE (19 R462). -/
def execChallenge (nonce : List Byte) (s : State) : Out State := .next (s.reply (s.report nonce))

/-- GET_MEASUREMENTS (19 R462). -/
def execGetMeasurements (nonce : List Byte) (s : State) : Out State := .next (s.reply (s.report nonce))

-- THE APERTURE

/-- The physical address of an aperture offset (19 R456). -/
def State.aperture (s : State) (off : Nat) : Nat := (s.reg0 0x38).toNat + off

/-- Bytes that a host access gets. -/
def State.answerHost (s : State) (bs : List Byte) (bad : Bool) : State := { s with out := s.out ++ [.data bs bad] }

/-- HOST_APERTURE_READ (19 R456, 07 R203): at the home slice; at and above 384 GiB all ones. -/
def execHostApertureRead (off len : Nat) (s : State) : Out State :=
  .next (
    let pa := s.aperture off
    if s.boot.recovery then s
    else if memEnd < pa + len then (s.countDev 13 1).answerHost (List.replicate len 0xFF) false
    else
      let r := s.homeRead pa len none
      r.1.answerHost r.2.1 (r.2.2 ≠ []))

/-- HOST_APERTURE_WRITE (19 R456): at the home slice; at and above 384 GiB discarded. -/
def execHostApertureWrite (off : Nat) (data : List Byte) (s : State) : Out State :=
  .next (
    let pa := s.aperture off
    if s.boot.recovery then s
    else if memEnd < pa + data.length then s.countDev 13 1
    else s.homeWrite pa data [] none)

/-- HOST_ATOMICOP (19 R451, R456, 08 R219): FetchAdd, Swap and CAS of 32 or 64 bits; a poisoned word keeps its poison. -/
def execHostAtomicop (off : Nat) (op : AtomOp) (wide : Bool) (value compare : Word) (s : State) : Out State :=
  .next (
    let n := if wide then 8 else 4
    let pa := s.aperture off
    if s.boot.recovery ∨ pa % n ≠ 0 ∨ !(op == .add || op == .exch || op == .cas) then s
    else if memEnd < pa + n then (s.countDev 13 1).answerHost (List.replicate n 0xFF) false
    else
      let r := s.homeRead pa n none
      let old := ofBytes r.2.1
      let w := 8 * n
      let t := match atomStore op w old (value.toNat % 2 ^ w) (compare.toNat % 2 ^ w) with
        | none => r.1
        | some v => r.1.homeWrite pa (toBytes n v) r.2.2 none
      t.answerHost r.2.1 (r.2.2 ≠ []))

end Sys2Proof.Machine
end

