-- ==== Sys2Proof/Machine/Wake.lean ====
section
/-! DEFINITION. Waits that end: for lines to become present or for earlier accesses of the skein (07 R193, 08 R209, R214), and for
the host link (07 R179, R205). -/

namespace Sys2Proof.Machine

/-- CPYQ taken up again: there is room, or not, for the commands of all the skein's threads that wait with it (09 R252). -/
def cpyqAgain (st : Site) (l : LaneIn) (s : State) : State × Fate :=
  let mine := ((s.skein st.core st.slot).map fun k => (k.waitsFor (· = .presence)).filter fun w => match w.2.instr with
    | .cpyq _ => true
    | _ => false).getD []
  cpyqRun (decide ((s.core st.core).shCount + mine.length ≤ 32)) st l s

/-- What a thread that waits for a line, or for earlier accesses of its skein, takes up again. -/
def presenceAct : Instr → Option (Site → LaneIn → State → State × Fate)
  | .ld size x => some (loadRun false size x false)
  | .ldg size x => some (loadRun true size x false)
  | .st size x => some (storeRun size x)
  | .atom op wide x => some (atomRun op wide x false)
  | .red op wide x => some (redRun op wide x)
  | .fence x => some (fenceRun x)
  | .fencei x => some (fenceiRun x)
  | .bar _ => some barRun
  | .wait x => some (waitRun x)
  | .ctadd x => some (ctaddRun x)
  | .bari x => some (bariRun x)
  | .bara x => some (baraRun x)
  | .barw x => some (barwRun x)
  | .spz _ => some (linesRun .spz)
  | .spabs _ => some (linesRun .spabs)
  | .ddupqFp x => some (ddupFpRun x false)
  | .ddupqSt x => some (ddupStRun x false)
  | .put x => some (putRun false x)
  | .putm x => some (putRun true x)
  | .cpy _ => some cpyRun
  | .cpyq _ => some cpyqAgain
  | .stamp x => some (stampRun x)
  | .board x => some (boardRun x)
  | .ringack _ => some ringackRun
  | .tload x => some (tileMemRun (.tload x) x false false)
  | .tloadr x => some (tileMemRun (.tloadr x) x false true)
  | .tstore x => some (tileMemRun (.tstore x) x true false)
  | .tstorer x => some (tileMemRun (.tstorer x) x true true)
  | .emit x => some (emitRun x)
  | .nclose x => some (ncloseRun x)
  | .dlaunch x => some (dlaunchRun x)
  | .qpush x => some fun st l s => qpushEntry x l.vals st s
  | .tex x => some (texRun .quad x)
  | .texl x => some (texRun .level x)
  | .texg x => some (texRun .grad x)
  | .texq x => some (texqRun x)
  | .imst _ => some imstRun
  | .tblw x => some (tblwRun x)
  | .tblinv x => some (tblinvRun x)
  | .tblr x => some (tblrRun x)
  | .swr x => some (swrRun x)
  | .carve x => some (carveRun x)
  | _ => none

/-- PRESENCE_WAKE (07 R193): every line that the access touches is present or marked, and it goes on; so does one that
waited for earlier accesses of its skein. -/
def execPresenceWake (core slot lane : Nat) (s : State) : Out State :=
  .next (match s.waitingFor core slot lane (· = .presence) with
    | none => s
    | some w => match presenceAct w.instr with
      | none => s
      | some act => (s.retake core slot lane w act).settle core slot)

/-- What a thread that waits for the host link takes up again, and the address of its access. -/
def linkAct : Instr → Option ((Site → LaneIn → State → State × Fate) × (Nat → Word))
  | .ld size x => some (loadRun false size x true, fun b => effAddr b x.off)
  | .ldg size x => some (loadRun true size x true, fun b => effAddr b x.off)
  | .atom op wide x => some (atomRun op wide x true, fun b => effAddr b x.off)
  | .ddupqFp x => some (ddupFpRun x true, fun a => word (a / 4096 * 4096))
  | .ddupqSt x => some (ddupStRun x true, fun a => word (a / 4096 * 4096))
  | _ => none

/-- LOAD_RETURN (07 R179, R205, 09 R233): a held result lands, or the host link answers a waiting access: one that it
does not support traps with ECC_POISON and is counted. -/
def execLoadReturn (core slot lane idx : Nat) (link : LinkStatus) (s : State) : Out State :=
  .next (match s.waitingFor core slot lane (· = .link) with
    | none => s.landHeld core slot lane idx
    | some w =>
      match linkAct w.instr, s.skein core slot, s.thread core slot lane with
      | some (act, va), some k, some th =>
        match link with
        | .ok => s.retake core slot lane w act
        | .unsupported =>
          let t : Trap := dataTrap .eccPoison (va (w.vals.getD 0 0)) .read
          let s := w.lanes.foldl (fun s l => s.modThread core slot l fun th => { th.wake with stepNext := none }) s
          (s.count k.ctx 13 1).raise core slot th.pc w.word (w.lanes.map fun l => (l, t))
      | _, _, _ => s)

end Sys2Proof.Machine
end

