-- ==== Sys2Proof/Machine/Dispatch.lean ====
section
/-! DEFINITION. The meaning of every constructor of Instr, by one call. -/

namespace Sys2Proof.Machine

def exec (i : Instr) (s : State) : Host.Outcome State Fault Refusal :=
  match i with
  | .nop x => Sys2Proof.Machine.execNop x s
  | .add x => Sys2Proof.Machine.execAdd x s
  | .sub x => Sys2Proof.Machine.execSub x s
  | .adds x => Sys2Proof.Machine.execAdds x s
  | .addsn x => Sys2Proof.Machine.execAddsn x s
  | .subs x => Sys2Proof.Machine.execSubs x s
  | .subsn x => Sys2Proof.Machine.execSubsn x s
  | .mul x => Sys2Proof.Machine.execMul x s
  | .mulhs x => Sys2Proof.Machine.execMulhs x s
  | .mulhn x => Sys2Proof.Machine.execMulhn x s
  | .mad x => Sys2Proof.Machine.execMad x s
  | .madw x => Sys2Proof.Machine.execMadw x s
  | .mins x => Sys2Proof.Machine.execMins x s
  | .minn x => Sys2Proof.Machine.execMinn x s
  | .maxs x => Sys2Proof.Machine.execMaxs x s
  | .maxn x => Sys2Proof.Machine.execMaxn x s
  | .abs x => Sys2Proof.Machine.execAbs x s
  | .neg x => Sys2Proof.Machine.execNeg x s
  | .and x => Sys2Proof.Machine.execAnd x s
  | .or x => Sys2Proof.Machine.execOr x s
  | .xor x => Sys2Proof.Machine.execXor x s
  | .andn x => Sys2Proof.Machine.execAndn x s
  | .shl x => Sys2Proof.Machine.execShl x s
  | .shr x => Sys2Proof.Machine.execShr x s
  | .sar x => Sys2Proof.Machine.execSar x s
  | .rol x => Sys2Proof.Machine.execRol x s
  | .bfx x => Sys2Proof.Machine.execBfx x s
  | .bfxs x => Sys2Proof.Machine.execBfxs x s
  | .bfi x => Sys2Proof.Machine.execBfi x s
  | .popc x => Sys2Proof.Machine.execPopc x s
  | .clz x => Sys2Proof.Machine.execClz x s
  | .brev x => Sys2Proof.Machine.execBrev x s
  | .addi x => Sys2Proof.Machine.execAddi x s
  | .muli x => Sys2Proof.Machine.execMuli x s
  | .andi x => Sys2Proof.Machine.execAndi x s
  | .ori x => Sys2Proof.Machine.execOri x s
  | .xori x => Sys2Proof.Machine.execXori x s
  | .shli x => Sys2Proof.Machine.execShli x s
  | .shri x => Sys2Proof.Machine.execShri x s
  | .sari x => Sys2Proof.Machine.execSari x s
  | .movi x => Sys2Proof.Machine.execMovi x s
  | .movhi x => Sys2Proof.Machine.execMovhi x s
  | .movti x => Sys2Proof.Machine.execMovti x s
  | .mov x => Sys2Proof.Machine.execMov x s
  | .addp x => Sys2Proof.Machine.execAddp x s
  | .dot4s x => Sys2Proof.Machine.execDot4s x s
  | .dot4n x => Sys2Proof.Machine.execDot4n x s
  | .sad x => Sys2Proof.Machine.execSad x s
  | .cmps x => Sys2Proof.Machine.execCmps x s
  | .cmpn x => Sys2Proof.Machine.execCmpn x s
  | .cmpsi x => Sys2Proof.Machine.execCmpsi x s
  | .cmpni x => Sys2Proof.Machine.execCmpni x s
  | .pand x => Sys2Proof.Machine.execPand x s
  | .por x => Sys2Proof.Machine.execPor x s
  | .pxor x => Sys2Proof.Machine.execPxor x s
  | .pnot x => Sys2Proof.Machine.execPnot x s
  | .ppop x => Sys2Proof.Machine.execPpop x s
  | .ppush x => Sys2Proof.Machine.execPpush x s
  | .pmovGet x => Sys2Proof.Machine.execPmovGet x s
  | .pmovSet x => Sys2Proof.Machine.execPmovSet x s
  | .sel x => Sys2Proof.Machine.execSel x s
  | .vote x => Sys2Proof.Machine.execVote x s
  | .perm x => Sys2Proof.Machine.execPerm x s
  | .scan x => Sys2Proof.Machine.execScan x s
  | .rduc x => Sys2Proof.Machine.execRduc x s
  | .matchMask x => Sys2Proof.Machine.execMatchMask x s
  | .bra x => Sys2Proof.Machine.execBra x s
  | .brx x => Sys2Proof.Machine.execBrx x s
  | .call x => Sys2Proof.Machine.execCall x s
  | .callx x => Sys2Proof.Machine.execCallx x s
  | .ret x => Sys2Proof.Machine.execRet x s
  | .exit x => Sys2Proof.Machine.execExit x s
  | .yield x => Sys2Proof.Machine.execYield x s
  | .bar x => Sys2Proof.Machine.execBar x s
  | .trap x => Sys2Proof.Machine.execTrap x s
  | .brk x => Sys2Proof.Machine.execBrk x s
  | .tret x => Sys2Proof.Machine.execTret x s
  | .escl x => Sys2Proof.Machine.execEscl x s
  | .srd x => Sys2Proof.Machine.execSrd x s
  | .swr x => Sys2Proof.Machine.execSwr x s
  | .sview x => Sys2Proof.Machine.execSview x s
  | .fencei x => Sys2Proof.Machine.execFencei x s
  | .sleep x => Sys2Proof.Machine.execSleep x s
  | .fadd x => Sys2Proof.Machine.execFadd x s
  | .fsub x => Sys2Proof.Machine.execFsub x s
  | .fmul x => Sys2Proof.Machine.execFmul x s
  | .ffma x => Sys2Proof.Machine.execFfma x s
  | .fmin x => Sys2Proof.Machine.execFmin x s
  | .fmax x => Sys2Proof.Machine.execFmax x s
  | .fcmp x => Sys2Proof.Machine.execFcmp x s
  | .fcls x => Sys2Proof.Machine.execFcls x s
  | .frcp x => Sys2Proof.Machine.execFrcp x s
  | .frsq x => Sys2Proof.Machine.execFrsq x s
  | .fsqrt x => Sys2Proof.Machine.execFsqrt x s
  | .fex2 x => Sys2Proof.Machine.execFex2 x s
  | .flg2 x => Sys2Proof.Machine.execFlg2 x s
  | .fsin x => Sys2Proof.Machine.execFsin x s
  | .fcos x => Sys2Proof.Machine.execFcos x s
  | .ffrc x => Sys2Proof.Machine.execFfrc x s
  | .frnd x => Sys2Proof.Machine.execFrnd x s
  | .fdiv x => Sys2Proof.Machine.execFdiv x s
  | .fscl x => Sys2Proof.Machine.execFscl x s
  | .fclmp x => Sys2Proof.Machine.execFclmp x s
  | .dadd x => Sys2Proof.Machine.execDadd x s
  | .dmul x => Sys2Proof.Machine.execDmul x s
  | .dfma x => Sys2Proof.Machine.execDfma x s
  | .dcmp x => Sys2Proof.Machine.execDcmp x s
  | .pkadd x => Sys2Proof.Machine.execPkadd x s
  | .pkmul x => Sys2Proof.Machine.execPkmul x s
  | .pkfma x => Sys2Proof.Machine.execPkfma x s
  | .hadd2 x => Sys2Proof.Machine.execHadd2 x s
  | .hmul2 x => Sys2Proof.Machine.execHmul2 x s
  | .hfma2 x => Sys2Proof.Machine.execHfma2 x s
  | .hmin2 x => Sys2Proof.Machine.execHmin2 x s
  | .hmax2 x => Sys2Proof.Machine.execHmax2 x s
  | .fdot2 x => Sys2Proof.Machine.execFdot2 x s
  | .fdot4e x => Sys2Proof.Machine.execFdot4e x s
  | .flerp x => Sys2Proof.Machine.execFlerp x s
  | .cvtff x => Sys2Proof.Machine.execCvtff x s
  | .cvtfi x => Sys2Proof.Machine.execCvtfi x s
  | .cvtif x => Sys2Proof.Machine.execCvtif x s
  | .cvtsr x => Sys2Proof.Machine.execCvtsr x s
  | .pack x => Sys2Proof.Machine.execPack x s
  | .unpk x => Sys2Proof.Machine.execUnpk x s
  | .rng x => Sys2Proof.Machine.execRng x s
  | .rngi x => Sys2Proof.Machine.execRngi x s
  | .ld sz x => Sys2Proof.Machine.execLd sz x s
  | .ldg sz x => Sys2Proof.Machine.execLdg sz x s
  | .st sz x => Sys2Proof.Machine.execSt sz x s
  | .atom op wide x => Sys2Proof.Machine.execAtom op wide x s
  | .red op wide x => Sys2Proof.Machine.execRed op wide x s
  | .fence x => Sys2Proof.Machine.execFence x s
  | .cmo x => Sys2Proof.Machine.execCmo x s
  | .pref x => Sys2Proof.Machine.execPref x s
  | .put x => Sys2Proof.Machine.execPut x s
  | .putm x => Sys2Proof.Machine.execPutm x s
  | .cpy x => Sys2Proof.Machine.execCpy x s
  | .cpyq x => Sys2Proof.Machine.execCpyq x s
  | .spz x => Sys2Proof.Machine.execSpz x s
  | .spabs x => Sys2Proof.Machine.execSpabs x s
  | .spcrd x => Sys2Proof.Machine.execSpcrd x s
  | .carve x => Sys2Proof.Machine.execCarve x s
  | .ddupqFp x => Sys2Proof.Machine.execDdupqFp x s
  | .ddupqSt x => Sys2Proof.Machine.execDdupqSt x s
  | .talloc x => Sys2Proof.Machine.execTalloc x s
  | .tfree x => Sys2Proof.Machine.execTfree x s
  | .tgive x => Sys2Proof.Machine.execTgive x s
  | .ttake x => Sys2Proof.Machine.execTtake x s
  | .tqry x => Sys2Proof.Machine.execTqry x s
  | .tload x => Sys2Proof.Machine.execTload x s
  | .tloadr x => Sys2Proof.Machine.execTloadr x s
  | .tstore x => Sys2Proof.Machine.execTstore x s
  | .tstorer x => Sys2Proof.Machine.execTstorer x s
  | .tzero x => Sys2Proof.Machine.execTzero x s
  | .tmma x => Sys2Proof.Machine.execTmma x s
  | .tmmasp x => Sys2Proof.Machine.execTmmasp x s
  | .tcvt x => Sys2Proof.Machine.execTcvt x s
  | .tscl x => Sys2Proof.Machine.execTscl x s
  | .cvset x => Sys2Proof.Machine.execCvset x s
  | .dlaunch x => Sys2Proof.Machine.execDlaunch x s
  | .emit x => Sys2Proof.Machine.execEmit x s
  | .nclose x => Sys2Proof.Machine.execNclose x s
  | .qpush x => Sys2Proof.Machine.execQpush x s
  | .qpop x => Sys2Proof.Machine.execQpop x s
  | .qpeek x => Sys2Proof.Machine.execQpeek x s
  | .hcall x => Sys2Proof.Machine.execHcall x s
  | .hret x => Sys2Proof.Machine.execHret x s
  | .board x => Sys2Proof.Machine.execBoard x s
  | .alight x => Sys2Proof.Machine.execAlight x s
  | .ringack x => Sys2Proof.Machine.execRingack x s
  | .stripq x => Sys2Proof.Machine.execStripq x s
  | .spstart x => Sys2Proof.Machine.execSpstart x s
  | .spstop x => Sys2Proof.Machine.execSpstop x s
  | .tex x => Sys2Proof.Machine.execTex x s
  | .texl x => Sys2Proof.Machine.execTexl x s
  | .texg x => Sys2Proof.Machine.execTexg x s
  | .texq x => Sys2Proof.Machine.execTexq x s
  | .imst x => Sys2Proof.Machine.execImst x s
  | .trace x => Sys2Proof.Machine.execTrace x s
  | .hitacc x => Sys2Proof.Machine.execHitacc x s
  | .hitign x => Sys2Proof.Machine.execHitign x s
  | .hitend x => Sys2Proof.Machine.execHitend x s
  | .tblw x => Sys2Proof.Machine.execTblw x s
  | .tblr x => Sys2Proof.Machine.execTblr x s
  | .tblinv x => Sys2Proof.Machine.execTblinv x s
  | .time x => Sys2Proof.Machine.execTime x s
  | .wait x => Sys2Proof.Machine.execWait x s
  | .stamp x => Sys2Proof.Machine.execStamp x s
  | .bari x => Sys2Proof.Machine.execBari x s
  | .bara x => Sys2Proof.Machine.execBara x s
  | .barw x => Sys2Proof.Machine.execBarw x s
  | .ctadd x => Sys2Proof.Machine.execCtadd x s
  | .mon x => Sys2Proof.Machine.execMon x s
  | .unallocatedOpcode word => Sys2Proof.Machine.execUnallocatedOpcode word s
  | .sleepWake core slot lane => Sys2Proof.Machine.execSleepWake core slot lane s
  | .loadReturn core slot lane idx link => Sys2Proof.Machine.execLoadReturn core slot lane idx link s
  | .presenceWake core slot lane => Sys2Proof.Machine.execPresenceWake core slot lane s
  | .storeQueuePerform core slot home => Sys2Proof.Machine.execStoreQueuePerform core slot home s
  | .reedWindow => Sys2Proof.Machine.execReedWindow s
  | .putDelivery idx => Sys2Proof.Machine.execPutDelivery idx s
  | .putStrictResolve core slot lane => Sys2Proof.Machine.execPutStrictResolve core slot lane s
  | .shuttleQueueRoom core slot lane => Sys2Proof.Machine.execShuttleQueueRoom core slot lane s
  | .shuttleStart core => Sys2Proof.Machine.execShuttleStart core s
  | .shuttleComplete core => Sys2Proof.Machine.execShuttleComplete core s
  | .tallocFrameFreed core slot => Sys2Proof.Machine.execTallocFrameFreed core slot s
  | .ttakeGrant core slot => Sys2Proof.Machine.execTtakeGrant core slot s
  | .tileQueueRoom core slot => Sys2Proof.Machine.execTileQueueRoom core slot s
  | .tileCommandExecute core => Sys2Proof.Machine.execTileCommandExecute core s
  | .tileCommandComplete core => Sys2Proof.Machine.execTileCommandComplete core s
  | .arenaRoom core slot lane => Sys2Proof.Machine.execArenaRoom core slot lane s
  | .qpushRoom core slot => Sys2Proof.Machine.execQpushRoom core slot s
  | .qpopWake core slot => Sys2Proof.Machine.execQpopWake core slot s
  | .heddleArrive core slot => Sys2Proof.Machine.execHeddleArrive core slot s
  | .heddleTimeout core entry => Sys2Proof.Machine.execHeddleTimeout core entry s
  | .scarabShaderCall core slot lane => Sys2Proof.Machine.execScarabShaderCall core slot lane s
  | .traversalEnd core slot lane => Sys2Proof.Machine.execTraversalEnd core slot lane s
  | .waitSatisfied core slot lane => Sys2Proof.Machine.execWaitSatisfied core slot lane s
  | .barwComplete core slot lane => Sys2Proof.Machine.execBarwComplete core slot lane s
  | .runGrant core pipe => Sys2Proof.Machine.execRunGrant core pipe s
  | .launchHeadCheck ctx band pend => Sys2Proof.Machine.execLaunchHeadCheck ctx band pend s
  | .workgroupAdmit ctx grid cluster => Sys2Proof.Machine.execWorkgroupAdmit ctx grid cluster s
  | .nodeLaunch ctx grid node core => Sys2Proof.Machine.execNodeLaunch ctx grid node core s
  | .gridRetire ctx grid => Sys2Proof.Machine.execGridRetire ctx grid s
  | .vacateDrainEnd req => Sys2Proof.Machine.execVacateDrainEnd req s
  | .vacateEnd req => Sys2Proof.Machine.execVacateEnd req s
  | .workgroupRestore ctx grid wg cluster => Sys2Proof.Machine.execWorkgroupRestore ctx grid wg cluster s
  | .heldEventPost ctx => Sys2Proof.Machine.execHeldEventPost ctx s
  | .treadleAdmit entry => Sys2Proof.Machine.execTreadleAdmit entry s
  | .stripDenied entry => Sys2Proof.Machine.execStripDenied entry s
  | .binnerRecord ctx grid => Sys2Proof.Machine.execBinnerRecord ctx grid s
  | .rasterAccept ctx grid => Sys2Proof.Machine.execRasterAccept ctx grid s
  | .blenderRecord ctx grid => Sys2Proof.Machine.execBlenderRecord ctx grid s
  | .blenderWriteStrip ctx grid => Sys2Proof.Machine.execBlenderWriteStrip ctx grid s
  | .lowresComplete ctx grid => Sys2Proof.Machine.execLowresComplete ctx grid s
  | .upscalerFeed ctx grid => Sys2Proof.Machine.execUpscalerFeed ctx grid s
  | .stripWriterRecord ctx grid => Sys2Proof.Machine.execStripWriterRecord ctx grid s
  | .headStripRead head => Sys2Proof.Machine.execHeadStripRead head s
  | .stripSlotFree head => Sys2Proof.Machine.execStripSlotFree head s
  | .encodeStripTake engine => Sys2Proof.Machine.execEncodeStripTake engine s
  | .ringAdopt => Sys2Proof.Machine.execRingAdopt s
  | .tileInject => Sys2Proof.Machine.execTileInject s
  | .holdTimeout => Sys2Proof.Machine.execHoldTimeout s
  | .tapCatch core => Sys2Proof.Machine.execTapCatch core s
  | .tileLand core crcOk => Sys2Proof.Machine.execTileLand core crcOk s
  | .lineRecall core line => Sys2Proof.Machine.execLineRecall core line s
  | .pageWalk core ctx va acc user => Sys2Proof.Machine.execPageWalk core ctx va acc user s
  | .carveRaise core => Sys2Proof.Machine.execCarveRaise core s
  | .carveLower core => Sys2Proof.Machine.execCarveLower core s
  | .watchdog ctx grid wg => Sys2Proof.Machine.execWatchdog ctx grid wg s
  | .launchRecordWrite ctx off data => Sys2Proof.Machine.execLaunchRecordWrite ctx off data s
  | .sessionLate session => Sys2Proof.Machine.execSessionLate session s
  | .encodeStripEnd engine => Sys2Proof.Machine.execEncodeStripEnd engine s
  | .ringctlEnable value => Sys2Proof.Machine.execRingctlEnable value s
  | .ringctlDisable value => Sys2Proof.Machine.execRingctlDisable value s
  | .ringnextWrite value => Sys2Proof.Machine.execRingnextWrite value s
  | .monitorCheck temps volts procs => Sys2Proof.Machine.execMonitorCheck temps volts procs s
  | .tcset word1 => Sys2Proof.Machine.execTcset word1 s
  | .tcofs step => Sys2Proof.Machine.execTcofs step s
  | .tcrate rate => Sys2Proof.Machine.execTcrate rate s
  | .ptmDialogue gap => Sys2Proof.Machine.execPtmDialogue gap s
  | .ctxupd ctx => Sys2Proof.Machine.execCtxupd ctx s
  | .scheduleEnable entry => Sys2Proof.Machine.execScheduleEnable entry s
  | .scheduleDisable entry => Sys2Proof.Machine.execScheduleDisable entry s
  | .dbgresContinue core slot mask => Sys2Proof.Machine.execDbgresContinue core slot mask s
  | .dbgresStep core slot mask => Sys2Proof.Machine.execDbgresStep core slot mask s
  | .dbgresContinueAfter core slot mask => Sys2Proof.Machine.execDbgresContinueAfter core slot mask s
  | .dbgresKill core slot mask => Sys2Proof.Machine.execDbgresKill core slot mask s
  | .faultresResume ctx seq => Sys2Proof.Machine.execFaultresResume ctx seq s
  | .faultresAbandon ctx seq => Sys2Proof.Machine.execFaultresAbandon ctx seq s
  | .freeadd ctx pa => Sys2Proof.Machine.execFreeadd ctx pa s
  | .preemptN ctx n => Sys2Proof.Machine.execPreemptN ctx n s
  | .preemptAll ctx => Sys2Proof.Machine.execPreemptAll ctx s
  | .ctxreset ctx => Sys2Proof.Machine.execCtxreset ctx s
  | .evrdWrite ctx value => Sys2Proof.Machine.execEvrdWrite ctx value s
  | .devqrdWrite value => Sys2Proof.Machine.execDevqrdWrite value s
  | .devqConfigWrite off value => Sys2Proof.Machine.execDevqConfigWrite off value s
  | .errorCounterClear off value => Sys2Proof.Machine.execErrorCounterClear off value s
  | .tlbinv word1 => Sys2Proof.Machine.execTlbinv word1 s
  | .encoderPartitionWrite value => Sys2Proof.Machine.execEncoderPartitionWrite value s
  | .registerWrite off value => Sys2Proof.Machine.execRegisterWrite off value s
  | .hostApertureRead off len => Sys2Proof.Machine.execHostApertureRead off len s
  | .hostApertureWrite off data => Sys2Proof.Machine.execHostApertureWrite off data s
  | .hostAtomicop off op wide value compare => Sys2Proof.Machine.execHostAtomicop off op wide value compare s
  | .conventionalReset image => Sys2Proof.Machine.execConventionalReset image s
  | .functionLevelReset => Sys2Proof.Machine.execFunctionLevelReset s
  | .mailboxImage image => Sys2Proof.Machine.execMailboxImage image s
  | .getVersion => Sys2Proof.Machine.execGetVersion s
  | .getCapabilities => Sys2Proof.Machine.execGetCapabilities s
  | .negotiateAlgorithms request => Sys2Proof.Machine.execNegotiateAlgorithms request s
  | .getCertificate off len => Sys2Proof.Machine.execGetCertificate off len s
  | .challenge nonce => Sys2Proof.Machine.execChallenge nonce s
  | .getMeasurements nonce => Sys2Proof.Machine.execGetMeasurements nonce s
  | .modulePowerLoss => Sys2Proof.Machine.execModulePowerLoss s
  | .tlbInvalidationEnd => Sys2Proof.Machine.execTlbInvalidationEnd s
  | .displayportLinkTraining head link => Sys2Proof.Machine.execDisplayportLinkTraining head link s

end Sys2Proof.Machine
end

