-- ==== Sys2Proof/Machine/Sched.lean ====
section
/-! DEFINITION. The built-in schedule: which agent moves when the agenda is empty (log entry 1). It leaves out what comes from
outside (the host, soft errors, the monitors' samples, a power loss), and the return of lent ways. -/

namespace Sys2Proof.Machine

/-- Whether a device step changes the state. -/
def State.changes (s : State) (e : Instr) : Bool :=
  match exec e s with
  | .next t => decide (t ≠ s)
  | _ => true

/-- The first slot whose run may issue, or has waited for an operand as long as a run may last. Each pipeline issues at most
once in a cycle, and no cycle passes while one may issue, so every run goes on (02 R41, R53). -/
def State.issuePick (s : State) : Option Act :=
  (s.cores.flatMap fun c => c.2.pipes.filterMap fun p => p.2.run.map fun r => (c.1, r)).findSome? fun q =>
    if s.mayIssue q.1 q.2.slot && (s.slotReady q.1 q.2.slot || decide (1792 ≤ s.cycle - q.2.start)) then
      some (.issue q.1 q.2.slot) else none

/-- The steps of a thread that waits, or whose loads are to return. -/
def Thread.steps (th : Thread) (core slot lane : Nat) : List Instr :=
  (match th.st with
  | .waiting _ =>
    [.sleepWake core slot lane, .presenceWake core slot lane, .loadReturn core slot lane 0 .ok,
     .putStrictResolve core slot lane, .shuttleQueueRoom core slot lane, .arenaRoom core slot lane,
     .scarabShaderCall core slot lane, .traversalEnd core slot lane, .waitSatisfied core slot lane,
     .barwComplete core slot lane]
  | _ => []) ++ if th.held = [] then [] else [.loadReturn core slot lane 0 .ok]

/-- The steps of a skein: its threads', its store queue's and those that its waiting threads share. -/
def Skein.steps (k : Skein) (core slot : Nat) : List Instr :=
  (((List.range 32).zip k.threads).flatMap fun t => t.2.steps core slot t.1) ++
  (if k.sq = [] then [] else [.storeQueuePerform core slot none]) ++
  if k.threads.any fun th => th.waits fun _ => true then
    [.tallocFrameFreed core slot, .ttakeGrant core slot, .tileQueueRoom core slot, .qpushRoom core slot,
     .qpopWake core slot, .heddleArrive core slot]
  else []

/-- The steps of a core's pipelines, engines, call table and tap. -/
def Core.steps (c : Core) (core : Nat) : List Instr :=
  (c.pipes.map fun p => Instr.runGrant core p.1) ++
  (if c.wt = [] then [] else [.storeQueuePerform core 0 (some 0)]) ++
  (if c.shuttle = [] ∧ c.started.isNone then [] else [.shuttleStart core]) ++
  (if c.done = [] then [] else [.shuttleComplete core]) ++
  (if c.tileq = [] then [] else [.tileCommandExecute core, .tileCommandComplete core]) ++
  (c.heddle.map fun e => Instr.heddleTimeout core e.1) ++
  if c.boards = [] then [] else [.tapCatch core, .tileLand core true, .tileLand core false]

/-- The steps of a grid: admission or launches of its nodes, its fixed-function nodes, its retirement. -/
def State.gridSteps (s : State) (g : Grid) : List Instr :=
  (if g.admitting then match pickCluster (s.quotaLeft g.ctx) g.lr (s.rooms g.ctx) with
    | some cl => [Instr.workgroupAdmit g.ctx g.num (cl.map (·.1))]
    | none => [.workgroupAdmit g.ctx g.num []]
  else if g.graph.isSome then [.workgroupAdmit g.ctx g.num []]
  else []) ++
  (match g.graph with
  | none => []
  | some w => (List.range w.nodes.length).flatMap fun i =>
      if w.ready (s.gridWgs g.ctx g.num) i then
        ((List.range 72).filter fun c => s.nodeFits g c (min 32 ((w.nodes[i]?.map (·.count)).getD 0))).map fun c =>
          Instr.nodeLaunch g.ctx g.num i c
      else if ((w.nodes[i]?).map (·.kind)) == some 3 then [.nodeLaunch g.ctx g.num i 0]
      else []) ++
  (match g.strip with
  | none => []
  | some _ => [.binnerRecord g.ctx g.num, .rasterAccept g.ctx g.num, .blenderRecord g.ctx g.num,
      .blenderWriteStrip g.ctx g.num, .lowresComplete g.ctx g.num, .upscalerFeed g.ctx g.num, .stripWriterRecord g.ctx g.num]) ++
  [.gridRetire g.ctx g.num]

/-- The device steps that an agent could take now. -/
def State.candidates (s : State) : List Instr :=
  (s.cores.flatMap fun c => c.2.steps c.1) ++ (s.skeins.flatMap fun k => k.2.steps (k.1 / 1024) (k.1 % 1024)) ++
  ((List.range s.puts.length).map fun i => Instr.putDelivery i) ++
  (if s.puts.any fun d => d.multi && d.window.isNone then [.reedWindow] else []) ++
  (s.ctxs.flatMap fun c => Instr.heldEventPost (some c.1) ::
    [0, 1, 2].flatMap fun b => [.launchHeadCheck c.1 b false, .launchHeadCheck c.1 b true]) ++
  (s.grids.flatMap fun g => s.gridSteps g.2) ++
  (s.vacates.flatMap fun v => [.vacateDrainEnd v.1, .vacateEnd v.1]) ++
  (s.saved.filterMap fun v => (s.restoreAt v.2).map fun cl => Instr.workgroupRestore v.2.wg.ctx v.2.wg.grid v.2.wg.lin cl) ++
  (s.sched.flatMap fun e => [Instr.treadleAdmit e.1, .stripDenied e.1] ++
    if e.1 < 4 then [.headStripRead e.1, .stripSlotFree e.1] else [.sessionLate (e.1 - 4), .encodeStripTake (e.1 % 8)]) ++
  (s.engines.map fun e => Instr.encodeStripEnd e.1) ++
  (if s.ctxs.any fun c => decide (c.2.var.carve ≠ 0) then (List.range 72).map fun c => .carveRaise c else []) ++
  (s.wgs.filterMap fun w =>
    if (s.ctx w.2.ctx).var.watchdog = 0 then none else some (Instr.watchdog w.2.ctx w.2.grid w.2.lin)) ++
  (if s.tlbInv = [] then [] else [.tlbInvalidationEnd]) ++
  (if s.ring.enable || s.ring.stopping then [.ringAdopt, .tileInject, .holdTimeout] else []) ++ [.heldEventPost none]

/-- The pick of the built-in schedule: every pipeline that may issue in this cycle does; then one cycle passes, with a device
step that changes something, in a rotation over all of them. -/
def State.autoPick (s : State) : Pick :=
  match s.issuePick with
  | some a => { act := a }
  | none =>
    let cs := s.candidates
    let n := s.cycle % max 1 cs.length
    let ev := ((cs.drop n ++ cs.take n).find? s.changes).map Act.event
    { cycles := 1, ticks := 2 ^ 39, act := ev.getD (.issue 0 0) }

end Sys2Proof.Machine
end

