-- ==== Sys2Proof/Machine/Soft.lean ====
section
/-! DEFINITION. Errors that a structure's own check detects: poison, the error counters and device events (01 R27, R29, 07
R202 to R205, 18 R448, 19 R458). -/

namespace Sys2Proof.Machine

/-- An error is counted when it is detected, in its structure's device counter and in the context whose data it is; an
uncorrectable one of no context is a device event of kind 16 (01 R29, 07 R205, 19 R458). -/
def State.countError (s : State) (i : Nat) (owner : Option Nat) (uncorrectable : Bool) : State :=
  match owner with
  | some c => s.count c i 1
  | none => if uncorrectable then (s.countDev i 1).postDev { kind := 16, detail := i } else s.countDev i 1

/-- A corrected error counts at i, an uncorrectable one at i + 1. -/
def State.countEcc (s : State) (i : Nat) (owner : Option Nat) (double : Bool) : State :=
  s.countError (i + double.toNat) owner double

/-- An 8-byte word at the home slice poisoned (07 R202, R205). -/
def State.poisonHome (s : State) (w : Nat) (double : Bool) : State :=
  if double then { s with mem := { s.mem with poison := addTo w s.mem.poison } } else s

/-- The context whose workgroup holds a frame of a core, bound or awaiting release. -/
def State.frameOwner (s : State) (core frame : Nat) : Option Nat :=
  match s.wgs.find? fun p => match p.2.slotOf core with
    | some c => (p.2.bound c).any fun h => h.2.frame == frame
    | none => false with
  | some p => some p.2.ctx
  | none => ((s.core core).releasing.find? fun r => r.1 == frame).map fun r => r.2 % 512

/-- The 8-byte words of 32-byte parts of a line. -/
def partWords (parts : List Nat) : List Nat := parts.flatMap fun p => upFrom (4 * p) 4

/-- An L1 parity error: a clean line is refetched, a dirty or exclusive one is poisoned in the parts that failed (01 R27, 07
R204, log entry 94). -/
def State.l1Parity (s : State) (core line : Nat) (parts : List Nat) (owner : Option Nat) : State :=
  match look (s.core core).l1 line with
  | none => s
  | some l =>
    let lost := l.dirty || l.excl
    let s := s.countError 5 owner lost
    if lost then s.modCore core fun c =>
      { c with l1 := ins line { l with poison := addAll ((partWords parts).filter (· < 16)) l.poison } c.l1 }
    else (s.evict core line).fill core line false

/-- A start-up whose image passed fails at step 4 or 5 (19 R461): in recovery. A failing step 4 has extended measurement register 0
alone (log entry 94). -/
def State.startFail (s : State) (x : Image) (n : Nat) : State :=
  { s with boot := { recovery := true, failed := n,
                     measures := if n = 4 then extendReg [] 0 x.digest else measured [] x } }

/-- An error is detected, or a register word's parity fails, to be found by its next read (01 R27, 07 R204). -/
def State.soft (s : State) : Soft → State
  | .register core slot lane w =>
    match s.skein core slot with
    | none => s
    | some k => if 4 * w + 4 ≤ k.alloc then s.modThread core slot lane fun th =>
        if th.bad.contains w then th else { th with perr := addTo w th.perr }
      else s
  | .scratchpad wg cslot w double =>
    match s.wg wg with
    | none => s.countEcc 1 none double
    | some g =>
      let s := s.countEcc 1 (some g.ctx) double
      if double && decide (8 * w + 8 ≤ g.scratch) then s.modPart wg cslot fun p => { p with poison := addTo w p.poison } else s
  | .tile core frame w double =>
    let s := s.countEcc 3 (s.frameOwner core frame) double
    if double && decide (frame < 64 ∧ w < 2112) then s.modCore core fun c =>
      let f := c.frame frame
      c.setFrame frame { f with poison := addTo w f.poison }
    else s
  | .l1 core line parts owner => s.l1Parity core line parts owner
  | .l2 w double owner => (s.countEcc 6 owner double).poisonHome w double
  | .lpddr w double owner => (s.countEcc 11 owner double).poisonHome w double
  | .crossbar => s.countDev 8 1
  | .sectorRing => s.countDev 9 1
  | .strip off owner =>
    let s := s.countError 10 owner true
    if off < 0x3000000 then { s.putRing off [Config.freeByte s.free] with free := s.free + 1 } else s
  | .link lo n denied => { s with mem := { s.mem with
      denied := if denied then s.mem.denied ++ [(lo, n)] else s.mem.denied.filter (· != (lo, n)) } }
  | .startup image n => if bootStep image = 0 ∧ (n = 4 ∨ n = 5) then (s.outside State.reset).startFail image n else s
  | .flit seq core at_ mask => { s with ring := { s.ring with flying := s.ring.flying.map fun x =>
      if x.seq = seq then { x with errs := x.errs ++ [(core, at_, mask)] } else x } }

end Sys2Proof.Machine
end

