-- ==== Sys2Proof/Machine/Step.lean ====
section
/-! DEFINITION. The step of the machine: one pick of the agenda, or of the built-in schedule where the agenda is empty
(log entry 1). -/

namespace Sys2Proof.Machine

/-- What a pick does: the next instruction of a skein, or a device step, or an error detected. -/
def State.perform (s : State) : Act → Out State
  | .event e => exec e { s with issue := none }
  | .soft e => .next (({ s with issue := none } : State).soft e)
  | .issue core slot =>
    match s.fetchNext core slot with
    | (s, some i) => exec i s
    | (s, none) => .next s

/-- Whether an unpowered module answers to an act: a conventional reset, or a start-up that fails, is its power-up (01 R31, 19 R459,
R461). -/
def Act.powersUp : Act → Bool
  | .event (.conventionalReset _) => true
  | .soft (.startup _ _) => true
  | _ => false

/-- One step. -/
def step (s : State) : Out State :=
  match s.agenda with
  | p :: rest =>
    if s.power || p.act.powersUp then ({ s with agenda := rest }.pass p.cycles p.ticks).perform p.act
    else .fault .unpowered
  | [] =>
    if s.power then
      let p := s.autoPick
      (s.pass p.cycles p.ticks).perform p.act
    else .fault .unpowered

/-- The machine with an instruction word where step fetches next (log entry 5). -/
def State.withFetchWord (s : State) (_nbits w : Nat) : State := s.placeWord (BitVec.ofNat 64 w)

end Sys2Proof.Machine
end

