-- ==== Sys2Proof/Safety.lean ====
section
/-! DEFINITION. What counts as a sound state and a safe step, in the terms that claims use: canonical memories, the
boot results, threads with nothing in the way, and what a fixed-latency instruction leaves. -/

namespace Sys2Proof.Machine

/-- The canonical form of the memories: rising addresses, no cell equal to what an unlisted one reads as (log entry 3). -/
abbrev Memory.wf (m : Memory) : Prop :=
  canonical (0 : Byte) m.bytes = true ∧ canonical (0 : Byte) m.strip = true ∧ canonical (0 : Byte) m.host = true

/-- The byte of device memory at a physical address, at its home slice. -/
def State.homeByte (s : State) (a : Nat) : Byte := byteAt s.mem.bytes a

/-- The byte of host memory at a bus address. -/
def State.hostByte (s : State) (a : Nat) : Byte := byteAt s.mem.host a

/-- BOOTSTAT as 19 R461 leaves it: the cores are released only with an image whose signatures have both verified, and never
in recovery. -/
def Boot.sound (b : Boot) : Prop := b.ready = true → b.verified = true ∧ b.recovery = false ∧ b.failed = 0

/-- THE INVARIANT of the machine: canonical memories; cores released only with a verified image and never in recovery (19
R461); a time counter below 2^48 seconds (18 R438); a core clock of 1000 to 2000 MHz (18 R450). -/
def State.sound (s : State) : Prop :=
  s.mem.wf ∧ s.boot.sound ∧ s.time.now < 2 ^ 48 * timeSecond ∧ 1000 ≤ s.mon.mhz ∧ s.mon.mhz ≤ 2000

/-- A step that goes on: neither a fault nor a refusal. -/
def State.goesOn (s : State) : Prop := ∃ t, step s = .next t

-- THREADS WITH NOTHING IN THE WAY

/-- No result is in flight or owed to a thread, and no register word of it is bad (03 R66, 07 R204). -/
def Thread.quiet (th : Thread) : Prop := th.pend = [] ∧ th.held = [] ∧ th.bad = [] ∧ th.perr = []

/-- No step, stop, halt or watchdog action waits for a skein (04 R106 to R108, 14 R360). -/
def Skein.calm (k : Skein) : Prop := k.step = 0 ∧ k.stop = false ∧ k.halt = false ∧ k.wdog = none

/-- A state in which an instruction has been fetched for threads of a skein, all of whose threads are quiet. -/
def State.poised (s : State) (is : Issue) (k : Skein) : Prop :=
  s.issue = some is ∧ s.skein is.core is.slot = some k ∧ k.calm ∧ (∀ th ∈ k.threads, th.quiet) ∧
  ∀ l ∈ lanesOf is.present, l < k.threads.length

/-- The active threads: those present whose guard holds (02 R37, 03 R65). -/
def activeOf (c : Ctl) (is : Issue) (k : Skein) : List Nat :=
  (lanesOf is.present).filter fun l => guardHolds c (laneOf k.threads l).pred

/-- The thread whose operands an active thread uses: itself, or the leader under the uniform bit (02 R38). -/
def sourceOf (c : Ctl) (act : List Nat) (l : Nat) : Nat := if c.uni then act.headD 0 else l

/-- The cycle at which an active thread issues: each takes `cost` cycles after the one before it (02 R37, R38). -/
def issueOf (s : State) (c : Ctl) (cost : Nat) (act : List Nat) (l : Nat) : Nat :=
  if c.uni then s.cycle else s.cycle + cost * act.idxOf l

/-- What an instruction with results of fixed latency reads and writes: its sources and destinations, the cycles that one
thread takes, its latency, which values it takes, and the result of a thread from its own values and those of the active
threads. -/
structure LaneSpec where
  reads : List Rd
  dsts : List (RegOp × Nat × Nat)
  cost : Nat := 1
  lat : Nat
  fits : LaneIn → Prop := fun _ => True
  result : LaneIn → List LaneIn → Option Wr

/-- The values that thread l reads. -/
def LaneSpec.input (p : LaneSpec) (s : State) (c : Ctl) (k : Skein) (act : List Nat) (l : Nat) : LaneIn :=
  let src := sourceOf c act l
  { lane := l, cyc := issueOf s c p.cost act l, vals := p.reads.map fun r => r.value k.threads src
    pred := (laneOf k.threads src).pred, link := (laneOf k.threads src).link }

/-- Every operand of every active thread passes 03 R70. -/
def LaneSpec.inRange (p : LaneSpec) (c : Ctl) (k : Skein) (act : List Nat) : Prop :=
  ∀ l ∈ act,
    (∀ o ∈ p.reads.flatMap Rd.ops, regOk (laneOf k.threads (sourceOf c act l)).views k.alloc o.1 o.2.1 o.2.2 = true) ∧
    ∀ o ∈ p.dsts, regOk (laneOf k.threads l).views k.alloc o.1 o.2.1 o.2.2 = true

/-- What a result changes when it lands (03 R66, 04 R87). -/
def landingOf (vs : Views) : Wr → Landing
  | .reg r w v => .reg (numbered (regAddr vs r) (toBytes w v))
  | .push b => .push b
  | .pop n => .pop n
  | .setPred p => .setPred p

/-- THE FRAME of an instruction that acts on its own threads alone: every field but the skeins, the cores' pipelines and the
fetched word is unchanged; so are the other skeins, and of its own all but the threads, the stall count and the scoreboard's note; so is every byte
of memory. -/
def State.keepsElse (s t : State) (core slot : Nat) : Prop :=
  { t with skeins := s.skeins, cores := s.cores, issue := s.issue } = s ∧
  (∀ c l, slotKey c l ≠ slotKey core slot → t.skein c l = s.skein c l) ∧
  (∀ c, { t.core c with pipes := (s.core c).pipes } = s.core c) ∧
  (∀ a, t.homeByte a = s.homeByte a) ∧ ∀ a, t.hostByte a = s.hostByte a

/-- An instruction of fixed latency COMPLETES as its rule says: for every state in which it has been fetched with operands in
range, exec gives a next state; in it every active thread has gone on to the next word with its result due `lat` cycles after
its issue, a thread whose guard is false has gone on without one (02 R43), and nothing else of a thread has changed. -/
def LaneSpec.completes (p : LaneSpec) (i : Instr) (c : Ctl) : Prop :=
  ∀ (s : State) (is : Issue) (k : Skein), s.poised is k → p.inRange c k (activeOf c is k) →
    (∀ l ∈ activeOf c is k, p.fits (p.input s c k (activeOf c is k) l)) →
    ∃ t, exec i s = .next t ∧ s.keepsElse t is.core is.slot ∧ t.issue = none ∧
      ∃ k', t.skein is.core is.slot = some k' ∧ { k' with threads := k.threads, readyAt := k.readyAt, blocked := k.blocked } = k ∧
        ∀ l, l < k.threads.length →
          let th := laneOf k.threads l
          let act := activeOf c is k
          laneOf k'.threads l =
            if l ∈ act then
              { th with pc := is.pc + 8
                        pend := ((p.result (p.input s c k act (sourceOf c act l)) (act.map (p.input s c k act))).map
                          fun w => { due := issueOf s c p.cost act l + p.lat, what := landingOf th.views w }).toList }
            else if l ∈ lanesOf is.present then { th with pc := is.pc + 8 }
            else th

-- SHAPES OF INSTRUCTIONS OF FIXED LATENCY

/-- Two operands of one width, b under the source modifier (03 R68, R73). -/
def LaneSpec.two (x : FmtR) (w : Nat) (k : ModKind) (lat cost : Nat) (f : Nat → Nat → Nat) : LaneSpec :=
  { reads := [.reg x.a w, .mod x.b x.mod w k], dsts := [(x.dst, w, 1)], cost := cost, lat := lat
    result := fun t _ => some (.reg x.dst w (f (t.val 0) (t.val 1))) }

/-- Operand b alone, under the source modifier. -/
def LaneSpec.one (x : FmtR) (w wd : Nat) (k : ModKind) (lat : Nat) (f : Nat → Nat) : LaneSpec :=
  { reads := [.mod x.b x.mod w k], dsts := [(x.dst, wd, 1)], lat := lat
    result := fun t _ => some (.reg x.dst wd (f (t.val 0))) }

/-- Three operands. -/
def LaneSpec.three (x : FmtF) (w wc wd lat cost : Nat) (f : Nat → Nat → Nat → Nat) : LaneSpec :=
  { reads := [.reg x.a w, .reg x.b w, .reg x.c wc], dsts := [(x.dst, wd, 1)], cost := cost, lat := lat
    result := fun t _ => some (.reg x.dst wd (f (t.val 0) (t.val 1) (t.val 2))) }

/-- A register and the immediate. -/
def LaneSpec.imm (x : FmtI) (w wd lat : Nat) (f : Nat → Nat) : LaneSpec :=
  { reads := [.reg x.a w], dsts := [(x.dst, wd, 1)], lat := lat
    result := fun t _ => some (.reg x.dst wd (f (t.val 0))) }

/-- An operation of bit vectors on each of n elements of e bits (05 R112). -/
def onPairs (e n : Nat) (f : BitVec e → BitVec e → BitVec e) (a b : Nat) : Nat :=
  joinElems e ((elems e n a).zipWith (fun x y => (f (BitVec.ofNat e x) (BitVec.ofNat e y)).toNat) (elems e n b))

/-- An operation of bit vectors on each of n elements of e bits. -/
def onEach (e n : Nat) (f : BitVec e → BitVec e) (a : Nat) : Nat :=
  joinElems e ((elems e n a).map fun x => (f (BitVec.ofNat e x)).toNat)

/-- An integer operation on two operands at the shape that sub gives (05 R111). -/
def LaneSpec.intPairs (x : FmtR) (lat : Nat) (f : (e : Nat) → BitVec e → BitVec e → BitVec e) : LaneSpec :=
  let (w, e, n) := intShape x.sub.toNat
  LaneSpec.two x w (.int e n) lat 1 (onPairs e n (f e))

/-- An integer operation on one operand at the shape that sub gives (05 R111). -/
def LaneSpec.intEach (x : FmtR) (lat : Nat) (f : (e : Nat) → BitVec e → BitVec e) : LaneSpec :=
  let (w, e, n) := intShape x.sub.toNat
  LaneSpec.one x w w (.int e n) lat (onEach e n (f e))

/-- Signed saturation at e bits (05 R113). -/
def clampTo (e : Nat) (v : Int) : BitVec e :=
  BitVec.ofInt e (max (-(2 ^ (e - 1) : Int)) (min v (2 ^ (e - 1) - 1)))

-- ONE THREAD

/-- No access of a skein waits, so that none of its later ones has to wait for it (08 R209, R211, R214). -/
def Skein.unblocked (k : Skein) : Prop := ∀ th ∈ k.threads, ∀ w, th.st = .waiting w → w.what.blocks = false

/-- A state in which an instruction has been fetched for one running thread, whose guard holds, of a skein of which no access
waits. -/
def State.poisedOne (s : State) (is : Issue) (k : Skein) (c : Ctl) (l : Nat) : Prop :=
  s.poised is k ∧ lanesOf is.present = [l] ∧ guardHolds c (laneOf k.threads l).pred = true ∧
  (laneOf k.threads l).st = .running ∧ k.unblocked

/-- The value of a register of a thread, w bytes (03 R70). -/
def Thread.reg (th : Thread) (r : RegOp) (w : Nat) : Nat := natAt th.regs (regAddr th.views r) w

/-- Every register operand of a list passes 03 R70 for a thread. -/
def Thread.has (th : Thread) (alloc : Nat) (ops : List (RegOp × Nat × Nat)) : Prop :=
  ∀ o ∈ ops, regOk th.views alloc o.1 o.2.1 o.2.2 = true

/-- The site of a single thread's effect. -/
def siteOf (s : State) (is : Issue) (l : Nat) : Site :=
  { core := is.core, slot := is.slot, lane := l, lanes := [l], cyc := s.cycle, pc := is.pc, word := is.word
    ord := s.ordOf is.core is.slot }

/-- A skein after one of its threads has met a fate that is no fault (02 R42, R43, 04 R94). -/
def Skein.afterFate (k : Skein) (i : Instr) (w pc : Word) (l : Nat) : Fate → Skein
  | .next => { k with threads := modAt l (fun th => { th with pc := pc + 8 }) k.threads }
  | .jump p => { k with threads := modAt l (fun th => { th with pc := p }) k.threads }.leave [l]
  | .moved => k.leave [l]
  | .wait what vals =>
    let wt : Wait := { what := what, instr := i, word := w, lanes := [l], vals := vals, seq := k.ord }
    { k with ord := k.ord + 1, threads := modAt l (fun th => { th with st := .waiting wt }) k.threads }.leave [l]
  | .trap _ => k

/-- An instruction of one thread ENDS from the state u that its effect has made, with a fate: nothing but the skein and its
pipeline changes further, and the skein has taken the fate. -/
def State.endsAs (u t : State) (i : Instr) (is : Issue) (l : Nat) (f : Fate) : Prop :=
  u.keepsElse t is.core is.slot ∧ t.issue = none ∧
  ∀ k', u.skein is.core is.slot = some k' →
    ∃ r, t.skein is.core is.slot = some { k'.afterFate i is.word is.pc l f with readyAt := r, blocked := none }

/-- THE FRAME of an access to memory, whatever it translates, fills or writes back: threads, skeins, workgroups, grids and
every unit's registers are unchanged; of a core only its caches, TLB and write-throughs may differ, of a context only its
free-page queue and its events (07 R182 to R191, 15 R378). -/
def State.memOnly (s t : State) : Prop :=
  { t with cores := s.cores, mem := s.mem, ctxs := s.ctxs, msix := s.msix, out := s.out, free := s.free } = s ∧
  (∀ c, { t.core c with l1 := (s.core c).l1, tlb := (s.core c).tlb, icache := (s.core c).icache, wt := (s.core c).wt,
                        predictor := (s.core c).predictor } = s.core c) ∧
  ∀ c, { t.ctx c with freeHead := (s.ctx c).freeHead, freeCount := (s.ctx c).freeCount, ev := (s.ctx c).ev } = s.ctx c

-- TRAPS OF ONE THREAD

/-- A user thread at its handler (04 R90, R97, R98, R100). -/
def Thread.atHandler (th : Thread) (c : Cause) (pc addr info vec : Word) : Thread :=
  { th with
    trec := { cause := BitVec.ofNat 32 (1024 * c.replayable.toNat + 256 + c.code), pc := pc, addr := addr, info := info
              pred := th.pred, link := th.link, blk := th.blk
              view := th.views.v3 ++ th.views.v2 ++ th.views.v1 ++ th.views.v0, scrA := th.trec.scrA, scrB := th.trec.scrB }
    pred := 0, link := 0, sup := true, views := { v0 := 0xFC04, v1 := 0xFC06, v2 := 0xFC02, v3 := 0xFC08 }, pc := vec
    blk := vec }

/-- A user thread parked with its record written (04 R104, R105). -/
def Thread.parkedAt (th : Thread) (st : ThreadState) (c : Cause) (pc addr info : Word) : Thread :=
  { th with trec := (th.atHandler c pc addr info 0).trec, st := st }

/-- One thread changed, and gone from the block. -/
def State.outOfBlock (s : State) (is : Issue) (l : Nat) (f : Thread → Thread) : State :=
  (s.modSkein is.core is.slot fun k => { k with joined := k.joined &&& ~~~ maskOf [l] }).modThread is.core is.slot l f

/-- The issue of an instruction that has made the state u is over: nothing but the skein's stall count and its pipeline
changes further. -/
def State.issueOver (u t : State) (is : Issue) : Prop :=
  u.keepsElse t is.core is.slot ∧ t.issue = none ∧
  ∀ k', u.skein is.core is.slot = some k' → ∃ r, t.skein is.core is.slot = some { k' with readyAt := r, blocked := none }

/-- A user thread ENTERS ITS HANDLER at a fault of an instruction whose effect has made the state u before it: TRAPVEC is an
address of a word, is not zero, and holds a header of length 2 or more; the record is written and the thread goes on at TRAPVEC
as supervisor (04 R99, R100); of the rest only memory's caches may change, by the fetch of the header. -/
def State.entersHandler (s : State) (i : Instr) (is : Issue) (k : Skein) (l : Nat) (c : Cause) (addr info : Word)
    (u : State := s) : Prop :=
  let vec := (u.varOf is.core is.slot k.ctx).trapvec
  let s1 := u.outOfBlock is l fun th => th.atHandler c is.pc addr info vec
  (laneOf k.threads l).sup = false → vec ≠ 0 → vec.toNat % 8 = 0 →
  (∃ h, (s1.fetch is.core k.ctx vec false).2 = .ok h ∧ isHeader h = true ∧ 2 ≤ fld h 47 8) →
  ∃ v t, s1.memOnly v ∧ exec i s = .next t ∧ v.issueOver t is

/-- The event of one thread's fault, of kind 2 (04 R104, 11 R299). -/
def faultEvent (is : Issue) (k : Skein) (l cause : Nat) (addr info : Word) : Event :=
  { kind := 2, core := is.core, slot := is.slot, mask := maskOf [l], cause := BitVec.ofNat 32 cause, grid := k.grid
    pc := is.pc, addr := addr, info := info, wg := k.wg }

/-- A user thread whose context has no handler is HOST-PARKED at the instruction, and one event of kind 2 names it (04 R99,
R104, 11 R299). -/
def State.parksForHost (s : State) (i : Instr) (is : Issue) (k : Skein) (l : Nat) (c : Cause) (addr info : Word)
    (u : State := s) : Prop :=
  let s1 := u.outOfBlock is l fun th => th.parkedAt .hostParked c is.pc addr info
  (laneOf k.threads l).sup = false → (u.varOf is.core is.slot k.ctx).trapvec = 0 →
  ∃ t, exec i s = .next t ∧ (s1.post k.ctx false (faultEvent is k l (256 + c.code) addr info)).issueOver t is

/-- A supervisor thread's fault is NESTED: the thread is host-parked, its record stays, and one event of kind 2 names it (04
R99, R103, R104). -/
def State.parksNested (s : State) (i : Instr) (is : Issue) (k : Skein) (l : Nat) (c : Cause) (addr info : Word)
    (u : State := s) : Prop :=
  let s1 := u.outOfBlock is l fun th => { th with st := .hostParked }
  (laneOf k.threads l).sup = true →
  ∃ t, exec i s = .next t ∧ (s1.post k.ctx false (faultEvent is k l (512 + c.code) addr info)).issueOver t is

/-- A user thread whose TRAPVEC holds a word that is no handler's header: the record of the fault is written and the thread
stands at TRAPVEC as supervisor, host-parked by a nested BAD_TARGET there (04 R100, R103). -/
def State.handlerless (s : State) (i : Instr) (is : Issue) (k : Skein) (l : Nat) (c : Cause) (addr info : Word)
    (u : State := s) : Prop :=
  let vec := (u.varOf is.core is.slot k.ctx).trapvec
  let s1 := u.outOfBlock is l fun th => th.atHandler c is.pc addr info vec
  (laneOf k.threads l).sup = false → vec ≠ 0 →
  ∀ h, (s1.fetch is.core k.ctx vec false).2 = .ok h → (isHeader h = true → 2 ≤ fld h 47 8 → vec.toNat % 8 ≠ 0) →
  ∃ v t, s1.memOnly v ∧ exec i s = .next t ∧
    ((v.modThread is.core is.slot l fun th => { th with st := .hostParked }).post k.ctx false
      { faultEvent is k l (512 + Cause.badTarget.code) vec h with pc := vec }).issueOver t is

/-- A fault of an instruction that is neither replayable nor for a debugger IS TAKEN, by a user thread with a handler, by one
with a word at TRAPVEC that is none, by one without TRAPVEC, and by a supervisor thread. -/
def State.faults (s : State) (i : Instr) (is : Issue) (k : Skein) (l : Nat) (c : Cause) (addr info : Word)
    (u : State := s) : Prop :=
  s.entersHandler i is k l c addr info u ∧ s.handlerless i is k l c addr info u ∧ s.parksForHost i is k l c addr info u ∧
  s.parksNested i is k l c addr info u

end Sys2Proof.Machine
end

