-- ==== Sys2Proof/Certificates/Slice0/Obligations.lean ====
section
/-! DEFINITION. The statements for the provers. Each says which rules of spec/ it follows; `LaneSpec.completes`,
`State.endsAs` and the shapes are in Sys2Proof/Safety.lean. -/

open Sys2Proof Sys2Proof.Machine

-- INSTRUCTIONS OF FIXED LATENCY

/-- The operations of 05 R113, each with its latency (03 R67) and its result element at width e. -/
def Sys2Proof.Claims.pairTable (x : FmtR) : List (Instr × Nat × ((e : Nat) → BitVec e → BitVec e → BitVec e)) :=
  [(.add x, 4, fun _ a b => a + b),
   (.sub x, 4, fun _ a b => a - b),
   (.adds x, 4, fun e a b => clampTo e (a.toInt + b.toInt)),
   (.addsn x, 4, fun e a b => BitVec.ofNat e (min (a.toNat + b.toNat) (2 ^ e - 1))),
   (.subs x, 4, fun e a b => clampTo e (a.toInt - b.toInt)),
   (.subsn x, 4, fun e a b => BitVec.ofNat e (a.toNat - b.toNat)),
   (.mul x, 6, fun _ a b => a * b),
   (.mulhs x, 6, fun e a b => BitVec.ofInt e (a.toInt * b.toInt / 2 ^ e)),
   (.mulhn x, 6, fun e a b => BitVec.ofNat e (a.toNat * b.toNat / 2 ^ e)),
   (.mins x, 4, fun _ a b => if b.slt a then b else a),
   (.minn x, 4, fun _ a b => if b.ult a then b else a),
   (.maxs x, 4, fun _ a b => if a.slt b then b else a),
   (.maxn x, 4, fun _ a b => if a.ult b then b else a),
   (.and x, 4, fun _ a b => a &&& b),
   (.or x, 4, fun _ a b => a ||| b),
   (.xor x, 4, fun _ a b => a ^^^ b),
   (.andn x, 4, fun _ a b => a &&& ~~~ b),
   (.shl x, 4, fun e a b => a <<< (b.toNat % e)),
   (.shr x, 4, fun e a b => a >>> (b.toNat % e)),
   (.sar x, 4, fun e a b => a.sshiftRight (b.toNat % e)),
   (.rol x, 4, fun e a b => a.rotateLeft (b.toNat % e))]

/-- 05 R111 to R113: ADD to ROL complete at every sub, with every source modifier and under the uniform bit, and write the
element results of the table. -/
def Obligations.IntegerPairsWriteTheirTable : Prop :=
  ∀ (x : FmtR), ∀ p ∈ Sys2Proof.Claims.pairTable x, (LaneSpec.intPairs x p.2.1 p.2.2).completes p.1 x.ctl

/-- The operations of 05 R114 with their result elements at width e. -/
def Sys2Proof.Claims.eachTable (x : FmtR) : List (Instr × ((e : Nat) → BitVec e → BitVec e)) :=
  [(.abs x, fun _ b => if b.toInt < 0 then -b else b),
   (.neg x, fun _ b => -b),
   (.popc x, fun e b => BitVec.ofNat e ((List.range e).countP fun j => b.getLsbD j)),
   (.clz x, fun e b => BitVec.ofNat e (if b = 0 then e else e - 1 - Nat.log2 b.toNat)),
   (.brev x, fun _ b => b.reverse),
   (.mov x, fun _ b => b)]

/-- 05 R114: ABS, NEG, POPC, CLZ, BREV and MOV complete at every sub and write the element results of the table; under a
cross-thread modifier the operand is another thread's. -/
def Obligations.IntegerUnaryWritesItsTable : Prop :=
  ∀ (x : FmtR), ∀ p ∈ Sys2Proof.Claims.eachTable x, (LaneSpec.intEach x 4 p.2).completes p.1 x.ctl

/-- The position and the length of a bit field at width w (05 R117). -/
def Sys2Proof.Claims.field (w b : Nat) : Nat × Nat := (b % 256, min (b / 256 % 256) (w - b % 256))

/-- The mask of len ones. -/
def Sys2Proof.Claims.ones (w len : Nat) : BitVec w := BitVec.ofNat w (2 ^ len - 1)

/-- 05 R115 to R117: ADDP, MAD, MADW, DOT4S, DOT4N, SAD and the bit-field operations complete and write what the tables and
the pcode say. -/
def Obligations.IntegerThreeSourceWritesItsTable : Prop :=
  (∀ x : FmtR,
    let wb := if x.sub = 1 then 8 else 4
    LaneSpec.completes
      { reads := [.reg x.a 8, .mod x.b x.mod wb (.int (8 * wb) 1)], dsts := [(x.dst, 8, 1)], lat := 4
        result := fun t _ => some (.reg x.dst 8 (BitVec.ofNat 64 (t.val 0) +
          (if x.sub = 0 then (BitVec.ofNat 32 (t.val 1)).signExtend 64 else BitVec.ofNat 64 (t.val 1))).toNat) }
      (.addp x) x.ctl) ∧
  (∀ x : FmtF,
    let w := (intShape (fld x.sub 0 2)).1
    let e := (intShape (fld x.sub 0 2)).2.1
    let n := (intShape (fld x.sub 0 2)).2.2
    (LaneSpec.three x w w w 6 1 fun a b c => joinElems e (((elems e n a).zip (elems e n b)).zipWith
      (fun p z => (BitVec.ofNat e p.1 * BitVec.ofNat e p.2 + BitVec.ofNat e z).toNat) (elems e n c))).completes (.mad x) x.ctl) ∧
  (∀ x : FmtF,
    (LaneSpec.three x 4 8 8 6 1 fun a b c => (if x.sub = 0 then
        (BitVec.ofNat 32 a).signExtend 64 * (BitVec.ofNat 32 b).signExtend 64 + BitVec.ofNat 64 c
      else BitVec.ofNat 64 a * BitVec.ofNat 64 b + BitVec.ofNat 64 c).toNat).completes (.madw x) x.ctl) ∧
  (∀ x : FmtF,
    let e := (intShape (fld x.sub 0 2)).2.1
    let n := (intShape (fld x.sub 0 2)).2.2
    (LaneSpec.three x 4 4 4 6 1 fun a b c => (BitVec.ofInt 32 ((c : Int) +
      ((elems e n a).zipWith (fun p q => (BitVec.ofNat e p).toInt * (BitVec.ofNat e q).toInt) (elems e n b)).sum)).toNat).completes
      (.dot4s x) x.ctl ∧
    (LaneSpec.three x 4 4 4 6 1 fun a b c => (BitVec.ofNat 32 (c +
      ((elems e n a).zipWith (fun p q => p * q) (elems e n b)).sum)).toNat).completes (.dot4n x) x.ctl ∧
    (LaneSpec.three x 4 4 4 6 1 fun a b c => (BitVec.ofNat 32 (c +
      ((elems e n a).zipWith (fun p q => max p q - min p q) (elems e n b)).sum)).toNat).completes (.sad x) x.ctl) ∧
  (∀ x : FmtF, (x.sub = 0 ∨ x.sub = 1) →
    let w := if x.sub = 0 then 32 else 64
    let f (b : Nat) := Sys2Proof.Claims.field w b
    LaneSpec.completes
      { reads := [.reg x.a (w / 8), .reg x.b (w / 8)], dsts := [(x.dst, w / 8, 1)], lat := 4
        result := fun t _ => some (.reg x.dst (w / 8)
          ((BitVec.ofNat w (t.val 0) >>> (f (t.val 1)).1) &&& Sys2Proof.Claims.ones w (f (t.val 1)).2).toNat) }
      (.bfx x) x.ctl ∧
    LaneSpec.completes
      { reads := [.reg x.a (w / 8), .reg x.b (w / 8)], dsts := [(x.dst, w / 8, 1)], lat := 4
        result := fun t _ => some (.reg x.dst (w / 8)
          (((BitVec.ofNat w (t.val 0) >>> (f (t.val 1)).1).setWidth (f (t.val 1)).2).signExtend w).toNat) }
      (.bfxs x) x.ctl ∧
    (LaneSpec.three x (w / 8) (w / 8) (w / 8) 4 1 fun a b c =>
      let m := Sys2Proof.Claims.ones w (f b).2
      (BitVec.ofNat w c &&& ~~~ (m <<< (f b).1) ||| (BitVec.ofNat w a &&& m) <<< (f b).1).toNat).completes (.bfi x) x.ctl)

/-- The operations of 05 R118 with their latencies and results. -/
def Sys2Proof.Claims.immTable (x : FmtI) : List (Instr × Nat × (BitVec 32 → BitVec 32)) :=
  let i := x.imm.signExtend 32
  let n := x.imm.toNat % 32
  [(.addi x, 4, fun a => a + i), (.muli x, 6, fun a => a * i), (.andi x, 4, fun a => a &&& i), (.ori x, 4, fun a => a ||| i),
   (.xori x, 4, fun a => a ^^^ i), (.shli x, 4, fun a => a <<< n), (.shri x, 4, fun a => a >>> n),
   (.sari x, 4, fun a => a.sshiftRight n)]

/-- 05 R118, R119: the immediate operations and the constants MOVI, MOVHI and MOVTI complete and write their results. -/
def Obligations.ImmediateFormsWriteTheirResults : Prop :=
  (∀ (x : FmtI), ∀ p ∈ Sys2Proof.Claims.immTable x,
    (LaneSpec.imm x 4 4 p.2.1 fun a => (p.2.2 (BitVec.ofNat 32 a)).toNat).completes p.1 x.ctl) ∧
  ∀ x : FmtI,
    LaneSpec.completes { reads := [], dsts := [(x.dst, 4, 1)], lat := 4
                         result := fun _ _ => some (.reg x.dst 4 (x.imm.signExtend 32).toNat) } (.movi x) x.ctl ∧
    LaneSpec.completes { reads := [.reg x.dst 4], dsts := [(x.dst, 4, 1)], lat := 4
                         result := fun t _ => some (.reg x.dst 4
                           (x.imm.extractLsb' 0 16 ++ BitVec.ofNat 16 (t.val 0)).toNat) } (.movhi x) x.ctl ∧
    LaneSpec.completes { reads := [.reg x.dst 8], dsts := [(x.dst, 8, 1)], lat := 4
                         result := fun t _ => some (.reg x.dst 8
                           (x.imm.signExtend 32 ++ BitVec.ofNat 32 (t.val 0)).toNat) } (.movti x) x.ctl

/-- A comparison by its condition code: EQ, NE, LT, LE, GT, GE (05 R121). -/
def Sys2Proof.Claims.holds (code : Nat) (a b : Int) : Bool :=
  [decide (a = b), decide (a ≠ b), decide (a < b), decide (a ≤ b), decide (b < a), decide (b ≤ a)].getD code (decide (b ≤ a))

/-- 05 R120 to R124: NOP, the comparisons, the predicate operations and SEL complete; each changes P by exactly its one push,
pops or load, and only PMOV.get and SEL write a register. -/
def Obligations.PredicatesAndComparisonsFollowTheirRules : Prop :=
  (∀ x : FmtR,
    let w := if fld x.mod 3 1 = 1 then 8 else 4
    let cmp (signed : Bool) (v : Nat) : Int := if signed then (BitVec.ofNat (8 * w) v).toInt else v
    let spec (signed : Bool) : LaneSpec :=
      { reads := [.reg x.a w, .reg x.b w], dsts := [], lat := 4
        result := fun t _ => some (.push (Sys2Proof.Claims.holds (fld x.mod 0 3) (cmp signed (t.val 0)) (cmp signed (t.val 1)))) }
    (spec true).completes (.cmps x) x.ctl ∧ (spec false).completes (.cmpn x) x.ctl) ∧
  (∀ x : FmtI,
    let spec (f : Nat → Bool) : LaneSpec :=
      { reads := [.reg x.a 4], dsts := [], lat := 4, result := fun t _ => some (.push (f (t.val 0))) }
    (spec fun a => Sys2Proof.Claims.holds (fld x.dst 0 3) (BitVec.ofNat 32 a).toInt x.imm.toInt).completes (.cmpsi x) x.ctl ∧
    (spec fun a => Sys2Proof.Claims.holds (fld x.dst 0 3) a x.imm.toNat).completes (.cmpni x) x.ctl) ∧
  ∀ x : FmtR,
    let pure (f : LaneIn → Option Wr) : LaneSpec := { reads := [], dsts := [], lat := 4, result := fun t _ => f t }
    let px (t : LaneIn) : Bool := t.pred.getLsbD (fld x.a 0 3) ^^ x.sub.getLsbD 0
    let py (t : LaneIn) : Bool := t.pred.getLsbD (fld x.b 0 3) ^^ x.sub.getLsbD 1
    let w := if x.sub = 0 then 4 else 8
    (pure fun _ => none).completes (.nop x) x.ctl ∧
    (pure fun t => some (.push (px t && py t))).completes (.pand x) x.ctl ∧
    (pure fun t => some (.push (px t || py t))).completes (.por x) x.ctl ∧
    (pure fun t => some (.push (px t ^^ py t))).completes (.pxor x) x.ctl ∧
    (pure fun t => some (.push !(t.pred.getLsbD (fld x.a 0 3)))).completes (.pnot x) x.ctl ∧
    (pure fun _ => some (.pop (fld x.a 0 3 + 1))).completes (.ppop x) x.ctl ∧
    LaneSpec.completes { reads := [.reg x.b w], dsts := [], lat := 4
                         result := fun t _ => some (.push (decide (t.val 0 ≠ 0))) } (.ppush x) x.ctl ∧
    LaneSpec.completes { reads := [], dsts := [(x.dst, 4, 1)], lat := 4
                         result := fun t _ => some (.reg x.dst 4 t.pred.toNat) } (.pmovGet x) x.ctl ∧
    LaneSpec.completes { reads := [.reg x.b 4], dsts := [], lat := 4
                         result := fun t _ => some (.setPred (BitVec.ofNat 8 (t.val 0))) } (.pmovSet x) x.ctl ∧
    LaneSpec.completes
      { reads := [.reg x.a (intShape x.sub.toNat).1,
                  .mod x.b x.mod (intShape x.sub.toNat).1 (.int (intShape x.sub.toNat).2.1 (intShape x.sub.toNat).2.2)]
        dsts := [(x.dst, (intShape x.sub.toNat).1, 1)], lat := 4
        result := fun t _ => some (.reg x.dst (intShape x.sub.toNat).1 (if t.pred.getLsbD 0 then t.val 0 else t.val 1)) }
      (.sel x) x.ctl

/-- The operations of 05 R128 on bit vectors with their identities. -/
def Sys2Proof.Claims.combine (w code : Nat) : (BitVec w → BitVec w → BitVec w) × BitVec w :=
  [((· + ·), 0), (fun a b => if b.slt a then b else a, BitVec.intMax w), (fun a b => if b.ult a then b else a, BitVec.allOnes w),
   (fun a b => if a.slt b then b else a, BitVec.intMin w), (fun a b => if a.ult b then b else a, 0),
   ((· &&& ·), BitVec.allOnes w), ((· ||| ·), 0), ((· ^^^ ·), 0)].getD code ((· ^^^ ·), 0)

/-- 05 R125 to R129: VOTE, PERM, SCAN, RDUC and MATCH complete over the active threads of the instruction and give each of
them its result. -/
def Obligations.SkeinWideOperationsCombineTheParticipants : Prop :=
  ∀ x : FmtR,
    let w := if x.sub = 0 then 4 else 8
    let px (t : LaneIn) : Bool := t.pred.getLsbD (fld x.a 0 3)
    let mask (ts : List LaneIn) (f : LaneIn → Bool) : Nat := ((ts.filter f).map fun t => 2 ^ t.lane).sum
    let op := Sys2Proof.Claims.combine (8 * w) (fld x.a 0 3)
    let total (ts : List LaneIn) : Nat := ((ts.map fun t => BitVec.ofNat (8 * w) (t.val 0)).foldl op.1 op.2).toNat
    LaneSpec.completes
      { reads := [], dsts := if x.sub = 2 then [(x.dst, 4, 1)] else [], lat := 8
        result := fun t ts => some (match x.sub.toNat with
          | 0 => .push (ts.all px)
          | 1 => .push (ts.any px)
          | 2 => .reg x.dst 4 (mask ts px)
          | _ => .push (ts.all fun u => px u == px t)) } (.vote x) x.ctl ∧
    LaneSpec.completes { reads := [.perm x.b x.a w], dsts := [(x.dst, w, 1)], lat := 8
                         result := fun t _ => some (.reg x.dst w (t.val 0)) } (.perm x) x.ctl ∧
    LaneSpec.completes { reads := [.reg x.b w], dsts := [(x.dst, w, 1)], lat := 8
                         result := fun t ts => some (.reg x.dst w (total (ts.filter fun u =>
                           decide (u.lane < t.lane) || (fld x.a 3 1 == 0 && u.lane == t.lane)))) } (.scan x) x.ctl ∧
    LaneSpec.completes { reads := [.reg x.b w], dsts := [(x.dst, w, 1)], lat := 8
                         result := fun _ ts => some (.reg x.dst w (total ts)) } (.rduc x) x.ctl ∧
    LaneSpec.completes { reads := [.reg x.b w], dsts := [(x.dst, 4, 1)], lat := 8
                         result := fun t ts => some (.reg x.dst 4 (mask ts fun u => u.val 0 == t.val 0)) }
      (.matchMask x) x.ctl

/-- 06 R153 to R157: the f32 instructions complete and write the exact value of their expression rounded once by sub (or push
the comparison), at the latencies of 03 R67. -/
def Obligations.SinglePrecisionWritesTheRoundedValue : Prop :=
  (∀ x : FmtR,
    let rm := rmOf (fld x.sub 0 2)
    let v := f32.val
    let bin (lat : Nat) (f : Nat → Nat → Nat) : LaneSpec := LaneSpec.two x 4 (.float 32 1) lat 1 f
    let un (lat : Nat) (f : Nat → Nat) : LaneSpec := LaneSpec.one x 4 4 (.float 32 1) lat f
    (bin 6 fun a b => f32.arith rm ((v a).add rm (v b))).completes (.fadd x) x.ctl ∧
    (bin 6 fun a b => f32.arith rm ((v a).add rm (v b).neg)).completes (.fsub x) x.ctl ∧
    (bin 6 fun a b => f32.arith rm ((v a).mul (v b))).completes (.fmul x) x.ctl ∧
    (bin 16 fun a b => f32.arith rm ((v a).div (v b))).completes (.fdiv x) x.ctl ∧
    (bin 6 (f32.minMax false)).completes (.fmin x) x.ctl ∧
    (bin 6 (f32.minMax true)).completes (.fmax x) x.ctl ∧
    (LaneSpec.two x 4 (.int 32 1) 6 1 fun a b =>
      f32.arith rm ((v a).mul (.fin false 1 (clampInt (-1000) 1000 (BitVec.ofNat 32 b).toInt)))).completes (.fscl x) x.ctl ∧
    (un 16 fun b => f32.arith rm (v b).sqrt).completes (.fsqrt x) x.ctl ∧
    (un 6 fun b => fFrc rm b).completes (.ffrc x) x.ctl ∧
    (un 6 fun b => fRnd rm b).completes (.frnd x) x.ctl ∧
    LaneSpec.completes
      { reads := [.reg x.a 4, .mod x.b x.mod 4 (.float 32 1)], dsts := [], lat := 6
        result := fun t _ => some (.push (condFloat (fld x.dst 0 3) (v (t.val 0)) (v (t.val 1)))) } (.fcmp x) x.ctl ∧
    (LaneSpec.one x (if x.sub = 0 then 4 else 8) 4 (.float (8 * if x.sub = 0 then 4 else 8) 1) 6
      (if x.sub = 0 then f32 else f64).classify).completes (.fcls x) x.ctl) ∧
  ∀ x : FmtF,
    let rm := rmOf (fld x.sub 0 2)
    (LaneSpec.three x 4 4 4 6 1 fun a b c =>
      f32.arith rm (((f32.val a).mul (f32.val b)).add rm (f32.val c))).completes (.ffma x) x.ctl ∧
    (LaneSpec.three x 4 4 4 6 1 fun a b c => f32.minMax false (f32.minMax true a b) c).completes (.fclmp x) x.ctl ∧
    (LaneSpec.three x 4 4 4 8 1 fun a b c =>
      let d := f32.arith rm ((f32.val b).add rm (f32.val a).neg)
      f32.arith rm (((f32.val d).mul (f32.val c)).add rm (f32.val a))).completes (.flerp x) x.ctl

/-- 06 R151: a NaN that an arithmetic instruction produces is the canonical quiet NaN of the format, and an operand that is a
NaN makes the sum, difference, product, quotient and fused result one. -/
def Obligations.ArithmeticNaNsAreCanonical : Prop :=
  (∀ rm neg p w, f32.arith rm (.nan neg p w) = 0x7FC00000 ∧ f64.arith rm (.nan neg p w) = 0x7FF8000000000000 ∧
    (fmtOf 2).arith rm (.nan neg p w) = 0x7FC0 ∧ (fmtOf 3).arith rm (.nan neg p w) = 0x7E00) ∧
  ∀ (rm : Rm) (a b c : Val), (a.isNan = true ∨ b.isNan = true) →
    (a.add rm b).isNan = true ∧ (a.mul b).isNan = true ∧ (a.div b).isNan = true ∧ ((a.mul b).add rm c).isNan = true

/-- 06 R158, R159: the special functions complete at latency 12 and write their reference functions. -/
def Obligations.SpecialFunctionsWriteTheirReference : Prop :=
  ∀ x : FmtR,
    let un (f : Nat → Nat) : LaneSpec := LaneSpec.one x 4 4 (.float 32 1) 12 f
    (un fRcp).completes (.frcp x) x.ctl ∧ (un fRsq).completes (.frsq x) x.ctl ∧ (un fEx2).completes (.fex2 x) x.ctl ∧
    (un fLg2).completes (.flg2 x) x.ctl ∧ (un (fSinCos 0)).completes (.fsin x) x.ctl ∧
    (un (fSinCos 1)).completes (.fcos x) x.ctl

/-- 06 R156, R161 to R164: the f64, packed and 16-bit instructions and the dot products complete and write their rounded
values, element by element; an f64 instruction takes four cycles for each thread. -/
def Obligations.DoublePackedAndHalfWriteTheRoundedValue : Prop :=
  (∀ x : FmtR,
    let rm := rmOf (fld x.sub 0 2)
    let h : Fmt := if x.sub.getLsbD 0 then fmtOf 2 else fmtOf 3
    let hrm : Rm := if x.sub.getLsbD 1 then .rtz else .rne
    let pairs (e : Nat) (f : Nat → Nat → Nat) (a b : Nat) : Nat := joinElems e ((elems e 2 a).zipWith f (elems e 2 b))
    let d (f : Nat → Nat → Nat) : LaneSpec := LaneSpec.two x 8 (.float 64 1) 10 4 f
    let pk (f : Nat → Nat → Nat) : LaneSpec := LaneSpec.two x 8 (.float 32 2) 6 1 (pairs 32 f)
    let hf (f : Nat → Nat → Nat) : LaneSpec := LaneSpec.two x 4 (.float 16 2) 6 1 (pairs 16 f)
    (d fun a b => f64.arith rm ((f64.val a).add rm (f64.val b))).completes (.dadd x) x.ctl ∧
    (d fun a b => f64.arith rm ((f64.val a).mul (f64.val b))).completes (.dmul x) x.ctl ∧
    LaneSpec.completes
      { reads := [.reg x.a 8, .mod x.b x.mod 8 (.float 64 1)], dsts := [], cost := 4, lat := 10
        result := fun t _ => some (.push (condFloat (fld x.dst 0 3) (f64.val (t.val 0)) (f64.val (t.val 1)))) }
      (.dcmp x) x.ctl ∧
    (pk fun a b => f32.arith rm ((f32.val a).add rm (f32.val b))).completes (.pkadd x) x.ctl ∧
    (pk fun a b => f32.arith rm ((f32.val a).mul (f32.val b))).completes (.pkmul x) x.ctl ∧
    (hf fun a b => h.arith hrm ((h.val a).add hrm (h.val b))).completes (.hadd2 x) x.ctl ∧
    (hf fun a b => h.arith hrm ((h.val a).mul (h.val b))).completes (.hmul2 x) x.ctl ∧
    (hf (h.minMax false)).completes (.hmin2 x) x.ctl ∧ (hf (h.minMax true)).completes (.hmax2 x) x.ctl) ∧
  ∀ x : FmtF,
    let rm := rmOf (fld x.sub 0 2)
    let h : Fmt := if x.sub.getLsbD 0 then fmtOf 2 else fmtOf 3
    let hrm : Rm := if x.sub.getLsbD 1 then .rtz else .rne
    let triples (e : Nat) (f : Nat → Nat → Nat → Nat) (a b c : Nat) : Nat :=
      joinElems e (((elems e 2 a).zip (elems e 2 b)).zipWith (fun p z => f p.1 p.2 z) (elems e 2 c))
    let e8 (i : Nat) : Fmt := if x.sub.getLsbD i then fmtOf 4 else fmtOf 5
    let dot (f g : Fmt) (e n a b c : Nat) : Nat := f32.arith .rne ((((elems e n a).map f.val).zip ((elems e n b).map g.val)).foldl
      (fun acc p => acc.add .rne (p.1.mul p.2)) (f32.val c))
    (LaneSpec.three x 8 8 8 10 4 fun a b c =>
      f64.arith rm (((f64.val a).mul (f64.val b)).add rm (f64.val c))).completes (.dfma x) x.ctl ∧
    (LaneSpec.three x 8 8 8 6 1 (triples 32 fun a b c =>
      f32.arith rm (((f32.val a).mul (f32.val b)).add rm (f32.val c)))).completes (.pkfma x) x.ctl ∧
    (LaneSpec.three x 4 4 4 6 1 (triples 16 fun a b c =>
      h.arith hrm (((h.val a).mul (h.val b)).add hrm (h.val c)))).completes (.hfma2 x) x.ctl ∧
    (LaneSpec.three x 4 4 4 8 1 (dot h h 16 2)).completes (.fdot2 x) x.ctl ∧
    (LaneSpec.three x 4 4 4 8 1 (dot (e8 1) (e8 0) 8 4)).completes (.fdot4e x) x.ctl

/-- 06 R166 to R173: the conversions, PACK and UNPK with a permitted format code, and the random-number instructions complete
and write their values in the destination's container. -/
def Obligations.ConversionsWriteTheConvertedValue : Prop :=
  (∀ x : FmtI,
    let f := fld x.imm 0 6
    let d := fld x.imm 6 6
    let ty := fld x.imm 6 3
    (LaneSpec.imm x (container f) (container d) 6
      (cvtFloat f d (rmOf (fld x.imm 12 2)) (x.imm.getLsbD 14))).completes (.cvtff x) x.ctl ∧
    (LaneSpec.imm x (container f) (2 ^ (ty / 2)) 6 fun a => (BitVec.ofInt (8 * 2 ^ (ty / 2))
      (((fmtOf f).val (fromContainer f a)).toIntIn (rmOf (fld x.imm 9 2)) (intTypeRange ty).1 (intTypeRange ty).2)).toNat).completes
      (.cvtfi x) x.ctl ∧
    (LaneSpec.imm x (2 ^ (fld x.imm 0 3 / 2)) (container (fld x.imm 3 6)) 6 fun a => toContainer (fld x.imm 3 6)
      ((fmtOf (fld x.imm 3 6)).cvt (rmOf (fld x.imm 9 2)) (x.imm.getLsbD 11) (Val.ofInt
        (if fld x.imm 0 3 % 2 = 0 then (BitVec.ofNat (8 * 2 ^ (fld x.imm 0 3 / 2)) a).toInt else a) 0))).completes
      (.cvtif x) x.ctl ∧
    (LaneSpec.imm x 4 4 6 fun a => mix32 (Nat.xor (mix32 a) x.imm.toNat)).completes (.rngi x) x.ctl) ∧
  (∀ x : FmtR,
    let d := fld x.mod 0 6
    LaneSpec.completes
      { reads := [.reg x.a 4, .reg x.b 4], dsts := [(x.dst, container d, 1)], lat := 6
        result := fun t _ => some (.reg x.dst (container d)
          (toContainer d ((fmtOf d).sr (t.val 0) (t.val 1) (x.mod.getLsbD 6)))) } (.cvtsr x) x.ctl ∧
    (LaneSpec.two x 4 .plain 6 1 fun a b => mix32 (Nat.xor (mix32 b) a)).completes (.rng x) x.ctl) ∧
  ∀ x : FmtF,
    LaneSpec.completes
      { reads := [.reg x.dst 4, .reg x.a 4, .reg x.b 4, .reg x.c 4], dsts := [(x.dst, 4, 1)], lat := 6
        fits := fun t => 2 ≤ bits (t.val 3) 0 6 ∧ bits (t.val 3) 0 6 ≤ 16
        result := fun t _ =>
          let c := t.val 3
          let code := bits c 0 6
          let e := slotWidth code
          let k := bits c 9 5
          let el (v : Nat) : Nat := elemBits code (rmOf (bits c 6 2)) (c.testBit 8) (f32.val v)
          some (.reg x.dst 4 (setBits (setBits (t.val 0) (e * (k % (32 / e))) e (el (t.val 1)))
            (e * ((k + 1) % (32 / e))) e (el (t.val 2)))) } (.pack x) x.ctl ∧
    LaneSpec.completes
      { reads := [.reg x.a 4, .reg x.b 4, .reg x.c 4], dsts := [(x.dst, 4, 1)], lat := 6
        fits := fun t => 2 ≤ bits (t.val 1) 0 6 ∧ bits (t.val 1) 0 6 ≤ 31
        result := fun t _ =>
          let code := bits (t.val 1) 0 6
          let e := slotWidth code
          let el := bits (t.val 0) (e * (bits (t.val 1) 9 5 % (32 / e))) e
          some (.reg x.dst 4 (if code ≤ 16 then f32.cvt .rne false (elemVal code (el % 2 ^ elemWidth code))
            else f32.arith .rne (blockVal code (t.val 2) (el % 2 ^ elemWidth (blockOf code).elem)))) } (.unpk x) x.ctl

-- CONTROL

/-- A branch target of permitted bits whose word, where it can be fetched, is a header (03 R61, 05 R132). -/
def Sys2Proof.Claims.target (s : State) (is : Issue) (k : Skein) (user : Bool) (a : Word) : Prop :=
  a.toNat < 2 ^ 52 ∧ a.toNat % 8 = 0 ∧ ∀ h, (s.fetch is.core k.ctx a user).2 = .ok h → isHeader h = true

/-- What a target of other bits, and a word fetched there that is no header, make of a branch: BAD_TARGET, with the target in
TRAPADDR (03 R61, 04 R98). -/
def Sys2Proof.Claims.badTargets (s : State) (i : Instr) (is : Issue) (k : Skein) (l : Nat) (a : Word) : Prop :=
  let r := s.fetch is.core k.ctx a (!(laneOf k.threads l).sup)
  ((2 ^ 52 ≤ a.toNat ∨ a.toNat % 8 ≠ 0) → s.faults i is k l .badTarget a is.word) ∧
  (a.toNat < 2 ^ 52 → a.toNat % 8 = 0 → ∀ h, r.2 = .ok h → isHeader h = false → s.faults i is k l .badTarget a is.word r.1)

/-- 05 R130, R132 to R134, 03 R61: BRA, BRX, CALL, CALLX and RET COMPLETE where their target is a header, or lies where nothing can
be fetched: the thread goes to the target and leaves its block; CALL and CALLX also write LINK, 4 cycles after, with the word
after the block. The fetch of the target touches caches alone. Any other target is BAD_TARGET. -/
def Obligations.BranchesTransferControl : Prop :=
  ∀ (x : FmtC) (s : State) (is : Issue) (k : Skein) (l : Nat), s.poisedOne is k x.ctl l →
    let th := laneOf k.threads l
    let rel : Word := is.pc + 8 * x.off.signExtend 64
    let reg : Word := word (th.reg x.reg 8)
    let good (a : Word) : Prop := Sys2Proof.Claims.target s is k (!th.sup) a
    let at_ (a : Word) : State := (s.fetch is.core k.ctx a (!th.sup)).1
    let linked (u : State) : State := u.modThread is.core is.slot l fun t =>
      { t with pend := t.pend ++ [{ due := s.cycle + 4, what := .link k.blkEnd }] }
    (good rel → ∃ t, exec (.bra x) s = .next t ∧ (at_ rel).endsAs t (.bra x) is l (.jump rel)) ∧
    (good rel → ∃ t, exec (.call x) s = .next t ∧ (linked (at_ rel)).endsAs t (.call x) is l (.jump rel)) ∧
    (good th.link → ∃ t, exec (.ret x) s = .next t ∧ (at_ th.link).endsAs t (.ret x) is l (.jump th.link)) ∧
    (th.has k.alloc [(x.reg, 8, 1)] → good reg →
      (∃ t, exec (.brx x) s = .next t ∧ (at_ reg).endsAs t (.brx x) is l (.jump reg)) ∧
      ∃ t, exec (.callx x) s = .next t ∧ (linked (at_ reg)).endsAs t (.callx x) is l (.jump reg)) ∧
    (∀ a, s.memOnly (at_ a)) ∧
    Sys2Proof.Claims.badTargets s (.bra x) is k l rel ∧ Sys2Proof.Claims.badTargets s (.call x) is k l rel ∧
    Sys2Proof.Claims.badTargets s (.ret x) is k l th.link ∧
    (th.has k.alloc [(x.reg, 8, 1)] →
      Sys2Proof.Claims.badTargets s (.brx x) is k l reg ∧ Sys2Proof.Claims.badTargets s (.callx x) is k l reg)

/-- 05 R135 to R137, 04 R94: EXIT ends its thread and discards what it is owed; YIELD and SLEEP end the run, SLEEP n waits
until 64 × n cycles after its issue and then goes on, parked where a debug stop waits for it, and its step raised where it steps; BAR
drains the queue at .wg and waits. What EXIT and BAR do to the workgroup follows as `State.settle`. -/
def Obligations.ThreadsEndAndWait : Prop :=
  (∀ (x : FmtC) (s : State) (is : Issue) (k : Skein) (l : Nat), s.poisedOne is k x.ctl l →
    (∃ t, exec (.exit x) s = .next (t.settle is.core is.slot) ∧
      (s.modThread is.core is.slot l fun th =>
        { th with st := .exited, held := [], pend := [], stopNext := false, stepNext := none }).endsAs t (.exit x) is l .moved) ∧
    (∃ t, exec (.yield x) s = .next t ∧ ((t.core is.core).pipe (is.slot / 8)).run = none ∧
      (s.modSkein is.core is.slot fun k => { k with yielded := true }).endsAs t (.yield x) is l .next) ∧
    (∃ t, exec (.sleep x) s = .next t ∧ ((t.core is.core).pipe (is.slot / 8)).run = none ∧
      if x.imm = 0 then (s.modSkein is.core is.slot fun k => { k with yielded := true }).endsAs t (.sleep x) is l .next
      else s.endsAs t (.sleep x) is l (.wait (.sleep (s.cycle + 64 * x.imm.toNat)) [])) ∧
    ∃ t, exec (.bar x) s = .next (t.settle is.core is.slot) ∧
      (s.drainTo is.core is.slot 1).endsAs t (.bar x) is l (.wait .bar [])) ∧
  (∀ (s : State) (core slot lane c : Nat) (th : Thread) (w : Wait), s.thread core slot lane = some th →
    th.st = .waiting w → w.what = .sleep c →
    (s.cycle < c ∨ s.halted core slot = true → exec (.sleepWake core slot lane) s = .next s) ∧
    (c ≤ s.cycle → s.halted core slot = false →
      let u := s.modThread core slot lane fun t => { t with
        st := if th.stopNext then .debugParked else .running, stopNext := false, pc := th.pc + 8, stepNext := none }
      (th.stepNext = none → exec (.sleepWake core slot lane) s = .next u) ∧
      ∀ a, th.stepNext = some a → exec (.sleepWake core slot lane) s =
        .next (u.raise core slot (th.pc + 8) 0 [(lane, { cause := .step, info := some a })]))) ∧
  ∀ (s : State) (core slot : Nat) (k : Skein), s.skein core slot = some k → (∀ th ∈ k.threads, th.st = .exited) → k.sq = [] →
    (∀ q ∈ (s.core core).shuttle, q.slot ≠ slot) → (s.reap core slot).skein core slot = none

/-- 04 R97 to R100, R103, R104, R107, 05 R138, 03 R78, R79: TRAP and BRK COMPLETE in every such state: their effect is to take
their exception, with imm in TRAPINFO. A user thread enters the handler at TRAPVEC, is parked there by a nested BAD_TARGET where
that word is no handler's header, and parks for the host where TRAPVEC is zero; a supervisor thread's fault is nested; under
DBGHOST a BRK parks either for the debugger. An unallocated opcode, a supervisor instruction in a user thread, and an access at
an address that its size does not divide take theirs in the same way. -/
def Obligations.FaultsTakeTheirExceptions : Prop :=
  ∀ (s : State) (is : Issue) (k : Skein) (l : Nat),
    let th := laneOf k.threads l
    (∀ x : FmtC, s.poisedOne is k x.ctl l →
      (∃ t, exec (.trap x) s = .next t) ∧ (∃ t, exec (.brk x) s = .next t) ∧
      s.faults (.trap x) is k l .trap 0 (x.imm.setWidth 64) ∧
      (k.dbgctl.getLsbD 2 = false → s.faults (.brk x) is k l .brk 0 (x.imm.setWidth 64)) ∧
      (k.dbgctl.getLsbD 2 = true →
        let park (q : Thread) : Thread :=
          if q.sup then { q with st := .debugParked } else q.parkedAt .debugParked .brk is.pc 0 (x.imm.setWidth 64)
        ∃ t k', exec (.brk x) s = .next t ∧ t.skein is.core is.slot = some k' ∧ laneOf k'.threads l = park th ∧
          t.ctxs = ((s.outOfBlock is l park).post k.ctx false
            (faultEvent is k l ((if th.sup then 512 else 256) + Cause.brk.code) 0 (x.imm.setWidth 64))).ctxs)) ∧
    (∀ w, s.poised is k → lanesOf is.present = [l] → s.faults (.unallocatedOpcode w) is k l .illegalOp 0 w) ∧
    (s.poised is k → lanesOf is.present = [l] → th.sup = false →
      (∀ x, s.faults (.tret x) is k l .priv 0 is.word) ∧ (∀ x, s.faults (.mon x) is k l .priv 0 is.word) ∧
      (∀ x, s.faults (.tblw x) is k l .priv 0 is.word) ∧ (∀ x, s.faults (.tblinv x) is k l .priv 0 is.word) ∧
      ∀ x : FmtS, SysReg.userRead x.num = false → s.faults (.srd x) is k l .priv 0 is.word) ∧
    ∀ x : FmtM, s.poisedOne is k x.ctl l → th.has k.alloc [(x.base, 8, 1)] →
      let ea : Word := word (th.reg x.base 8) + x.off.signExtend 64
      (∀ sz, ea.toNat % (LdSize.shape sz).1 ≠ 0 → th.has k.alloc [(x.data, (LdSize.shape sz).2.1, 1)] →
        s.faults (.ld sz x) is k l .align ea is.word ∧ s.faults (.ldg sz x) is k l .align ea is.word) ∧
      (∀ sz, ea.toNat % (StSize.shape sz).1 ≠ 0 → th.has k.alloc [(x.data, (StSize.shape sz).2, 1)] →
        s.faults (.st sz x) is k l .align ea is.word) ∧
      ∀ (op : AtomOp) (wide : Bool), ea.toNat % (if wide then 8 else 4) ≠ 0 →
        (th.has k.alloc [(x.data, if wide then 8 else 4, if op = .cas then 2 else 1)] →
          s.faults (.atom op wide x) is k l .align ea is.word) ∧
        (th.has k.alloc [(x.data, if wide then 8 else 4, 1)] → s.faults (.red op wide x) is k l .align ea is.word)

/-- 04 R102, R104, 05 R139: in a supervisor thread TRET restores what the trap record holds and goes to TRAPPC, or to the
word after it; ESCL restores the same at TRAPPC, parks the thread for the host, and posts the record's event. -/
def Obligations.TrapsReturn : Prop :=
  ∀ (x : FmtC) (s : State) (is : Issue) (k : Skein) (l : Nat), s.poisedOne is k x.ctl l →
    let th := laneOf k.threads l
    let r := th.trec
    let back (pc : Word) (st : ThreadState) (_ : Thread) : Thread :=
      { th with pred := r.pred, link := r.link, blk := r.blk, sup := !r.cause.getLsbD 8, pc := pc, st := st
                views := { v0 := r.view.extractLsb' 0 16, v1 := r.view.extractLsb' 16 16, v2 := r.view.extractLsb' 32 16
                           v3 := r.view.extractLsb' 48 16 } }
    th.sup = true →
    ((Views.unpack r.view).ok = false → ∃ t, exec (.tret x) s = .next t ∧
      ((s.outOfBlock is l fun th => { th with st := .hostParked }).post k.ctx false
        { kind := 2, core := is.core, slot := is.slot, mask := maskOf [l]
          cause := BitVec.ofNat 32 (512 + Cause.illegalField.code), grid := k.grid, pc := is.pc, info := is.word
          wg := k.wg }).issueOver t is) ∧
    ((Views.unpack r.view).ok = true → ∃ t, exec (.tret x) s = .next t ∧
      (s.modThread is.core is.slot l (back (if x.imm.getLsbD 0 then r.pc + 8 else r.pc) .running)).endsAs t (.tret x) is l
        .moved) ∧
    ((Views.unpack r.view).ok = true → ∃ t, exec (.escl x) s = .next (t.post k.ctx false
        { kind := 2, core := is.core, slot := is.slot, mask := maskOf [l], cause := r.cause, grid := k.grid, pc := r.pc
          addr := r.addr, info := r.info, wg := k.wg }) ∧
      (s.modThread is.core is.slot l (back r.pc .hostParked)).endsAs t (.escl x) is l .moved)

-- SYSTEM REGISTERS

/-- The system registers that a thread can read, each with its number and value (04 R89 to R93); w and g are its workgroup and
its grid. -/
def Sys2Proof.Claims.registers (is : Issue) (k : Skein) (l : Nat) (c : CtxVar) (w : Workgroup) (g : Grid) :
    List (BitVec 12 × Nat) :=
  let th := laneOf k.threads l
  let r := th.trec
  let spindle := decide (is.slot = 1023)
  let lanes (f : ThreadState → Bool) : Nat := (maskOf ((List.range 32).filter fun i => f (laneOf k.threads i).st)).toNat
  [(0x000, r.cause.toNat), (0x001, r.pc.toNat), (0x002, r.addr.toNat), (0x003, r.info.toNat), (0x004, r.pred.toNat),
   (0x005, r.link.toNat), (0x006, r.blk.toNat), (0x007, r.view.toNat), (0x008, r.scrA.toNat), (0x009, r.scrB.toNat),
   (0x010, th.views.v0.toNat), (0x011, th.views.v1.toNat), (0x012, th.views.v2.toNat), (0x013, th.views.v3.toNat),
   (0x014, th.link.toNat), (0x015, th.pred.toNat),
   (0x100, k.dbgctl.toNat), (0x101, (k.dbgctl.getLsbD 0).toNat), (0x102, 0),
   (0x103, lanes (fun st => decide (st = .exited)) * 2 ^ 32 + lanes fun st => decide (st = .hostParked ∨ st = .debugParked)),
   (0x200, c.trapvec.toNat), (0x201, c.trapstk.toNat), (0x202, c.watchdog), (0x203, c.carve), (0x204, c.dbgdef.toNat),
   (0x300, if spindle then 0xFFFFFFFF else 32 * k.idx + l), (0x301, l), (0x302, if spindle then 0xFFFFFFFF else k.idx),
   (0x303, w.x), (0x304, w.y), (0x305, w.z), (0x306, w.threads), (0x307, k.grid), (0x308, is.core), (0x309, is.core / 24),
   (0x30A, g.depth), (0x30B, k.ctx), (0x30C, ((g.strip).map (·.k)).getD 0xFFFFFFFF), (0x30D, th.shlevel)]

/-- The width at which SRD and SWR use their register (05 R141). -/
def Sys2Proof.Claims.sysBytes (th : Thread) (r : RegOp) : Nat :=
  if 64 ≤ viewWidth (th.views.get (RegOp.view r)) then 8 else 4

/-- A result owed to a thread: the scoreboard holds its destination (03 R66). -/
def Sys2Proof.Claims.owes (s : State) (is : Issue) (l : Nat) (r : RegOp) (w v : Nat) : State :=
  s.modThread is.core is.slot l fun th => { th with held := th.held ++ [{ addr := regAddr th.views r, bytes := toBytes w v }] }

/-- 04 R89 to R93, 05 R141, R142: SRD of a register that the thread's privilege permits is owed that register's value,
zero-extended; one of 64 bits through a view of narrower elements is ILLEGAL_FIELD. -/
def Obligations.SystemRegistersAreRead : Prop :=
  ∀ (x : FmtS) (s : State) (is : Issue) (k : Skein) (l : Nat) (w : Workgroup) (g : Grid), s.poisedOne is k x.ctl l →
    s.wg k.wgKey = some w → s.grid k.ctx k.grid = some g →
    let th := laneOf k.threads l
    let n := Sys2Proof.Claims.sysBytes th x.reg
    th.has k.alloc [(x.reg, n, 1)] → (th.sup = true ∨ SysReg.userRead x.num = true) →
    (SysReg.wide x.num = true → n = 4 → s.faults (.srd x) is k l .illegalField 0 is.word) ∧
    ((SysReg.wide x.num = true → n = 8) → ∀ p ∈ Sys2Proof.Claims.registers is k l (s.varOf is.core is.slot k.ctx) w g,
      x.num = p.1 → ∃ t, exec (.srd x) s = .next t ∧
        (Sys2Proof.Claims.owes s is l x.reg n p.2).endsAs t (.srd x) is l .next)

/-- The thread's own system registers with what a write of v leaves (04 R89, R90, 05 R141). -/
def Sys2Proof.Claims.threadWrites (v : Nat) : List (BitVec 12 × (Thread → Thread)) :=
  let r (f : TrapRec → TrapRec) (th : Thread) : Thread := { th with trec := f th.trec }
  let q : Word := BitVec.ofNat 64 v
  let h : BitVec 16 := BitVec.ofNat 16 v
  [(0x000, r fun x => { x with cause := (BitVec.ofNat 11 v).setWidth 32 }), (0x001, r fun x => { x with pc := q }),
   (0x002, r fun x => { x with addr := q }), (0x003, r fun x => { x with info := q }),
   (0x004, r fun x => { x with pred := BitVec.ofNat 8 v }), (0x005, r fun x => { x with link := q }),
   (0x006, r fun x => { x with blk := q }), (0x007, r fun x => { x with view := q }), (0x008, r fun x => { x with scrA := q }),
   (0x009, r fun x => { x with scrB := q }),
   (0x010, fun th => if viewOk h then { th with views := { th.views with v0 := h } } else th),
   (0x011, fun th => if viewOk h then { th with views := { th.views with v1 := h } } else th),
   (0x012, fun th => if viewOk h then { th with views := { th.views with v2 := h } } else th),
   (0x013, fun th => if viewOk h then { th with views := { th.views with v3 := h } } else th),
   (0x014, fun th => { th with link := q }), (0x015, fun th => { th with pred := BitVec.ofNat 8 v })]

/-- The context's system registers: the field that a write of v leaves in the device's copy, and the place and bytes that it
leaves in the context's entry (04 R92, 15 R381, R382). -/
def Sys2Proof.Claims.contextWrites (v : Nat) : List (BitVec 12 × (CtxVar → CtxVar) × Nat × List Byte) :=
  [(0x200, fun c => { c with trapvec := BitVec.ofNat 64 v }, 0x18, toBytes 8 v),
   (0x201, fun c => { c with trapstk := BitVec.ofNat 64 v }, 0x20, toBytes 8 v),
   (0x202, fun c => { c with watchdog := v % 2 ^ 32 }, 0x28, toBytes 4 v),
   (0x204, fun c => { c with dbgdef := BitVec.ofNat 3 v }, 0x2D, toBytes 1 (v % 8))]

/-- 04 R89 to R92, R110, 05 R141 to R143: SWR and SVIEW COMPLETE. SWR of a register that the thread's privilege permits writes
the thread's, the skein's or the context's register and nothing else, a context's, after a release at .dev, with its entry in
memory; a write of DBGRES is kept, and applied when everything else at the instruction's end has been; a view that 03 R71
rejects, and a register of 64 bits through a view of narrower elements, are ILLEGAL_FIELD, any other register is PRIV. SVIEW sets its
view. -/
def Obligations.SystemRegistersAreWritten : Prop :=
  (∀ (x : FmtS) (s : State) (is : Issue) (k : Skein) (l : Nat), s.poisedOne is k x.ctl l → k.dbg = [] →
    let th := laneOf k.threads l
    let n := Sys2Proof.Claims.sysBytes th x.reg
    let v := th.reg x.reg n
    (th.sup = false → SysReg.userWrite x.num = false → s.faults (.swr x) is k l .priv 0 is.word) ∧
    (th.has k.alloc [(x.reg, n, 1)] → (th.sup = true ∨ SysReg.userWrite x.num = true) →
      (SysReg.wide x.num = true → n = 4 → s.faults (.swr x) is k l .illegalField 0 is.word) ∧
      (0x010 ≤ x.num.toNat → x.num.toNat ≤ 0x013 → viewOk (BitVec.ofNat 16 v) = false →
        s.faults (.swr x) is k l .illegalField 0 is.word) ∧
      ((SysReg.wide x.num = true → n = 8) →
        (∀ p ∈ Sys2Proof.Claims.threadWrites v, x.num = p.1 →
          (0x010 ≤ x.num.toNat → x.num.toNat ≤ 0x013 → viewOk (BitVec.ofNat 16 v) = true) →
          ∃ t, exec (.swr x) s = .next t ∧ (s.modThread is.core is.slot l p.2).endsAs t (.swr x) is l .next) ∧
        (x.num = 0x100 → ∃ t, exec (.swr x) s = .next t ∧
          (s.modSkein is.core is.slot fun k => { k with dbgctl := BitVec.ofNat 3 v }).endsAs t (.swr x) is l .next) ∧
        (x.num = 0x101 → ∃ t, exec (.swr x) s = .next t ∧
          (s.modSkein is.core is.slot fun k => { k with dbgctl := k.dbgctl.extractLsb' 1 2 ++ BitVec.ofNat 1 v }).endsAs t
            (.swr x) is l .next) ∧
        (x.num = 0x102 → ∃ t, exec (.swr x) s = .next (t.ownDbgres is.core is.slot) ∧
          (s.modSkein is.core is.slot fun k => { k with dbg := [(v / 2 ^ 32 % 4, BitVec.ofNat 32 v)] }).endsAs t
            (.swr x) is l .next) ∧
        ∀ p ∈ Sys2Proof.Claims.contextWrites v, x.num = p.1 →
          let q := (s.drainTo is.core is.slot 4).modVar k.ctx p.2.1
          ∃ u t, q.memOnly u ∧
            (∀ a, q.ctxEntry k.ctx = some a → bytesAt u.mem.bytes (a + p.2.2.1) p.2.2.2.length = p.2.2.2) ∧
            exec (.swr x) s = .next t ∧ u.endsAs t (.swr x) is l .next))) ∧
  ∀ (x : FmtI) (s : State) (is : Issue) (k : Skein) (l : Nat), s.poisedOne is k x.ctl l →
    ∃ t, exec (.sview x) s = .next t ∧
      (s.modThread is.core is.slot l fun th => { th with views := th.views.put (fld x.dst 0 2) (x.imm.setWidth 16) }).endsAs t
        (.sview x) is l .next

/-- A monitor by its number (18 R449), of a skein whose run has a core clock of mhz. -/
def Sys2Proof.Claims.monitorValue (s : State) (ctx mhz n : Nat) : Nat :=
  if n ≤ 0x017 then (lookD 0 s.mon.temps n).toNat
  else if 0x100 ≤ n ∧ n ≤ 0x10B then (lookD 0 s.mon.volts (n - 0x100)).toNat
  else if 0x200 ≤ n ∧ n ≤ 0x207 then (lookD 0 s.mon.procs (n - 0x200)).toNat
  else if n = 0x300 then mhz
  else if n = 0x301 then s.mon.throttle
  else if 0x500 ≤ n ∧ n ≤ 0x516 then (if n = 0x508 ∨ n = 0x509 then 0 else lookD 0 (s.ctx ctx).errors (n - 0x500))
  else lookD 0 s.errors (n - 0x600)

/-- 18 R440, R449: TIME is owed the counter in nanoseconds, in units of 2^-16 ns or in seconds; MON, in a supervisor thread,
the monitor that its number names; the core clock is that of its run. (The zero of MON 0x508 and 0x509 is the model's reading,
log entry 21.) -/
def Obligations.TimeAndMonitorsAreRead : Prop :=
  (∀ (x : FmtI) (s : State) (is : Issue) (k : Skein) (l : Nat), s.poisedOne is k x.ctl l →
    (laneOf k.threads l).has k.alloc [(x.dst, 8, 1)] →
    ∃ t, exec (.time x) s = .next t ∧
      (Sys2Proof.Claims.owes s is l x.dst 8 ((match fld x.imm 0 2 with
        | 0 => s.time.now / 2 ^ 40
        | 1 => s.time.now / 2 ^ 24
        | _ => s.time.now / 2 ^ 40 / 10 ^ 9) % 2 ^ 64)).endsAs t (.time x) is l .next) ∧
  ∀ (x : FmtS) (s : State) (is : Issue) (k : Skein) (l : Nat), s.poisedOne is k x.ctl l →
    (laneOf k.threads l).has k.alloc [(x.reg, 4, 1)] → (laneOf k.threads l).sup = true → Monitor.allocated x.num = true →
    ∃ t, exec (.mon x) s = .next t ∧
      (Sys2Proof.Claims.owes s is l x.reg 4 (Sys2Proof.Claims.monitorValue s k.ctx
        ((((s.core is.core).pipe (is.slot / 8)).run.map (·.mhz)).getD s.mon.mhz) x.num.toNat)).endsAs t (.mon x) is l .next

-- MEMORY

/-- A trap that an instruction meets in the state u is taken as 04 R97 to R104 say, unless it is to be replayed or goes to a
debugger. -/
def Sys2Proof.Claims.traps (s : State) (i : Instr) (is : Issue) (k : Skein) (l : Nat) (q : Trap) (u : State) : Prop :=
  u.skein is.core is.slot = some k → q.cause.replayable = false → q.cause ≠ .watchdog → q.cause.debug = false →
  s.faults i is k l q.cause q.addr (q.info.getD is.word) u

/-- EA of a format M access (09 R231). -/
def Sys2Proof.Claims.ea (th : Thread) (x : FmtM) : Word := word (th.reg x.base 8) + x.off.signExtend 64

/-- The offset that an address of window 0x00 names: its own core's scratchpad (07 R174, R176). -/
def Sys2Proof.Claims.inScratch (va : Word) (off : Nat) : Prop := off < 2 ^ 21 ∧ va = BitVec.ofNat 64 (0xF * 2 ^ 48 + off)

/-- A workgroup's scratchpad holds n readable bytes at an offset on a core: within the grant, every line present without a
ring mark, no poisoned word (07 R176, R192, R193, R202). -/
def Sys2Proof.Claims.readable (s : State) (core wk : Nat) (w : Workgroup) (off n : Nat) : Prop :=
  let p := s.part wk ((w.slotOf core).getD 0)
  s.wg wk = some w ∧ off + n ≤ w.scratch ∧ p.missing off n = [] ∧ (∀ j ∈ units 128 off n, look p.marks j = none) ∧
  p.badIn off n = []

/-- 07 R174 to R177: an address at or above 2^52, a reserved window, window 0x03 in a user thread and an atomic on window 0x02
or 0x03 are PROT with the access's lowest byte as TRAPADDR; window 0x00 names the own core's part of the grant, and for loads
the compressed apertures. Checking a window changes nothing. -/
def Obligations.WindowAddressesAreChecked : Prop :=
  ∀ (s : State) (core ctx wk : Nat) (w : Workgroup) (va : Word) (n : Nat) (use : Use) (user : Bool), s.wg wk = some w →
    let acc : AccKind := if use = .load then .read else .write
    let prot : Trap := { cause := .prot, addr := va, acc := acc }
    (2 ^ 52 ≤ va.toNat → s.place core ctx wk va n use user = (s, .error prot)) ∧
    (va.toNat / 2 ^ 48 = 0xF → 3 < va.toNat / 2 ^ 40 % 2 ^ 8 → s.place core ctx wk va n use user = (s, .error prot)) ∧
    (va.toNat / 2 ^ 40 = 0xF03 → user = true → s.place core ctx wk va n use user = (s, .error prot)) ∧
    (va.toNat / 2 ^ 40 = 0xF02 ∨ va.toNat / 2 ^ 40 = 0xF03 → use = .atom →
      s.place core ctx wk va n use user = (s, .error prot)) ∧
    ∀ off, Sys2Proof.Claims.inScratch va off → s.place core ctx wk va n use user =
      (s, if off + n ≤ w.scratch then .ok (.scr wk ((w.slotOf core).getD 0) off)
          else if 0x180000 ≤ off ∧ off + n ≤ 2 ^ 21 ∧ use = .load then .ok (.aper wk ((w.slotOf core).getD 0) off) else .error prot)

/-- 09 R231, R233, 07 R176, R193: LD and LDG of bytes that the workgroup's scratchpad holds are owed those bytes,
sign-extended for .s8 and .s16, and change nothing else; where a line is not present the thread waits. A load of any other
place is owed what a read of that place answers, and of host kind it waits for the link. -/
def Obligations.LoadsAreOwedTheirBytes : Prop :=
  ∀ (sz : LdSize) (ldg : Bool) (x : FmtM) (s : State) (is : Issue) (k : Skein) (l : Nat), s.poisedOne is k x.ctl l →
    let i : Instr := if ldg then .ldg sz x else .ld sz x
    let th := laneOf k.threads l
    let n := (LdSize.shape sz).1
    let w := (LdSize.shape sz).2.1
    let ext (v : Nat) : Nat := if (LdSize.shape sz).2.2 then ((BitVec.ofNat (8 * n) v).signExtend 32).toNat else v
    let va := Sys2Proof.Claims.ea th x
    th.has k.alloc [(x.base, 8, 1)] → th.has k.alloc [(x.data, w, 1)] → va.toNat % n = 0 →
    (∀ g off, Sys2Proof.Claims.inScratch va off → k.sq = [] →
      (∀ c, s.tileBusy is.core is.slot (.scr k.wgKey c off) n false = false) →
      (Sys2Proof.Claims.readable s is.core k.wgKey g off n →
        ∃ t, exec i s = .next t ∧ (Sys2Proof.Claims.owes s is l x.data w
          (ext (natAt (s.part k.wgKey ((g.slotOf is.core).getD 0)).bytes off n))).endsAs t i is l .next) ∧
      (s.wg k.wgKey = some g → off + n ≤ g.scratch → (s.part k.wgKey ((g.slotOf is.core).getD 0)).missing off n ≠ [] →
        ∃ t, exec i s = .next t ∧ s.endsAs t i is l (.wait .presence [th.reg x.base 8]))) ∧
    ∀ u p, s.place is.core k.ctx k.wgKey va n .load (!th.sup) = (u, .ok p) →
      (∀ a, p = .host a → ∃ t, exec i s = .next t ∧ u.endsAs t i is l (.wait .link [th.reg x.base 8])) ∧
      ((∀ a, p ≠ .host a) → u.tileBusy is.core is.slot p n false = false → ∀ v bs bad,
        u.readFor is.core is.slot p n (ldg || (x.ctl.flag && u.wideScope k x.ctl.scope.toNat)) = (v, .ok bs [] bad) →
        ∃ t, exec i s = .next t ∧ (v.hold (siteOf s is l) x.data w (ext (ofBytes bs)) bad).endsAs t i is l .next)

/-- A skein's store queue with one entry more, at its place in the order of the skein's accesses. -/
def Sys2Proof.Claims.queued (s : State) (is : Issue) (e : SqEntry) : State :=
  s.modSkein is.core is.slot fun q => { q with sq := q.sq ++ [{ e with seq := q.ord }], ord := q.ord + 1 }

/-- 08 R209, 09 R231, R234, R235: ST and RED join the skein's store queue with the bytes, or the operation and operand, that
they carry, with their kind and scope, and change nothing else at their issue; the address is checked and translated first. A
RED has let the skein's earlier entries perform, which its presence and poison checks see. -/
def Obligations.StoresAndReductionsQueue : Prop :=
  (∀ (sz : StSize) (x : FmtM) (s : State) (is : Issue) (k : Skein) (l : Nat), s.poisedOne is k x.ctl l →
    let th := laneOf k.threads l
    let n := (StSize.shape sz).1
    let va := Sys2Proof.Claims.ea th x
    th.has k.alloc [(x.base, 8, 1), (x.data, (StSize.shape sz).2, 1)] → va.toNat % n = 0 →
    s.copyWaits (siteOf s is l) k va = false →
    ∀ u p, s.place is.core k.ctx k.wgKey va n .store (!th.sup) = (u, .ok p) → u.tileBusy is.core is.slot p n true = false →
      s.memOnly u ∧ ∃ t, exec (.st sz x) s = .next t ∧
        (Sys2Proof.Claims.queued u is
          { act := .store p (toBytes n (th.reg x.data (StSize.shape sz).2)) [] (u.isPrivate is.core is.slot k.ctx va.toNat)
            rel := x.ctl.flag, scope := x.ctl.scope.toNat, lane := l }).endsAs t (.st sz x) is l .next) ∧
  ∀ (op : AtomOp) (wide : Bool) (x : FmtM) (s : State) (is : Issue) (k : Skein) (l : Nat), s.poisedOne is k x.ctl l →
    let th := laneOf k.threads l
    let n := if wide then 8 else 4
    let va := Sys2Proof.Claims.ea th x
    th.has k.alloc [(x.base, 8, 1), (x.data, n, 1)] → s.copyWaits (siteOf s is l) k va = false →
    ∀ u p v, s.atomPlace (siteOf s is l) k va n true op = (u, .ok p) →
      u.atomReady (siteOf s is l) k.wgKey va p n = (v, none) →
      s.memOnly u ∧ ∃ t, exec (.red op wide x) s = .next t ∧
        (Sys2Proof.Claims.queued v is
          { act := .red p op wide (th.reg x.data n), rel := x.ctl.flag, scope := x.ctl.scope.toNat, lane := l }).endsAs t
          (.red op wide x) is l .next

/-- The new value of an atomic at w bits, but for CAS and FADD (09 R235). -/
def Sys2Proof.Claims.atomTable (w : Nat) : List (AtomOp × (BitVec w → BitVec w → BitVec w)) :=
  [(.add, fun old v => old + v), (.mins, fun old v => if v.slt old then v else old),
   (.minn, fun old v => if v.ult old then v else old), (.maxs, fun old v => if old.slt v then v else old),
   (.maxn, fun old v => if old.ult v then v else old), (.and, fun old v => old &&& v), (.or, fun old v => old ||| v),
   (.xor, fun old v => old ^^^ v), (.exch, fun _ v => v)]

/-- 09 R235: what an atomic writes: the table's value, for CAS the operand where the old value equals the comparand and
nothing otherwise, for FADD the sum rounded to nearest even. -/
def Obligations.AtomicsComputeTheirTable : Prop :=
  ∀ (w : Nat) (old v c : BitVec w), 0 < w →
    (∀ p ∈ Sys2Proof.Claims.atomTable w, atomStore p.1 w old.toNat v.toNat c.toNat = some (p.2 old v).toNat) ∧
    (atomStore .cas w old.toNat v.toNat c.toNat = if old = c then some v.toNat else none) ∧
    (w = 32 → atomStore .fadd w old.toNat v.toNat c.toNat =
      some (f32.arith .rne ((f32.val old.toNat).add .rne (f32.val v.toNat)))) ∧
    (w = 64 → atomStore .fadd w old.toNat v.toNat c.toNat =
      some (f64.arith .rne ((f64.val old.toNat).add .rne (f64.val v.toNat))))

/-- 08 R209, R219, 09 R235, R236: ATOM on readable bytes of the workgroup's scratchpad, with the skein's queue empty, is owed
the old value and leaves the new one there in the same step, and changes nothing else; on any other place it performs, once
the queue has, as `State.atomAt`. -/
def Obligations.AtomicsReadAndWriteAtOnce : Prop :=
  ∀ (op : AtomOp) (wide : Bool) (x : FmtM) (s : State) (is : Issue) (k : Skein) (l : Nat), s.poisedOne is k x.ctl l →
    let th := laneOf k.threads l
    let n := if wide then 8 else 4
    let va := Sys2Proof.Claims.ea th x
    let d := natAt th.regs (regAddr th.views x.data) (n * if op = .cas then 2 else 1)
    let f (old : Nat) : Option Nat :=
      if op = .cas then atomStore .cas (8 * n) old (d / 2 ^ (8 * n) % 2 ^ (8 * n)) (d % 2 ^ (8 * n))
      else atomStore op (8 * n) old d 0
    th.has k.alloc [(x.base, 8, 1), (x.data, n, if op = .cas then 2 else 1)] → va.toNat % n = 0 →
    s.copyWaits (siteOf s is l) k va = false →
    (∀ g off, Sys2Proof.Claims.inScratch va off → Sys2Proof.Claims.readable s is.core k.wgKey g off n → k.sq = [] →
      x.ctl.flag = false → s.tileBusy is.core is.slot (.scr k.wgKey ((g.slotOf is.core).getD 0) off) n true = false →
      let c := (g.slotOf is.core).getD 0
      let old := natAt (s.part k.wgKey c).bytes off n
      ∃ t, exec (.atom op wide x) s = .next t ∧
        (Sys2Proof.Claims.owes (match f old with
          | none => s
          | some v => s.modPart k.wgKey c fun q => q.store off (toBytes n v) []) is l x.data n old).endsAs t
          (.atom op wide x) is l .next) ∧
    ∀ u p v, s.atomPlace (siteOf s is l) k va n false op = (u, .ok p) → (∀ a, p ≠ .host a) →
      u.atomReady (siteOf s is l) k.wgKey va p n = (v, none) →
      let q := if x.ctl.flag then v.drainTo is.core is.slot x.ctl.scope.toNat else v
      ∃ t, exec (.atom op wide x) s = .next t ∧
        ((q.atomAt is.core p n f).1.hold (siteOf s is l) x.data n (q.atomAt is.core p n f).2 []).endsAs t
          (.atom op wide x) is l .next

/-- 08 R209, R210, 07 R190, R192: the head of a store queue performs at the core: a store to a scratchpad changes exactly its
bytes there, one to the strip ring exactly its bytes, one of device kind whose line L1 does not hold joins the core's
write-throughs, unless an earlier access of the skein still waits; a write-through performs at the home slice and changes exactly
its bytes there, where no other core holds a line of it exclusively. -/
def Obligations.QueuedStoresPerform : Prop :=
  (∀ (s : State) (core slot : Nat) (k : Skein) (e : SqEntry) (r : List SqEntry) (bs : List Byte) (priv : Bool),
    s.skein core slot = some k → k.sq = e :: r → k.unblocked → e.rel = false → slot ≠ 1023 → (∃ th ∈ k.threads, th.st ≠ .exited) →
    let u := s.setSkein core slot { k with sq := r }
    (∀ w c off, e.act = .store (.scr w c off) bs [] priv → s.wg w ≠ none →
      exec (.storeQueuePerform core slot none) s = .next (u.modPart w c fun p => p.store off bs []) ∧
      ∀ a, byteAt ((u.modPart w c fun p => p.store off bs []).part w c).bytes a =
        if off ≤ a ∧ a < off + bs.length then bs.getD (a - off) 0 else byteAt (s.part w c).bytes a) ∧
    (∀ off, e.act = .store (.strip off) bs [] priv →
      exec (.storeQueuePerform core slot none) s = .next (u.putRing off bs) ∧
      ∀ a, byteAt (u.putRing off bs).mem.strip a =
        if off ≤ a ∧ a < off + bs.length then bs.getD (a - off) 0 else byteAt s.mem.strip a) ∧
    ∀ pa, e.act = .store (.dev pa) bs [] false → look (s.core core).l1 (pa / 128) = none →
      exec (.storeQueuePerform core slot none) s =
        .next (u.modCore core fun c => { c with wt := c.wt ++ [{ pa := pa, bytes := bs, ctx := k.ctx }] })) ∧
  ∀ (s : State) (core slot : Nat) (w : WriteThrough) (r : List WriteThrough), (s.core core).wt = w :: r →
    (∀ c ≠ core, ∀ j ∈ units 128 w.pa w.bytes.length, ∀ line, look (s.core c).l1 j = some line → line.excl = false) →
    ∃ t, exec (.storeQueuePerform core slot (some 0)) s = .next t ∧ s.memOnly t ∧ (t.core core).wt = r ∧
      ∀ a, t.homeByte a =
        if w.pa ≤ a ∧ a < w.pa + w.bytes.length then w.bytes.getD (a - w.pa) 0 else s.homeByte a

/-- An instruction of one thread COMPLETES with the effect u and a fate. -/
def Sys2Proof.Claims.completesAs (s : State) (i : Instr) (is : Issue) (l : Nat) (u : State) (f : Fate) : Prop :=
  ∃ t, exec i s = .next t ∧ u.endsAs t i is l f

/-- 08 R214, R218, 09 R237 to R240, 05 R140: FENCE, FENCEI, PREF and CMO COMPLETE. The full FENCE ends when every earlier entry
of the skein's store queue has performed and, at .sector or wider, every write-through of the core and every private line of its
L1; FENCE.rel ends at once and stands in the store queue as a release at its scope. FENCEI is a full fence and empties the core's
lines for fetch as well. PREF changes at most caches, nothing for L2; for L1 it fills a clean line of device kind that the thread
may read and L1 does not hold. CMO joins the store queue, and is PROT where its range passes 2^52. -/
def Obligations.FencesAndCacheControlComplete : Prop :=
  ∀ (s : State) (is : Issue) (k : Skein) (l : Nat),
    let th := laneOf k.threads l
    (∀ x : FmtM, s.poisedOne is k x.ctl l →
      let u := s.drainTo is.core is.slot x.ctl.scope.toNat
      (x.ctl.flag = false → (∃ t, exec (.fence x) s = .next t ∧ u.endsAs t (.fence x) is l .next) ∧
        (∃ k', u.skein is.core is.slot = some k' ∧ k'.sq = []) ∧
        (3 ≤ x.ctl.scope.toNat → (u.core is.core).wt = [] ∧
          ∀ j d, look (u.core is.core).l1 j = some d → d.dirty = true → d.excl = true)) ∧
      (x.ctl.flag = true → ∃ t, exec (.fence x) s = .next t ∧ (Sys2Proof.Claims.queued s is
        { act := .fence, rel := true, scope := x.ctl.scope.toNat, lane := l }).endsAs t (.fence x) is l .next)) ∧
    (∀ e r, s.skein is.core is.slot = some k → k.unblocked → k.sq = e :: r → e.act = .fence → e.rel = true →
      s.performHead is.core is.slot =
        (s.setSkein is.core is.slot { k with sq := r }).release is.core (s.wideScope k e.scope)) ∧
    (∀ x : FmtC, s.poisedOne is k x.ctl l →
      let u := (s.drainTo is.core is.slot (x.imm.toNat % 8)).modCore is.core fun c => { c with icache := [] }
      (∃ t, exec (.fencei x) s = .next t ∧ u.endsAs t (.fencei x) is l .next) ∧
      (∃ k', u.skein is.core is.slot = some k' ∧ k'.sq = []) ∧ (u.core is.core).icache = []) ∧
    (∀ x : FmtM, s.poisedOne is k x.ctl l → th.has k.alloc [(x.base, 8, 1)] →
      (∃ u t, s.memOnly u ∧ (x.ctl.flag = true → u = s) ∧ exec (.pref x) s = .next t ∧ u.endsAs t (.pref x) is l .next) ∧
      let a := (Sys2Proof.Claims.ea th x).toNat
      ∀ v lf i, x.ctl.flag = false → a < 0xF * 2 ^ 48 → s.walkOnly k.ctx a .read (!th.sup) = (v, .ok (lf, i)) →
        let line := lf.pa a / 128
        lf.pte / 2 ^ 8 % 4 = 0 → (∀ j ∈ units 8 (128 * line) 128, j ∉ s.mem.poison) → look (s.core is.core).l1 line = none →
        ∃ t, exec (.pref x) s = .next t ∧ (s.fill is.core line false).endsAs t (.pref x) is l .next) ∧
    ∀ x : FmtX, s.poisedOne is k x.ctl l → th.has k.alloc [(x.r1, 8, 1), (x.r2, 8, 1)] →
      let lo := th.reg x.r1 8
      let n := th.reg x.r2 8
      (lo + n ≤ 2 ^ 52 → ∃ t, exec (.cmo x) s = .next t ∧ (Sys2Proof.Claims.queued s is
        { act := .cmo (x.imm.toNat / 4 % 4) (x.imm.toNat % 4)
            (if n = 0 then [] else s.rangesIn k.ctx lo (lo + n) (!th.sup)), lane := l }).endsAs t (.cmo x) is l .next) ∧
      (2 ^ 52 < lo + n → s.faults (.cmo x) is k l .prot (word (max lo (2 ^ 52)))
        is.word)

/-- An address of the own grant, in window 0x00 or as slot c of window 0x01 (07 R174, R176). -/
def Sys2Proof.Claims.inOwn (c : Nat) (va : Word) (off : Nat) : Prop :=
  off < 2 ^ 21 ∧ (va = BitVec.ofNat 64 (0xF * 2 ^ 48 + off) ∨ (c < 4 ∧ va = BitVec.ofNat 64 (0xF01 * 2 ^ 40 + c * 2 ^ 21 + off)))

/-- 09 R253, R254, R255, 15 R382: SPZ, SPABS, SPCRD and CARVE COMPLETE. SPZ and SPABS of whole lines of the own grant join the
store queue, and of a length of 0 do nothing; an address or a length that is no multiple of 128 is ALIGN, a line outside the own
grant PROT with the lowest one's address. SPCRD of a valid descriptor joins the store queue, and is ILLEGAL_FIELD with reserved
bits or a table address that is no multiple of 4, PROT where the table leaves the grant. CARVE writes the context's reservation, after a
release at .dev, in the device's copy and in the context's entry. -/
def Obligations.ScratchpadControlCompletes : Prop :=
  ∀ (s : State) (is : Issue) (k : Skein) (l : Nat) (x : FmtX) (g : Workgroup), s.poisedOne is k x.ctl l →
    s.wg k.wgKey = some g →
    let th := laneOf k.threads l
    let c := (g.slotOf is.core).getD 0
    (th.has k.alloc [(x.r1, 8, 1), (x.r2, 4, 1)] →
      let va := word (th.reg x.r1 8)
      let n := th.reg x.r2 4
      let trap (a : Word) (p : Cause) : Prop := s.faults (.spz x) is k l p a is.word ∧
        s.faults (.spabs x) is k l p a is.word
      (va.toNat % 128 ≠ 0 ∨ n % 128 ≠ 0 → trap va .align) ∧
      (va.toNat % 128 = 0 → n = 0 → (∃ t, exec (.spz x) s = .next t ∧ s.endsAs t (.spz x) is l .next) ∧
        ∃ t, exec (.spabs x) s = .next t ∧ s.endsAs t (.spabs x) is l .next) ∧
      (va.toNat % 128 = 0 → n % 128 = 0 → n ≠ 0 →
        (va.toNat < 0xF * 2 ^ 48 ∨ 2 ^ 52 ≤ va.toNat → trap va .prot) ∧
        ∀ off, Sys2Proof.Claims.inOwn c va off →
          (g.scratch < off + n → trap (va + word (g.scratch - off)) .prot) ∧
          (off + n ≤ g.scratch → s.tileBusy is.core is.slot (.scr k.wgKey c off) n true = false →
            (∃ t, exec (.spz x) s = .next t ∧ (Sys2Proof.Claims.queued s is
              { act := .spz k.wgKey c off n, lane := l }).endsAs t (.spz x) is l .next) ∧
            ∃ t, exec (.spabs x) s = .next t ∧ (Sys2Proof.Claims.queued s is
              { act := .spabs k.wgKey c off n, lane := l }).endsAs t (.spabs x) is l .next))) ∧
    (th.has k.alloc [(x.r1, 4, 1)] →
      let d := th.reg x.r1 4
      let table := d % 2 ^ 21
      let past := d / 2 ^ 31 % 2 = 1 ∧ g.scratch < table + 4 * (d / 2 ^ 26 % 32 + 1)
      let at_ := word (0xF * 2 ^ 48 + max table g.scratch)
      (d / 2 ^ 21 % 32 ≠ 0 ∨ table % 4 ≠ 0 → s.faults (.spcrd x) is k l .illegalField 0 is.word) ∧
      (d / 2 ^ 21 % 32 = 0 → table % 4 = 0 →
        (past → s.faults (.spcrd x) is k l .prot at_ is.word) ∧
        (¬ past → ∃ t, exec (.spcrd x) s = .next t ∧ (Sys2Proof.Claims.queued s is
          { act := .spcrd k.wgKey c (x.imm.toNat % 4) (BitVec.ofNat 32 d), lane := l }).endsAs t (.spcrd x) is l .next))) ∧
    let n := x.imm.toNat % 16
    let u := (s.drainTo is.core is.slot 4).modVar k.ctx fun v => { v with carve := n }
    ∃ t, exec (.carve x) s = .next t ∧ (match u.ctxEntry k.ctx with
      | none => u
      | some a => u.homeWrite (a + 0x2C) [BitVec.ofNat 8 n] [] none).endsAs t (.carve x) is l .next

/-- 09 R253, R254, 07 R192, R193: what those entries do when they perform: SPZ zeroes its lines and makes them present without
a ring mark; SPABS makes its lines absent and keeps every byte; SPCRD sets its descriptor. -/
def Obligations.ScratchpadControlPerforms : Prop :=
  ∀ (s : State) (core ctx w c off n : Nat) (g : Workgroup), s.wg w = some g →
    (let p := (s.performAct core ctx (.spz w c off n)).part w c
     (∀ a, byteAt p.bytes a = if off ≤ a ∧ a < off + n then 0 else byteAt (s.part w c).bytes a) ∧ p.missing off n = [] ∧
     ∀ j ∈ units 128 off n, look p.marks j = none) ∧
    (let p := (s.performAct core ctx (.spabs w c off n)).part w c
     p.bytes = (s.part w c).bytes ∧ (∀ j ∈ units 128 off n, j ∈ p.absent) ∧ ∀ j ∈ (s.part w c).absent, j ∈ p.absent) ∧
    ∀ j d, let p := (s.performAct core ctx (.spcrd w c j d)).part w c
      lookD 0 p.desc j = d ∧ p.bytes = (s.part w c).bytes ∧ p.absent = (s.part w c).absent

/-- WAIT's condition: on a word it compares the whole values, on a counter bits [62:0] (18 R441, R442). -/
def Sys2Proof.Claims.meets (kind cond v c : Nat) : Prop :=
  let a := if kind = 0 then v else v % 2 ^ 63
  let b := if kind = 0 then c else c % 2 ^ 63
  if cond = 0 then b ≤ a else if cond = 1 then a = b else a ≠ b

/-- 18 R441, R442: WAIT COMPLETES. It reads its word at the home slice or in the scratchpad; it goes on, owed the value, where
the condition holds, and waits where it does not or the word is not present; it faults on a counter whose bit 63 is set:
ENGINE_ERR for a local one, RING_DROPPED for a ring one. An address that 8 does not divide is ALIGN, a window of registers or
strips PROT, and what an LD of the word would meet is met. -/
def Obligations.WaitsReadTheirWord : Prop :=
  ∀ (s : State) (is : Issue) (k : Skein) (l : Nat) (x : FmtX), s.poisedOne is k x.ctl l →
    let th := laneOf k.threads l
    let va := word (th.reg x.r1 8)
    let c := th.reg x.r2 8
    let kind := x.imm.toNat / 4 % 4
    let cond := x.imm.toNat % 4
    let waits (u : State) : Prop := ∃ t, exec (.wait x) s = .next t ∧ u.endsAs t (.wait x) is l (.wait .word [th.reg x.r1 8, c])
    th.has k.alloc [(x.r1, 8, 1), (x.r2, 8, 1)] →
    (va.toNat % 8 ≠ 0 → s.faults (.wait x) is k l .align va is.word) ∧
    (va.toNat % 8 = 0 → ∀ u r, s.place is.core k.ctx k.wgKey va 8 .load (!th.sup) = (u, r) →
      (∀ q, r = .error q → Sys2Proof.Claims.traps s (.wait x) is k l q u) ∧
      (∀ p, r = .ok p → waitPlace p = false → s.faults (.wait x) is k l .prot va is.word u) ∧
      ∀ p, r = .ok p → waitPlace p = true → u.placeDenied p 8 = false → u.tileBusy is.core is.slot p 8 false = false →
        ∀ v a, u.readFor is.core is.slot p 8 true = (v, a) →
          (a = .absent → waits v) ∧
          (∀ q, v.readFault (siteOf s is l) k.wgKey va p a = some q → Sys2Proof.Claims.traps s (.wait x) is k l q v) ∧
          ∀ bs bad, a = .ok bs [] bad →
            let n := ofBytes bs
            let lost := kind ≠ 0 ∧ n.testBit 63 = true
            (¬ lost → Sys2Proof.Claims.meets kind cond n c → ∃ t, exec (.wait x) s = .next t ∧
              (v.hold (siteOf s is l) x.r2 8 n bad).endsAs t (.wait x) is l .next) ∧
            (¬ lost → ¬ Sys2Proof.Claims.meets kind cond n c → waits v) ∧
            (lost → v.skein is.core is.slot = some k →
              s.faults (.wait x) is k l (if kind = 1 then .engineErr else .ringDropped) va is.word v))

/-- A barrier object of a part: expected and arrived in the first word, phase and flags in the second (18 R445). -/
def Sys2Proof.Claims.object (p : Part) (off expected arrived flags : Nat) : Prop :=
  expected < 2 ^ 32 ∧ arrived < 2 ^ 32 ∧ flags < 2 ^ 64 ∧ natAt p.bytes off 8 = expected + 2 ^ 32 * arrived ∧
  natAt p.bytes (off + 8) 8 = flags

/-- 18 R444, R445, R446, R447: an arrival of n adds to the arrived count; one that reaches the expected count flips the phase
and keeps the remainder; BARI sets the expected count, keeps the phase, advances the generation by one modulo 2^15 and clears
the error flags; CTADD adds in bits [62:0] and sets bit 63 with .err. No other byte of the part changes. -/
def Obligations.BarrierObjectsCountArrivals : Prop :=
  (∀ (s : State) (core ctx w c off n e a f : Nat) (g : Workgroup), s.wg w = some g →
    Sys2Proof.Claims.object (s.part w c) off e a f →
    let after (act : SqAct) : Part := (s.performAct core ctx act).part w c
    (a + n < e → Sys2Proof.Claims.object (after (.arrive w c off n)) off e (a + n) f) ∧
    (e ≤ a + n → a + n - e < 2 ^ 32 → Sys2Proof.Claims.object (after (.arrive w c off n)) off e (a + n - e)
      (if f % 2 = 0 then f + 1 else f - 1)) ∧
    (∀ m arr, m < 2 ^ 32 → ∃ f', Sys2Proof.Claims.object (after (.bari w c off m arr)) off m 0 f' ∧ f' % 2 = f % 2 ∧
      f' / 2 % 2 ^ 15 = (f / 2 % 2 ^ 15 + 1) % 2 ^ 15 ∧ f'.testBit 16 = false ∧ f'.testBit 17 = arr ∧ f'.testBit 18 = false) ∧
    ∀ i, (i < off ∨ off + 16 ≤ i) → ∀ m arr,
      byteAt (after (.arrive w c off n)).bytes i = byteAt (s.part w c).bytes i ∧
      byteAt (after (.bari w c off m arr)).bytes i = byteAt (s.part w c).bytes i) ∧
  ∀ old v err, old < 2 ^ 64 → ctaddNew old v err % 2 ^ 63 = (old % 2 ^ 63 + v) % 2 ^ 63 ∧
    (ctaddNew old v err).testBit 63 = (err || old.testBit 63)

/-- 18 R444, R445, R447: BARI, BARA, BARW and CTADD COMPLETE. On an object of the own grant BARI joins the store queue, and is
ILLEGAL_FIELD for a count of 0; BARA, once its skein's earlier entries have performed, joins it too, with .rel after a release at
its scope and without an arrival for an N of 0; BARW reads the object: ENGINE_ERR, then BAR_ERR, then it goes on where the phase
differs from its operand and waits where it does not; CTADD joins the store queue. An object's address that 16 does not divide is
ALIGN, one outside the own grant PROT. -/
def Obligations.BarriersAndCountersComplete : Prop :=
  ∀ (s : State) (is : Issue) (k : Skein) (l : Nat) (x : FmtX), s.poisedOne is k x.ctl l →
    let th := laneOf k.threads l
    let va := word (th.reg x.r1 8)
    (th.has k.alloc [(x.r1, 8, 1), (x.r2, 4, 1)] → ∀ g, s.wg k.wgKey = some g →
      let c := (g.slotOf is.core).getD 0
      let n := th.reg x.r2 4
      let all (p : Cause) : Prop := s.faults (.bari x) is k l p va is.word ∧ s.faults (.bara x) is k l p va is.word ∧
        s.faults (.barw x) is k l p va is.word
      (va.toNat % 16 ≠ 0 → all .align) ∧
      (va.toNat % 16 = 0 → va.toNat < 0xF * 2 ^ 48 ∨ 2 ^ 52 ≤ va.toNat → all .prot) ∧
      ∀ off, Sys2Proof.Claims.inOwn c va off → off % 16 = 0 →
        let p : Place := .scr k.wgKey c off
        (g.scratch < off + 16 → all .prot) ∧
        (off + 16 ≤ g.scratch → n = 0 → s.faults (.bari x) is k l .illegalField 0 is.word) ∧
        (off + 16 ≤ g.scratch → n ≠ 0 → s.tileBusy is.core is.slot p 16 true = false → ∃ t, exec (.bari x) s = .next t ∧
          (Sys2Proof.Claims.queued s is { act := .bari k.wgKey c off n (x.imm.getLsbD 0), lane := l }).endsAs t (.bari x) is l
            .next) ∧
        (k.sq = [] → s.tileBusy is.core is.slot p 16 true = false → Sys2Proof.Claims.readable s is.core k.wgKey g off 16 →
          s.atomReady (siteOf s is l) k.wgKey va p 16 = (s, none)) ∧
        (off + 16 ≤ g.scratch → ∀ v r, s.atomReady (siteOf s is l) k.wgKey va p 16 = (v, r) →
          (∀ q, r = some (.trap q) → Sys2Proof.Claims.traps s (.bara x) is k l q v) ∧
          (r = none →
            let u := if x.ctl.flag then v.drainTo is.core is.slot x.ctl.scope.toNat else v
            ∃ t, exec (.bara x) s = .next t ∧ (if n = 0 then u else Sys2Proof.Claims.queued u is
              { act := .arrive k.wgKey c off n, rel := x.ctl.flag, scope := x.ctl.scope.toNat, lane := l }).endsAs t (.bara x) is l
              .next)) ∧
        (Sys2Proof.Claims.readable s is.core k.wgKey g off 16 → k.sq = [] → s.tileBusy is.core is.slot p 16 false = false →
          let f := natAt (s.part k.wgKey c).bytes (off + 8) 8
          (f.testBit 18 = false → f.testBit 16 = false → f.testBit 0 ≠ n.testBit 0 →
            ∃ t, exec (.barw x) s = .next t ∧ s.endsAs t (.barw x) is l .next) ∧
          (f.testBit 18 = false → f.testBit 16 = false → f.testBit 0 = n.testBit 0 →
            ∃ t, exec (.barw x) s = .next t ∧ s.endsAs t (.barw x) is l (.wait .barrier [th.reg x.r1 8, n])) ∧
          (f.testBit 18 = true → s.faults (.barw x) is k l .engineErr va is.word) ∧
          (f.testBit 18 = false → f.testBit 16 = true → s.faults (.barw x) is k l .barErr va is.word))) ∧
    (th.has k.alloc [(x.r1, 8, 1), (x.r2, 8, 1)] → (va.toNat % 8 = 0 → s.copyWaits (siteOf s is l) k va = false) →
      ∀ u r, s.atomPlace (siteOf s is l) k va 8 true .add = (u, r) →
        s.memOnly u ∧
        (∀ q, r = .error q → Sys2Proof.Claims.traps s (.ctadd x) is k l q u) ∧
        (∀ a, r = .ok (.host a) → s.faults (.ctadd x) is k l .prot va is.word u) ∧
        ∀ p v, r = .ok p → (∀ a, p ≠ .host a) → u.atomReady (siteOf s is l) k.wgKey va p 8 = (v, none) →
          ∃ t, exec (.ctadd x) s = .next t ∧ (Sys2Proof.Claims.queued v is
            { act := .ctadd p (th.reg x.r2 8 % 2 ^ 63) (x.imm.getLsbD 0), rel := x.ctl.flag, scope := x.ctl.scope.toNat
              lane := l }).endsAs t (.ctadd x) is l .next)

/-- A thread that waits at an instruction TAKES IT UP AGAIN at an event: the instruction acts with the operands that it issued
with, and its threads go on at the next word, wait on, or fault (04 R94); while an earlier access of its skein stands in its way,
it waits on (08 R209, R211, R214). -/
def Sys2Proof.Claims.takesUp (s : State) (e : Instr) (core slot l : Nat) (th : Thread) (w : Wait)
    (act : Site → LaneIn → State → State × Fate) : Prop :=
  let x : Site := { core := core, slot := slot, lane := l, lanes := w.lanes, cyc := s.cycle, pc := th.pc, word := w.word
                    ord := w.seq }
  let r := act x { lane := l, cyc := s.cycle, vals := w.vals, pred := th.pred, link := th.link } s
  let behind := w.what.blocks && s.mustWait x w.instr
  let ends (t : State) : State := if w.what = .presence then t.settle core slot else t
  let each (t : State) (f : Thread → Thread) : State := w.lanes.foldl (fun s j => s.modThread core slot j f) t
  (behind = true → exec e s = .next (ends (each s fun t => { t with st := .waiting w }))) ∧
  (behind = false →
    (r.2 = .next → exec e s = .next (ends (r.1.wakeLanes core slot w.lanes (th.pc + 8)))) ∧
    (∀ what vals, r.2 = .wait what vals →
      exec e s = .next (ends (each r.1 fun t => { t with st := .waiting { w with what := what, vals := vals } }))) ∧
    ∀ q, r.2 = .trap q → exec e s = .next (ends ((each r.1 fun t => { t.wake with stepNext := none }).raise core slot th.pc w.word
      (w.lanes.map fun j => (j, q)))))

/-- How each instruction acts that waits for a line or for earlier accesses of its skein. -/
def Sys2Proof.Claims.forPresence : Instr → Option (Site → LaneIn → State → State × Fate)
  | .ld z x => some (loadRun false z x false)
  | .ldg z x => some (loadRun true z x false)
  | .st z x => some (storeRun z x)
  | .atom o w x => some (atomRun o w x false)
  | .red o w x => some (redRun o w x)
  | .fence x => some (fenceRun x)
  | .fencei x => some (fenceiRun x)
  | .bar _ => some barRun
  | .wait x => some (waitRun x)
  | .ctadd x => some (ctaddRun x)
  | .bari x => some (bariRun x)
  | .bara x => some (baraRun x)
  | .barw x => some (barwRun x)
  | .spz _ => some (linesRun .spz)
  | .spabs _ => some (linesRun .spabs)
  | .ddupqFp x => some (ddupFpRun x false)
  | .ddupqSt x => some (ddupStRun x false)
  | .put x => some (putRun false x)
  | .putm x => some (putRun true x)
  | .cpy _ => some cpyRun
  | .cpyq _ => some cpyqAgain
  | .stamp x => some (stampRun x)
  | .board x => some (boardRun x)
  | .ringack _ => some ringackRun
  | .tload x => some (tileMemRun (.tload x) x false false)
  | .tloadr x => some (tileMemRun (.tloadr x) x false true)
  | .tstore x => some (tileMemRun (.tstore x) x true false)
  | .tstorer x => some (tileMemRun (.tstorer x) x true true)
  | .emit x => some (emitRun x)
  | .nclose x => some (ncloseRun x)
  | .dlaunch x => some (dlaunchRun x)
  | .qpush x => some fun st l s => qpushEntry x l.vals st s
  | .tex x => some (texRun .quad x)
  | .texl x => some (texRun .level x)
  | .texg x => some (texRun .grad x)
  | .texq x => some (texqRun x)
  | .imst _ => some imstRun
  | .tblw x => some (tblwRun x)
  | .tblinv x => some (tblinvRun x)
  | .tblr x => some (tblrRun x)
  | .swr x => some (swrRun x)
  | .carve x => some (carveRun x)
  | _ => none

/-- The events that end a wait of one thread, each with the instructions that it lets act and how they act. -/
def Sys2Proof.Claims.wakers (core slot l : Nat) : WaitFor → Instr → Option (Instr × (Site → LaneIn → State → State × Fate))
  | .presence, i => (Sys2Proof.Claims.forPresence i).map fun a => (.presenceWake core slot l, a)
  | .link, .ld z x => some (.loadReturn core slot l 0 .ok, loadRun false z x true)
  | .link, .ldg z x => some (.loadReturn core slot l 0 .ok, loadRun true z x true)
  | .link, .atom o w x => some (.loadReturn core slot l 0 .ok, atomRun o w x true)
  | .link, .ddupqFp x => some (.loadReturn core slot l 0 .ok, ddupFpRun x true)
  | .link, .ddupqSt x => some (.loadReturn core slot l 0 .ok, ddupStRun x true)
  | .word, .wait x => some (.waitSatisfied core slot l, waitRun x)
  | .barrier, .barw x => some (.barwComplete core slot l, barwRun x)
  | .shuttleRoom, .cpy _ => some (.shuttleQueueRoom core slot l, cpyRun)
  | .shuttleRoom, .stamp x => some (.shuttleQueueRoom core slot l, stampRun x)
  | .arenaRoom, .emit x => some (.arenaRoom core slot l, emitRun x)
  | .arenaRoom, .nclose x => some (.arenaRoom core slot l, ncloseRun x)
  | _, _ => none

/-- The events that end the waits of a skein. -/
def Sys2Proof.Claims.skeinWakers (core slot : Nat) : WaitFor → Instr → Option (Instr × (Site → LaneIn → State → State × Fate))
  | .frameFreed, .talloc x => some (.tallocFrameFreed core slot, tallocRun x)
  | .takeOwner, .ttake x => some (.ttakeGrant core slot, ttakeRun x)
  | .tileRoom, .tload x => some (.tileQueueRoom core slot, tileMemRun (.tload x) x false false)
  | .tileRoom, .tloadr x => some (.tileQueueRoom core slot, tileMemRun (.tloadr x) x false true)
  | .tileRoom, .tstore x => some (.tileQueueRoom core slot, tileMemRun (.tstore x) x true false)
  | .tileRoom, .tstorer x => some (.tileQueueRoom core slot, tileMemRun (.tstorer x) x true true)
  | .tileRoom, .tzero x => some (.tileQueueRoom core slot, tzeroRun x)
  | .tileRoom, .tcvt x => some (.tileQueueRoom core slot, tcvtRun x)
  | .tileRoom, .tscl x => some (.tileQueueRoom core slot, tsclRun x)
  | .tileRoom, .tmma x => some (.tileQueueRoom core slot, mmaRun x false)
  | .tileRoom, .tmmasp x => some (.tileQueueRoom core slot, mmaRun x true)
  | .pushRoom, .qpush x => some (.qpushRoom core slot, fun st l s => qpushEntry x l.vals st s)
  | .popEntry, .qpop x => some (.qpopWake core slot, fun st l s => qpopTake x l.vals st s)
  | _, _ => none

/-- 04 R94, 07 R179, R193, 09 R243, R244, 10 R263, R265, 11 R304, 14 R354, R358, R359, 18 R442, R447: an event that ends a wait
lets the waiting instruction act with the operands that it issued with, unless the workgroup is being vacated, of which only the
host link's answers go on. A strict put whose deliveries have all landed goes on. A result that lands is written, its bad words
marked. A thread that no step or debug stop waits for runs at the next word. -/
def Obligations.WaitingThreadsTakeUpTheirInstruction : Prop :=
  ∀ (s : State) (core slot l : Nat) (th : Thread) (w : Wait),
    (s.thread core slot l = some th → th.st = .waiting w → (w.what = .link ∨ s.halted core slot = false) → ∀ e act,
      Sys2Proof.Claims.wakers core slot l w.what w.instr = some (e, act) → Sys2Proof.Claims.takesUp s e core slot l th w act) ∧
    (s.thread core slot l = some th → ∀ k e act, s.skein core slot = some k → s.halted core slot = false →
      k.waitsFor (· = w.what) = [(l, w)] →
      Sys2Proof.Claims.skeinWakers core slot w.what w.instr = some (e, act) → Sys2Proof.Claims.takesUp s e core slot l th w act) ∧
    (s.thread core slot l = some th → th.st = .waiting w → s.halted core slot = false → ∀ n, w.what = .putStrict n →
      (∀ d ∈ s.puts, d.strict ≠ some n) → n ∉ s.putDrops →
      exec (.putStrictResolve core slot l) s = .next (s.wakeLanes core slot w.lanes (th.pc + 8))) ∧
    (s.thread core slot l = some th → (∀ w, th.st ≠ .waiting w) → ∀ i h, th.held[i]? = some h →
      exec (.loadReturn core slot l i .ok) s = .next (s.modThread core slot l fun t =>
        let u := ({ t with held := t.held.eraseIdx i }).putReg h.addr h.bytes
        { u with bad := addAll h.bad u.bad })) ∧
    ∀ pc, s.thread core slot l = some th → th.stepNext = none → th.stopNext = false →
      s.wakeLanes core slot [l] pc = s.modThread core slot l fun t => { t with st := .running, pc := pc }

/-- 09 R256, 15 R377: DDUPQ.fp and DDUPQ.st COMPLETE where their page can be read as an LD of it would read it: .fp is owed the
fingerprint of its 512 words, .st zero where deduplication is off or the page is the scratchpad's, else the page's entry,
dedup-shared bit and refcount. What such a read meets, they meet. -/
def Obligations.DeduplicationIsQueried : Prop :=
  ∀ (s : State) (is : Issue) (k : Skein) (l : Nat) (x : FmtX), s.poisedOne is k x.ctl l →
    let th := laneOf k.threads l
    let a := th.reg x.r2 8
    let li : LaneIn := { lane := l, cyc := s.cycle, vals := [a], pred := th.pred, link := th.link }
    th.has k.alloc [(x.r1, 8, 1)] → th.has k.alloc [(x.r2, 8, 1)] →
    (∀ u p v ws, s.pageFor (siteOf s is l) k a = (u, .ok p) → (∀ b, p ≠ .host b) → u.tileBusy is.core is.slot p 4096 false = false →
      u.pageLoads (siteOf s is l) k.wgKey (word (a / 4096 * 4096)) p [a] (List.range 512) [] = (v, .ok ws) →
      s.pageRead (siteOf s is l) k li false = (v, .ok (p, ws))) ∧
    (∀ v f, s.pageRead (siteOf s is l) k li false = (v, .error f) →
      (∀ what vals, f = .wait what vals → (∃ t, exec (.ddupqFp x) s = .next t ∧ v.endsAs t (.ddupqFp x) is l f) ∧
        ∃ t, exec (.ddupqSt x) s = .next t ∧ v.endsAs t (.ddupqSt x) is l f) ∧
      ∀ q, f = .trap q → Sys2Proof.Claims.traps s (.ddupqFp x) is k l q v ∧ Sys2Proof.Claims.traps s (.ddupqSt x) is k l q v) ∧
    ∀ v p ws, s.pageRead (siteOf s is l) k li false = (v, .ok (p, ws)) →
      (∃ t, exec (.ddupqFp x) s = .next t ∧ (v.hold (siteOf s is l) x.r1 8 (fingerprint ws) []).endsAs t (.ddupqFp x) is l
        .next) ∧
      (((v.ctx k.ctx).fix.dedupBits = 0 ∨ a / 2 ^ 48 = 0xF) → ∃ t, exec (.ddupqSt x) s = .next t ∧
        (v.hold (siteOf s is l) x.r1 8 0 []).endsAs t (.ddupqSt x) is l .next) ∧
      ∀ z lf i pa, (v.ctx k.ctx).fix.dedupBits ≠ 0 → a / 2 ^ 48 ≠ 0xF → (p = .dev pa ∨ p = .unc pa) →
        v.walkOnly k.ctx a .read false = (z, .ok (lf, i)) →
        ∃ t, exec (.ddupqSt x) s = .next t ∧ (z.hold (siteOf s is l) x.r1 8
          ((match z.wayOf k.ctx (pa / 4096) (fingerprint (z.pageWords (pa / 4096 * 4096))) with
            | some e => 2 ^ 17 + natAt z.mem.bytes (e + 8) 8 / 2 ^ 40 % 2 ^ 16
            | none => 0) + lf.pte / 2 ^ 4 % 2 * 2 ^ 16) []).endsAs t (.ddupqSt x) is l .next

/-- The fields of a put's operand registers (09 R241). -/
structure Sys2Proof.Claims.PutRegs where
  dst : Nat
  src : Nat
  cnt : Nat
  inc : Nat
  len : Nat
  target : Nat

/-- A put as its word and registers give it (09 R241). -/
def Sys2Proof.Claims.put (x : FmtX) (r : Sys2Proof.Claims.PutRegs) : PutCmd :=
  { kind := x.imm.toNat % 4, dst := r.dst, src := r.src, cnt := r.cnt, inc := r.inc, len := r.len
    mask := x.imm.toNat / 4 % 16, nocnt := x.imm.getLsbD 6, pres := x.imm.getLsbD 7, target := r.target }

/-- A delivery of a put to one destination (08 R227, 09 R242). -/
def Sys2Proof.Claims.delivery (u : State) (is : Issue) (k : Skein) (x : FmtX) (multi : Bool) (r : Sys2Proof.Claims.PutRegs)
    (bs : List Byte) (bad : List Nat) (to_ : PutTo) (cnt : Option PutTo) : Delivery :=
  { num := u.order, ctx := k.ctx, core := is.core, skein := (k.wgKey, k.idx), multi := multi
    strict := if x.ctl.flag then some u.order else none, to_ := to_, bytes := bs, bad := bad
    counter := cnt, inc := r.inc, scope := x.ctl.scope.toNat, pres := x.imm.getLsbD 7 }

/-- The deliveries of a put: one of kind 0, else one for each slot of the mask, in the target's workgroup and generation. -/
def Sys2Proof.Claims.deliveries (u : State) (is : Issue) (k : Skein) (x : FmtX) (multi : Bool) (r : Sys2Proof.Claims.PutRegs)
    (bs : List Byte) (bad : List Nat) (dst : PutTo) (cnt : Option PutTo) : List Delivery :=
  let wk := if x.imm.toNat % 4 = 1 then k.wgKey else wgKey k.ctx (r.target / 2 ^ 32) (r.target % 2 ^ 32)
  let gen := ((u.anyWg wk).map (·.gen)).getD u.order
  if x.imm.toNat % 4 = 0 then [Sys2Proof.Claims.delivery u is k x multi r bs bad dst cnt]
  else (slotsIn (x.imm.toNat / 4 % 16)).map fun i => Sys2Proof.Claims.delivery u is k x multi r bs bad (.scr wk gen i r.dst)
    (if x.imm.getLsbD 6 then none else some (.scr wk gen i r.cnt))

/-- 07 R497, 08 R211, R227, 09 R241, R242, R243: PUT and PUTM of every kind COMPLETE: checked and translated, they let the skein's
stores perform, read the source, and put in flight one delivery for each destination, with the source's bytes, the counter and
its increment, a destination under the presence flag losing its lines' presence; the thread goes on, or waits for them with
.strict. A reserved field is ILLEGAL_FIELD, a counter that 8 does not divide ALIGN, an address or offset of no permitted place
PROT. A put of kind 1 between scratchpads of the own cluster meets none of this. -/
def Obligations.PutsAreSent : Prop :=
  ∀ (s : State) (is : Issue) (k : Skein) (l : Nat) (x : FmtX) (multi : Bool) (r : Sys2Proof.Claims.PutRegs),
    s.poisedOne is k x.ctl l →
    let i : Instr := if multi then .putm x else .put x
    let th := laneOf k.threads l
    let user := !th.sup
    let c := Sys2Proof.Claims.put x r
    let two := x.imm.toNat % 4 = 2
    let d := natAt th.regs (regAddr th.views x.r1) 32
    let vals := d :: if two then [r.target] else []
    th.has k.alloc [(x.r1, 8, 4)] → (two → th.has k.alloc [(x.r2, 8, 1)] ∧ r.target = th.reg x.r2 8) → (¬ two → r.target = 0) →
    x.imm.toNat % 4 < 3 → r.dst < 2 ^ 64 ∧ r.src < 2 ^ 64 ∧ r.cnt < 2 ^ 64 ∧ r.inc < 2 ^ 32 ∧ r.len < 2 ^ 20 →
    (d / 2 ^ 244 ≠ 0 → s.faults i is k l .illegalField 0 is.word) ∧
    (d = r.dst + 2 ^ 64 * (r.src + 2 ^ 64 * (r.cnt + 2 ^ 64 * (r.inc + 2 ^ 32 * r.len))) →
      (x.imm.getLsbD 6 = false → r.cnt % 8 ≠ 0 → s.faults i is k l .align (word r.cnt) is.word) ∧
      (x.imm.getLsbD 6 = true ∨ r.cnt % 8 = 0 →
        (∀ va, s.putBits (siteOf s is l) k c user = some va → s.faults i is k l .prot va is.word) ∧
        (s.putBits (siteOf s is l) k c user = none → s.putCopies (siteOf s is l) k c = false →
          ∀ u1 dst u2 src u3 cnt,
            (if c.kind = 0 then s.memTarget (siteOf s is l) k r.dst r.len .store user else (s, .ok (.mem []))) = (u1, .ok dst) →
            u1.rangeTo (siteOf s is l) k r.src r.len .load user = (u2, .ok src) →
            (if x.imm.getLsbD 6 = true ∨ c.kind ≠ 0 then u3 = u2 ∧ cnt = none
              else ∃ q, cnt = some q ∧ u2.memTarget (siteOf s is l) k r.cnt 8 .atom user = (u3, .ok q)) →
            ∀ v bs bad, (u3.drainForEngine is.core is.slot).putSource (siteOf s is l) k.ctx k.wgKey r.src src [] [] =
                (v, .ok (bs, bad)) →
              let ds := Sys2Proof.Claims.deliveries v is k x multi r bs bad dst cnt
              let w := ds.foldl State.putAbsent v
              (∃ k', w.skein is.core is.slot = some k' ∧ k'.calm) →
              ∃ t, exec i s = .next t ∧ State.endsAs { w with puts := w.puts ++ ds, order := w.order + 1 } t i is l
                (if x.ctl.flag then .wait (.putStrict w.order) vals else .next)) ∧
        ∀ g off, x.imm.toNat % 4 = 1 → s.wg k.wgKey = some g → (∀ i ∈ slotsIn (x.imm.toNat / 4 % 16), i < g.cluster.length) →
          r.dst + r.len ≤ g.scratch → r.cnt + 8 ≤ g.scratch → Sys2Proof.Claims.inScratch (word r.src) off →
          off + r.len ≤ g.scratch →
          s.putBits (siteOf s is l) k c user = none ∧ s.putCopies (siteOf s is l) k c = false ∧
          s.rangeTo (siteOf s is l) k r.src r.len .load user =
            (s, .ok (if r.len = 0 then [] else [(.scr k.wgKey ((g.slotOf is.core).getD 0) off, r.len)]))))

/-- 08 R227, R228, R229, 07 R192: a delivery that no other must precede lands: its bytes, then the counter's increment, at the
scratchpad it names, whose other bytes stay; where that workgroup or its generation is gone it is dropped and counted, and a
strict put told. A Reed window numbers the multicasts that have none. -/
def Obligations.PutsLandOrAreDropped : Prop :=
  (∀ (s : State) (idx : Nat) (d : Delivery) (w gen c off : Nat), s.puts[idx]? = some d →
    (d.multi = true → d.window ≠ none) → (∀ e ∈ s.puts, e.before d = false) → d.to_ = .scr w gen c off →
    let u : State := { s with puts := s.puts.eraseIdx idx }
    (∀ g q, s.wg w = some g → g.gen = gen → d.bad = [] →
      d.counter = some (.scr w gen c q) → (q + 8 ≤ off ∨ off + d.bytes.length ≤ q) → (s.part w c).badIn q 8 = [] →
      ∃ t, exec (.putDelivery idx) s = .next t ∧ (∀ f, { t with wgs := f } = { u with wgs := f }) ∧
        natAt (t.part w c).bytes q 8 = (natAt (s.part w c).bytes q 8 + d.inc) % 2 ^ 64 ∧
        (∀ a, ¬ (q ≤ a ∧ a < q + 8) → byteAt (t.part w c).bytes a =
          if off ≤ a ∧ a < off + d.bytes.length then d.bytes.getD (a - off) 0 else byteAt (s.part w c).bytes a)) ∧
    ((∀ g, s.anyWg w = some g → g.gen ≠ gen) →
      exec (.putDelivery idx) s = .next (match d.strict with
        | none => u.count d.ctx 16 1
        | some n => { u.count d.ctx 16 1 with putDrops := addTo n s.putDrops }))) ∧
  ∀ s : State, exec .reedWindow s = .next { s with
    reed := s.reed + 1
    puts := s.puts.map fun d => if d.multi = true ∧ d.window = none then { d with window := some s.reed } else d }

/-- A Shuttle command of one thread, placed in the state u (09 R244, R245, R254). -/
def Sys2Proof.Claims.command (s u : State) (is : Issue) (k : Skein) (l body : Nat) (tag : Tag) : ShCmd :=
  let c := ((u.wg k.wgKey).bind (·.slotOf is.core)).getD 0
  { wg := k.wgKey, ctx := k.ctx, slot := is.slot, skein := k.idx, cslot := c, user := !(u.siteThread (siteOf s is l)).sup
    seq := k.ord, body := body, descs := (u.part k.wgKey c).desc, tag := tag }

/-- 09 R244, R245, R252, 08 R211, 18 R443: CPY, CPYQ and STAMP COMPLETE, with every kind of tag. With the skein's stores performed, a
CPY joins the core's Shuttle queue, which holds 32, and waits where it is full; a CPYQ pushes true and joins, or pushes false and does
not; a STAMP joins with its stamp, or waits. Reserved fields and a tag of kind 3 are ILLEGAL_FIELD; a stamp address that no ST may
write and a barrier offset outside the grant fault. Nothing else changes where the presence flag is clear. -/
def Obligations.ShuttleCommandsAreQueued : Prop :=
  ∀ (s : State) (is : Issue) (k : Skein) (l : Nat) (x : FmtX), s.poisedOne is k x.ctl l →
    let th := laneOf k.threads l
    let st := siteOf s is l
    let u := s.drainForEngine is.core is.slot
    let user := !(s.siteThread st).sup
    (th.has k.alloc [(x.r1, 4, 8), (x.r2, 8, 1)] →
      let d := natAt th.regs (regAddr th.views x.r1) 32
      let a := th.reg x.r2 8
      let v := d / 2 ^ 224 % 2 ^ 30
      let kind := d / 2 ^ 254
      let bad := d / 2 ^ 152 % 4 = 3 ∨ d / 2 ^ 146 % 64 ≠ 0 ∨ 6 ≤ d / 2 ^ 157 % 8 ∨ kind = 3
      let fault : Option Trap := if kind = 2 then s.stampFault is.core k (word a) user else if kind = 1 then s.barrierFault k.wgKey v
        else none
      let c := Sys2Proof.Claims.command s u is k l d (if kind = 1 then
          .barrier v (u.generation k.wgKey (((u.wg k.wgKey).bind (·.slotOf is.core)).getD 0) v)
        else if kind = 2 then .stamp (word a) v else .none)
      let w := u.shPlace st c
      (bad → s.faults (.cpy x) is k l .illegalField 0 is.word ∧ s.faults (.cpyq x) is k l .illegalField 0 is.word) ∧
      (¬ bad → ∀ q, fault = some q →
        Sys2Proof.Claims.traps s (.cpy x) is k l q s ∧ Sys2Proof.Claims.traps s (.cpyq x) is k l q s) ∧
      (¬ bad → fault = none →
        ((s.core is.core).shCount < 32 → (∃ k', w.skein is.core is.slot = some k' ∧ k'.calm) →
          (∃ t, exec (.cpy x) s = .next t ∧ w.endsAs t (.cpy x) is l .next) ∧
          ∃ t, exec (.cpyq x) s = .next t ∧ (w.modThread is.core is.slot l fun q => q.pushNow true).endsAs t (.cpyq x) is l
            .next) ∧
        (32 ≤ (s.core is.core).shCount →
          (∃ t, exec (.cpy x) s = .next t ∧
            s.endsAs t (.cpy x) is l (.wait .shuttleRoom (d :: if kind = 2 then [a] else []))) ∧
          ∃ t, exec (.cpyq x) s = .next t ∧ (s.modThread is.core is.slot l fun q => q.pushNow false).endsAs t (.cpyq x) is l
            .next)) ∧
      (d.testBit 156 = false → (∃ k', w.skein is.core is.slot = some k' ∧ k'.calm) ∧
        w = u.modCore is.core fun q => { q with shuttle := q.shuttle ++ [c] })) ∧
    (th.has k.alloc [(x.r1, 8, 1), (x.r2, 8, 1)] →
      let va := word (th.reg x.r1 8)
      let a := th.reg x.r2 8
      let c : ShCmd := { Sys2Proof.Claims.command s s is k l (x.ctl.scope.toNat * 2 ^ 157) (.stamp va (a % 2 ^ 63)) with only := true }
      (∀ q, s.stampFault is.core k va user = some q → Sys2Proof.Claims.traps s (.stamp x) is k l q s) ∧
      (s.stampFault is.core k va user = none →
        ((s.core is.core).shCount < 32 → ∃ t, exec (.stamp x) s = .next t ∧
          (u.modCore is.core fun q => { q with shuttle := q.shuttle ++ [c] }).endsAs t (.stamp x) is l .next) ∧
        (32 ≤ (s.core is.core).shCount → ∃ t, exec (.stamp x) s = .next t ∧
          s.endsAs t (.stamp x) is l (.wait .shuttleRoom [th.reg x.r1 8, a]))))

/-- 09 R246, R249, R250, 18 R443: the Shuttle starts the oldest command of its queue: a STAMP's is complete at once, one whose
layouts can be read walks where the checks of R246 pass and aborts where they do not, one whose layouts' lines are not present
stays started; a started one walks on with the layouts it has. The oldest completion performs: one without a tag does nothing, a
stamp is a release at its scope and a store of its value, with bit 63 set for an aborted command, and an aborted one without a tag
posts its event. -/
def Obligations.ShuttleCommandsRun : Prop :=
  ∀ (s : State) (core : Nat), s.stalls core = false →
    (∀ c rest, (s.core core).started = none → (s.core core).shuttle = c :: rest → c.parked = false →
      let u := s.setCore core { s.core core with shuttle := rest }
      (c.only = true → exec (.shuttleStart core) s = .next ((u.shEnd core c false).reap core c.slot)) ∧
      (∀ v l, c.only = false → u.shLayouts core c = (v, .ok l) → exec (.shuttleStart core) s =
        .next ((if v.shCheck core c l then v.shRun core c l else v.shEnd core c true).reap core c.slot)) ∧
      (∀ v, c.only = false → u.shLayouts core c = (v, .error .abort) →
        exec (.shuttleStart core) s = .next ((v.shEnd core c true).reap core c.slot)) ∧
      ∀ v, c.only = false → u.shLayouts core c = (v, .error .wait) → exec (.shuttleStart core) s =
        .next ((v.modCore core fun q => { q with started := some c }).reap core c.slot)) ∧
    (∀ c l, (s.core core).started = some c → c.parked = false → c.lay = some l →
      exec (.shuttleStart core) s = .next (s.shRun core c l)) ∧
    (∀ d rest u, (s.core core).done = d :: rest → (s.core core).doneParked = false → s.complete core d = (u, .ok ()) →
      exec (.shuttleComplete core) s = .next (u.modCore core fun q => { q with done := rest })) ∧
    (∀ d, (s.ctx d.ctx).resetting = true ∨ (d.tag = .none ∧ d.failed = false) → s.complete core d = (s, .ok ())) ∧
    (∀ d g, d.tag = .none → d.failed = true → (s.ctx d.ctx).resetting = false → s.wg d.wg = some g →
      s.complete core d = (s.post d.ctx false { kind := 5, core := core, slot := d.slot, grid := g.grid, wg := g.lin
                                                extra := d.dst }, .ok ())) ∧
    ∀ d va v p u, d.tag = .stamp va v → d.only = false → (s.ctx d.ctx).resetting = false →
      s.place core d.ctx d.wg va 8 .store d.user = (u, .ok p) → (d.scope = 0 ∨ d.scope = 2 ∨ 3 ≤ d.scope) →
      let q := u.release core (decide (3 ≤ d.scope))
      s.complete core d = (q.storeAt core d.ctx p (toBytes 8 (v + if d.failed then 2 ^ 63 else 0)) []
        (q.isPrivate core d.slot d.ctx va.toNat), .ok ())

/-- 10 R258, R265, R266, R281, R283: TALLOC, TFREE, TGIVE, TTAKE, TQRY and CVSET COMPLETE. TALLOC binds its handle to the lowest
free frame, zeroed, and takes ownership, a bound handle's own frame first released; with no frame free it waits where one of the
workgroup's awaits release, and is TILE_NOFRAME where none does; it is TILE_OWNER on a handle of another skein. TFREE unbinds an owned
handle, TGIVE makes it ownerless, TTAKE takes an ownerless one that no skein has waited for longer, and waits for another; each
faults on an unbound one. TQRY is owed the entry's fields. CVSET sets a convergence register to its target with no signature. -/
def Obligations.HandlesAreBoundAndPassed : Prop :=
  ∀ (s : State) (is : Issue) (k : Skein) (l : Nat) (g : Workgroup), s.wg k.wgKey = some g →
    let th := laneOf k.threads l
    let cs := (g.slotOf is.core).getD 0
    (∀ x : FmtT, s.poisedOne is k x.ctl l →
      let h := x.d.toNat
      let e := g.handle cs h
      (e.bound = true → e.owner ≠ k.idx → s.faults (.talloc x) is k l .tileOwner (word h) is.word) ∧
      ((e.bound = true → e.owner = k.idx) →
        let b := if e.bound then s.unbind is.core k.wgKey cs h else s
        let due := ((b.core is.core).releasing.filter fun p => p.2 = k.wgKey).length
        let held := (((b.wg k.wgKey).getD g).bound cs).length + due
        (∀ f r, held < g.frames → b.freeFrames is.core = f :: r → ∃ t, exec (.talloc x) s = .next t ∧
          ((b.modHandle k.wgKey cs h fun _ => { bound := true, owner := k.idx, frame := f, fmt := x.aux.toNat }).modCore is.core
            fun c => c.setFrame f {}).endsAs t (.talloc x) is l .next) ∧
        (g.frames ≤ held ∨ b.freeFrames is.core = [] →
          (due ≠ 0 → ∃ t, exec (.talloc x) s = .next t ∧ b.endsAs t (.talloc x) is l (.wait .frameFreed [])) ∧
          (due = 0 → s.faults (.talloc x) is k l .tileNoframe (word h) is.word b))) ∧
      (e.bound = true → e.owner = k.idx →
        (∃ t, exec (.tfree x) s = .next t ∧ (s.unbind is.core k.wgKey cs h).endsAs t (.tfree x) is l .next) ∧
        (∃ t, exec (.tgive x) s = .next t ∧
          (s.modHandle k.wgKey cs h fun e => { e with owner := 0x1FF }).endsAs t (.tgive x) is l .next) ∧
        ∃ t, exec (.ttake x) s = .next t ∧ s.endsAs t (.ttake x) is l .next) ∧
      (e.bound = true → e.owner ≠ k.idx →
        (e.owner = 0x1FF → (∀ i ∈ s.takers is.core k.wgKey h, s.order ≤ i) → ∃ t, exec (.ttake x) s = .next t ∧
          (s.modHandle k.wgKey cs h fun e => { e with owner := k.idx }).endsAs t (.ttake x) is l .next) ∧
        (e.owner ≠ 0x1FF ∨ (∃ i ∈ s.takers is.core k.wgKey h, i < s.order) → ∃ t, exec (.ttake x) s = .next t ∧
          State.endsAs { s with order := s.order + 1 } t (.ttake x) is l (.wait .takeOwner [s.order])) ∧
        s.faults (.tfree x) is k l .tileOwner (word h) is.word ∧ s.faults (.tgive x) is k l .tileOwner (word h) is.word) ∧
      (e.bound = false → s.faults (.tfree x) is k l .tileFreed (word h) is.word ∧
        s.faults (.tgive x) is k l .tileFreed (word h) is.word ∧
        s.faults (.ttake x) is k l .tileFreed (word h) is.word)) ∧
    (∀ x : FmtX, s.poisedOne is k x.ctl l → th.has k.alloc [(x.r1, 4, 1)] →
      let e := g.handle cs (x.imm.toNat / 2 ^ 16 % 2 ^ 8)
      let c := s.core is.core
      let pending := if e.bound then c.tilePending e.frame else e.pending
      let error := if e.bound ∨ e.pending then (c.frame e.frame).error || c.tileFailed e.frame else e.error
      ∃ t, exec (.tqry x) s = .next t ∧ (Sys2Proof.Claims.owes s is l x.r1 4 (2 ^ 31 * e.bound.toNat + 2 ^ 30 * pending.toNat +
        2 ^ 29 * error.toNat + 2 ^ 20 * e.owner + 2 ^ 12 * e.frame + e.fmt)).endsAs t (.tqry x) is l .next) ∧
    ∀ x : FmtI, s.poisedOne is k x.ctl l → ∃ t, exec (.cvset x) s = .next t ∧
      (s.modWg k.wgKey fun w => { w with cvs := set {} (16 * cs + x.dst.toNat % 16) { target := x.imm.toNat } w.cvs }).endsAs t
        (.cvset x) is l .next

/-- A tile command without a memory side, issued in s and placed in u (10 R263). -/
def Sys2Proof.Claims.tileCommand (s u : State) (is : Issue) (k : Skein) (g : Workgroup) (l : Nat) (i : Instr) (d : Nat)
    (a b m : Option Nat) : TileCmd :=
  let cs := (g.slotOf is.core).getD 0
  let at_ (h : Nat) : Nat × Nat := ((g.handle cs h).frame, (g.handle cs h).fmt)
  { instr := i, d := some (at_ d), a := a.map at_, b := b.map at_, m := m.map at_
    io := { wg := k.wgKey, ctx := k.ctx, slot := is.slot, skein := k.idx, cslot := cs, seq := k.ord
            user := !(u.siteThread (siteOf s is l)).sup, body := 0, tag := .none, descs := (u.part k.wgKey cs).desc } }

/-- 10 R263, R267, R269, R273, R274, R275, R278, R282, R283, 08 R211: the tile commands COMPLETE: one whose handles are bound, written
ones owned, and whose formats go together is accepted behind those of its core, which are at most 16, and waits where there are 16;
an unbound handle is TILE_FREED, a written one of another skein TILE_OWNER, formats that do not go together ILLEGAL_FIELD. A TMMA or
TMMASP that is not the last signature of its convergence register only signs; the last one closes the round, is CVR_MISMATCH where
the signatures differ, and else is checked and accepted. -/
def Obligations.TileCommandsAreAccepted : Prop :=
  ∀ (s : State) (is : Issue) (k : Skein) (l : Nat) (g : Workgroup), s.wg k.wgKey = some g →
    let th := laneOf k.threads l
    let cs := (g.slotOf is.core).getD 0
    let fmt (h : Nat) : Nat := (g.handle cs h).fmt
    let full := 16 ≤ (s.core is.core).tileq.length
    let accepted (i : Instr) (v : State) (q : TileCmd) : Prop := ∃ t, exec i s = .next t ∧
      (v.modCore is.core fun c => { c with tileq := c.tileq ++ [q] }).endsAs t i is l .next
    let waits (i : Instr) (v : State) (vals : List Nat) : Prop := ∃ t, exec i s = .next t ∧ v.endsAs t i is l (.wait .tileRoom vals)
    (∀ x : FmtT, s.poisedOne is k x.ctl l →
      let d := x.d.toNat
      let a := x.a.toNat
      let b := x.b.toNat
      let int (f : Nat) : Bool := decide (9 ≤ f ∧ f ≤ 16) || decide (f = 32)
      ∀ p ∈ [(Instr.tzero x, [d], true, Sys2Proof.Claims.tileCommand s s is k g l (.tzero x) d none none none),
             (.tcvt x, [d, a], !(blockFmt (fmt a) && int (fmt d)),
               Sys2Proof.Claims.tileCommand s s is k g l (.tcvt x) d (some a) none none),
             (.tscl x, [d, a, b], decide (fmt d = 0 ∧ fmt a = 0 ∧ fmt b = 0),
               Sys2Proof.Claims.tileCommand s s is k g l (.tscl x) d (some a) (some b) none)],
        (∀ h, (p.2.1.find? fun h => !(g.handle cs h).bound) = some h → s.faults p.1 is k l .tileFreed (word h) is.word) ∧
        ((∀ h ∈ p.2.1, (g.handle cs h).bound = true) →
          ((g.handle cs d).owner ≠ k.idx → s.faults p.1 is k l .tileOwner (word d) is.word) ∧
          ((g.handle cs d).owner = k.idx →
            (p.2.2.1 = false → s.faults p.1 is k l .illegalField 0 is.word) ∧
            (p.2.2.1 = true → (¬ full → accepted p.1 s p.2.2.2) ∧ (full → waits p.1 s []))))) ∧
    (∀ (x : FmtX) (store gather : Bool), s.poisedOne is k x.ctl l →
      th.has k.alloc (((tileReads x store gather) th.views).flatMap Rd.ops) →
      let i : Instr := if store then (if gather then .tstorer x else .tstore x) else if gather then .tloadr x else .tload x
      ∀ d r, ((tileReads x store gather) th.views).map (fun r => r.value k.threads l) = d :: r →
        let fault := s.tileMemFault is.core k g cs (!(s.siteThread (siteOf s is l)).sup) x store gather d
        (∀ q, fault = some q → Sys2Proof.Claims.traps s i is k l q s) ∧
        (fault = none → full → waits i s (d :: r)) ∧
        let rows := if gather then elems 32 64 (r.headD 0) else []
        let u := s.tileMemCmd (siteOf s is l) i x store gather k g cs d rows
        (fault = none → ¬ full → ∃ t, exec i s = .next t ∧ u.endsAs t i is l .next)) ∧
    ∀ (x : FmtT) (sparse : Bool), s.poisedOne is k x.ctl l →
      let i : Instr := if sparse then .tmmasp x else .tmma x
      let n := x.cv.toNat
      let c := lookD {} g.cvs (16 * cs + n)
      let w := is.word.extractLsb' 0 44
      let own := (g.handle cs x.d.toNat).owner = k.idx
      let named := [x.d.toNat, x.a.toNat, x.b.toNat] ++ if sparse then [x.aux.toNat] else []
      let sets (v : CvReg) : State := s.modWg k.wgKey fun q => { q with cvs := set {} (16 * cs + n) v q.cvs }
      let signed : CvReg := if c.count = 0 then { c with sparse := sparse, word := w, ownsig := c.ownsig || decide own, count := 1 }
        else { c with mismatch := c.mismatch || decide (c.word ≠ w) || decide (c.sparse ≠ sparse)
                      ownsig := c.ownsig || decide own, count := c.count + 1 }
      (signed.count < c.target → ∃ t, exec i s = .next t ∧ (sets signed).endsAs t i is l .next) ∧
      (c.target ≤ signed.count →
        let closed := sets { target := c.target }
        (signed.mismatch = true → s.faults i is k l .cvrMismatch (word n) is.word closed) ∧
        (signed.mismatch = false →
          (∀ h, (named.find? fun h => !(g.handle cs h).bound) = some h → s.faults i is k l .tileFreed (word h) is.word closed) ∧
          ((∀ h ∈ named, (g.handle cs h).bound = true) →
            ((g.handle cs x.d.toNat).owner = 0x1FF ∨ signed.ownsig = false →
              s.faults i is k l .tileOwner (word x.d.toNat) is.word closed) ∧
            ((g.handle cs x.d.toNat).owner ≠ 0x1FF → signed.ownsig = true →
              let fits := mmaFmts sparse (fmt x.d.toNat) (fmt x.a.toNat) (fmt x.b.toNat) = true ∧ (sparse = true → fmt x.aux.toNat = 12)
              (¬ fits → s.faults i is k l .illegalField 0 is.word closed) ∧
              (fits → full → waits i closed [1]) ∧
              (fits → ¬ full → accepted i closed (Sys2Proof.Claims.tileCommand s closed is k g l i x.d.toNat (some x.a.toNat)
                (some x.b.toNat) (if sparse then some x.aux.toNat else none)))))))

/-- 10 R258, R263, R271, R272, R273: the oldest command of a core's queue that has not executed does, and the oldest of all
leaves the queue once it has; one that reads a frame with an error aborts, one without a memory side writes its frame, with
its error bit clear; a TZERO leaves every byte of D zero. -/
def Obligations.TileCommandsExecuteAndComplete : Prop :=
  ∀ (s : State) (core : Nat) (q : TileCmd) (rest : List TileCmd), (s.core core).tileq = q :: rest → s.stalls core = false →
    q.parked = false →
    (q.done = false → (∀ f ∈ q.readsOf, ((s.core core).frame f).error = false) →
      (tileForm q.instr = none →
        exec (.tileCommandExecute core) s = .next ((s.modCore core q.arith).tileEnd core 0 q false)) ∧
      (∀ x f fmt, q.instr = .tzero x → q.d = some (f, fmt) → ∃ t, exec (.tileCommandExecute core) s = .next t ∧
        (∀ a, byteAt ((t.core core).frame f).data a = 0) ∧ ((t.core core).frame f).error = false ∧
        ∃ q', (t.core core).tileq = q' :: rest ∧ q'.done = true ∧ q'.failed = false)) ∧
    (q.done = false → (∃ f ∈ q.readsOf, ((s.core core).frame f).error = true) →
      exec (.tileCommandExecute core) s = .next (s.tileEnd core 0 q true)) ∧
    (q.done = true → (∀ x b, tileForm q.instr ≠ some (x, true, b)) →
      exec (.tileCommandComplete core) s = .next (s.tilePop core) ∧ ((s.tilePop core).core core).tileq = rest) ∧
    ∀ u x b, q.done = true → tileForm q.instr = some (x, true, b) → s.complete core q.completion = (u, .ok ()) →
      exec (.tileCommandComplete core) s = .next (u.tilePop core)

/-- The issuing workgroup is a shader node's, of a graph that has a later node n (14 R354). -/
def Sys2Proof.Claims.mayName (s : State) (k : Skein) (n : Nat) : Prop :=
  ∃ w g own, s.wg k.wgKey = some w ∧ s.graph k.ctx k.grid = some g ∧ w.node = some own ∧ own < n ∧ n < g.nodes.length

/-- 14 R352, R354, R355: EMIT, NCLOSE and DLAUNCH COMPLETE. EMIT to a later node that its workgroup has not closed is a release at
.dev, then places its 64 bytes in the node's arena and counts it, or waits, also behind the skein's earlier waiting records;
NCLOSE closes the output for the workgroup, after all of its waiting records; either is ILLEGAL_FIELD on any other node. DLAUNCH is a release at .dev, then
stores its record one level deeper, and pushes true with .try; it is LAUNCH_FULL, or pushes false with .try, where the store or the
quota is full, and NEST_DEPTH at depth 10. -/
def Obligations.RecordsAreEmittedAndLaunched : Prop :=
  ∀ (s : State) (is : Issue) (k : Skein) (l : Nat) (x : FmtX), s.poisedOne is k x.ctl l →
    let th := laneOf k.threads l
    let v := natAt th.regs (regAddr th.views x.r1) 64
    let n := x.imm.toNat % 64
    let u := { s with order := s.order + 1 }.drainTo is.core is.slot 4
    let w := s.drainTo is.core is.slot 4
    let open_ := ∀ w, s.wg k.wgKey = some w → n ∉ w.closed
    let behind (whole : Bool) := ∃ i ∈ s.emitters k.wgKey is.core is.slot l whole, i < s.order
    let waits (i : Instr) (t : State) (e : Nat) : Prop := ∃ q, exec i s = .next q ∧
      t.endsAs q i is l (.wait .arenaRoom [e, s.order])
    (th.has k.alloc [(x.r1, 8, 8)] →
      (Sys2Proof.Claims.mayName s k n → open_ →
        (behind false → waits (.emit x) { s with order := s.order + 1 } v) ∧
        (¬ behind false →
          (∀ t, u.placeRecord k.ctx k.grid n (toBytes 64 v) [] = (t, true) →
            ∃ q, exec (.emit x) s = .next q ∧ t.endsAs q (.emit x) is l .next) ∧
          ∀ t, u.placeRecord k.ctx k.grid n (toBytes 64 v) [] = (t, false) → waits (.emit x) t v)) ∧
      (¬ Sys2Proof.Claims.mayName s k n ∨ ¬ open_ → s.faults (.emit x) is k l .illegalField 0 is.word)) ∧
    (∀ y g, s.graph k.ctx k.grid = some g → g.nodes[n]? = some y → g.abandoned = false → y.stalled = false →
      (y.cap ≤ y.count → ∀ bs, s.placeRecord k.ctx k.grid n bs [] = (s, false)) ∧
      (y.count < y.cap → ∀ bs t,
        s.ctxWriteBytes k.ctx (y.arena.toNat + 64 * ((y.head + y.count) % y.cap)) bs [] = (t, .ok ()) →
        s.placeRecord k.ctx k.grid n bs [] = (t.modNode k.ctx k.grid n fun y => { y with count := y.count + 1 }, true))) ∧
    ((Sys2Proof.Claims.mayName s k n →
        (¬ behind true → ∃ q, exec (.nclose x) s = .next q ∧
          (s.modWg k.wgKey fun w => { w with closed := addTo n w.closed }).endsAs q (.nclose x) is l .next) ∧
        (behind true → waits (.nclose x) { s with order := s.order + 1 } 0)) ∧
      (¬ Sys2Proof.Claims.mayName s k n → s.faults (.nclose x) is k l .illegalField 0 is.word)) ∧
    (th.has k.alloc [(x.r1, 8, 8)] → ∀ g, s.grid k.ctx k.grid = some g →
      let full := 4096 ≤ s.pending.length ∨ (s.ctx k.ctx).var.pendQuota ≤ (s.pending.filter fun p => p.ctx = k.ctx).length
      (g.depth < 10 → ¬ full →
        let t : State := { w with
          pending := w.pending ++ [{ ctx := k.ctx, parent := k.grid, depth := g.depth + 1, bytes := toBytes 64 v }] }
        ∃ q, exec (.dlaunch x) s = .next q ∧
          (if x.ctl.flag then t.modThread is.core is.slot l fun q => q.pushNow true else t).endsAs q (.dlaunch x) is l .next) ∧
      (g.depth < 10 → full → x.ctl.flag = false → s.faults (.dlaunch x) is k l .launchFull 0 is.word) ∧
      (g.depth < 10 → full → x.ctl.flag = true → ∃ q, exec (.dlaunch x) s = .next q ∧
        (s.modThread is.core is.slot l fun q => q.pushNow false).endsAs q (.dlaunch x) is l .next) ∧
      (10 ≤ g.depth → s.faults (.dlaunch x) is k l .nestDepth 0 is.word))

/-- The words of a queue entry with one thread's word in its place (14 R358). -/
def Sys2Proof.Claims.entryOf (l v : Nat) : List Nat := (List.range 32).map fun t => if t = l then v else 0

/-- 14 R356, R358, R359, R360: SPSTART gives a core without a Spindle one of 32 threads, with its queues open and empty, and pushes
true; where there is one, or no room in the register file, it pushes false. SPSTOP of the own Spindle closes its queues and halts
it. QPUSH is a release at .core, then adds an entry of one word for each thread, and waits on 64 entries. QPOP and QPEEK are
owed the oldest entry's word and push true, QPOP taking it away; on a queue that is empty and closed both push false. -/
def Obligations.SpindlesAndQueues : Prop :=
  ∀ (s : State) (is : Issue) (k : Skein) (l : Nat) (g : Workgroup), s.wg k.wgKey = some g →
    let th := laneOf k.threads l
    let cs := (g.slotOf is.core).getD 0
    let pushed (t : State) (b : Bool) : State := t.modThread is.core is.slot l fun q => q.pushNow b
    (∀ x : FmtC, s.poisedOne is k x.ctl l → th.has k.alloc [(x.reg, 8, 1)] →
      let n := x.imm.toNat % 16
      let m := 64 * (n + 1)
      ((s.skein is.core 1023 = none → s.regUse is.core + 32 * m ≤ 2 ^ 21 → is.slot ≠ 1023 → is.slot < 1024 →
        Sys2Proof.Claims.completesAs s (.spstart x) is l (pushed ((s.openQueues k.wgKey cs).addSkein is.core 1023
          { ctx := k.ctx, grid := k.grid, wg := k.wg, idx := spindleIdx, alloc := m, dbgctl := (s.ctx k.ctx).var.dbgdef
            threads := List.replicate 32 (newThread (is.pc + word (sextTo 64 x.off * 8)) (word (th.reg x.reg 8)) {})
            node := k.node, regBytes := 32 * m }) true) .next) ∧
       (s.skein is.core 1023 ≠ none ∨ 2 ^ 21 < s.regUse is.core + 32 * m →
        Sys2Proof.Claims.completesAs s (.spstart x) is l (pushed s false) .next))) ∧
    (∀ x : FmtC, s.poisedOne is k x.ctl l → is.slot ≠ 1023 → is.slot < 1024 → ∀ p, s.skein is.core 1023 = some p →
      p.wgKey = k.wgKey →
      Sys2Proof.Claims.completesAs s (.spstop x) is l
        ((s.modWg k.wgKey fun w => w.closeQueues cs (x.imm.getLsbD 0)).haltSpindle is.core) .next) ∧
    ∀ x : FmtX, s.poisedOne is k x.ctl l → th.has k.alloc [(x.r1, 4, 1)] →
      let n := x.imm.toNat % 8
      let q := g.queue cs n
      (q.entries.length < 64 → Sys2Proof.Claims.completesAs s (.qpush x) is l
        ((s.drainTo is.core is.slot 2).modQueue k.wgKey cs n fun q =>
          { q with entries := q.entries ++ [Sys2Proof.Claims.entryOf l (th.reg x.r1 4)] }) .next) ∧
      (64 ≤ q.entries.length → Sys2Proof.Claims.completesAs s (.qpush x) is l s
        (.wait .pushRoom (Sys2Proof.Claims.entryOf l (th.reg x.r1 4)))) ∧
      (∀ e r, q.entries = e :: r → s.poppers is.core k.wgKey n = [] →
        Sys2Proof.Claims.completesAs s (.qpop x) is l (pushed (Sys2Proof.Claims.owes ({ s with order := s.order + 1 }.modQueue
          k.wgKey cs n fun q => { q with entries := r }) is l x.r1 4 (e.getD l 0)) true) .next ∧
        Sys2Proof.Claims.completesAs s (.qpeek x) is l
          (pushed (Sys2Proof.Claims.owes s is l x.r1 4 (e.getD l 0)) true) .next) ∧
      (q.entries = [] → q.opened = true → Sys2Proof.Claims.completesAs s (.qpop x) is l { s with order := s.order + 1 }
        (.wait .popEntry [s.order])) ∧
      (q.entries = [] → Sys2Proof.Claims.completesAs s (.qpeek x) is l (pushed s false) .next ∧
        (q.opened = false → Sys2Proof.Claims.completesAs s (.qpop x) is l (pushed s false) .next))


/-- 14 R361, R362, R363, R364, 07 R204: HCALL and HRET COMPLETE where the target header has flag bit 5 set: the thread waits with its
target, threshold, timeout and live field, HCALL's LINK written after its block; HRET's target is LINK, which it leaves. A reserved
field of the control register is ILLEGAL_FIELD, any other target BAD_TARGET. A thread whose loads have landed joins the entry of its
key once its skein's stores have performed, and leaves its place as an exited thread; an entry that is full or timed out launches its
oldest 32 threads, repacked at the target with what the live field keeps of their registers, at the lowest free index. -/
def Obligations.HeddleCallsAndLaunches : Prop :=
  ∀ (s : State),
    (∀ (is : Issue) (k : Skein) (l : Nat) (x : FmtC), s.poisedOne is k x.ctl l →
      (laneOf k.threads l).has k.alloc [(x.reg, 4, 1)] →
      let th := laneOf k.threads l
      let c := th.reg x.reg 4
      (c / 2 ^ 5 % 2 ^ 11 ≠ 0 →
        s.faults (.hcall x) is k l .illegalField 0 is.word ∧ s.faults (.hret x) is k l .illegalField 0 is.word) ∧
      (c / 2 ^ 5 % 2 ^ 11 = 0 →
        ∀ p ∈ [(Instr.hcall x, is.pc + 8 * x.off.signExtend 64, true), (.hret x, th.link, false)],
          let t := p.2.1
          let r := s.fetch is.core k.ctx t (!th.sup)
          ((2 ^ 52 ≤ t.toNat ∨ t.toNat % 8 ≠ 0) → s.faults p.1 is k l .badTarget t is.word) ∧
          (t.toNat < 2 ^ 52 → t.toNat % 8 = 0 →
            (∀ e, r.2 = .error e → Sys2Proof.Claims.traps s p.1 is k l { cause := e, addr := t } r.1) ∧
            ∀ h, r.2 = .ok h →
              (isHeader h = false ∨ h.getLsbD 5 = false → s.faults p.1 is k l .badTarget t is.word r.1) ∧
              (isHeader h = true → h.getLsbD 5 = true →
                let u := if p.2.2 then r.1.modThread is.core is.slot l fun q => q.pendLink (s.cycle + 4) k.blkEnd else r.1
                ∃ q, exec p.1 s = .next q ∧ State.endsAs { u with order := u.order + 1 } q p.1 is l
                  (.wait .heddleDrain [t.toNat, c % 2 ^ 5 + 1, c / 2 ^ 16 % 2 ^ 16, fld h 41 6, u.order]))))) ∧
    (∀ core slot l k w e, s.skein core slot = some k → k.waitsFor (· = .heddleDrain) = [(l, w)] → w.lanes = [l] →
      s.halted core slot = false → k.unblocked →
      let u := s.drainQueue core slot
      ∀ k', u.skein core slot = some k' → (laneOf k'.threads l).held = [] →
        (u.core core).heddleEntry k'.wgKey (word (w.vals.getD 0 0)) = some e →
        let old := (look (u.core core).heddle e).getD {
          wg := k'.wgKey, target := word (w.vals.getD 0 0), threshold := w.vals.getD 1 1, timeout := w.vals.getD 2 0
          live := w.vals.getD 3 63 }
        let come : HThread := { thread := { laneOf k'.threads l with stopNext := false }, alloc := k'.alloc, arrived := u.cycle
                                seq := w.vals.getD 4 0 }
        let t := (u.modCore core fun c => { c with
          heddle := ins e { old with threads := insBy (·.seq) come old.threads } c.heddle }).modThread core slot l fun _ => deadThread
        exec (.heddleArrive core slot) s =
          .next ((((t.core core).heddle.map (·.1)).foldl (fun s e => s.heddleLaunches core e 384) t).settle core slot)) ∧
    ∀ core e h first rest idx slot w, look (s.core core).heddle e = some h → h.threads = first :: rest → h.threads.length ≤ 32 →
      (h.threshold ≤ h.threads.length ∨ first.arrived + h.timeout ≤ s.cycle) → s.stopped h.wg = false →
      s.freeIndex h.wg = some idx → s.slotFor core = some slot → s.wg h.wg = some w →
      (∀ t ∈ h.threads, t.thread.stepNext = none ∧ t.thread.stopNext = false) → ∃ t k, exec (.heddleTimeout core e) s = .next t ∧
        look (t.core core).heddle e = none ∧ t.skein core slot = some k ∧ k.idx = idx ∧ k.alloc = first.alloc ∧
        let keep := if h.live = 63 then first.alloc else min first.alloc (16 * h.live)
        ∀ j (hj : j < h.threads.length), (laneOf k.threads j).pc = h.target ∧ (laneOf k.threads j).st = .running ∧
          (laneOf k.threads j).link = h.threads[j].thread.settle.link ∧
          ∀ a, byteAt (laneOf k.threads j).regs a = if a < keep then byteAt h.threads[j].thread.settle.regs a else 0

/-- 14 R365, R366, R367, R368: BOARD, ALIGHT, RINGACK and STRIPQ COMPLETE. BOARD takes the lowest free record of its core, once its
skein's stores have performed for the engines, makes the buffer absent and the counter zero, and pushes true; with no record free it
pushes false; its checks' faults are taken. ALIGHT of an own record cancels it, and waits while a tile lands; RINGACK frees the oldest
slots, at most the count, once the skein's earlier reads have been made; a record of another workgroup is left alone, and an index above
7 is ILLEGAL_FIELD. STRIPQ is owed its value, all ones outside a strip chain. -/
def Obligations.BoardingsAreTakenAndReleased : Prop :=
  ∀ (s : State) (is : Issue) (k : Skein) (l : Nat) (x : FmtX), s.poisedOne is k x.ctl l →
    let th := laneOf k.threads l
    let pushed (t : State) (b : Bool) : State := t.modThread is.core is.slot l fun q => q.pushNow b
    (th.has k.alloc [(x.r1, 8, 2)] → th.has k.alloc [(x.r2, 4, 1)] →
      let v := natAt th.regs (regAddr th.views x.r1) 16
      let e0 := v % 2 ^ 64
      let e1 := v / 2 ^ 64
      (∀ q, s.boardFault k e0 e1 = some q → Sys2Proof.Claims.traps s (.board x) is k l q s) ∧
      (s.boardFault k e0 e1 = none → (∀ i < 8, (look (s.core is.core).boards i).isSome = true) →
        ∃ t, exec (.board x) s = .next t ∧ (pushed s false).endsAs t (.board x) is l .next) ∧
      (s.boardFault k e0 e1 = none → ∀ i < 8, look (s.core is.core).boards i = none →
        (∀ j < i, (look (s.core is.core).boards j).isSome = true) →
        let u := s.drainForEngine is.core is.slot
        let b : Board := {
          wg := k.wgKey, retry := x.ctl.flag, scope := x.ctl.scope.toNat, first := bits e0 0 12, last := bits e0 12 12
          buffer := bits e0 24 21, slots := bits e0 45 6 + 1, counter := bits e1 0 21, next := u.ring.firstOf (bits e0 0 12)
          lastSeq := u.ring.firstOf (bits e0 12 12 + 1) - 1, since := u.cycle }
        let t := (u.modPart k.wgKey (u.boardSlot is.core b) fun p =>
          (p.blank (units 128 b.buffer (16384 * b.slots))).store b.counter (toBytes 8 0) []).setBoard is.core i b
        ∃ q, exec (.board x) s = .next q ∧
          (pushed (Sys2Proof.Claims.owes t is l x.r2 4 i) true).endsAs q (.board x) is l .next) ∧
      (e0 / 2 ^ 51 ≠ 0 ∨ e1 / 2 ^ 21 ≠ 0 → s.faults (.board x) is k l .illegalField 0 is.word)) ∧
    (th.has k.alloc [(x.r1, 4, 1)] →
      let i := th.reg x.r1 4
      (i < 8 → s.ownBoard is.core k i = none → ∃ t, exec (.alight x) s = .next t ∧ s.endsAs t (.alight x) is l .next) ∧
      (∀ b, i < 8 → s.ownBoard is.core k i = some b →
        let u := s.setBoard is.core i { b with cancel := true }
        (b.landing ≠ none → ∃ t, exec (.alight x) s = .next t ∧ u.endsAs t (.alight x) is l (.wait .alight [i])) ∧
        (b.landing = none → (∃ k', (u.freeCancelled is.core).skein is.core is.slot = some k' ∧ k'.calm) →
          ∃ t, exec (.alight x) s = .next t ∧ (u.freeCancelled is.core).endsAs t (.alight x) is l .next)) ∧
      (8 ≤ i → s.faults (.alight x) is k l .illegalField 0 is.word)) ∧
    (th.has k.alloc [(x.r1, 4, 1), (x.r2, 4, 1)] →
      let i := th.reg x.r1 4
      (i < 8 → s.ownBoard is.core k i = none → ∃ t, exec (.ringack x) s = .next t ∧ s.endsAs t (.ringack x) is l .next) ∧
      (∀ b, i < 8 → s.ownBoard is.core k i = some b →
        (b.st ≠ 1 → b.st ≠ 2 → ∃ t, exec (.ringack x) s = .next t ∧ s.endsAs t (.ringack x) is l .next) ∧
        (b.st = 1 ∨ b.st = 2 →
          (s.readsDue is.core k k.ord = false → ∃ t, exec (.ringack x) s = .next t ∧
            (s.ackBoard is.core i b (th.reg x.r2 4)).endsAs t (.ringack x) is l .next) ∧
          (s.readsDue is.core k k.ord = true → ∃ t, exec (.ringack x) s = .next t ∧
            s.endsAs t (.ringack x) is l (.wait .presence [i, th.reg x.r2 4])))) ∧
      (8 ≤ i → s.faults (.ringack x) is k l .illegalField 0 is.word)) ∧
    (th.has k.alloc [(x.r1, 8, 1)] → ∀ g, s.grid k.ctx k.grid = some g →
      (g.strip = none → ∃ t, exec (.stripq x) s = .next t ∧
        (Sys2Proof.Claims.owes s is l x.r1 8 (2 ^ 64 - 1)).endsAs t (.stripq x) is l .next) ∧
      ∀ c, g.strip = some c → ∃ t, exec (.stripq x) s = .next t ∧
        (Sys2Proof.Claims.owes s is l x.r1 8 (c.query (x.imm.toNat % 4))).endsAs t (.stripq x) is l .next)

/-- 13 R331, R332, R333, R334: outside recovery RINGCTL turns the ring on at pick 0 with the owner it names, a pending program
adopted at that moment, and off once the tile in progress has gone, dropping every incomplete boarding; with no program to run it
clears enable and sets the error. RINGNEXT names the next program, and an adoption between picks takes it with its first tile
next, a rejected one clearing enable. -/
def Obligations.RingAdoptsItsProgram : Prop :=
  ∀ (s : State), s.boot.recovery = false →
    (∀ v : Word, s.ring.enable = false → v.getLsbD 0 = true → s.ring.stopping = false →
      let u := s.modRing fun r => { r with
        enable := true, rate := v.toNat / 2 % 4, owner := v.toNat / 2 ^ 4 % 2 ^ 9, error := false
        nextPick := 0, next := 0, ready := s.cycle, stopping := false, holding := none }
      (s.ring.pending = false → s.ring.prog ≠ none → exec (.ringctlEnable v) s = .next u) ∧
      (s.ring.pending = false → s.ring.prog = none → exec (.ringctlEnable v) s = .next u.ringFail) ∧
      (s.ring.pending = true → exec (.ringctlEnable v) s = .next (u.adopt 0))) ∧
    (∀ v : Word, s.ring.enable = true → v.getLsbD 0 = false → s.tileOver = false →
      exec (.ringctlDisable v) s = .next (s.modRing fun r => { r with
        enable := false, rate := v.toNat / 2 % 4, stopping := true })) ∧
    (∀ v : Word, s.ring.enable = true → v.getLsbD 0 = false → s.tileOver = true →
      exec (.ringctlDisable v) s = .next (State.dropAllBoards (s.modRing fun r => { r with
        enable := false, rate := v.toNat / 2 % 4, running := false, holding := none, stopping := false }))) ∧
    (∀ v : Word, exec (.ringnextWrite v) s = .next (s.modRing fun r => { r with
      pending := v.getLsbD 63, base := v.toNat / 2 ^ 12 % 2 ^ 40, layers := v.toNat % 2 ^ 12 })) ∧
    (s.ring.enable = true → s.ring.stopping = false → s.ring.pending = true → s.tileOver = true → s.ring.pickEnd = true →
      exec .ringAdopt s = .next (s.adopt ((s.ring.nextPick + 1) % 65536))) ∧
    ∀ pick, let w := s.modRing fun r => { r with pending := false }
      (∀ u p, w.readProg = (u, some p) → s.adopt pick = (u.dropAllBoards.modRing fun q => { q with
        prog := some p, next := 0, nextPick := pick })) ∧
      ∀ u, w.readProg = (u, none) → s.adopt pick = u.ringFail ∧
        u.ringFail = (State.postDev (u.modRing fun r => { r with
          enable := false, error := true, running := false, holding := none, stopping := false })
          { kind := 17 }).dropAllBoards

/-- 13 R330, R335, R336, R338, R341, R342, R344, R345, R346: at a tile boundary the next tile of the pick is read at the home slices
and injected with the CRC-32C of its expanded payload, held first where a boarding lacks a slot, and its boardings dropped once the hold
time is over; flit 0 takes a slot of each boarding whose next tile it is; flit 15 lands the tile where the CRC of what arrived
matches, makes its lines present and counts it, and where it does not leaves the slot to a retry. -/
def Obligations.RingCarriesTiles : Prop :=
  ∀ (s : State),
    (s.ring.stopping = false → s.atBoundary = true →
      (∀ t, (s.ring.prog.getD [])[s.ring.due.2]? = some t → s.holders s.ring.due.2 = [] →
        let r := s.homeRead t.src (tileBytes t.fmt t.comp) none
        ∃ x : Flight, x.data = expandTile t.fmt t.comp r.2.1 ∧ x.crc = crc32c x.data ∧ x.errs = [] ∧
          x.poison = decide (r.2.2 ≠ []) ∧ x.start = s.cycle ∧ x.layer = t.layer ∧ (x.pick, x.seq) = s.ring.due ∧
          x.gap = 2 ^ s.ring.rate ∧ exec .tileInject s = .next (r.1.modRing fun q => { q with
            holding := none, expired := none, running := true, pick := x.pick, tile := x.seq, layer := t.layer, nextPick := x.pick
            next := x.seq + 1, ready := s.cycle + 16 * x.gap
            flying := (q.flying.filter fun y => decide (s.cycle ≤ y.final 71)) ++ [x] })) ∧
      (s.holders s.ring.due.2 ≠ [] → s.ring.hold ≠ 0 → s.ring.holding = none →
        exec .tileInject s = .next (s.modRing fun r => { r with holding := some s.time.now, expired := none })) ∧
      ∀ t c, s.ring.holding = some t → t + s.ring.hold * 2 ^ 40 ≤ s.time.now →
        (s.ring.expired = none →
          exec .holdTimeout s = .next (s.modRing fun r => { r with expired := some s.cycle })) ∧
        (s.ring.expired = some c → c < s.cycle → exec .holdTimeout s =
          .next (((s.holders s.ring.due.2).foldl (fun s h => s.dropBoard h.1 h.2.1 h.2.2) s).inject))) ∧
    (∀ core x i, core < 72 → (s.ring.flying.zipIdx.find? fun x => !x.1.caught.contains core) = some (x, i) →
      x.first core ≤ s.cycle → (∀ b ∈ (s.core core).boards, b.2.landing = none) →
      let hit := (s.core core).boards.filter fun b => s.boarding b.2 && b.2.next == x.seq && decide (b.2.since < x.first core) &&
        decide (b.2.used < b.2.slots)
      exec (.tapCatch core) s = .next ((hit.foldl (fun s b => s.setBoard core b.1 { b.2 with
        landing := some (b.2.taken % b.2.slots), taken := b.2.taken + 1 }) s).modFlight i fun x => { x with
          caught := addTo core x.caught, landed := if hit = [] then addTo core x.landed else x.landed })) ∧
    ∀ core x i n b j, (s.ring.flying.zipIdx.find? fun x => x.1.caught.contains core && !x.1.landed.contains core) = some (x, i) →
      x.final core ≤ s.cycle → (s.core core).boards.filterMap (fun b => b.2.landing.map fun j => (b.1, b.2, j)) = [(n, b, j)] →
      let u := s.modFlight i fun x => { x with landed := addTo core x.landed }
      let next : Board := { b with landing := none, next := x.seq + 1 }
      let ok := crc32c (x.got core) = x.crc
      let kept := u.modPart b.wg (u.boardSlot core b) fun p =>
        p.store (b.at j) (x.got core) (if x.poison then wholeUnits 8 (b.at j) 16384 else [])
      let v := kept.modPart b.wg (u.boardSlot core b) fun p => p.fresh (b.lines j);
      (∀ o, o ≠ x.crcOk core → exec (.tileLand core o) s = .next s) ∧
      (ok → exec (.tileLand core true) s = .next ((((v.setBoard core n { next with
          landed := addTo j b.landed, st := if b.st = 1 ∧ b.lastSeq < x.seq + 1 then 2 else b.st }).boardCount core b
          countTile).finishDrops core).freeCancelled core)) ∧
      (¬ ok → let v := (u.count (b.wg % 512) 14 1).modPart b.wg ((u.count (b.wg % 512) 14 1).boardSlot core b) fun p =>
          p.store (b.at j) (x.got core) []
        (b.retry = true → exec (.tileLand core false) s = .next (((v.setBoard core n { b with
          landing := none, taken := b.taken - 1 }).finishDrops core).freeCancelled core)) ∧
        let z := v.modPart b.wg ((u.count (b.wg % 512) 14 1).boardSlot core b) fun p => p.mark (b.lines j) false
        (b.retry = false → exec (.tileLand core false) s = .next ((((z.setBoard core n { next with
          landed := dropFrom j b.landed, st := if b.st = 1 ∧ b.lastSeq < x.seq + 1 then 2 else b.st }).boardCount core b
          countTile).finishDrops core).freeCancelled core)))

/-- What an instruction of one thread reads. -/
def Sys2Proof.Claims.inputOf (s : State) (k : Skein) (l : Nat) (reads : Views → List Rd) : LaneIn :=
  let th := laneOf k.threads l
  { lane := l, cyc := s.cycle, vals := (reads th.views).map fun r => r.value k.threads l, pred := th.pred, link := th.link }

/-- A read of a descriptor or of texels that stops an instruction: it waits with its operands, or faults. -/
def Sys2Proof.Claims.stops (s : State) (i : Instr) (is : Issue) (k : Skein) (l : Nat) (vals : List Nat) (u : State) (f : Fate) :
    Prop :=
  (∀ w, (∃ v, f = .wait w v) → ∃ t, exec i s = .next t ∧ u.endsAs t i is l (.wait w vals)) ∧
  ∀ q, f = .trap q → Sys2Proof.Claims.traps s i is k l q u

/-- An instruction is owed 16 bytes in the state that its reads have left. -/
def Sys2Proof.Claims.owed (s : State) (i : Instr) (is : Issue) (l : Nat) (r : RegOp) (u : State) (v : Nat) : Prop :=
  ∃ t, exec i s = .next t ∧ (Sys2Proof.Claims.owes u is l r 16 v).endsAs t i is l .next

/-- A sampling instruction of a form: an index out of count or an invalid descriptor or sampler is owed zeros; else the
thread is owed the four channels of its sample; what its reads meet, it meets. -/
def Sys2Proof.Claims.samples (i : FmtX → Instr) (m : TexForm) : Prop :=
  ∀ (s : State) (is : Issue) (k : Skein) (l : Nat) (x : FmtX), s.poisedOne is k x.ctl l →
    let th := laneOf k.threads l
    let li := Sys2Proof.Claims.inputOf s k l (m.reads x)
    let w (n : Nat) : Nat := bits (li.val 0) (32 * n) 32
    let stops := Sys2Proof.Claims.stops s (i x) is k l li.vals
    let owed := Sys2Proof.Claims.owed s (i x) is l x.r1
    th.has k.alloc [(x.r1, 4, 4)] → th.has k.alloc ((m.reads x th.views).flatMap Rd.ops) →
    ∀ u td, s.descRead (siteOf s is l) k 0 (w 0) = (u, td) →
      (∀ f, td = .error f → stops u f) ∧
      (∀ d, td = .ok d → d.bind texOf = none → owed u 0) ∧
      ∀ d t v pd, td = .ok d → d.bind texOf = some t → u.descRead (siteOf s is l) k 1 (w 1) = (v, pd) →
        (∀ f, pd = .error f → stops v f) ∧
        (∀ e, pd = .ok e → e.bind sampOf = none → owed v 0) ∧
        ∀ e p z c, pd = .ok e → e.bind sampOf = some p → State.texSample (siteOf s is l) k t p (m.plan t p li) v = (z, c) →
          (∀ f, c = .error f → stops z f) ∧ ∀ ch, c = .ok ch → owed z (joinElems 32 ch)

/-- 17 R425, R426, R428, R429, R435, R436: TEX, TEXL, TEXG, TEXQ, IMST, TBLW, TBLR and TBLINV COMPLETE. The sampling instructions are
owed their sample, TEXQ the sizes of its level, and IMST queues its texel as a store, and nothing where it lies outside; TBLW of a
supervisor stores the entry as a release at .dev and replaces it in every cache, and is PROT beyond the table; TBLR is owed the entry,
TBLINV drops entries or translations after its release; a user's TBLW and TBLINV are PRIV. -/
def Obligations.TexturesAndTablesAreUsed : Prop :=
  Sys2Proof.Claims.samples .tex .quad ∧ Sys2Proof.Claims.samples .texl .level ∧ Sys2Proof.Claims.samples .texg .grad ∧
  ∀ (s : State) (is : Issue) (k : Skein) (l : Nat) (x : FmtX), s.poisedOne is k x.ctl l →
    let th := laneOf k.threads l
    let st := siteOf s is l
    let g (r : RegOp) (w n : Nat) : Nat := natAt th.regs (regAddr th.views r) (w * n)
    let table := x.imm.toNat % 4
    let n := if table = 0 then 4 else 2
    let does (i : Instr) (u : State) : Prop := ∃ t, exec i s = .next t ∧ u.endsAs t i is l .next
    (th.has k.alloc [(x.r1, 4, 4)] → th.has k.alloc [(x.r2, 4, 2)] →
      ∀ u td, s.descRead st k 0 (bits (g x.r2 4 2) 0 32) = (u, td) →
        let owed := Sys2Proof.Claims.owed s (.texq x) is l x.r1 u
        (∀ f, td = .error f → Sys2Proof.Claims.stops s (.texq x) is k l [g x.r2 4 2] u f) ∧
        (∀ d, td = .ok d → d.bind texOf = none → owed 0) ∧
        ∀ d t, td = .ok d → d.bind texOf = some t →
          let m := bits (g x.r2 4 2) 32 32
          owed (joinElems 32 ((if t.levels ≤ m then [0, 0] else [t.w m, t.h m]) ++ [t.layers, t.levels]))) ∧
    (th.has k.alloc [(x.r1, 4, 4), (x.r2, 4, 5)] →
      let w (n : Nat) : Nat := bits (g x.r2 4 5) (32 * n) 32
      ∀ u td, s.descRead st k 0 (w 0) = (u, td) →
        (∀ f, td = .error f → Sys2Proof.Claims.stops s (.imst x) is k l [g x.r1 4 4, g x.r2 4 5] u f) ∧
        (∀ d, td = .ok d → d.bind texOf = none → does (.imst x) u) ∧
        ∀ d t, td = .ok d → d.bind texOf = some t →
          (t.levels ≤ w 1 ∨ t.w (w 1) ≤ w 2 ∨ t.h (w 1) ≤ w 3 ∨ t.layers ≤ w 4 → does (.imst x) u) ∧
          (w 1 < t.levels → w 2 < t.w (w 1) → w 3 < t.h (w 1) → w 4 < t.layers →
            let va := t.at (w 1) (w 4) (w 2) (w 3)
            u.copyWaits st k (word va) = false →
            ∀ v p, u.place is.core k.ctx k.wgKey (word va) t.bpt .store (!(u.siteThread st).sup) = (v, p) →
              (∀ q, p = .error q → Sys2Proof.Claims.traps s (.imst x) is k l q v) ∧
              ∀ q, p = .ok q → v.tileBusy is.core is.slot q t.bpt true = false →
                let act : SqAct := .store q (texelBytes t.fmt (elems 32 4 (g x.r1 4 4))) [] (v.isPrivate is.core is.slot k.ctx va)
                does (.imst x) (v.enqueue is.core is.slot { act := act, lane := l }))) ∧
    (th.sup = true → th.has k.alloc [(x.r1, 8, n), (x.r2, 4, 1)] → table < 3 →
      let t := (s.varOf is.core is.slot k.ctx).table table
      let idx := th.reg x.r2 4
      let va := t.1 + t.2.2 * idx
      (t.2.1 ≤ idx → s.faults (.tblw x) is k l .prot (word va) is.word) ∧
      (idx < t.2.1 → s.copyWaits st k (word va) = false →
        ∀ v p, s.place is.core k.ctx k.wgKey (word va) t.2.2 .store false = (v, p) →
          (∀ q, p = .error q → Sys2Proof.Claims.traps s (.tblw x) is k l q v) ∧
          ∀ q, p = .ok q → v.tileBusy is.core is.slot q t.2.2 true = false →
            let d := toBytes t.2.2 (g x.r1 8 n)
            let u := v.drainTo is.core is.slot 4
            let z := ((u.storeAt is.core k.ctx q d [] (v.isPrivate is.core is.slot k.ctx va)).release is.core true).descReplace
              (descKey k.ctx table idx) d
            does (.tblw x) z)) ∧
    (th.has k.alloc [(x.r1, 8, n)] → th.has k.alloc [(x.r2, 4, 1)] →
      ∀ u d, s.descRead st k table (th.reg x.r2 4) = (u, d) →
        (∀ f, d = .error f → Sys2Proof.Claims.stops s (.tblr x) is k l [th.reg x.r2 4] u f) ∧
        ∀ e, d = .ok e → does (.tblr x) (Sys2Proof.Claims.owes u is l x.r1 (8 * n) (ofBytes (e.getD [])))) ∧
    (th.sup = true → th.has k.alloc [(x.r1, if table = 3 then 8 else 4, 1), (x.r2, 4, 1)] →
      let u := s.drainTo is.core is.slot 4
      let m := th.reg x.r2 4
      let a := (u.ctx k.ctx).fix.asid
      (m = 0 → does (.tblinv x) u) ∧
      (m ≠ 0 → table ≠ 3 → does (.tblinv x) (u.descDrop k.ctx table (th.reg x.r1 4) m)) ∧
      (m ≠ 0 → table = 3 → x.ctl.scope = 2 →
        does (.tblinv x) (u.dropTlbOf is.core a (th.reg x.r1 8 / 4096 * 4096) (4096 * m))) ∧
      (m ≠ 0 → table = 3 → x.ctl.scope ≠ 2 →
        does (.tblinv x) (u.dropTlb a (th.reg x.r1 8 / 4096 * 4096) (4096 * m) false))) ∧
    (th.sup = false → s.faults (.tblw x) is k l .priv 0 is.word ∧ s.faults (.tblinv x) is k l .priv 0 is.word)

/-- 17 R430, R431, R432, R433: TRACE, HITACC, HITIGN and HITEND COMPLETE: TRACE writes status 6 and waits with its slot's traversal,
one with a bad root or flags being over; HITACC, HITIGN and HITEND of a slot at status 4 or 5 whose record is known resume it, end it
with status 2 and push false where it is not, and are ILLEGAL_FIELD at another status. A traversal that ends writes its status and
hit, or the address and cause of its fault, pushes status = 1 and goes on after its TRACE with the TRACE's BLK; one that calls a
shader writes its candidate and runs the shader's header, and is BAD_TARGET at the TRACE where there is none. -/
def Obligations.RaysAreTraced : Prop :=
  (∀ (s : State) (is : Issue) (k : Skein) (l : Nat) (x : FmtX), s.poisedOne is k x.ctl l →
    let th := laneOf k.threads l
    let v (n : Nat) : Nat := natAt th.regs (regAddr th.views x.r1) (4 * n)
    let t := travOf (v 12) (siteOf s is l) th.blk
    (th.has k.alloc [(x.r1, 4, 64)] → th.has k.alloc [(x.r1, 4, 12)] →
      Sys2Proof.Claims.completesAs s (.trace x) is l (s.modThread is.core is.slot l fun q =>
        { q.slotPut x.r1 48 (toBytes 4 6) with trav := some (if t.2 then t.1.broken else t.1) }) (.wait .trace [])) ∧
    (th.has k.alloc [(x.r1, 4, 64)] → ∀ p ∈ [(Instr.hitacc x, HitKind.acc), (.hitign x, .ign), (.hitend x, .stop)],
      let st := bits (v 64) 384 32
      (st = 4 ∨ st = 5 → s.travs.find? (fun r => ofBytes r.1 == bits (v 64) 768 1280) = none →
        Sys2Proof.Claims.completesAs s p.1 is l
          (s.modThread is.core is.slot l fun q => (q.slotEnd x.r1 2 none 0 0).pushNow false) .next) ∧
      (∀ b t, st = 4 ∨ st = 5 → s.travs.find? (fun r => ofBytes r.1 == bits (v 64) 768 1280) = some (b, t) →
        Sys2Proof.Claims.completesAs s p.1 is l (s.modThread is.core is.slot l fun q => { q with
          trav := some (t.resume p.2 st (bits (v 64) 416 32) (bits (v 64) 448 32) (bits (v 64) 480 32)) }) (.wait .trace [])) ∧
      (st ≠ 4 → st ≠ 5 → s.faults p.1 is k l .illegalField 0 is.word))) ∧
  ∀ (s : State) (core slot lane : Nat) (r : RegOp) (st : Site) (k : Skein) (t : Trav),
    s.tracing core slot lane = some (r, st, k, t) →
    (∀ u t' b, State.travRun st k travFuel t s = (u, .over t' b) →
      let status := if b || t'.flags.testBit 8 then 2 else if t'.best.isSome then 1 else 0
      exec (.traversalEnd core slot lane) s = .next ((u.modThread core slot lane fun th =>
        { (th.slotEnd r status t'.best 0 0).pushNow (status == 1) with blk := t'.blk, trav := none }).wakeAt core slot lane
        (t'.pc + 8))) ∧
    (∀ u e, State.travRun st k travFuel t s = (u, .fault e) →
      exec (.traversalEnd core slot lane) s = .next ((u.modThread core slot lane fun th =>
        { (th.slotEnd r 3 t.best e.addr e.cause.code).pushNow false with blk := t.blk, trav := none }).wakeAt core slot lane
        (t.pc + 8))) ∧
    (∀ u t', State.travRun st k travFuel t s = (u, .go t') →
      exec (.traversalEnd core slot lane) s = .next (u.modThread core slot lane fun th => { th with trav := some t' })) ∧
    ∀ u t' anyhit a v bad, State.travRun st k travFuel t s = (u, .shader t' anyhit a) →
      (u.slotCall core slot lane r t' anyhit).badTarget core k.ctx (word a)
        (!((u.slotCall core slot lane r t' anyhit).siteThread st).sup) = (v, bad) →
      exec (.scarabShaderCall core slot lane) s = .next (if bad then
        (v.modThread core slot lane fun th =>
          { th.wake with stepNext := none, pc := t'.pc, blk := t'.blk, trav := none }).raise core slot t'.pc t'.word
          [(lane, { cause := .badTarget, addr := word a })]
      else (v.modThread core slot lane fun th => { th with blk := word a, trav := some t' }).wakeAt core slot lane (word a))

/-- 11 R285, R287 to R291, R298, R301, 02 R37, R40, R52, R55, 05 R136: a 64-byte write of an enabled context with quota joins its
launch queue; the record at the head of a free source, a queue or the pending-launch store, is taken as a grid, held by a page
fault on its graph descriptor, or rejected with its reason; the grid that the distributor serves places its next workgroup on the
cluster, a concurrent grid all of them, a ready node its oldest records; a retiring grid makes its completion store and leaves the
device, or is held by a page fault there. A pipeline without a run that no instruction occupies grants one to the first ready slot of
its rotation that has not just yielded. -/
def Obligations.GridsAreLaunchedAndRetired : Prop :=
  ∀ (s : State),
    (∀ ctx (data : List Byte), s.boot.recovery = false → ctx < 512 → (s.ctx ctx).enabled = true → (s.ctx ctx).var.quota ≠ 0 →
      (s.ctx ctx).resetting = false → data.length = 64 → (s.ctx ctx).lq.length < 256 →
      let c := s.ctx ctx
      let slot := (((List.range 256).map fun i => (c.lqNext + i) % 256).find? fun i => !c.lq.contains i).getD 0
      exec (.launchRecordWrite ctx 0 data) s =
        .next ((s.homeWrite (c.fix.launchBase + 64 * slot) data [] none).modCtx ctx fun c => { c with
          lq := c.lq ++ [slot], lqNext := (slot + 1) % 256, lastSeq := word (numAt data 24 8) })) ∧
    (∀ ctx (data : List Byte) off, s.boot.recovery = false → ctx < 512 → off < 0x40 → (s.ctx ctx).enabled = true →
      (s.ctx ctx).var.quota ≠ 0 → (s.ctx ctx).resetting = false →
      (off ≠ 0 ∨ data.length ≠ 64 →
        exec (.launchRecordWrite ctx off data) s = .next ((s.count ctx 21 1).post ctx true { kind := 4, detail := 7 })) ∧
      (off = 0 → data.length = 64 → 256 ≤ (s.ctx ctx).lq.length →
        exec (.launchRecordWrite ctx off data) s = .next ((s.count ctx 21 1).post ctx true { kind := 4, detail := 6 }))) ∧
    (∀ ctx band pend u i bs depth parent, (s.ctx ctx).enabled = true → (s.ctx ctx).resetting = false → band < 3 →
      (s.ctx ctx).ev.waits.any (·.kind == 4) = false → s.sourceBusy ctx band (if pend then .pend else .queue) = false →
      (s.ctx ctx).ev.outstanding.any (fun o => o.2 == .head band pend) = false →
      (if pend then u = s ∧ ∃ n, s.pendHead ctx band =
          some (i, { ctx := ctx, bytes := bs, depth := depth, parent := n }) ∧ parent = some n
        else State.queueHead ctx band (s.ctx ctx).lq s = (u, some (i, bs)) ∧ depth = 0 ∧ parent = none) →
      let r := recordOf bs
      let run := exec (.launchHeadCheck ctx band pend) s
      let taken (v : State) (g : Option Graph) : State := (v.popHead ctx pend i).takeGrid {
        ctx := ctx, num := 0, lr := { r with band := band }, src := if pend then .pend else .queue, depth := depth
        parent := parent, graph := g }
      ((u.ctx ctx).mayHold = true → recordFields bs = false → run = .next (u.rejectHead ctx pend i 1 r.seq)) ∧
      ((u.ctx ctx).mayHold = false → recordFields bs = false → run = .next u) ∧
      ((u.ctx ctx).mayHold = true → recordFields bs = true → r.kind ≠ 1 → ∀ n, u.laterReason ctx r = some n →
        run = .next (u.rejectHead ctx pend i n r.seq)) ∧
      (recordFields bs = true → r.kind ≠ 1 → u.laterReason ctx r = none → run = .next (taken u none)) ∧
      (recordFields bs = true → r.kind = 1 →
        (∀ v g, u.graphOf ctx r.entry.toNat false = (v, .ok g) → v.laterReason ctx r = none → run = .next (taken v (some g))) ∧
        (∀ v g n, u.graphOf ctx r.entry.toNat false = (v, .ok g) → v.laterReason ctx r = some n → (u.ctx ctx).mayHold = true →
          run = .next (v.rejectHead ctx pend i n r.seq)) ∧
        (∀ v, u.graphOf ctx r.entry.toNat false = (v, .bad) → (u.ctx ctx).mayHold = true →
          run = .next (v.rejectHead ctx pend i 1 r.seq)) ∧
        ∀ v c va, u.graphOf ctx r.entry.toNat false = (v, .page c va) → run = .next (v.postFault ctx
          { kind := 1, cause := causeWord c false false, addr := word va, detail := 8 + accDetail .read } (.head band pend)))) ∧
    (∀ ctx grid cluster g cl, s.grid ctx grid = some g → g.strip = none → (s.ctx ctx).enabled = true → cluster ≠ [] →
      g.admitting = true → s.serves g = true → checkCluster (s.quotaLeft ctx) g.lr (s.rooms ctx) cluster = some cl →
      (g.lr.cls ≠ 2 → exec (.workgroupAdmit ctx grid cluster) s = .next ((s.serve g).admitOne g cl)) ∧
      ∀ rest, g.lr.cls = 2 → pickAll g.lr (g.lr.total - 1)
          (s.quotaLeft ctx - (cl.filter fun c => (s.rooms ctx).any fun m => m.core == c.1 && !m.held).length)
          (takeRooms g.lr cl (s.rooms ctx)) = some rest →
        exec (.workgroupAdmit ctx grid cluster) s = .next ((cl :: rest).foldl (fun s c => s.admitOne g c) (s.serve g))) ∧
    (∀ g cl, s.grid g.ctx g.num = some g → s.admitOne g cl =
      (s.placeWg g g.next g.lr.entry none none cl).modGrid g.ctx g.num fun g => { g with next := g.next + 1 }) ∧
    (∀ ctx grid node core g w x, s.grid ctx grid = some g → g.graph = some w → w.nodes[node]? = some x →
      w.ready (s.gridWgs ctx grid) node = true → s.nodeFits g core (min 32 x.count) = true →
      exec (.nodeLaunch ctx grid node core) s =
        .next ((if g.strip.isSome then s else s.serve g).launchNode g w x node core (min 32 x.count))) ∧
    (∀ ctx grid g, s.grid ctx grid = some g → g.held = false → (s.ctx ctx).resetting = false → s.retirable g = true →
      (s.ctx ctx).ev.waits.any (·.kind == 6) = false →
      let z := match g.strip, g.handed with
        | some t, false => s.stripRetire (gridKey ctx grid) t
        | _, _ => s
      let gone (u : State) : State := match g.strip with
        | some t => (u.dropGrid g).sweepLow t.entry
        | none => u.dropGrid g
      (g.lr.completion = 0 ∨ (g.graph.map (·.abandoned)).getD false = true → exec (.gridRetire ctx grid) s = .next (gone z)) ∧
      (∀ u, g.lr.completion ≠ 0 → (g.graph.map (·.abandoned)).getD false = false → z.completeGrid g = (u, none) →
        exec (.gridRetire ctx grid) s = .next (gone u)) ∧
      (∀ u c, g.lr.completion ≠ 0 → (g.graph.map (·.abandoned)).getD false = false → z.completeGrid g = (u, some c) →
        c ≠ .page → exec (.gridRetire ctx grid) s =
          .next ((gone u).post ctx false (gridEvent 6 grid g.lr.completion.toNat 0))) ∧
      ∀ u, g.lr.completion ≠ 0 → (g.graph.map (·.abandoned)).getD false = false → z.completeGrid g = (u, some .page) →
        exec (.gridRetire ctx grid) s = .next ((u.modGrid ctx grid fun g => { g with held := true, handed := true }).postFault
          ctx { gridEvent 1 grid g.lr.completion.toNat (8 + accDetail .write) with
            cause := causeWord .page false false } (.completion grid))) ∧
    (∀ c e r, (s.ctx c).ev.held = e :: r → (s.ctx c).evRoom = true → exec (.heldEventPost (some c)) s =
      .next (((s.modCtx c fun x => { x with ev := { x.ev with held := r } }).ringEvent c e).holdNext c)) ∧
    (∀ e r, s.devq.held = e :: r → s.devq.room = true →
      exec (.heldEventPost none) s = .next (State.ringDevEvent { s with devq := { s.devq with held := r } } e)) ∧
    ∀ core pipe x k before after,
      let u := ((s.core core).pipe pipe).rot.foldl (fun s x => s.reap core x) s
      let p := (u.core core).pipe pipe
      let step := decide (k.ready true ≠ [])
      p.run = none → p.busy ≤ u.cycle → p.rot = before ++ x :: after →
      (∀ y ∈ before, u.slotReady core y = false ∨ ((u.skein core y).map (·.yielded)).getD false = true) →
      u.slotReady core x = true → u.skein core x = some k → u.stopped k.wgKey = false → k.yielded = false →
      exec (.runGrant core pipe) s = .next ((p.rot.foldl (fun s y => s.modSkein core y fun k => { k with yielded := false })
        (u.setCore core ((u.core core).setPipe pipe { p with
          run := some { slot := x, start := u.cycle, mhz := u.mon.mhz, step := step } }))).modSkein core x fun k =>
        k.startRun step)

/-- 11 R303, R304, R305, R306: a vacate whose skeins and engines are at rest performs their stores, lands their loads and saves its
workgroups, a context reset's kills them; a saved workgroup has its image in the lowest free slot and is gone from its cores; the end
of a vacate that saved posts the kind-7 event of a host request, that of a context reset ends the reset; a restore reads the image
back, the parts placed on the cluster, a concurrent grid's workgroups all of them, gone from the save slots, with the watchdog time held
meanwhile. -/
def Obligations.WorkgroupsAreSavedAndRestored : Prop :=
  ∀ (s : State),
    (∀ req v, look s.vacates req = some v → v.saved = false → v.started = true →
      let mine (k : Nat) : Bool := v.wgs.contains k
      let u := v.cores.foldl (fun s c => s.quiesce c mine) s
      (v.kill = false → v.cores.all (fun c => s.restful c mine) = true →
        let t := v.wgs.foldl State.saveWg u
        exec (.vacateDrainEnd req) s = .next { t with vacates := ins req { v with saved := true } t.vacates }) ∧
      (v.kill = true → v.cores.all (fun c => s.paused c mine) = true →
        let t := v.wgs.foldl State.killWg u
        exec (.vacateDrainEnd req) s = .next { t with vacates := ins req { v with saved := true } t.vacates }) ∧
      (v.cores.all (fun c => s.paused c mine) = false → exec (.vacateDrainEnd req) s = .next s)) ∧
    (∀ req v ctx, look s.vacates req = some v → v.saved = false → v.started = false → v.host = some ctx → v.count = none →
      let wgs := (s.victims (s.hostCores ctx none)).filter fun k => k % 512 == ctx
      let others := (s.vacates.filter fun p => p.1 != req && p.2.started &&
        p.2.cores.any (s.hostCores ctx none).contains).map (·.1)
      let t := s.startVacate req { v with cores := [] } wgs
      (s.saveRoom wgs = true → exec (.vacateDrainEnd req) s = .next { t with
        vacates := t.vacates.map fun p => if p.1 = req then (p.1, { p.2 with after := addAll others p.2.after }) else p }) ∧
      (s.saveRoom wgs = false → exec (.vacateDrainEnd req) s = .next s)) ∧
    (∀ wgk w, s.wg wgk = some w →
      let slot := ((List.range ((s.slotsUsed w.ctx).length + 1)).find? fun i => !(s.slotsUsed w.ctx).contains i).getD 0
      let fix := (s.ctx w.ctx).fix
      let parts := w.cluster.zipIdx.map fun c => (c.1, c.2, s.partOf w wgk c.1 c.2)
      let r := s.saveParts w (fix.saveBase + slot * fix.slotSize * 65536) parts
      (s.saveWg wgk).wg wgk = none ∧ look (s.saveWg wgk).saved wgk = some {
        wg := { w with parts := w.parts.map fun p => (p.1, ({ marks := p.2.marks } : Part)), cvs := [] }
        slot := slot, cores := r.2, cycle := s.cycle, time := s.time.now }) ∧
    (∀ req v, look s.vacates req = some v → v.started = true → v.saved = true →
      (∀ i ∈ v.after, look s.vacates i = none) →
      (v.kill = false → v.host = none → exec (.vacateEnd req) s = .next { s with vacates := del req s.vacates }) ∧
      (∀ ctx, v.kill = true → v.host = some ctx →
        exec (.vacateEnd req) s = .next (State.resetEnd { s with vacates := del req s.vacates } ctx)) ∧
      ∀ ctx, v.kill = false → v.host = some ctx → (s.ctx ctx).ev.waits = [] → (s.ctx ctx).ev.held.length < 16 →
        exec (.vacateEnd req) s = .next ((State.modCtx { s with vacates := del req s.vacates } ctx fun c => { c with
          preempting := false }).post ctx false { kind := 7 })) ∧
    ∀ ctx grid wg cluster sv, look s.saved (wgKey ctx grid wg) = some sv →
      let ms := (s.rooms ctx).filter fun m => cluster.contains m.core
      ms.map (·.core) = cluster → s.holdsAll sv ms = true → s.restoreNext (wgKey ctx grid wg) sv = true →
      let n := s.cycle - sv.cycle
      let r := s.readParts sv.wg (sv.cores.zipIdx.map fun p => (p.2, p.1))
      let w := { r.2.1 with
        cluster := cluster, wdStart := sv.wg.wdStart + (s.time.now - sv.wg.wdHeld.getD s.time.now), wdHeld := none, handles := [] }
      let t : State := { r.1 with saved := del (wgKey ctx grid wg) s.saved, wgs := ins (wgKey ctx grid wg) w s.wgs }
      let z := cluster.foldl State.finishDrops (((cluster.zip r.2.2).zipIdx).foldl (fun s c =>
        s.putPart (wgKey ctx grid wg) c.1.1 c.2 n r.2.1.handles c.1.2) t)
      let rest := (s.saved.filter fun p => p.2.wg.ctx == ctx && p.2.wg.grid == grid && p.1 != wgKey ctx grid wg).map (·.1)
      (sv.wg.whole = false → exec (.workgroupRestore ctx grid wg cluster) s = .next z) ∧
      ∀ y, sv.wg.whole = true → State.restoreAll rest z = some y → exec (.workgroupRestore ctx grid wg cluster) s = .next y

/-- 07 R183, R185, R191, R198, 04 R106: a core that is due more ways drops the L1 lines that lie in them and lends them, and takes
back those that no grant needs; an exclusive line recalled goes back to the home slice; a page walk leaves everything but
caches, events and the pages' bits alone; past its limit a workgroup's watchdog fires once and parks each skein, now or at its
next run boundary. -/
def Obligations.CoresKeepTheirCachesAndWatch : Prop :=
  ∀ (s : State),
    (∀ core, (s.core core).lent < s.carveDue core s.placing → (s.core core).l1 = [] →
      exec (.carveRaise core) s = .next (s.modCore core fun c => { c with lent := s.carveDue core s.placing })) ∧
    (∀ core, (s.core core).lent < s.carveDue core s.placing → ∃ u, s.memOnly u ∧
      exec (.carveRaise core) s = .next (u.modCore core fun c => { c with lent := s.carveDue core s.placing })) ∧
    (∀ core, let n := max (s.carveDue core []) (ceilDiv (s.granted core - 2 ^ 20) 32768)
      n < (s.core core).lent → exec (.carveLower core) s = .next (s.modCore core fun c => { c with lent := n })) ∧
    (∀ core line d, look (s.core core).l1 line = some d → d.excl = true →
      exec (.lineRecall core line) s = .next (s.evict core line) ∧ look ((s.evict core line).core core).l1 line = none) ∧
    (∀ core ctx (va : Word) acc user, va.toNat < 0xF * 2 ^ 48 → ∃ u r, s.pageWalk core ctx va.toNat acc user = (u, r) ∧
      s.memOnly u ∧ exec (.pageWalk core ctx va acc user) s = .next u) ∧
    ∀ ctx grid wg w, s.wg (wgKey ctx grid wg) = some w → w.wdFired = false → w.wdHeld = none → (s.ctx ctx).var.watchdog ≠ 0 →
      (s.time.now - w.wdStart ≤ (s.ctx ctx).var.watchdog * (1000 * 2 ^ 40) → exec (.watchdog ctx grid wg) s = .next s) ∧
      ((s.ctx ctx).var.watchdog * (1000 * 2 ^ 40) < s.time.now - w.wdStart →
        let u := (s.modWg (wgKey ctx grid wg) fun w => { w with wdFired := true }).count ctx 22 1
        let park (s : State) (k : Nat × Nat × Skein) : State :=
          let t := s.modSkein k.1 k.2.1 fun x => { x with wdog := some ((u.time.now - w.wdStart) / (1000 * 2 ^ 40)) }
          if (((t.core k.1).pipe (k.2.1 / 8)).run.map fun r => r.slot == k.2.1).getD false then t else t.wdogPark k.1 k.2.1
        exec (.watchdog ctx grid wg) s = .next ((u.skeinsOf (wgKey ctx grid wg) true).foldl park u))

/-- 12 R309 to R312, R316, R322, R323, R324, R326, R327, R329, 15 R384: enabling a valid entry of the strip schedule takes up its
fields, and another posts a device event; a strip is tried at its admission time and each microsecond after it, and admitted once
slots, cores, record, graph and blocks all pass; one that a check refuses, or that is not admitted by its deadline, is denied and
counted. A head takes a complete strip at D, else fills it and counts it late; it sends each line at its time and frees the slot after
its lines. A session's strip is judged at D + slack, taken by a free engine, the smallest D first, and its OBUs appended. -/
def Obligations.StripsAreAdmittedAndConsumed : Prop :=
  ∀ (s : State),
    (∀ j, s.boot.recovery = false → j < 132 → look s.sched j = none →
      let r := s.homeRead ((s.reg0 8).toNat + 128 * j) 128 none
      (r.1.schedOk j r.2.1 = true → exec (.scheduleEnable j) s =
        .next { r.1 with sched := ins j (r.1.schedFields j r.2.1) r.1.sched, order := r.1.order + 1 }) ∧
      (r.1.schedOk j r.2.1 = false →
        exec (.scheduleEnable j) s = .next (r.1.postDev { kind := 19, extra := word j }))) ∧
    (∀ j e, s.boot.recovery = false → look s.sched j = some e →
      exec (.scheduleDisable j) s = .next (s.schedStop j) ∧ look (s.schedStop j).sched j = none) ∧
    (∀ j e, look s.sched j = some e →
      let q := s.region j
      (∀ g, e.attempt s.unitsNow = some g → (∀ p ∈ s.sched, ∀ x, p.2.attempt s.unitsNow = some x →
          e.due g < p.2.due x ∨ (e.due g = p.2.due x ∧ j ≤ p.1)) → exec (.treadleAdmit j) s = .next (s.tryStrip j e g)) ∧
      (∀ g, s.claimed (q.outAt (g % q.n)) = true ∨ (q.low ≠ 0 ∧ s.claimed (q.lowAt (g % q.n)) = true) ∨
          s.chainCores e.cores = none →
        s.tryStrip j e g = { s with sched := ins j (e.try_ g s.unitsNow) s.sched }) ∧
      (∀ g cores, s.claimed (q.outAt (g % q.n)) = false → q.low = 0 ∨ s.claimed (q.lowAt (g % q.n)) = false →
        s.chainCores e.cores = some cores →
        (∀ u c, s.ctxReadAny e.ctx e.graph 64 = (u, .error c) → s.tryStrip j e g = u.denyStrip j e g 0) ∧
        ∀ u bs bad, s.ctxReadAny e.ctx e.graph 64 = (u, .ok (bs, bad)) →
          let r := recordOf bs
          (bad ≠ [] ∨ recordFields bs = false ∨ r.kind ≠ 1 ∨ u.laterReason e.ctx r ≠ none →
            s.tryStrip j e g = u.denyStrip j e g r.seq) ∧
          (bad = [] → recordFields bs = true → r.kind = 1 → u.laterReason e.ctx r = none →
            (∀ v, u.graphOf e.ctx r.entry.toNat true = (v, .bad) → s.tryStrip j e g = v.denyStrip j e g r.seq) ∧
            (∀ v c a, u.graphOf e.ctx r.entry.toNat true = (v, .page c a) → s.tryStrip j e g = v.denyStrip j e g r.seq) ∧
            ∀ v w gr, u.graphOf e.ctx r.entry.toNat true = (v, .ok gr) →
              (v.blocks e gr (e.lines g) = (w, none) → s.tryStrip j e g = w.denyStrip j e g r.seq) ∧
              ∀ b, v.blocks e gr (e.lines g) = (w, some b) →
                (q.holds e b = true → s.tryStrip j e g = w.admitStrip j e g r gr b cores) ∧
                (q.holds e b = false → s.tryStrip j e g = { w with sched := ins j (e.try_ g w.unitsNow) w.sched }))) ∧
      (e.due e.oldest < s.unitsNow → exec (.stripDenied j) s =
        .next ((State.count { s with sched := ins j (e.close e.oldest) s.sched } e.ctx 20 1).sweepLow j)) ∧
      (j < 4 → e.due e.con ≤ s.unitsNow → (∀ g ok i, e.nextLine = some (g, ok, i) → s.unitsNow < e.lineTime g i) →
        (s.stripReady j e e.con (e.due e.con) = true → exec (.headStripRead j) s = .next { s with
          sched := ins j { e with con := e.con + 1, shown := e.shown ++ [(e.con, true, 0)] } s.sched }) ∧
        (s.stripReady j e e.con (e.due e.con) = false → exec (.headStripRead j) s = .next { s.markLate j e e.con with
          sched := ins j { e with con := e.con + 1, shown := e.shown ++ [(e.con, false, 0)] } (s.markLate j e e.con).sched })) ∧
      (∀ g ok i, e.nextLine = some (g, ok, i) → e.lineTime g i ≤ s.unitsNow → exec (.headStripRead j) s = .next { s with
        sched := ins j { e with shown := e.shown.map fun y => if y.1 = g then (y.1, y.2.1, y.2.2 + 1) else y } s.sched
        out := s.out ++ [.line j g i (!ok) (rgbOf (if ok then s.ringBytes (s.outSlot j g + 128 + i * e.pitch) (4 * e.w)
          else (List.replicate e.w e.fill).flatten))] }) ∧
      (∀ g ok sent r, e.shown = (g, ok, sent) :: r → e.lines g ≤ sent → e.lineTime g (e.lines g) ≤ s.unitsNow →
        let u : State := { s with sched := ins j { e with shown := r } s.sched }
        (u.slotTag (u.outSlot j g) = e.tag g →
          exec (.stripSlotFree j) s = .next (u.freeOut j (g % (u.region j).n))) ∧
        (u.slotTag (u.outSlot j g) ≠ e.tag g → exec (.stripSlotFree j) s = .next u))) ∧
    (∀ n e, look s.sched (n + 4) = some e →
      (s.stripReady (n + 4) e e.judged (e.due e.judged + e.slack) = true → exec (.sessionLate n) s =
        .next { s with sched := ins (n + 4) { e with judged := e.judged + 1 } s.sched }) ∧
      (s.stripReady (n + 4) e e.judged (e.due e.judged + e.slack) = false → e.due e.judged + e.slack ≤ s.unitsNow →
        exec (.sessionLate n) s = .next { s.markLate (n + 4) e e.judged with
          sched := ins (n + 4) { e with judged := e.judged + 1, lates := e.lates ++ [e.judged] } s.sched })) ∧
    (∀ engine j e late before after, engine < 8 → look s.engines engine = none →
      (s.sched.filterMap fun p => (s.stripWaiting p.1 p.2).map fun l => (p.1, p.2, l)) = before ++ (j, e, late) :: after →
      (∀ x ∈ before, e.due e.con < x.2.1.due x.2.1.con) → (∀ x ∈ after, e.due e.con ≤ x.2.1.due x.2.1.con) →
      exec (.encodeStripTake engine) s = .next { s with
        engines := ins engine { entry := j, g := e.con, late := late, sched := e } s.engines
        sched := ins j { e with
          con := e.con + 1, judged := max e.judged (e.con + 1), lates := dropFrom e.con e.lates } s.sched }) ∧
    ∀ engine job e, look s.engines engine = some job → look s.sched job.entry = some e → e.gen = job.sched.gen →
      let g := job.g
      let px := planesOf e.w (if job.late then e.flat g else s.stripPixels job.entry e g)
      let code := (if e.begun then [] else Config.av1Sequence e.w e.h) ++
        (if (e.place g).2 = 0 then Config.av1Frame (e.place g).1 e.perFrame e.cols else []) ++
        Config.av1TileGroup (e.place g).2 e.cols e.refs px
      (e.ringSize < code.length ∨ (e.ringSize < e.sent + code.length ∧ s.choose.1 = true) →
        exec (.encodeStripEnd engine) s = .next s.choose.2) ∧
      ∀ u v, code.length ≤ e.ringSize → e.sent + code.length ≤ e.ringSize ∨ s.choose.1 = false →
        s.appendStream e e.sent code = (u, none) →
        u.ctxStore e.ctx e.progress (toBytes 8 (e.sent + code.length)) false = (v, none) →
        let t : State := { v with
          engines := del engine v.engines
          sched := ins job.entry { e with
            sent := e.sent + code.length, begun := true, refs := Config.av1Refs e.refs px } v.sched }
        exec (.encodeStripEnd engine) s = .next (if t.slotTag (t.outSlot job.entry g) = e.tag g then
          t.freeOut job.entry (g % (t.region job.entry).n) else t)

/-- 12 R315, R321, R325, 16 R402, R406, R407, R408, R409, R412, R414, R415: with its output given away, the binner passes its oldest
record on and counts it where it survives, and discards it where it does not; the rasteriser, once the binner has closed,
turns its oldest into pixel records and predicts; the blender orders colour records by sequence, and writes each pixel of its
strip to the slot once its inputs have closed; the low-res slot is then complete; the feed stages its rows and emits a record
for each block; the strip writer writes the pixels that its record masks. -/
def Obligations.FixedFunctionNodesRun : Prop :=
  ∀ (s : State) (ctx grid : Nat) (t : Strip) (g : Graph) (i : Nat) (x : Node),
    (∀ u v bs, s.stage ctx grid 1 = some (t, g, i, x) → s.flush ctx grid i x.output = (u, true) →
      u.oldest ctx grid i x = (v, some bs) →
      let w := v.dropRecords ctx grid i 1
      (triOf t.raster t.grid.1 t.grid.2.1 bs = none →
        exec (.binnerRecord ctx grid) s = .next ((w.flush ctx grid i x.output).1.binClose ctx grid)) ∧
      (triOf t.raster t.grid.1 t.grid.2.1 bs ≠ none →
        let z := (w.modStrip ctx grid fun t => { t with total := t.total + 1 }).modNode ctx grid i fun x => { x with
          out := x.out ++ [bs] }
        exec (.binnerRecord ctx grid) s = .next ((z.flush ctx grid i x.output).1.binClose ctx grid))) ∧
    (∀ u v bs w tri z recs, s.stage ctx grid 2 = some (t, g, i, x) → s.flush ctx grid i x.output = (u, true) →
      t.closed = true → u.inputClosed ctx grid i = true → u.oldest ctx grid i x = (v, some bs) → v.depthFill ctx t = (w, none) →
      triOf t.raster t.grid.1 t.grid.2.1 bs = some tri → State.rasterise ctx t tri (tri.cells t) t.seq [] w = (z, .ok recs) →
      let y := ((z.dropRecords ctx grid i 1).modNode ctx grid i fun x => { x with out := recs })
      exec (.rasterAccept ctx grid) s = .next ((y.modStrip ctx grid fun t => { t.accept y.unitsNow with
        filled := true, seq := t.seq + recs.length }).flush ctx grid i x.output).1) ∧
    (∀ v bs, s.stage ctx grid 4 = some (t, g, i, x) → s.oldest ctx grid i x = (v, some bs) →
      exec (.blenderRecord ctx grid) s = .next ((v.dropRecords ctx grid i 1).modStrip ctx grid fun t => { t with
        recs := insBy (·.1) (numAt bs 32 4, bs) t.recs })) ∧
    (s.stage ctx grid 4 = some (t, g, i, x) → x.ended = false → x.waits = false → x.count = 0 → s.inputClosed ctx grid i = true →
      let slot := if t.upscale then t.low else t.out
      let pitch := if t.upscale then t.lowPitch else t.pitch
      let size := if t.upscale then t.lowBytes else 4
      let put (s : State) (p : Nat × Nat) : State :=
        let a := slot + 128 + p.2 * pitch + p.1 * size
        { s.slotWrite t slot a (pixelResult t s.free (s.ringBytes a size) p.1 (t.grid.1 + p.2)) with free := s.free + 8 }
      let u := ((List.range t.grid.2.1).flatMap fun y => (List.range t.grid.2.2).map fun x => (x, y)).foldl put s
      let done (u : State) : Host.Outcome State Fault Refusal := .next (u.modNode ctx grid i fun x => { x with ended := true })
      (numAt t.raster 0 1 = 1 → exec (.blenderWriteStrip ctx grid) s = done u) ∧
      (numAt t.raster 0 1 ≠ 1 →
        let n := 16 * t.grid.2.2 * t.grid.2.1
        let stored := State.ctxStores ctx (n / 2048 + 2) (numAt t.blend 16 8)
          ((List.range n).map fun i => Config.freeByte (u.free + i)) u
        (∀ v, stored = (v, none) → exec (.blenderWriteStrip ctx grid) s = done { v with free := v.free + n }) ∧
        (∀ v va c, stored = (v, some (va, c)) →
          exec (.blenderWriteStrip ctx grid) s = .next (s.recordFault ctx grid i va c .write true)))) ∧
    (s.stage ctx grid 5 = some (t, g, i, x) → s.inputClosed ctx grid i = true → s.claimed t.low = true → s.slotTag t.low = t.tag →
      exec (.lowresComplete ctx grid) s = .next (s.setSlot t.low 2)) ∧
    (s.stage ctx grid 5 = some (t, g, i, x) → x.ended = false → x.waits = false → s.inputClosed ctx grid i = true →
      let next := if s.lastStrip t then none
        else (s.lowOf t (t.g + 1) (t.tag + 1)).filter fun a => s.slotBits a / 2 % 2 == 1
      let late := s.slotTag t.out ≠ t.tag ∨ s.slotBits t.out / 4 % 2 = 1
      let own := s.slotTag t.low = t.tag ∧ s.slotBits t.low / 2 % 2 = 1
      (¬ own → ¬ late → exec (.upscalerFeed ctx grid) s = .next s) ∧
      (s.lastStrip t = false → next = none → ¬ late → exec (.upscalerFeed ctx grid) s = .next s) ∧
      (own ∨ late → s.lastStrip t = true ∨ next ≠ none ∨ late →
        (∀ u, State.stageRows ctx t next (List.range (t.rows / t.ratio + 8)) s = (u, none) →
          exec (.upscalerFeed ctx grid) s = .next ((((u.modNode ctx grid i fun x => { x with
            ended := true, out := feedRecords t }).modStrip ctx grid fun t => { t with staged := true }).flush ctx grid i
            (numAt t.feed 2 1)).1)) ∧
        ∀ u va c acc, State.stageRows ctx t next (List.range (t.rows / t.ratio + 8)) s = (u, some (va, c, acc)) →
          exec (.upscalerFeed ctx grid) s = .next (s.recordFault ctx grid i va c acc true))) ∧
    (∀ v bs, s.stage ctx grid 6 = some (t, g, i, x) → s.oldest ctx grid i x = (v, some bs) →
      let px := numAt bs 0 2
      let line := numAt bs 2 2
      exec (.stripWriterRecord ctx grid) s = .next ((List.range 8).foldl (fun s j =>
        if (numAt bs 4 1).testBit j ∧ px + j < t.outWidth ∧ line < t.lines then
          s.slotWrite t t.out (t.out + 128 + line * t.pitch + 4 * (px + j)) ((bs.drop (8 + 4 * j)).take 4)
        else s) (v.dropRecords ctx grid i 1)))

/-- 04 R91, R104, 11 R300, R302, 15 R382, 19 R454, R455, R460: outside recovery, CTXUPD takes up a valid entry, its fixed fields only
where its quota turns from 0, and refuses another with a device event; FREEADD adds its frame; PREEMPT sets a vacate going and
turns busy; EVRD, the counters and CTXRESET act on their context; DBGRES runs, steps past or exits a parked thread; FAULTRES
answers the event that it names once. -/
def Obligations.ContextsAnswerTheHost : Prop :=
  ∀ (s : State), s.boot.recovery = false →
    (∀ ctx a, s.ctxEntry ctx = some a → ctx < 512 → (s.ctx ctx).resetting = false →
      let r := s.homeRead a 256 none
      let v := ctxVarOf r.2.1
      let keep (x : Run) : Run := { x with var := some (x.var.getD (s.ctx ctx).var) }
      (r.2.2 = [] → (s.ctx ctx).enabled = true ∨ v.quota = 0 → varOk r.2.1 (s.ctx ctx).fix.freeSize = true →
        exec (.ctxupd ctx) s = .next ((r.1.modRuns ctx keep).modCtx ctx fun c => { c with
          enabled := v.quota != 0, fix := (s.ctx ctx).fix, var := v })) ∧
      (r.2.2 = [] → (s.ctx ctx).enabled = false → v.quota ≠ 0 → varOk r.2.1 (ctxFixedOf r.2.1).freeSize = true →
        fixedOk (ctxFixedOf r.2.1) = true → exec (.ctxupd ctx) s = .next ((r.1.modRuns ctx keep).modCtx ctx fun c => { c with
          enabled := true, fix := ctxFixedOf r.2.1, var := v })) ∧
      (r.2.2 ≠ [] ∨ varOk r.2.1 (if (s.ctx ctx).enabled ∨ v.quota = 0 then (s.ctx ctx).fix else ctxFixedOf r.2.1).freeSize = false ∨
          ((s.ctx ctx).enabled = false ∧ v.quota ≠ 0 ∧ fixedOk (ctxFixedOf r.2.1) = false) → exec (.ctxupd ctx) s = .next (r.1.postDev { kind := 18, extra := word ctx }))) ∧
    (∀ ctx (pa : Word), pa.toNat % 4096 = 0 → pa.toNat < memEnd →
      let f := (s.ctx ctx).fix
      f.freeSize ≠ 0 → (s.ctx ctx).freeCount < 2 ^ f.freeSize → exec (.freeadd ctx pa) s = .next ((s.homeWrite
        (f.freeBase + 8 * (((s.ctx ctx).freeHead + (s.ctx ctx).freeCount) % 2 ^ f.freeSize)) (toBytes 8 pa.toNat) []
        none).modCtx ctx fun c => { c with freeCount := c.freeCount + 1 })) ∧
    (∀ ctx, (s.ctx ctx).preempting = false → (s.ctx ctx).resetting = false →
      let asked (n : Option Nat) : State := { s.modCtx ctx fun c => { c with preempting := true } with
        order := s.order + 1
        vacates := ins s.order { cores := [], wgs := [], host := some ctx, count := n } s.vacates }
      (∀ n, 1 ≤ n → n ≤ 72 → exec (.preemptN ctx n) s = .next (asked (some n))) ∧
      exec (.preemptAll ctx) s = .next (asked none)) ∧
    (∀ ctx (v : Word), inRing (v.toNat % 2 ^ 32) (s.ctx ctx).ev.rd ≤ inRing (s.ctx ctx).ev.wr (s.ctx ctx).ev.rd →
      exec (.evrdWrite ctx v) s = .next (s.modCtx ctx fun c => { c with ev := { c.ev with rd := v.toNat % 2 ^ 32 } })) ∧
    (∀ i (v : Word), i < 23 → v.toNat % 2 ^ 32 = 0 →
      exec (.errorCounterClear (0x800000 + 8 * i) v) s = .next { s with errors := del i s.errors }) ∧
    (∀ ctx, ctx < 512 → (s.ctx ctx).resetting = false → (∀ p ∈ s.sched, p.2.ctx ≠ ctx) →
      let mine := (s.wgs.filter fun p => p.2.ctx == ctx).map (·.1)
      exec (.ctxreset ctx) s = .next ((State.modCtx { s with
        vacates := s.vacates.map fun p => (p.1, { p.2 with wgs := dropAll mine p.2.wgs }) } ctx fun c => { c with
          resetting := true }).vacate { cores := [], wgs := [], host := some ctx, kill := true } mine)) ∧
    (∀ core slot k l (mask : BitVec 32), s.skein core slot = some k → lanesOf mask = [l] →
      (laneOf k.threads l).st = .hostParked ∨ (laneOf k.threads l).st = .debugParked →
      exec (.dbgresContinue core slot mask) s = .next ((s.wdRestart k.wgKey).resume core slot l 0) ∧
      exec (.dbgresContinueAfter core slot mask) s = .next ((s.wdRestart k.wgKey).resume core slot l 2) ∧
      exec (.dbgresKill core slot mask) s = .next ((s.resume core slot l 3).settle core slot) ∧
      ((laneOf k.threads l).st = .debugParked → exec (.dbgresStep core slot mask) s =
        .next (((s.wdRestart k.wgKey).modThread core slot l fun th => { th with st := .running, stopNext := false }).modSkein
          core slot fun k => { k with step := k.step ||| maskOf [l] }))) ∧
    ∀ ctx seq r, (s.ctx ctx).ev.outstanding.find? (fun o => o.1 == seq) = some (seq, r) →
      let u := s.modCtx ctx fun c => { c with ev := { c.ev with
        outstanding := c.ev.outstanding.filter fun o => o.1 != seq } }
      exec (.faultresResume ctx seq) s = .next (u.answer ctx false r) ∧
      exec (.faultresAbandon ctx seq) s = .next (u.answer ctx true r) ∧
      ∀ g idx mask, r = .fragment g idx mask → u.answer ctx true r = u.modSkeinOf g idx fun k => { k with
        threads := k.threads.zipIdx.map fun t =>
          if mask.getLsbD t.2 && t.1.st == .replayParked then { t.1 with st := .hostParked } else t.1 }

/-- 07 R189, R203, 18 R438, R439, R449, R450, 19 R451, R452, R453, R455, R456, R463: outside recovery, the time counter, the device's
queue and partition registers take the values written; TLBINV queues an invalidation and its end drops the entries; the
aperture reads and writes home bytes below 384 GiB, all ones and nothing above, and its AtomicOps answer the old value. A monitor
check 10 µs after the last takes the samples and steps the clock; a link is trained or lost. -/
def Obligations.DeviceRegistersAnswerTheHost : Prop :=
  ∀ (s : State), s.boot.recovery = false →
    (∀ w : Word, w.toNat / 2 ^ 16 % 2 ^ 30 ≤ 999999999 → exec (.tcset w) s = .next { s with time := { s.time with
      now := s.time.set0.toNat % 2 ^ 48 * timeSecond + w.toNat % 2 ^ 46 * 2 ^ 24, part := 0, valid := true } }) ∧
    (∀ w : Word, exec (.tcofs w) s = .next { s with time := { s.time with
      now := ((s.time.now : Int) + w.toInt * 2 ^ 24).toNat % (2 ^ 48 * timeSecond) } }) ∧
    (∀ w : Word, exec (.tcrate w) s = .next { s with time := { s.time with rate := w.setWidth 32 } }) ∧
    (∀ gap, ∃ t, exec (.ptmDialogue gap) s = .next t ∧ t.time.now = (s.time.pass gap).now ∧
      t.time.ptm = [(0, word (timeWord s.time.now 0)), (1, word (timeWord s.time.now 1)), (2, word (timeWord t.time.now 0)),
        (3, word (timeWord t.time.now 1))]) ∧
    (∀ a b c, (∀ t, s.mon.checked = some t → t + monitorPeriod ≤ s.time.now) →
      exec (.monitorCheck a b c) s = .next (State.clockStep { s with mon := { s.mon with
        temps := takeSamples a 24 s.mon.temps, volts := takeSamples b 12 s.mon.volts, procs := takeSamples c 8 s.mon.procs
        checked := some s.time.now } })) ∧
    (s.tooHot = true → 1000 < s.mon.mhz → s.clockStep.mon.mhz = s.mon.mhz - 100 ∧
      s.clockStep.mon.throttle = sat32 (s.mon.throttle + 1)) ∧
    (∀ v : Word, inRing (v.toNat % 2 ^ 32) s.devq.rd ≤ inRing s.devq.wr s.devq.rd →
      exec (.devqrdWrite v) s = .next { s with devq := { s.devq with rd := v.toNat % 2 ^ 32 } }) ∧
    (∀ v : Word, exec (.devqConfigWrite 0x50 v) s = .next { s with devq := { s.devq with
      base := v.toNat / 4096 * 4096, wr := 0, rd := 0 } }) ∧
    (∀ v : Word, exec (.tlbinv v) s = .next { s with tlbInv := s.tlbInv ++
      [(v.toNat % 2 ^ 16, (s.reg0 0x40).toNat, 4096 * (v.toNat / 2 ^ 16 % 2 ^ 32), v.toNat.testBit 63)] }) ∧
    (∀ a lo n all, s.tlbInv = [(a, lo, n, all)] →
      exec .tlbInvalidationEnd s = .next { s.dropTlb a lo n all with tlbInv := [] }) ∧
    (∀ v : Word, v.toNat ≤ 8 → (∀ p ∈ s.sched, p.1 < 4) → s.engines = [] →
      exec (.encoderPartitionWrite v) s = .next (s.setReg0 0x30 v.toNat)) ∧
    (∀ v : Word, exec (.registerWrite 0x1088 v) s = .next (s.modRing fun r => { r with hold := v.toNat % 2 ^ 32 }) ∧
      (v.toNat / 2 ^ 30 % 2 ^ 22 * 2 ^ 30 < memEnd →
        exec (.registerWrite 0x38 v) s = .next (s.setReg0 0x38 (v.toNat / 2 ^ 30 % 2 ^ 22 * 2 ^ 30)))) ∧
    (∀ head l, head < 4 → exec (.displayportLinkTraining head (some l)) s = .next { s with links := ins head l s.links } ∧
      exec (.displayportLinkTraining head none) s = .next { s with links := del head s.links }) ∧
    (∀ off len, s.aperture off + len ≤ memEnd →
      let r := s.homeRead (s.aperture off) len none
      exec (.hostApertureRead off len) s = .next { r.1 with out := r.1.out ++ [.data r.2.1 (decide (r.2.2 ≠ []))] }) ∧
    (∀ off len, memEnd < s.aperture off + len →
      let u := s.countDev 13 1
      exec (.hostApertureRead off len) s = .next { u with out := u.out ++ [.data (List.replicate len 0xFF) false] }) ∧
    (∀ off (bs : List Byte), s.aperture off + bs.length ≤ memEnd →
      exec (.hostApertureWrite off bs) s = .next (s.homeWrite (s.aperture off) bs [] none)) ∧
    ∀ off (wide : Bool) (v c : Word), s.aperture off % (if wide then 8 else 4) = 0 →
      s.aperture off + (if wide then 8 else 4) ≤ memEnd →
      let n := if wide then 8 else 4
      let r := s.homeRead (s.aperture off) n none
      let old := ofBytes r.2.1
      let put (x : Nat) : State := r.1.homeWrite (s.aperture off) (toBytes n x) r.2.2 none
      let answer (t : State) : State := { t with out := t.out ++ [.data r.2.1 (decide (r.2.2 ≠ []))] }
      ∀ op ∈ [AtomOp.add, .exch, .cas], exec (.hostAtomicop off op wide v c) s =
        .next (answer (match atomStore op (8 * n) old (v.toNat % 2 ^ (8 * n)) (c.toNat % 2 ^ (8 * n)) with
          | none => r.1
          | some x => put x))

/-- 01 R31, 19 R459, R461, R462: a conventional reset is State.reset with what lies outside the module, then start-up with the
image, which is ready where every check passes and in recovery with the failed step where one does not; a mailbox image
starts a device in recovery; a function-level reset keeps Nirsirum, the time counter and LPDDR 6; power lost retains no state;
each request of attestation is answered, CHALLENGE and GET_MEASUREMENTS with the nonce, the eight measurement registers and
both signatures over them. -/
def Obligations.ResetsStartAndAttest : Prop :=
  ∀ (s : State),
    (∀ x, exec (.conventionalReset x) s = .next ((s.outside State.reset).bootWith x) ∧
      (bootStep x = 0 → ∃ t, exec (.conventionalReset x) s = .next t ∧ t.power = true ∧ t.boot.ready = true ∧
        t.boot.recovery = false ∧ t.boot.version = x.version ∧ t.boot.measures = measured [] x ∧ t.skeins = [] ∧
        t.grids = [] ∧ t.mem.bytes = [] ∧ t.mem.host = s.mem.host) ∧
      (bootStep x ≠ 0 → ∃ t, exec (.conventionalReset x) s = .next t ∧ t.boot.ready = false ∧ t.boot.recovery = true ∧
        t.boot.failed = bootStep x ∧ t.skeins = [] ∧ t.mem.host = s.mem.host)) ∧
    (∀ x, (s.boot.recovery = true → bootStep x = 0 → ∃ t, exec (.mailboxImage x) s = .next t ∧ t.boot.ready = true ∧
        t.boot.recovery = false ∧ t.boot.version = x.version) ∧
      (bootStep x ≠ 0 → exec (.mailboxImage x) s = .next (s.postDev { kind := 20 })) ∧
      (s.boot.recovery = false → bootStep x = 0 → exec (.mailboxImage x) s = .next s)) ∧
    (∃ t, exec .functionLevelReset s = .next t ∧ t.boot = s.boot ∧ t.time = s.time ∧ t.mem.bytes = s.mem.bytes ∧
      t.mem.host = s.mem.host ∧ t.skeins = [] ∧ t.grids = [] ∧ t.wgs = [] ∧ t.cores = [] ∧ t.ctxs = [] ∧ t.saved = []) ∧
    (∃ t, exec .modulePowerLoss s = .next t ∧ t.power = false ∧ t.skeins = [] ∧ t.cores = [] ∧ t.ctxs = [] ∧
      t.mem.bytes = [] ∧ t.w0 = [] ∧ t.mem.host = s.mem.host) ∧
    (let said (bs : List Byte) : Host.Outcome State Fault Refusal := .next { s with out := s.out ++ [.report bs] }
     exec .getVersion s = said (Config.spdmReply 0 []) ∧ exec .getCapabilities s = said (Config.spdmReply 1 []) ∧
     (∀ r, exec (.negotiateAlgorithms r) s = said (Config.spdmReply 2 r)) ∧
     (∀ off n, exec (.getCertificate off n) s = said ((Config.certificate.drop off).take n)) ∧
     ∀ nonce, let body := nonce ++ (List.range 8).flatMap fun i => digestBytes (lookD 0 s.boot.measures i)
       let signed := body ++ Config.identitySign false body ++ Config.identitySign true body
       exec (.challenge nonce) s = said signed ∧ exec (.getMeasurements nonce) s = said signed)

-- ENCODING

/-- 03 R57, R64, R68, R76 to R78: decode of encode is the instruction, for every well-formed instruction that has a word, at
every value of its fields; and the word a decoded instruction came from is its own encoding. -/
def Obligations.DecodeAndEncodeAgree : Prop :=
  (∀ (i : Instr) (w : Word), WellFormed i → encode i = some w → decode w = .ok i) ∧
  ∀ (w : Word) (i : Instr), decode w = .ok i → WellFormed i ∧ encode i = some w

/-- 03 R57, R64, R65, R68, R69, R76, R78: words written out from the encoding decode to what they stand for, one or more of
each format; a field value that the form does not admit makes the word ILLEGAL_FIELD; the words of an unallocated opcode and
of a header are no instruction of the map. -/
def Obligations.WordsDecodeAsTheyAreEncoded : Prop :=
  let c : Ctl := { guard := 0, mid := 0, runEnd := false, uni := false }
  (∀ p ∈ ([
    -- (!p1) ADD w4, w5, w6.rot(8,1), stall 3 ! (03 R68)
    (0x00E4E01005019610, .add { ctl := { guard := 0x19, mid := 3, runEnd := true, uni := false }, dst := 4, a := 5, b := 6, mod := 0x584, sub := 0 }),
    -- CMPSI.lt w1, 12, stall 3 and (p0) BRA +5 (03, example)
    (0x2100C0080100000C, .cmpsi { ctl := { c with mid := 3 }, dst := 2, a := 1, imm := 12 }),
    (0x3040200000500000, .bra { ctl := { c with guard := 0x10, runEnd := true }, off := 5, reg := 0, imm := 0 }),
    -- (p0) SCAN.add.excl w4, w5, stall 7 (05, example)
    (0x2741C01008014000, .scan { ctl := { c with guard := 0x10, mid := 7 }, dst := 4, a := 8, b := 5, mod := 0, sub := 0 }),
    -- LD.b32 w8, [d2 + 0x10] (04, example); ST.b32.rel.dev w1, [d2] (08 R214)
    (0x8200002102000010, .ld .b32 { ctl := c, data := 8, base := 0x102, off := 0x10 }),
    (0x8802400502000000, .st .b32 { ctl := { c with mid := 9 }, data := 1, base := 0x102, off := 0 }),
    -- CVTFF.bf16.f32 h8, w5 and CVTSR.bf16 h9, w5, w6 (06, example)
    (0x7000082005000080, .cvtff { ctl := c, dst := 0x208, a := 5, imm := 0x80 }),
    (0x7180082405018008, .cvtsr { ctl := c, dst := 0x209, a := 5, b := 6, mod := 2, sub := 0 }),
    -- CMO.inv.l1 d2, d4 (09 R239); PUTM.wgt.dev d8, d12, 0x5 (09 R241); CPY w16, d10 (09 R244)
    (0xC080040904000001, .cmo { ctl := c, r1 := 0x102, r2 := 0x104, imm := 1 }),
    (0xC20204210C000016, .putm { ctl := { c with mid := 8 }, r1 := 0x108, r2 := 0x10C, imm := 0x16 }),
    (0xC28000410A000000, .cpy { ctl := c, r1 := 0x10, r2 := 0x10A, imm := 0 }),
    -- TMMA on handles 1, 2 and 3 with c4 and keep (03 R68); SRD w2, 0x300 (03 R68); MAD w3, w4, w5, w6 (03 R68)
    (0xD480001020300480, .tmma { ctl := c, d := 1, a := 2, b := 3, aux := 0, cv := 4, keep := true, shape := 0, sub := 0 }),
    (0x36000008C0000000, .srd { ctl := c, reg := 2, num := 0x300, imm := 0 }),
    (0x0500000C04014060, .mad { ctl := c, dst := 3, a := 4, b := 5, c := 6, sub := 0 })] : List (Word × Instr)),
    decode p.1 = .ok p.2) ∧
  -- NOP with dst 1; ADD with guard depth 1 and no guard; CMPSI with condition 7; SRD of 0x016
  (∀ w ∈ [(0x0000000400000000 : Word), 0x0084000000000000, 0x2100001C0100000C, 0x3600000005800000],
    decode w = .error .illegalField) ∧
  -- opcodes 0x030 and 0x1F0, and the header of block B0 (03, example)
  ∀ w ∈ [(0x1800000000000000 : Word), 0xF800000000000000, 0xFF82040018000800], decode w = .ok (.unallocatedOpcode w)

-- THE STEP

/-- A STEP RUNS THE DECODED INSTRUCTION (02 R39, R42, 03 R58, R59, R78, R79; the pick of the agenda and the built-in schedule are
the model's own, log entry 1). Where the agenda's head issues a skein's slot that holds its pipeline's run, and the skein's
ready threads stand inside their block at one pc, and the bytes there, as `State.fetch` reads them, decode to an instruction
that the slot may execute, the step is exec of it with the fetch recorded; a word that does not decode takes ILLEGAL_FIELD. Where they
stand at a header that passes its check, the step enters its block and is exec of the word behind it; one that does not takes
ILLEGAL_FIELD and no cycle. A word fetched is the eight bytes at its address, lowest first. A pick of a device step is exec of it.
An unpowered module stops, but for what powers it up. -/
def Obligations.AStepRunsTheDecodedInstruction : Prop :=
  (∀ (s0 : State) (p : Pick) (rest : List Pick) (core slot : Nat),
    s0.agenda = p :: rest → s0.power = true → p.act = .issue core slot →
    let s := { s0 with agenda := rest }.pass p.cycles p.ticks
    ∀ (r : Run) (k : Skein) (pc w : Word) (sup : Bool) (v : State),
      ((s.core core).pipe (slot / 8)).run = some r → r.slot = slot → s.skein core slot = some k → k.readyAt ≤ s.cycle →
      let ready := k.ready r.step
      ready ≠ [] →
      (∀ l ∈ ready, (laneOf k.threads l).pc = pc ∧ (laneOf k.threads l).sup = sup) →
      let ran (v : State) (pc : Word) : Prop :=
        (∀ l ∈ ready, barred slot w ((v.thread core slot l).getD {}) = false) →
        (∀ i, decode w = .ok i → step s0 =
          exec i { v with issue := some { core := core, slot := slot, pc := pc, word := w, present := maskOf ready } }) ∧
        (decode w = .error .illegalField → step s0 = .next ((v.raise core slot pc w
          (faultAll ready { cause := .illegalField })).endFault core slot pc ready 1))
      (pc ≠ k.blkEnd → (∀ l ∈ ready, k.joined.getLsbD l = true) → s.fetch core k.ctx pc (!sup) = (v, .ok w) → ran v pc) ∧
      ∀ h z, (∀ l ∈ ready, k.joined.getLsbD l = false ∧ pc.toNat ≤ (laneOf k.threads l).blk.toNat) → pc.toNat % 8 = 0 →
        (s.modSkein core slot fun k => { k with joined := 0 }).fetch core k.ctx pc (!sup) = (v, .ok h) → isHeader h = true →
        (headerOk h = false → step s0 = .next ((v.raise core slot pc h
          (faultAll ready { cause := .illegalField })).endFault core slot pc ready 0)) ∧
        (headerOk h = true →
          let u := (ready.foldl (fun s l => s.modThread core slot l fun th =>
            { th with blk := pc, pc := pc + 8, trav := none }) v).modSkein core slot fun k => { k with
              joined := maskOf ready, blkEnd := pc + word (8 * fld h 47 8) }
          u.fetch core k.ctx (pc + 8) (!sup) = (z, .ok w) → ran z (pc + 8))) ∧
  (∀ (s u : State) (core ctx : Nat) (va : Word) (user : Bool) (pa kind : Nat),
    va.toNat < 0xF * 2 ^ 48 → s.translate core ctx va.toNat .fetch user = (u, .ok (pa, kind)) → pa % 8 = 0 →
    look (u.core core).icache (pa / 128) = none → look (u.core core).l1 (pa / 128) = none →
    let u' := u.recallRange (128 * (pa / 128)) 128 (some core)
    (u'.core core).wt = [] → u'.mem.poison = [] →
    (s.fetch core ctx va user).2 = .ok (word (ofBytes ((List.range 8).map fun j => u'.homeByte (pa + j))))) ∧
  (∀ (s : State) (p : Pick) (rest : List Pick) (e : Instr),
    s.agenda = p :: rest → s.power = true → p.act = .event e →
    step s = exec e { { s with agenda := rest }.pass p.cycles p.ticks with issue := none }) ∧
  (∀ (s : State), s.agenda = [] → s.power = true →
    step s = (s.pass s.autoPick.cycles s.autoPick.ticks).perform s.autoPick.act) ∧
  ∀ (s : State), s.power = false → (∀ p rest, s.agenda = p :: rest → p.act.powersUp = false) → step s = .fault .unpowered

-- RESET AND THE INVARIANT

/-- 19 R459, R453, 18 R438, R449, R450: what a conventional reset leaves before start-up. Nothing is resident or queued, every
context is disabled, every memory reads zero with no poison, the ring and the schedules are disabled, the time counter is
zero and not valid, BOOTSTAT reads zero, every temperature limit is 1680 and every voltage minimum 0. Registers of a thread
that starts read zero by 11 R290; the clock's 2000 MHz and the empty sensor samples are the model's (log entry 4). The state
is sound. -/
def Obligations.ResetIsSoundAndAsTheSpecLeavesIt : Prop :=
  let s := State.reset
  s.sound ∧ (s.skeins = [] ∧ s.wgs = [] ∧ s.grids = [] ∧ s.pending = [] ∧ s.saved = [] ∧ s.puts = [] ∧ s.engines = []) ∧
  (∀ c, (s.ctx c).enabled = false) ∧
  (∀ a, s.homeByte a = 0 ∧ byteAt s.mem.strip a = 0) ∧ s.mem.poison = [] ∧
  (∀ c, (s.core c).l1 = [] ∧ (s.core c).tlb = []) ∧
  (s.time.now = 0 ∧ s.time.valid = false ∧ s.time.rate = 0) ∧
  (s.boot.ready = false ∧ s.boot.verified = false ∧ s.boot.recovery = false ∧ s.boot.failed = 0 ∧ s.boot.version = 0) ∧
  (s.ring.enable = false ∧ s.sched = []) ∧
  (∀ i < 24, s.tempLimit i = 1680) ∧ (∀ i < 12, s.voltMin i = 0) ∧ s.mon.throttle = 0 ∧
  s.reg0 0 = 0 ∧ s.reg0 0x38 = 0

/-- 03 R57 (memories in canonical form), 19 R461, 18 R438, R450: EVERY STEP KEEPS THE INVARIANT, from every sound state and
with every agenda. -/
def Obligations.EveryStepKeepsTheStateSound : Prop :=
  ∀ (s t : State), s.sound → step s = .next t → t.sound
end

