-- ==== Sys2Proof/Laws/Maps.lean ====
section
/-! SUPPORT. Laws of the sparse tables and of memories kept in them: what a read gives after a write, and that every
operation keeps the canonical form. -/

namespace Sys2Proof.Machine

variable {α : Type}

@[simp] theorem look_nil (k : Nat) : look ([] : SMap α) k = none := rfl

theorem look_cons (p : Nat × α) (m : SMap α) (k : Nat) :
    look (p :: m) k = if k = p.1 then some p.2 else look m k := rfl

theorem look_ins (m : SMap α) (k j : Nat) (v : α) : look (ins k v m) j = if j = k then some v else look m j := by
  induction m with
  | nil => simp [ins, look_cons]
  | cons p r ih =>
    obtain ⟨q, x⟩ := p
    simp only [ins]
    split
    · simp [look_cons]
    · split
      · simp only [look_cons]; split <;> simp_all
      · simp only [look_cons, ih]; split <;> split <;> simp_all

theorem look_del (m : SMap α) (k j : Nat) : look (del k m) j = if j = k then none else look m j := by
  induction m with
  | nil => simp [del]
  | cons p r ih =>
    obtain ⟨q, x⟩ := p
    have ih' : look (r.filter fun p => p.1 != k) j = if j = k then none else look r j := ih
    by_cases h : q = k
    · subst h
      by_cases hj : j = q <;> simp_all [del, look_cons]
    · simp only [del, List.filter_cons, bne_iff_ne, ne_eq, h, not_false_eq_true, if_true, look_cons]
      by_cases hj : j = q
      · simp [hj, h]
      · simp [hj, ih']

@[simp] theorem look_ins_self (m : SMap α) (k : Nat) (v : α) : look (ins k v m) k = some v := by simp [look_ins]

theorem ins_ins (m : SMap α) (k : Nat) (v w : α) : ins k v (ins k w m) = ins k v m := by
  induction m with
  | nil => simp [ins]
  | cons p r ih =>
    obtain ⟨j, x⟩ := p
    by_cases h1 : k < j
    · simp [ins, h1]
    · by_cases h2 : k = j
      · subst h2; simp [ins]
      · simp [ins, h1, h2, ih]

theorem look_ins_ne (m : SMap α) {k j : Nat} (v : α) (h : j ≠ k) : look (ins k v m) j = look m j := by
  simp [look_ins, h]

variable [DecidableEq α]

theorem lookD_set (d : α) (m : SMap α) (k j : Nat) (v : α) :
    lookD d (set d k v m) j = if j = k then v else lookD d m j := by
  unfold set lookD
  by_cases h : v = d <;> by_cases hj : j = k <;> simp [h, hj, look_del, look_ins]

@[simp] theorem lookD_set_self (d : α) (m : SMap α) (k : Nat) (v : α) : lookD d (set d k v m) k = v := by
  simp [lookD_set]

theorem lookD_set_ne (d : α) (m : SMap α) {k j : Nat} (v : α) (h : j ≠ k) :
    lookD d (set d k v m) j = lookD d m j := by simp [lookD_set, h]

theorem canonical_cons (d : α) (p : Nat × α) (m : SMap α) :
    canonical d (p :: m) = true ↔ p.2 ≠ d ∧ (∀ q ∈ m.head?, p.1 < q.1) ∧ canonical d m = true := by
  obtain ⟨k, v⟩ := p
  cases m with
  | nil => simp [canonical]
  | cons q r =>
    obtain ⟨k', v'⟩ := q
    simp only [canonical, Bool.and_eq_true, decide_eq_true_eq, List.head?_cons, Option.mem_some_iff, forall_eq']
    tauto

theorem canonical_lt (d : α) : ∀ (m : SMap α) (p : Nat × α), canonical d (p :: m) = true → ∀ q ∈ m, p.1 < q.1
  | [], _, _, _, hq => by simp at hq
  | x :: r, p, h, q, hq => by
    rw [canonical_cons] at h
    obtain ⟨-, h1, h2⟩ := h
    have hx : p.1 < x.1 := h1 x (by simp)
    rcases List.mem_cons.1 hq with rfl | hq
    · exact hx
    · exact lt_trans hx (canonical_lt d r x h2 q hq)

theorem canonical_iff (d : α) (m : SMap α) :
    canonical d m = true ↔ m.Pairwise (fun a b => a.1 < b.1) ∧ ∀ p ∈ m, p.2 ≠ d := by
  induction m with
  | nil => simp [canonical]
  | cons p r ih =>
    constructor
    · intro h
      have hl := canonical_lt d r p h
      rw [canonical_cons] at h
      obtain ⟨h1, -, h3⟩ := h
      rw [ih] at h3
      exact ⟨List.pairwise_cons.2 ⟨hl, h3.1⟩, by simpa [h1] using h3.2⟩
    · rintro ⟨h1, h2⟩
      rw [List.pairwise_cons] at h1
      rw [canonical_cons]
      refine ⟨h2 p (by simp), ?_, ih.2 ⟨h1.2, fun q hq => h2 q (by simp [hq])⟩⟩
      intro q hq
      exact h1.1 q (List.mem_of_mem_head? hq)

theorem canonical_filter (d : α) (m : SMap α) (f : Nat × α → Bool) (h : canonical d m = true) :
    canonical d (m.filter f) = true := by
  rw [canonical_iff] at h ⊢
  exact ⟨h.1.filter _, fun p hp => h.2 p (List.mem_of_mem_filter hp)⟩

theorem mem_ins (m : SMap α) (k : Nat) (v : α) (p : Nat × α) (h : p ∈ ins k v m) : p = (k, v) ∨ p ∈ m := by
  induction m with
  | nil => simpa [ins] using h
  | cons q r ih =>
    obtain ⟨j, x⟩ := q
    simp only [ins] at h
    split at h
    · simpa using h
    · split at h
      · simp only [List.mem_cons] at h ⊢; tauto
      · simp only [List.mem_cons] at h ⊢
        rcases h with h | h
        · exact .inr (.inl h)
        · rcases ih h with h | h
          · exact .inl h
          · exact .inr (.inr h)

theorem canonical_ins (d : α) (m : SMap α) (k : Nat) (v : α) (hv : v ≠ d) (h : canonical d m = true) :
    canonical d (ins k v m) = true := by
  induction m with
  | nil => simp [ins, canonical, hv]
  | cons q r ih =>
    obtain ⟨j, x⟩ := q
    have hl := canonical_lt d r (j, x) h
    have hc := h
    rw [canonical_cons] at hc
    simp only [ins]
    split
    · rename_i hk
      rw [canonical_cons]; simp [hv, hk, h]
    · split
      · rename_i hk
        rw [canonical_cons]
        exact ⟨hv, fun p hp => by subst hk; exact hc.2.1 p hp, hc.2.2⟩
      · rename_i h1 h2
        rw [canonical_cons]
        refine ⟨hc.1, ?_, ih hc.2.2⟩
        intro p hp
        rcases mem_ins r k v p (List.mem_of_mem_head? hp) with rfl | hp
        · show j < k; omega
        · exact hl p hp

theorem canonical_set (d : α) (m : SMap α) (k : Nat) (v : α) (h : canonical d m = true) :
    canonical d (set d k v m) = true := by
  unfold set
  split
  · exact canonical_filter d m _ h
  · exact canonical_ins d m k v ‹_› h

-- BYTES

theorem byteAt_putBytes (bs : List Byte) : ∀ (a : Nat) (m : SMap Byte) (x : Nat),
    byteAt (putBytes a bs m) x = if a ≤ x ∧ x < a + bs.length then bs.getD (x - a) 0 else byteAt m x := by
  induction bs with
  | nil => intro a m x; simp only [putBytes, List.length_nil, Nat.add_zero]; split <;> [omega; rfl]
  | cons b r ih =>
    intro a m x
    rw [putBytes, ih]
    by_cases h : x = a
    · subst h; simp [byteAt]
    · have hs : byteAt (set 0 a b m) x = byteAt m x := lookD_set_ne 0 m b h
      rw [hs]
      by_cases h' : a + 1 ≤ x ∧ x < a + 1 + r.length
      · have h1 : a ≤ x ∧ x < a + (r.length + 1) := by omega
        have h2 : x - a = (x - (a + 1)) + 1 := by omega
        simp [h', h1, h2]
      · have h1 : ¬(a ≤ x ∧ x < a + (r.length + 1)) := by omega
        simp only [List.length_cons, if_neg h', if_neg h1]

theorem canonical_putBytes (bs : List Byte) : ∀ (a : Nat) (m : SMap Byte), canonical 0 m = true →
    canonical 0 (putBytes a bs m) = true := by
  induction bs with
  | nil => intro a m h; exact h
  | cons b r ih => intro a m h; exact ih _ _ (canonical_set 0 m a b h)

@[simp] theorem length_toBytes (n v : Nat) : (toBytes n v).length = n := by
  induction n generalizing v with
  | zero => rfl
  | succ n ih => simp [toBytes, ih]

theorem ofBytes_toBytes (n v : Nat) : ofBytes (toBytes n v) = v % 256 ^ n := by
  induction n generalizing v with
  | zero => simp [toBytes, ofBytes, Nat.mod_one]
  | succ n ih =>
    have h : 256 ^ (n + 1) = 256 * 256 ^ n := Nat.pow_succ'
    rw [toBytes, ofBytes, ih, BitVec.toNat_ofNat, h, Nat.mod_mul]

end Sys2Proof.Machine
end

