-- ==== Sys2Proof/Laws/Bits.lean ====
section
/-! SUPPORT. Laws of element-wise operations and of the conversions between numbers and bit vectors. -/

namespace Sys2Proof.Machine

theorem bits_lt (x lo n : Nat) : bits x lo n < 2 ^ n := Nat.mod_lt _ (Nat.two_pow_pos n)

theorem mem_elems {e n x y : Nat} (h : y ∈ elems e n x) : y < 2 ^ e := by
  simp only [elems, List.mem_map] at h
  obtain ⟨i, -, rfl⟩ := h
  exact bits_lt ..

theorem joinElems_congr (e : Nat) : ∀ (l m : List Nat), l.map (· % 2 ^ e) = m.map (· % 2 ^ e) →
    joinElems e l = joinElems e m
  | [], [], _ => rfl
  | [], _ :: _, h => by simp at h
  | _ :: _, [], h => by simp at h
  | a :: l, b :: m, h => by
    simp only [List.map_cons, List.cons.injEq] at h
    rw [joinElems, joinElems, h.1, joinElems_congr e l m h.2]

/-- Two element operations that agree modulo 2^e on elements give one result. -/
theorem joinElems_zipWith {e : Nat} {f g : Nat → Nat → Nat}
    (h : ∀ a b, a < 2 ^ e → b < 2 ^ e → f a b % 2 ^ e = g a b % 2 ^ e) (n a b : Nat) :
    joinElems e ((elems e n a).zipWith f (elems e n b)) = joinElems e ((elems e n a).zipWith g (elems e n b)) := by
  apply joinElems_congr
  have : ∀ (l m : List Nat), (∀ x ∈ l, x < 2 ^ e) → (∀ x ∈ m, x < 2 ^ e) →
      (l.zipWith f m).map (· % 2 ^ e) = (l.zipWith g m).map (· % 2 ^ e) := by
    intro l
    induction l with
    | nil => intro m _ _; rfl
    | cons x l ih =>
      intro m hl hm
      cases m with
      | nil => rfl
      | cons y m =>
        simp only [List.zipWith_cons_cons, List.map_cons]
        rw [h x y (hl x (by simp)) (hm y (by simp)), ih m (fun z hz => hl z (by simp [hz])) (fun z hz => hm z (by simp [hz]))]
  exact this _ _ (fun _ => mem_elems) (fun _ => mem_elems)

theorem joinElems_map {e : Nat} {f g : Nat → Nat} (h : ∀ a, a < 2 ^ e → f a % 2 ^ e = g a % 2 ^ e) (n a : Nat) :
    joinElems e ((elems e n a).map f) = joinElems e ((elems e n a).map g) := by
  apply joinElems_congr
  rw [List.map_map, List.map_map]
  exact List.map_congr_left fun x hx => h x (mem_elems hx)

theorem sgn_eq_toInt {e x : Nat} (hx : x < 2 ^ e) : sgn e x = (BitVec.ofNat e x).toInt := by
  rw [BitVec.toInt_eq_toNat_cond]
  simp only [sgn, BitVec.toNat_ofNat, Nat.mod_eq_of_lt hx]
  cases e with
  | zero => simp at hx; subst hx; rfl
  | succ n =>
    have h2 : 2 ^ (n + 1) = 2 * 2 ^ n := Nat.pow_succ'
    simp only [ne_eq, Nat.succ_ne_zero, not_false_eq_true, true_and, Nat.succ_sub_one, ge_iff_le]
    have hc : ∀ y : Nat, ((y : Nat) : Int) = y := fun _ => rfl
    by_cases h : 2 ^ n ≤ x
    · rw [if_pos h, if_neg (by omega)]
    · rw [if_neg h, if_pos (by omega)]

theorem sgn_mod (e x : Nat) : sgn e (x % 2 ^ e) = sgn e x := by simp [sgn]

theorem sgn_ofNat (e x : Nat) : sgn e x = (BitVec.ofNat e x).toInt := by
  rw [← sgn_mod, sgn_eq_toInt (Nat.mod_lt _ (Nat.two_pow_pos e))]
  congr 1
  apply BitVec.eq_of_toNat_eq
  simp

theorem wrapInt_eq_ofInt (e : Nat) (v : Int) : wrapInt e v = (BitVec.ofInt e v).toNat := by
  rw [BitVec.toNat_ofInt]
  simp [wrapInt]

theorem wrapInt_lt (e : Nat) (v : Int) : wrapInt e v < 2 ^ e := by
  rw [wrapInt_eq_ofInt]; exact BitVec.isLt _

end Sys2Proof.Machine
end

