-- ==== Sys2Proof/Laws/State.lean ====
section
/-! SUPPORT. Laws of the state's updates: for each update one lemma for each field that it leaves, and what the accessors
give after it. -/

namespace Sys2Proof.Machine

-- setCore

@[simp] theorem State.setCore_puts (s : State) (c : Nat) (x : Core) : (s.setCore c x).puts = s.puts := rfl
@[simp] theorem State.setCore_putDrops (s : State) (c : Nat) (x : Core) : (s.setCore c x).putDrops = s.putDrops := rfl
@[simp] theorem State.setCore_reed (s : State) (c : Nat) (x : Core) : (s.setCore c x).reed = s.reed := rfl
@[simp] theorem State.setCore_saved (s : State) (c : Nat) (x : Core) : (s.setCore c x).saved = s.saved := rfl
@[simp] theorem State.setCore_vacates (s : State) (c : Nat) (x : Core) : (s.setCore c x).vacates = s.vacates := rfl
@[simp] theorem State.setCore_reserved (s : State) (c : Nat) (x : Core) : (s.setCore c x).reserved = s.reserved := rfl
@[simp] theorem State.setCore_served (s : State) (c : Nat) (x : Core) : (s.setCore c x).served = s.served := rfl
@[simp] theorem State.setCore_ring (s : State) (c : Nat) (x : Core) : (s.setCore c x).ring = s.ring := rfl
@[simp] theorem State.setCore_sched (s : State) (c : Nat) (x : Core) : (s.setCore c x).sched = s.sched := rfl
@[simp] theorem State.setCore_slots (s : State) (c : Nat) (x : Core) : (s.setCore c x).slots = s.slots := rfl
@[simp] theorem State.setCore_engines (s : State) (c : Nat) (x : Core) : (s.setCore c x).engines = s.engines := rfl
@[simp] theorem State.setCore_travs (s : State) (c : Nat) (x : Core) : (s.setCore c x).travs = s.travs := rfl
@[simp] theorem State.setCore_boot (s : State) (c : Nat) (x : Core) : (s.setCore c x).boot = s.boot := rfl
@[simp] theorem State.setCore_links (s : State) (c : Nat) (x : Core) : (s.setCore c x).links = s.links := rfl
@[simp] theorem State.setCore_tlbInv (s : State) (c : Nat) (x : Core) : (s.setCore c x).tlbInv = s.tlbInv := rfl
@[simp] theorem State.setCore_w0 (s : State) (c : Nat) (x : Core) : (s.setCore c x).w0 = s.w0 := rfl
@[simp] theorem State.setCore_time (s : State) (c : Nat) (x : Core) : (s.setCore c x).time = s.time := rfl
@[simp] theorem State.setCore_mon (s : State) (c : Nat) (x : Core) : (s.setCore c x).mon = s.mon := rfl
@[simp] theorem State.setCore_power (s : State) (c : Nat) (x : Core) : (s.setCore c x).power = s.power := rfl
@[simp] theorem State.setCore_skeins (s : State) (c : Nat) (x : Core) : (s.setCore c x).skeins = s.skeins := rfl
@[simp] theorem State.setCore_wgs (s : State) (c : Nat) (x : Core) : (s.setCore c x).wgs = s.wgs := rfl
@[simp] theorem State.setCore_grids (s : State) (c : Nat) (x : Core) : (s.setCore c x).grids = s.grids := rfl
@[simp] theorem State.setCore_pending (s : State) (c : Nat) (x : Core) : (s.setCore c x).pending = s.pending := rfl
@[simp] theorem State.setCore_order (s : State) (c : Nat) (x : Core) : (s.setCore c x).order = s.order := rfl
@[simp] theorem State.setCore_ctxs (s : State) (c : Nat) (x : Core) : (s.setCore c x).ctxs = s.ctxs := rfl
@[simp] theorem State.setCore_mem (s : State) (c : Nat) (x : Core) : (s.setCore c x).mem = s.mem := rfl
@[simp] theorem State.setCore_devq (s : State) (c : Nat) (x : Core) : (s.setCore c x).devq = s.devq := rfl
@[simp] theorem State.setCore_msix (s : State) (c : Nat) (x : Core) : (s.setCore c x).msix = s.msix := rfl
@[simp] theorem State.setCore_errors (s : State) (c : Nat) (x : Core) : (s.setCore c x).errors = s.errors := rfl
@[simp] theorem State.setCore_agenda (s : State) (c : Nat) (x : Core) : (s.setCore c x).agenda = s.agenda := rfl
@[simp] theorem State.setCore_cycle (s : State) (c : Nat) (x : Core) : (s.setCore c x).cycle = s.cycle := rfl
@[simp] theorem State.setCore_free (s : State) (c : Nat) (x : Core) : (s.setCore c x).free = s.free := rfl
@[simp] theorem State.setCore_issue (s : State) (c : Nat) (x : Core) : (s.setCore c x).issue = s.issue := rfl
@[simp] theorem State.setCore_out (s : State) (c : Nat) (x : Core) : (s.setCore c x).out = s.out := rfl

-- modCore

@[simp] theorem State.modCore_puts (s : State) (c : Nat) (f : Core → Core) : (s.modCore c f).puts = s.puts := rfl
@[simp] theorem State.modCore_putDrops (s : State) (c : Nat) (f : Core → Core) : (s.modCore c f).putDrops = s.putDrops := rfl
@[simp] theorem State.modCore_reed (s : State) (c : Nat) (f : Core → Core) : (s.modCore c f).reed = s.reed := rfl
@[simp] theorem State.modCore_saved (s : State) (c : Nat) (f : Core → Core) : (s.modCore c f).saved = s.saved := rfl
@[simp] theorem State.modCore_vacates (s : State) (c : Nat) (f : Core → Core) : (s.modCore c f).vacates = s.vacates := rfl
@[simp] theorem State.modCore_reserved (s : State) (c : Nat) (f : Core → Core) : (s.modCore c f).reserved = s.reserved := rfl
@[simp] theorem State.modCore_served (s : State) (c : Nat) (f : Core → Core) : (s.modCore c f).served = s.served := rfl
@[simp] theorem State.modCore_ring (s : State) (c : Nat) (f : Core → Core) : (s.modCore c f).ring = s.ring := rfl
@[simp] theorem State.modCore_sched (s : State) (c : Nat) (f : Core → Core) : (s.modCore c f).sched = s.sched := rfl
@[simp] theorem State.modCore_slots (s : State) (c : Nat) (f : Core → Core) : (s.modCore c f).slots = s.slots := rfl
@[simp] theorem State.modCore_engines (s : State) (c : Nat) (f : Core → Core) : (s.modCore c f).engines = s.engines := rfl
@[simp] theorem State.modCore_travs (s : State) (c : Nat) (f : Core → Core) : (s.modCore c f).travs = s.travs := rfl
@[simp] theorem State.modCore_boot (s : State) (c : Nat) (f : Core → Core) : (s.modCore c f).boot = s.boot := rfl
@[simp] theorem State.modCore_links (s : State) (c : Nat) (f : Core → Core) : (s.modCore c f).links = s.links := rfl
@[simp] theorem State.modCore_tlbInv (s : State) (c : Nat) (f : Core → Core) : (s.modCore c f).tlbInv = s.tlbInv := rfl
@[simp] theorem State.modCore_w0 (s : State) (c : Nat) (f : Core → Core) : (s.modCore c f).w0 = s.w0 := rfl
@[simp] theorem State.modCore_time (s : State) (c : Nat) (f : Core → Core) : (s.modCore c f).time = s.time := rfl
@[simp] theorem State.modCore_mon (s : State) (c : Nat) (f : Core → Core) : (s.modCore c f).mon = s.mon := rfl
@[simp] theorem State.modCore_power (s : State) (c : Nat) (f : Core → Core) : (s.modCore c f).power = s.power := rfl
@[simp] theorem State.modCore_skeins (s : State) (c : Nat) (f : Core → Core) : (s.modCore c f).skeins = s.skeins := rfl
@[simp] theorem State.modCore_wgs (s : State) (c : Nat) (f : Core → Core) : (s.modCore c f).wgs = s.wgs := rfl
@[simp] theorem State.modCore_grids (s : State) (c : Nat) (f : Core → Core) : (s.modCore c f).grids = s.grids := rfl
@[simp] theorem State.modCore_pending (s : State) (c : Nat) (f : Core → Core) : (s.modCore c f).pending = s.pending := rfl
@[simp] theorem State.modCore_order (s : State) (c : Nat) (f : Core → Core) : (s.modCore c f).order = s.order := rfl
@[simp] theorem State.modCore_ctxs (s : State) (c : Nat) (f : Core → Core) : (s.modCore c f).ctxs = s.ctxs := rfl
@[simp] theorem State.modCore_mem (s : State) (c : Nat) (f : Core → Core) : (s.modCore c f).mem = s.mem := rfl
@[simp] theorem State.modCore_devq (s : State) (c : Nat) (f : Core → Core) : (s.modCore c f).devq = s.devq := rfl
@[simp] theorem State.modCore_msix (s : State) (c : Nat) (f : Core → Core) : (s.modCore c f).msix = s.msix := rfl
@[simp] theorem State.modCore_errors (s : State) (c : Nat) (f : Core → Core) : (s.modCore c f).errors = s.errors := rfl
@[simp] theorem State.modCore_agenda (s : State) (c : Nat) (f : Core → Core) : (s.modCore c f).agenda = s.agenda := rfl
@[simp] theorem State.modCore_cycle (s : State) (c : Nat) (f : Core → Core) : (s.modCore c f).cycle = s.cycle := rfl
@[simp] theorem State.modCore_free (s : State) (c : Nat) (f : Core → Core) : (s.modCore c f).free = s.free := rfl
@[simp] theorem State.modCore_issue (s : State) (c : Nat) (f : Core → Core) : (s.modCore c f).issue = s.issue := rfl
@[simp] theorem State.modCore_out (s : State) (c : Nat) (f : Core → Core) : (s.modCore c f).out = s.out := rfl

-- setSkein

@[simp] theorem State.setSkein_puts (s : State) (c l : Nat) (k : Skein) : (s.setSkein c l k).puts = s.puts := rfl
@[simp] theorem State.setSkein_putDrops (s : State) (c l : Nat) (k : Skein) : (s.setSkein c l k).putDrops = s.putDrops := rfl
@[simp] theorem State.setSkein_reed (s : State) (c l : Nat) (k : Skein) : (s.setSkein c l k).reed = s.reed := rfl
@[simp] theorem State.setSkein_saved (s : State) (c l : Nat) (k : Skein) : (s.setSkein c l k).saved = s.saved := rfl
@[simp] theorem State.setSkein_vacates (s : State) (c l : Nat) (k : Skein) : (s.setSkein c l k).vacates = s.vacates := rfl
@[simp] theorem State.setSkein_reserved (s : State) (c l : Nat) (k : Skein) : (s.setSkein c l k).reserved = s.reserved := rfl
@[simp] theorem State.setSkein_served (s : State) (c l : Nat) (k : Skein) : (s.setSkein c l k).served = s.served := rfl
@[simp] theorem State.setSkein_ring (s : State) (c l : Nat) (k : Skein) : (s.setSkein c l k).ring = s.ring := rfl
@[simp] theorem State.setSkein_sched (s : State) (c l : Nat) (k : Skein) : (s.setSkein c l k).sched = s.sched := rfl
@[simp] theorem State.setSkein_slots (s : State) (c l : Nat) (k : Skein) : (s.setSkein c l k).slots = s.slots := rfl
@[simp] theorem State.setSkein_engines (s : State) (c l : Nat) (k : Skein) : (s.setSkein c l k).engines = s.engines := rfl
@[simp] theorem State.setSkein_travs (s : State) (c l : Nat) (k : Skein) : (s.setSkein c l k).travs = s.travs := rfl
@[simp] theorem State.setSkein_boot (s : State) (c l : Nat) (k : Skein) : (s.setSkein c l k).boot = s.boot := rfl
@[simp] theorem State.setSkein_links (s : State) (c l : Nat) (k : Skein) : (s.setSkein c l k).links = s.links := rfl
@[simp] theorem State.setSkein_tlbInv (s : State) (c l : Nat) (k : Skein) : (s.setSkein c l k).tlbInv = s.tlbInv := rfl
@[simp] theorem State.setSkein_w0 (s : State) (c l : Nat) (k : Skein) : (s.setSkein c l k).w0 = s.w0 := rfl
@[simp] theorem State.setSkein_time (s : State) (c l : Nat) (k : Skein) : (s.setSkein c l k).time = s.time := rfl
@[simp] theorem State.setSkein_mon (s : State) (c l : Nat) (k : Skein) : (s.setSkein c l k).mon = s.mon := rfl
@[simp] theorem State.setSkein_power (s : State) (c l : Nat) (k : Skein) : (s.setSkein c l k).power = s.power := rfl
@[simp] theorem State.setSkein_cores (s : State) (c l : Nat) (k : Skein) : (s.setSkein c l k).cores = s.cores := rfl
@[simp] theorem State.setSkein_wgs (s : State) (c l : Nat) (k : Skein) : (s.setSkein c l k).wgs = s.wgs := rfl
@[simp] theorem State.setSkein_grids (s : State) (c l : Nat) (k : Skein) : (s.setSkein c l k).grids = s.grids := rfl
@[simp] theorem State.setSkein_pending (s : State) (c l : Nat) (k : Skein) : (s.setSkein c l k).pending = s.pending := rfl
@[simp] theorem State.setSkein_order (s : State) (c l : Nat) (k : Skein) : (s.setSkein c l k).order = s.order := rfl
@[simp] theorem State.setSkein_ctxs (s : State) (c l : Nat) (k : Skein) : (s.setSkein c l k).ctxs = s.ctxs := rfl
@[simp] theorem State.setSkein_mem (s : State) (c l : Nat) (k : Skein) : (s.setSkein c l k).mem = s.mem := rfl
@[simp] theorem State.setSkein_devq (s : State) (c l : Nat) (k : Skein) : (s.setSkein c l k).devq = s.devq := rfl
@[simp] theorem State.setSkein_msix (s : State) (c l : Nat) (k : Skein) : (s.setSkein c l k).msix = s.msix := rfl
@[simp] theorem State.setSkein_errors (s : State) (c l : Nat) (k : Skein) : (s.setSkein c l k).errors = s.errors := rfl
@[simp] theorem State.setSkein_agenda (s : State) (c l : Nat) (k : Skein) : (s.setSkein c l k).agenda = s.agenda := rfl
@[simp] theorem State.setSkein_cycle (s : State) (c l : Nat) (k : Skein) : (s.setSkein c l k).cycle = s.cycle := rfl
@[simp] theorem State.setSkein_free (s : State) (c l : Nat) (k : Skein) : (s.setSkein c l k).free = s.free := rfl
@[simp] theorem State.setSkein_issue (s : State) (c l : Nat) (k : Skein) : (s.setSkein c l k).issue = s.issue := rfl
@[simp] theorem State.setSkein_out (s : State) (c l : Nat) (k : Skein) : (s.setSkein c l k).out = s.out := rfl

-- dropSkein

@[simp] theorem State.dropSkein_puts (s : State) (c l : Nat) : (s.dropSkein c l).puts = s.puts := rfl
@[simp] theorem State.dropSkein_putDrops (s : State) (c l : Nat) : (s.dropSkein c l).putDrops = s.putDrops := rfl
@[simp] theorem State.dropSkein_reed (s : State) (c l : Nat) : (s.dropSkein c l).reed = s.reed := rfl
@[simp] theorem State.dropSkein_saved (s : State) (c l : Nat) : (s.dropSkein c l).saved = s.saved := rfl
@[simp] theorem State.dropSkein_vacates (s : State) (c l : Nat) : (s.dropSkein c l).vacates = s.vacates := rfl
@[simp] theorem State.dropSkein_reserved (s : State) (c l : Nat) : (s.dropSkein c l).reserved = s.reserved := rfl
@[simp] theorem State.dropSkein_served (s : State) (c l : Nat) : (s.dropSkein c l).served = s.served := rfl
@[simp] theorem State.dropSkein_ring (s : State) (c l : Nat) : (s.dropSkein c l).ring = s.ring := rfl
@[simp] theorem State.dropSkein_sched (s : State) (c l : Nat) : (s.dropSkein c l).sched = s.sched := rfl
@[simp] theorem State.dropSkein_slots (s : State) (c l : Nat) : (s.dropSkein c l).slots = s.slots := rfl
@[simp] theorem State.dropSkein_engines (s : State) (c l : Nat) : (s.dropSkein c l).engines = s.engines := rfl
@[simp] theorem State.dropSkein_travs (s : State) (c l : Nat) : (s.dropSkein c l).travs = s.travs := rfl
@[simp] theorem State.dropSkein_boot (s : State) (c l : Nat) : (s.dropSkein c l).boot = s.boot := rfl
@[simp] theorem State.dropSkein_links (s : State) (c l : Nat) : (s.dropSkein c l).links = s.links := rfl
@[simp] theorem State.dropSkein_tlbInv (s : State) (c l : Nat) : (s.dropSkein c l).tlbInv = s.tlbInv := rfl
@[simp] theorem State.dropSkein_w0 (s : State) (c l : Nat) : (s.dropSkein c l).w0 = s.w0 := rfl
@[simp] theorem State.dropSkein_time (s : State) (c l : Nat) : (s.dropSkein c l).time = s.time := rfl
@[simp] theorem State.dropSkein_mon (s : State) (c l : Nat) : (s.dropSkein c l).mon = s.mon := rfl
@[simp] theorem State.dropSkein_power (s : State) (c l : Nat) : (s.dropSkein c l).power = s.power := rfl
@[simp] theorem State.dropSkein_cores (s : State) (c l : Nat) : (s.dropSkein c l).cores = s.cores := rfl
@[simp] theorem State.dropSkein_wgs (s : State) (c l : Nat) : (s.dropSkein c l).wgs = s.wgs := rfl
@[simp] theorem State.dropSkein_grids (s : State) (c l : Nat) : (s.dropSkein c l).grids = s.grids := rfl
@[simp] theorem State.dropSkein_pending (s : State) (c l : Nat) : (s.dropSkein c l).pending = s.pending := rfl
@[simp] theorem State.dropSkein_order (s : State) (c l : Nat) : (s.dropSkein c l).order = s.order := rfl
@[simp] theorem State.dropSkein_ctxs (s : State) (c l : Nat) : (s.dropSkein c l).ctxs = s.ctxs := rfl
@[simp] theorem State.dropSkein_mem (s : State) (c l : Nat) : (s.dropSkein c l).mem = s.mem := rfl
@[simp] theorem State.dropSkein_devq (s : State) (c l : Nat) : (s.dropSkein c l).devq = s.devq := rfl
@[simp] theorem State.dropSkein_msix (s : State) (c l : Nat) : (s.dropSkein c l).msix = s.msix := rfl
@[simp] theorem State.dropSkein_errors (s : State) (c l : Nat) : (s.dropSkein c l).errors = s.errors := rfl
@[simp] theorem State.dropSkein_agenda (s : State) (c l : Nat) : (s.dropSkein c l).agenda = s.agenda := rfl
@[simp] theorem State.dropSkein_cycle (s : State) (c l : Nat) : (s.dropSkein c l).cycle = s.cycle := rfl
@[simp] theorem State.dropSkein_free (s : State) (c l : Nat) : (s.dropSkein c l).free = s.free := rfl
@[simp] theorem State.dropSkein_issue (s : State) (c l : Nat) : (s.dropSkein c l).issue = s.issue := rfl
@[simp] theorem State.dropSkein_out (s : State) (c l : Nat) : (s.dropSkein c l).out = s.out := rfl

-- modSkein

@[simp] theorem State.modSkein_puts (s : State) (c l : Nat) (f : Skein → Skein) : (s.modSkein c l f).puts = s.puts := by unfold State.modSkein; split <;> rfl
@[simp] theorem State.modSkein_putDrops (s : State) (c l : Nat) (f : Skein → Skein) : (s.modSkein c l f).putDrops = s.putDrops := by unfold State.modSkein; split <;> rfl
@[simp] theorem State.modSkein_reed (s : State) (c l : Nat) (f : Skein → Skein) : (s.modSkein c l f).reed = s.reed := by unfold State.modSkein; split <;> rfl
@[simp] theorem State.modSkein_saved (s : State) (c l : Nat) (f : Skein → Skein) : (s.modSkein c l f).saved = s.saved := by unfold State.modSkein; split <;> rfl
@[simp] theorem State.modSkein_vacates (s : State) (c l : Nat) (f : Skein → Skein) : (s.modSkein c l f).vacates = s.vacates := by unfold State.modSkein; split <;> rfl
@[simp] theorem State.modSkein_reserved (s : State) (c l : Nat) (f : Skein → Skein) : (s.modSkein c l f).reserved = s.reserved := by unfold State.modSkein; split <;> rfl
@[simp] theorem State.modSkein_served (s : State) (c l : Nat) (f : Skein → Skein) : (s.modSkein c l f).served = s.served := by unfold State.modSkein; split <;> rfl
@[simp] theorem State.modSkein_ring (s : State) (c l : Nat) (f : Skein → Skein) : (s.modSkein c l f).ring = s.ring := by unfold State.modSkein; split <;> rfl
@[simp] theorem State.modSkein_sched (s : State) (c l : Nat) (f : Skein → Skein) : (s.modSkein c l f).sched = s.sched := by unfold State.modSkein; split <;> rfl
@[simp] theorem State.modSkein_slots (s : State) (c l : Nat) (f : Skein → Skein) : (s.modSkein c l f).slots = s.slots := by unfold State.modSkein; split <;> rfl
@[simp] theorem State.modSkein_engines (s : State) (c l : Nat) (f : Skein → Skein) : (s.modSkein c l f).engines = s.engines := by unfold State.modSkein; split <;> rfl
@[simp] theorem State.modSkein_travs (s : State) (c l : Nat) (f : Skein → Skein) : (s.modSkein c l f).travs = s.travs := by unfold State.modSkein; split <;> rfl
@[simp] theorem State.modSkein_boot (s : State) (c l : Nat) (f : Skein → Skein) : (s.modSkein c l f).boot = s.boot := by unfold State.modSkein; split <;> rfl
@[simp] theorem State.modSkein_links (s : State) (c l : Nat) (f : Skein → Skein) : (s.modSkein c l f).links = s.links := by unfold State.modSkein; split <;> rfl
@[simp] theorem State.modSkein_tlbInv (s : State) (c l : Nat) (f : Skein → Skein) : (s.modSkein c l f).tlbInv = s.tlbInv := by unfold State.modSkein; split <;> rfl
@[simp] theorem State.modSkein_w0 (s : State) (c l : Nat) (f : Skein → Skein) : (s.modSkein c l f).w0 = s.w0 := by unfold State.modSkein; split <;> rfl
@[simp] theorem State.modSkein_time (s : State) (c l : Nat) (f : Skein → Skein) : (s.modSkein c l f).time = s.time := by unfold State.modSkein; split <;> rfl
@[simp] theorem State.modSkein_mon (s : State) (c l : Nat) (f : Skein → Skein) : (s.modSkein c l f).mon = s.mon := by unfold State.modSkein; split <;> rfl
@[simp] theorem State.modSkein_power (s : State) (c l : Nat) (f : Skein → Skein) : (s.modSkein c l f).power = s.power := by unfold State.modSkein; split <;> rfl
@[simp] theorem State.modSkein_cores (s : State) (c l : Nat) (f : Skein → Skein) : (s.modSkein c l f).cores = s.cores := by unfold State.modSkein; split <;> rfl
@[simp] theorem State.modSkein_wgs (s : State) (c l : Nat) (f : Skein → Skein) : (s.modSkein c l f).wgs = s.wgs := by unfold State.modSkein; split <;> rfl
@[simp] theorem State.modSkein_grids (s : State) (c l : Nat) (f : Skein → Skein) : (s.modSkein c l f).grids = s.grids := by unfold State.modSkein; split <;> rfl
@[simp] theorem State.modSkein_pending (s : State) (c l : Nat) (f : Skein → Skein) : (s.modSkein c l f).pending = s.pending := by unfold State.modSkein; split <;> rfl
@[simp] theorem State.modSkein_order (s : State) (c l : Nat) (f : Skein → Skein) : (s.modSkein c l f).order = s.order := by unfold State.modSkein; split <;> rfl
@[simp] theorem State.modSkein_ctxs (s : State) (c l : Nat) (f : Skein → Skein) : (s.modSkein c l f).ctxs = s.ctxs := by unfold State.modSkein; split <;> rfl
@[simp] theorem State.modSkein_mem (s : State) (c l : Nat) (f : Skein → Skein) : (s.modSkein c l f).mem = s.mem := by unfold State.modSkein; split <;> rfl
@[simp] theorem State.modSkein_devq (s : State) (c l : Nat) (f : Skein → Skein) : (s.modSkein c l f).devq = s.devq := by unfold State.modSkein; split <;> rfl
@[simp] theorem State.modSkein_msix (s : State) (c l : Nat) (f : Skein → Skein) : (s.modSkein c l f).msix = s.msix := by unfold State.modSkein; split <;> rfl
@[simp] theorem State.modSkein_errors (s : State) (c l : Nat) (f : Skein → Skein) : (s.modSkein c l f).errors = s.errors := by unfold State.modSkein; split <;> rfl
@[simp] theorem State.modSkein_agenda (s : State) (c l : Nat) (f : Skein → Skein) : (s.modSkein c l f).agenda = s.agenda := by unfold State.modSkein; split <;> rfl
@[simp] theorem State.modSkein_cycle (s : State) (c l : Nat) (f : Skein → Skein) : (s.modSkein c l f).cycle = s.cycle := by unfold State.modSkein; split <;> rfl
@[simp] theorem State.modSkein_free (s : State) (c l : Nat) (f : Skein → Skein) : (s.modSkein c l f).free = s.free := by unfold State.modSkein; split <;> rfl
@[simp] theorem State.modSkein_issue (s : State) (c l : Nat) (f : Skein → Skein) : (s.modSkein c l f).issue = s.issue := by unfold State.modSkein; split <;> rfl
@[simp] theorem State.modSkein_out (s : State) (c l : Nat) (f : Skein → Skein) : (s.modSkein c l f).out = s.out := by unfold State.modSkein; split <;> rfl

-- modThread

@[simp] theorem State.modThread_puts (s : State) (c l t : Nat) (f : Thread → Thread) : (s.modThread c l t f).puts = s.puts := State.modSkein_puts ..
@[simp] theorem State.modThread_putDrops (s : State) (c l t : Nat) (f : Thread → Thread) : (s.modThread c l t f).putDrops = s.putDrops := State.modSkein_putDrops ..
@[simp] theorem State.modThread_reed (s : State) (c l t : Nat) (f : Thread → Thread) : (s.modThread c l t f).reed = s.reed := State.modSkein_reed ..
@[simp] theorem State.modThread_saved (s : State) (c l t : Nat) (f : Thread → Thread) : (s.modThread c l t f).saved = s.saved := State.modSkein_saved ..
@[simp] theorem State.modThread_vacates (s : State) (c l t : Nat) (f : Thread → Thread) : (s.modThread c l t f).vacates = s.vacates := State.modSkein_vacates ..
@[simp] theorem State.modThread_reserved (s : State) (c l t : Nat) (f : Thread → Thread) : (s.modThread c l t f).reserved = s.reserved := State.modSkein_reserved ..
@[simp] theorem State.modThread_served (s : State) (c l t : Nat) (f : Thread → Thread) : (s.modThread c l t f).served = s.served := State.modSkein_served ..
@[simp] theorem State.modThread_ring (s : State) (c l t : Nat) (f : Thread → Thread) : (s.modThread c l t f).ring = s.ring := State.modSkein_ring ..
@[simp] theorem State.modThread_sched (s : State) (c l t : Nat) (f : Thread → Thread) : (s.modThread c l t f).sched = s.sched := State.modSkein_sched ..
@[simp] theorem State.modThread_slots (s : State) (c l t : Nat) (f : Thread → Thread) : (s.modThread c l t f).slots = s.slots := State.modSkein_slots ..
@[simp] theorem State.modThread_engines (s : State) (c l t : Nat) (f : Thread → Thread) : (s.modThread c l t f).engines = s.engines := State.modSkein_engines ..
@[simp] theorem State.modThread_travs (s : State) (c l t : Nat) (f : Thread → Thread) : (s.modThread c l t f).travs = s.travs := State.modSkein_travs ..
@[simp] theorem State.modThread_boot (s : State) (c l t : Nat) (f : Thread → Thread) : (s.modThread c l t f).boot = s.boot := State.modSkein_boot ..
@[simp] theorem State.modThread_links (s : State) (c l t : Nat) (f : Thread → Thread) : (s.modThread c l t f).links = s.links := State.modSkein_links ..
@[simp] theorem State.modThread_tlbInv (s : State) (c l t : Nat) (f : Thread → Thread) : (s.modThread c l t f).tlbInv = s.tlbInv := State.modSkein_tlbInv ..
@[simp] theorem State.modThread_w0 (s : State) (c l t : Nat) (f : Thread → Thread) : (s.modThread c l t f).w0 = s.w0 := State.modSkein_w0 ..
@[simp] theorem State.modThread_time (s : State) (c l t : Nat) (f : Thread → Thread) : (s.modThread c l t f).time = s.time := State.modSkein_time ..
@[simp] theorem State.modThread_mon (s : State) (c l t : Nat) (f : Thread → Thread) : (s.modThread c l t f).mon = s.mon := State.modSkein_mon ..
@[simp] theorem State.modThread_power (s : State) (c l t : Nat) (f : Thread → Thread) : (s.modThread c l t f).power = s.power := State.modSkein_power ..
@[simp] theorem State.modThread_cores (s : State) (c l t : Nat) (f : Thread → Thread) : (s.modThread c l t f).cores = s.cores := State.modSkein_cores ..
@[simp] theorem State.modThread_wgs (s : State) (c l t : Nat) (f : Thread → Thread) : (s.modThread c l t f).wgs = s.wgs := State.modSkein_wgs ..
@[simp] theorem State.modThread_grids (s : State) (c l t : Nat) (f : Thread → Thread) : (s.modThread c l t f).grids = s.grids := State.modSkein_grids ..
@[simp] theorem State.modThread_pending (s : State) (c l t : Nat) (f : Thread → Thread) : (s.modThread c l t f).pending = s.pending := State.modSkein_pending ..
@[simp] theorem State.modThread_order (s : State) (c l t : Nat) (f : Thread → Thread) : (s.modThread c l t f).order = s.order := State.modSkein_order ..
@[simp] theorem State.modThread_ctxs (s : State) (c l t : Nat) (f : Thread → Thread) : (s.modThread c l t f).ctxs = s.ctxs := State.modSkein_ctxs ..
@[simp] theorem State.modThread_mem (s : State) (c l t : Nat) (f : Thread → Thread) : (s.modThread c l t f).mem = s.mem := State.modSkein_mem ..
@[simp] theorem State.modThread_devq (s : State) (c l t : Nat) (f : Thread → Thread) : (s.modThread c l t f).devq = s.devq := State.modSkein_devq ..
@[simp] theorem State.modThread_msix (s : State) (c l t : Nat) (f : Thread → Thread) : (s.modThread c l t f).msix = s.msix := State.modSkein_msix ..
@[simp] theorem State.modThread_errors (s : State) (c l t : Nat) (f : Thread → Thread) : (s.modThread c l t f).errors = s.errors := State.modSkein_errors ..
@[simp] theorem State.modThread_agenda (s : State) (c l t : Nat) (f : Thread → Thread) : (s.modThread c l t f).agenda = s.agenda := State.modSkein_agenda ..
@[simp] theorem State.modThread_cycle (s : State) (c l t : Nat) (f : Thread → Thread) : (s.modThread c l t f).cycle = s.cycle := State.modSkein_cycle ..
@[simp] theorem State.modThread_free (s : State) (c l t : Nat) (f : Thread → Thread) : (s.modThread c l t f).free = s.free := State.modSkein_free ..
@[simp] theorem State.modThread_issue (s : State) (c l t : Nat) (f : Thread → Thread) : (s.modThread c l t f).issue = s.issue := State.modSkein_issue ..
@[simp] theorem State.modThread_out (s : State) (c l t : Nat) (f : Thread → Thread) : (s.modThread c l t f).out = s.out := State.modSkein_out ..

-- modCtx

@[simp] theorem State.modCtx_puts (s : State) (c : Nat) (f : Context → Context) : (s.modCtx c f).puts = s.puts := rfl
@[simp] theorem State.modCtx_putDrops (s : State) (c : Nat) (f : Context → Context) : (s.modCtx c f).putDrops = s.putDrops := rfl
@[simp] theorem State.modCtx_reed (s : State) (c : Nat) (f : Context → Context) : (s.modCtx c f).reed = s.reed := rfl
@[simp] theorem State.modCtx_saved (s : State) (c : Nat) (f : Context → Context) : (s.modCtx c f).saved = s.saved := rfl
@[simp] theorem State.modCtx_vacates (s : State) (c : Nat) (f : Context → Context) : (s.modCtx c f).vacates = s.vacates := rfl
@[simp] theorem State.modCtx_reserved (s : State) (c : Nat) (f : Context → Context) : (s.modCtx c f).reserved = s.reserved := rfl
@[simp] theorem State.modCtx_served (s : State) (c : Nat) (f : Context → Context) : (s.modCtx c f).served = s.served := rfl
@[simp] theorem State.modCtx_ring (s : State) (c : Nat) (f : Context → Context) : (s.modCtx c f).ring = s.ring := rfl
@[simp] theorem State.modCtx_sched (s : State) (c : Nat) (f : Context → Context) : (s.modCtx c f).sched = s.sched := rfl
@[simp] theorem State.modCtx_slots (s : State) (c : Nat) (f : Context → Context) : (s.modCtx c f).slots = s.slots := rfl
@[simp] theorem State.modCtx_engines (s : State) (c : Nat) (f : Context → Context) : (s.modCtx c f).engines = s.engines := rfl
@[simp] theorem State.modCtx_travs (s : State) (c : Nat) (f : Context → Context) : (s.modCtx c f).travs = s.travs := rfl
@[simp] theorem State.modCtx_boot (s : State) (c : Nat) (f : Context → Context) : (s.modCtx c f).boot = s.boot := rfl
@[simp] theorem State.modCtx_links (s : State) (c : Nat) (f : Context → Context) : (s.modCtx c f).links = s.links := rfl
@[simp] theorem State.modCtx_tlbInv (s : State) (c : Nat) (f : Context → Context) : (s.modCtx c f).tlbInv = s.tlbInv := rfl
@[simp] theorem State.modCtx_w0 (s : State) (c : Nat) (f : Context → Context) : (s.modCtx c f).w0 = s.w0 := rfl
@[simp] theorem State.modCtx_time (s : State) (c : Nat) (f : Context → Context) : (s.modCtx c f).time = s.time := rfl
@[simp] theorem State.modCtx_mon (s : State) (c : Nat) (f : Context → Context) : (s.modCtx c f).mon = s.mon := rfl
@[simp] theorem State.modCtx_power (s : State) (c : Nat) (f : Context → Context) : (s.modCtx c f).power = s.power := rfl
@[simp] theorem State.modCtx_cores (s : State) (c : Nat) (f : Context → Context) : (s.modCtx c f).cores = s.cores := rfl
@[simp] theorem State.modCtx_skeins (s : State) (c : Nat) (f : Context → Context) : (s.modCtx c f).skeins = s.skeins := rfl
@[simp] theorem State.modCtx_wgs (s : State) (c : Nat) (f : Context → Context) : (s.modCtx c f).wgs = s.wgs := rfl
@[simp] theorem State.modCtx_grids (s : State) (c : Nat) (f : Context → Context) : (s.modCtx c f).grids = s.grids := rfl
@[simp] theorem State.modCtx_pending (s : State) (c : Nat) (f : Context → Context) : (s.modCtx c f).pending = s.pending := rfl
@[simp] theorem State.modCtx_order (s : State) (c : Nat) (f : Context → Context) : (s.modCtx c f).order = s.order := rfl
@[simp] theorem State.modCtx_mem (s : State) (c : Nat) (f : Context → Context) : (s.modCtx c f).mem = s.mem := rfl
@[simp] theorem State.modCtx_devq (s : State) (c : Nat) (f : Context → Context) : (s.modCtx c f).devq = s.devq := rfl
@[simp] theorem State.modCtx_msix (s : State) (c : Nat) (f : Context → Context) : (s.modCtx c f).msix = s.msix := rfl
@[simp] theorem State.modCtx_errors (s : State) (c : Nat) (f : Context → Context) : (s.modCtx c f).errors = s.errors := rfl
@[simp] theorem State.modCtx_agenda (s : State) (c : Nat) (f : Context → Context) : (s.modCtx c f).agenda = s.agenda := rfl
@[simp] theorem State.modCtx_cycle (s : State) (c : Nat) (f : Context → Context) : (s.modCtx c f).cycle = s.cycle := rfl
@[simp] theorem State.modCtx_free (s : State) (c : Nat) (f : Context → Context) : (s.modCtx c f).free = s.free := rfl
@[simp] theorem State.modCtx_issue (s : State) (c : Nat) (f : Context → Context) : (s.modCtx c f).issue = s.issue := rfl
@[simp] theorem State.modCtx_out (s : State) (c : Nat) (f : Context → Context) : (s.modCtx c f).out = s.out := rfl

-- modWg

@[simp] theorem State.modWg_puts (s : State) (k : Nat) (f : Workgroup → Workgroup) : (s.modWg k f).puts = s.puts := by unfold State.modWg; split <;> rfl
@[simp] theorem State.modWg_putDrops (s : State) (k : Nat) (f : Workgroup → Workgroup) : (s.modWg k f).putDrops = s.putDrops := by unfold State.modWg; split <;> rfl
@[simp] theorem State.modWg_reed (s : State) (k : Nat) (f : Workgroup → Workgroup) : (s.modWg k f).reed = s.reed := by unfold State.modWg; split <;> rfl
@[simp] theorem State.modWg_saved (s : State) (k : Nat) (f : Workgroup → Workgroup) : (s.modWg k f).saved = s.saved := by unfold State.modWg; split <;> rfl
@[simp] theorem State.modWg_vacates (s : State) (k : Nat) (f : Workgroup → Workgroup) : (s.modWg k f).vacates = s.vacates := by unfold State.modWg; split <;> rfl
@[simp] theorem State.modWg_reserved (s : State) (k : Nat) (f : Workgroup → Workgroup) : (s.modWg k f).reserved = s.reserved := by unfold State.modWg; split <;> rfl
@[simp] theorem State.modWg_served (s : State) (k : Nat) (f : Workgroup → Workgroup) : (s.modWg k f).served = s.served := by unfold State.modWg; split <;> rfl
@[simp] theorem State.modWg_ring (s : State) (k : Nat) (f : Workgroup → Workgroup) : (s.modWg k f).ring = s.ring := by unfold State.modWg; split <;> rfl
@[simp] theorem State.modWg_sched (s : State) (k : Nat) (f : Workgroup → Workgroup) : (s.modWg k f).sched = s.sched := by unfold State.modWg; split <;> rfl
@[simp] theorem State.modWg_slots (s : State) (k : Nat) (f : Workgroup → Workgroup) : (s.modWg k f).slots = s.slots := by unfold State.modWg; split <;> rfl
@[simp] theorem State.modWg_engines (s : State) (k : Nat) (f : Workgroup → Workgroup) : (s.modWg k f).engines = s.engines := by unfold State.modWg; split <;> rfl
@[simp] theorem State.modWg_travs (s : State) (k : Nat) (f : Workgroup → Workgroup) : (s.modWg k f).travs = s.travs := by unfold State.modWg; split <;> rfl
@[simp] theorem State.modWg_boot (s : State) (k : Nat) (f : Workgroup → Workgroup) : (s.modWg k f).boot = s.boot := by unfold State.modWg; split <;> rfl
@[simp] theorem State.modWg_links (s : State) (k : Nat) (f : Workgroup → Workgroup) : (s.modWg k f).links = s.links := by unfold State.modWg; split <;> rfl
@[simp] theorem State.modWg_tlbInv (s : State) (k : Nat) (f : Workgroup → Workgroup) : (s.modWg k f).tlbInv = s.tlbInv := by unfold State.modWg; split <;> rfl
@[simp] theorem State.modWg_w0 (s : State) (k : Nat) (f : Workgroup → Workgroup) : (s.modWg k f).w0 = s.w0 := by unfold State.modWg; split <;> rfl
@[simp] theorem State.modWg_time (s : State) (k : Nat) (f : Workgroup → Workgroup) : (s.modWg k f).time = s.time := by unfold State.modWg; split <;> rfl
@[simp] theorem State.modWg_mon (s : State) (k : Nat) (f : Workgroup → Workgroup) : (s.modWg k f).mon = s.mon := by unfold State.modWg; split <;> rfl
@[simp] theorem State.modWg_power (s : State) (k : Nat) (f : Workgroup → Workgroup) : (s.modWg k f).power = s.power := by unfold State.modWg; split <;> rfl
@[simp] theorem State.modWg_cores (s : State) (k : Nat) (f : Workgroup → Workgroup) : (s.modWg k f).cores = s.cores := by unfold State.modWg; split <;> rfl
@[simp] theorem State.modWg_skeins (s : State) (k : Nat) (f : Workgroup → Workgroup) : (s.modWg k f).skeins = s.skeins := by unfold State.modWg; split <;> rfl
@[simp] theorem State.modWg_grids (s : State) (k : Nat) (f : Workgroup → Workgroup) : (s.modWg k f).grids = s.grids := by unfold State.modWg; split <;> rfl
@[simp] theorem State.modWg_pending (s : State) (k : Nat) (f : Workgroup → Workgroup) : (s.modWg k f).pending = s.pending := by unfold State.modWg; split <;> rfl
@[simp] theorem State.modWg_order (s : State) (k : Nat) (f : Workgroup → Workgroup) : (s.modWg k f).order = s.order := by unfold State.modWg; split <;> rfl
@[simp] theorem State.modWg_ctxs (s : State) (k : Nat) (f : Workgroup → Workgroup) : (s.modWg k f).ctxs = s.ctxs := by unfold State.modWg; split <;> rfl
@[simp] theorem State.modWg_mem (s : State) (k : Nat) (f : Workgroup → Workgroup) : (s.modWg k f).mem = s.mem := by unfold State.modWg; split <;> rfl
@[simp] theorem State.modWg_devq (s : State) (k : Nat) (f : Workgroup → Workgroup) : (s.modWg k f).devq = s.devq := by unfold State.modWg; split <;> rfl
@[simp] theorem State.modWg_msix (s : State) (k : Nat) (f : Workgroup → Workgroup) : (s.modWg k f).msix = s.msix := by unfold State.modWg; split <;> rfl
@[simp] theorem State.modWg_errors (s : State) (k : Nat) (f : Workgroup → Workgroup) : (s.modWg k f).errors = s.errors := by unfold State.modWg; split <;> rfl
@[simp] theorem State.modWg_agenda (s : State) (k : Nat) (f : Workgroup → Workgroup) : (s.modWg k f).agenda = s.agenda := by unfold State.modWg; split <;> rfl
@[simp] theorem State.modWg_cycle (s : State) (k : Nat) (f : Workgroup → Workgroup) : (s.modWg k f).cycle = s.cycle := by unfold State.modWg; split <;> rfl
@[simp] theorem State.modWg_free (s : State) (k : Nat) (f : Workgroup → Workgroup) : (s.modWg k f).free = s.free := by unfold State.modWg; split <;> rfl
@[simp] theorem State.modWg_issue (s : State) (k : Nat) (f : Workgroup → Workgroup) : (s.modWg k f).issue = s.issue := by unfold State.modWg; split <;> rfl
@[simp] theorem State.modWg_out (s : State) (k : Nat) (f : Workgroup → Workgroup) : (s.modWg k f).out = s.out := by unfold State.modWg; split <;> rfl

-- modPart

@[simp] theorem State.modPart_puts (s : State) (k c : Nat) (f : Part → Part) : (s.modPart k c f).puts = s.puts := State.modWg_puts ..
@[simp] theorem State.modPart_putDrops (s : State) (k c : Nat) (f : Part → Part) : (s.modPart k c f).putDrops = s.putDrops := State.modWg_putDrops ..
@[simp] theorem State.modPart_reed (s : State) (k c : Nat) (f : Part → Part) : (s.modPart k c f).reed = s.reed := State.modWg_reed ..
@[simp] theorem State.modPart_saved (s : State) (k c : Nat) (f : Part → Part) : (s.modPart k c f).saved = s.saved := State.modWg_saved ..
@[simp] theorem State.modPart_vacates (s : State) (k c : Nat) (f : Part → Part) : (s.modPart k c f).vacates = s.vacates := State.modWg_vacates ..
@[simp] theorem State.modPart_reserved (s : State) (k c : Nat) (f : Part → Part) : (s.modPart k c f).reserved = s.reserved := State.modWg_reserved ..
@[simp] theorem State.modPart_served (s : State) (k c : Nat) (f : Part → Part) : (s.modPart k c f).served = s.served := State.modWg_served ..
@[simp] theorem State.modPart_ring (s : State) (k c : Nat) (f : Part → Part) : (s.modPart k c f).ring = s.ring := State.modWg_ring ..
@[simp] theorem State.modPart_sched (s : State) (k c : Nat) (f : Part → Part) : (s.modPart k c f).sched = s.sched := State.modWg_sched ..
@[simp] theorem State.modPart_slots (s : State) (k c : Nat) (f : Part → Part) : (s.modPart k c f).slots = s.slots := State.modWg_slots ..
@[simp] theorem State.modPart_engines (s : State) (k c : Nat) (f : Part → Part) : (s.modPart k c f).engines = s.engines := State.modWg_engines ..
@[simp] theorem State.modPart_travs (s : State) (k c : Nat) (f : Part → Part) : (s.modPart k c f).travs = s.travs := State.modWg_travs ..
@[simp] theorem State.modPart_boot (s : State) (k c : Nat) (f : Part → Part) : (s.modPart k c f).boot = s.boot := State.modWg_boot ..
@[simp] theorem State.modPart_links (s : State) (k c : Nat) (f : Part → Part) : (s.modPart k c f).links = s.links := State.modWg_links ..
@[simp] theorem State.modPart_tlbInv (s : State) (k c : Nat) (f : Part → Part) : (s.modPart k c f).tlbInv = s.tlbInv := State.modWg_tlbInv ..
@[simp] theorem State.modPart_w0 (s : State) (k c : Nat) (f : Part → Part) : (s.modPart k c f).w0 = s.w0 := State.modWg_w0 ..
@[simp] theorem State.modPart_time (s : State) (k c : Nat) (f : Part → Part) : (s.modPart k c f).time = s.time := State.modWg_time ..
@[simp] theorem State.modPart_mon (s : State) (k c : Nat) (f : Part → Part) : (s.modPart k c f).mon = s.mon := State.modWg_mon ..
@[simp] theorem State.modPart_power (s : State) (k c : Nat) (f : Part → Part) : (s.modPart k c f).power = s.power := State.modWg_power ..
@[simp] theorem State.modPart_cores (s : State) (k c : Nat) (f : Part → Part) : (s.modPart k c f).cores = s.cores := State.modWg_cores ..
@[simp] theorem State.modPart_skeins (s : State) (k c : Nat) (f : Part → Part) : (s.modPart k c f).skeins = s.skeins := State.modWg_skeins ..
@[simp] theorem State.modPart_grids (s : State) (k c : Nat) (f : Part → Part) : (s.modPart k c f).grids = s.grids := State.modWg_grids ..
@[simp] theorem State.modPart_pending (s : State) (k c : Nat) (f : Part → Part) : (s.modPart k c f).pending = s.pending := State.modWg_pending ..
@[simp] theorem State.modPart_order (s : State) (k c : Nat) (f : Part → Part) : (s.modPart k c f).order = s.order := State.modWg_order ..
@[simp] theorem State.modPart_ctxs (s : State) (k c : Nat) (f : Part → Part) : (s.modPart k c f).ctxs = s.ctxs := State.modWg_ctxs ..
@[simp] theorem State.modPart_mem (s : State) (k c : Nat) (f : Part → Part) : (s.modPart k c f).mem = s.mem := State.modWg_mem ..
@[simp] theorem State.modPart_devq (s : State) (k c : Nat) (f : Part → Part) : (s.modPart k c f).devq = s.devq := State.modWg_devq ..
@[simp] theorem State.modPart_msix (s : State) (k c : Nat) (f : Part → Part) : (s.modPart k c f).msix = s.msix := State.modWg_msix ..
@[simp] theorem State.modPart_errors (s : State) (k c : Nat) (f : Part → Part) : (s.modPart k c f).errors = s.errors := State.modWg_errors ..
@[simp] theorem State.modPart_agenda (s : State) (k c : Nat) (f : Part → Part) : (s.modPart k c f).agenda = s.agenda := State.modWg_agenda ..
@[simp] theorem State.modPart_cycle (s : State) (k c : Nat) (f : Part → Part) : (s.modPart k c f).cycle = s.cycle := State.modWg_cycle ..
@[simp] theorem State.modPart_free (s : State) (k c : Nat) (f : Part → Part) : (s.modPart k c f).free = s.free := State.modWg_free ..
@[simp] theorem State.modPart_issue (s : State) (k c : Nat) (f : Part → Part) : (s.modPart k c f).issue = s.issue := State.modWg_issue ..
@[simp] theorem State.modPart_out (s : State) (k c : Nat) (f : Part → Part) : (s.modPart k c f).out = s.out := State.modWg_out ..

-- hostPut

@[simp] theorem State.hostPut_puts (s : State) (a : Nat) (bs : List Byte) : (s.hostPut a bs).puts = s.puts := rfl
@[simp] theorem State.hostPut_putDrops (s : State) (a : Nat) (bs : List Byte) : (s.hostPut a bs).putDrops = s.putDrops := rfl
@[simp] theorem State.hostPut_reed (s : State) (a : Nat) (bs : List Byte) : (s.hostPut a bs).reed = s.reed := rfl
@[simp] theorem State.hostPut_saved (s : State) (a : Nat) (bs : List Byte) : (s.hostPut a bs).saved = s.saved := rfl
@[simp] theorem State.hostPut_vacates (s : State) (a : Nat) (bs : List Byte) : (s.hostPut a bs).vacates = s.vacates := rfl
@[simp] theorem State.hostPut_reserved (s : State) (a : Nat) (bs : List Byte) : (s.hostPut a bs).reserved = s.reserved := rfl
@[simp] theorem State.hostPut_served (s : State) (a : Nat) (bs : List Byte) : (s.hostPut a bs).served = s.served := rfl
@[simp] theorem State.hostPut_ring (s : State) (a : Nat) (bs : List Byte) : (s.hostPut a bs).ring = s.ring := rfl
@[simp] theorem State.hostPut_sched (s : State) (a : Nat) (bs : List Byte) : (s.hostPut a bs).sched = s.sched := rfl
@[simp] theorem State.hostPut_slots (s : State) (a : Nat) (bs : List Byte) : (s.hostPut a bs).slots = s.slots := rfl
@[simp] theorem State.hostPut_engines (s : State) (a : Nat) (bs : List Byte) : (s.hostPut a bs).engines = s.engines := rfl
@[simp] theorem State.hostPut_travs (s : State) (a : Nat) (bs : List Byte) : (s.hostPut a bs).travs = s.travs := rfl
@[simp] theorem State.hostPut_boot (s : State) (a : Nat) (bs : List Byte) : (s.hostPut a bs).boot = s.boot := rfl
@[simp] theorem State.hostPut_links (s : State) (a : Nat) (bs : List Byte) : (s.hostPut a bs).links = s.links := rfl
@[simp] theorem State.hostPut_tlbInv (s : State) (a : Nat) (bs : List Byte) : (s.hostPut a bs).tlbInv = s.tlbInv := rfl
@[simp] theorem State.hostPut_w0 (s : State) (a : Nat) (bs : List Byte) : (s.hostPut a bs).w0 = s.w0 := rfl
@[simp] theorem State.hostPut_time (s : State) (a : Nat) (bs : List Byte) : (s.hostPut a bs).time = s.time := rfl
@[simp] theorem State.hostPut_mon (s : State) (a : Nat) (bs : List Byte) : (s.hostPut a bs).mon = s.mon := rfl
@[simp] theorem State.hostPut_power (s : State) (a : Nat) (bs : List Byte) : (s.hostPut a bs).power = s.power := rfl
@[simp] theorem State.hostPut_cores (s : State) (a : Nat) (bs : List Byte) : (s.hostPut a bs).cores = s.cores := rfl
@[simp] theorem State.hostPut_skeins (s : State) (a : Nat) (bs : List Byte) : (s.hostPut a bs).skeins = s.skeins := rfl
@[simp] theorem State.hostPut_wgs (s : State) (a : Nat) (bs : List Byte) : (s.hostPut a bs).wgs = s.wgs := rfl
@[simp] theorem State.hostPut_grids (s : State) (a : Nat) (bs : List Byte) : (s.hostPut a bs).grids = s.grids := rfl
@[simp] theorem State.hostPut_pending (s : State) (a : Nat) (bs : List Byte) : (s.hostPut a bs).pending = s.pending := rfl
@[simp] theorem State.hostPut_order (s : State) (a : Nat) (bs : List Byte) : (s.hostPut a bs).order = s.order := rfl
@[simp] theorem State.hostPut_ctxs (s : State) (a : Nat) (bs : List Byte) : (s.hostPut a bs).ctxs = s.ctxs := rfl
@[simp] theorem State.hostPut_devq (s : State) (a : Nat) (bs : List Byte) : (s.hostPut a bs).devq = s.devq := rfl
@[simp] theorem State.hostPut_msix (s : State) (a : Nat) (bs : List Byte) : (s.hostPut a bs).msix = s.msix := rfl
@[simp] theorem State.hostPut_errors (s : State) (a : Nat) (bs : List Byte) : (s.hostPut a bs).errors = s.errors := rfl
@[simp] theorem State.hostPut_agenda (s : State) (a : Nat) (bs : List Byte) : (s.hostPut a bs).agenda = s.agenda := rfl
@[simp] theorem State.hostPut_cycle (s : State) (a : Nat) (bs : List Byte) : (s.hostPut a bs).cycle = s.cycle := rfl
@[simp] theorem State.hostPut_free (s : State) (a : Nat) (bs : List Byte) : (s.hostPut a bs).free = s.free := rfl
@[simp] theorem State.hostPut_issue (s : State) (a : Nat) (bs : List Byte) : (s.hostPut a bs).issue = s.issue := rfl
@[simp] theorem State.hostPut_out (s : State) (a : Nat) (bs : List Byte) : (s.hostPut a bs).out = s.out := rfl

-- countDev

@[simp] theorem State.countDev_puts (s : State) (i n : Nat) : (s.countDev i n).puts = s.puts := rfl
@[simp] theorem State.countDev_putDrops (s : State) (i n : Nat) : (s.countDev i n).putDrops = s.putDrops := rfl
@[simp] theorem State.countDev_reed (s : State) (i n : Nat) : (s.countDev i n).reed = s.reed := rfl
@[simp] theorem State.countDev_saved (s : State) (i n : Nat) : (s.countDev i n).saved = s.saved := rfl
@[simp] theorem State.countDev_vacates (s : State) (i n : Nat) : (s.countDev i n).vacates = s.vacates := rfl
@[simp] theorem State.countDev_reserved (s : State) (i n : Nat) : (s.countDev i n).reserved = s.reserved := rfl
@[simp] theorem State.countDev_served (s : State) (i n : Nat) : (s.countDev i n).served = s.served := rfl
@[simp] theorem State.countDev_ring (s : State) (i n : Nat) : (s.countDev i n).ring = s.ring := rfl
@[simp] theorem State.countDev_sched (s : State) (i n : Nat) : (s.countDev i n).sched = s.sched := rfl
@[simp] theorem State.countDev_slots (s : State) (i n : Nat) : (s.countDev i n).slots = s.slots := rfl
@[simp] theorem State.countDev_engines (s : State) (i n : Nat) : (s.countDev i n).engines = s.engines := rfl
@[simp] theorem State.countDev_travs (s : State) (i n : Nat) : (s.countDev i n).travs = s.travs := rfl
@[simp] theorem State.countDev_boot (s : State) (i n : Nat) : (s.countDev i n).boot = s.boot := rfl
@[simp] theorem State.countDev_links (s : State) (i n : Nat) : (s.countDev i n).links = s.links := rfl
@[simp] theorem State.countDev_tlbInv (s : State) (i n : Nat) : (s.countDev i n).tlbInv = s.tlbInv := rfl
@[simp] theorem State.countDev_w0 (s : State) (i n : Nat) : (s.countDev i n).w0 = s.w0 := rfl
@[simp] theorem State.countDev_time (s : State) (i n : Nat) : (s.countDev i n).time = s.time := rfl
@[simp] theorem State.countDev_mon (s : State) (i n : Nat) : (s.countDev i n).mon = s.mon := rfl
@[simp] theorem State.countDev_power (s : State) (i n : Nat) : (s.countDev i n).power = s.power := rfl
@[simp] theorem State.countDev_cores (s : State) (i n : Nat) : (s.countDev i n).cores = s.cores := rfl
@[simp] theorem State.countDev_skeins (s : State) (i n : Nat) : (s.countDev i n).skeins = s.skeins := rfl
@[simp] theorem State.countDev_wgs (s : State) (i n : Nat) : (s.countDev i n).wgs = s.wgs := rfl
@[simp] theorem State.countDev_grids (s : State) (i n : Nat) : (s.countDev i n).grids = s.grids := rfl
@[simp] theorem State.countDev_pending (s : State) (i n : Nat) : (s.countDev i n).pending = s.pending := rfl
@[simp] theorem State.countDev_order (s : State) (i n : Nat) : (s.countDev i n).order = s.order := rfl
@[simp] theorem State.countDev_ctxs (s : State) (i n : Nat) : (s.countDev i n).ctxs = s.ctxs := rfl
@[simp] theorem State.countDev_mem (s : State) (i n : Nat) : (s.countDev i n).mem = s.mem := rfl
@[simp] theorem State.countDev_devq (s : State) (i n : Nat) : (s.countDev i n).devq = s.devq := rfl
@[simp] theorem State.countDev_msix (s : State) (i n : Nat) : (s.countDev i n).msix = s.msix := rfl
@[simp] theorem State.countDev_agenda (s : State) (i n : Nat) : (s.countDev i n).agenda = s.agenda := rfl
@[simp] theorem State.countDev_cycle (s : State) (i n : Nat) : (s.countDev i n).cycle = s.cycle := rfl
@[simp] theorem State.countDev_free (s : State) (i n : Nat) : (s.countDev i n).free = s.free := rfl
@[simp] theorem State.countDev_issue (s : State) (i n : Nat) : (s.countDev i n).issue = s.issue := rfl
@[simp] theorem State.countDev_out (s : State) (i n : Nat) : (s.countDev i n).out = s.out := rfl

-- count

@[simp] theorem State.count_puts (s : State) (c i n : Nat) : (s.count c i n).puts = s.puts := rfl
@[simp] theorem State.count_putDrops (s : State) (c i n : Nat) : (s.count c i n).putDrops = s.putDrops := rfl
@[simp] theorem State.count_reed (s : State) (c i n : Nat) : (s.count c i n).reed = s.reed := rfl
@[simp] theorem State.count_saved (s : State) (c i n : Nat) : (s.count c i n).saved = s.saved := rfl
@[simp] theorem State.count_vacates (s : State) (c i n : Nat) : (s.count c i n).vacates = s.vacates := rfl
@[simp] theorem State.count_reserved (s : State) (c i n : Nat) : (s.count c i n).reserved = s.reserved := rfl
@[simp] theorem State.count_served (s : State) (c i n : Nat) : (s.count c i n).served = s.served := rfl
@[simp] theorem State.count_ring (s : State) (c i n : Nat) : (s.count c i n).ring = s.ring := rfl
@[simp] theorem State.count_sched (s : State) (c i n : Nat) : (s.count c i n).sched = s.sched := rfl
@[simp] theorem State.count_slots (s : State) (c i n : Nat) : (s.count c i n).slots = s.slots := rfl
@[simp] theorem State.count_engines (s : State) (c i n : Nat) : (s.count c i n).engines = s.engines := rfl
@[simp] theorem State.count_travs (s : State) (c i n : Nat) : (s.count c i n).travs = s.travs := rfl
@[simp] theorem State.count_boot (s : State) (c i n : Nat) : (s.count c i n).boot = s.boot := rfl
@[simp] theorem State.count_links (s : State) (c i n : Nat) : (s.count c i n).links = s.links := rfl
@[simp] theorem State.count_tlbInv (s : State) (c i n : Nat) : (s.count c i n).tlbInv = s.tlbInv := rfl
@[simp] theorem State.count_w0 (s : State) (c i n : Nat) : (s.count c i n).w0 = s.w0 := rfl
@[simp] theorem State.count_time (s : State) (c i n : Nat) : (s.count c i n).time = s.time := rfl
@[simp] theorem State.count_mon (s : State) (c i n : Nat) : (s.count c i n).mon = s.mon := rfl
@[simp] theorem State.count_power (s : State) (c i n : Nat) : (s.count c i n).power = s.power := rfl
@[simp] theorem State.count_cores (s : State) (c i n : Nat) : (s.count c i n).cores = s.cores := rfl
@[simp] theorem State.count_skeins (s : State) (c i n : Nat) : (s.count c i n).skeins = s.skeins := rfl
@[simp] theorem State.count_wgs (s : State) (c i n : Nat) : (s.count c i n).wgs = s.wgs := rfl
@[simp] theorem State.count_grids (s : State) (c i n : Nat) : (s.count c i n).grids = s.grids := rfl
@[simp] theorem State.count_pending (s : State) (c i n : Nat) : (s.count c i n).pending = s.pending := rfl
@[simp] theorem State.count_order (s : State) (c i n : Nat) : (s.count c i n).order = s.order := rfl
@[simp] theorem State.count_mem (s : State) (c i n : Nat) : (s.count c i n).mem = s.mem := rfl
@[simp] theorem State.count_devq (s : State) (c i n : Nat) : (s.count c i n).devq = s.devq := rfl
@[simp] theorem State.count_msix (s : State) (c i n : Nat) : (s.count c i n).msix = s.msix := rfl
@[simp] theorem State.count_agenda (s : State) (c i n : Nat) : (s.count c i n).agenda = s.agenda := rfl
@[simp] theorem State.count_cycle (s : State) (c i n : Nat) : (s.count c i n).cycle = s.cycle := rfl
@[simp] theorem State.count_free (s : State) (c i n : Nat) : (s.count c i n).free = s.free := rfl
@[simp] theorem State.count_issue (s : State) (c i n : Nat) : (s.count c i n).issue = s.issue := rfl
@[simp] theorem State.count_out (s : State) (c i n : Nat) : (s.count c i n).out = s.out := rfl

-- pass

@[simp] theorem State.pass_puts (s : State) (c t : Nat) : (s.pass c t).puts = s.puts := rfl
@[simp] theorem State.pass_putDrops (s : State) (c t : Nat) : (s.pass c t).putDrops = s.putDrops := rfl
@[simp] theorem State.pass_reed (s : State) (c t : Nat) : (s.pass c t).reed = s.reed := rfl
@[simp] theorem State.pass_saved (s : State) (c t : Nat) : (s.pass c t).saved = s.saved := rfl
@[simp] theorem State.pass_vacates (s : State) (c t : Nat) : (s.pass c t).vacates = s.vacates := rfl
@[simp] theorem State.pass_reserved (s : State) (c t : Nat) : (s.pass c t).reserved = s.reserved := rfl
@[simp] theorem State.pass_served (s : State) (c t : Nat) : (s.pass c t).served = s.served := rfl
@[simp] theorem State.pass_ring (s : State) (c t : Nat) : (s.pass c t).ring = s.ring := rfl
@[simp] theorem State.pass_sched (s : State) (c t : Nat) : (s.pass c t).sched = s.sched := rfl
@[simp] theorem State.pass_slots (s : State) (c t : Nat) : (s.pass c t).slots = s.slots := rfl
@[simp] theorem State.pass_engines (s : State) (c t : Nat) : (s.pass c t).engines = s.engines := rfl
@[simp] theorem State.pass_travs (s : State) (c t : Nat) : (s.pass c t).travs = s.travs := rfl
@[simp] theorem State.pass_boot (s : State) (c t : Nat) : (s.pass c t).boot = s.boot := rfl
@[simp] theorem State.pass_links (s : State) (c t : Nat) : (s.pass c t).links = s.links := rfl
@[simp] theorem State.pass_tlbInv (s : State) (c t : Nat) : (s.pass c t).tlbInv = s.tlbInv := rfl
@[simp] theorem State.pass_w0 (s : State) (c t : Nat) : (s.pass c t).w0 = s.w0 := rfl
@[simp] theorem State.pass_mon (s : State) (c t : Nat) : (s.pass c t).mon = s.mon := rfl
@[simp] theorem State.pass_power (s : State) (c t : Nat) : (s.pass c t).power = s.power := rfl
@[simp] theorem State.pass_cores (s : State) (c t : Nat) : (s.pass c t).cores = s.cores := rfl
@[simp] theorem State.pass_skeins (s : State) (c t : Nat) : (s.pass c t).skeins = s.skeins := rfl
@[simp] theorem State.pass_wgs (s : State) (c t : Nat) : (s.pass c t).wgs = s.wgs := rfl
@[simp] theorem State.pass_grids (s : State) (c t : Nat) : (s.pass c t).grids = s.grids := rfl
@[simp] theorem State.pass_pending (s : State) (c t : Nat) : (s.pass c t).pending = s.pending := rfl
@[simp] theorem State.pass_order (s : State) (c t : Nat) : (s.pass c t).order = s.order := rfl
@[simp] theorem State.pass_ctxs (s : State) (c t : Nat) : (s.pass c t).ctxs = s.ctxs := rfl
@[simp] theorem State.pass_mem (s : State) (c t : Nat) : (s.pass c t).mem = s.mem := rfl
@[simp] theorem State.pass_devq (s : State) (c t : Nat) : (s.pass c t).devq = s.devq := rfl
@[simp] theorem State.pass_msix (s : State) (c t : Nat) : (s.pass c t).msix = s.msix := rfl
@[simp] theorem State.pass_errors (s : State) (c t : Nat) : (s.pass c t).errors = s.errors := rfl
@[simp] theorem State.pass_agenda (s : State) (c t : Nat) : (s.pass c t).agenda = s.agenda := rfl
@[simp] theorem State.pass_free (s : State) (c t : Nat) : (s.pass c t).free = s.free := rfl
@[simp] theorem State.pass_issue (s : State) (c t : Nat) : (s.pass c t).issue = s.issue := rfl
@[simp] theorem State.pass_out (s : State) (c t : Nat) : (s.pass c t).out = s.out := rfl

-- ACCESSORS

theorem State.core_setCore (s : State) (c d : Nat) (x : Core) : (s.setCore c x).core d = if d = c then x else s.core d :=
  lookD_set ({} : Core) s.cores c d x

theorem State.core_modCore (s : State) (c d : Nat) (f : Core → Core) :
    (s.modCore c f).core d = if d = c then f (s.core c) else s.core d := lookD_set ({} : Core) s.cores c d _

theorem State.skein_setSkein (s : State) (c l d m : Nat) (k : Skein) :
    (s.setSkein c l k).skein d m = if slotKey d m = slotKey c l then some k else s.skein d m := look_ins _ _ _ _

theorem State.skein_modSkein (s : State) (c l d m : Nat) (f : Skein → Skein) :
    (s.modSkein c l f).skein d m = if slotKey d m = slotKey c l then (s.skein c l).map f else s.skein d m := by
  unfold State.modSkein
  split
  · rename_i h; split
    · rename_i h'; simp only [State.skein, h'] at h ⊢; simp [h]
    · rfl
  · rename_i k h; rw [State.skein_setSkein, h]; rfl

@[simp] theorem State.skein_modSkein_self (s : State) (c l : Nat) (f : Skein → Skein) :
    (s.modSkein c l f).skein c l = (s.skein c l).map f := by simp [State.skein_modSkein]

theorem State.skein_modThread (s : State) (c l t d m : Nat) (f : Thread → Thread) :
    (s.modThread c l t f).skein d m =
      if slotKey d m = slotKey c l then (s.skein c l).map fun k => { k with threads := modAt t f k.threads }
      else s.skein d m := State.skein_modSkein ..

@[simp] theorem State.skein_modThread_self (s : State) (c l t : Nat) (f : Thread → Thread) :
    (s.modThread c l t f).skein c l = (s.skein c l).map fun k => { k with threads := modAt t f k.threads } := by
  simp [State.skein_modThread]

theorem State.ctx_modCtx (s : State) (c d : Nat) (f : Context → Context) :
    (s.modCtx c f).ctx d = if d = c then f (s.ctx c) else s.ctx d := lookD_set ({} : Context) s.ctxs c d _

@[simp] theorem State.skein_modCore (s : State) (c d m : Nat) (f : Core → Core) : (s.modCore c f).skein d m = s.skein d m := rfl

@[simp] theorem State.core_modSkein (s : State) (c l d : Nat) (f : Skein → Skein) :
    (s.modSkein c l f).core d = s.core d := by simp [State.core]

@[simp] theorem State.core_modThread (s : State) (c l t d : Nat) (f : Thread → Thread) :
    (s.modThread c l t f).core d = s.core d := by simp [State.core]

@[simp] theorem State.core_setSkein (s : State) (c l d : Nat) (k : Skein) : (s.setSkein c l k).core d = s.core d := rfl

theorem State.modSkein_of_none (s : State) (c l : Nat) (f : Skein → Skein) (h : s.skein c l = none) :
    s.modSkein c l f = s := by unfold State.modSkein; rw [h]

theorem State.modSkein_of_some (s : State) (c l : Nat) (f : Skein → Skein) (k : Skein) (h : s.skein c l = some k) :
    s.modSkein c l f = s.setSkein c l (f k) := by unfold State.modSkein; rw [h]

theorem State.setSkein_setSkein (s : State) (c l : Nat) (k j : Skein) :
    (s.setSkein c l k).setSkein c l j = s.setSkein c l j := by
  unfold State.setSkein; rw [ins_ins]

theorem State.modSkein_setSkein (s : State) (c l : Nat) (k : Skein) (f : Skein → Skein) :
    (s.setSkein c l k).modSkein c l f = s.setSkein c l (f k) := by
  rw [State.modSkein_of_some _ _ _ _ k (by rw [State.skein_setSkein, if_pos rfl]), State.setSkein_setSkein]

theorem State.modSkein_modSkein (s : State) (c l : Nat) (f g : Skein → Skein) :
    (s.modSkein c l f).modSkein c l g = s.modSkein c l fun k => g (f k) := by
  cases h : s.skein c l with
  | none => rw [s.modSkein_of_none _ _ _ h, s.modSkein_of_none _ _ _ h, s.modSkein_of_none _ _ _ h]
  | some k => rw [s.modSkein_of_some _ _ _ k h, s.modSkein_of_some _ _ _ k h, State.modSkein_setSkein]

-- LISTS OF THREADS

@[simp] theorem length_modAt {α : Type} (i : Nat) (f : α → α) (l : List α) : (modAt i f l).length = l.length := by
  induction l generalizing i with
  | nil => simp [modAt]
  | cons x r ih => cases i <;> simp [modAt, ih]

theorem modAt_modAt {α : Type} (i : Nat) (f g : α → α) (l : List α) : modAt i g (modAt i f l) = modAt i (fun x => g (f x)) l := by
  induction l generalizing i with
  | nil => simp [modAt]
  | cons x r ih => cases i <;> simp [modAt, ih]

theorem modAt_congr (i : Nat) (f g : Thread → Thread) (l : List Thread) (h : f (laneOf l i) = g (laneOf l i)) :
    modAt i f l = modAt i g l := by
  induction l generalizing i with
  | nil => simp [modAt]
  | cons x r ih =>
    cases i with
    | zero => simp only [laneOf, List.getD_cons_zero] at h; simp [modAt, h]
    | succ j => simp only [laneOf, List.getD_cons_succ] at h; simp [modAt, ih j h]

theorem getElem?_modAt {α : Type} (i j : Nat) (f : α → α) (l : List α) :
    (modAt i f l)[j]? = if j = i then (l[j]?).map f else l[j]? := by
  induction l generalizing i j with
  | nil => simp [modAt]
  | cons x r ih => cases i <;> cases j <;> simp [modAt, ih]

theorem laneOf_modAt (i j : Nat) (f : Thread → Thread) (l : List Thread) (h : i < l.length) :
    laneOf (modAt i f l) j = if j = i then f (laneOf l i) else laneOf l j := by
  unfold laneOf
  rw [List.getD_eq_getElem?_getD, List.getD_eq_getElem?_getD, List.getD_eq_getElem?_getD, getElem?_modAt]
  split
  · subst j; simp [h]
  · rfl

end Sys2Proof.Machine
end

