-- ==== Sys2Proof/Laws/Mem.lean ====
section
/-! SUPPORT. What an access to memory can change, said once for each operation of Machine/Mem.lean and Machine/Ops.lean: caches, TLBs,
write-throughs, memory, the free-page queues and the events that they raise; no thread, skein, workgroup or grid. -/

namespace Sys2Proof.Machine

theorem State.memOnly.refl (s : State) : s.memOnly s := ⟨rfl, fun _ => rfl, fun _ => rfl⟩

theorem State.memOnly.trans {s t u : State} (h : s.memOnly t) (h' : t.memOnly u) : s.memOnly u := by
  obtain ⟨a1, a2, a3⟩ := h
  obtain ⟨b1, b2, b3⟩ := h'
  refine ⟨?_, fun c => ?_, fun c => ?_⟩
  · rw [← a1]; conv_rhs => rw [← b1]
  · rw [← a2 c]; conv_rhs => rw [← b2 c]
  · rw [← a3 c]; conv_rhs => rw [← b3 c]

theorem State.memOnly.skeins {s t : State} (h : s.memOnly t) : t.skeins = s.skeins := by rw [← h.1]
theorem State.memOnly.wgs {s t : State} (h : s.memOnly t) : t.wgs = s.wgs := by rw [← h.1]
theorem State.memOnly.grids {s t : State} (h : s.memOnly t) : t.grids = s.grids := by rw [← h.1]
theorem State.memOnly.cycle {s t : State} (h : s.memOnly t) : t.cycle = s.cycle := by rw [← h.1]
theorem State.memOnly.issue {s t : State} (h : s.memOnly t) : t.issue = s.issue := by rw [← h.1]
theorem State.memOnly.var {s t : State} (h : s.memOnly t) (c : Nat) : (t.ctx c).var = (s.ctx c).var := by rw [← h.2.2 c]
theorem State.memOnly.fix {s t : State} (h : s.memOnly t) (c : Nat) : (t.ctx c).fix = (s.ctx c).fix := by rw [← h.2.2 c]
theorem State.memOnly.skein {s t : State} (h : s.memOnly t) (c l : Nat) : t.skein c l = s.skein c l := by
  unfold State.skein; rw [h.skeins]
theorem State.memOnly.wg {s t : State} (h : s.memOnly t) (k : Nat) : t.wg k = s.wg k := by unfold State.wg; rw [h.wgs]

/-- A change of the memories, the vectors, the messages sent and the free choices alone. -/
theorem State.memOnly.stores {s t : State} (h : s.memOnly t) (m : Memory) (x : MsiX) (o : List OutMsg) (n : Nat) :
    s.memOnly { t with mem := m, msix := x, out := o, free := n } := ⟨h.1, h.2.1, h.2.2⟩

/-- A change of a core's caches alone. -/
theorem State.memOnly.caches {s t : State} (h : s.memOnly t) (c : Nat) (f : Core → Core)
    (hf : ∀ x, { f x with l1 := x.l1, tlb := x.tlb, icache := x.icache, wt := x.wt, predictor := x.predictor } = x) :
    s.memOnly (t.modCore c f) := by
  refine h.trans ⟨rfl, fun d => ?_, fun _ => rfl⟩
  rw [State.core_modCore]
  split
  · subst d; exact hf _
  · rfl

/-- A change of a context's free-page queue and events alone. -/
theorem State.memOnly.queues {s t : State} (h : s.memOnly t) (c : Nat) (f : Context → Context)
    (hf : ∀ x, { f x with freeHead := x.freeHead, freeCount := x.freeCount, ev := x.ev } = x) :
    s.memOnly (t.modCtx c f) := by
  refine h.trans ⟨rfl, fun _ => rfl, fun d => ?_⟩
  rw [State.ctx_modCtx]
  split
  · subst d; exact hf _
  · rfl

theorem State.memOnly.fold {α : Type} {s : State} (f : State → α → State) (hf : ∀ t a, s.memOnly t → s.memOnly (f t a)) :
    ∀ (l : List α) (t : State), s.memOnly t → s.memOnly (l.foldl f t)
  | [], _, h => h
  | a :: r, t, h => State.memOnly.fold f hf r (f t a) (hf t a h)

/-- The state beside a result. -/
theorem State.memOnly.beside {α : Type} {s u : State} {r : State × α} {a : α} (e : r = (u, a)) (h : s.memOnly r.1) :
    s.memOnly u := by rw [e] at h; exact h

variable {s t : State}

theorem State.memOnly.choose (h : s.memOnly t) : s.memOnly t.choose.2 := h.stores t.mem t.msix t.out _

theorem State.memOnly.pick (h : s.memOnly t) (n : Nat) : s.memOnly (t.pick n).2 := h.choose

theorem State.memOnly.dropOne {α : Type} (h : s.memOnly t) (l : List α) : s.memOnly (t.dropOne l).2 := h.choose

theorem State.memOnly.freed (h : s.memOnly t) : s.memOnly { t with free := t.free + 1 } := h.choose

theorem State.memOnly.homePut (h : s.memOnly t) (a : Nat) (bs : List Byte) (bad : List Nat) : s.memOnly (t.homePut a bs bad) :=
  h.stores _ t.msix t.out t.free

theorem State.memOnly.hostPut (h : s.memOnly t) (a : Nat) (bs : List Byte) : s.memOnly (t.hostPut a bs) :=
  h.stores _ t.msix t.out t.free

theorem State.memOnly.evict (h : s.memOnly t) (c line : Nat) : s.memOnly (t.evict c line) := by
  unfold State.evict
  split
  · exact h
  · dsimp only
    split
    · exact (h.homePut ..).caches _ _ (by intro _; rfl)
    · exact h.caches _ _ (by intro _; rfl)

theorem State.memOnly.clean (h : s.memOnly t) (c line : Nat) : s.memOnly (t.clean c line) := by
  unfold State.clean
  repeat' split
  · exact h
  · exact (h.homePut ..).caches _ _ (by intro _; rfl)
  · exact h

theorem State.memOnly.recall (h : s.memOnly t) (line : Nat) (by_ : Option Nat) : s.memOnly (t.recall line by_) := by
  unfold State.recall
  refine State.memOnly.fold _ (fun t c h => ?_) _ _ h
  repeat' split
  all_goals first | exact h | exact h.evict ..

theorem State.memOnly.recallRange (h : s.memOnly t) (a n : Nat) (by_ : Option Nat) : s.memOnly (t.recallRange a n by_) :=
  State.memOnly.fold _ (fun _ _ h => h.recall ..) _ _ h

theorem State.memOnly.homeRead (h : s.memOnly t) (a n : Nat) (by_ : Option Nat) : s.memOnly (t.homeRead a n by_).1 :=
  h.recallRange ..

theorem State.memOnly.homeWrite (h : s.memOnly t) (a : Nat) (bs : List Byte) (bad : List Nat) (by_ : Option Nat) :
    s.memOnly (t.homeWrite a bs bad by_) := (h.recallRange ..).homePut ..

theorem State.memOnly.l1Room (h : s.memOnly t) (c line : Nat) : s.memOnly (t.l1Room c line) := by
  unfold State.l1Room
  dsimp only
  split
  · exact h
  · exact (h.pick _).evict ..

theorem State.memOnly.fill (h : s.memOnly t) (c line : Nat) (d : Bool) : s.memOnly (t.fill c line d) := by
  unfold State.fill
  dsimp only
  split
  · exact ((h.l1Room ..).homeRead ..).caches _ _ (by intro _; rfl)
  · exact State.memOnly.caches (((h.l1Room ..).homeRead ..).stores _ _ _ _) _ _ (by intro _; rfl)

theorem State.memOnly.l1Settle (h : s.memOnly t) (c line : Nat) : s.memOnly (t.l1Settle c line) := by
  unfold State.l1Settle
  split
  · exact h
  · dsimp only
    split
    · exact h.choose
    · exact h.choose.evict ..

theorem State.memOnly.l1Load (h : s.memOnly t) (c a n : Nat) : s.memOnly (t.l1Load c a n).1 := by
  unfold State.l1Load
  dsimp only
  split
  · exact (h.l1Settle ..).fill ..
  · exact h.l1Settle ..

theorem State.memOnly.homeLoad (h : s.memOnly t) (c a n : Nat) : s.memOnly (t.homeLoad c a n).1 := by
  unfold State.homeLoad
  dsimp only
  repeat' split
  all_goals first | exact h | exact h.homeRead ..

theorem State.memOnly.l1Store (h : s.memOnly t) (c x a : Nat) (bs : List Byte) (p : Bool) :
    s.memOnly (t.l1Store c x a bs p) := by
  unfold State.l1Store
  dsimp only
  repeat' first
    | with_reducible exact h
    | with_reducible refine State.memOnly.caches ?_ _ _ ?_
    | with_reducible refine State.memOnly.fill ?_ _ _ _
    | (intro _; rfl)
    | split

theorem State.memOnly.performThrough (h : s.memOnly t) (c k : Nat) : s.memOnly (t.performThrough c k) := by
  unfold State.performThrough
  split
  · exact h
  · exact (h.homeWrite ..).caches _ _ (by intro _; rfl)

theorem State.memOnly.drainThrough (h : s.memOnly t) (c : Nat) : s.memOnly (t.drainThrough c) :=
  State.memOnly.fold _ (fun _ _ h => h.performThrough ..) _ _ h

theorem State.memOnly.cleanPrivate (h : s.memOnly t) (c : Nat) : s.memOnly (t.cleanPrivate c) :=
  State.memOnly.fold _ (fun _ _ h => h.clean ..) _ _ h

-- EVENTS

theorem State.memOnly.msi (h : s.memOnly t) (g : Nat) : s.memOnly (t.msi g) := by
  unfold State.msi
  split
  · exact h.stores t.mem _ t.out t.free
  · exact h.stores t.mem t.msix _ t.free

theorem State.memOnly.ringEvent (h : s.memOnly t) (c : Nat) (e : Event) : s.memOnly (t.ringEvent c e) := by
  unfold State.ringEvent
  dsimp only
  have h1 := (h.hostPut ((t.ctx c).fix.evBase + 64 * ((t.ctx c).ev.wr % 2 ^ (t.ctx c).fix.evSize)) e.bytes).queues c
    (fun x => { x with ev := { x.ev with wr := (x.ev.wr + 1) % 2 ^ 32 } }) (by intro _; rfl)
  split
  · exact h1.msi _
  · exact h1

theorem State.memOnly.post (h : s.memOnly t) (c : Nat) (d : Bool) (e : Event) : s.memOnly (t.post c d e) := by
  unfold State.post
  dsimp only
  repeat' split
  · exact (h.queues _ _ (by intro _; rfl)).ringEvent ..
  · exact (h.queues _ _ (by intro _; rfl)).queues _ _ (by intro _; rfl)
  · exact h.queues _ _ (by intro _; rfl)
  · exact (h.queues _ _ (by intro _; rfl)).queues _ _ (by intro _; rfl)

-- TRANSLATION

theorem State.memOnly.pte (h : s.memOnly t) (a : Nat) : s.memOnly (t.pte a).1 := h.homeRead ..

theorem State.memOnly.walkFrom (va : Nat) : ∀ (l : List (Nat × Nat × Nat)) (a : Nat) (t : State), s.memOnly t →
    s.memOnly (walkFrom va l a t).1
  | [], _, _, h => h
  | (level, lo, n) :: r, table, t, h => by
    unfold Machine.walkFrom
    dsimp only
    split
    · exact h
    · have h1 := h.pte (table - table % (8 * 2 ^ n) + 8 * bits va lo n)
      split
      · rename_i e; rw [e] at h1; exact h1
      · rename_i e; rw [e] at h1
        repeat' split
        all_goals first | exact h1 | exact State.memOnly.walkFrom va r _ _ h1

theorem State.memOnly.takeFrame (h : s.memOnly t) (c p : Nat) (u : State) (hu : t.takeFrame c = some (p, u)) :
    s.memOnly u := by
  unfold State.takeFrame at hu
  dsimp only at hu
  split at hu
  · exact absurd hu (by simp)
  · simp only [Option.some.injEq, Prod.mk.injEq] at hu
    obtain ⟨-, rfl⟩ := hu
    split
    · exact (h.queues _ _ (by intro _; rfl)).post ..
    · exact h.queues _ _ (by intro _; rfl)

theorem State.memOnly.dropTlb (h : s.memOnly t) (asid lo n : Nat) (all : Bool) : s.memOnly (t.dropTlb asid lo n all) := by
  unfold State.dropTlb
  exact State.memOnly.fold _ (fun _ _ h => h.caches _ _ (by intro _; rfl)) _ _ h

theorem State.memOnly.dropPageLines (h : s.memOnly t) (a : Nat) : s.memOnly (t.dropPageLines a) := by
  unfold State.dropPageLines
  dsimp only
  refine State.memOnly.stores ?_ _ _ _ _
  exact State.memOnly.fold _ (fun _ _ h => h.caches _ _ (by intro _; rfl)) _ _ h

theorem State.memOnly.copyPage (h : s.memOnly t) (a b : Nat) : s.memOnly (t.copyPage a b) := (h.homeRead ..).homeWrite ..

theorem State.memOnly.cow (h : s.memOnly t) (c va : Nat) (l : Leaf) (copy : Bool) (u : State)
    (hu : t.cow c va l copy = .ok u) : s.memOnly u := by
  unfold State.cow at hu
  dsimp only at hu
  have h0 := h.recallRange (4096 * bits l.pte 12 40) 4096 none
  repeat' split at hu
  all_goals simp only [Except.ok.injEq, reduceCtorEq] at hu
  all_goals subst hu
  all_goals
    repeat' first
      | with_reducible exact h0
      | with_reducible exact h0.takeFrame _ _ _ (by assumption)
      | with_reducible apply State.memOnly.dropTlb
      | with_reducible apply State.memOnly.homeWrite
      | with_reducible apply State.memOnly.dropPageLines
      | with_reducible apply State.memOnly.copyPage
      | split

theorem State.memOnly.walkOnly (h : s.memOnly t) (c va : Nat) (acc : AccKind) (user : Bool) :
    s.memOnly (t.walkOnly c va acc user).1 := by
  have h1 := State.memOnly.walkFrom va walkLevels (t.ctx c).fix.root t h
  unfold State.walkOnly
  repeat' first
    | with_reducible exact h1
    | refine State.memOnly.beside (by assumption) ?_
    | split

theorem State.memOnly.touchLeaf (h : s.memOnly t) (l : Leaf) (acc : AccKind) : s.memOnly (t.touchLeaf l acc).1 := by
  unfold State.touchLeaf
  dsimp only
  generalize Nat.lor l.pte _ = e
  split
  · exact h
  · exact h.homeWrite ..

theorem State.memOnly.fillTlb (h : s.memOnly t) (core : Nat) (e : TlbEntry) : s.memOnly (t.fillTlb core e) := by
  unfold State.fillTlb
  dsimp only
  split
  · exact h.caches _ _ (by intro _; rfl)
  · exact (h.dropOne _).caches _ _ (by intro _; rfl)

theorem State.memOnly.pageWalk (h : s.memOnly t) (core c va : Nat) (acc : AccKind) (user : Bool) :
    s.memOnly (t.pageWalk core c va acc user).1 := by
  unfold State.pageWalk
  dsimp only
  repeat' first
    | with_reducible exact h
    | refine State.memOnly.beside (by assumption) ?_
    | with_reducible apply State.memOnly.walkOnly
    | with_reducible apply State.memOnly.touchLeaf
    | with_reducible apply State.memOnly.fillTlb
    | with_reducible refine State.memOnly.cow ?_ _ _ _ _ _ (by assumption)
    | with_reducible refine State.memOnly.caches ?_ _ _ ?_
    | (intro _; rfl)
    | split

theorem State.memOnly.translate (h : s.memOnly t) (core c va : Nat) (acc : AccKind) (user : Bool) :
    s.memOnly (t.translate core c va acc user).1 := by
  unfold State.translate
  dsimp only
  repeat' first
    | with_reducible exact h
    | with_reducible exact h.choose
    | refine State.memOnly.beside (by assumption) ?_
    | with_reducible apply State.memOnly.pageWalk
    | with_reducible refine State.memOnly.caches ?_ _ _ ?_
    | (intro _; rfl)
    | split

theorem State.memOnly.line (h : s.memOnly t) (core line : Nat) :
    s.memOnly ((t.settleLine core line).fetchLine core line) := by
  have h1 : s.memOnly (t.settleLine core line) := by
    unfold State.settleLine
    dsimp only
    repeat' first
      | with_reducible exact h
      | with_reducible exact h.choose
      | with_reducible refine State.memOnly.caches ?_ _ _ ?_
      | (intro _; rfl)
      | split
  unfold State.fetchLine
  dsimp only
  split
  · exact h1
  · exact (h1.homeLoad ..).caches _ _ (by intro _; rfl)

theorem State.memOnly.fetch (h : s.memOnly t) (core c : Nat) (va : Word) (user : Bool) :
    s.memOnly (t.fetch core c va user).1 := by
  unfold State.fetch
  dsimp only
  repeat' first
    | with_reducible exact h
    | refine State.memOnly.beside (by assumption) ?_
    | with_reducible apply State.memOnly.translate
    | with_reducible apply State.memOnly.line
    | with_reducible apply State.memOnly.freed
    | split

theorem State.memOnly.place (h : s.memOnly t) (core c k : Nat) (va : Word) (n : Nat) (use : Use) (user : Bool) :
    s.memOnly (t.place core c k va n use user).1 := by
  unfold State.place
  dsimp only
  repeat' first
    | with_reducible exact h
    | refine State.memOnly.beside (by assumption) ?_
    | with_reducible apply State.memOnly.translate
    | split

end Sys2Proof.Machine
end

