-- ==== Sys2Proof/Laws/Ctx.lean ====
section
/-! SUPPORT. Accesses that a context's units make through its tables: the frame of memory (07 R178). -/

namespace Sys2Proof.Machine

variable {s t : State}

theorem State.memOnly.ctxPlace (h : s.memOnly t) (c va : Nat) (acc : AccKind) (user : Bool) :
    s.memOnly (t.ctxPlace c va acc user).1 := by
  unfold State.ctxPlace
  dsimp only
  repeat' first
    | with_reducible exact h
    | refine State.memOnly.beside (by assumption) ?_
    | with_reducible apply State.memOnly.walkOnly
    | with_reducible apply State.memOnly.touchLeaf
    | with_reducible refine State.memOnly.cow ?_ _ _ _ _ _ (by assumption)
    | split

theorem State.memOnly.ctxRead (h : s.memOnly t) (c va n : Nat) : s.memOnly (t.ctxRead c va n).1 := by
  unfold State.ctxRead
  repeat' first
    | with_reducible exact h
    | refine State.memOnly.beside (by assumption) ?_
    | with_reducible apply State.memOnly.homeRead
    | with_reducible apply State.memOnly.ctxPlace
    | split

theorem State.memOnly.ctxWriteBytes (h : s.memOnly t) (c va : Nat) (bs : List Byte) (bad : List Nat) :
    s.memOnly (t.ctxWriteBytes c va bs bad).1 := by
  unfold State.ctxWriteBytes
  repeat' first
    | with_reducible exact h
    | refine State.memOnly.beside (by assumption) ?_
    | with_reducible apply State.memOnly.homeWrite
    | with_reducible apply State.memOnly.ctxPlace
    | split

end Sys2Proof.Machine
end

