-- ==== Sys2Proof/Laws/Queue.lean ====
section
/-! SUPPORT. What performing the entries of a store queue can change of skeins: threads' registers and queues, nothing else. -/

namespace Sys2Proof.Machine

/-- A skein without its threads and its queue. -/
def Skein.still (k : Skein) : Skein := { k with threads := [], sq := [] }

/-- Every skein stays where it is, and of each only the threads and the queue may differ. -/
structure State.stills (s t : State) : Prop where
  same : ∀ c l, (t.skein c l).map Skein.still = (s.skein c l).map Skein.still

theorem State.stills.refl (s : State) : s.stills s := ⟨fun _ _ => rfl⟩

theorem State.stills.trans {s t u : State} (h : s.stills t) (h' : t.stills u) : s.stills u :=
  ⟨fun c l => (h'.same c l).trans (h.same c l)⟩

theorem State.stills.of_skeins {s t u : State} (h : s.stills t) (e : u.skeins = t.skeins) : s.stills u := by
  refine ⟨fun c l => ?_⟩
  rw [← h.same c l]
  unfold State.skein
  rw [e]

theorem State.stills.memOnly {s t u : State} (h : s.stills t) (h' : t.memOnly u) : s.stills u := h.of_skeins h'.skeins

theorem State.stills.fold {α : Type} {s : State} (f : State → α → State) (hf : ∀ t a, s.stills t → s.stills (f t a)) :
    ∀ (l : List α) (t : State), s.stills t → s.stills (l.foldl f t)
  | [], _, h => h
  | a :: r, t, h => State.stills.fold f hf r (f t a) (hf t a h)

theorem State.stills.modSkein {s t : State} (h : s.stills t) (c l : Nat) (f : Skein → Skein)
    (hf : ∀ k, (f k).still = k.still) : s.stills (t.modSkein c l f) := by
  refine ⟨fun a b => ?_⟩
  rw [State.skein_modSkein]
  split
  · rename_i e
    rw [← h.same a b]
    have : t.skein a b = t.skein c l := by unfold State.skein; rw [e]
    rw [this]
    cases t.skein c l <;> simp [hf]
  · exact h.same a b

theorem State.stills.calm {s t : State} (h : s.stills t) (c l : Nat) (k : Skein) (hk : s.skein c l = some k) (hc : k.calm) :
    ∃ k', t.skein c l = some k' ∧ k'.calm := by
  have := h.same c l
  rw [hk] at this
  cases e : t.skein c l with
  | none => rw [e] at this; simp at this
  | some k' =>
    rw [e] at this
    simp only [Option.map_some, Option.some.injEq] at this
    refine ⟨k', rfl, ?_⟩
    have h1 : k'.still.step = k.still.step := by rw [this]
    have h2 : k'.still.stop = k.still.stop := by rw [this]
    have h3 : k'.still.halt = k.still.halt := by rw [this]
    have h4 : k'.still.wdog = k.still.wdog := by rw [this]
    exact ⟨h1.trans hc.1, h2.trans hc.2.1, h3.trans hc.2.2.1, h4.trans hc.2.2.2⟩

variable {s t : State}

theorem State.memOnly.flushLine (h : s.memOnly t) (c line : Nat) : s.memOnly (t.flushLine c line) := by
  unfold State.flushLine
  exact (State.memOnly.fold _ (fun _ _ h => h.homeWrite ..) _ _ h).caches _ _ (by intro _; rfl)

theorem State.memOnly.homeSite (h : s.memOnly t) (c a n : Nat) : s.memOnly (t.homeSite c a n) :=
  ((h.flushLine ..).evict ..).recallRange ..

theorem State.memOnly.atomHome (h : s.memOnly t) (c a n : Nat) (f : Nat → Option Nat) : s.memOnly (t.atomHome c a n f).1 := by
  have h1 := (h.homeSite c a n).homeRead a n (some c)
  unfold State.atomHome
  dsimp only
  split
  · exact h1
  · exact h1.homeWrite ..

theorem State.memOnly.atomL1 (h : s.memOnly t) (c a n : Nat) (f : Nat → Option Nat) : s.memOnly (t.atomL1 c a n f).1 := by
  unfold State.atomL1
  dsimp only
  split
  · exact h
  · exact h.caches _ _ (by intro _; rfl)

theorem State.memOnly.promote (h : s.memOnly t) (c line : Nat) : s.memOnly (t.promote c line) :=
  State.memOnly.caches (((h.flushLine ..).evict ..).fill ..) _ _ (by intro _; rfl)

/-- An atomic changes memory, or the scratchpad of a workgroup. -/
theorem State.stills.atomAt (h : s.stills t) (c : Nat) (p : Place) (n : Nat) (f : Nat → Option Nat) :
    s.stills (t.atomAt c p n f).1 := by
  unfold State.atomAt
  split
  · dsimp only
    split
    · exact h.memOnly ((State.memOnly.refl t).atomL1 ..)
    · rename_i pa _
      have h1 := (State.memOnly.refl t).atomHome c pa n f
      have h2 : t.memOnly ((t.atomHome c pa n f).1.setCore c (((t.atomHome c pa n f).1.core c).predict (pa / 128) t.cycle).1) :=
        State.memOnly.caches h1 c (fun x => (x.predict (pa / 128) t.cycle).1) (by intro _; rfl)
      split
      · exact h.memOnly (h2.promote ..)
      · exact h.memOnly h2
  · exact h.memOnly ((State.memOnly.refl t).atomHome ..)
  · dsimp only
    split
    · exact h
    · exact ⟨h.same⟩
  · dsimp only
    split
    · exact h
    · exact h.of_skeins (State.modPart_skeins ..)
  · exact h

theorem State.memOnly.cmo (h : s.memOnly t) (c level op : Nat) (r : List (Nat × Nat)) : s.memOnly (t.cmo c level op r) := by
  have own : ∀ l : List Nat, s.memOnly (l.foldl (fun u line => if op = 0 then u.clean c line else u.evict c line) t) :=
    fun l => State.memOnly.fold _ (fun u line h => by split; exacts [h.clean .., h.evict ..]) l t h
  have all_ : ∀ (l : List Nat) (u : State), s.memOnly u → s.memOnly (l.foldl (fun u line => u.recall line (some c)) u) :=
    State.memOnly.fold _ fun _ _ h => h.recall ..
  unfold State.cmo
  dsimp only
  split <;> split
  · exact own _
  · exact all_ _ _ (own _)
  · exact (own _).stores _ _ _ _
  · exact (all_ _ _ (own _)).stores _ _ _ _

theorem State.memOnly.atomSite (h : s.memOnly t) (c : Nat) (p : Place) (n : Nat) : s.memOnly (t.atomSite c p n) := by
  unfold State.atomSite
  repeat' split
  all_goals first | exact h | exact h.homeSite ..

theorem State.stills.count (h : s.stills t) (x i n : Nat) : s.stills (t.count x i n) := h.of_skeins (by simp [State.count])

theorem State.stills.linkPut (h : s.stills t) (x a : Nat) (bs : List Byte) (peer : Bool) : s.stills (t.linkPut x a bs peer) := by
  unfold State.linkPut
  repeat' split
  · exact h.count ..
  · exact ⟨h.same⟩
  · exact ⟨h.same⟩

theorem State.stills.performAct (h : s.stills t) (c x : Nat) (a : SqAct) : s.stills (t.performAct c x a) := by
  unfold State.performAct
  split
  · unfold State.storeAt
    split
    · exact h.memOnly ((State.memOnly.refl t).l1Store ..)
    · exact h.memOnly ((State.memOnly.refl t).caches _ _ (by intro _; rfl))
    · exact h.linkPut ..
    · exact h.linkPut ..
    · exact h.of_skeins (State.modPart_skeins ..)
    · exact h
    · exact h.modSkein _ _ _ fun _ => rfl
    · exact ⟨h.same⟩
  · dsimp only
    rename_i p _ wide _
    generalize (if wide = true then 8 else 4) = n
    have h1 := h.memOnly ((State.memOnly.refl t).atomSite c p n)
    repeat' split
    · exact h1.count ..
    · exact h1
    · exact h1.atomAt ..
  · exact h.memOnly ((State.memOnly.refl t).cmo ..)
  · exact h.of_skeins (State.modPart_skeins ..)
  · exact h.of_skeins (State.modPart_skeins ..)
  · exact h.of_skeins (State.modPart_skeins ..)
  · exact h.of_skeins (State.modPart_skeins ..)
  · exact h.of_skeins (State.modPart_skeins ..)
  · exact h
  · dsimp only
    rename_i p _ _
    have h1 := h.memOnly ((State.memOnly.refl t).atomSite c p 8)
    split
    · exact h1
    · exact h1.atomAt ..

theorem State.memOnly.release (h : s.memOnly t) (c : Nat) (w : Bool) : s.memOnly (t.release c w) := by
  unfold State.release
  split
  · exact (h.drainThrough ..).cleanPrivate ..
  · exact h

theorem State.stills.performHead (h : s.stills t) (c l : Nat) : s.stills (t.performHead c l) := by
  unfold State.performHead
  split
  · exact h
  · rename_i k hk
    split
    · exact h
    · rename_i e r hq
      split
      · exact h
      have h1 : s.stills (t.setSkein c l { k with sq := r }) := by
        have := h.modSkein c l (fun k => { k with sq := r }) fun _ => rfl
        rwa [t.modSkein_of_some _ _ _ k hk] at this
      dsimp only
      refine State.stills.performAct ?_ ..
      split
      · exact h1.memOnly ((State.memOnly.refl _).release ..)
      · exact h1

theorem State.stills.drainQueue (h : s.stills t) (c l : Nat) : s.stills (t.drainQueue c l) := by
  unfold State.drainQueue
  split
  · exact h
  · exact State.stills.fold _ (fun _ _ h => h.performHead ..) _ _ h

/-- A queue drained at a scope. -/
theorem State.stills.drainTo (h : s.stills t) (c l scope : Nat) : s.stills (t.drainTo c l scope) := by
  unfold State.drainTo
  dsimp only
  split
  · exact h.drainQueue ..
  · exact (h.drainQueue ..).memOnly ((State.memOnly.refl _).release ..)

theorem State.stills.drainForEngine (h : s.stills t) (c l : Nat) : s.stills (t.drainForEngine c l) :=
  (h.drainQueue c l).memOnly (((State.memOnly.refl _).drainThrough _).cleanPrivate _)

end Sys2Proof.Machine
end

