-- ==== Sys2Proof/Laws/Issue.lean ====
section
/-! SUPPORT. What the end of an instruction can do to a skein without pending stops or faults, and what quiet threads give
the operand checks: said once, for every instruction of fixed latency and for those that act thread by thread. -/

namespace Sys2Proof.Machine

/-- Only one skein differs between two states. -/
def State.onlySkein (s t : State) (core slot : Nat) : Prop :=
  { t with skeins := s.skeins } = s ∧ ∀ c l, slotKey c l ≠ slotKey core slot → t.skein c l = s.skein c l

theorem State.onlySkein.refl (s : State) (c l : Nat) : s.onlySkein s c l := ⟨rfl, fun _ _ _ => rfl⟩

theorem State.onlySkein.trans {s t u : State} {c l : Nat} (h : s.onlySkein t c l) (h' : t.onlySkein u c l) :
    s.onlySkein u c l := by
  refine ⟨?_, fun a b hab => (h'.2 a b hab).trans (h.2 a b hab)⟩
  have h1 := h.1
  have h2 := h'.1
  rw [← h1]
  rw [← h2]

theorem State.onlySkein_modSkein (s : State) (c l : Nat) (f : Skein → Skein) : s.onlySkein (s.modSkein c l f) c l := by
  refine ⟨?_, fun a b h => ?_⟩
  · unfold State.modSkein; split <;> rfl
  · rw [State.skein_modSkein, if_neg h]

theorem State.onlySkein_modThread (s : State) (c l t : Nat) (f : Thread → Thread) :
    s.onlySkein (s.modThread c l t f) c l := s.onlySkein_modSkein c l _

theorem State.onlySkein.keepsElse {s t u : State} {c l : Nat} (h : s.onlySkein t c l) (h' : t.keepsElse u c l) :
    s.keepsElse u c l := by
  obtain ⟨f1, f2, f3, f4, f5⟩ := h'
  have hc : t.cores = s.cores := by rw [← h.1]
  have hi : t.issue = s.issue := by rw [← h.1]
  have hm : t.mem = s.mem := by rw [← h.1]
  refine ⟨?_, fun a b hab => (f2 a b hab).trans (h.2 a b hab), fun a => ?_, fun a => ?_, fun a => ?_⟩
  · rw [← hc, ← hi]
    have : ({ ({ u with skeins := t.skeins, cores := t.cores, issue := t.issue } : State) with skeins := s.skeins } : State)
        = s := by rw [f1]; exact h.1
    exact this
  · have hc3 : t.core a = s.core a := by unfold State.core; rw [hc]
    rw [← hc3]; exact f3 a
  · rw [f4]; unfold State.homeByte; rw [hm]
  · rw [f5]; unfold State.hostByte; rw [hm]

/-- The threads of a list changed one after another. -/
theorem State.foldThreads (core slot : Nat) (f : Nat → Thread → Thread) : ∀ (ls : List Nat) (s : State) (k : Skein),
    s.skein core slot = some k → (∀ l ∈ ls, l < k.threads.length) → ls.Nodup →
    s.onlySkein (ls.foldl (fun s l => s.modThread core slot l (f l)) s) core slot ∧
    ∃ T, (ls.foldl (fun s l => s.modThread core slot l (f l)) s).skein core slot = some { k with threads := T } ∧
      T.length = k.threads.length ∧
      ∀ j, laneOf T j = if j ∈ ls then f j (laneOf k.threads j) else laneOf k.threads j := by
  intro ls
  induction ls with
  | nil => intro s k hk _ _; exact ⟨.refl s _ _, k.threads, by simpa using hk, rfl, by simp⟩
  | cons a r ih =>
    intro s k hk hl hn
    have h1 : (s.modThread core slot a (f a)).skein core slot = some { k with threads := modAt a (f a) k.threads } := by
      simp [hk]
    have hn' := List.nodup_cons.1 hn
    have ha : a < k.threads.length := hl a (by simp)
    obtain ⟨h2, T, h3, h4, h5⟩ := ih _ _ h1 (fun l h => by simpa using hl l (by simp [h])) hn'.2
    refine ⟨(s.onlySkein_modThread ..).trans h2, T, h3, by simpa using h4, fun j => ?_⟩
    rw [h5, laneOf_modAt _ _ _ _ ha]
    by_cases hj : j = a
    · subst hj; simp [hn'.1]
    · simp [hj]

theorem foldl_fixed {α β : Type} (f : α → β → α) (s : α) : ∀ (l : List β), (∀ b ∈ l, f s b = s) → l.foldl f s = s
  | [], _ => rfl
  | b :: r, h => by rw [List.foldl_cons, h b (by simp)]; exact foldl_fixed f s r fun x hx => h x (by simp [hx])

@[simp] theorem State.raise_nil (s : State) (core slot : Nat) (pc w : Word) : s.raise core slot pc w [] = s := by
  unfold State.raise
  exact foldl_fixed _ _ _ fun q _ => by rw [show faultsOf q [] = [] by simp [faultsOf]]

/-- The end of an issue for a skein without a stop, halt, watchdog action or step pending. -/
theorem State.endInstr_calm (s : State) (core slot occ stall : Nat) (runEnd : Bool) (k : Skein)
    (hk : s.skein core slot = some k) (hc : k.calm) :
    s.keepsElse (s.endInstr core slot occ stall runEnd) core slot ∧
    (s.endInstr core slot occ stall runEnd).issue = none ∧
    (s.endInstr core slot occ stall runEnd).skein core slot =
      some { k with readyAt := s.cycle + occ + stall, blocked := none } := by
  obtain ⟨hstep, hstop, hhalt, hw⟩ := hc
  set k1 : Skein := { k with readyAt := s.cycle + occ + stall, blocked := none } with hk1d
  have hid : k1.stopAll.haltNow.stepOver = k1 := by
    simp [hk1d, Skein.stopAll, Skein.haltNow, Skein.stepOver, hstop, hhalt, hstep]
  -- the states that differ from s in this skein's note and in pipelines alone
  let like (u : State) : Prop := s.keepsElse u core slot ∧ u.issue = none ∧ u.skein core slot = some k1
  set s0 : State := { (s.modSkein core slot fun k => { k with readyAt := s.cycle + occ + stall, blocked := none }) with
    issue := none } with hs0
  have h0 : like s0 := by
    have h1 := s.onlySkein_modSkein core slot fun k => { k with readyAt := s.cycle + occ + stall, blocked := none }
    refine ⟨⟨?_, fun c l h => by simpa [State.skein, hs0] using h1.2 c l h, fun c => by simp [hs0, State.core],
      fun a => by simp [State.homeByte, hs0], fun a => by simp [State.hostByte, hs0]⟩, rfl, ?_⟩
    · conv_rhs => rw [← h1.1]
      simp [hs0]
    · simpa [hs0, State.skein, hk] using (State.skein_modSkein_self s core slot _).trans (by rw [hk]; rfl)
  have pipes : ∀ (u : State) (f : Core → Core), (∀ c, { f c with pipes := c.pipes } = c) → like u →
      like (u.modCore core f) := by
    intro u f hf ⟨h1, h2, h3⟩
    refine ⟨⟨?_, fun c l h => ?_, fun c => ?_, h1.2.2.2.1, h1.2.2.2.2⟩, h2, by rw [State.skein_modCore, h3]⟩
    · conv_rhs => rw [← h1.1]
      rfl
    · rw [State.skein_modCore, h1.2.1 c l h]
    · rw [State.core_modCore]
      split
      · subst c
        have := hf (u.core core)
        conv_rhs => rw [← h1.2.2.1 core, ← this]
      · exact h1.2.2.1 c
  have ended : ∀ u, like u → like (u.endRun core slot) := by
    intro u hu
    unfold State.endRun
    have hv := pipes u (fun c => c.setPipe (slot / 8) { c.pipe (slot / 8) with
      rot := if (c.pipe (slot / 8)).rot.contains slot then dropFrom slot (c.pipe (slot / 8)).rot ++ [slot]
             else (c.pipe (slot / 8)).rot
      run := none }) (fun _ => rfl) hu
    set v := u.modCore core (fun c => c.setPipe (slot / 8) { c.pipe (slot / 8) with
      rot := if (c.pipe (slot / 8)).rot.contains slot then dropFrom slot (c.pipe (slot / 8)).rot ++ [slot]
             else (c.pipe (slot / 8)).rot
      run := none }) with hvd
    have h4 : v.modSkein core slot (fun k => k.stopAll.haltNow.stepOver) = v.setSkein core slot k1 := by
      rw [State.modSkein_of_some _ _ _ _ _ hv.2.2, hid]
    have h5 : (v.setSkein core slot k1).wdogPark core slot = v.setSkein core slot k1 := by
      unfold State.wdogPark
      rw [State.skein_setSkein, if_pos rfl]
      simp [hk1d, hw]
    show like ((v.modSkein core slot fun k => k.stopAll.haltNow.stepOver).wdogPark core slot)
    rw [h4, h5]
    obtain ⟨h1, h2, -⟩ := hv
    refine ⟨⟨?_, fun c l h => ?_, h1.2.2.1, h1.2.2.2.1, h1.2.2.2.2⟩, h2, by rw [State.skein_setSkein, if_pos rfl]⟩
    · conv_rhs => rw [← h1.1]
      rfl
    · rw [State.skein_setSkein, if_neg h, h1.2.1 c l h]
  have h1 : like (s0.modCore core fun c => c.setPipe (slot / 8) { c.pipe (slot / 8) with busy := s0.cycle + occ }) :=
    pipes s0 _ (fun _ => rfl) h0
  have goal_ : like (s.endInstr core slot occ stall runEnd) := by
    unfold State.endInstr
    rw [← hs0]
    dsimp only
    split
    · exact h1
    · generalize (runEnd || _ || _ || _ || _ : Bool) = b
      cases b
      · rw [if_neg (by simp)]; exact pipes _ _ (fun _ => rfl) h1
      · rw [if_pos rfl]; exact ended _ h1
  exact goal_

theorem State.afterStep_calm (s : State) (core slot : Nat) (pc : Word) (present hit : List Nat) (k : Skein)
    (hk : s.skein core slot = some k) (hc : k.step = 0) : s.afterStep core slot pc present hit = s := by
  unfold State.afterStep
  rw [hk]
  simp [hc]

end Sys2Proof.Machine
end

