-- ==== Sys2Proof/Laws/Lanes.lean ====
section
/-! SUPPORT. What an instruction of fixed latency can do, said once: from its operation to `LaneSpec.completes`. -/

namespace Sys2Proof.Machine

theorem quiet_laneOf {ts : List Thread} (h : ∀ th ∈ ts, th.quiet) (l : Nat) : (laneOf ts l).quiet := by
  unfold laneOf
  rw [List.getD_eq_getElem?_getD]
  cases hx : ts[l]? with
  | none => exact ⟨rfl, rfl, rfl, rfl⟩
  | some th => exact h th (List.mem_of_getElem? hx)

theorem at_quiet {th : Thread} (h : th.quiet) (c : Nat) : th.at c = th := by
  obtain ⟨h1, -, -, -⟩ := h
  cases th; simp_all [Thread.at]

theorem map_at_quiet {ts : List Thread} (h : ∀ th ∈ ts, th.quiet) (c : Nat) : (ts.map fun th => th.at c) = ts := by
  conv_rhs => rw [← List.map_id ts]
  exact List.map_congr_left fun th hth => at_quiet (h th hth) c

theorem nodup_lanesOf (m : BitVec 32) : (lanesOf m).Nodup := List.nodup_range.filter _

@[simp] theorem dropAll_nil (l : List Nat) : dropAll [] l = l := by simp [dropAll]

theorem heldBack_quiet (op : Op) {k : Skein} (h : ∀ th ∈ k.threads, th.quiet) (present : List Nat) :
    heldBack op k present = false := by
  unfold heldBack
  rw [List.any_eq_false]
  intro t _
  have hheld (l : Nat) : (laneOf k.threads l).held = [] := (quiet_laneOf h l).2.1
  simp [Thread.owes, hheld]

/-- The active threads of quiet ones, each with its issue cycle. -/
theorem activeLanes_quiet (c : Ctl) (cost : Nat) {ts : List Thread} (h : ∀ th ∈ ts, th.quiet) :
    ∀ (ls : List Nat) (cyc : Nat), ls.Nodup →
      activeLanes c cost ts ls cyc = (ls.filter fun l => guardHolds c (laneOf ts l).pred).map fun l =>
        (l, if c.uni then cyc else cyc + cost * (ls.filter fun l => guardHolds c (laneOf ts l).pred).idxOf l) := by
  intro ls
  induction ls with
  | nil => intro _ _; rfl
  | cons a r ih =>
    intro cyc hn
    have hn' := List.nodup_cons.1 hn
    rw [activeLanes, at_quiet (quiet_laneOf h a)]
    have hf : (a :: r).filter (fun l => guardHolds c (laneOf ts l).pred) =
        if guardHolds c (laneOf ts a).pred then a :: r.filter (fun l => guardHolds c (laneOf ts l).pred)
        else r.filter (fun l => guardHolds c (laneOf ts l).pred) := List.filter_cons ..
    rw [hf]
    by_cases hg : guardHolds c (laneOf ts a).pred = true
    · rw [if_pos hg, if_pos hg, ih _ hn'.2, List.map_cons]
      congr 1
      · simp
      · refine List.map_congr_left fun l hl => ?_
        have hla : a ≠ l := by rintro rfl; exact hn'.1 (List.mem_of_mem_filter hl)
        cases hu : c.uni
        · simp [List.idxOf_cons_ne _ hla, Nat.mul_succ, Nat.mul_add]; ring
        · simp
    · rw [if_neg hg, if_neg hg, ih _ hn'.2]

theorem firstBad_none {vs : Views} {alloc : Nat} {ops : List (RegOp × Nat × Nat)}
    (h : ∀ o ∈ ops, regOk vs alloc o.1 o.2.1 o.2.2 = true) : firstBad vs alloc ops = none := by
  unfold firstBad
  rw [Option.map_eq_none_iff, List.find?_eq_none]
  intro o ho
  simp [h o ho]

theorem shortRead_quiet {ts : List Thread} (h : ∀ th ∈ ts, th.quiet) (ps : List (Nat × Nat × Nat)) (t : Nat)
    (p l : Bool) : shortRead ts ps t p l = false := by
  unfold shortRead
  have hq := fun x => (quiet_laneOf h x).1
  simp [hq]

theorem badWords_quiet {ts : List Thread} (h : ∀ th ∈ ts, th.quiet) (p : Nat × Nat × Nat) : badWords ts p = [] := by
  unfold badWords
  obtain ⟨-, -, h1, h2⟩ := quiet_laneOf h p.1
  simp [h1, h2]

/-- The sources of an instruction for a thread: those that it names, and those that they lead to. -/
def Op.srcs (op : Op) (ts : List Thread) (own : Nat) : List Rd :=
  let base := op.reads (laneOf ts own).views
  base ++ op.more (base.map fun r => r.value ts own)

/-- The checks of a quiet thread whose operands are in range. -/
theorem checkLane_quiet (op : Op) (c : Ctl) (alloc : Nat) (sb : Bool) (slot : Nat) {ts : List Thread}
    (h : ∀ th ∈ ts, th.quiet) (t own cyc : Nat)
    (h1 : ∀ o ∈ op.dsts (laneOf ts t).views, regOk (laneOf ts t).views alloc o.1 o.2.1 o.2.2 = true)
    (h2 : ∀ o ∈ (op.reads (laneOf ts own).views).flatMap Rd.ops ++ op.names (laneOf ts own).views,
      regOk (laneOf ts own).views alloc o.1 o.2.1 o.2.2 = true) (h3 : op.illegal (laneOf ts t).views = false) :
    checkLane op c alloc sb slot ts t own cyc =
      (.ok { lane := t, cyc := cyc, vals := (op.srcs ts own).map fun r => r.value ts own
             pred := (laneOf ts (if c.uni then own else t)).pred
             link := (laneOf ts (if c.uni then own else t)).link }, []) := by
  have hp : (laneOf ts t).pend = [] := (quiet_laneOf h t).1
  have hf : ∀ l : List (Nat × Nat × Nat), l.flatMap (fun p => badWords ts p) = [] := fun l => by
    rw [List.flatMap_eq_nil_iff]; exact fun p _ => badWords_quiet h p
  unfold checkLane Op.srcs
  rw [map_at_quiet h]
  simp only [firstBad_none h1, firstBad_none h2, shortRead_quiet h, hf, hp, h3]
  simp

/-- The checks of such a thread under views that make the instruction ILLEGAL_FIELD. -/
theorem checkLane_illegal (op : Op) (c : Ctl) (alloc : Nat) (sb : Bool) (slot : Nat) {ts : List Thread}
    (h : ∀ th ∈ ts, th.quiet) (t own cyc : Nat)
    (h1 : ∀ o ∈ op.dsts (laneOf ts t).views, regOk (laneOf ts t).views alloc o.1 o.2.1 o.2.2 = true)
    (h2 : ∀ o ∈ (op.reads (laneOf ts own).views).flatMap Rd.ops ++ op.names (laneOf ts own).views,
      regOk (laneOf ts own).views alloc o.1 o.2.1 o.2.2 = true) (h3 : op.illegal (laneOf ts t).views = true) :
    checkLane op c alloc sb slot ts t own cyc = (.error { cause := .illegalField }, []) := by
  have hp : (laneOf ts t).pend = [] := (quiet_laneOf h t).1
  have hf : ∀ l : List (Nat × Nat × Nat), l.flatMap (fun p => badWords ts p) = [] := fun l => by
    rw [List.flatMap_eq_nil_iff]; exact fun p _ => badWords_quiet h p
  unfold checkLane
  rw [map_at_quiet h]
  simp only [firstBad_none h1, firstBad_none h2, shortRead_quiet h, hf, hp, h3]
  simp

/-- The thread whose sources an active thread reads. -/
def ownOf (op : Op) (c : Ctl) (act : List Nat) (l : Nat) : Nat := if c.uni || op.lead then act.headD 0 else l

/-- What a quiet thread with operands in range gives its instruction. -/
def inputOf (op : Op) (c : Ctl) (ts : List Thread) (cycle : Nat) (act : List Nat) (l : Nat) : LaneIn :=
  let own := ownOf op c act l
  { lane := l, cyc := if c.uni then cycle else cycle + op.cost * act.idxOf l
    vals := (op.srcs ts own).map fun r => r.value ts own
    pred := (laneOf ts (if c.uni then own else l)).pred
    link := (laneOf ts (if c.uni then own else l)).link }

/-- Every operand of the active threads passes 03 R70, and none is ILLEGAL_FIELD under its views. -/
def operandsOk (op : Op) (c : Ctl) (k : Skein) (act : List Nat) : Prop :=
  ∀ l ∈ act, op.illegal (laneOf k.threads l).views = false ∧ (∀ o ∈ op.dsts (laneOf k.threads l).views, regOk (laneOf k.threads l).views k.alloc o.1 o.2.1 o.2.2 = true) ∧
    ∀ o ∈ (op.reads (laneOf k.threads (ownOf op c act l)).views).flatMap Rd.ops ++
        op.names (laneOf k.threads (ownOf op c act l)).views,
      regOk (laneOf k.threads (ownOf op c act l)).views k.alloc o.1 o.2.1 o.2.2 = true

theorem gather_quiet (op : Op) (c : Ctl) (k : Skein) (slot cycle : Nat) (present : List Nat)
    (hq : ∀ th ∈ k.threads, th.quiet) (hn : present.Nodup)
    (hd : ∀ t ∈ present, op.denied (laneOf k.threads t) = false)
    (ho : operandsOk op c k (present.filter fun l => guardHolds c (laneOf k.threads l).pred)) :
    gather op c k slot cycle present =
      { present := present, active := present.filter fun l => guardHolds c (laneOf k.threads l).pred
        go := (present.filter fun l => guardHolds c (laneOf k.threads l).pred).map
          (inputOf op c k.threads cycle (present.filter fun l => guardHolds c (laneOf k.threads l).pred))
        faults := [], parity := [] } := by
  have hden : (present.filter fun t => op.denied (laneOf k.threads t)) = [] := by
    rw [List.filter_eq_nil_iff]; intro t ht; simp [hd t ht]
  unfold gather
  simp only [hden, dropAll_nil, activeLanes_quiet c op.cost hq present cycle hn, List.map_map, Function.comp_def, List.map_id']
  set act := present.filter fun l => guardHolds c (laneOf k.threads l).pred with hact
  have hc : (act.map fun l => (l, checkLane op c k.alloc (k.dbgctl.getLsbD 0) slot k.threads l
        (if c.uni || op.lead then act.headD 0 else l) (if c.uni then cycle else cycle + op.cost * act.idxOf l))) =
      act.map fun l => (l, (.ok (inputOf op c k.threads cycle act l), [])) := by
    refine List.map_congr_left fun l hl => ?_
    exact congrArg (Prod.mk l) (checkLane_quiet op c k.alloc _ slot hq l _ _ (ho l hl).2.1 (ho l hl).2.2 (ho l hl).1)
  rw [hc]
  simp [List.filterMap_map, List.flatMap_map, Function.comp_def]

/-- What the value of a source is bounded by: a register's bytes. -/
def Rd.bounds : Rd → Nat → Prop
  | .reg _ w, v => v < 256 ^ w
  | .group _ w n, v => v < 256 ^ (w * n)
  | _, _ => True

theorem ofBytes_lt (l : List Byte) : ofBytes l < 256 ^ l.length := by
  induction l with
  | nil => simp [ofBytes]
  | cons b r ih =>
    have h : 256 ^ (r.length + 1) = 256 * 256 ^ r.length := Nat.pow_succ'
    have hb := b.isLt
    simp only [ofBytes, List.length_cons, h]
    omega

theorem natAt_lt (m : SMap Byte) (a n : Nat) : natAt m a n < 256 ^ n := by
  have := ofBytes_lt (bytesAt m a n)
  simpa [natAt, bytesAt] using this

theorem readPiece_lt (ts : Lanes) (p : Nat × Nat × Nat) : readPiece ts p < 256 ^ p.2.2 := by
  unfold readPiece
  simp only []
  split
  · positivity
  · exact natAt_lt ..

theorem Rd.value_bounds (r : Rd) (ts : Lanes) (t : Nat) : r.bounds (r.value ts t) := by
  cases r with
  | reg op w => exact readPiece_lt ts (t, regAddr (laneOf ts t).views op, w)
  | group op w n => exact readPiece_lt ts (t, regAddr (laneOf ts t).views op, w * n)
  | mod op m w k => trivial
  | perm op b w => trivial

/-- One instruction of fixed latency, for threads that are quiet and have their operands in range. -/
theorem runLanes_quiet (i : Instr) (c : Ctl) (op : LaneOp) (p : LaneSpec) (he : ∀ s, exec i s = .next (s.runLanes i c op))
    (hr : op.reads = fun _ => p.reads) (hds : op.dsts = fun _ => p.dsts) (hd : op.denied = fun _ => false)
    (hc : op.cost = p.cost) (hl : op.lead = false) (ht : op.lat = some p.lat)
    (hv : ∀ x go, p.fits x → (∀ j (h : j < p.reads.length), p.reads[j].bounds (x.val j)) →
      (∀ y ∈ go, y.lane < 32 ∧ ∀ j (h : j < p.reads.length), p.reads[j].bounds (y.val j)) →
      op.eval x go = .ok (p.result x go).toList)
    (hm : op.more = fun _ => [] := by rfl) (hnm : op.names = fun _ => [] := by rfl)
    (hil : op.illegal = fun _ => false := by rfl) : p.completes i c := by
  intro s is k hs hin hfit
  have hbnd : ∀ l, ∀ j (h : j < p.reads.length), p.reads[j].bounds ((p.input s c k (activeOf c is k) l).val j) := by
    intro l j h
    have : (p.input s c k (activeOf c is k) l).val j = p.reads[j].value k.threads (sourceOf c (activeOf c is k) l) := by
      simp [LaneSpec.input, LaneIn.val, h]
    rw [this]; exact Rd.value_bounds ..
  obtain ⟨h1, h2, h3, h4, h5⟩ := hs
  have hpeers : ∀ y ∈ (activeOf c is k).map (p.input s c k (activeOf c is k)),
      y.lane < 32 ∧ ∀ j (h : j < p.reads.length), p.reads[j].bounds (y.val j) := by
    intro y hy
    obtain ⟨l, hl', rfl⟩ := List.mem_map.1 hy
    have : l ∈ List.range 32 := List.mem_of_mem_filter (List.mem_of_mem_filter hl')
    exact ⟨List.mem_range.1 this, hbnd l⟩
  refine ⟨_, he s, ?_⟩
  have hi : s.issued = some (is, k) := by simp [State.issued, h1, h2]
  set act := activeOf c is k with hact
  have hown : ∀ l, ownOf op.toOp c act l = sourceOf c act l := by intro l; simp [ownOf, sourceOf, hl]
  have hinp : ∀ l, inputOf op.toOp c k.threads s.cycle act l = p.input s c k act l := by
    intro l
    simp only [inputOf, LaneSpec.input, Op.srcs, hown, hr, hm, hc, issueOf, List.append_nil]
    cases hu : c.uni <;> simp [sourceOf, hu]
  have hg := gather_quiet op.toOp c k is.slot s.cycle (lanesOf is.present) h4 (nodup_lanesOf _)
    (fun t _ => by rw [hd]) (fun l hl' => by
      rw [hds, hr, hnm, hil]
      refine ⟨rfl, (hin l hl').2, ?_⟩
      rw [List.append_nil]
      rw [show ownOf op.toOp c ((lanesOf is.present).filter fun l => guardHolds c (laneOf k.threads l).pred) l =
        sourceOf c act l from hown l]
      exact (hin l hl').1)
  have hg' : gather op.toOp c k is.slot s.cycle (lanesOf is.present) =
      { present := lanesOf is.present, active := act, go := act.map (p.input s c k act), faults := [], parity := [] } := by
    rw [hg]
    congr 1
    exact List.map_congr_left fun l _ => hinp l
  have hactn : act.Nodup := (nodup_lanesOf _).filter _
  have hactl : ∀ l ∈ act, l < k.threads.length := fun l hl' => h5 l (List.mem_of_mem_filter hl')
  -- the results, one for each active thread
  set R : Nat → List Wr := fun l =>
    (p.result (p.input s c k act (sourceOf c act l)) (act.map (p.input s c k act))).toList with hR
  have hres : laneResults op c (act.map (p.input s c k act)) = act.map fun l => (p.input s c k act l, .ok (R l)) := by
    unfold laneResults
    cases hu : c.uni
    · rw [if_neg (by simp), List.map_map]
      refine List.map_congr_left fun l hl' => ?_
      have : sourceOf c act l = l := by simp [sourceOf, hu]
      simp only [Function.comp_def, hR, this]
      rw [hv _ _ (hfit l hl') (hbnd l) hpeers]
    · rw [if_pos rfl]
      cases ha : act with
      | nil => rfl
      | cons a r =>
        have hsrc : ∀ l, sourceOf c (a :: r) l = a := fun l => by simp [sourceOf, hu]
        simp only [List.map_cons]
        rw [hv _ _ (by rw [← ha]; exact hfit a (by rw [ha]; simp)) (by rw [← ha]; exact hbnd a) (by
          simpa [ha] using hpeers)]
        simp [hR, ha, hsrc]
  unfold State.runLanes
  rw [hi]
  dsimp only
  rw [heldBack_quiet op.toOp h4, hg']
  simp only [Bool.false_eq_true, if_false, hres, State.markParity, List.foldl_nil, List.foldl_map]
  obtain ⟨o1, T1, t1, l1, e1⟩ := State.foldThreads is.core is.slot (fun l th =>
    (R l).foldl (fun th w => th.pendWr (issueOf s c p.cost act l + p.lat) w) th) act s k h2 hactl hactn
  have hs2 : act.foldl (fun s' l => s'.applyResults is.core is.slot op.lat (p.input s c k act l) (R l)) s =
      act.foldl (fun u l' => u.modThread is.core is.slot l' fun th =>
        (R l').foldl (fun th w => th.pendWr (issueOf s c p.cost act l' + p.lat) w) th) s := by
    rw [ht]; rfl
  rw [hs2]
  set s2 := act.foldl (fun u l' => u.modThread is.core is.slot l' fun th =>
        (R l').foldl (fun th w => th.pendWr (issueOf s c p.cost act l' + p.lat) w) th) s with hs2'
  clear_value s2
  rw [hs2'] at hs2
  have hidle : dropAll act (lanesOf is.present) = (lanesOf is.present).filter fun l => !act.contains l := rfl
  -- the threads present whose guard is false, then the active ones, go on to the next word
  obtain ⟨o2, T2, t2, l2, e2⟩ := State.foldThreads is.core is.slot (fun _ th => { th with pc := is.pc + 8 })
    (dropAll act (lanesOf is.present)) s2 _ t1 (fun l hl' => by
      show l < T1.length; rw [l1]; exact h5 l (List.mem_of_mem_filter hl')) ((nodup_lanesOf _).filter _)
  obtain ⟨o3, T3, t3, l3, e3⟩ := State.foldThreads is.core is.slot (fun _ th => { th with pc := is.pc + 8 })
    act _ _ t2 (fun l hl' => by
      show l < T2.length; rw [l2]; show l < T1.length; rw [l1]; exact hactl l hl') hactn
  set s3 := act.foldl (fun u l => u.modThread is.core is.slot l fun th => { th with pc := is.pc + 8 })
    ((dropAll act (lanesOf is.present)).foldl
      (fun u l => u.modThread is.core is.slot l fun th => { th with pc := is.pc + 8 }) s2) with hs3
  obtain ⟨occ, hret⟩ : ∃ occ, ∀ fates : Fates, (fates = act.map fun l => ([l], Fate.next)) →
      s2.retire i is c op.cost c.stall false
        { present := lanesOf is.present, active := act, go := act.map (p.input s c k act), faults := [], parity := [] }
        fates = s3.endInstr is.core is.slot occ c.stall c.runEnd := by
    refine ⟨if act.length = 0 then 1 else if c.uni then op.cost else op.cost * act.length, fun fates hfates => ?_⟩
    subst hfates
    unfold State.retire
    have hnil : (act.flatMap fun _ => ([] : List (Nat × Trap))) = [] := by simp
    simp only [List.flatMap_map, List.foldl_map, hnil, List.append_nil, List.map_nil, dropAll_nil, State.raise_nil]
    have h6 := State.afterStep_calm s3 is.core is.slot is.pc (lanesOf is.present) [] _ t3 (by exact h3.1)
    have h7 : act.foldl (fun x y => x.applyFates i is ([y], Fate.next))
        ((dropAll act (lanesOf is.present)).foldl
          (fun s l => s.applyFate is.core is.slot i is.word is.pc l [l] Fate.next) s2) = s3 := rfl
    rw [h7, h6]
    simp
  rw [List.map_map]
  suffices main : ∀ u : State, u = s3.endInstr is.core is.slot occ c.stall c.runEnd →
      s.keepsElse u is.core is.slot ∧ u.issue = none ∧
      ∃ k', u.skein is.core is.slot = some k' ∧ { k' with threads := k.threads, readyAt := k.readyAt, blocked := k.blocked } = k ∧
        ∀ l, l < k.threads.length → laneOf k'.threads l =
          if l ∈ act then
            { laneOf k.threads l with
                      pc := is.pc + 8
                      pend := ((p.result (p.input s c k act (sourceOf c act l)) (act.map (p.input s c k act))).map
                        fun w => ({ due := issueOf s c p.cost act l + p.lat
                                    what := landingOf (laneOf k.threads l).views w } : Pend)).toList }
          else if l ∈ lanesOf is.present then { laneOf k.threads l with pc := is.pc + 8 }
          else laneOf k.threads l from main _ (hret _ rfl)
  rintro u rfl
  obtain ⟨k1, k2, k3⟩ := State.endInstr_calm s3 is.core is.slot occ c.stall c.runEnd _ t3 (by exact h3)
  have ho := (o1.trans o2).trans o3
  refine ⟨ho.keepsElse k1, k2, _, k3, by cases k; rfl, ?_⟩
  · intro l hl'
    show laneOf T3 l = _
    rw [e3]
    show (if l ∈ act then { laneOf T2 l with pc := is.pc + 8 } else laneOf T2 l) = _
    rw [e2]
    have hend : ∀ th : Thread, th.pend = [] →
        (R l).foldl (fun th w => th.pendWr (issueOf s c p.cost act l + p.lat) w) th =
          { th with pend := ((p.result (p.input s c k act (sourceOf c act l)) (act.map (p.input s c k act))).map
              fun w => ({ due := issueOf s c p.cost act l + p.lat, what := landingOf th.views w } : Pend)).toList } := by
      intro th hth
      simp only [hR]
      cases p.result (p.input s c k act (sourceOf c act l)) (act.map (p.input s c k act)) with
      | none => cases th; simp_all
      | some w =>
        cases w <;> simp [Thread.pendWr, Thread.pendReg, Thread.pendPred, hth, dueAfter, landingOf]
    have hidl : (l ∈ dropAll act (lanesOf is.present)) ↔ l ∈ lanesOf is.present ∧ l ∉ act := by
      rw [hidle]; simp
    by_cases ha : l ∈ act
    · have hni : l ∉ dropAll act (lanesOf is.present) := fun h => (hidl.1 h).2 ha
      simp only [if_pos ha, if_neg hni]
      rw [e1, if_pos ha, hend _ (quiet_laneOf h4 l).1]
    · simp only [if_neg ha]
      show (if l ∈ dropAll act (lanesOf is.present) then { laneOf T1 l with pc := is.pc + 8 } else laneOf T1 l) = _
      rw [e1, if_neg ha]
      by_cases hp : l ∈ lanesOf is.present
      · rw [if_pos (hidl.2 ⟨hp, ha⟩), if_pos hp]
      · rw [if_neg (fun h => hp (hidl.1 h).1), if_neg hp]

end Sys2Proof.Machine
end

