-- ==== Sys2Proof/Laws/Each.lean ====
section
/-! SUPPORT. What an instruction that acts thread by thread can do for one thread, said once: its effect, then the fate. -/

namespace Sys2Proof.Machine

/-- The values that the one thread gives its instruction. -/
def oneInput (op : Op) (s : State) (k : Skein) (l : Nat) : LaneIn :=
  let th := laneOf k.threads l
  { lane := l, cyc := s.cycle, vals := (op.srcs k.threads l).map fun r => r.value k.threads l, pred := th.pred, link := th.link }

theorem gather_one (op : Op) (c : Ctl) (s : State) (is : Issue) (k : Skein) (l : Nat) (h : s.poisedOne is k c l)
    (hd : op.denied (laneOf k.threads l) = false)
    (h1 : (laneOf k.threads l).has k.alloc (op.dsts (laneOf k.threads l).views))
    (h2 : (laneOf k.threads l).has k.alloc ((op.reads (laneOf k.threads l).views).flatMap Rd.ops))
    (h3 : op.illegal (laneOf k.threads l).views = false := by rfl) 
    (h4 : (laneOf k.threads l).has k.alloc (op.names (laneOf k.threads l).views) := by intro _ h; cases h) :
    gather op c k is.slot s.cycle (lanesOf is.present) =
      { present := [l], active := [l], go := [oneInput op s k l], faults := [], parity := [] } := by
  obtain ⟨⟨-, -, -, hq, -⟩, hp, hg, -, -⟩ := h
  have hf : [l].filter (fun l => guardHolds c (laneOf k.threads l).pred) = [l] := by simp [hg]
  have hown : ownOf op c [l] l = l := by simp [ownOf]
  rw [gather_quiet op c k is.slot s.cycle _ hq (nodup_lanesOf _) (by rw [hp]; simpa using hd)
    (by rw [hp, hf]; intro j hj; rw [List.mem_singleton] at hj; subst hj; rw [hown]; exact ⟨h3, h1, fun o ho => (List.mem_append.1 ho).elim (h2 o) (h4 o)⟩)]
  rw [hp, hf]
  have : inputOf op c k.threads s.cycle [l] l = oneInput op s k l := by
    simp [inputOf, oneInput, hown]
  simp [this]

/-- A skein of which no access waits makes none of its later ones wait. -/
theorem Skein.unblocked.goes {k : Skein} (h : k.unblocked) (q : Nat) (i : Instr) : k.mustWait q i = false := by
  have hw : ∀ q f, k.waitsBefore q f = false := by
    intro q f
    unfold Skein.waitsBefore
    rw [List.any_eq_false]
    intro th hth
    cases hst : th.st with
    | waiting w => simp [h th hth w hst]
    | _ => simp
  have hs : ∀ e, k.stuck e = false := fun e => hw ..
  unfold Skein.mustWait
  simp [hw, hs]

/-- The instruction of one thread is its effect on the machine, then the end of the issue. -/
theorem runEach_one (i : Instr) (c : Ctl) (stall : Nat) (ends : Bool) (op : SeqOp) (s : State) (is : Issue) (k : Skein)
    (l : Nat) (h : s.poisedOne is k c l) (hd : op.denied (laneOf k.threads l) = false)
    (h1 : (laneOf k.threads l).has k.alloc (op.dsts (laneOf k.threads l).views))
    (h2 : (laneOf k.threads l).has k.alloc ((op.reads (laneOf k.threads l).views).flatMap Rd.ops))
    (h3 : op.illegal (laneOf k.threads l).views = false := by rfl) 
    (h4 : (laneOf k.threads l).has k.alloc (op.names (laneOf k.threads l).views) := by intro _ h; cases h) :
    s.runEach i c stall ends op =
      (op.run (siteOf s is l) (oneInput op.toOp s k l) s).1.retire i is c op.cost stall ends
        { present := [l], active := [l], go := [oneInput op.toOp s k l], faults := [], parity := [] }
        [([l], (op.run (siteOf s is l) (oneInput op.toOp s k l) s).2)] := by
  have hg := gather_one op.toOp c s is k l h hd h1 h2 h3 h4
  obtain ⟨⟨hi, hk, -, hq, -⟩, hp, -, -, hu⟩ := h
  have hi' : s.issued = some (is, k) := by simp [State.issued, hi, hk]
  unfold State.runEach
  rw [hi']
  dsimp only
  rw [heldBack_quiet op.toOp hq, hg]
  have hseq : runSeq op i is c [oneInput op.toOp s k l] s =
      ((op.run (siteOf s is l) (oneInput op.toOp s k l) s).1,
       [([l], (op.run (siteOf s is l) (oneInput op.toOp s k l) s).2)]) := by
    unfold runSeq
    have : ∀ x, fateLanes c [oneInput op.toOp s k l] x = if c.uni then [l] else [x] := fun x => rfl
    have hx : fateLanes c [oneInput op.toOp s k l] (oneInput op.toOp s k l).lane = [l] := by
      rw [this]; cases c.uni <;> rfl
    have ht : (if c.uni = true then [oneInput op.toOp s k l].take 1 else [oneInput op.toOp s k l]) =
        [oneInput op.toOp s k l] := by cases c.uni <;> rfl
    have hgo : ∀ x : Site, x.core = is.core → x.slot = is.slot → s.mustWait x i = false := fun x h1 h2 => by
      simp [State.mustWait, h1, h2, hk, hu.goes]
    simp only [ht, hx, List.foldl_cons, List.foldl_nil, List.nil_append, List.any_nil, Bool.and_false, Bool.false_or]
    rw [hgo _ rfl rfl]
    rfl
  simp only [Bool.false_eq_true, if_false, State.markParity, List.foldl_nil, hseq]

/-- The end of the issue of one thread that met no fault. -/
theorem retire_one (u : State) (i : Instr) (is : Issue) (c : Ctl) (cost stall : Nat) (ends : Bool) (l : Nat) (x : LaneIn)
    (f : Fate) (hf : ∀ t, f ≠ .trap t) (k' : Skein) (hk : u.skein is.core is.slot = some k') (hc : k'.calm) :
    u.endsAs (u.retire i is c cost stall ends
      { present := [l], active := [l], go := [x], faults := [], parity := [] } [([l], f)]) i is l f := by
  -- the thread's fate
  have h1 : u.onlySkein (u.applyFates i is ([l], f)) is.core is.slot ∧
      (u.applyFates i is ([l], f)).skein is.core is.slot =
        some (k'.afterFate i is.word is.pc l f) := by
    cases f with
    | next => exact ⟨u.onlySkein_modThread .., by simp [State.applyFates, State.applyFate, hk, Skein.afterFate]⟩
    | jump p => exact ⟨(u.onlySkein_modThread ..).trans (State.onlySkein_modSkein ..), by
        simp [State.applyFates, State.applyFate, hk, Skein.afterFate]⟩
    | moved => exact ⟨u.onlySkein_modSkein .., by simp [State.applyFates, State.applyFate, hk, Skein.afterFate]⟩
    | wait w v => exact ⟨((u.onlySkein_modSkein ..).trans (State.onlySkein_modThread ..)).trans (State.onlySkein_modSkein ..), by
        simp [State.applyFates, State.applyFate, State.ordOf, hk, Skein.afterFate, Skein.leave]⟩
    | trap t => exact absurd rfl (hf t)
  have hcalm : (k'.afterFate i is.word is.pc l f).calm := by cases f <;> exact hc
  have hhit : (match f with
      | .trap t => [l].map fun l => (l, t)
      | _ => ([] : List (Nat × Trap))) = [] := by
    cases f with
    | trap t => exact absurd rfl (hf t)
    | _ => rfl
  unfold State.retire
  have hidle : dropAll [] (dropAll [l] [l]) = [] := by simp [dropAll]
  simp only [List.flatMap_cons, List.flatMap_nil, hhit, List.append_nil, List.nil_append, List.foldl_cons, List.foldl_nil,
    List.map_nil, hidle, State.raise_nil]
  rw [State.afterStep_calm _ _ _ _ _ _ _ h1.2 hcalm.1]
  obtain ⟨e1, e2, e3⟩ := State.endInstr_calm _ is.core is.slot
    (if [l].length = 0 then 1 else if c.uni = true then cost else cost * [l].length) stall
    (c.runEnd || ends && decide (0 < [l].length)) _ h1.2 hcalm
  refine ⟨h1.1.keepsElse e1, e2, fun k'' hk'' => ?_⟩
  rw [hk] at hk''
  obtain rfl := Option.some.inj hk''
  exact ⟨_, e3⟩

end Sys2Proof.Machine
end

