-- ==== Sys2Proof/Laws/Traps.lean ====
section
/-! SUPPORT. Taking an exception, said once for one user thread: the handler entry of 04 R100 and the host park of R104. -/

namespace Sys2Proof.Machine

theorem foldl_only {σ α : Type} [DecidableEq α] (f : σ → α → σ) (g : σ → σ) (a : α) (ha : ∀ s, f s a = g s)
    (hb : ∀ s b, b ≠ a → f s b = s) : ∀ (l : List α) (s : σ), l.Nodup → a ∈ l → l.foldl f s = g s
  | [], _, _, h => absurd h (by simp)
  | b :: r, s, hn, h => by
    have hn' := List.nodup_cons.1 hn
    have rest : ∀ (r : List α) (s : σ), a ∉ r → r.foldl f s = s := by
      intro r
      induction r with
      | nil => intros; rfl
      | cons x r ih =>
        intro s h
        rw [List.foldl_cons, hb _ _ (fun e => h (by simp [e])), ih s (fun e => h (by simp [e]))]
    rw [List.foldl_cons]
    by_cases hab : b = a
    · subst hab; rw [ha, rest r _ hn'.1]
    · rw [hb _ _ hab]
      exact foldl_only f g a ha hb r s hn'.2 ((List.mem_cons.1 h).resolve_left fun e => hab e.symm)

/-- One thread's fault is one fragment. -/
theorem State.raise_one (s : State) (core slot : Nat) (pc w : Word) (l : Nat) (t : Trap) (hl : l < 32) :
    s.raise core slot pc w [(l, t)] = s.raiseFragment core slot pc w t.cause [(l, t)] := by
  have one : faultsOf t.cause [(l, t)] = [(l, t)] := by
    have : ∀ j, [(l, t)].filter (fun f => f.2.cause == t.cause && f.1 == j) = if j = l then [(l, t)] else [] := by
      intro j
      by_cases h : l = j
      · simp [h]
      · simp [h, Ne.symm h]
    unfold faultsOf
    simp only [this]
    rw [List.flatMap_def, ← List.flatMap_def]
    have : ∀ (r : List Nat), r.Nodup → l ∈ r → (r.flatMap fun j => if j = l then [(l, t)] else []) = [(l, t)] := by
      intro r
      induction r with
      | nil => intro _ h; exact absurd h (by simp)
      | cons a r ih =>
        intro hn h
        have hn' := List.nodup_cons.1 hn
        have none_ : l ∉ r → (r.flatMap fun j => if j = l then [(l, t)] else []) = [] := by
          intro hr
          rw [List.flatMap_eq_nil_iff]
          intro j hj
          rw [if_neg (fun (e : j = l) => hr (e ▸ hj))]
        rw [List.flatMap_cons]
        by_cases h2 : a = l
        · rw [if_pos h2, none_ (h2 ▸ hn'.1)]; rfl
        · rw [if_neg h2, ih hn'.2 ((List.mem_cons.1 h).resolve_left fun e => h2 e.symm)]; rfl
    exact this _ List.nodup_range (List.mem_range.2 hl)
  unfold State.raise
  refine foldl_only _ (fun s : State => s.raiseFragment core slot pc w t.cause [(l, t)]) t.cause (fun s => ?_)
    (fun s b hb => ?_) allCauses _ (by decide) ?_
  · rw [one]
  · have : faultsOf b [(l, t)] = [] := by
      unfold faultsOf
      rw [List.flatMap_eq_nil_iff]
      intro j _
      simp [hb.symm]
    rw [this]
  · generalize t.cause = c
    cases c <;> decide

theorem Thread.settle_quiet (th : Thread) (h : th.quiet) : th.settle = th := by
  obtain ⟨h, -, -, -⟩ := h
  unfold Thread.settle
  rw [h]
  cases th; simp_all

theorem Thread.enter_quiet (th : Thread) (h : th.quiet) (hs : th.sup = false) (c : Cause) (hc : c.replayable = false)
    (pc addr info vec : Word) : th.enter c pc addr info vec = th.atHandler c pc addr info vec := by
  obtain ⟨h, -, -, -⟩ := h
  unfold Thread.enter Thread.atHandler Thread.record causeWord
  simp [h, hs, hc, Views.pack]

variable {s : State} {core slot l : Nat} {pc w : Word} {k : Skein} {t : Trap}

/-- The fragment of one user thread out of its block, with nothing of P or LINK in flight. -/
theorem outOfBlock_eq (is : Issue) (hk : s.skein is.core is.slot = some k) (hq : (laneOf k.threads l).quiet)
    (f g : Thread → Thread) (h : f (laneOf k.threads l) = g (laneOf k.threads l)) :
    ((s.modSkein is.core is.slot fun k => k.leave [l]).modThread is.core is.slot l Thread.settle).modThread
      is.core is.slot l f = s.outOfBlock is l g := by
  unfold State.outOfBlock State.modThread
  simp only [State.modSkein_modSkein]
  rw [s.modSkein_of_some _ _ _ k hk, s.modSkein_of_some _ _ _ k hk]
  simp only [Skein.leave, modAt_modAt]
  rw [modAt_congr l (fun x => f x.settle) g]
  rw [Thread.settle_quiet _ hq, h]

theorem laneOf_settle {ths : List Thread} (hq : (laneOf ths l).quiet) : laneOf (modAt l Thread.settle ths) l = laneOf ths l := by
  by_cases h : l < ths.length
  · rw [laneOf_modAt l l _ _ h, if_pos rfl, Thread.settle_quiet _ hq]
  · simp [laneOf, List.getD_eq_getElem?_getD, getElem?_modAt, List.getElem?_eq_none (Nat.le_of_not_lt h)]

theorem raise_handler (is : Issue) (hl : l < 32) (hk : s.skein is.core is.slot = some k) (hq : (laneOf k.threads l).quiet)
    (hs : (laneOf k.threads l).sup = false) (hr : t.cause.replayable = false) (hw : t.cause ≠ .watchdog)
    (hd : (t.cause.debug && k.dbgctl.getLsbD 2) = false) (hv : (s.varOf is.core is.slot k.ctx).trapvec ≠ 0)
    (ha : (s.varOf is.core is.slot k.ctx).trapvec.toNat % 8 = 0)
    (hh : ∃ h, ((s.outOfBlock is l fun th => th.atHandler t.cause pc t.addr (t.infoOr w)
      (s.varOf is.core is.slot k.ctx).trapvec).fetch is.core k.ctx (s.varOf is.core is.slot k.ctx).trapvec false).2 = .ok h ∧
      isHeader h = true ∧ 2 ≤ fld h 47 8) :
    (s.outOfBlock is l fun th => th.atHandler t.cause pc t.addr (t.infoOr w) (s.varOf is.core is.slot k.ctx).trapvec).memOnly
      (s.raise is.core is.slot pc w [(l, t)]) := by
  rw [State.raise_one _ _ _ _ _ _ _ hl]
  unfold State.raiseFragment
  rw [hk]
  simp only [hr, hw, hd, List.map_cons, List.map_nil, List.foldl_cons, List.foldl_nil, if_false, Bool.false_eq_true]
  have hctx : ∀ a b c, ((s.modSkein is.core is.slot fun k => k.leave [l]).modThread is.core is.slot l Thread.settle).varOf a b c =
      s.varOf a b c := fun a b c => by simp [State.varOf, State.ctx, State.core]
  have hf : ∀ p : Nat × Trap → Bool, p (l, t) = true → [(l, t)].filter p = [(l, t)] := fun p h => by simp [h]
  have hf' : ∀ p : Nat × Trap → Bool, p (l, t) = false → [(l, t)].filter p = [] := fun p h => by simp [h]
  rw [hctx, if_neg hv]
  rw [hf' (fun f => (laneOf k.threads f.1).sup) hs, hf (fun f => !(laneOf k.threads f.1).sup) (by simp [hs])]
  dsimp only
  unfold State.enterHandler
  have hk2 : ∃ k2, ((s.modSkein is.core is.slot fun k => k.leave [l]).modThread is.core is.slot l Thread.settle).skein
      is.core is.slot = some k2 ∧ k2.ctx = k.ctx := by simp [hk, Skein.leave]
  obtain ⟨k2, e, hc⟩ := hk2
  rw [e]
  simp only [List.foldl_cons, List.foldl_nil, hctx, hc]
  rw [outOfBlock_eq is hk hq _ (fun th => th.atHandler t.cause pc t.addr (t.infoOr w) (s.varOf is.core is.slot k.ctx).trapvec)
    (Thread.enter_quiet _ hq hs _ hr ..)]
  generalize (s.outOfBlock is l fun th => th.atHandler t.cause pc t.addr (t.infoOr w) (s.varOf is.core is.slot k.ctx).trapvec) = u at hh ⊢
  obtain ⟨h, h1, h2, h3⟩ := hh
  have hm := (State.memOnly.refl u).fetch is.core k.ctx (s.varOf is.core is.slot k.ctx).trapvec false
  rcases hf : u.fetch is.core k.ctx (s.varOf is.core is.slot k.ctx).trapvec false with ⟨v, r⟩
  rw [hf] at h1 hm
  simp only at h1
  subst h1
  simp only [h2, h3, ha, decide_true, Bool.and_self, beq_self_eq_true, if_true]
  exact hm

/-- What the thread's skein is once its trap has been taken. -/
theorem outOfBlock_skein (is : Issue) (hk : s.skein is.core is.slot = some k) (f : Thread → Thread) :
    (s.outOfBlock is l f).skein is.core is.slot =
      some { k with joined := k.joined &&& ~~~ maskOf [l], threads := modAt l f k.threads } := by
  simp [State.outOfBlock, hk]

/-- The same fault where the word at TRAPVEC is no handler's header. -/
theorem raise_badHandler (is : Issue) (hl : l < 32) (hn : l < k.threads.length) (hk : s.skein is.core is.slot = some k)
    (hq : (laneOf k.threads l).quiet)
    (hs : (laneOf k.threads l).sup = false) (hr : t.cause.replayable = false) (hw : t.cause ≠ .watchdog)
    (hd : (t.cause.debug && k.dbgctl.getLsbD 2) = false) (hv : (s.varOf is.core is.slot k.ctx).trapvec ≠ 0) (h : Word)
    (hh : ((s.outOfBlock is l fun th => th.atHandler t.cause pc t.addr (t.infoOr w)
      (s.varOf is.core is.slot k.ctx).trapvec).fetch is.core k.ctx (s.varOf is.core is.slot k.ctx).trapvec false).2 = .ok h)
    (hb : isHeader h = true → 2 ≤ fld h 47 8 → (s.varOf is.core is.slot k.ctx).trapvec.toNat % 8 ≠ 0) :
    ∃ v, (s.outOfBlock is l fun th => th.atHandler t.cause pc t.addr (t.infoOr w)
        (s.varOf is.core is.slot k.ctx).trapvec).memOnly v ∧
      s.raise is.core is.slot pc w [(l, t)] = (v.modThread is.core is.slot l fun th => { th with st := .hostParked }).post k.ctx
        false { faultEvent is k l (512 + Cause.badTarget.code) (s.varOf is.core is.slot k.ctx).trapvec h with
          pc := (s.varOf is.core is.slot k.ctx).trapvec } := by
  rw [State.raise_one _ _ _ _ _ _ _ hl]
  unfold State.raiseFragment
  rw [hk]
  simp only [hr, hw, hd, List.map_cons, List.map_nil, List.foldl_cons, List.foldl_nil, if_false, Bool.false_eq_true]
  have hctx : ∀ a b c, ((s.modSkein is.core is.slot fun k => k.leave [l]).modThread is.core is.slot l Thread.settle).varOf a b c =
      s.varOf a b c := fun a b c => by simp [State.varOf, State.ctx, State.core]
  have hf : ∀ p : Nat × Trap → Bool, p (l, t) = true → [(l, t)].filter p = [(l, t)] := fun p h => by simp [h]
  have hf' : ∀ p : Nat × Trap → Bool, p (l, t) = false → [(l, t)].filter p = [] := fun p h => by simp [h]
  rw [hctx, if_neg hv]
  rw [hf' (fun f => (laneOf k.threads f.1).sup) hs, hf (fun f => !(laneOf k.threads f.1).sup) (by simp [hs])]
  dsimp only
  unfold State.enterHandler
  have hk2 : ∃ k2, ((s.modSkein is.core is.slot fun k => k.leave [l]).modThread is.core is.slot l Thread.settle).skein
      is.core is.slot = some k2 ∧ k2.ctx = k.ctx := by simp [hk, Skein.leave]
  obtain ⟨k2, e, hc⟩ := hk2
  rw [e]
  simp only [List.foldl_cons, List.foldl_nil, hctx, hc]
  rw [outOfBlock_eq is hk hq _ (fun th => th.atHandler t.cause pc t.addr (t.infoOr w) (s.varOf is.core is.slot k.ctx).trapvec)
    (Thread.enter_quiet _ hq hs _ hr ..)]
  have hsk := outOfBlock_skein (l := l) is hk
    (fun th => th.atHandler t.cause pc t.addr (t.infoOr w) (s.varOf is.core is.slot k.ctx).trapvec)
  generalize (s.outOfBlock is l fun th => th.atHandler t.cause pc t.addr (t.infoOr w) (s.varOf is.core is.slot k.ctx).trapvec) = u at hh hsk ⊢
  have hm := (State.memOnly.refl u).fetch is.core k.ctx (s.varOf is.core is.slot k.ctx).trapvec false
  rcases hfe : u.fetch is.core k.ctx (s.varOf is.core is.slot k.ctx).trapvec false with ⟨v, r⟩
  rw [hfe] at hh hm
  simp only at hh
  subst hh
  refine ⟨v, hm, ?_⟩
  have hno : (isHeader h && decide (2 ≤ fld h 47 8) && (s.varOf is.core is.slot k.ctx).trapvec.toNat % 8 == 0) = false := by
    rw [Bool.eq_false_iff]
    intro e
    simp only [Bool.and_eq_true, decide_eq_true_eq, beq_iff_eq] at e
    exact hb e.1.1 e.1.2 e.2
  simp only [hno, if_false, Bool.false_eq_true, List.map_cons, List.map_nil]
  unfold State.parkFragment
  rw [hm.skein, hsk]
  have hl2 : laneOf (modAt l (fun th => th.atHandler t.cause pc t.addr (t.infoOr w)
      (s.varOf is.core is.slot k.ctx).trapvec) k.threads) l =
      (laneOf k.threads l).atHandler t.cause pc t.addr (t.infoOr w) (s.varOf is.core is.slot k.ctx).trapvec := by
    rw [laneOf_modAt l l _ _ hn, if_pos rfl]
  have hmod : ∀ f g : Thread → Thread, (∀ th : Thread, th.sup = true → f th = g th) →
      v.modThread is.core is.slot l f = v.modThread is.core is.slot l g := by
    intro f g hfg
    unfold State.modThread
    rw [v.modSkein_of_some _ _ _ _ (by rw [hm.skein]; exact hsk), v.modSkein_of_some _ _ _ _ (by rw [hm.skein]; exact hsk)]
    congr 2
    exact modAt_congr _ _ _ _ (hfg _ (by rw [hl2]; rfl))
  simp only [List.foldl_cons, List.foldl_nil, List.map_cons, List.map_nil, fragmentEvent, hl2]
  rw [hmod _ (fun th => { th with st := .hostParked }) (fun th hth => by simp [hth])]
  have hsup : ((laneOf k.threads l).atHandler t.cause pc t.addr (t.infoOr w)
    (s.varOf is.core is.slot k.ctx).trapvec).sup = true := rfl
  simp only [hsup]
  rfl

/-- The same fault where the context has no handler. -/
theorem raise_park (is : Issue) (hl : l < 32) (hk : s.skein is.core is.slot = some k) (hq : (laneOf k.threads l).quiet)
    (hs : (laneOf k.threads l).sup = false) (hr : t.cause.replayable = false) (hw : t.cause ≠ .watchdog)
    (hd : (t.cause.debug && k.dbgctl.getLsbD 2) = false) (hv : (s.varOf is.core is.slot k.ctx).trapvec = 0) :
    s.raise is.core is.slot pc w [(l, t)] =
      (s.outOfBlock is l fun th => th.parkedAt .hostParked t.cause pc t.addr (t.infoOr w)).post k.ctx false
        { kind := 2, core := is.core, slot := is.slot, mask := maskOf [l]
          cause := BitVec.ofNat 32 (256 + t.cause.code), grid := k.grid, pc := pc, addr := t.addr, info := t.infoOr w
          wg := k.wg } := by
  rw [State.raise_one _ _ _ _ _ _ _ hl]
  unfold State.raiseFragment
  rw [hk]
  simp only [hr, hw, hd, List.map_cons, List.map_nil, List.foldl_cons, List.foldl_nil, if_false, Bool.false_eq_true]
  have hctx : ∀ a b c, ((s.modSkein is.core is.slot fun k => k.leave [l]).modThread is.core is.slot l Thread.settle).varOf a b c =
      s.varOf a b c := fun a b c => by simp [State.varOf, State.ctx, State.core]
  have hf : ∀ p : Nat × Trap → Bool, p (l, t) = true → [(l, t)].filter p = [(l, t)] := fun p h => by simp [h]
  have hf' : ∀ p : Nat × Trap → Bool, p (l, t) = false → [(l, t)].filter p = [] := fun p h => by simp [h]
  rw [hctx, if_pos hv]
  unfold State.parkFragment
  have hk2 : ∃ k2, ((s.modSkein is.core is.slot fun k => k.leave [l]).modThread is.core is.slot l Thread.settle).skein
      is.core is.slot = some k2 ∧ k2.ctx = k.ctx ∧ k2.grid = k.grid ∧ k2.wg = k.wg ∧
      (laneOf k2.threads l).sup = (laneOf k.threads l).sup := by
    simp [hk, Skein.leave, laneOf_settle hq]
  obtain ⟨k2, e, hc, hg, hw2, hsup⟩ := hk2
  rw [e]
  simp only [hr, List.foldl_cons, List.foldl_nil, if_false, Bool.false_eq_true, fragmentEvent, hc, hg, hw2, List.map_cons,
    List.map_nil]
  rw [outOfBlock_eq is hk hq _ (fun th => th.parkedAt .hostParked t.cause pc t.addr (t.infoOr w)) (by
    obtain ⟨h, -, -, -⟩ := hq
    unfold Thread.parkedAt Thread.atHandler Thread.record causeWord
    simp [hs, hr, Views.pack])]
  simp [causeWord, hr, hsup, hs]

/-- A fault of a supervisor thread that is neither replayable nor for a debugger: nested (04 R103). -/
theorem raise_nested (is : Issue) (hl : l < 32) (hk : s.skein is.core is.slot = some k) (hq : (laneOf k.threads l).quiet)
    (hs : (laneOf k.threads l).sup = true) (hr : t.cause.replayable = false) (hw : t.cause ≠ .watchdog)
    (hd : (t.cause.debug && k.dbgctl.getLsbD 2) = false) :
    s.raise is.core is.slot pc w [(l, t)] =
      (s.outOfBlock is l fun th => { th with st := .hostParked }).post k.ctx false
        { kind := 2, core := is.core, slot := is.slot, mask := maskOf [l]
          cause := BitVec.ofNat 32 (512 + t.cause.code), grid := k.grid, pc := pc, addr := t.addr, info := t.infoOr w
          wg := k.wg } := by
  rw [State.raise_one _ _ _ _ _ _ _ hl]
  unfold State.raiseFragment
  rw [hk]
  simp only [hr, hw, hd, List.map_cons, List.map_nil, List.foldl_cons, List.foldl_nil, if_false, Bool.false_eq_true]
  have hf : ∀ p : Nat × Trap → Bool, p (l, t) = true → [(l, t)].filter p = [(l, t)] := fun p h => by simp [h]
  have hf' : ∀ p : Nat × Trap → Bool, p (l, t) = false → [(l, t)].filter p = [] := fun p h => by simp [h]
  rw [hf (fun f => (laneOf k.threads f.1).sup) hs, hf' (fun f => !(laneOf k.threads f.1).sup) (by simp [hs])]
  dsimp only
  rw [ite_self]
  unfold State.parkFragment
  have hk2 : ∃ k2, ((s.modSkein is.core is.slot fun k => k.leave [l]).modThread is.core is.slot l Thread.settle).skein
      is.core is.slot = some k2 ∧ k2.ctx = k.ctx ∧ k2.grid = k.grid ∧ k2.wg = k.wg ∧
      (laneOf k2.threads l).sup = (laneOf k.threads l).sup := by
    simp [hk, Skein.leave, laneOf_settle hq]
  obtain ⟨k2, e, hc, hg, hw2, hsup⟩ := hk2
  rw [e]
  simp only [hr, List.foldl_cons, List.foldl_nil, if_false, Bool.false_eq_true, fragmentEvent, hc, hg, hw2,
    List.map_cons, List.map_nil]
  rw [outOfBlock_eq is hk hq _ (fun th => { th with st := .hostParked }) (by simp [hs])]
  simp [causeWord, hr, hsup, hs, Cause.nests, bne_iff_ne.2 hw]

/-- The end of an issue whose fault has been taken. -/
theorem trap_over (v : State) (is : Issue) (occ stall : Nat) (ends : Bool) (k' : Skein)
    (hk : v.skein is.core is.slot = some k') (hc : k'.calm) :
    v.issueOver ((v.afterStep is.core is.slot is.pc [l] [l]).endInstr is.core is.slot occ stall ends) is := by
  rw [State.afterStep_calm _ _ _ _ _ _ _ hk hc.1]
  obtain ⟨e1, e2, e3⟩ := State.endInstr_calm v is.core is.slot occ stall ends k' hk hc
  refine ⟨e1, e2, fun k'' hk'' => ?_⟩
  rw [hk] at hk''
  obtain rfl := Option.some.inj hk''
  exact ⟨_, e3⟩

/-- The one thread executed the instruction, which made it fault. -/
theorem retire_trap (u v : State) (i : Instr) (is : Issue) (c : Ctl) (cost stall : Nat) (ends : Bool) (x : LaneIn)
    (hv : u.raise is.core is.slot is.pc is.word [(l, t)] = v) (k' : Skein) (hk : v.skein is.core is.slot = some k')
    (hc : k'.calm) :
    v.issueOver (u.retire i is c cost stall ends { present := [l], active := [l], go := [x], faults := [], parity := [] }
      [([l], .trap t)]) is := by
  have hidle : dropAll [] (dropAll [l] [l]) = [] := by simp [dropAll]
  unfold State.retire
  simp only [List.flatMap_cons, List.flatMap_nil, List.append_nil, List.nil_append, List.foldl_cons, List.foldl_nil,
    List.map_nil, List.map_cons, hidle, State.applyFates, State.applyFate, hv]
  exact trap_over v is _ _ _ k' hk hc

/-- The one thread may not execute the instruction, or its operands break a check. -/
theorem retire_fault (u v : State) (i : Instr) (is : Issue) (c : Ctl) (cost stall : Nat) (ends : Bool) (act : List Nat)
    (hv : u.raise is.core is.slot is.pc is.word [(l, t)] = v) (k' : Skein) (hk : v.skein is.core is.slot = some k')
    (hc : k'.calm) :
    v.issueOver (u.retire i is c cost stall ends { present := [l], active := act, go := [], faults := [(l, t)], parity := [] }
      []) is := by
  have hidle : dropAll [l] (dropAll act [l]) = [] := by
    unfold dropAll
    rw [List.filter_eq_nil_iff]
    intro a ha
    have := (List.mem_filter.1 ha).1
    simp_all
  unfold State.retire
  simp only [List.flatMap_nil, List.append_nil, List.foldl_nil, List.map_nil, List.map_cons, hidle, hv]
  exact trap_over v is _ _ _ k' hk hc

/-- A skein that one thread of has left keeps its calm. -/
theorem outOfBlock_calm (is : Issue) (hk : s.skein is.core is.slot = some k) (hc : k.calm) (f : Thread → Thread) :
    ∃ k', (s.outOfBlock is l f).skein is.core is.slot = some k' ∧ k'.calm := ⟨_, outOfBlock_skein is hk f, hc⟩

/-- The event of a park changes no skein. -/
theorem skein_post (s : State) (c : Nat) (d : Bool) (e : Event) (a b : Nat) : (s.post c d e).skein a b = s.skein a b :=
  ((State.memOnly.refl s).post c d e).skein a b

/-- A thread that is present is quiet in a poised state. -/
theorem poised_quiet (s : State) (is : Issue) (k : Skein) (l : Nat) (h : s.poised is k) (hl : lanesOf is.present = [l]) :
    (laneOf k.threads l).quiet := by
  have hl := h.2.2.2.2 l (by rw [hl]; simp)
  unfold laneOf
  rw [List.getD_eq_getElem?_getD, List.getElem?_eq_getElem hl]
  exact h.2.2.2.1 _ (List.getElem_mem hl)

/-- What the skein's threads have written to DBGRES stands as it was when the issue is over. -/
theorem over_dbg {v x : State} {is : Issue} {f : Thread → Thread} (h : v.issueOver x is)
    (hk : v.skein is.core is.slot = some { k with joined := k.joined &&& ~~~ maskOf [l], threads := modAt l f k.threads }) :
    ∃ k', x.skein is.core is.slot = some k' ∧ k'.dbg = k.dbg := by
  obtain ⟨r, e⟩ := h.2.2 _ hk
  exact ⟨_, e, rfl⟩

/-- An instruction that ends its issue with one thread's fault, in a state u that its effect has made, takes that exception. -/
theorem trap_taken (i : Instr) (s u x : State) (is : Issue) (k : Skein) (l : Nat) (w : Word) (hp : s.poised is k)
    (hu : u.skein is.core is.slot = some k) (hl : lanesOf is.present = [l])
    (he : (∃ k', x.skein is.core is.slot = some k' ∧ k'.dbg = k.dbg) → exec i s = .next x) (t : Trap)
    (ho : ∀ v k', u.raise is.core is.slot is.pc w [(l, t)] = v → v.skein is.core is.slot = some k' → k'.calm →
      v.issueOver x is)
    (hc : t.cause.replayable = false) (hw : t.cause ≠ .watchdog) (hb : (t.cause.debug && k.dbgctl.getLsbD 2) = false) :
    s.faults i is k l t.cause t.addr (t.infoOr w) u := by
  have hq := poised_quiet s is k l hp hl
  have h32 : l < 32 := by
    have : l ∈ lanesOf is.present := by rw [hl]; simp
    exact List.mem_range.1 (List.mem_of_mem_filter this)
  refine ⟨fun hs hv ha hh => ?_, fun hs hv h hh hb' => ?_, fun hs hv => ?_, fun hs => ?_⟩
  · have hm := raise_handler (pc := is.pc) (w := w) (t := t) is h32 hu hq hs hc hw hb hv ha hh
    obtain ⟨k', e1, e2⟩ := outOfBlock_calm (l := l) is hu hp.2.2.1 fun th => th.atHandler t.cause is.pc t.addr
      (t.infoOr w) (u.varOf is.core is.slot k.ctx).trapvec
    have hv := ho _ k' rfl (by rw [hm.skein]; exact e1) e2
    exact ⟨_, _, hm, he (over_dbg hv (by rw [hm.skein]; exact outOfBlock_skein is hu _)), hv⟩
  · have hn := hp.2.2.2.2 l (by rw [hl]; simp)
    obtain ⟨v, hm, e⟩ := raise_badHandler (pc := is.pc) (w := w) (t := t) is h32 hn hu hq hs hc hw hb hv h hh hb'
    have hk1 := outOfBlock_skein (l := l) is hu fun th => th.atHandler t.cause is.pc t.addr (t.infoOr w)
      (u.varOf is.core is.slot k.ctx).trapvec
    have hk2 : ((v.modThread is.core is.slot l fun th => { th with st := .hostParked }).post k.ctx false
        { faultEvent is k l (512 + Cause.badTarget.code) (u.varOf is.core is.slot k.ctx).trapvec h with
          pc := (u.varOf is.core is.slot k.ctx).trapvec }).skein is.core is.slot =
        some { k with joined := k.joined &&& ~~~ maskOf [l], threads := modAt l (fun th => { th.atHandler t.cause is.pc t.addr
          (t.infoOr w) (u.varOf is.core is.slot k.ctx).trapvec with st := .hostParked }) k.threads } := by
      rw [skein_post]
      unfold State.modThread
      rw [v.modSkein_of_some _ _ _ _ (by rw [hm.skein]; exact hk1), State.skein_setSkein, if_pos rfl]
      simp only [modAt_modAt]
    have hv' := ho _ _ e hk2 hp.2.2.1
    exact ⟨v, _, hm, he (over_dbg hv' hk2), hv'⟩
  · have hm := raise_park (pc := is.pc) (w := w) (t := t) is h32 hu hq hs hc hw hb hv
    obtain ⟨k', e1, e2⟩ := outOfBlock_calm (l := l) is hu hp.2.2.1 fun th => th.parkedAt .hostParked t.cause is.pc t.addr
      (t.infoOr w)
    have hv := ho _ k' rfl (by rw [hm, skein_post]; exact e1) e2
    refine ⟨_, he (over_dbg hv (by rw [hm, skein_post]; exact outOfBlock_skein is hu _)), ?_⟩
    unfold faultEvent
    rw [← hm]
    exact hv
  · have hm := raise_nested (pc := is.pc) (w := w) (t := t) is h32 hu hq hs hc hw hb
    obtain ⟨k', e1, e2⟩ := outOfBlock_calm (l := l) is hu hp.2.2.1 fun th => { th with st := .hostParked }
    have hv := ho _ k' rfl (by rw [hm, skein_post]; exact e1) e2
    refine ⟨_, he (over_dbg hv (by rw [hm, skein_post]; exact outOfBlock_skein is hu _)), ?_⟩
    unfold faultEvent
    rw [← hm]
    exact hv

/-- Its own effect faults, in a state u. -/
theorem runEach_trap (i : Instr) (c : Ctl) (stall : Nat) (ends : Bool) (op : SeqOp) (s : State) (is : Issue) (k : Skein)
    (l : Nat) (h : s.poisedOne is k c l) (he : exec i s = .next (s.runEach i c stall ends op))
    (hd : op.denied (laneOf k.threads l) = false)
    (h1 : (laneOf k.threads l).has k.alloc (op.dsts (laneOf k.threads l).views))
    (h2 : (laneOf k.threads l).has k.alloc ((op.reads (laneOf k.threads l).views).flatMap Rd.ops)) (t : Trap) (u : State)
    (hu : u.skein is.core is.slot = some k)
    (hr : op.run (siteOf s is l) (oneInput op.toOp s k l) s = (u, .trap t))
    (hc : t.cause.replayable = false) (hw : t.cause ≠ .watchdog) (hb : (t.cause.debug && k.dbgctl.getLsbD 2) = false)
    (h3 : op.illegal (laneOf k.threads l).views = false := by rfl) 
    (h4 : (laneOf k.threads l).has k.alloc (op.names (laneOf k.threads l).views) := by intro _ h; cases h) :
    s.faults i is k l t.cause t.addr (t.infoOr is.word) u :=
  trap_taken i s u _ is k l is.word h.1 hu h.2.1 (fun _ => he) t (fun v k' hv hk hc => by
    rw [runEach_one i c stall ends op s is k l h hd h1 h2 h3 h4, hr]
    exact retire_trap _ _ _ _ _ _ _ _ _ hv k' hk hc) hc hw hb

/-- Its views make it ILLEGAL_FIELD (03 R79 row 8). -/
theorem runEach_illegal (i : Instr) (c : Ctl) (stall : Nat) (ends : Bool) (op : SeqOp) (s : State) (is : Issue) (k : Skein)
    (l : Nat) (h : s.poisedOne is k c l) (he : exec i s = .next (s.runEach i c stall ends op))
    (hd : op.denied (laneOf k.threads l) = false)
    (h1 : (laneOf k.threads l).has k.alloc (op.dsts (laneOf k.threads l).views))
    (h2 : (laneOf k.threads l).has k.alloc ((op.reads (laneOf k.threads l).views).flatMap Rd.ops))
    (h3 : op.illegal (laneOf k.threads l).views = true) 
    (h4 : (laneOf k.threads l).has k.alloc (op.names (laneOf k.threads l).views) := by intro _ h; cases h) :
    s.faults i is k l .illegalField 0 is.word :=
  trap_taken i s s _ is k l is.word h.1 h.1.2.1 h.2.1 (fun _ => he) { cause := .illegalField } (fun v k' hv hk hc => by
    have hi' : s.issued = some (is, k) := by simp [State.issued, h.1.1, h.1.2.1]
    unfold State.runEach
    rw [hi']
    dsimp only
    rw [heldBack_quiet op.toOp h.1.2.2.2.1]
    have hg : gather op.toOp c k is.slot s.cycle (lanesOf is.present) =
        { present := [l], active := [l], go := [], faults := [(l, { cause := .illegalField })], parity := [] } := by
      rw [h.2.1]
      have hth : (laneOf k.threads l).at s.cycle = laneOf k.threads l := at_quiet (poised_quiet s is k l h.1 h.2.1) _
      have hact : activeLanes c op.cost k.threads [l] s.cycle = [(l, s.cycle)] := by
        simp [activeLanes, hth, h.2.2.1]
      unfold gather
      simp only [List.filter_cons, hd, if_false, Bool.false_eq_true, List.filter_nil, dropAll_nil, hact, List.map_cons, List.map_nil,
        List.headD_cons, ite_self]
      rw [checkLane_illegal op.toOp c k.alloc _ is.slot h.1.2.2.2.1 l l s.cycle h1 (fun o ho => (List.mem_append.1 ho).elim (h2 o) (h4 o)) h3]
      simp
    rw [hg]
    simp only [Bool.false_eq_true, if_false, State.markParity, List.foldl_nil]
    have : runSeq op i is c [] s = (s, []) := by unfold runSeq; simp
    rw [this]
    exact retire_fault _ _ _ _ _ _ _ _ _ hv k' hk hc) rfl (by simp) rfl

/-- The thread may not execute it (03 R79 row 5). -/
theorem runEach_priv (i : Instr) (c : Ctl) (stall : Nat) (ends : Bool) (op : SeqOp) (s : State) (is : Issue) (k : Skein)
    (l : Nat) (h : s.poised is k) (hl : lanesOf is.present = [l]) (he : exec i s = .next (s.runEach i c stall ends op))
    (hd : op.denied (laneOf k.threads l) = true) : s.faults i is k l .priv 0 is.word :=
  trap_taken i s s _ is k l is.word h h.2.1 hl (fun _ => he) { cause := .priv } (fun v k' hv hk hc => by
    have hi' : s.issued = some (is, k) := by simp [State.issued, h.1, h.2.1]
    unfold State.runEach
    rw [hi']
    dsimp only
    rw [heldBack_quiet op.toOp h.2.2.2.1]
    have hg : gather op.toOp c k is.slot s.cycle (lanesOf is.present) =
        { present := [l], active := [], go := [], faults := [(l, { cause := .priv })], parity := [] } := by
      rw [hl]
      simp [gather, hd, dropAll, activeLanes]
    rw [hg]
    simp only [Bool.false_eq_true, if_false, State.markParity, List.foldl_nil]
    have : runSeq op i is c [] s = (s, []) := by unfold runSeq; simp
    rw [this]
    exact retire_fault _ _ _ _ _ _ _ _ _ hv k' hk hc) rfl (by simp) rfl

end Sys2Proof.Machine
end

