-- ==== Sys2Proof/Laws/Sites.lean ====
section
/-! SUPPORT. What holds of an instruction of one thread, gathered for the statements: its end, the end of its run, the values it
reads, and its address arithmetic. -/

namespace Sys2Proof.Machine

/-- The instruction of one thread, from its effect and fate. -/
theorem each_ends (i : Instr) (c : Ctl) (stall : Nat) (ends : Bool) (op : SeqOp) (s : State) (is : Issue) (k : Skein)
    (l : Nat) (h : s.poisedOne is k c l)
    (hd : op.denied (laneOf k.threads l) = false)
    (h1 : (laneOf k.threads l).has k.alloc (op.dsts (laneOf k.threads l).views))
    (h2 : (laneOf k.threads l).has k.alloc ((op.reads (laneOf k.threads l).views).flatMap Rd.ops)) (u : State) (f : Fate)
    (hr : op.run (siteOf s is l) (oneInput op.toOp s k l) s = (u, f)) (hf : ∀ t, f ≠ .trap t)
    (hu : ∃ k', u.skein is.core is.slot = some k' ∧ k'.calm)
    (h3 : op.illegal (laneOf k.threads l).views = false := by rfl) 
    (h4 : (laneOf k.threads l).has k.alloc (op.names (laneOf k.threads l).views) := by intro _ h; cases h) :
    u.endsAs (s.runEach i c stall ends op) i is l f := by
  rw [runEach_one i c stall ends op s is k l h hd h1 h2 h3 h4, hr]
  obtain ⟨k', e1, e2⟩ := hu
  exact retire_one _ _ _ _ _ _ _ _ _ _ hf k' e1 e2

theorem poised_skein {s : State} {is : Issue} {k : Skein} {c : Ctl} {l : Nat} (h : s.poisedOne is k c l) :
    s.skein is.core is.slot = some k ∧ k.calm := ⟨h.1.2.1, h.1.2.2.1⟩

theorem has_nil (th : Thread) (a : Nat) : th.has a [] := by intro o h; simp at h

theorem sext_word (n : Nat) (x : BitVec n) : word (sextTo 64 x) = x.signExtend 64 := by
  unfold word sextTo
  rw [wrapInt_eq_ofInt, sgn_ofNat, BitVec.ofNat_toNat]
  simp [BitVec.signExtend]

theorem word_mul (a b : Nat) : word (a * b) = word a * word b := by
  unfold word; apply BitVec.eq_of_toNat_eq; simp [BitVec.toNat_mul, Nat.mul_mod]

theorem word_add (a b : Nat) : word (a + b) = word a + word b := by
  unfold word; apply BitVec.eq_of_toNat_eq; simp [BitVec.toNat_add, Nat.add_mod]

theorem poised_quietOne {s : State} {is : Issue} {k : Skein} {c : Ctl} {l : Nat} (h : s.poisedOne is k c l) :
    (laneOf k.threads l).quiet := poised_quiet s is k l h.1 h.2.1

theorem lane_lt {s : State} {is : Issue} {k : Skein} {c : Ctl} {l : Nat} (h : s.poisedOne is k c l) :
    l < k.threads.length := h.1.2.2.2.2 l (by rw [h.2.1]; simp)

theorem site_thread {s : State} {is : Issue} {k : Skein} {c : Ctl} {l : Nat} (h : s.poisedOne is k c l) :
    s.siteThread (siteOf s is l) = laneOf k.threads l := by
  have hl := lane_lt h
  unfold State.siteThread State.thread siteOf laneOf
  dsimp only
  rw [h.1.2.1]
  simp [hl]

theorem reg_value (th : Thread) (ts : Lanes) (l : Nat) (h : laneOf ts l = th) (hs : th.st ≠ .exited) (r : RegOp) (w : Nat) :
    (Rd.reg r w).value ts l = th.reg r w := by
  simp [Rd.value, Rd.pieces, readPiece, h, hs, Thread.reg]

theorem endRun_none (s : State) (core slot : Nat) (k : Skein) (hk : s.skein core slot = some k) (hc : k.calm) :
    (((s.endRun core slot).core core).pipe (slot / 8)).run = none := by
  obtain ⟨h0, h1, h2, h3⟩ := hc
  have hst : k.stopAll.haltNow.stepOver = { k with stop := false } := by
    cases k
    simp_all [Skein.stopAll, Skein.haltNow, Skein.stepOver]
  unfold State.endRun
  set s2 := s.modCore core _ with hs2
  have hk2 : s2.skein core slot = some k := by rw [hs2]; simpa using hk
  rw [s2.modSkein_of_some _ _ _ k hk2, hst]
  unfold State.wdogPark
  rw [State.skein_setSkein, if_pos rfl]
  simp only [h3, State.core_setSkein, hs2]
  rw [State.core_modCore, if_pos rfl]
  simp [Core.pipe, Core.setPipe]

theorem endInstr_ends (s : State) (core slot occ stall : Nat) (k : Skein) (hk : s.skein core slot = some k) (hc : k.calm) :
    (((s.endInstr core slot occ stall true).core core).pipe (slot / 8)).run = none := by
  unfold State.endInstr
  set s1 : State := { (s.modSkein core slot fun k => { k with readyAt := s.cycle + occ + stall, blocked := none }) with issue := none }
    with hs1
  set s2 : State := s1.modCore core fun c => c.setPipe (slot / 8) { c.pipe (slot / 8) with busy := s1.cycle + occ } with hs2
  have hk1 : s1.skein core slot = some { k with readyAt := s.cycle + occ + stall, blocked := none } := by
    have : s1.skein core slot =
        (s.modSkein core slot fun k => { k with readyAt := s.cycle + occ + stall, blocked := none }).skein core slot := rfl
    rw [this]; simp [hk]
  have hk2 : s2.skein core slot = some { k with readyAt := s.cycle + occ + stall, blocked := none } := by
    rw [hs2]; simpa using hk1
  dsimp only
  cases hr : ((s2.core core).pipe (slot / 8)).run with
  | none => exact hr
  | some r =>
    simp only [Bool.true_or, if_true]
    exact endRun_none s2 core slot _ hk2 hc

theorem retire_ends (u : State) (i : Instr) (is : Issue) (c : Ctl) (cost stall : Nat) (l : Nat) (x : LaneIn)
    (f : Fate) (hf : ∀ t, f ≠ .trap t) (k' : Skein) (hk : u.skein is.core is.slot = some k') (hc : k'.calm) :
    (((u.retire i is c cost stall true
      { present := [l], active := [l], go := [x], faults := [], parity := [] } [([l], f)]).core is.core).pipe (is.slot / 8)).run = none := by
  have h1 : (u.applyFates i is ([l], f)).skein is.core is.slot =
        some (k'.afterFate i is.word is.pc l f) := by
    cases f with
    | next => simp [State.applyFates, State.applyFate, State.ordOf, hk, Skein.afterFate, Skein.leave]
    | jump p => simp [State.applyFates, State.applyFate, State.ordOf, hk, Skein.afterFate, Skein.leave]
    | moved => simp [State.applyFates, State.applyFate, State.ordOf, hk, Skein.afterFate, Skein.leave]
    | wait w v => simp [State.applyFates, State.applyFate, State.ordOf, hk, Skein.afterFate, Skein.leave]
    | trap t => exact absurd rfl (hf t)
  have hcalm : (k'.afterFate i is.word is.pc l f).calm := by cases f <;> exact hc
  have hhit : (match f with
      | .trap t => [l].map fun l => (l, t)
      | _ => ([] : List (Nat × Trap))) = [] := by
    cases f with
    | trap t => exact absurd rfl (hf t)
    | _ => rfl
  unfold State.retire
  have hidle : dropAll [] (dropAll [l] [l]) = [] := by simp [dropAll]
  simp only [List.flatMap_cons, List.flatMap_nil, hhit, List.append_nil, List.nil_append, List.foldl_cons, List.foldl_nil,
    List.map_nil, hidle, State.raise_nil]
  rw [State.afterStep_calm _ _ _ _ _ _ _ h1 hcalm.1]
  have : (c.runEnd || true && decide (0 < [l].length)) = true := by simp
  rw [this]
  exact endInstr_ends _ _ _ _ _ _ h1 hcalm

theorem each_ends_run (i : Instr) (c : Ctl) (stall : Nat) (op : SeqOp) (s : State) (is : Issue) (k : Skein)
    (l : Nat) (h : s.poisedOne is k c l)
    (hd : op.denied (laneOf k.threads l) = false)
    (h1 : (laneOf k.threads l).has k.alloc (op.dsts (laneOf k.threads l).views))
    (h2 : (laneOf k.threads l).has k.alloc ((op.reads (laneOf k.threads l).views).flatMap Rd.ops)) (u : State) (f : Fate)
    (hr : op.run (siteOf s is l) (oneInput op.toOp s k l) s = (u, f)) (hf : ∀ t, f ≠ .trap t)
    (hu : ∃ k', u.skein is.core is.slot = some k' ∧ k'.calm)
    (h3 : op.illegal (laneOf k.threads l).views = false := by rfl) 
    (h4 : (laneOf k.threads l).has k.alloc (op.names (laneOf k.threads l).views) := by intro _ h; cases h) :
    (((s.runEach i c stall true op).core is.core).pipe (is.slot / 8)).run = none := by
  rw [runEach_one i c stall true op s is k l h hd h1 h2 h3 h4, hr]
  obtain ⟨k', e1, e2⟩ := hu
  exact retire_ends _ _ _ _ _ _ _ _ _ hf k' e1 e2

theorem modThread_congr {s : State} {is : Issue} {k : Skein} {c : Ctl} {l : Nat} (h : s.poisedOne is k c l) (f g : Thread → Thread)
    (e : f (laneOf k.threads l) = g (laneOf k.threads l)) : s.modThread is.core is.slot l f = s.modThread is.core is.slot l g := by
  unfold State.modThread
  rw [s.modSkein_of_some _ _ _ k h.1.2.1, s.modSkein_of_some _ _ _ k h.1.2.1]
  congr 2
  exact modAt_congr _ _ _ _ e

theorem thread_one {s : State} {is : Issue} {k : Skein} {c : Ctl} {l : Nat} (h : s.poisedOne is k c l) :
    s.thread is.core is.slot l = some (laneOf k.threads l) := by
  have hl := lane_lt h
  unfold State.thread laneOf
  rw [h.1.2.1]
  simp [hl]

theorem bytesAt_putBytes (m : SMap Byte) (a : Nat) (bs : List Byte) : bytesAt (putBytes a bs m) a bs.length = bs := by
  unfold bytesAt
  apply List.ext_getElem (by simp)
  intro i h1 h2
  simp only [List.getElem_map, List.getElem_range]
  rw [byteAt_putBytes]
  have : i < bs.length := h2
  simp [this]

theorem effAddr_eq (a : Nat) (off : BitVec 24) : effAddr a off = word a + off.signExtend 64 := by
  unfold effAddr; rw [word_add, sext_word]

/-- A source that the instruction names, among all its sources. -/
theorem srcs_at (op : Op) (ts : Lanes) (l j : Nat) (r : Rd) (h : (op.reads (laneOf ts l).views)[j]? = some r) :
    (op.srcs ts l)[j]? = some r := by
  unfold Op.srcs
  obtain ⟨hj, -⟩ := List.getElem?_eq_some_iff.1 h
  rw [List.getElem?_append_left hj, h]

/-- Source j of the one thread. -/
theorem val_src (op : Op) (s : State) (k : Skein) (l j : Nat) (r : Rd) (h : (op.reads (laneOf k.threads l).views)[j]? = some r) :
    (oneInput op s k l).val j = r.value k.threads l := by
  unfold LaneIn.val oneInput
  simp only
  rw [List.getD_eq_getElem?_getD, List.getElem?_map, srcs_at op _ _ _ _ h]
  rfl

theorem base_val {s : State} {is : Issue} {k : Skein} {c : Ctl} {l : Nat} (h : s.poisedOne is k c l) (x : FmtM) (op : Op)
    (r : List Rd) (hr : op.reads (laneOf k.threads l).views = baseRead x :: r) :
    (oneInput op s k l).val 0 = (laneOf k.threads l).reg x.base 8 := by
  rw [val_src op s k l 0 (baseRead x) (by rw [hr]; rfl)]
  exact reg_value (laneOf k.threads l) k.threads l rfl (by rw [h.2.2.2.1]; simp) x.base 8

theorem bits_eq (x lo n : Nat) : bits x lo n = x / 2 ^ lo % 2 ^ n := by
  unfold bits; rw [Nat.shiftRight_eq_div_pow]

theorem loadWaits_nil (k : Skein) (h : k.sq = []) : k.loadWaits = false := by simp [Skein.loadWaits, h]

theorem forward_nil (k : Skein) (h : k.sq = []) (p : Place) (bs : List Byte) : k.forward p bs = bs := by simp [Skein.forward, h]

theorem readFor_scr (s : State) (core slot : Nat) (k : Skein) (hk : s.skein core slot = some k) (hq : k.sq = []) (w c off n : Nat) (home : Bool)
    (h1 : (s.part w c).missing off n = []) (h2 : ∀ j ∈ units 128 off n, look (s.part w c).marks j = none)
    (h3 : (s.part w c).badIn off n = []) :
    s.readFor core slot (.scr w c off) n home = (s, .ok (bytesAt (s.part w c).bytes off n) [] []) := by
  have h4 : (units 128 off n).find? (fun j => (look (s.part w c).marks j).isSome) = none := by
    rw [List.find?_eq_none]; intro j hj; simp [h2 j hj]
  unfold State.readFor
  simp only [hk, loadWaits_nil k hq, Place.drains, Bool.or_false, if_false, Bool.false_eq_true]
  unfold State.readPlace
  simp only [h1, ne_eq, not_true, if_false, h4, h3, hk, Option.getD_some, forward_nil k hq, List.map_nil]

theorem readFor_absent (s : State) (core slot : Nat) (k : Skein) (hk : s.skein core slot = some k) (hq : k.sq = []) (w c off n : Nat) (home : Bool)
    (h1 : (s.part w c).missing off n ≠ []) : s.readFor core slot (.scr w c off) n home = (s, .absent) := by
  unfold State.readFor
  simp only [hk, loadWaits_nil k hq, Place.drains, Bool.or_false, if_false, Bool.false_eq_true]
  unfold State.readPlace
  simp only [h1, ne_eq, not_false_eq_true, if_true]

theorem stills_readPlace (s : State) (core : Nat) (p : Place) (n : Nat) (home : Bool) : s.stills (s.readPlace core p n home).1 := by
  unfold State.readPlace
  have h := State.stills.refl s
  split
  · dsimp only
    split
    · exact h.memOnly ((State.memOnly.refl s).homeLoad ..)
    · exact h.memOnly ((State.memOnly.refl s).l1Load ..)
  · exact h.memOnly ((State.memOnly.refl s).homeLoad ..)
  · exact h
  · exact h
  · dsimp only
    split
    · exact h
    · split <;> exact h
  · split <;> exact h
  · split
    · exact h
    · dsimp only
      split
      · exact h
      · refine State.stills.fold _ (fun t a ht => ?_) _ _ h
        exact State.stills.count (ht.modSkein _ _ _ (by intro _; rfl)) ..
  · exact h

theorem stills_readFor (s : State) (core slot : Nat) (p : Place) (n : Nat) (home : Bool) : s.stills (s.readFor core slot p n home).1 := by
  unfold State.readFor
  split
  · exact .refl s
  · rename_i k hk
    dsimp only
    have h0 : s.stills (if (k.loadWaits || p.drains) = true then s.drainQueue core slot else s) := by
      split
      · exact (State.stills.refl s).drainQueue ..
      · exact .refl s
    have h1 := h0.trans (stills_readPlace (if (k.loadWaits || p.drains) = true then s.drainQueue core slot else s) core p n home)
    split
    · rename_i e; rw [e] at h1; exact h1
    · rename_i e; rw [e] at h1
      exact (State.stills.drainQueue h1 core slot).trans (stills_readPlace ..)
    · exact h1

theorem hold_stills (s : State) (x : Site) (r : RegOp) (w v : Nat) (bad : List Nat) : s.stills (s.hold x r w v bad) := by
  unfold State.hold
  refine State.stills.fold _ (fun t a ht => ?_) _ _ (.refl s)
  exact ht.modSkein _ _ _ fun _ => rfl

end Sys2Proof.Machine
end

