-- ==== Sys2Proof/Laws/Drain.lean ====
section
/-! SUPPORT. What a release leaves: an empty store queue, no write-through of the core, and no dirty private line in its L1 (08
R214); and the queue of a skein through the operations that perform its entries. -/

namespace Sys2Proof.Machine

/-- An instruction of one thread ends with an effect and a fate. -/
theorem one_ends (i : Instr) (c : Ctl) (stall : Nat) (ends : Bool) (op : SeqOp) (s : State) (is : Issue) (k : Skein)
    (l : Nat) (h : s.poisedOne is k c l) (he : exec i s = .next (s.runEach i c stall ends op))
    (hd : op.denied (laneOf k.threads l) = false)
    (h1 : (laneOf k.threads l).has k.alloc (op.dsts (laneOf k.threads l).views))
    (h2 : (laneOf k.threads l).has k.alloc ((op.reads (laneOf k.threads l).views).flatMap Rd.ops)) (u : State) (f : Fate)
    (hr : op.run (siteOf s is l) (oneInput op.toOp s k l) s = (u, f)) (hf : ∀ t, f ≠ .trap t)
    (hu : ∃ k', u.skein is.core is.slot = some k' ∧ k'.calm)
    (h3 : op.illegal (laneOf k.threads l).views = false := by rfl) 
    (h4 : (laneOf k.threads l).has k.alloc (op.names (laneOf k.threads l).views) := by intro _ h; cases h) :
    ∃ t, exec i s = .next t ∧ u.endsAs t i is l f :=
  ⟨_, he, each_ends i c stall ends op s is k l h hd h1 h2 u f hr hf hu h3 h4⟩

/-- An instruction that acts once for the skein, of which one thread runs it. -/
theorem once_ends (i : Instr) (c : Ctl) (op : Op) (act : Site → List LaneIn → State → State × Fate) (s : State) (is : Issue)
    (k : Skein) (l : Nat) (h : s.poisedOne is k c l) (he : exec i s = .next (s.runOnce i c op act))
    (hd : op.denied (laneOf k.threads l) = false)
    (h1 : (laneOf k.threads l).has k.alloc (op.dsts (laneOf k.threads l).views))
    (h2 : (laneOf k.threads l).has k.alloc ((op.reads (laneOf k.threads l).views).flatMap Rd.ops)) (u : State) (f : Fate)
    (hr : act (siteOf s is l) [oneInput op s k l] s = (u, f)) (hf : ∀ t, f ≠ .trap t)
    (hu : ∃ k', u.skein is.core is.slot = some k' ∧ k'.calm)
    (h3 : op.illegal (laneOf k.threads l).views = false := by rfl) 
    (h4 : (laneOf k.threads l).has k.alloc (op.names (laneOf k.threads l).views) := by intro _ h; cases h) :
    ∃ t, exec i s = .next t ∧ u.endsAs t i is l f := by
  refine ⟨_, he, ?_⟩
  have hg := gather_one op c s is k l h hd h1 h2 h3 h4
  have hi' : s.issued = some (is, k) := by simp [State.issued, h.1.1, h.1.2.1]
  unfold State.runOnce
  rw [hi']
  dsimp only
  rw [heldBack_quiet op h.1.2.2.2.1, hg]
  have hgo := h.2.2.2.2.goes k.ord i
  simp only [Bool.false_eq_true, if_false, State.markParity, List.foldl_nil, List.map_cons, List.map_nil, hgo]
  have hs' : act { core := is.core, slot := is.slot, lane := (oneInput op s k l).lane, lanes := [(oneInput op s k l).lane],
                   cyc := (oneInput op s k l).cyc, pc := is.pc, word := is.word, ord := k.ord } [oneInput op s k l] s = (u, f) := by
    rw [← hr]
    simp [siteOf, oneInput, State.ordOf, h.1.2.1]
  rw [hs']
  obtain ⟨k', e1, e2⟩ := hu
  exact retire_one _ _ _ _ _ _ _ _ _ _ hf k' e1 e2

/-- Source j of the one thread, a register. -/
theorem val_at {s : State} {is : Issue} {k : Skein} {c : Ctl} {l : Nat} (h : s.poisedOne is k c l) (op : Op) (j : Nat)
    (r : RegOp) (w : Nat) (hr : (op.reads (laneOf k.threads l).views)[j]? = some (.reg r w)) :
    (oneInput op s k l).val j = (laneOf k.threads l).reg r w := by
  rw [val_src op s k l j _ hr]
  exact reg_value (laneOf k.threads l) k.threads l rfl (by rw [h.2.2.2.1]; simp) r w

/-- Source j of the one thread, a group. -/
theorem group_at {s : State} {is : Issue} {k : Skein} {c : Ctl} {l : Nat} (h : s.poisedOne is k c l) (op : Op) (j : Nat)
    (r : RegOp) (w n : Nat) (hr : (op.reads (laneOf k.threads l).views)[j]? = some (.group r w n)) :
    (oneInput op s k l).val j = natAt (laneOf k.threads l).regs (regAddr (laneOf k.threads l).views r) (w * n) := by
  rw [val_src op s k l j _ hr]
  simp [Rd.value, Rd.pieces, readPiece, h.2.2.2.1]

/-- A skein of the one thread keeps its calm through what performs its queue. -/
theorem poised_calm {s : State} {is : Issue} {k : Skein} {c : Ctl} {l : Nat} (h : s.poisedOne is k c l) {u : State}
    (hs : s.stills u) : ∃ k', u.skein is.core is.slot = some k' ∧ k'.calm :=
  hs.calm _ _ k (poised_skein h).1 (poised_skein h).2

theorem has_two {th : Thread} {a : Nat} {p q : RegOp × Nat × Nat} (h : th.has a [p, q]) : th.has a [p] ∧ th.has a [q] :=
  ⟨fun o ho => h o (by simp at ho; simp [ho]), fun o ho => h o (by simp at ho; simp [ho])⟩

/-- The two sources of the one thread. -/
theorem vals_two {s : State} {is : Issue} {k : Skein} {c : Ctl} {l : Nat} (h : s.poisedOne is k c l) (op : Op) (r1 r2 : RegOp)
    (w1 w2 : Nat) (hr : op.reads (laneOf k.threads l).views = [.reg r1 w1, .reg r2 w2])
    (hm : ∀ vs, op.more vs = [] := by intro _; rfl) :
    (oneInput op s k l).vals = [(laneOf k.threads l).reg r1 w1, (laneOf k.threads l).reg r2 w2] := by
  have h1 := reg_value (laneOf k.threads l) k.threads l rfl (by rw [h.2.2.2.1]; simp) r1 w1
  have h2 := reg_value (laneOf k.threads l) k.threads l rfl (by rw [h.2.2.2.1]; simp) r2 w2
  unfold oneInput Op.srcs
  simp only [hr, hm, List.append_nil, List.map_cons, List.map_nil, h1, h2]

theorem memOnly_atomPlace (s : State) (st : Site) (k : Skein) (va : Word) (n : Nat) (red : Bool) (op : AtomOp) :
    s.memOnly (s.atomPlace st k va n red op).1 := by
  unfold State.atomPlace
  repeat' first
    | with_reducible exact State.memOnly.refl s
    | refine State.memOnly.beside (by assumption) ?_
    | with_reducible apply State.memOnly.place
    | split

theorem part_modPart (s : State) (w c : Nat) (f : Part → Part) (g : Workgroup) (hw : s.wg w = some g) :
    (s.modPart w c f).part w c = f (s.part w c) := by
  unfold State.modPart State.modWg State.part State.wg at *
  simp [hw, lookD_set]

-- THE QUEUE

/-- The store queue of a slot's skein and the states of its threads. -/
def State.sqOf (s : State) (c l : Nat) : Option (List SqEntry × List ThreadState) :=
  (s.skein c l).map fun k => (k.sq, k.threads.map (·.st))

theorem sqOf_modSkein (s : State) (c l c' l' : Nat) (f : Skein → Skein) (hf : ∀ k, (f k).sq = k.sq)
    (hs : ∀ k, (f k).threads.map (·.st) = k.threads.map (·.st)) : (s.modSkein c' l' f).sqOf c l = s.sqOf c l := by
  unfold State.sqOf
  rw [State.skein_modSkein]
  split
  · rename_i e
    have : s.skein c l = s.skein c' l' := by unfold State.skein; rw [e]
    rw [this]
    cases s.skein c' l' <;> simp [hf, hs]
  · rfl

theorem sqOf_skeins {s t : State} (e : t.skeins = s.skeins) (c l : Nat) : t.sqOf c l = s.sqOf c l := by
  unfold State.sqOf State.skein; rw [e]

theorem State.memOnly.sqOf {s t : State} (h : s.memOnly t) (c l : Nat) : t.sqOf c l = s.sqOf c l := sqOf_skeins h.skeins c l

theorem sqOf_count (s : State) (x i n c l : Nat) : (s.count x i n).sqOf c l = s.sqOf c l := sqOf_skeins (by simp [State.count]) ..

theorem sqOf_atomSite (s : State) (core : Nat) (p : Place) (n c l : Nat) : (s.atomSite core p n).sqOf c l = s.sqOf c l :=
  ((State.memOnly.refl s).atomSite ..).sqOf ..

theorem sqOf_atomAt (s : State) (core : Nat) (p : Place) (n : Nat) (f : Nat → Option Nat) (c l : Nat) :
    (s.atomAt core p n f).1.sqOf c l = s.sqOf c l := by
  unfold State.atomAt
  split
  · dsimp only
    split
    · exact ((State.memOnly.refl s).atomL1 ..).sqOf ..
    · rename_i pa _
      have h1 := (State.memOnly.refl s).atomHome core pa n f
      have h2 : s.memOnly ((s.atomHome core pa n f).1.setCore core
          (((s.atomHome core pa n f).1.core core).predict (pa / 128) s.cycle).1) :=
        State.memOnly.caches h1 core (fun x => (x.predict (pa / 128) s.cycle).1) (by intro _; rfl)
      split
      · exact (h2.promote ..).sqOf ..
      · exact h2.sqOf ..
  · exact ((State.memOnly.refl s).atomHome ..).sqOf ..
  · dsimp only
    split <;> rfl
  · dsimp only
    split
    · rfl
    · exact sqOf_skeins (State.modPart_skeins ..) ..
  · rfl

theorem sqOf_linkPut (s : State) (x a : Nat) (bs : List Byte) (peer : Bool) (c l : Nat) :
    (s.linkPut x a bs peer).sqOf c l = s.sqOf c l := by
  unfold State.linkPut
  repeat' split
  · exact sqOf_count ..
  · rfl
  · rfl

theorem states_modAt (f : Thread → Thread) (hf : ∀ th, (f th).st = th.st) : ∀ (l : Nat) (ts : List Thread),
    (modAt l f ts).map (·.st) = ts.map (·.st)
  | _, [] => by simp [modAt]
  | 0, x :: r => by simp [modAt, hf]
  | l + 1, x :: r => by simp [modAt, states_modAt f hf l r]

theorem st_land (th : Thread) (w : Landing) : (th.land w).st = th.st := by
  cases w <;> simp [Thread.land, Thread.store]

theorem st_at (th : Thread) (cyc : Nat) : (th.at cyc).st = th.st := by
  have : ∀ (l : List Pend) (t : Thread), (l.foldl (fun t p => t.land p.what) t).st = t.st := by
    intro l
    induction l with
    | nil => intro t; rfl
    | cons a r ih => intro t; rw [List.foldl_cons, ih, st_land]
  exact this _ _

theorem sqOf_performAct (s : State) (core ctx : Nat) (a : SqAct) (c l : Nat) :
    (s.performAct core ctx a).sqOf c l = s.sqOf c l := by
  unfold State.performAct
  split
  · unfold State.storeAt
    split
    · exact ((State.memOnly.refl s).l1Store ..).sqOf ..
    · exact ((State.memOnly.refl s).caches _ _ (by intro _; rfl)).sqOf ..
    · exact sqOf_linkPut ..
    · exact sqOf_linkPut ..
    · exact sqOf_skeins (State.modPart_skeins ..) ..
    · rfl
    · refine sqOf_modSkein _ _ _ _ _ _ (fun _ => rfl) fun _ => states_modAt _ (fun th => ?_) ..
      split
      · rfl
      · simp [Thread.store, st_at]
    · rfl
  · dsimp only
    rename_i wide _
    generalize (if wide = true then 8 else 4) = n
    repeat' split
    · rw [sqOf_count, sqOf_atomSite]
    · exact sqOf_atomSite ..
    · rw [sqOf_atomAt, sqOf_atomSite]
  · exact ((State.memOnly.refl s).cmo ..).sqOf ..
  · exact sqOf_skeins (State.modPart_skeins ..) ..
  · exact sqOf_skeins (State.modPart_skeins ..) ..
  · exact sqOf_skeins (State.modPart_skeins ..) ..
  · exact sqOf_skeins (State.modPart_skeins ..) ..
  · exact sqOf_skeins (State.modPart_skeins ..) ..
  · rfl
  · dsimp only
    split
    · exact sqOf_atomSite ..
    · rw [sqOf_atomAt, sqOf_atomSite]

/-- No access of threads in such states waits. -/
def free_ (ts : List ThreadState) : Prop := ∀ w, .waiting w ∈ ts → w.what.blocks = false

theorem Skein.unblocked.free_ {k : Skein} (h : k.unblocked) : Machine.free_ (k.threads.map (·.st)) := by
  intro w hw
  obtain ⟨th, h1, h2⟩ := List.mem_map.1 hw
  exact h th h1 w h2

theorem free_.unblocked {k : Skein} (h : Machine.free_ (k.threads.map (·.st))) : k.unblocked :=
  fun th hth w hw => h w (List.mem_map.2 ⟨th, hth, hw⟩)

theorem Skein.unblocked.runs {k : Skein} (h : k.unblocked) (e : SqEntry) : k.stuck e = false := by
  unfold Skein.stuck Skein.waitsBefore
  rw [List.any_eq_false]
  intro th hth
  cases hst : th.st with
  | waiting w => simp [h th hth w hst]
  | _ => simp

theorem sqOf_performHead (s : State) (c l : Nat) (q : List SqEntry) (ts : List ThreadState) (h : s.sqOf c l = some (q, ts))
    (hf : free_ ts) : (s.performHead c l).sqOf c l = some (q.tail, ts) := by
  unfold State.performHead
  split
  · rename_i h'; simp [State.sqOf, h'] at h
  · rename_i k hk
    simp only [State.sqOf, hk, Option.map_some, Option.some.injEq, Prod.mk.injEq] at h
    obtain ⟨rfl, rfl⟩ := h
    split
    · rename_i h'; simp [State.sqOf, hk, h']
    · rename_i e r h'
      rw [if_neg (by rw [hf.unblocked.runs]; simp)]
      dsimp only
      have h1 : (s.setSkein c l { k with sq := r }).sqOf c l = some (r, k.threads.map (·.st)) := by
        simp [State.sqOf, State.skein_setSkein]
      rw [sqOf_performAct, h']
      split
      · rw [((State.memOnly.refl _).release ..).sqOf, h1]; rfl
      · exact h1

/-- A drained queue is empty. -/
theorem sqOf_drainQueue (s : State) (c l : Nat) (k : Skein) (h : s.skein c l = some k) (hu : k.unblocked) :
    (s.drainQueue c l).sqOf c l = some ([], k.threads.map (·.st)) := by
  unfold State.drainQueue
  rw [h]
  dsimp only
  have : ∀ (q : List SqEntry) (t : State), t.sqOf c l = some (q, k.threads.map (·.st)) →
      (q.foldl (fun s _ => s.performHead c l) t).sqOf c l = some ([], k.threads.map (·.st)) := by
    intro q
    induction q with
    | nil => intro t h; exact h
    | cons e r ih => intro t h; rw [List.foldl_cons]; exact ih _ (sqOf_performHead _ _ _ _ _ h hu.free_)
  exact this _ _ (by simp [State.sqOf, h])

theorem sqOf_drainTo (s : State) (c l scope : Nat) (k : Skein) (h : s.skein c l = some k) (hu : k.unblocked) :
    (s.drainTo c l scope).sqOf c l = some ([], k.threads.map (·.st)) := by
  have h1 := sqOf_drainQueue s c l k h hu
  unfold State.drainTo
  dsimp only
  split
  · exact h1
  · rw [((State.memOnly.refl _).release ..).sqOf, h1]

theorem skein_of_sqOf {s : State} {c l : Nat} {q : List SqEntry} {ts : List ThreadState} (h : s.sqOf c l = some (q, ts)) :
    ∃ k, s.skein c l = some k ∧ k.sq = q := by
  unfold State.sqOf at h
  cases e : s.skein c l with
  | none => rw [e] at h; simp at h
  | some k => rw [e] at h; simp at h; exact ⟨k, rfl, h.1⟩

-- WRITE-THROUGHS AND PRIVATE LINES

theorem core_homePut (s : State) (a : Nat) (bs : List Byte) (bad : List Nat) (c : Nat) : (s.homePut a bs bad).core c = s.core c := rfl

theorem wt_evict (s : State) (c line d : Nat) : ((s.evict c line).core d).wt = (s.core d).wt := by
  unfold State.evict
  split
  · rfl
  · dsimp only
    rw [State.core_modCore]
    split
    · subst d; split <;> rfl
    · split <;> rfl

theorem fold_same {α β : Type} (g : State → β) (f : State → α → State) (hf : ∀ s a, g (f s a) = g s) :
    ∀ (l : List α) (s : State), g (l.foldl f s) = g s
  | [], _ => rfl
  | a :: r, s => by rw [List.foldl_cons, fold_same g f hf r, hf]

theorem wt_homeWrite (s : State) (a : Nat) (bs : List Byte) (bad : List Nat) (b : Option Nat) (d : Nat) :
    ((s.homeWrite a bs bad b).core d).wt = (s.core d).wt := by
  unfold State.homeWrite State.recallRange
  rw [core_homePut]
  refine fold_same (fun s => (s.core d).wt) _ (fun s j => ?_) _ _
  unfold State.recall
  refine fold_same (fun s => (s.core d).wt) _ (fun s c => ?_) _ _
  repeat' split
  all_goals first | rfl | exact wt_evict ..

/-- Every write-through of the core has performed. -/
theorem wt_drainThrough (s : State) (c : Nat) : ((s.drainThrough c).core c).wt = [] := by
  unfold State.drainThrough
  have : ∀ (q : List WriteThrough) (t : State), (t.core c).wt = q →
      ((q.foldl (fun s _ => s.performThrough c 0) t).core c).wt = [] := by
    intro q
    induction q with
    | nil => intro t h; exact h
    | cons e r ih =>
      intro t h
      rw [List.foldl_cons]
      refine ih _ ?_
      unfold State.performThrough
      rw [h]
      simp only [List.getElem?_cons_zero, State.core_modCore, if_true, wt_homeWrite, h, List.eraseIdx_zero, List.tail_cons]
  exact this _ _ rfl

theorem l1_clean (s : State) (c line j : Nat) :
    look ((s.clean c line).core c).l1 j = look (s.core c).l1 j ∨
      ∃ d, look ((s.clean c line).core c).l1 j = some d ∧ d.dirty = false := by
  unfold State.clean
  split
  · exact .inl rfl
  · split
    · rw [State.core_modCore, if_pos rfl]
      dsimp only
      rw [look_ins]
      split
      · exact .inr ⟨_, rfl, rfl⟩
      · exact .inl rfl
    · exact .inl rfl

theorem l1_clean_self (s : State) (c j : Nat) (d : L1Line) (h : look ((s.clean c j).core c).l1 j = some d)
    (hd : d.dirty = true) : d.excl = true := by
  revert h
  unfold State.clean
  split
  · rename_i e; intro h; rw [e] at h; cases h
  · rename_i l e
    split
    · rw [State.core_modCore, if_pos rfl]
      dsimp only
      rw [look_ins, if_pos rfl]
      intro h; obtain rfl := Option.some.inj h; cases hd
    · rename_i hn
      intro h; rw [e] at h; obtain rfl := Option.some.inj h
      simp [hd] at hn

theorem l1_cleanAll (c : Nat) : ∀ (js : List Nat) (s : State) (j : Nat) (d : L1Line),
    look ((js.foldl (fun s line => s.clean c line) s).core c).l1 j = some d → d.dirty = true →
    (j ∈ js → d.excl = true) ∧ look (s.core c).l1 j = some d
  | [], s, j, d, h, _ => ⟨fun h => by simp at h, h⟩
  | a :: r, s, j, d, h, hd => by
    rw [List.foldl_cons] at h
    obtain ⟨h1, h2⟩ := l1_cleanAll c r (s.clean c a) j d h hd
    have h3 : look (s.core c).l1 j = some d := by
      rcases l1_clean s c a j with e | ⟨d', e, hn⟩
      · rw [← e]; exact h2
      · rw [e] at h2; obtain rfl := Option.some.inj h2; rw [hn] at hd; cases hd
    refine ⟨fun hm => ?_, h3⟩
    rcases List.mem_cons.1 hm with rfl | hm
    · exact l1_clean_self _ _ _ _ h2 hd
    · exact h1 hm

theorem mem_of_look {α : Type} : ∀ (m : SMap α) (k : Nat) (a : α), look m k = some a → (k, a) ∈ m
  | [], _, _, h => by simp [look] at h
  | (k', b) :: r, k, a, h => by
    unfold look at h
    split at h
    · rename_i e; obtain rfl := Option.some.inj h; simp_all
    · exact List.mem_cons_of_mem _ (mem_of_look r k a h)

/-- Every dirty line of the core's L1 is exclusive. -/
theorem l1_cleanPrivate (s : State) (c j : Nat) (d : L1Line) (h : look ((s.cleanPrivate c).core c).l1 j = some d)
    (hd : d.dirty = true) : d.excl = true := by
  unfold State.cleanPrivate at h
  obtain ⟨h1, h2⟩ := l1_cleanAll c _ _ _ _ h hd
  by_cases he : d.excl = true
  · exact he
  · refine h1 ?_
    rw [List.mem_filterMap]
    exact ⟨(j, d), mem_of_look _ _ _ h2, by simp [hd, he]⟩

theorem wt_clean (s : State) (c line d : Nat) : ((s.clean c line).core d).wt = (s.core d).wt := by
  unfold State.clean
  repeat' split
  · rfl
  · rw [State.core_modCore]
    split
    · subst d; rfl
    · rfl
  · rfl

theorem wt_cleanPrivate (s : State) (c d : Nat) : ((s.cleanPrivate c).core d).wt = (s.core d).wt :=
  fold_same (fun s => (s.core d).wt) _ (fun _ _ => wt_clean ..) _ _

/-- A release at a scope that reaches the home slices. -/
theorem release_wide (s : State) (c : Nat) : ((s.release c true).core c).wt = [] ∧
    ∀ j d, look ((s.release c true).core c).l1 j = some d → d.dirty = true → d.excl = true := by
  unfold State.release
  simp only [if_true]
  exact ⟨by rw [wt_cleanPrivate, wt_drainThrough], fun j d h hd => l1_cleanPrivate _ _ _ _ h hd⟩

end Sys2Proof.Machine
end

