-- ==== Sys2Proof/Laws/Sound.lean ====
section
/-! SUPPORT. Every operation on memory keeps the canonical form of the memories, and the rest of `State.sound`; the memory
of reset has it. -/

namespace Sys2Proof.Machine

theorem reset_mem_wf : State.reset.mem.wf := ⟨rfl, rfl, rfl⟩

/-- A state is sound where its memories are canonical and the boot results, the time counter and the monitors are those of a
sound one. -/
theorem State.sound.of {s t : State} (h : s.sound) (hm : t.mem.wf) (hb : t.boot = s.boot) (ht : t.time = s.time) (hc : t.mon = s.mon) :
    t.sound := by
  unfold State.sound
  rw [hb, ht, hc]
  exact ⟨hm, h.2⟩

/-- A state that differs from a sound one in neither of them is sound. -/
theorem State.sound.same {s t : State} (h : s.sound) (hm : t.mem = s.mem) (hb : t.boot = s.boot) (ht : t.time = s.time)
    (hc : t.mon = s.mon) : t.sound := h.of (hm ▸ h.1) hb ht hc

/-- What every step of a fold keeps, the fold keeps. -/
theorem State.sound.fold {α : Type} (f : State → α → State) (hf : ∀ t a, t.sound → (f t a).sound) :
    ∀ (l : List α) (t : State), t.sound → (l.foldl f t).sound
  | [], _, h => h
  | a :: l, t, h => State.sound.fold f hf l (f t a) (hf t a h)

/-- The state that a pair holds beside a value. -/
theorem State.sound.beside {α : Type} {u : State} {r : State × α} {a : α} (e : r = (u, a)) (h : r.1.sound) : u.sound := by
  rw [e] at h; exact h

variable {t : State}

theorem State.sound.choose (h : t.sound) : t.choose.2.sound := h.same rfl rfl rfl rfl

theorem State.sound.modCore (h : t.sound) (c : Nat) (f : Core → Core) : (t.modCore c f).sound := h.same (by simp) (by simp) (by simp) (by simp)

theorem State.sound.modCtx (h : t.sound) (c : Nat) (f : Context → Context) : (t.modCtx c f).sound := h.same (by simp) (by simp) (by simp) (by simp)

theorem State.sound.homePut (h : t.sound) (a : Nat) (bs : List Byte) (bad : List Nat) : (t.homePut a bs bad).sound :=
  h.of ⟨canonical_putBytes _ _ _ h.1.1, h.1.2.1, h.1.2.2⟩ rfl rfl rfl

theorem State.sound.hostPut (h : t.sound) (a : Nat) (bs : List Byte) : (t.hostPut a bs).sound :=
  h.of ⟨h.1.1, h.1.2.1, canonical_putBytes _ _ _ h.1.2.2⟩ rfl rfl rfl

theorem State.sound.count (h : t.sound) (c i n : Nat) : (t.count c i n).sound := h.same (by simp [State.count]) (by simp [State.count])
  (by simp [State.count]) (by simp [State.count])

theorem State.sound.linkPut (h : t.sound) (c a : Nat) (bs : List Byte) (peer : Bool) : (t.linkPut c a bs peer).sound := by
  unfold State.linkPut
  repeat' split
  · exact h.count ..
  · exact h.of h.1 rfl rfl rfl
  · exact h.hostPut ..

theorem State.sound.putRing (h : t.sound) (a : Nat) (bs : List Byte) : (t.putRing a bs).sound :=
  h.of ⟨h.1.1, canonical_putBytes _ _ _ h.1.2.1, h.1.2.2⟩ rfl rfl rfl

theorem State.sound.putPte (h : t.sound) (a v : Nat) : (t.putPte a v).sound :=
  h.of ⟨canonical_putBytes _ _ _ h.1.1, h.1.2.1, h.1.2.2⟩ rfl rfl rfl

theorem State.sound.evict (h : t.sound) (c line : Nat) : (t.evict c line).sound := by
  unfold State.evict
  split
  · exact h
  · dsimp only
    split
    · exact (h.homePut ..).modCore ..
    · exact h.modCore ..

theorem State.sound.clean (h : t.sound) (c line : Nat) : (t.clean c line).sound := by
  unfold State.clean
  repeat' split
  · exact h
  · exact (h.homePut ..).modCore ..
  · exact h

theorem State.sound.recall (h : t.sound) (line : Nat) (by_ : Option Nat) : (t.recall line by_).sound := by
  unfold State.recall
  refine State.sound.fold _ (fun t c h => ?_) _ _ h
  repeat' split
  all_goals first | exact h | exact h.evict ..

theorem State.sound.recallRange (h : t.sound) (a n : Nat) (by_ : Option Nat) : (t.recallRange a n by_).sound :=
  State.sound.fold _ (fun _ _ h => h.recall ..) _ _ h

theorem State.sound.homeRead (h : t.sound) (a n : Nat) (by_ : Option Nat) : (t.homeRead a n by_).1.sound := h.recallRange ..

theorem State.sound.homeWrite (h : t.sound) (a : Nat) (bs : List Byte) (bad : List Nat) (by_ : Option Nat) :
    (t.homeWrite a bs bad by_).sound := (h.recallRange ..).homePut ..

theorem State.sound.l1Room (h : t.sound) (c line : Nat) : (t.l1Room c line).sound := by
  unfold State.l1Room
  dsimp only
  split
  · exact h
  · exact State.sound.evict (t := (t.pick _).2) h.choose ..

theorem State.sound.fill (h : t.sound) (c line : Nat) (d : Bool) : (t.fill c line d).sound := by
  have h1 := (h.l1Room c line).homeRead (128 * line) 128 (some c)
  unfold State.fill
  dsimp only
  split
  · exact h1.modCore ..
  · refine State.sound.modCore ?_ _ _
    exact h1.of h1.1 rfl rfl rfl

theorem State.sound.l1Settle (h : t.sound) (c line : Nat) : (t.l1Settle c line).sound := by
  unfold State.l1Settle
  split
  · exact h
  · dsimp only
    split
    · exact h.choose
    · exact h.choose.evict ..

theorem State.sound.l1Load (h : t.sound) (c a n : Nat) : (t.l1Load c a n).1.sound := by
  unfold State.l1Load
  dsimp only
  split
  · exact (h.l1Settle ..).fill ..
  · exact h.l1Settle ..

theorem State.sound.homeLoad (h : t.sound) (c a n : Nat) : (t.homeLoad c a n).1.sound := by
  unfold State.homeLoad
  dsimp only
  repeat' split
  all_goals first | exact h | exact h.homeRead ..

theorem State.sound.l1Store (h : t.sound) (c x a : Nat) (bs : List Byte) (p : Bool) : (t.l1Store c x a bs p).sound := by
  unfold State.l1Store
  dsimp only
  repeat' first
    | with_reducible exact h
    | with_reducible refine State.sound.modCore ?_ _ _
    | with_reducible refine State.sound.fill ?_ _ _ _
    | split

theorem State.sound.performThrough (h : t.sound) (c k : Nat) : (t.performThrough c k).sound := by
  unfold State.performThrough
  split
  · exact h
  · exact (h.homeWrite ..).modCore ..

theorem State.sound.drainThrough (h : t.sound) (c : Nat) : (t.drainThrough c).sound :=
  State.sound.fold _ (fun _ _ h => h.performThrough ..) _ _ h

theorem State.sound.cleanPrivate (h : t.sound) (c : Nat) : (t.cleanPrivate c).sound :=
  State.sound.fold _ (fun _ _ h => h.clean ..) _ _ h

theorem State.sound.storeAt (h : t.sound) (c x : Nat) (p : Place) (bs : List Byte) (bad : List Nat) (priv : Bool) :
    (t.storeAt c x p bs bad priv).sound := by
  unfold State.storeAt
  split
  · exact h.l1Store ..
  · exact h.modCore ..
  · exact h.linkPut ..
  · exact h.linkPut ..
  · exact h.same (by simp) (by simp) (by simp) (by simp)
  · exact h
  · exact h.same (by simp) (by simp) (by simp) (by simp)
  · exact h.putRing ..

theorem State.sound.touchL1 (h : t.sound) (c a : Nat) (bs : List Byte) (bad : List Nat) (tile : Bool) : (t.touchL1 c a bs bad tile).sound := by
  unfold State.touchL1
  dsimp only
  repeat' split
  · exact h
  · exact h.modCore ..
  · exact h

theorem State.sound.engPut (h : t.sound) (c x : Nat) (p : Place) (bs : List Byte) (bad tile : Bool) :
    (t.engPut c x p bs bad tile).sound := by
  unfold State.engPut
  dsimp only
  split
  · exact (h.homeWrite ..).touchL1 ..
  · exact h.homeWrite ..
  · exact h.linkPut ..
  · exact h.linkPut ..
  · exact h.same (by simp) (by simp) (by simp) (by simp)
  · exact h.same (by simp) (by simp) (by simp) (by simp)
  · exact h

theorem State.sound.unpoison (h : t.sound) (p : Place) : (t.unpoison p).sound := by
  unfold State.unpoison
  split
  · exact h.of h.1 rfl rfl rfl
  · exact h.of h.1 rfl rfl rfl
  · exact h.same (by simp) (by simp) (by simp) (by simp)
  · exact h

theorem State.sound.dropTlb (h : t.sound) (asid lo n : Nat) (all : Bool) : (t.dropTlb asid lo n all).sound :=
  State.sound.fold _ (fun _ _ h => h.modCore ..) _ _ h

theorem State.sound.dropPageLines (h : t.sound) (a : Nat) : (t.dropPageLines a).sound := by
  unfold State.dropPageLines
  dsimp only
  have h1 := State.sound.fold (fun (s : State) (c : Nat) => s.modCore c fun k =>
    { k with l1 := k.l1.filter fun p => !(units 128 a 4096).contains p.1 }) (fun _ _ h => h.modCore ..) (t.cores.map (·.1)) t h
  exact h1.of h1.1 rfl rfl rfl

theorem State.sound.copyPage (h : t.sound) (a b : Nat) : (t.copyPage a b).sound := (h.homeRead ..).homeWrite ..

theorem State.sound.cmo (h : t.sound) (core level op : Nat) (rs : List (Nat × Nat)) : (t.cmo core level op rs).sound := by
  unfold State.cmo
  dsimp only
  have own : ∀ l : List Nat, (l.foldl (fun (s : State) line => if op = 0 then s.clean core line else s.evict core line) t).sound :=
    fun l => State.sound.fold _ (fun _ _ h => by split; exact h.clean ..; exact h.evict ..) l t h
  have all_ : ∀ (l : List Nat) (u : State), u.sound → (l.foldl (fun (s : State) line => s.recall line (some core)) u).sound :=
    State.sound.fold _ fun _ _ h => h.recall ..
  split <;> split
  · exact own _
  · exact all_ _ _ (own _)
  · exact (own _).of (own _).1 rfl rfl rfl
  · exact (all_ _ _ (own _)).of (all_ _ _ (own _)).1 rfl rfl rfl

end Sys2Proof.Machine
end

