-- ==== Sys2Proof/Tests/Slice0.lean ====
section
/-! SUPPORT. Witnesses for the hypotheses of the obligations, words written out from the encoding of 03, ill-formed terms, and
the spec's own worked examples. -/

namespace Sys2Proof.Tests

set_option Elab.async false

open Sys2Proof Sys2Proof.Machine

-- WITNESSES: for each statement with hypotheses, states and operands that meet them together

/-- No guard, nothing set. -/
def c0 : Ctl := { guard := 0, mid := 0, runEnd := false, uni := false }
/-- The word at 0x1008 fetched for thread 0 of slot 0 of core 0. -/
def wI : Issue := { core := 0, slot := 0, pc := 0x1008, word := 0, present := 1 }
/-- A user thread with every register zero. -/
def wTh : Thread := { pc := 0x1008, blk := 0x1000 }
/-- A thread whose d2 and d3 hold two numbers. -/
def rTh (a b : Nat) : Thread := { wTh with regs := putBytes 16 (toBytes 8 a) (putBytes 24 (toBytes 8 b) []) }
/-- A skein of one thread with a register file of 1024 bytes. -/
def wK (th : Thread) : Skein :=
  { ctx := 0, grid := 0, wg := 0, idx := 0, alloc := 1024, joined := 1, blkEnd := 0x1010, threads := [th] }
/-- Its workgroup, with 64 KiB of scratchpad and four frames. -/
def wG : Workgroup :=
  { ctx := 0, grid := 0, lin := 0, threads := 1, regBytes := 1024, scratch := 0x10000, frames := 4, cluster := [0] }
/-- A machine that holds that thread at its instruction. -/
def wS (th : Thread) : State := { skeins := [(0, wK th)], issue := some wI, wgs := [(0, wG)] }
/-- Its grid. -/
def wGrid : Grid := { ctx := 0, num := 0, lr := {}, src := .queue }
/-- The same with a page of device kind at 0x1000, whose first word is a header, and a trap handler's address. -/
def pS (vec : Word) (th : Thread) : State := { wS th with
  mem := (State.reset.placeWord 0).mem
  ctxs := [(0, { enabled := true, fix := { root := 0x100000 }, var := { trapvec := vec, pendQuota := 8 } })] }

theorem of_ok {α ε β : Type} {x : α × Except ε β} {b : β} (h : x.2.toOption = some b) : ∃ u, x = (u, .ok b) := by
  obtain ⟨u, r⟩ := x
  cases r with
  | error e => cases h
  | ok c => cases h; exact ⟨u, rfl⟩

theorem w_poised (s : State) (th : Thread) (hi : s.issue = some wI) (hs : s.skeins = [(0, wK th)]) (hq : th.quiet) :
    s.poised wI (wK th) := by
  refine ⟨hi, by unfold State.skein; rw [hs]; rfl, ⟨rfl, rfl, rfl, rfl⟩, ?_, ?_⟩
  · intro t ht
    rw [List.mem_singleton.1 ht]
    exact hq
  · intro l hl
    rw [show lanesOf wI.present = [0] by decide] at hl
    rw [List.mem_singleton.1 hl]
    exact Nat.zero_lt_one

theorem w_one (s : State) (th : Thread) (hi : s.issue = some wI) (hs : s.skeins = [(0, wK th)]) (hq : th.quiet)
    (hr : th.st = .running) : s.poisedOne wI (wK th) c0 0 :=
  ⟨w_poised s th hi hs hq, by decide, rfl, hr, by
    intro t ht w hw
    rw [List.mem_singleton.1 ht, hr] at hw
    cases hw⟩

theorem r_quiet (a b : Nat) : (rTh a b).quiet := ⟨rfl, rfl, rfl, rfl⟩

/-- `State.poisedOne` holds of the machine of any of these threads. -/
theorem witness_poisedOne (a b : Nat) (v : Word) :
    (wS (rTh a b)).poisedOne wI (wK (rTh a b)) c0 0 ∧ (pS v (rTh a b)).poisedOne wI (wK (rTh a b)) c0 0 :=
  ⟨w_one _ _ rfl rfl (r_quiet a b) rfl, w_one _ _ rfl rfl (r_quiet a b) rfl⟩

/-- Operands at both ends of the register file, for the statements of fixed-latency instructions. -/
theorem witness_fixedLatency :
    let x : FmtR := { ctl := c0, dst := 255, a := 0, b := 255, mod := 0, sub := 0 }
    activeOf c0 wI (wK wTh) = [0] ∧ ∀ l ∈ activeOf c0 wI (wK wTh),
      (∀ o ∈ (LaneSpec.intPairs x 4 fun _ a b => a + b).reads.flatMap Rd.ops,
        regOk (laneOf (wK wTh).threads (sourceOf c0 [0] l)).views (wK wTh).alloc o.1 o.2.1 o.2.2 = true) ∧
      ∀ o ∈ (LaneSpec.intPairs x 4 fun _ a b => a + b).dsts,
        regOk (laneOf (wK wTh).threads l).views (wK wTh).alloc o.1 o.2.1 o.2.2 = true := by
  decide +kernel

/-- PACK and UNPK at the first and the last format code that each permits. -/
theorem witness_ConversionsWriteTheConvertedValue :
    (∀ v ∈ [2, 16], 2 ≤ bits v 0 6 ∧ bits v 0 6 ≤ 16) ∧ ∀ v ∈ [2, 31], 2 ≤ bits v 0 6 ∧ bits v 0 6 ≤ 31 := by decide

theorem witness_ArithmeticNaNsAreCanonical : (Val.nan true 1 23).isNan = true := rfl

/-- A handler entry: a header of length 2 at TRAPVEC. -/
def handled (s : State) (f : Thread → Thread) : Bool :=
  match ((s.outOfBlock wI 0 f).fetch 0 0 0x1000 false).2 with
  | .ok h => isHeader h && decide (2 ≤ fld h 47 8)
  | .error _ => false

/-- The hypotheses of `State.entersHandler` and of `State.parksForHost`. -/
theorem witness_handlers :
    handled (pS 0x1000 wTh) (fun th => th.atHandler .trap 0x1008 0 0 0x1000) = true ∧ wTh.sup = false ∧
    ((pS 0x1000 wTh).ctx 0).var.trapvec ≠ 0 ∧ ((pS 0 wTh).ctx 0).var.trapvec = 0 := by decide +kernel

/-- A branch to a header that can be fetched, and to a word that is none; targets one past the address space and off a word. -/
theorem witness_BranchesTransferControl :
    (match ((pS 0 wTh).fetch 0 0 0x1000 true).2 with | .ok h => isHeader h | .error _ => true) = true ∧
    (match ((pS 0 wTh).fetch 0 0 0x1008 true).2 with | .ok h => !isHeader h | .error _ => false) = true ∧
    (word ((rTh (2 ^ 52) 0).reg 0x102 8)).toNat = 2 ^ 52 ∧ (word ((rTh 0x1001 0).reg 0x102 8)).toNat % 8 ≠ 0 ∧
    (∀ o ∈ [((0x102 : RegOp), 8, 1)], regOk (rTh 0 0).views 1024 o.1 o.2.1 o.2.2 = true) := by decide +kernel

/-- A sleep that ends at this cycle, and a skein that has ended. -/
theorem witness_ThreadsEndAndWait :
    let w : Wait := { what := .sleep 64, instr := .sleep { ctl := c0, off := 0, reg := 0, imm := 1 }, word := 0, lanes := [0] }
    let th : Thread := { wTh with st := .waiting w }
    let s : State := { wS th with cycle := 64 }
    s.thread 0 0 0 = some th ∧ w.what = .sleep 64 ∧ 64 ≤ s.cycle ∧ s.halted 0 0 = false ∧ th.stopNext = false ∧ th.stepNext = none ∧
    (∀ t ∈ (wK { wTh with st := .exited }).threads, t.st = .exited) ∧ (wK wTh).sq = [] ∧
    ∀ q ∈ ((wS wTh).core 0).shuttle, q.slot ≠ 0 := by decide +kernel

/-- A user thread, DBGHOST clear, registers that it may not use, and addresses off every alignment. -/
theorem witness_FaultsTakeTheirExceptions :
    (wK wTh).dbgctl.getLsbD 2 = false ∧ wTh.sup = false ∧ SysReg.userRead 0x000 = false ∧ SysReg.userRead 0x30E = false ∧
    SysReg.userWrite 0x016 = false ∧
    (∀ sz ∈ [LdSize.s16, .b32, .b64, .b128], (word ((rTh 0x1001 0).reg 0x102 8)).toNat % (LdSize.shape sz).1 ≠ 0) ∧
    (∀ sz ∈ [StSize.b16, .b32, .b64, .b128], (word ((rTh 0x1001 0).reg 0x102 8)).toNat % (StSize.shape sz).1 ≠ 0) ∧
    (∀ o ∈ [((0x102 : RegOp), 8, 1), (0x008, 4, 1), (0x104, 8, 2), (0x300, 16, 1)],
      regOk (rTh 0 0).views 1024 o.1 o.2.1 o.2.2 = true) := by decide +kernel

/-- A supervisor thread whose TRAPVIEW is allowed, and one whose TRAPVIEW is not. -/
theorem witness_TrapsReturn :
    let th : Thread := { wTh with sup := true, trec := { view := 0xFC08FC02FC06FC04 } }
    th.sup = true ∧ (Views.unpack th.trec.view).ok = true ∧ (Views.unpack 1).ok = false := by decide +kernel

/-- Every register in turn, for a supervisor thread whose operand is 64 bits wide. -/
theorem witness_SystemRegistersAreRead :
    let th : Thread := { wTh with sup := true }
    let s : State := { wS th with grids := [(0, wGrid)] }
    s.wg (wK th).wgKey = some wG ∧ s.grid 0 0 = some wGrid ∧ Sys2Proof.Claims.sysBytes th 0x104 = 8 ∧
    regOk th.views 1024 0x104 8 1 = true ∧ SysReg.userRead 0x010 = true ∧ SysReg.userRead 0x30D = true ∧
    ∀ p ∈ Sys2Proof.Claims.registers wI (wK th) 0 (s.varOf 0 0 0) wG wGrid, SysReg.readable p.1 = true := by
  decide +kernel

/-- Each register that a write has, and a view that is allowed and one that is not. -/
theorem witness_SystemRegistersAreWritten :
    (∀ p ∈ Sys2Proof.Claims.threadWrites 0, SysReg.writable p.1 = true) ∧
    (∀ p ∈ Sys2Proof.Claims.contextWrites 0, SysReg.writable p.1 = true) ∧ viewOk (BitVec.ofNat 16 1) = false ∧
    viewOk (BitVec.ofNat 16 0xFC08) = true ∧ (wK wTh).dbg = [] ∧ SysReg.userWrite 0x010 = true ∧ SysReg.userWrite 0x015 = true := by
  decide +kernel

theorem witness_TimeAndMonitorsAreRead :
    regOk wTh.views 1024 0x104 8 1 = true ∧ regOk wTh.views 1024 0x004 4 1 = true ∧ Monitor.allocated 0x000 = true ∧
    Monitor.allocated 0x017 = true ∧ Monitor.allocated 0x50A = true ∧ Monitor.allocated 0x616 = true := by decide +kernel

/-- A workgroup whose part of the scratchpad is p. -/
def partS (p : Part) (th : Thread) : State := { wS th with wgs := [(0, { wG with parts := [(0, p)] })] }
/-- The window 0x00 address of an offset. -/
def win (off : Nat) : Nat := 0xF * 2 ^ 48 + off
/-- The page of pS with another kind (07 R182). -/
def kindS (kind : Nat) (th : Thread) : State := (pS 0 th).putPte 0x130008 (0x14006F + 256 * kind)

/-- Addresses on each side of each check. -/
theorem witness_WindowAddressesAreChecked :
    (wS wTh).wg 0 = some wG ∧ 2 ^ 52 ≤ (0x10000000000000 : Word).toNat ∧
    ((0xF040000000000 : Word).toNat / 2 ^ 48 = 0xF ∧ 3 < (0xF040000000000 : Word).toNat / 2 ^ 40 % 2 ^ 8) ∧
    (0xF030000000000 : Word).toNat / 2 ^ 40 = 0xF03 ∧ (0xF02FFFFFFFFFF : Word).toNat / 2 ^ 40 = 0xF02 ∧
    (∀ off ∈ [0, 0xFFFC, 0xFFFD, 0x180000, 0x1FFFFF], off < 2 ^ 21 ∧ word (win off) = BitVec.ofNat 64 (0xF * 2 ^ 48 + off)) := by
  decide +kernel

/-- The last word of the grant, there and absent; a word of a page of device kind; one of host kind. -/
theorem witness_LoadsAreOwedTheirBytes :
    let th := rTh (win 0xFFFC) 0
    (Thread.reg th 0x102 8 = win 0xFFFC ∧ regOk th.views 1024 0x102 8 1 = true ∧ regOk th.views 1024 0x0FF 4 1 = true) ∧
    Sys2Proof.Claims.inScratch (word (win 0xFFFC)) 0xFFFC ∧ Sys2Proof.Claims.readable (wS th) 0 0 wG 0xFFFC 4 ∧
    ((partS { absent := [511] } th).part 0 0).missing 0xFFFC 4 = [511] ∧
    (∀ c, (wS th).tileBusy 0 0 (.scr 0 c 0xFFFC) 4 false = false) ∧
    ((pS 0 th).place 0 0 0 0x1000 4 .load true).2.toOption = some (.dev 0x140000) ∧
    (((pS 0 th).place 0 0 0 0x1000 4 .load true).1.tileBusy 0 0 (.dev 0x140000) 4 false = false) ∧
    (((pS 0 th).place 0 0 0 0x1000 4 .load true).1.readFor 0 0 (.dev 0x140000) 4 false).2 = .ok [0, 0, 0, 0] [] [] ∧
    ((kindS 1 th).place 0 0 0 0x1000 4 .load true).2.toOption = some (.host 0x140000) := by
  refine ⟨by decide +kernel, ?_, ?_, by decide +kernel, fun c => rfl, by decide +kernel, by decide +kernel, by decide +kernel⟩
  · unfold Sys2Proof.Claims.inScratch; decide
  · unfold Sys2Proof.Claims.readable; decide +kernel

/-- A store to the last doubleword of the grant and to a page; a reduction on each. -/
theorem witness_StoresAndReductionsQueue :
    let th := rTh 0x1000 0
    (th.has 1024 [(0x102, 8, 1), (0x17F, 8, 1)] ∧ Thread.reg th 0x102 8 = 0x1000) ∧
    (pS 0 th).copyWaits (siteOf (pS 0 th) wI 0) (wK th) 0x1000 = false ∧
    ((wS th).place 0 0 0 (word (win 0xFFF8)) 8 .store true).2.toOption = some (.scr 0 0 0xFFF8) ∧
    ((pS 0 th).place 0 0 0 0x1000 8 .store true).2.toOption = some (.dev 0x140000) ∧
    ((pS 0 th).place 0 0 0 0x1000 8 .store true).1.tileBusy 0 0 (.dev 0x140000) 8 true = false ∧
    ((pS 0 th).atomPlace (siteOf (pS 0 th) wI 0) (wK th) 0x1000 8 true .add).2.toOption = some (.dev 0x140000) ∧
    (((pS 0 th).atomPlace (siteOf (pS 0 th) wI 0) (wK th) 0x1000 8 true .add).1.atomReady (siteOf (pS 0 th) wI 0) 0 0x1000
      (.dev 0x140000) 8).2 = none := by
  unfold Thread.has; decide +kernel

/-- An atomic on the last word of the grant and on a page. -/
theorem witness_AtomicsReadAndWriteAtOnce :
    let th := rTh (win 0xFFF8) 0
    (th.has 1024 [(0x102, 8, 1), (0x104, 8, 2)] ∧ (win 0xFFF8) % 8 = 0) ∧
    (wS th).copyWaits (siteOf (wS th) wI 0) (wK th) (word (win 0xFFF8)) = false ∧
    Sys2Proof.Claims.inScratch (word (win 0xFFF8)) 0xFFF8 ∧ Sys2Proof.Claims.readable (wS th) 0 0 wG 0xFFF8 8 ∧
    ((wK th).sq = [] ∧ c0.flag = false ∧ (wS th).tileBusy 0 0 (.scr 0 ((wG.slotOf 0).getD 0) 0xFFF8) 8 true = false) ∧
    ((pS 0 th).atomPlace (siteOf (pS 0 th) wI 0) (wK th) 0x1000 8 false .cas).2.toOption = some (.dev 0x140000) ∧
    (((pS 0 th).atomPlace (siteOf (pS 0 th) wI 0) (wK th) 0x1000 8 false .cas).1.atomReady (siteOf (pS 0 th) wI 0) 0 0x1000
      (.dev 0x140000) 8).2 = none := by
  unfold Thread.has Sys2Proof.Claims.inScratch Sys2Proof.Claims.readable; decide +kernel

/-- A skein with one queued store of each kind, and a core with one write-through. -/
theorem witness_QueuedStoresPerform :
    (∀ p ∈ [Place.scr 0 0 0xFFF8, .strip 0, .dev 0x140000],
      let k : Skein := { wK wTh with sq := [{ act := .store p [1, 2] [] false }] }
      let s : State := { wS wTh with skeins := [(0, k)] }
      s.skein 0 0 = some k ∧ (k.sq.map (·.rel)) = [false] ∧ (∃ th ∈ k.threads, th.st ≠ .exited) ∧ (∀ th ∈ k.threads, th.st = .running) ∧
      s.wg 0 ≠ none ∧ look (s.core 0).l1 (0x140000 / 128) = none) ∧
    (({ cores := [(0, { wt := [{ pa := 127, bytes := [1, 2], ctx := 0 }] })] } : State).core 0).wt =
      [{ pa := 127, bytes := [1, 2], ctx := 0 }] ∧
    ∀ c ≠ 0, ∀ j ∈ units 128 127 2, ∀ line,
      look ((({ cores := [(0, { wt := [{ pa := 127, bytes := [1, 2], ctx := 0 }] })] } : State).core c)).l1 j = some line →
      line.excl = false := by
  refine ⟨by decide +kernel, by decide +kernel, fun c hc j _ line h => ?_⟩
  have : (({ cores := [(0, { wt := [{ pa := 127, bytes := [1, 2], ctx := 0 }] })] } : State).core c) = {} := by
    unfold State.core lookD look
    simp [hc]
  rw [this] at h
  cases h

/-- A release fence at the head of a queue; a page that PREF may fill; a cache operation that ends at 2^52, and one that passes
it. -/
theorem witness_FencesAndCacheControlComplete :
    (let e : SqEntry := { act := .fence, rel := true, scope := 4 }
     let k : Skein := { wK wTh with sq := [e] }
     ({ wS wTh with skeins := [(0, k)] } : State).skein 0 0 = some k ∧ k.sq = [e] ∧ ∀ th ∈ k.threads, th.st = .running) ∧
    (((pS 0 wTh).walkOnly 0 0x1000 .read true).2.toOption.map fun q => (q.1.pa 0x1000, q.1.pte / 2 ^ 8 % 4)) = some (0x140000, 0) ∧
    ((∀ j ∈ units 8 0x140000 128, j ∉ (pS 0 wTh).mem.poison) ∧ look ((pS 0 wTh).core 0).l1 (0x140000 / 128) = none) ∧
    Thread.reg (rTh (2 ^ 52 - 128) 128) 0x102 8 + Thread.reg (rTh (2 ^ 52 - 128) 128) 0x103 8 ≤ 2 ^ 52 ∧
    2 ^ 52 < Thread.reg (rTh (2 ^ 52 - 128) 129) 0x102 8 + Thread.reg (rTh (2 ^ 52 - 128) 129) 0x103 8 ∧
    wTh.has 1024 [(0x102, 8, 1), (0x103, 8, 1)] := by
  unfold Thread.has; decide +kernel

/-- The last line of the grant in both windows and the line after it, no line; descriptors that are valid at the end of the grant,
that pass it, and that have a reserved bit. -/
theorem witness_ScratchpadControlCompletes :
    let th := rTh (win 0xFF80) 128
    (wS th).wg 0 = some wG ∧ Sys2Proof.Claims.inOwn 0 (word (Thread.reg th 0x102 8)) 0xFF80 ∧
    Sys2Proof.Claims.inOwn 0 0xF01000000FF80 0xFF80 ∧ Thread.reg th 0x006 4 = 128 ∧
    (0xFF80 + 128 = wG.scratch ∧ Sys2Proof.Claims.inOwn 0 (word (win 0x10000)) 0x10000 ∧ wG.scratch < 0x10000 + 128) ∧
    (wS th).tileBusy 0 0 (.scr 0 0 0xFF80) 128 true = false ∧ Thread.reg (rTh 0 0) 0x006 4 = 0 ∧
    (∀ d ∈ [2 ^ 31 + 0xFFFC, 2 ^ 31 + 2 ^ 26 + 0xFFFC], d / 2 ^ 21 % 32 = 0 ∧ d % 2 ^ 21 % 4 = 0 ∧ d / 2 ^ 31 % 2 = 1 ∧
      (wG.scratch < d % 2 ^ 21 + 4 * (d / 2 ^ 26 % 32 + 1) ↔ d ≠ 2 ^ 31 + 0xFFFC)) ∧
    th.has 1024 [(0x102, 8, 1), (0x006, 4, 1)] := by
  unfold Thread.has Sys2Proof.Claims.inOwn; decide +kernel

/-- A word that meets the condition, one that does not, and a counter that has lost. -/
theorem witness_WaitsReadTheirWord :
    let s (v : Nat) := partS { bytes := putBytes 0xFFF8 (toBytes 8 v) [] } (rTh (win 0xFFF8) 7)
    ((s 7).place 0 0 0 (word (win 0xFFF8)) 8 .load true).2.toOption = some (.scr 0 0 0xFFF8) ∧
    waitPlace (.scr 0 0 0xFFF8) = true ∧ ((s 7).placeDenied (.scr 0 0 0xFFF8) 8 = false ∧
      (s 7).tileBusy 0 0 (.scr 0 0 0xFFF8) 8 false = false) ∧ ((s 7).readFor 0 0 (.scr 0 0 0xFFF8) 8 true).2 = .ok (toBytes 8 7) [] [] ∧
    Sys2Proof.Claims.meets 0 0 7 7 ∧ ¬ Sys2Proof.Claims.meets 0 0 6 7 ∧ ¬ Sys2Proof.Claims.meets 1 1 6 7 ∧
    Sys2Proof.Claims.meets 2 2 6 7 ∧ (2 ^ 63).testBit 63 = true ∧
    ((s (2 ^ 63)).readFor 0 0 (.scr 0 0 0xFFF8) 8 true) = (s (2 ^ 63), .ok (toBytes 8 (2 ^ 63)) [] []) := by
  unfold Sys2Proof.Claims.meets; decide +kernel

/-- An arrival that does not complete a phase, one that just does, and the largest expected count. -/
theorem witness_BarrierObjectsCountArrivals :
    let p : Part := { bytes := putBytes 0 (toBytes 8 (3 + 2 ^ 32)) [] }
    (partS p wTh).wg 0 ≠ none ∧ Sys2Proof.Claims.object p 0 3 1 0 ∧ 1 + 1 < 3 ∧ 3 ≤ 1 + 2 ∧ 1 + 2 - 3 < 2 ^ 32 ∧
    2 ^ 32 - 1 < 2 ^ 32 ∧ 2 ^ 64 - 1 < 2 ^ 64 := by
  refine ⟨by decide +kernel, ?_, by decide, by decide, by decide, by decide, by decide⟩
  unfold Sys2Proof.Claims.object
  decide +kernel

/-- Objects in each state that BARW tells apart, at the end of the grant and past it; a counter of the scratchpad. -/
theorem witness_BarriersAndCountersComplete :
    (∀ f ∈ [0, 1, 2 ^ 16, 2 ^ 18],
      let p : Part := { bytes := putBytes 0xFFF8 (toBytes 8 f) [] }
      let s := partS p (rTh (win 0xFFF0) 1)
      Sys2Proof.Claims.readable s 0 0 { wG with parts := [(0, p)] } 0xFFF0 16 ∧ s.tileBusy 0 0 (.scr 0 0 0xFFF0) 16 false = false ∧
      natAt (s.part 0 0).bytes (0xFFF0 + 8) 8 = f) ∧
    (let s := wS (rTh (win 0xFFF0) 1)
     s.wg 0 = some wG ∧ Sys2Proof.Claims.inOwn 0 (word (win 0xFFF0)) 0xFFF0 ∧ 0xFFF0 % 16 = 0 ∧ 0xFFF0 + 16 = wG.scratch ∧
     Sys2Proof.Claims.inOwn 0 (word (win 0x10000)) 0x10000 ∧ wG.scratch < 0x10000 + 16 ∧
     (wK (rTh (win 0xFFF0) 1)).sq = [] ∧ s.tileBusy 0 0 (.scr 0 0 0xFFF0) 16 true = false ∧
     (s.atomReady (siteOf s wI 0) 0 (word (win 0xFFF0)) (.scr 0 0 0xFFF0) 16).2 = none) ∧
    Thread.reg (rTh (win 0xFFF0) 1) 0x006 4 = 1 ∧
    (let s := wS (rTh 0 0)
     s.copyWaits (siteOf s wI 0) (wK (rTh 0 0)) (word (win 0xFFF8)) = false ∧
     (s.atomPlace (siteOf s wI 0) (wK (rTh 0 0)) (word (win 0xFFF8)) 8 true .add).2.toOption = some (.scr 0 0 0xFFF8) ∧
     (s.atomReady (siteOf s wI 0) 0 (word (win 0xFFF8)) (.scr 0 0 0xFFF8) 8).2 = none) := by
  unfold Sys2Proof.Claims.readable Sys2Proof.Claims.inOwn; decide +kernel

/-- A thread that waits for the link, one that waits to pop, one for a strict put, one with a result in flight. -/
theorem witness_WaitingThreadsTakeUpTheirInstruction :
    let m : FmtM := { ctl := c0, data := 0, base := 0x102, off := 0 }
    let x : FmtX := { ctl := c0, r1 := 0, r2 := 0, imm := 0 }
    let w (a : WaitFor) (i : Instr) : Wait := { what := a, instr := i, word := 0, lanes := [0] }
    let s (a : WaitFor) (i : Instr) : State := wS { wTh with st := .waiting (w a i) }
    ((s .link (.ld .b32 m)).thread 0 0 0 = some { wTh with st := .waiting (w .link (.ld .b32 m)) }) ∧
    (Sys2Proof.Claims.wakers 0 0 0 .link (.ld .b32 m)).isSome = true ∧
    (wK { wTh with st := .waiting (w .popEntry (.qpop x)) }).waitsFor (· = .popEntry) = [(0, w .popEntry (.qpop x))] ∧
    (Sys2Proof.Claims.skeinWakers 0 0 .popEntry (.qpop x)).isSome = true ∧
    ((s (.putStrict 3) (.put x)).puts = [] ∧ 3 ∉ (s (.putStrict 3) (.put x)).putDrops) ∧
    ({ wTh with held := [{ addr := 0, bytes := [0] }] } : Thread).held[0]? = some { addr := 0, bytes := [0] } ∧
    (s .presence (.spz x)).halted 0 0 = false ∧ (Sys2Proof.Claims.wakers 0 0 0 .presence (.spz x)).isSome = true ∧
    wTh.stepNext = none ∧ wTh.stopNext = false := by decide +kernel

/-- A page that can be read, with deduplication off and on, one of the scratchpad, and an address that no page maps. -/
theorem witness_DeduplicationIsQueried :
    let th := rTh 0x1FFF 0
    let s := pS 0 th
    let li (a : Nat) : LaneIn := { lane := 0, cyc := 0, vals := [a], pred := 0, link := 0 }
    (s.pageFor (siteOf s wI 0) (wK th) 0x1FFF).2.toOption = some (.dev 0x140000) ∧
    (s.pageFor (siteOf s wI 0) (wK th) 0x1FFF).1.tileBusy 0 0 (.dev 0x140000) 4096 false = false ∧
    (s.pageRead (siteOf s wI 0) (wK th) (li (win 0x1FFF)) false).2.toOption.map (·.1) = some (.scr 0 0 0x1000) ∧
    (s.pageRead (siteOf s wI 0) (wK th) (li 0x2000) false).2.toOption = none ∧ (s.ctx 0).fix.dedupBits = 0 ∧
    (({ s with ctxs := [(0, { enabled := true, fix := { root := 0x100000, dedupBits := 1 } })] } : State).walkOnly 0 0x1FFF .read
      false).2.toOption.isSome = true ∧ 0x1FFF / 2 ^ 48 ≠ 0xF ∧
    regOk th.views 1024 0x102 8 1 = true := by decide +kernel

/-- A put of the grant's last bytes to its own slot, with its counter at the end of the grant. -/
theorem witness_PutsAreSent :
    let v := (0 : Nat) + 2 ^ 64 * (win 0xFFF0 + 2 ^ 64 * (0xFFF8 + 2 ^ 64 * (1 + 2 ^ 32 * 16)))
    let th : Thread := { wTh with regs := putBytes 32 (toBytes 32 v) [] }
    let s := wS th
    let st := siteOf s wI 0
    let x : FmtX := { ctl := c0, r1 := 0x104, r2 := 0, imm := 5 }
    let c := Sys2Proof.Claims.put x { dst := 0, src := win 0xFFF0, cnt := 0xFFF8, inc := 1, len := 16, target := 0 }
    let u := s.drainForEngine 0 0
    regOk th.views 1024 0x104 8 4 = true ∧ v / 2 ^ 244 = 0 ∧ s.putBits st (wK th) c true = none ∧
    s.putCopies st (wK th) c = false ∧ (s.rangeTo st (wK th) (win 0xFFF0) 16 .load true).2.toOption = some [(.scr 0 0 0xFFF0, 16)] ∧ natAt th.regs (regAddr th.views 0x104) 32 = v ∧ (5 : BitVec 24).toNat % 4 = 1 ∧
    (5 : BitVec 24).getLsbD 7 = false ∧ (∀ i ∈ slotsIn ((5 : BitVec 24).toNat / 4 % 16), i < wG.cluster.length) ∧
    0xFFF8 % 8 = 0 ∧ 0 + 16 ≤ wG.scratch ∧ 0xFFF8 + 8 ≤ wG.scratch ∧ 0xFFF0 + 16 ≤ wG.scratch ∧ u.wg 0 = some wG ∧
    ((u.putSource st 0 0 (win 0xFFF0) [(.scr 0 0 0xFFF0, 16)] [] []).2.toOption.map (·.2)) = some [] := by
  decide +kernel

/-- A delivery of a put that lands with its counter beside it, and one whose workgroup is gone. -/
theorem witness_PutsLandOrAreDropped :
    let d : Delivery := { num := 0, ctx := 0, core := 0, to_ := .scr 0 0 0 0xFFF0, bytes := List.replicate 8 1
                          counter := some (.scr 0 0 0 0xFFF8), inc := 1 }
    let s : State := { wS wTh with puts := [d] }
    s.puts[0]? = some d ∧ d.multi = false ∧ (∀ e ∈ s.puts, e.before d = false) ∧ s.wg 0 = some wG ∧ wG.gen = 0 ∧
    0 < wG.cluster.length ∧ 0xFFF0 ≤ wG.scratch ∧ d.bad = [] ∧ 0xFFF0 + d.bytes.length ≤ 0xFFF8 ∧
    (s.part 0 0).badIn 0xFFF8 8 = [] ∧ ({ s with wgs := [] } : State).anyWg 0 = none := by decide +kernel

/-- A command without a tag, with room for it and without. -/
theorem witness_ShuttleCommandsAreQueued :
    let th := rTh 0 0
    let c := Sys2Proof.Claims.command (wS th) (wS th) wI (wK th) 0 0 .none
    let s (n : Nat) : State := { wS th with cores := [(0, { shuttle := List.replicate n c })] }
    ((s 31).drainForEngine 0 0).wg 0 = some wG ∧ ((s 31).core 0).shCount < 32 ∧ 32 ≤ ((s 32).core 0).shCount ∧
    (wS th).stampFault 0 (wK th) (word (win 0xFFF8)) true = none ∧ (wS th).barrierFault 0 0xFFF0 = none ∧
    natAt th.regs (regAddr th.views 0x010) 32 = 0 ∧ regOk th.views 1024 0x010 4 8 = true ∧
    regOk th.views 1024 0x10A 8 1 = true := by decide +kernel

/-- A machine with valid layout entries at indices 0 and 48 of the layout table, on two pages, and a command to start. -/
def layoutS (c : ShCmd) : State :=
  let s := (pS 0 wTh).putPte 0x130010 0x14106F
  { s with
    mem := { s.mem with bytes := putBytes (0x141000 + 75) [1] (putBytes (0x140100 + 75) [1] s.mem.bytes) }
    ctxs := [(0, { enabled := true, fix := { root := 0x100000 }, var := { layoutBase := 0x1100, pendQuota := 8 } })]
    cores := [(0, { shuttle := [c] })] }

/-- A STAMP's command, one of a copy, and a completion of each. -/
theorem witness_ShuttleCommandsRun :
    let c := Sys2Proof.Claims.command (wS wTh) (wS wTh) wI (wK wTh) 0 (48 * 2 ^ 136) .none
    let s (q : ShCmd) : State := { wS wTh with cores := [(0, { shuttle := [q] })] }
    let d : Done := { wg := 0, ctx := 0, slot := 0, skein := 0, cslot := 0, user := true, tag := .none, scope := 0 }
    (s c).stalls 0 = false ∧ ((s c).core 0).started = none ∧ c.parked = false ∧ c.only = false ∧
    ({ c with only := true } : ShCmd).only = true ∧ ((layoutS c).shLayouts 0 c).2.toOption.isSome = true ∧
    (let y : Layout := { ext := [], stride := [], fmt := 0, zbits := 0, zsrc := 0 }
     ({ c with lay := some (y, y) } : ShCmd).lay = some (y, y)) ∧
    d.failed = false ∧ ((wS wTh).complete 0 d).2.toOption = some () ∧
    ((pS 0 wTh).place 0 0 0 0x1000 8 .store true).2.toOption = some (.dev 0x140000) ∧ ((pS 0 wTh).ctx 0).resetting = false := by
  decide +kernel

/-- The grant's last line. -/
theorem witness_ScratchpadControlPerforms : (wS wTh).wg 0 = some wG ∧ 0xFF80 + 128 = wG.scratch := by decide +kernel

/-- A workgroup with handles 0 to 4: owned, ownerless, of another skein, and the others unbound; with a convergence register. -/
def hG (c : CvReg) : Workgroup := { wG with
  handles := [(0, { bound := true, owner := 0, frame := 0, fmt := 0 }), (1, { bound := true, owner := 0x1FF, frame := 1, fmt := 0 }),
    (2, { bound := true, owner := 1, frame := 2, fmt := 0 })]
  cvs := [(0, c)] }
/-- Its machine. -/
def hS (c : CvReg) (th : Thread) : State := { wS th with wgs := [(0, hG c)] }
/-- A tile form on handles d, a and b. -/
def tX (d a b : Nat) : FmtT :=
  { ctl := c0, d := BitVec.ofNat 8 d, a := BitVec.ofNat 8 a, b := BitVec.ofNat 8 b, aux := 0, cv := 0, keep := false, shape := 0, sub := 0 }

theorem witness_HandlesAreBoundAndPassed :
    (hS {} wTh).wg 0 = some (hG {}) ∧ ((hG {}).slotOf 0).getD 0 = 0 ∧
    (((hG {}).handle 0 3).bound = false ∧ ((hG {}).handle 0 255).bound = false) ∧
    ((hS {} wTh).core 0).releasing = [] ∧ ((hG {}).bound 0).length < 4 ∧ (hS {} wTh).freeFrames 0 ≠ [] ∧
    (((hG {}).handle 0 0).bound = true ∧ ((hG {}).handle 0 0).owner = (wK wTh).idx) ∧
    (((hG {}).handle 0 1).bound = true ∧ ((hG {}).handle 0 1).owner = 0x1FF ∧ (wK wTh).idx ≠ 0x1FF ∧
      (hS {} wTh).takers 0 0 1 = []) ∧
    (((hG {}).handle 0 2).bound = true ∧ ((hG {}).handle 0 2).owner ≠ 0x1FF ∧ ((hG {}).handle 0 2).owner ≠ (wK wTh).idx) ∧
    regOk wTh.views 1024 0x000 4 1 = true ∧ regOk wTh.views 1024 0x0FF 4 1 = true := by decide +kernel

/-- Commands of handles that are bound, room for them and none, a first and a last signature. -/
theorem witness_TileCommandsAreAccepted :
    let q := Sys2Proof.Claims.tileCommand (wS wTh) (wS wTh) wI (wK wTh) (hG {}) 0 (.tzero (tX 0 0 0)) 0 none none none
    let cs (n : Nat) : State := { hS {} wTh with cores := [(0, { tileq := List.replicate n q })] }
    (∀ h ∈ [0, 1, 2], ((hG {}).handle 0 h).bound = true ∧ ((hG {}).handle 0 h).fmt = 0) ∧ blockFmt 0 = false ∧
    ((cs 15).core 0).tileq.length < 16 ∧ 16 ≤ ((cs 16).core 0).tileq.length ∧
    (let c : CvReg := { target := 2 }; lookD {} (hG c).cvs 0 = c ∧ c.count = 0 ∧ 1 < c.target) ∧
    (let c : CvReg := { target := 2, count := 1, ownsig := true, word := wI.word.extractLsb' 0 44 }
     lookD {} (hG c).cvs 0 = c ∧ 0 < c.count ∧ c.target ≤ c.count + 1 ∧ c.mismatch = false ∧ c.sparse = false ∧
     c.word = wI.word.extractLsb' 0 44) ∧
    ((hG {}).handle 0 0).owner ≠ 0x1FF ∧ mmaFmts false 0 5 5 = true := by decide +kernel

/-- Memory forms: a TLOAD and a TSTORER by valid descriptors, with layout entry 0, and one of an unbound handle. -/
theorem witness_tileMemory :
    let th := rTh 0 0
    let x : FmtX := { ctl := c0, r1 := 0x102, r2 := 0x104, imm := 0 }
    let s := hS {} th
    th.has 1024 (((tileReads x false false) th.views).flatMap Rd.ops) ∧ th.has 1024 (((tileReads x true true) th.views).flatMap Rd.ops) ∧
    (((tileReads x false false) th.views).map (fun r => r.value [th] 0)).length = 1 ∧
    s.tileMemFault 0 (wK th) (hG {}) 0 true x false false 0 = none ∧
    (s.tileMemFault 0 (wK th) (hG {}) 0 true { x with imm := 0x30000 } false false 0).isSome = true := by
  unfold Thread.has; decide +kernel

theorem witness_TileCommandsExecuteAndComplete :
    let io := Sys2Proof.Claims.command (wS wTh) (wS wTh) wI (wK wTh) 0 0 .none
    let z : TileCmd := { instr := .tzero (tX 0 0 0), d := some (0, 0), io := io }
    let m : TileCmd := { instr := .tcvt (tX 0 1 0), d := some (0, 0), a := some (1, 0), io := io }
    let l : TileCmd := { instr := .tstore { ctl := c0, r1 := 0, r2 := 0, imm := 0 }, a := some (1, 0), io := io, done := true }
    let s (q : TileCmd) (e : Bool) : State := { hS {} wTh with cores := [(0, { tileq := [q], frames := [(1, { error := e })] })] }
    (∀ q ∈ [z, m, l], ((s q false).core 0).tileq = q :: [] ∧ (s q false).stalls 0 = false ∧ q.parked = false) ∧
    z.done = false ∧ (∀ f ∈ z.readsOf, (((s z true).core 0).frame f).error = false) ∧ tileForm z.instr = none ∧
    (m.done = false ∧ ∃ f ∈ m.readsOf, (((s m true).core 0).frame f).error = true) ∧
    (tileForm l.instr).map (fun p => p.2.1) = some true ∧ ((s l false).complete 0 l.completion).2.toOption = some () := by
  decide +kernel

/-- A grid of a graph whose node 1 has room. -/
def gGraph : Graph :=
  { nodes := [{ entry := 0x1000, arena := 0x1000, cap := 1, kind := 0, output := 1 }, { entry := 0x1000, arena := 0x1000, cap := 1, kind := 0, output := 2 }]
    init := 0, left := 0 }
/-- The machine of a thread of node 0 of that graph, with its arena on a page, at a launch depth. -/
def gS (depth : Nat) : State := { pS 0 wTh with
  skeins := [(0, { wK wTh with node := some 0 })], wgs := [(0, { wG with node := some 0 })]
  grids := [(0, { wGrid with graph := some gGraph, depth := depth })] }

theorem witness_RecordsAreEmittedAndLaunched :
    let k : Skein := { wK wTh with node := some 0 }
    let s := gS 9
    s.poised wI k ∧ wTh.has 1024 [(0x100, 8, 8)] ∧ Sys2Proof.Claims.mayName s k 1 ∧ (∀ w, s.wg k.wgKey = some w → 1 ∉ w.closed) ∧
    ¬ Sys2Proof.Claims.mayName s k 0 ∧
    s.emitters k.wgKey 0 0 0 true = [] ∧ s.graph 0 0 = some gGraph ∧ (gGraph.nodes[1]?).isSome = true ∧ gGraph.abandoned = false ∧
    (s.ctxWriteBytes 0 0x1000 (List.replicate 64 1) []).2.toOption = some () ∧
    s.grid 0 0 = some { wGrid with graph := some gGraph, depth := 9 } ∧ s.pending.length < 4096 ∧
    (s.pending.filter fun p => p.ctx = 0).length < (s.ctx 0).var.pendQuota ∧
    4096 ≤ (List.replicate 4096 0).length ∧ ((gS 10).grid 0 0).map (·.depth) = some 10 := by
  unfold State.poised Thread.has
  refine ⟨?_, by decide +kernel, ⟨_, _, 0, rfl, rfl, rfl, by decide, by decide⟩, fun w h => by cases h; decide, ?_, by decide +kernel⟩
  rotate_left
  · rintro ⟨w, g, own, -, -, -, h, -⟩
    exact absurd h (Nat.not_lt_zero _)
  refine ⟨rfl, rfl, ⟨rfl, rfl, rfl, rfl⟩, ?_, ?_⟩
  · intro t ht
    rw [List.mem_singleton.1 ht]
    exact ⟨rfl, rfl, rfl, rfl⟩
  · intro l hl
    rw [show lanesOf wI.present = [0] by decide] at hl
    rw [List.mem_singleton.1 hl]
    exact Nat.zero_lt_one

/-- A core without a Spindle and with one; a queue that is empty, open or closed, holds one entry or 64. -/
theorem witness_SpindlesAndQueues :
    let sp : Skein := { wK wTh with idx := spindleIdx, threads := List.replicate 32 wTh }
    let s (q : SpQueue) : State := { wS wTh with wgs := [(0, { wG with sqs := [(0, q)] })] }
    let q (o : Bool) (n : Nat) : SpQueue := { opened := o, entries := List.replicate n (List.replicate 32 7) }
    (wS wTh).wg 0 = some wG ∧ wTh.has 1024 [(0x100, 8, 1)] ∧ wTh.has 1024 [(0x000, 4, 1)] ∧ (wS wTh).skein 0 1023 = none ∧
    (wS wTh).regUse 0 + 32 * (64 * 16) ≤ 2 ^ 21 ∧ wI.slot ≠ 1023 ∧ wI.slot < 1024 ∧
    ({ wS wTh with skeins := [(0, wK wTh), (1023, sp)] } : State).skein 0 1023 = some sp ∧ sp.wgKey = (wK wTh).wgKey ∧
    (∀ o ∈ [true, false], ∀ n ∈ [0, 1, 63, 64], ((s (q o n)).wg 0).map (fun g => g.queue 0 0) = some (q o n)) ∧
    (s (q true 1)).poppers 0 0 0 = [] := by
  unfold Thread.has; decide +kernel

/-- A call to a header with flag bit 5, and one without; a thread that joins an entry with its loads landed; an entry of 32
threads that is launched. -/
theorem witness_HeddleCallsAndLaunches :
    let x : FmtC := { ctl := c0, off := 0, reg := 0x010, imm := 0 }
    let flag : State := { pS 0 wTh with mem := { (pS 0 wTh).mem with bytes := putBytes 0x140000 [0x20] (pS 0 wTh).mem.bytes } }
    let w : Wait := { what := .heddleDrain, instr := .hret x, word := 0, lanes := [0], vals := [0x1000, 32, 0, 63, 0] }
    let th : Thread := { wTh with st := .waiting w }
    let s : State := wS th
    let e : HEntry := { wg := 0, target := 0x1000, threshold := 32, timeout := 100, live := 63
                        threads := List.replicate 32 { thread := wTh, alloc := 1024, arrived := 0 } }
    let l : State := { wS wTh with cores := [(0, { heddle := [(0, e)] })] }
    wTh.has 1024 [(0x010, 4, 1)] ∧ wTh.reg 0x010 4 / 2 ^ 5 % 2 ^ 11 = 0 ∧ Thread.reg (rTh 0x20 0) 0x004 4 / 2 ^ 5 % 2 ^ 11 ≠ 0 ∧
    ((flag.fetch 0 0 0x1000 true).2.toOption.map fun h => isHeader h && h.getLsbD 5) = some true ∧
    (((pS 0 wTh).fetch 0 0 0x1000 true).2.toOption.map fun h => isHeader h && !h.getLsbD 5) = some true ∧
    (wK th).waitsFor (· = .heddleDrain) = [(0, w)] ∧ (laneOf (wK th).threads 0).held = [] ∧ s.halted 0 0 = false ∧
    ((s.core 0).heddleEntry 0 0x1000).isSome = true ∧ ((s.drainQueue 0 0).skein 0 0).isSome = true ∧
    look (l.core 0).heddle 0 = some e ∧ e.threads.length ≤ 32 ∧ e.threshold ≤ e.threads.length ∧ l.stopped 0 = false ∧
    (l.freeIndex 0).isSome = true ∧ (l.slotFor 0).isSome = true ∧ (l.wg 0).isSome = true ∧
    ∀ t ∈ e.threads, t.thread.stepNext = none ∧ t.thread.stopNext = false := by
  unfold Thread.has; decide +kernel

/-- The owner of the ring, with a free record and with none; records of its own and of another workgroup; STRIPQ with a strip. -/
theorem witness_BoardingsAreTakenAndReleased :
    let e0 := 2 ^ 24 * 0
    let b : Board := { wg := 0 }
    let s (m : SMap Board) : State :=
      { wS wTh with ring := { enable := true, owner := 0, prog := some [{ src := 0, comp := 0, fmt := 0, layer := 0 }] }, cores := [(0, { boards := m })] }
    let full : SMap Board := (List.range 8).map fun i => (i, b)
    (s []).boardFault (wK wTh) e0 0x8000 = none ∧ (∀ i < 8, (look ((s full).core 0).boards i).isSome = true) ∧
    look ((s []).core 0).boards 0 = none ∧ look ((s (full.take 7)).core 0).boards 7 = none ∧
    (∀ j < 7, (look ((s (full.take 7)).core 0).boards j).isSome = true) ∧ (2 ^ 51 : Nat) / 2 ^ 51 ≠ 0 ∧
    (s []).ownBoard 0 (wK wTh) 0 = none ∧ (s full).ownBoard 0 (wK wTh) 7 = some b ∧ b.st = 1 ∧
    ({ b with landing := some 0 } : Board).landing ≠ none ∧ (s full).readsDue 0 (wK wTh) (wK wTh).ord = false ∧
    wTh.has 1024 [(0x010, 8, 2)] ∧ wTh.has 1024 [(0x010, 4, 1), (0x011, 4, 1)] ∧ wTh.has 1024 [(0x104, 8, 1)] ∧
    ({ wS wTh with grids := [(0, wGrid)] } : State).grid 0 0 = some wGrid ∧ wGrid.strip = none := by
  unfold Thread.has; decide +kernel

/-- RINGCTL values that turn the ring on and off; a program of one tile that is valid, and one that is not. -/
theorem witness_RingAdoptsItsProgram :
    let s (r : Ring) : State := { mem := { bytes := [] }, ring := r }
    let bad : State := { mem := { bytes := [(7, 0x10)] }, ring := { pending := true } }
    (s {}).boot.recovery = false ∧ (s { pending := true }).ring.enable = false ∧ (1 : Word).getLsbD 0 = true ∧
    (0 : Word).getLsbD 0 = false ∧ (s { enable := true, ready := 1 }).tileOver = false ∧ (s { enable := true }).tileOver = true ∧
    (s { enable := true, pending := true }).ring.pickEnd = true ∧
    (s { prog := some [] }).ring.prog ≠ none ∧
    ((s {}).readProg).2 = some [{ src := 0, comp := 0, fmt := 0, layer := 0 }] ∧ bad.readProg.2 = none := by
  decide +kernel

/-- A ring at a boundary, with and without a boarding that lacks a slot; a tile whose flit 0, and whose flit 15, is at a tap. -/
theorem witness_RingCarriesTiles :
    let tile : RingTile := { src := 0, comp := 0, fmt := 32, layer := 0 }
    let r : Ring := { enable := true, prog := some [tile] }
    let b : Board := { wg := 0, slots := 1, landed := [0], taken := 1 }
    let x : Flight := { pick := 0, seq := 0, layer := 0, data := [], poison := false, start := 1, gap := 1 }
    let s (bs : SMap Board) (r : Ring) : State := { wS wTh with ring := r, cores := [(71, { boards := bs })], cycle := 2000 }
    (s [] r).ring.stopping = false ∧ (s [] r).atBoundary = true ∧ ((s [] r).ring.prog.getD [])[(s [] r).ring.due.2]? = some tile ∧
    (s [] r).holders (s [] r).ring.due.2 = [] ∧ (s [(0, b)] r).holders (s [(0, b)] r).ring.due.2 ≠ [] ∧
    (s [(0, b)] r).atBoundary = true ∧ (s [(0, b)] r).ring.hold ≠ 0 ∧ (s [(0, b)] r).ring.holding = none ∧
    (s [] { r with flying := [x] }).ring.flying.zipIdx.find? (fun x => !x.1.caught.contains 71) = some (x, 0) ∧
    x.first 71 ≤ 2000 ∧ x.final 71 ≤ 2000 ∧
    (let y := { x with caught := [71] }
     (s [(0, { b with landing := some 0 })] { r with flying := [y] }).ring.flying.zipIdx.find? (fun x =>
       x.1.caught.contains 71 && !x.1.landed.contains 71) = some (y, 0)) ∧
    ([(0, { b with landing := some 0 })].filterMap fun (c : Nat × Board) => c.2.landing.map fun j => (c.1, c.2, j)) =
      [(0, { b with landing := some 0 }, 0)] ∧
    crc32c (({ x with crc := crc32c [] } : Flight).got 71) = crc32c [] ∧ crc32c (x.got 71) ≠ ({ x with crc := 1 } : Flight).crc ∧
    ({ b with retry := true, landing := some 0 } : Board).retry = true := by decide +kernel

/-- A machine with three pages: texture descriptors 0 (valid) and 1 (not valid), samplers, and texels. -/
def texS (th : Thread) : State :=
  let s := ((pS 0 th).putPte 0x130010 0x14106F).putPte 0x130018 0x14206F
  { s with
    mem := { s.mem with bytes := putBytes (0x140100 + 16) [1] (putBytes (0x140100 + 1) [0x30] s.mem.bytes) }
    ctxs := [(0, { enabled := true, fix := { root := 0x100000 }, var := { texBase := 0x1100, texCount := 2, sampBase := 0x2000, sampCount := 1 } })] }

/-- A sample of level 0, with a valid descriptor and sampler; indices out of count; levels and coordinates at the ends of the
texture; a user and a supervisor thread; TBLW of the last descriptor. -/
theorem witness_TexturesAndTablesAreUsed :
    let s := texS wTh
    let st := siteOf s wI 0
    let k := wK wTh
    (s.descRead st k 0 0).2.toOption.map (fun d => (d.bind texOf).isSome) = some true ∧
    (s.descRead st k 0 1).2.toOption.map (fun d => d.bind texOf) = some none ∧
    (s.descRead st k 0 2).2.toOption = some none ∧
    (let u := (s.descRead st k 0 0).1
     let v := (u.descRead st k 1 0).1
     (u.descRead st k 1 0).2.toOption.map (fun d => (d.bind sampOf).isSome) = some true ∧
     (u.descRead st k 1 1).2.toOption = some none ∧
     ∀ t p, texOf ((List.replicate 1 0) ++ [0x30] ++ List.replicate 14 0 ++ [1] ++ List.replicate 15 0) = some t →
       sampOf (List.replicate 16 0) = some p →
       (State.texSample st k t p (TexForm.level.plan t p { lane := 0, cyc := 0, vals := [0], pred := 0, link := 0 }) v).2.toOption.isSome = true ∧
       (t.levels = 1 ∧ t.w 0 = 1 ∧ t.h 0 = 1 ∧ t.layers = 1) ∧
       (u.place 0 0 0 (word (t.at 0 0 0 0)) t.bpt .store true).2.toOption = some (.dev 0x142000)) ∧
    (wTh.sup = false ∧ ({ wTh with sup := true } : Thread).sup = true) ∧ 1 < ((s.varOf 0 0 0).table 0).2.1 ∧ s.copyWaits st k 0x1120 = false ∧
    (s.place 0 0 0 (word (((s.varOf 0 0 0).table 0).1 + ((s.varOf 0 0 0).table 0).2.2)) ((s.varOf 0 0 0).table 0).2.2 .store false).2.toOption =
      some (.dev 0x140120) ∧
    wTh.has 1024 [(0x010, 4, 4)] ∧ wTh.has 1024 [(0x020, 8, 4), (0x001, 4, 1)] ∧ wTh.has 1024 [(0x020, 4, 5)] := by
  unfold Thread.has
  refine ⟨by decide +kernel, by decide +kernel, by decide +kernel, ⟨by decide +kernel, by decide +kernel, ?_⟩, by decide +kernel⟩
  intro t p ht hp
  have ht' : t = { base := 0x3000, width := 1, height := 1, layers := 1, levels := 1, array := false, fmt := 0 } :=
    Option.some.inj (ht.symm.trans (by decide +kernel))
  have hp' : p = { maxlod := 0, minlod := 0, bias := 0, aniso := 0, mip := 0, minLin := false, magLin := false, av := 0, au := 0
                   border := [0, 0, 0, 0] } := Option.some.inj (hp.symm.trans (by decide +kernel))
  subst ht' hp'
  decide +kernel

/-- Ray slots at status 0, 4 and 5, with a record that is known and one that is not; traversals that end, fault and call a
shader. -/
theorem witness_RaysAreTraced :
    let x : FmtX := { ctl := c0, r1 := 0x010, r2 := 0, imm := 0 }
    let slot (n : Nat) : Thread := { wTh with regs := putBytes (64 + 48) (toBytes 4 n) [] }
    let v (th : Thread) : Nat := natAt th.regs (regAddr th.views 0x010) 256
    let t : Trav := { tmin := 0, tcur := 0x7F800000, mask := 0, flags := 0, levels := [], pc := 0x1008, blk := 0x1000, word := 0 }
    let w : Wait := { what := .trace, instr := .trace x, word := 0, lanes := [0] }
    let th (t : Trav) : Thread := { wTh with st := .waiting w, trav := some t }
    let h : Hit := { t := 0x3F800000, b1 := 0, b2 := 0, inst := 0, geom := 0, prim := 0, front := true, proc := false }
    let a : Trav := { t with cand := some (h, 0x1000, false) }
    let f : Trav := { t with levels := [{ base := 0x10, o := [0, 0, 0], d := [0, 0, 0], stack := [(2 ^ 30, fNegInf, 0)] }] }
    let s (t : Trav) : State := { pS 0 (th t) with skeins := [(0, wK (th t))] }
    (wTh.has 1024 [(0x010, 4, 64)] ∧ wTh.has 1024 [(0x010, 4, 12)]) ∧
    (∀ n ∈ [0, 3, 4, 5, 6], bits (v (slot n)) 384 32 = n) ∧
    (wS wTh).travs.find? (fun r => ofBytes r.1 == bits (v (slot 4)) 768 1280) = none ∧
    ({ wS wTh with travs := [(List.replicate 160 0, t)] } : State).travs.find? (fun r => ofBytes r.1 == bits (v (slot 4)) 768 1280) =
      some (List.replicate 160 0, t) ∧
    (∀ t' ∈ [t, a, f], ((s t').tracing 0 0 0).map (fun r => r.2.2.2) = some t') ∧
    (let st : Site := { core := 0, slot := 0, lane := 0, lanes := [0], cyc := 0, pc := 0x1008, word := 0 }
     (match State.travRun st (wK (th t)) travFuel t (s t) with | (_, .over t' b) => !t'.flags.testBit 8 && !b | _ => false) = true ∧
     (match State.travRun st (wK (th f)) travFuel f (s f) with | (_, .fault _) => true | _ => false) = true ∧
     (match State.travRun st (wK (th a)) travFuel a (s a) with
      | (u, .shader t' anyhit e) => (((u.slotCall 0 0 0 0x010 t' anyhit).badTarget 0 0 (word e) true).2 == false) && anyhit
      | _ => false) = true) := by
  unfold Thread.has; decide +kernel

/-- A launch record of one workgroup of one thread, its completion address 0x1000 and its band 0. -/
def launchBytes : List Byte := toBytes 64
  (0x1000 + 2 ^ 256 * 1 + 2 ^ 288 * 1 + 2 ^ 320 * 1 + 2 ^ 352 * 1 + 2 ^ 368 * 16 + 2 ^ 392 * 0xFC08FC02FC06FC04 + 2 ^ 456 * 1)
/-- A context with a quota of one core and that record at the head of its launch queue. -/
def qS (bytes : List Byte) : State := { pS 0 wTh with
  skeins := [], wgs := []
  mem := { (pS 0 wTh).mem with bytes := putBytes 0x200000 bytes (pS 0 wTh).mem.bytes }
  ctxs := [(0, { enabled := true, fix := { root := 0x100000, launchBase := 0x200000 }
                 var := { quota := 1, pendQuota := 8, stackBase := 0, stackSize := 0 }, lq := [0], lqNext := 1 })] }
/-- The grid of that record. -/
def qGrid : Grid := { ctx := 0, num := 1, lr := recordOf launchBytes, src := .queue }

/-- A write of 64 bytes at offset 0, and of 8 at 0x38; a head record that is taken, one that lacks a field, and one whose
views are not allowed; a cluster that is placed; a node of 31 records whose inputs have ended; a grid that retires with and without a
completion; a pipeline whose second slot is ready. -/
theorem witness_GridsAreLaunchedAndRetired :
    let s := qS launchBytes
    (s.boot.recovery = false ∧ (s.ctx 0).enabled = true ∧ (s.ctx 0).var.quota ≠ 0 ∧ (s.ctx 0).resetting = false ∧
      launchBytes.length = 64 ∧ (s.ctx 0).lq.length < 256 ∧ (0x38 : Nat) < 0x40 ∧ (List.replicate 8 (0 : Byte)).length ≠ 64) ∧
    ((s.ctx 0).ev.waits.any (·.kind == 4) = false ∧ s.sourceBusy 0 0 .queue = false ∧
      (s.ctx 0).ev.outstanding.any (fun o => o.2 == .head 0 false) = false ∧
      (State.queueHead 0 0 (s.ctx 0).lq s).2 = some (0, launchBytes) ∧ recordFields launchBytes = true ∧
      (recordOf launchBytes).kind ≠ 1 ∧ s.laterReason 0 (recordOf launchBytes) = none) ∧
    (let bad := List.replicate 64 (0 : Byte)
     (State.queueHead 0 0 [0] (qS bad)).2 = some (0, bad) ∧ recordFields bad = false ∧
     ((State.queueHead 0 0 [0] (qS bad)).1.ctx 0).mayHold = true) ∧
    (let large := putBytes 49 [1, 0] (launchBytes.zipIdx.map fun b => (b.2, b.1))
     let bs := bytesAt large 0 64
     (State.queueHead 0 0 [0] (qS bs)).2 = some (0, bs) ∧ recordFields bs = true ∧ (recordOf bs).kind ≠ 1 ∧
     ((State.queueHead 0 0 [0] (qS bs)).1.ctx 0).mayHold = true ∧
     ((State.queueHead 0 0 [0] (qS bs)).1.laterReason 0 (recordOf bs)).isSome = true) ∧
    (let t : State := { s with grids := [(512, qGrid)] }
     t.grid 0 1 = some qGrid ∧ qGrid.strip = none ∧ qGrid.admitting = true ∧ t.serves qGrid = true ∧ qGrid.lr.cls ≠ 2 ∧
     ∃ c ∈ [[0], [71]], (checkCluster (t.quotaLeft 0) qGrid.lr (t.rooms 0) c).isSome = true) ∧
    (let x : Node := { entry := 0x1000, arena := 0x1000, cap := 64, kind := 0, output := 1, count := 31 }
     let g : Grid := { qGrid with graph := some { nodes := [x], init := 0, left := 0 }, lr := { qGrid.lr with kind := 1, threads := 0, regbytes := 16 } }
     let t : State := { s with grids := [(512, g)] }
     t.grid 0 1 = some g ∧ ({ nodes := [x], init := 0, left := 0 } : Graph).ready (t.gridWgs 0 1) 0 = true ∧ t.nodeFits g 0 31 = true) ∧
    (let g : Grid := { qGrid with next := 1 }
     let t : State := { s with grids := [(512, g)] }
     g.held = false ∧ t.retirable g = true ∧ (t.ctx 0).ev.waits.any (·.kind == 6) = false ∧ g.lr.completion = 0 ∧
     (t.completeGrid { g with lr := { g.lr with completion := 0x1000 } }).2 = none ∧
     (t.completeGrid { g with lr := { g.lr with completion := 0xF000000000000 } }).2.map (·.replayable) = some false) ∧
    (let e : Event := { kind := 6 }
     let t : State := s.modCtx 0 fun c => { c with fix := { c.fix with evSize := 6 }, ev := { held := [e] } }
     (t.ctx 0).ev.held = [e] ∧ (t.ctx 0).evRoom = true) ∧
    (let t : State := { s with devq := { size := 6, held := [{ kind := 19 }] } }
     t.devq.held = [{ kind := 19 }] ∧ t.devq.room = true) ∧
    (let t : State := { wS wTh with cores := [(0, { pipes := [(0, { rot := [1, 0] })] })], cycle := 1 }
     let u := ((t.core 0).pipe 0).rot.foldl (fun s x => s.reap 0 x) t
     ((u.core 0).pipe 0).run = none ∧ ((u.core 0).pipe 0).busy ≤ u.cycle ∧ ((u.core 0).pipe 0).rot = [1] ++ 0 :: [] ∧ u.slotReady 0 1 = false ∧ u.slotReady 0 0 = true ∧
     u.skein 0 0 = some (wK wTh) ∧ u.stopped 0 = false ∧ (wK wTh).yielded = false) := by
  and_intros <;> decide +kernel

/-- A vacate at rest, one that kills, and their ends; a saved workgroup that returns to its core. -/
theorem witness_WorkgroupsAreSavedAndRestored :
    let v : Vacate := { cores := [0], wgs := [0], started := true }
    let s (v : Vacate) : State := { wS wTh with vacates := [(0, v)], skeins := [(0, { wK wTh with threads := [{ wTh with st := .running }] })] }
    let mine (k : Nat) : Bool := v.wgs.contains k
    (look (s v).vacates 0 = some v ∧ v.saved = false ∧ v.started = true ∧ v.cores.all (fun c => (s v).restful c mine) = true ∧
      v.cores.all (fun c => (s { v with kill := true }).paused c mine) = true) ∧ (wS wTh).wg 0 = some wG ∧
    (∀ i ∈ v.after, look (s v).vacates i = none) ∧ ((s v).ctx 0).ev.waits = [] ∧ ((s v).ctx 0).ev.held.length < 16 ∧
    (let sv : Saved := { wg := { wG with scratch := 0, frames := 0, cls := 0 }, slot := 0, cores := [{ skeins := [wK wTh] }], cycle := 0, time := 0 }
     let t : State := { qS launchBytes with saved := [(0, sv)], grids := [(0, { wGrid with next := 1 })] }
     let ms := (t.rooms 0).filter fun m => [0].contains m.core
     look t.saved (wgKey 0 0 0) = some sv ∧ ms.map (·.core) = [0] ∧ t.holdsAll sv ms = true ∧
     t.restoreNext (wgKey 0 0 0) sv = true ∧ sv.wg.whole = false) := by
  decide +kernel

/-- A core with a carve target of one way and none lent, one with more lent than any grant needs, an exclusive line, and a
workgroup past a watchdog of 1 µs. -/
theorem witness_CoresKeepTheirCachesAndWatch :
    let s : State := { wS wTh with ctxs := [(0, { enabled := true, var := { carve := 32, watchdog := 1 } })], time := { now := 2001 * 2 ^ 40 } }
    let l (n : Nat) : State := { ({} : State) with cores := [(0, { lent := n, l1 := [(5, { excl := true })] })] }
    (s.core 0).lent < s.carveDue 0 s.placing ∧ (s.core 0).l1 = [] ∧
    (max ((l 16).carveDue 0 []) (ceilDiv ((l 16).granted 0 - 2 ^ 20) 32768)) < ((l 16).core 0).lent ∧
    look ((l 0).core 0).l1 5 = some { excl := true } ∧ (0xEFFFFFFFFFFFF : Word).toNat < 0xF * 2 ^ 48 ∧
    s.wg (wgKey 0 0 0) = some wG ∧ wG.wdFired = false ∧ wG.wdHeld = none ∧ (s.ctx 0).var.watchdog ≠ 0 ∧
    (s.ctx 0).var.watchdog * (1000 * 2 ^ 40) < s.time.now - wG.wdStart ∧
    (let u := (s.modWg 0 fun w => { w with wdFired := true }).count 0 22 1
     u.skeinsOf 0 true = [(0, 0, wK wTh)] ∧ ((u.core 0).pipe 0).run = none) ∧
    (({ s with cores := [(0, { pipes := [(0, { run := some { slot := 0, start := 0 } })] })] } : State).core 0).pipe 0 =
      { run := some { slot := 0, start := 0 } } := by
  decide +kernel

/-- A node of a graph. -/
def nX (kind output n : Nat) : Node := { entry := 0x2200, arena := 0x1000, cap := 32, kind := kind, output := output, count := n }
/-- A node's 32 bytes in a descriptor. -/
def nodeBytes (entry kind : Nat) : List Byte := toBytes 32 (entry + 2 ^ 64 * 0x1000 + 2 ^ 128 * 32 + 2 ^ 160 * kind)
/-- A machine with a strip chain's record, its graph of a shader, binner, rasteriser, shader and blender, and its blocks on a
page; and a region of two slots of 64 lines of 64 pixels for each of the consumers 0 and 4. -/
def stripS (sched : SMap Sched) (now : Nat) : State :=
  let s := (qS launchBytes).putPte 0x130010 0x14106F
  let page := (launchBytes.take 0 ++ toBytes 8 0x2040 ++ (launchBytes.drop 8).take 52 ++ [1] ++ launchBytes.drop 61) ++
    (toBytes 64 5) ++ nodeBytes 0x1000 0 ++ nodeBytes 0x1000 1 ++ nodeBytes 0x2200 2 ++ nodeBytes 0x1000 3 ++ nodeBytes 0x2240 4 ++
    List.replicate (0x200 - 0x120) 0 ++ [1] ++ List.replicate 127 0
  { s with
    mem := { s.mem with bytes := putBytes 0x141000 page s.mem.bytes, strip := [] }
    sched := sched, time := { now := now * 2 ^ 24 }
    w0 := [(0x021000, word (2 ^ 63 + 2 ^ 48 * 2)), (0x021008, word 16512), (0x021040, word (2 ^ 63 + 2 ^ 48 * 2 + 40000 / 128 * 128)),
           (0x021048, word 16512)] }
/-- An entry whose first strip has D at 980 and A at 970. -/
def sX : Sched :=
  { gen := 0, ctx := 0, rows := 64, maxLevel := 4, cores := 1, cols := 0, graph := 0x2000, e0 := 1000, period := 10, budget := 10
    guard := 0, hint := 0, fill := [1, 2, 3, 4], w := 64, h := 64, v := 64, slack := 5, ringBase := 0x3000, ringSize := 4096, progress := 0x1000 }
/-- The same machine with strip 0's tag in the slot of consumer j, with its states, complete at a time. -/
def slotS (j : Nat) (st : Nat) (done : Option Nat) (sched : SMap Sched) (now : Nat) : State :=
  let s := stripS sched now
  let a := (s.region j).outAt 0 + 8
  { s with
    mem := { s.mem with strip := putBytes a [BitVec.ofNat 8 st] [], stripSet := match done with | none => [] | some t => [(a, t)] }
    slots := [(64 * j, (0, 0))] }

/-- A session's entry that is valid and one that is not; a strip tried first at A, on D and past D, with its slot free and
claimed; a strip that no core, and one that a graph, is missing for; a slot complete at D and one after it; a head with a line to
send and one that has sent its last; a session's strip at D + slack. -/
theorem witness_StripsAreAdmittedAndConsumed :
    (let bs := toBytes 128 (2 ^ 16 * 64 + 2 ^ 24 * 4 + 2 ^ 32 * 1 + 2 ^ 64 * 0x2000 + 2 ^ 128 * 1000 + 2 ^ 256 * 10 + 2 ^ 320 * 10 +
       2 ^ (8 * 0x44) * 64 + 2 ^ (8 * 0x46) * 64 + 2 ^ (8 * 0x48) * 64 + 2 ^ (8 * 0x60) * 4096)
     (stripS [] 0).schedOk 4 bs = true ∧ (stripS [] 0).schedOk 4 (List.replicate 128 0) = false ∧ look (stripS [] 0).sched 4 = none) ∧
    (look (stripS [(0, sX)] 970).sched 0 = some sX ∧
      (∀ n ∈ [970, 980], sX.attempt (stripS [(0, sX)] n).unitsNow = some 0 ∧ ∀ p ∈ (stripS [(0, sX)] n).sched, p.1 = 0)) ∧
    (let s := stripS [(0, sX)] 970
     s.claimed ((s.region 0).outAt (0 % (s.region 0).n)) = false ∧ (s.region 0).low = 0 ∧ (s.chainCores 1).isSome = true ∧
     (match s.ctxReadAny 0 0x2000 64 with
      | (u, .ok (bs, [])) => recordFields bs && (recordOf bs).kind == 1 && (u.laterReason 0 (recordOf bs)).isNone &&
          (match u.graphOf 0 (recordOf bs).entry.toNat true with
           | (v, .ok g) => (match v.blocks sX g (sX.lines 0) with
             | (_, some b) => (s.region 0).holds sX b && !(s.region 0).holds { sX with rows := 65 } b
             | _ => false)
           | _ => false)
      | _ => false) = true ∧ (s.chainCores 25).isNone = true ∧ (s.ctxReadAny 0 0x9000 64).2.toOption = none) ∧
    (let s := slotS 0 1 none [(0, sX)] 970
     s.claimed ((s.region 0).outAt (0 % (s.region 0).n)) = true) ∧
    sX.due sX.oldest < (stripS [(0, sX)] 981).unitsNow ∧
    (sX.due sX.con ≤ (stripS [(0, sX)] 980).unitsNow ∧ sX.nextLine = none) ∧
    (slotS 0 3 (some 980) [(0, sX)] 980).stripReady 0 sX 0 980 = true ∧ (slotS 0 3 (some 981) [(0, sX)] 980).stripReady 0 sX 0 980 = false ∧
    (let e := { sX with shown := [(0, true, 0)] }
     e.nextLine = some (0, true, 0) ∧ e.lineTime 0 0 ≤ (stripS [(0, e)] 1640).unitsNow) ∧
    (let e := { sX with shown := [(0, true, 64)] }
     let s := slotS 0 3 (some 980) [(0, e)] 1640
     e.lines 0 ≤ 64 ∧ e.lineTime 0 (e.lines 0) ≤ s.unitsNow ∧ s.slotTag (s.outSlot 0 0) = e.tag 0 ∧
     (s.putRing (s.outSlot 0 0) [9]).slotTag (s.outSlot 0 0) ≠ e.tag 0) ∧
    ((slotS 4 3 (some 985) [(4, sX)] 985).stripReady 4 sX 0 (sX.due sX.judged + sX.slack) = true ∧
     (slotS 4 3 none [(4, sX)] 985).stripReady 4 sX 0 (sX.due sX.judged + sX.slack) = false ∧
     sX.due sX.judged + sX.slack ≤ (stripS [] 985).unitsNow ∧
     ((slotS 4 3 (some 985) [(4, sX)] 985).sched.filterMap fun p =>
       ((slotS 4 3 (some 985) [(4, sX)] 985).stripWaiting p.1 p.2).map fun l => (p.1, p.2, l)) = [] ++ (4, sX, false) :: []) := by
  decide +kernel

/-- The encoder's clauses: a ring that the code does not fit, one that may be full, and, for OBUs that are empty (they are opaque,
log entry 14), one with room. -/
theorem witness_encoder (h1 : ∀ a b, Config.av1Sequence a b = []) (h2 : ∀ a b c, Config.av1Frame a b c = [])
    (h3 : ∀ a b c d, Config.av1TileGroup a b c d = []) :
    let job : EncJob := { entry := 4, g := 0, late := true, sched := sX }
    let s : State := { stripS [(4, sX)] 985 with engines := [(7, job)] }
    look s.engines 7 = some job ∧ look s.sched job.entry = some sX ∧ sX.gen = job.sched.gen ∧
    (∀ px, (sX.obus 0 px).length ≤ sX.ringSize ∧ sX.sent + (sX.obus 0 px).length ≤ sX.ringSize) ∧
    (∀ px, s.appendStream sX 0 (sX.obus 0 px) = (s, none)) ∧
    (s.ctxStore 0 sX.progress (toBytes 8 0) false).2 = none := by
  have e (px : List Byte) : sX.obus 0 px = [] := by
    unfold Sched.obus
    rw [h1, h2, h3]
    rfl
  refine ⟨by decide +kernel, by decide +kernel, by decide +kernel, fun px => ?_, fun px => ?_, by decide +kernel⟩
  · rw [e]; decide
  · rw [e]; rfl

/-- A chain of consumer 0 at its slot. -/
def tX0 : Strip :=
  { entry := 0, gen := 0, g := 0, k := 0, rows := 16, lines := 16, tag := 0, dl := 980, adm := 970, guard := 0, maxLevel := 0, cost := 0, left := 0
    slot := 0, out := 0, pitch := 256, low := 0x8000, lowPitch := 128, ratio := 4, outWidth := 64, cores := [0], closed := true
    raster := [1, 0, 0, 0, 0, 0, 0, 0] ++ List.replicate 56 0, blend := List.replicate 64 0, feed := [4, 0, 6, 0, 0, 0, 0, 0] ++ toBytes 8 0x1000 ++ List.replicate 48 0 }
/-- Its grid with these nodes, and a record at the head of the arena on the page. -/
def chainS (ns : List Node) (t : Strip) (bs : List Byte) : State :=
  let s := qS launchBytes
  { s with
    mem := { s.mem with bytes := putBytes 0x140000 bs s.mem.bytes, strip := putBytes (0x8000 + 8) [3] [] }
    grids := [(512, { qGrid with num := 1, lr := { qGrid.lr with kind := 1 }, strip := some t, graph := some { nodes := ns, init := 0, left := 0 } })] }
/-- A triangle with vertices (1, 1), (1, 5) and (5, 1), z 0 and q 1. -/
def triangle : List Byte := toBytes 64
  ((0x3F800000 + 2 ^ 32 * 0x3F800000 + 2 ^ 96 * 0x3F800000) + 2 ^ 128 * (0x3F800000 + 2 ^ 32 * 0x40A00000 + 2 ^ 96 * 0x3F800000) +
   2 ^ 256 * (0x40A00000 + 2 ^ 32 * 0x3F800000 + 2 ^ 96 * 0x3F800000))

/-- That chain with four samples and a strip of four pixels, its sample buffer at an address. -/
def four (va : Nat) : Strip := { tX0 with
  rows := 1, lines := 1, outWidth := 4, raster := [4] ++ List.replicate 63 0
  blend := List.replicate 16 0 ++ toBytes 8 va ++ List.replicate 40 0 }

/-- A record that the binner keeps and one that it discards; one that the rasteriser takes; a colour record; a blender of one sample,
one of four whose buffer is mapped and one whose buffer is not, a low-res slot and a feed whose inputs have closed; a record of the strip writer. -/
theorem witness_FixedFunctionNodesRun :
    (∀ bs ∈ [triangle, List.replicate 64 0],
      let s := chainS [nX 0 0 0, nX 1 2 1, nX 2 3 0, nX 0 0 0, nX 4 0 0] tX0 bs
      (s.stage 0 1 1).map (fun p => (p.1, p.2.2)) = some (tX0, 1, nX 1 2 1) ∧ (s.flush 0 1 1 2).2 = true ∧
      ((s.flush 0 1 1 2).1.oldest 0 1 1 (nX 1 2 1)).2 = some bs ∧ ((triOf tX0.raster 0 16 bs).isSome = (bs == triangle))) ∧
    (let s := chainS [nX 0 0 0, nX 1 2 0, nX 2 3 1, nX 0 0 0, nX 4 0 0] tX0 triangle
     let v := ((s.flush 0 1 2 3).1.oldest 0 1 2 (nX 2 3 1))
     (s.stage 0 1 2).map (fun p => (p.1, p.2.2)) = some (tX0, 2, nX 2 3 1) ∧ (s.flush 0 1 2 3).2 = true ∧
     (s.flush 0 1 2 3).1.inputClosed 0 1 2 = true ∧ v.2 = some triangle ∧ ((v.1.depthFill 0 tX0).2).isNone = true ∧
     ((triOf tX0.raster 0 16 triangle).map fun tri => match State.rasterise 0 tX0 tri (tri.cells tX0) 0 [] (v.1.depthFill 0 tX0).1 with
       | (_, .ok r) => decide (0 < r.length)
       | _ => false) = some true) ∧
    (let s := chainS [nX 0 0 0, nX 1 2 0, nX 2 3 0, nX 0 0 0, nX 4 0 1] tX0 triangle
     (s.stage 0 1 4).map (fun p => (p.1, p.2.2)) = some (tX0, 4, nX 4 0 1) ∧ (s.oldest 0 1 4 (nX 4 0 1)).2 = some triangle) ∧
    (let s := chainS [nX 0 0 0, nX 1 2 0, nX 2 3 0, nX 0 0 0, nX 4 0 0] tX0 triangle
     (s.stage 0 1 4).map (fun p => (p.1, p.2.2)) = some (tX0, 4, nX 4 0 0) ∧ (nX 4 0 0).ended = false ∧ (nX 4 0 0).waits = false ∧
     (nX 4 0 0).count = 0 ∧ s.inputClosed 0 1 4 = true ∧ numAt tX0.raster 0 1 = 1 ∧ tX0.upscale = false) ∧
    (∀ va ∈ [0, 0x1000],
      let t := four va
      let s := chainS [nX 0 0 0, nX 1 2 0, nX 2 3 0, nX 0 0 0, nX 4 0 0] t triangle
      let u := (List.range 4).foldl (fun s x => { s.slotWrite t t.out (t.out + 128 + x * 4)
        (pixelResult t s.free (s.ringBytes (t.out + 128 + x * 4) 4) x 0) with free := s.free + 8 }) s
      (s.stage 0 1 4).map (fun p => (p.1, p.2.2)) = some (t, 4, nX 4 0 0) ∧ numAt t.raster 0 1 = 4 ∧ s.inputClosed 0 1 4 = true ∧
      (State.ctxStores 0 2 va ((List.range 64).map fun i => Config.freeByte (u.free + i)) u).2.isSome = (va == 0)) ∧
    (let ns := [nX 0 0 0, nX 1 2 0, nX 2 3 0, nX 0 0 0, { nX 4 0 0 with ended := true }, nX 5 0 0, nX 0 0 0, nX 6 0 1]
     let s := chainS ns { tX0 with upscale := true } triangle
     (s.stage 0 1 5).map (fun p => (p.2.2)) = some (5, nX 5 0 0) ∧ s.inputClosed 0 1 5 = true ∧ s.claimed tX0.low = true ∧
     s.slotTag tX0.low = tX0.tag ∧ s.slotBits tX0.low / 2 % 2 = 1 ∧ s.lastStrip { tX0 with upscale := true } = true ∧
     (State.stageRows 0 { tX0 with upscale := true } none (List.range (16 / 4 + 8)) s).2.isNone = true ∧
     (s.stage 0 1 6).map (fun p => (p.2.2)) = some (7, nX 6 0 1) ∧ (s.oldest 0 1 7 (nX 6 0 1)).2 = some triangle) := by
  and_intros <;> decide +kernel

/-- A context entry's bytes that enable it, with a free-page queue of 256. -/
def entryBytes : List Byte := toBytes 256
  (2 ^ 16 * 1 + 2 ^ 64 * 0x100000 + 2 ^ (8 * 0x38) * 1 + 2 ^ (8 * 0x58) * 6 + 2 ^ (8 * 0x68) * 8)
/-- A machine whose context table at 0x400000 holds them for the last context. -/
def entryS (on : Bool) (poison : List Nat) : State := { wS wTh with
  mem := { bytes := putBytes (0x400000 + 256 * 511) entryBytes [], poison := poison }, w0 := [(0, 0x400000)]
  ctxs := [(511, { enabled := on, fix := { freeSize := 8 } })] }

/-- A context entry that is valid, enabled and not, and one that is poisoned; a free-page queue with room; a read index at the
write index; a parked thread; an event that is outstanding. -/
theorem witness_ContextsAnswerTheHost :
    let s := entryS false []
    let v := ctxVarOf (s.homeRead (0x400000 + 256 * 511) 256 none).2.1
    let b := (s.homeRead (0x400000 + 256 * 511) 256 none).2.1
    s.boot.recovery = false ∧ s.ctxEntry 511 = some (0x400000 + 256 * 511) ∧ (s.ctx 511).resetting = false ∧
    (s.homeRead (0x400000 + 256 * 511) 256 none).2.2 = [] ∧ (s.ctx 511).enabled = false ∧ v.quota ≠ 0 ∧
    varOk b (ctxFixedOf b).freeSize = true ∧ fixedOk (ctxFixedOf b) = true ∧
    ((entryS true []).ctx 511).enabled = true ∧ varOk b ((entryS true []).ctx 511).fix.freeSize = true ∧
    ((entryS false [(0x400000 + 256 * 511) / 8]).homeRead (0x400000 + 256 * 511) 256 none).2.2 ≠ [] ∧
    ((0x5FFFFFF000 : Word).toNat % 4096 = 0 ∧ (0x5FFFFFF000 : Word).toNat < memEnd ∧ (s.ctx 511).fix.freeSize ≠ 0 ∧
      (s.ctx 511).freeCount < 2 ^ (s.ctx 511).fix.freeSize) ∧
    (s.ctx 511).preempting = false ∧ inRing ((0 : Word).toNat % 2 ^ 32) (s.ctx 511).ev.rd ≤ inRing (s.ctx 511).ev.wr (s.ctx 511).ev.rd ∧
    ((2 ^ 32 : Word).toNat % 2 ^ 32 = 0) ∧ (∀ p ∈ s.sched, p.2.ctx ≠ 511) ∧
    (let k := wK { wTh with st := .hostParked }
     let d := wK { wTh with st := .debugParked }
     lanesOf (1 : BitVec 32) = [0] ∧ (laneOf k.threads 0).st = .hostParked ∧ (laneOf d.threads 0).st = .debugParked ∧
     ({ wS wTh with skeins := [(0, d)] } : State).skein 0 0 = some d) ∧
    (let r : Resumes := .fragment 0 0 1
     ({ wS wTh with ctxs := [(0, { ev := { outstanding := [(7, r)] } })] } : State).ctx 0 |>.ev.outstanding.find?
       (fun o => o.1 == 7)) = some (7, .fragment 0 0 1) := by
  decide +kernel

/-- Time at its greatest nanosecond; a check 10 µs after the last; an index at the write index; accesses that end at 384 GiB
and one that passes it; AtomicOps on an aligned address. -/
theorem witness_DeviceRegistersAnswerTheHost :
    let s := entryS false []
    s.boot.recovery = false ∧ (word (999999999 * 2 ^ 16)).toNat / 2 ^ 16 % 2 ^ 30 ≤ 999999999 ∧
    (s.mon.checked = none ∧ 0 + monitorPeriod ≤ monitorPeriod) ∧
    (let h : State := { s with mon := { s.mon with temps := [(0, 1681)], mhz := 1001 } }
     h.tooHot = true ∧ 1000 < h.mon.mhz) ∧
    inRing ((0 : Word).toNat % 2 ^ 32) s.devq.rd ≤ inRing s.devq.wr s.devq.rd ∧
    ({ s with tlbInv := [(1, 0, 4096, true)] } : State).tlbInv = [(1, 0, 4096, true)] ∧
    (∀ n ∈ [0, 8], (word n).toNat ≤ 8) ∧ (∀ p ∈ s.sched, p.1 < 4) ∧ s.engines = [] ∧
    (word (383 * 2 ^ 30)).toNat / 2 ^ 30 % 2 ^ 22 * 2 ^ 30 < memEnd ∧
    s.aperture (384 * 2 ^ 30 - 8) + 8 ≤ memEnd ∧ memEnd < s.aperture (384 * 2 ^ 30 - 7) + 8 ∧ s.aperture 8 % 8 = 0 ∧
    s.aperture 4 % 4 = 0 := by
  decide +kernel

/-- An image, all zero but for its magic, with an Ed25519 key of n bytes. -/
def image (n : Nat) : Image :=
  { magic := Config.imageMagic, version := BitVec.allOnes 32, size := 0, digest := Config.sha384 [], edKey := List.replicate n 0
    mlKey := List.replicate 1952 0, payload := [], edSig := List.replicate 64 0, mlSig := List.replicate 3309 0 }

/-- A machine in recovery, and one that is not; an image whose key is a byte short fails at step 1; one with keys of their
length passes where the fused hashes and both signatures, which are opaque (log entry 13), are its own. -/
theorem witness_ResetsStartAndAttest :
    (({ boot := { recovery := true } } : State).boot.recovery = true ∧ State.reset.boot.recovery = false) ∧ bootStep (image 31) ≠ 0 ∧
    (Config.sha384 (image 32).edKey = Config.fusedHash false → Config.sha384 (image 32).mlKey = Config.fusedHash true →
      Config.ed25519Verify (image 32).edKey (signedPart (image 32)) (image 32).edSig = true →
      Config.mldsaVerify (image 32).mlKey (signedPart (image 32)) (image 32).mlSig = true → bootStep (image 32) = 0) := by
  have len (n : Nat) : (image n).edKey.length = n ∧ (image n).mlKey.length = 1952 ∧ (image n).edSig.length = 64 ∧
      (image n).mlSig.length = 3309 :=
    ⟨List.length_replicate .., List.length_replicate .., List.length_replicate .., List.length_replicate ..⟩
  refine ⟨by decide, ?_, fun h1 h2 h3 h4 => ?_⟩
  · unfold bootStep
    rw [if_pos (Or.inr (Or.inl (by rw [(len 31).1]; decide)))]
    decide
  · unfold bootStep
    rw [if_neg, if_neg, if_pos]
    · rw [h3, h4]; rfl
    · rintro (h | h | h)
      · exact h h1
      · exact h h2
      · have := Config.fusedVersion.isLt
        have e : (image 32).version.toNat = 2 ^ 32 - 1 := rfl
        omega
    · rintro (h | h | h | h | h | h | h)
      · exact h rfl
      · exact h (len 32).1
      · exact h (len 32).2.1
      · exact h (len 32).2.2.1
      · exact h (len 32).2.2.2
      · exact h rfl
      · exact h rfl

/-- A well-formed instruction with a word, for the two halves of the round trip. -/
theorem witness_DecodeAndEncodeAgree :
    let i : Instr := .ld .b128 { ctl := { c0 with mid := 0 }, data := 255, base := 0x1FF, off := BitVec.allOnes _ }
    (encode i).isSome = true ∧ (match decode ((encode i).getD 0) with | .ok j => decide (j = i) | .error _ => false) = true := by
  decide +kernel

/-- The machine of `State.withFetchWord`: its fetch gives the word, at a pc inside the block; and the stop of one without power. -/
theorem witness_AStepRunsTheDecodedInstruction :
    let s0 := State.reset.placeWord 0x00E4E01005019610
    let p : Pick := { act := .issue 0 0 }
    let s := { s0 with agenda := [] }.pass 0 0
    s0.agenda = p :: [] ∧ s0.power = true ∧
    (match ((s.core 0).pipe 0).run, s.skein 0 0 with
     | some r, some k => decide (r.slot = 0 ∧ k.readyAt ≤ s.cycle ∧ k.ready r.step ≠ [] ∧ (0x1008 : Word) ≠ k.blkEnd) &&
        ((k.ready r.step).all fun l => k.joined.getLsbD l && decide ((laneOf k.threads l).pc = 0x1008 ∧ (laneOf k.threads l).sup = false)) &&
        (match s.fetch 0 k.ctx 0x1008 true with
         | (v, .ok w) => decide (w = 0x00E4E01005019610) && (k.ready r.step).all (fun l => barred 0 w ((v.thread 0 0 l).getD {}) == false)
         | _ => false)
     | _, _ => false) = true ∧
    (match decode 0x0000000400000000 with | .error .illegalField => true | _ => false) = true ∧
    ({ State.reset with power := false, agenda := [p] } : State).agenda = [p] ∧ p.act.powersUp = false := by
  decide +kernel

/-- A page of the fetch clause. -/
theorem witness_fetch :
    let s := pS 0 wTh
    (0x1008 : Word).toNat < 0xF * 2 ^ 48 ∧ (s.translate 0 0 0x1008 .fetch false).2.toOption = some (0x140008, 0) ∧ 0x140008 % 8 = 0 ∧
    (let u := (s.translate 0 0 0x1008 .fetch false).1
     let u' := u.recallRange (128 * (0x140008 / 128)) 128 (some 0)
     look (u.core 0).icache (0x140008 / 128) = none ∧ look (u.core 0).l1 (0x140008 / 128) = none ∧ (u'.core 0).wt = [] ∧
     u'.mem.poison = []) := by
  decide +kernel

/-- The reset state is sound, and a step from a sound state answers a next state. -/
theorem witness_EveryStepKeepsTheStateSound :
    State.reset.sound ∧ (match step (State.reset.placeWord 0x00E4E01005019610) with | .next _ => true | _ => false) = true :=
  ⟨⟨⟨rfl, rfl, rfl⟩, fun h => (by cases h), by decide, by decide, by decide⟩, by decide +kernel⟩

-- WORDS: one for every opcode of 03 R76, laid out from the tables of R64, R68, R76 and R77

/-- Bits [54:44] without the opcode. -/
def k (guard : BitVec 5) (mid : BitVec 4) (runEnd uni : Bool) : Ctl := { guard := guard, mid := mid, runEnd := runEnd, uni := uni }
/-- Each word decodes to its instruction. -/
def reads (ps : List (Word × Instr)) : Bool := ps.all fun p => match decode p.1 with
  | .ok i => decide (i = p.2)
  | .error _ => false

theorem test_words_0 : reads [
  (0x0000000000000000, .nop { ctl := k 0x0 0 false false, dst := 0, a := 0, b := 0, mod := 0, sub := 0 }),
  (0x00F56A054270D613, .add { ctl := k 0x1D 5 true false, dst := 0x281, a := 0x142, b := 0x1C3, mod := 0x584, sub := 3 }),
  (0x01754A054270FA1F, .sub { ctl := k 0x1D 5 false false, dst := 0x281, a := 0x142, b := 0x1C3, mod := 0xE87, sub := 3 }),
  (0x01F56A054270D610, .adds { ctl := k 0x1D 5 true false, dst := 0x281, a := 0x142, b := 0x1C3, mod := 0x584, sub := 0 }),
  (0x02754A054270D610, .addsn { ctl := k 0x1D 5 false false, dst := 0x281, a := 0x142, b := 0x1C3, mod := 0x584, sub := 0 }),
  (0x02F56A054270D610, .subs { ctl := k 0x1D 5 true false, dst := 0x281, a := 0x142, b := 0x1C3, mod := 0x584, sub := 0 }),
  (0x03754A054270D610, .subsn { ctl := k 0x1D 5 false false, dst := 0x281, a := 0x142, b := 0x1C3, mod := 0x584, sub := 0 }),
  (0x03F56A054270D613, .mul { ctl := k 0x1D 5 true false, dst := 0x281, a := 0x142, b := 0x1C3, mod := 0x584, sub := 3 }),
  (0x04754A054270D610, .mulhs { ctl := k 0x1D 5 false false, dst := 0x281, a := 0x142, b := 0x1C3, mod := 0x584, sub := 0 }),
  (0x04F56A054270D610, .mulhn { ctl := k 0x1D 5 true false, dst := 0x281, a := 0x142, b := 0x1C3, mod := 0x584, sub := 0 }),
  (0x05754A054270EA73, .mad { ctl := k 0x1D 5 false false, dst := 0x281, a := 0x142, b := 0x1C3, c := 0x2A7, sub := 3 }),
  (0x05F56A054270EA71, .madw { ctl := k 0x1D 5 true false, dst := 0x281, a := 0x142, b := 0x1C3, c := 0x2A7, sub := 1 }),
  (0x06754A054270D610, .mins { ctl := k 0x1D 5 false false, dst := 0x281, a := 0x142, b := 0x1C3, mod := 0x584, sub := 0 }),
  (0x06F56A054270D610, .minn { ctl := k 0x1D 5 true false, dst := 0x281, a := 0x142, b := 0x1C3, mod := 0x584, sub := 0 }),
  (0x07754A054270D610, .maxs { ctl := k 0x1D 5 false false, dst := 0x281, a := 0x142, b := 0x1C3, mod := 0x584, sub := 0 }),
  (0x07F56A054270D610, .maxn { ctl := k 0x1D 5 true false, dst := 0x281, a := 0x142, b := 0x1C3, mod := 0x584, sub := 0 }),
  (0x08754A040070D610, .abs { ctl := k 0x1D 5 false false, dst := 0x281, a := 0, b := 0x1C3, mod := 0x584, sub := 0 }),
  (0x08F56A040070FA1C, .neg { ctl := k 0x1D 5 true false, dst := 0x281, a := 0, b := 0x1C3, mod := 0xE87, sub := 0 }),
  (0x09754A054270D613, .and { ctl := k 0x1D 5 false false, dst := 0x281, a := 0x142, b := 0x1C3, mod := 0x584, sub := 3 }),
  (0x09F56A054270D610, .or { ctl := k 0x1D 5 true false, dst := 0x281, a := 0x142, b := 0x1C3, mod := 0x584, sub := 0 }),
  (0x0A754A054270D613, .xor { ctl := k 0x1D 5 false false, dst := 0x281, a := 0x142, b := 0x1C3, mod := 0x584, sub := 3 }),
  (0x0AF56A054270D610, .andn { ctl := k 0x1D 5 true false, dst := 0x281, a := 0x142, b := 0x1C3, mod := 0x584, sub := 0 }),
  (0x0B754A054270D613, .shl { ctl := k 0x1D 5 false false, dst := 0x281, a := 0x142, b := 0x1C3, mod := 0x584, sub := 3 }),
  (0x0BF56A054270D610, .shr { ctl := k 0x1D 5 true false, dst := 0x281, a := 0x142, b := 0x1C3, mod := 0x584, sub := 0 }),
  (0x0C754A054270D610, .sar { ctl := k 0x1D 5 false false, dst := 0x281, a := 0x142, b := 0x1C3, mod := 0x584, sub := 0 }),
  (0x0CF56A054270D610, .rol { ctl := k 0x1D 5 true false, dst := 0x281, a := 0x142, b := 0x1C3, mod := 0x584, sub := 0 }),
  (0x0D754A054270C001, .bfx { ctl := k 0x1D 5 false false, dst := 0x281, a := 0x142, b := 0x1C3, c := 0, sub := 1 }),
  (0x0DF56A054270C001, .bfxs { ctl := k 0x1D 5 true false, dst := 0x281, a := 0x142, b := 0x1C3, c := 0, sub := 1 }),
  (0x0E754A054270EA71, .bfi { ctl := k 0x1D 5 false false, dst := 0x281, a := 0x142, b := 0x1C3, c := 0x2A7, sub := 1 }),
  (0x0EF56A040070D610, .popc { ctl := k 0x1D 5 true false, dst := 0x281, a := 0, b := 0x1C3, mod := 0x584, sub := 0 }),
  (0x0F754A040070D610, .clz { ctl := k 0x1D 5 false false, dst := 0x281, a := 0, b := 0x1C3, mod := 0x584, sub := 0 }),
  (0x0FF56A040070D610, .brev { ctl := k 0x1D 5 true false, dst := 0x281, a := 0, b := 0x1C3, mod := 0x584, sub := 0 })] = true := by decide +kernel

theorem test_words_1 : reads [
  (0x10754A0542C00001, .addi { ctl := k 0x1D 5 false false, dst := 0x281, a := 0x142, imm := 0xC00001 }),
  (0x10F56A0542C00001, .muli { ctl := k 0x1D 5 true false, dst := 0x281, a := 0x142, imm := 0xC00001 }),
  (0x11754A0542C00001, .andi { ctl := k 0x1D 5 false false, dst := 0x281, a := 0x142, imm := 0xC00001 }),
  (0x11F56A0542C00001, .ori { ctl := k 0x1D 5 true false, dst := 0x281, a := 0x142, imm := 0xC00001 }),
  (0x12754A0542C00001, .xori { ctl := k 0x1D 5 false false, dst := 0x281, a := 0x142, imm := 0xC00001 }),
  (0x12F56A0542000011, .shli { ctl := k 0x1D 5 true false, dst := 0x281, a := 0x142, imm := 0x11 }),
  (0x13754A0542000011, .shri { ctl := k 0x1D 5 false false, dst := 0x281, a := 0x142, imm := 0x11 }),
  (0x13F56A0542000011, .sari { ctl := k 0x1D 5 true false, dst := 0x281, a := 0x142, imm := 0x11 }),
  (0x14754A0400C00001, .movi { ctl := k 0x1D 5 false false, dst := 0x281, a := 0, imm := 0xC00001 }),
  (0x14F56A040000C001, .movhi { ctl := k 0x1D 5 true false, dst := 0x281, a := 0, imm := 0xC001 }),
  (0x15754A0400C00001, .movti { ctl := k 0x1D 5 false false, dst := 0x281, a := 0, imm := 0xC00001 }),
  (0x15F56A040070D610, .mov { ctl := k 0x1D 5 true false, dst := 0x281, a := 0, b := 0x1C3, mod := 0x584, sub := 0 }),
  (0x16754A054270D612, .addp { ctl := k 0x1D 5 false false, dst := 0x281, a := 0x142, b := 0x1C3, mod := 0x584, sub := 2 }),
  (0x16F56A054270EA73, .dot4s { ctl := k 0x1D 5 true false, dst := 0x281, a := 0x142, b := 0x1C3, c := 0x2A7, sub := 3 }),
  (0x17754A054270EA73, .dot4n { ctl := k 0x1D 5 false false, dst := 0x281, a := 0x142, b := 0x1C3, c := 0x2A7, sub := 3 }),
  (0x17F56A054270EA73, .sad { ctl := k 0x1D 5 true false, dst := 0x281, a := 0x142, b := 0x1C3, c := 0x2A7, sub := 3 }),
  (0x207540014270C024, .cmps { ctl := k 0x1D 5 false false, dst := 0, a := 0x142, b := 0x1C3, mod := 9, sub := 0 }),
  (0x20F560014270C024, .cmpn { ctl := k 0x1D 5 true false, dst := 0, a := 0x142, b := 0x1C3, mod := 9, sub := 0 }),
  (0x2175401142C00001, .cmpsi { ctl := k 0x1D 5 false false, dst := 4, a := 0x142, imm := 0xC00001 }),
  (0x21F5601142C00001, .cmpni { ctl := k 0x1D 5 true false, dst := 4, a := 0x142, imm := 0xC00001 }),
  (0x2275400005018002, .pand { ctl := k 0x1D 5 false false, dst := 0, a := 5, b := 6, mod := 0, sub := 2 }),
  (0x22F5600005018002, .por { ctl := k 0x1D 5 true false, dst := 0, a := 5, b := 6, mod := 0, sub := 2 }),
  (0x2375400005018002, .pxor { ctl := k 0x1D 5 false false, dst := 0, a := 5, b := 6, mod := 0, sub := 2 }),
  (0x23F5600005000000, .pnot { ctl := k 0x1D 5 true false, dst := 0, a := 5, b := 0, mod := 0, sub := 0 }),
  (0x2475400005000000, .ppop { ctl := k 0x1D 5 false false, dst := 0, a := 5, b := 0, mod := 0, sub := 0 }),
  (0x24F560000070C001, .ppush { ctl := k 0x1D 5 true false, dst := 0, a := 0, b := 0x1C3, mod := 0, sub := 1 }),
  (0x2575420400000000, .pmovGet { ctl := k 0x1D 5 false false, dst := 0x81, a := 0, b := 0, mod := 0, sub := 0 }),
  (0x25F56A054270FA1D, .sel { ctl := k 0x1D 5 true false, dst := 0x281, a := 0x142, b := 0x1C3, mod := 0xE87, sub := 1 }),
  (0x26754A0405000002, .vote { ctl := k 0x1D 5 false false, dst := 0x281, a := 5, b := 0, mod := 0, sub := 2 }),
  (0x26F56A054270C001, .perm { ctl := k 0x1D 5 true false, dst := 0x281, a := 0x142, b := 0x1C3, mod := 0, sub := 1 }),
  (0x27754A040D70C001, .scan { ctl := k 0x1D 5 false false, dst := 0x281, a := 0xD, b := 0x1C3, mod := 0, sub := 1 }),
  (0x27F56A040570C001, .rduc { ctl := k 0x1D 5 true false, dst := 0x281, a := 5, b := 0x1C3, mod := 0, sub := 1 })] = true := by decide +kernel

theorem test_words_2 : reads [
  (0x28754A040070C001, .matchMask { ctl := k 0x1D 5 false false, dst := 0x281, a := 0, b := 0x1C3, mod := 0, sub := 1 }),
  (0x3075480000100000, .bra { ctl := k 0x1D 5 false false, off := 0x800001, reg := 0, imm := 0 }),
  (0x30F5600000050800, .brx { ctl := k 0x1D 5 true false, off := 0, reg := 0x142, imm := 0 }),
  (0x3175480000100000, .call { ctl := k 0x1D 5 false false, off := 0x800001, reg := 0, imm := 0 }),
  (0x31F5600000050800, .callx { ctl := k 0x1D 5 true false, off := 0, reg := 0x142, imm := 0 }),
  (0x3275400000000000, .ret { ctl := k 0x1D 5 false false, off := 0, reg := 0, imm := 0 }),
  (0x32F5600000000000, .exit { ctl := k 0x1D 5 true false, off := 0, reg := 0, imm := 0 }),
  (0x3375400000000000, .yield { ctl := k 0x1D 5 false false, off := 0, reg := 0, imm := 0 }),
  (0x33F5600000000000, .bar { ctl := k 0x1D 5 true false, off := 0, reg := 0, imm := 0 }),
  (0x3475400000000281, .trap { ctl := k 0x1D 5 false false, off := 0, reg := 0, imm := 0x281 }),
  (0x34F5600000000281, .brk { ctl := k 0x1D 5 true false, off := 0, reg := 0, imm := 0x281 }),
  (0x3575400000000001, .tret { ctl := k 0x1D 5 false false, off := 0, reg := 0, imm := 1 }),
  (0x35F5600000000000, .escl { ctl := k 0x1D 5 true false, off := 0, reg := 0, imm := 0 }),
  (0x36754A04C0000000, .srd { ctl := k 0x1D 5 false false, reg := 0x281, num := 0x300, imm := 0 }),
  (0x36F56A0440400000, .swr { ctl := k 0x1D 5 true false, reg := 0x281, num := 0x101, imm := 0 }),
  (0x3775400C0000FC08, .sview { ctl := k 0x1D 5 false false, dst := 3, a := 0, imm := 0xFC08 }),
  (0x37F5600000000005, .fencei { ctl := k 0x1D 5 true false, off := 0, reg := 0, imm := 5 }),
  (0x3875400000000281, .sleep { ctl := k 0x1D 5 false false, off := 0, reg := 0, imm := 0x281 }),
  (0x40754A054270D610, .fadd { ctl := k 0x1D 5 false false, dst := 0x281, a := 0x142, b := 0x1C3, mod := 0x584, sub := 0 }),
  (0x40F56A054270FA1C, .fsub { ctl := k 0x1D 5 true false, dst := 0x281, a := 0x142, b := 0x1C3, mod := 0xE87, sub := 0 }),
  (0x41754A054270D610, .fmul { ctl := k 0x1D 5 false false, dst := 0x281, a := 0x142, b := 0x1C3, mod := 0x584, sub := 0 }),
  (0x41F56A054270EA73, .ffma { ctl := k 0x1D 5 true false, dst := 0x281, a := 0x142, b := 0x1C3, c := 0x2A7, sub := 3 }),
  (0x42754A054270D610, .fmin { ctl := k 0x1D 5 false false, dst := 0x281, a := 0x142, b := 0x1C3, mod := 0x584, sub := 0 }),
  (0x42F56A054270D610, .fmax { ctl := k 0x1D 5 true false, dst := 0x281, a := 0x142, b := 0x1C3, mod := 0x584, sub := 0 }),
  (0x437540154270D610, .fcmp { ctl := k 0x1D 5 false false, dst := 5, a := 0x142, b := 0x1C3, mod := 0x584, sub := 0 }),
  (0x43F56A040070D610, .fcls { ctl := k 0x1D 5 true false, dst := 0x281, a := 0, b := 0x1C3, mod := 0x584, sub := 0 }),
  (0x44754A040070D610, .frcp { ctl := k 0x1D 5 false false, dst := 0x281, a := 0, b := 0x1C3, mod := 0x584, sub := 0 }),
  (0x44F56A040070D610, .frsq { ctl := k 0x1D 5 true false, dst := 0x281, a := 0, b := 0x1C3, mod := 0x584, sub := 0 }),
  (0x45754A040070D610, .fsqrt { ctl := k 0x1D 5 false false, dst := 0x281, a := 0, b := 0x1C3, mod := 0x584, sub := 0 }),
  (0x45F56A040070D610, .fex2 { ctl := k 0x1D 5 true false, dst := 0x281, a := 0, b := 0x1C3, mod := 0x584, sub := 0 }),
  (0x46754A040070D610, .flg2 { ctl := k 0x1D 5 false false, dst := 0x281, a := 0, b := 0x1C3, mod := 0x584, sub := 0 }),
  (0x46F56A040070D610, .fsin { ctl := k 0x1D 5 true false, dst := 0x281, a := 0, b := 0x1C3, mod := 0x584, sub := 0 })] = true := by decide +kernel

theorem test_words_3 : reads [
  (0x47754A040070D610, .fcos { ctl := k 0x1D 5 false false, dst := 0x281, a := 0, b := 0x1C3, mod := 0x584, sub := 0 }),
  (0x47F56A040070D610, .ffrc { ctl := k 0x1D 5 true false, dst := 0x281, a := 0, b := 0x1C3, mod := 0x584, sub := 0 }),
  (0x48754A040070D610, .frnd { ctl := k 0x1D 5 false false, dst := 0x281, a := 0, b := 0x1C3, mod := 0x584, sub := 0 }),
  (0x48F56A054270D610, .fdiv { ctl := k 0x1D 5 true false, dst := 0x281, a := 0x142, b := 0x1C3, mod := 0x584, sub := 0 }),
  (0x49754A054270D610, .fscl { ctl := k 0x1D 5 false false, dst := 0x281, a := 0x142, b := 0x1C3, mod := 0x584, sub := 0 }),
  (0x49F56A054270EA70, .fclmp { ctl := k 0x1D 5 true false, dst := 0x281, a := 0x142, b := 0x1C3, c := 0x2A7, sub := 0 }),
  (0x4A754A054270D610, .dadd { ctl := k 0x1D 5 false false, dst := 0x281, a := 0x142, b := 0x1C3, mod := 0x584, sub := 0 }),
  (0x4AF56A054270D610, .dmul { ctl := k 0x1D 5 true false, dst := 0x281, a := 0x142, b := 0x1C3, mod := 0x584, sub := 0 }),
  (0x4B754A054270EA73, .dfma { ctl := k 0x1D 5 false false, dst := 0x281, a := 0x142, b := 0x1C3, c := 0x2A7, sub := 3 }),
  (0x4BF560154270D610, .dcmp { ctl := k 0x1D 5 true false, dst := 5, a := 0x142, b := 0x1C3, mod := 0x584, sub := 0 }),
  (0x4C754A054270D610, .pkadd { ctl := k 0x1D 5 false false, dst := 0x281, a := 0x142, b := 0x1C3, mod := 0x584, sub := 0 }),
  (0x4CF56A054270FA1C, .pkmul { ctl := k 0x1D 5 true false, dst := 0x281, a := 0x142, b := 0x1C3, mod := 0xE87, sub := 0 }),
  (0x4D754A054270EA73, .pkfma { ctl := k 0x1D 5 false false, dst := 0x281, a := 0x142, b := 0x1C3, c := 0x2A7, sub := 3 }),
  (0x4DF56A054270D610, .hadd2 { ctl := k 0x1D 5 true false, dst := 0x281, a := 0x142, b := 0x1C3, mod := 0x584, sub := 0 }),
  (0x4E754A054270D610, .hmul2 { ctl := k 0x1D 5 false false, dst := 0x281, a := 0x142, b := 0x1C3, mod := 0x584, sub := 0 }),
  (0x4EF56A054270EA73, .hfma2 { ctl := k 0x1D 5 true false, dst := 0x281, a := 0x142, b := 0x1C3, c := 0x2A7, sub := 3 }),
  (0x4F754A054270D610, .hmin2 { ctl := k 0x1D 5 false false, dst := 0x281, a := 0x142, b := 0x1C3, mod := 0x584, sub := 0 }),
  (0x4FF56A054270D610, .hmax2 { ctl := k 0x1D 5 true false, dst := 0x281, a := 0x142, b := 0x1C3, mod := 0x584, sub := 0 }),
  (0x50754A054270EA71, .fdot2 { ctl := k 0x1D 5 false false, dst := 0x281, a := 0x142, b := 0x1C3, c := 0x2A7, sub := 1 }),
  (0x50F56A054270EA73, .fdot4e { ctl := k 0x1D 5 true false, dst := 0x281, a := 0x142, b := 0x1C3, c := 0x2A7, sub := 3 }),
  (0x51754A054270EA73, .flerp { ctl := k 0x1D 5 false false, dst := 0x281, a := 0x142, b := 0x1C3, c := 0x2A7, sub := 3 }),
  (0x70754A05420050C2, .cvtff { ctl := k 0x1D 5 false false, dst := 0x281, a := 0x142, imm := 0x50C2 }),
  (0x70F56A05420005C2, .cvtfi { ctl := k 0x1D 5 true false, dst := 0x281, a := 0x142, imm := 0x5C2 }),
  (0x71754A0542000615, .cvtif { ctl := k 0x1D 5 false false, dst := 0x281, a := 0x142, imm := 0x615 }),
  (0x71F56A054270C108, .cvtsr { ctl := k 0x1D 5 true false, dst := 0x281, a := 0x142, b := 0x1C3, mod := 0x42, sub := 0 }),
  (0x72754A054270EA70, .pack { ctl := k 0x1D 5 false false, dst := 0x281, a := 0x142, b := 0x1C3, c := 0x2A7, sub := 0 }),
  (0x72F56A054270EA70, .unpk { ctl := k 0x1D 5 true false, dst := 0x281, a := 0x142, b := 0x1C3, c := 0x2A7, sub := 0 }),
  (0x73754A054270D610, .rng { ctl := k 0x1D 5 false false, dst := 0x281, a := 0x142, b := 0x1C3, mod := 0x584, sub := 0 }),
  (0x73F56A0542C00001, .rngi { ctl := k 0x1D 5 true false, dst := 0x281, a := 0x142, imm := 0xC00001 }),
  (0x80764A0542FFFFF8, .ld .s8 { ctl := k 0x1D 9 false false, data := 0x281, base := 0x142, off := 0xFFFFF8 }),
  (0x80F66A0542FFFFF8, .ld .n8 { ctl := k 0x1D 9 true false, data := 0x281, base := 0x142, off := 0xFFFFF8 }),
  (0x81764A0542FFFFF8, .ld .s16 { ctl := k 0x1D 9 false false, data := 0x281, base := 0x142, off := 0xFFFFF8 })] = true := by decide +kernel

theorem test_words_4 : reads [
  (0x81F66A0542FFFFF8, .ld .n16 { ctl := k 0x1D 9 true false, data := 0x281, base := 0x142, off := 0xFFFFF8 }),
  (0x82764A0542FFFFF8, .ld .b32 { ctl := k 0x1D 9 false false, data := 0x281, base := 0x142, off := 0xFFFFF8 }),
  (0x82F66A0542FFFFF8, .ld .b64 { ctl := k 0x1D 9 true false, data := 0x281, base := 0x142, off := 0xFFFFF8 }),
  (0x83764A0542FFFFF8, .ld .b128 { ctl := k 0x1D 9 false false, data := 0x281, base := 0x142, off := 0xFFFFF8 }),
  (0x83F66A0542FFFFF8, .ldg .s8 { ctl := k 0x1D 9 true false, data := 0x281, base := 0x142, off := 0xFFFFF8 }),
  (0x84764A0542FFFFF8, .ldg .n8 { ctl := k 0x1D 9 false false, data := 0x281, base := 0x142, off := 0xFFFFF8 }),
  (0x84F66A0542FFFFF8, .ldg .s16 { ctl := k 0x1D 9 true false, data := 0x281, base := 0x142, off := 0xFFFFF8 }),
  (0x85764A0542FFFFF8, .ldg .n16 { ctl := k 0x1D 9 false false, data := 0x281, base := 0x142, off := 0xFFFFF8 }),
  (0x85F66A0542FFFFF8, .ldg .b32 { ctl := k 0x1D 9 true false, data := 0x281, base := 0x142, off := 0xFFFFF8 }),
  (0x86764A0542FFFFF8, .ldg .b64 { ctl := k 0x1D 9 false false, data := 0x281, base := 0x142, off := 0xFFFFF8 }),
  (0x86F66A0542FFFFF8, .ldg .b128 { ctl := k 0x1D 9 true false, data := 0x281, base := 0x142, off := 0xFFFFF8 }),
  (0x87764A0542FFFFF8, .st .b8 { ctl := k 0x1D 9 false false, data := 0x281, base := 0x142, off := 0xFFFFF8 }),
  (0x87F66A0542FFFFF8, .st .b16 { ctl := k 0x1D 9 true false, data := 0x281, base := 0x142, off := 0xFFFFF8 }),
  (0x88764A0542FFFFF8, .st .b32 { ctl := k 0x1D 9 false false, data := 0x281, base := 0x142, off := 0xFFFFF8 }),
  (0x88F66A0542FFFFF8, .st .b64 { ctl := k 0x1D 9 true false, data := 0x281, base := 0x142, off := 0xFFFFF8 }),
  (0x89764A0542FFFFF8, .st .b128 { ctl := k 0x1D 9 false false, data := 0x281, base := 0x142, off := 0xFFFFF8 }),
  (0xC076400000000000, .fence { ctl := k 0x1D 9 false false, data := 0, base := 0, off := 0 }),
  (0xC0F42A0542000005, .cmo { ctl := k 0x1D 0 true false, r1 := 0x281, r2 := 0x142, imm := 5 }),
  (0xC174400142FFFFF8, .pref { ctl := k 0x1D 1 false false, data := 0, base := 0x142, off := 0xFFFFF8 }),
  (0xC1F62A0400000009, .put { ctl := k 0x1D 8 true false, r1 := 0x281, r2 := 0, imm := 9 }),
  (0xC2764A054200001A, .putm { ctl := k 0x1D 9 false false, r1 := 0x281, r2 := 0x142, imm := 0x1A }),
  (0xC2F42A0542000000, .cpy { ctl := k 0x1D 0 true false, r1 := 0x281, r2 := 0x142, imm := 0 }),
  (0xC3740A0542000000, .cpyq { ctl := k 0x1D 0 false false, r1 := 0x281, r2 := 0x142, imm := 0 }),
  (0xC3F42A0542000000, .spz { ctl := k 0x1D 0 true false, r1 := 0x281, r2 := 0x142, imm := 0 }),
  (0xC4740A0542000000, .spabs { ctl := k 0x1D 0 false false, r1 := 0x281, r2 := 0x142, imm := 0 }),
  (0xC4F42A0400000003, .spcrd { ctl := k 0x1D 0 true false, r1 := 0x281, r2 := 0, imm := 3 }),
  (0xC574000000000008, .carve { ctl := k 0x1D 0 false false, r1 := 0, r2 := 0, imm := 8 }),
  (0xC5F42A0542000000, .ddupqFp { ctl := k 0x1D 0 true false, r1 := 0x281, r2 := 0x142, imm := 0 }),
  (0xD075581000020000, .talloc { ctl := k 0x1D 5 false true, d := 0x81, a := 0, b := 0, aux := 0x20, cv := 0, keep := false, shape := 0, sub := 0 }),
  (0xD0F5781000000000, .tfree { ctl := k 0x1D 5 true true, d := 0x81, a := 0, b := 0, aux := 0, cv := 0, keep := false, shape := 0, sub := 0 }),
  (0xD175581000000000, .tgive { ctl := k 0x1D 5 false true, d := 0x81, a := 0, b := 0, aux := 0, cv := 0, keep := false, shape := 0, sub := 0 }),
  (0xD1F5781000000000, .ttake { ctl := k 0x1D 5 true true, d := 0x81, a := 0, b := 0, aux := 0, cv := 0, keep := false, shape := 0, sub := 0 })] = true := by decide +kernel

theorem test_words_5 : reads [
  (0xD2741A0400814208, .tload { ctl := k 0x1D 0 false true, r1 := 0x281, r2 := 0, imm := 0x814208 }),
  (0xD2F43A0542814268, .tloadr { ctl := k 0x1D 0 true true, r1 := 0x281, r2 := 0x142, imm := 0x814268 }),
  (0xD3761A0400814280, .tstore { ctl := k 0x1D 8 false true, r1 := 0x281, r2 := 0, imm := 0x814280 }),
  (0xD3F63A054281420A, .tstorer { ctl := k 0x1D 8 true true, r1 := 0x281, r2 := 0x142, imm := 0x81420A }),
  (0xD475581000000000, .tzero { ctl := k 0x1D 5 false true, d := 0x81, a := 0, b := 0, aux := 0, cv := 0, keep := false, shape := 0, sub := 0 }),
  (0xD4F568142C3009C1, .tmma { ctl := k 0x1D 5 true false, d := 0x81, a := 0x42, b := 0xC3, aux := 0, cv := 9, keep := true, shape := 4, sub := 1 }),
  (0xD57548142C3E79C3, .tmmasp { ctl := k 0x1D 5 false false, d := 0x81, a := 0x42, b := 0xC3, aux := 0xE7, cv := 9, keep := true, shape := 4, sub := 3 }),
  (0xD5F5781420003005, .tcvt { ctl := k 0x1D 5 true true, d := 0x81, a := 0x42, b := 0, aux := 3, cv := 0, keep := false, shape := 0, sub := 5 }),
  (0xD67558142C301003, .tscl { ctl := k 0x1D 5 false true, d := 0x81, a := 0x42, b := 0xC3, aux := 1, cv := 0, keep := false, shape := 0, sub := 3 }),
  (0xD6F43A0400810000, .tqry { ctl := k 0x1D 0 true true, r1 := 0x281, r2 := 0, imm := 0x810000 }),
  (0xD775502400003000, .cvset { ctl := k 0x1D 5 false true, dst := 9, a := 0, imm := 0x3000 }),
  (0xE0745A0400000000, .dlaunch { ctl := k 0x1D 1 false true, r1 := 0x281, r2 := 0, imm := 0 }),
  (0xE0F42A040000003F, .emit { ctl := k 0x1D 0 true false, r1 := 0x281, r2 := 0, imm := 0x3F }),
  (0xE17410000000003F, .nclose { ctl := k 0x1D 0 false true, r1 := 0, r2 := 0, imm := 0x3F }),
  (0xE1F42A0400000007, .qpush { ctl := k 0x1D 0 true false, r1 := 0x281, r2 := 0, imm := 7 }),
  (0xE2740A0400000007, .qpop { ctl := k 0x1D 0 false false, r1 := 0x281, r2 := 0, imm := 7 }),
  (0xE2F42A0400000007, .qpeek { ctl := k 0x1D 0 true false, r1 := 0x281, r2 := 0, imm := 7 }),
  (0xE375480000150800, .hcall { ctl := k 0x1D 5 false false, off := 0x800001, reg := 0x142, imm := 0 }),
  (0xE3F5600000050800, .hret { ctl := k 0x1D 5 true false, off := 0, reg := 0x142, imm := 0 }),
  (0xE4765A0542000000, .board { ctl := k 0x1D 9 false true, r1 := 0x281, r2 := 0x142, imm := 0 }),
  (0xE4F43A0400000000, .alight { ctl := k 0x1D 0 true true, r1 := 0x281, r2 := 0, imm := 0 }),
  (0xE5741A0542000000, .ringack { ctl := k 0x1D 0 false true, r1 := 0x281, r2 := 0x142, imm := 0 }),
  (0xE5F42A0400000003, .stripq { ctl := k 0x1D 0 true false, r1 := 0x281, r2 := 0, imm := 3 }),
  (0xE67558000015080F, .spstart { ctl := k 0x1D 5 false true, off := 0x800001, reg := 0x142, imm := 0xF }),
  (0xE6F5700000000001, .spstop { ctl := k 0x1D 5 true true, off := 0, reg := 0, imm := 1 }),
  (0xEC740A0542000000, .tex { ctl := k 0x1D 0 false false, r1 := 0x281, r2 := 0x142, imm := 0 }),
  (0xECF42A0542000000, .texl { ctl := k 0x1D 0 true false, r1 := 0x281, r2 := 0x142, imm := 0 }),
  (0xED740A0542000000, .texg { ctl := k 0x1D 0 false false, r1 := 0x281, r2 := 0x142, imm := 0 }),
  (0xEDF42A0542000000, .texq { ctl := k 0x1D 0 true false, r1 := 0x281, r2 := 0x142, imm := 0 }),
  (0xEE740A0542000000, .imst { ctl := k 0x1D 0 false false, r1 := 0x281, r2 := 0x142, imm := 0 }),
  (0xEEF42A0400000000, .trace { ctl := k 0x1D 0 true false, r1 := 0x281, r2 := 0, imm := 0 }),
  (0xEF740A0400000000, .hitacc { ctl := k 0x1D 0 false false, r1 := 0x281, r2 := 0, imm := 0 })] = true := by decide +kernel

theorem test_words_6 : reads [
  (0xEFF42A0400000000, .hitign { ctl := k 0x1D 0 true false, r1 := 0x281, r2 := 0, imm := 0 }),
  (0xF0740A0400000000, .hitend { ctl := k 0x1D 0 false false, r1 := 0x281, r2 := 0, imm := 0 }),
  (0xF0F42A0542000002, .tblw { ctl := k 0x1D 0 true false, r1 := 0x281, r2 := 0x142, imm := 2 }),
  (0xF1740A0542000002, .tblr { ctl := k 0x1D 0 false false, r1 := 0x281, r2 := 0x142, imm := 2 }),
  (0xF1F62A0542000003, .tblinv { ctl := k 0x1D 8 true false, r1 := 0x281, r2 := 0x142, imm := 3 }),
  (0xF4764A0542000009, .wait { ctl := k 0x1D 9 false false, r1 := 0x281, r2 := 0x142, imm := 9 }),
  (0xF4F62A0542000000, .stamp { ctl := k 0x1D 8 true false, r1 := 0x281, r2 := 0x142, imm := 0 }),
  (0xF5740A0542000001, .bari { ctl := k 0x1D 0 false false, r1 := 0x281, r2 := 0x142, imm := 1 }),
  (0xF5F66A0542000000, .bara { ctl := k 0x1D 9 true false, r1 := 0x281, r2 := 0x142, imm := 0 }),
  (0xF6764A0542000000, .barw { ctl := k 0x1D 9 false false, r1 := 0x281, r2 := 0x142, imm := 0 }),
  (0xF6F66A0542000001, .ctadd { ctl := k 0x1D 9 true false, r1 := 0x281, r2 := 0x142, imm := 1 }),
  (0xF7754A0400000002, .time { ctl := k 0x1D 5 false false, dst := 0x281, a := 0, imm := 2 }),
  (0xF7F56A0542800000, .mon { ctl := k 0x1D 5 true false, reg := 0x281, num := 0x50A, imm := 0 }),
  (0x90764A0542FFFFF8, .atom .add false { ctl := k 0x1D 9 false false, data := 0x281, base := 0x142, off := 0xFFFFF8 }),
  (0x90F66A0542FFFFF8, .atom .add true { ctl := k 0x1D 9 true false, data := 0x281, base := 0x142, off := 0xFFFFF8 }),
  (0x91764A0542FFFFF8, .atom .mins false { ctl := k 0x1D 9 false false, data := 0x281, base := 0x142, off := 0xFFFFF8 }),
  (0x91F66A0542FFFFF8, .atom .mins true { ctl := k 0x1D 9 true false, data := 0x281, base := 0x142, off := 0xFFFFF8 }),
  (0x92764A0542FFFFF8, .atom .minn false { ctl := k 0x1D 9 false false, data := 0x281, base := 0x142, off := 0xFFFFF8 }),
  (0x92F66A0542FFFFF8, .atom .minn true { ctl := k 0x1D 9 true false, data := 0x281, base := 0x142, off := 0xFFFFF8 }),
  (0x93764A0542FFFFF8, .atom .maxs false { ctl := k 0x1D 9 false false, data := 0x281, base := 0x142, off := 0xFFFFF8 }),
  (0x93F66A0542FFFFF8, .atom .maxs true { ctl := k 0x1D 9 true false, data := 0x281, base := 0x142, off := 0xFFFFF8 }),
  (0x94764A0542FFFFF8, .atom .maxn false { ctl := k 0x1D 9 false false, data := 0x281, base := 0x142, off := 0xFFFFF8 }),
  (0x94F66A0542FFFFF8, .atom .maxn true { ctl := k 0x1D 9 true false, data := 0x281, base := 0x142, off := 0xFFFFF8 }),
  (0x95764A0542FFFFF8, .atom .and false { ctl := k 0x1D 9 false false, data := 0x281, base := 0x142, off := 0xFFFFF8 }),
  (0x95F66A0542FFFFF8, .atom .and true { ctl := k 0x1D 9 true false, data := 0x281, base := 0x142, off := 0xFFFFF8 }),
  (0x96764A0542FFFFF8, .atom .or false { ctl := k 0x1D 9 false false, data := 0x281, base := 0x142, off := 0xFFFFF8 }),
  (0x96F66A0542FFFFF8, .atom .or true { ctl := k 0x1D 9 true false, data := 0x281, base := 0x142, off := 0xFFFFF8 }),
  (0x97764A0542FFFFF8, .atom .xor false { ctl := k 0x1D 9 false false, data := 0x281, base := 0x142, off := 0xFFFFF8 }),
  (0x97F66A0542FFFFF8, .atom .xor true { ctl := k 0x1D 9 true false, data := 0x281, base := 0x142, off := 0xFFFFF8 }),
  (0x98764A0542FFFFF8, .atom .exch false { ctl := k 0x1D 9 false false, data := 0x281, base := 0x142, off := 0xFFFFF8 }),
  (0x98F66A0542FFFFF8, .atom .exch true { ctl := k 0x1D 9 true false, data := 0x281, base := 0x142, off := 0xFFFFF8 }),
  (0x99764A0542FFFFF8, .atom .cas false { ctl := k 0x1D 9 false false, data := 0x281, base := 0x142, off := 0xFFFFF8 })] = true := by decide +kernel

theorem test_words_7 : reads [
  (0x99F66A0542FFFFF8, .atom .cas true { ctl := k 0x1D 9 true false, data := 0x281, base := 0x142, off := 0xFFFFF8 }),
  (0x9A764A0542FFFFF8, .atom .fadd false { ctl := k 0x1D 9 false false, data := 0x281, base := 0x142, off := 0xFFFFF8 }),
  (0x9AF66A0542FFFFF8, .atom .fadd true { ctl := k 0x1D 9 true false, data := 0x281, base := 0x142, off := 0xFFFFF8 }),
  (0xA0764A0542FFFFF8, .red .add false { ctl := k 0x1D 9 false false, data := 0x281, base := 0x142, off := 0xFFFFF8 }),
  (0xA0F66A0542FFFFF8, .red .add true { ctl := k 0x1D 9 true false, data := 0x281, base := 0x142, off := 0xFFFFF8 }),
  (0xA1764A0542FFFFF8, .red .mins false { ctl := k 0x1D 9 false false, data := 0x281, base := 0x142, off := 0xFFFFF8 }),
  (0xA1F66A0542FFFFF8, .red .mins true { ctl := k 0x1D 9 true false, data := 0x281, base := 0x142, off := 0xFFFFF8 }),
  (0xA2764A0542FFFFF8, .red .minn false { ctl := k 0x1D 9 false false, data := 0x281, base := 0x142, off := 0xFFFFF8 }),
  (0xA2F66A0542FFFFF8, .red .minn true { ctl := k 0x1D 9 true false, data := 0x281, base := 0x142, off := 0xFFFFF8 }),
  (0xA3764A0542FFFFF8, .red .maxs false { ctl := k 0x1D 9 false false, data := 0x281, base := 0x142, off := 0xFFFFF8 }),
  (0xA3F66A0542FFFFF8, .red .maxs true { ctl := k 0x1D 9 true false, data := 0x281, base := 0x142, off := 0xFFFFF8 }),
  (0xA4764A0542FFFFF8, .red .maxn false { ctl := k 0x1D 9 false false, data := 0x281, base := 0x142, off := 0xFFFFF8 }),
  (0xA4F66A0542FFFFF8, .red .maxn true { ctl := k 0x1D 9 true false, data := 0x281, base := 0x142, off := 0xFFFFF8 }),
  (0xA5764A0542FFFFF8, .red .and false { ctl := k 0x1D 9 false false, data := 0x281, base := 0x142, off := 0xFFFFF8 }),
  (0xA5F66A0542FFFFF8, .red .and true { ctl := k 0x1D 9 true false, data := 0x281, base := 0x142, off := 0xFFFFF8 }),
  (0xA6764A0542FFFFF8, .red .or false { ctl := k 0x1D 9 false false, data := 0x281, base := 0x142, off := 0xFFFFF8 }),
  (0xA6F66A0542FFFFF8, .red .or true { ctl := k 0x1D 9 true false, data := 0x281, base := 0x142, off := 0xFFFFF8 }),
  (0xA7764A0542FFFFF8, .red .xor false { ctl := k 0x1D 9 false false, data := 0x281, base := 0x142, off := 0xFFFFF8 }),
  (0xA7F66A0542FFFFF8, .red .xor true { ctl := k 0x1D 9 true false, data := 0x281, base := 0x142, off := 0xFFFFF8 }),
  (0xA8764A0542FFFFF8, .red .fadd false { ctl := k 0x1D 9 false false, data := 0x281, base := 0x142, off := 0xFFFFF8 }),
  (0xA8F66A0542FFFFF8, .red .fadd true { ctl := k 0x1D 9 true false, data := 0x281, base := 0x142, off := 0xFFFFF8 }),
  (0x257540000070C001, .pmovSet { ctl := k 0x1D 5 false false, dst := 0, a := 0, b := 0x1C3, mod := 0, sub := 1 }),
  (0xC5F42A0542000001, .ddupqSt { ctl := k 0x1D 0 true false, r1 := 0x281, r2 := 0x142, imm := 1 })] = true := by decide +kernel

-- WELL-FORMEDNESS: for each form and each field that its description restricts, a value that it does not admit (03 R65, R69, R73, R75)

theorem test_ill_formed_0 : ([
  .nop { ctl := k 0x0 0 false false, dst := 1, a := 0, b := 0, mod := 0, sub := 0 },
  .nop { ctl := k 0x0 0 false false, dst := 0, a := 1, b := 0, mod := 0, sub := 0 },
  .nop { ctl := k 0x0 0 false false, dst := 0, a := 0, b := 1, mod := 0, sub := 0 },
  .nop { ctl := k 0x0 0 false false, dst := 0, a := 0, b := 0, mod := 4, sub := 0 },
  .nop { ctl := k 0x0 0 false false, dst := 0, a := 0, b := 0, mod := 0, sub := 1 },
  .add { ctl := k 0x1D 5 false false, dst := 0x281, a := 0x142, b := 0x1C3, mod := 4, sub := 3 },
  .add { ctl := k 0x1D 5 false false, dst := 0x281, a := 0x142, b := 0x1C3, mod := 0x400, sub := 3 },
  .add { ctl := k 0x1D 5 false false, dst := 0x281, a := 0x142, b := 0x1C3, mod := 0xF00, sub := 3 },
  .sub { ctl := k 0x1D 5 false false, dst := 0x281, a := 0x142, b := 0x1C3, mod := 4, sub := 3 },
  .sub { ctl := k 0x1D 5 false false, dst := 0x281, a := 0x142, b := 0x1C3, mod := 0x400, sub := 3 },
  .sub { ctl := k 0x1D 5 false false, dst := 0x281, a := 0x142, b := 0x1C3, mod := 0xF00, sub := 3 },
  .adds { ctl := k 0x1D 5 false false, dst := 0x281, a := 0x142, b := 0x1C3, mod := 4, sub := 0 },
  .adds { ctl := k 0x1D 5 false false, dst := 0x281, a := 0x142, b := 0x1C3, mod := 0x400, sub := 0 },
  .adds { ctl := k 0x1D 5 false false, dst := 0x281, a := 0x142, b := 0x1C3, mod := 0xF00, sub := 0 },
  .subs { ctl := k 0x1D 5 false false, dst := 0x281, a := 0x142, b := 0x1C3, mod := 4, sub := 0 },
  .subs { ctl := k 0x1D 5 false false, dst := 0x281, a := 0x142, b := 0x1C3, mod := 0x400, sub := 0 },
  .subs { ctl := k 0x1D 5 false false, dst := 0x281, a := 0x142, b := 0x1C3, mod := 0xF00, sub := 0 },
  .mul { ctl := k 0x1D 5 false false, dst := 0x281, a := 0x142, b := 0x1C3, mod := 4, sub := 3 },
  .mul { ctl := k 0x1D 5 false false, dst := 0x281, a := 0x142, b := 0x1C3, mod := 0x400, sub := 3 },
  .mul { ctl := k 0x1D 5 false false, dst := 0x281, a := 0x142, b := 0x1C3, mod := 0xF00, sub := 3 },
  .mulhs { ctl := k 0x1D 5 false false, dst := 0x281, a := 0x142, b := 0x1C3, mod := 4, sub := 0 },
  .mulhs { ctl := k 0x1D 5 false false, dst := 0x281, a := 0x142, b := 0x1C3, mod := 0x400, sub := 0 },
  .mulhs { ctl := k 0x1D 5 false false, dst := 0x281, a := 0x142, b := 0x1C3, mod := 0xF00, sub := 0 },
  .mins { ctl := k 0x1D 5 false false, dst := 0x281, a := 0x142, b := 0x1C3, mod := 4, sub := 0 },
  .mins { ctl := k 0x1D 5 false false, dst := 0x281, a := 0x142, b := 0x1C3, mod := 0x400, sub := 0 },
  .mins { ctl := k 0x1D 5 false false, dst := 0x281, a := 0x142, b := 0x1C3, mod := 0xF00, sub := 0 },
  .maxs { ctl := k 0x1D 5 false false, dst := 0x281, a := 0x142, b := 0x1C3, mod := 4, sub := 0 },
  .maxs { ctl := k 0x1D 5 false false, dst := 0x281, a := 0x142, b := 0x1C3, mod := 0x400, sub := 0 },
  .maxs { ctl := k 0x1D 5 false false, dst := 0x281, a := 0x142, b := 0x1C3, mod := 0xF00, sub := 0 },
  .mov { ctl := k 0x1D 5 false false, dst := 0x281, a := 0, b := 0x1C3, mod := 4, sub := 0 },
  .mov { ctl := k 0x1D 5 false false, dst := 0x281, a := 0, b := 0x1C3, mod := 0x400, sub := 0 },
  .mov { ctl := k 0x1D 5 false false, dst := 0x281, a := 0, b := 0x1C3, mod := 0xF00, sub := 0 },
  .addp { ctl := k 0x1D 5 false false, dst := 0x281, a := 0x142, b := 0x1C3, mod := 4, sub := 2 },
  .addp { ctl := k 0x1D 5 false false, dst := 0x281, a := 0x142, b := 0x1C3, mod := 0x400, sub := 2 },
  .addp { ctl := k 0x1D 5 false false, dst := 0x281, a := 0x142, b := 0x1C3, mod := 0xF00, sub := 2 },
  .sel { ctl := k 0x1D 5 false false, dst := 0x281, a := 0x142, b := 0x1C3, mod := 4, sub := 1 },
  .sel { ctl := k 0x1D 5 false false, dst := 0x281, a := 0x142, b := 0x1C3, mod := 0x400, sub := 1 },
  .sel { ctl := k 0x1D 5 false false, dst := 0x281, a := 0x142, b := 0x1C3, mod := 0xF00, sub := 1 },
  .fadd { ctl := k 0x1D 5 false false, dst := 0x281, a := 0x142, b := 0x1C3, mod := 4, sub := 0 },
  .fadd { ctl := k 0x1D 5 false false, dst := 0x281, a := 0x142, b := 0x1C3, mod := 0x400, sub := 0 }] : List Instr).all (fun i => !i.wellFormed) = true := by decide +kernel

theorem test_ill_formed_1 : ([
  .fadd { ctl := k 0x1D 5 false false, dst := 0x281, a := 0x142, b := 0x1C3, mod := 0xF00, sub := 0 },
  .fsub { ctl := k 0x1D 5 false false, dst := 0x281, a := 0x142, b := 0x1C3, mod := 4, sub := 0 },
  .fsub { ctl := k 0x1D 5 false false, dst := 0x281, a := 0x142, b := 0x1C3, mod := 0x400, sub := 0 },
  .fsub { ctl := k 0x1D 5 false false, dst := 0x281, a := 0x142, b := 0x1C3, mod := 0xF00, sub := 0 },
  .fmul { ctl := k 0x1D 5 false false, dst := 0x281, a := 0x142, b := 0x1C3, mod := 4, sub := 0 },
  .fmul { ctl := k 0x1D 5 false false, dst := 0x281, a := 0x142, b := 0x1C3, mod := 0x400, sub := 0 },
  .fmul { ctl := k 0x1D 5 false false, dst := 0x281, a := 0x142, b := 0x1C3, mod := 0xF00, sub := 0 },
  .fmin { ctl := k 0x1D 5 false false, dst := 0x281, a := 0x142, b := 0x1C3, mod := 4, sub := 0 },
  .fmin { ctl := k 0x1D 5 false false, dst := 0x281, a := 0x142, b := 0x1C3, mod := 0x400, sub := 0 },
  .fmin { ctl := k 0x1D 5 false false, dst := 0x281, a := 0x142, b := 0x1C3, mod := 0xF00, sub := 0 },
  .fmax { ctl := k 0x1D 5 false false, dst := 0x281, a := 0x142, b := 0x1C3, mod := 4, sub := 0 },
  .fmax { ctl := k 0x1D 5 false false, dst := 0x281, a := 0x142, b := 0x1C3, mod := 0x400, sub := 0 },
  .fmax { ctl := k 0x1D 5 false false, dst := 0x281, a := 0x142, b := 0x1C3, mod := 0xF00, sub := 0 },
  .fcmp { ctl := k 0x1D 5 false false, dst := 5, a := 0x142, b := 0x1C3, mod := 4, sub := 0 },
  .fcmp { ctl := k 0x1D 5 false false, dst := 5, a := 0x142, b := 0x1C3, mod := 0x400, sub := 0 },
  .fcmp { ctl := k 0x1D 5 false false, dst := 5, a := 0x142, b := 0x1C3, mod := 0xF00, sub := 0 },
  .fdiv { ctl := k 0x1D 5 false false, dst := 0x281, a := 0x142, b := 0x1C3, mod := 4, sub := 0 },
  .fdiv { ctl := k 0x1D 5 false false, dst := 0x281, a := 0x142, b := 0x1C3, mod := 0x400, sub := 0 },
  .fdiv { ctl := k 0x1D 5 false false, dst := 0x281, a := 0x142, b := 0x1C3, mod := 0xF00, sub := 0 },
  .fscl { ctl := k 0x1D 5 false false, dst := 0x281, a := 0x142, b := 0x1C3, mod := 4, sub := 0 },
  .fscl { ctl := k 0x1D 5 false false, dst := 0x281, a := 0x142, b := 0x1C3, mod := 0x400, sub := 0 },
  .fscl { ctl := k 0x1D 5 false false, dst := 0x281, a := 0x142, b := 0x1C3, mod := 0xF00, sub := 0 },
  .dadd { ctl := k 0x1D 5 false false, dst := 0x281, a := 0x142, b := 0x1C3, mod := 4, sub := 0 },
  .dadd { ctl := k 0x1D 5 false false, dst := 0x281, a := 0x142, b := 0x1C3, mod := 0x400, sub := 0 },
  .dadd { ctl := k 0x1D 5 false false, dst := 0x281, a := 0x142, b := 0x1C3, mod := 0xF00, sub := 0 },
  .dmul { ctl := k 0x1D 5 false false, dst := 0x281, a := 0x142, b := 0x1C3, mod := 4, sub := 0 },
  .dmul { ctl := k 0x1D 5 false false, dst := 0x281, a := 0x142, b := 0x1C3, mod := 0x400, sub := 0 },
  .dmul { ctl := k 0x1D 5 false false, dst := 0x281, a := 0x142, b := 0x1C3, mod := 0xF00, sub := 0 },
  .dcmp { ctl := k 0x1D 5 false false, dst := 5, a := 0x142, b := 0x1C3, mod := 4, sub := 0 },
  .dcmp { ctl := k 0x1D 5 false false, dst := 5, a := 0x142, b := 0x1C3, mod := 0x400, sub := 0 },
  .dcmp { ctl := k 0x1D 5 false false, dst := 5, a := 0x142, b := 0x1C3, mod := 0xF00, sub := 0 },
  .pkadd { ctl := k 0x1D 5 false false, dst := 0x281, a := 0x142, b := 0x1C3, mod := 4, sub := 0 },
  .pkadd { ctl := k 0x1D 5 false false, dst := 0x281, a := 0x142, b := 0x1C3, mod := 0x400, sub := 0 },
  .pkadd { ctl := k 0x1D 5 false false, dst := 0x281, a := 0x142, b := 0x1C3, mod := 0xF00, sub := 0 },
  .pkmul { ctl := k 0x1D 5 false false, dst := 0x281, a := 0x142, b := 0x1C3, mod := 4, sub := 0 },
  .pkmul { ctl := k 0x1D 5 false false, dst := 0x281, a := 0x142, b := 0x1C3, mod := 0x400, sub := 0 },
  .pkmul { ctl := k 0x1D 5 false false, dst := 0x281, a := 0x142, b := 0x1C3, mod := 0xF00, sub := 0 },
  .hadd2 { ctl := k 0x1D 5 false false, dst := 0x281, a := 0x142, b := 0x1C3, mod := 4, sub := 0 },
  .hadd2 { ctl := k 0x1D 5 false false, dst := 0x281, a := 0x142, b := 0x1C3, mod := 0x400, sub := 0 },
  .hadd2 { ctl := k 0x1D 5 false false, dst := 0x281, a := 0x142, b := 0x1C3, mod := 0xF00, sub := 0 }] : List Instr).all (fun i => !i.wellFormed) = true := by decide +kernel

theorem test_ill_formed_2 : ([
  .hmul2 { ctl := k 0x1D 5 false false, dst := 0x281, a := 0x142, b := 0x1C3, mod := 4, sub := 0 },
  .hmul2 { ctl := k 0x1D 5 false false, dst := 0x281, a := 0x142, b := 0x1C3, mod := 0x400, sub := 0 },
  .hmul2 { ctl := k 0x1D 5 false false, dst := 0x281, a := 0x142, b := 0x1C3, mod := 0xF00, sub := 0 },
  .hmin2 { ctl := k 0x1D 5 false false, dst := 0x281, a := 0x142, b := 0x1C3, mod := 4, sub := 0 },
  .hmin2 { ctl := k 0x1D 5 false false, dst := 0x281, a := 0x142, b := 0x1C3, mod := 0x400, sub := 0 },
  .hmin2 { ctl := k 0x1D 5 false false, dst := 0x281, a := 0x142, b := 0x1C3, mod := 0xF00, sub := 0 },
  .hmax2 { ctl := k 0x1D 5 false false, dst := 0x281, a := 0x142, b := 0x1C3, mod := 4, sub := 0 },
  .hmax2 { ctl := k 0x1D 5 false false, dst := 0x281, a := 0x142, b := 0x1C3, mod := 0x400, sub := 0 },
  .hmax2 { ctl := k 0x1D 5 false false, dst := 0x281, a := 0x142, b := 0x1C3, mod := 0xF00, sub := 0 },
  .abs { ctl := k 0x1D 5 false false, dst := 0x281, a := 1, b := 0x1C3, mod := 0x584, sub := 0 },
  .abs { ctl := k 0x1D 5 false false, dst := 0x281, a := 0, b := 0x1C3, mod := 4, sub := 0 },
  .abs { ctl := k 0x1D 5 false false, dst := 0x281, a := 0, b := 0x1C3, mod := 0x400, sub := 0 },
  .neg { ctl := k 0x1D 5 false false, dst := 0x281, a := 1, b := 0x1C3, mod := 0xE87, sub := 0 },
  .neg { ctl := k 0x1D 5 false false, dst := 0x281, a := 0, b := 0x1C3, mod := 4, sub := 0 },
  .neg { ctl := k 0x1D 5 false false, dst := 0x281, a := 0, b := 0x1C3, mod := 0x400, sub := 0 },
  .fcls { ctl := k 0x1D 5 false false, dst := 0x281, a := 1, b := 0x1C3, mod := 0x584, sub := 0 },
  .fcls { ctl := k 0x1D 5 false false, dst := 0x281, a := 0, b := 0x1C3, mod := 4, sub := 0 },
  .fcls { ctl := k 0x1D 5 false false, dst := 0x281, a := 0, b := 0x1C3, mod := 0x400, sub := 0 },
  .frcp { ctl := k 0x1D 5 false false, dst := 0x281, a := 1, b := 0x1C3, mod := 0x584, sub := 0 },
  .frcp { ctl := k 0x1D 5 false false, dst := 0x281, a := 0, b := 0x1C3, mod := 4, sub := 0 },
  .frcp { ctl := k 0x1D 5 false false, dst := 0x281, a := 0, b := 0x1C3, mod := 0x400, sub := 0 },
  .frsq { ctl := k 0x1D 5 false false, dst := 0x281, a := 1, b := 0x1C3, mod := 0x584, sub := 0 },
  .frsq { ctl := k 0x1D 5 false false, dst := 0x281, a := 0, b := 0x1C3, mod := 4, sub := 0 },
  .frsq { ctl := k 0x1D 5 false false, dst := 0x281, a := 0, b := 0x1C3, mod := 0x400, sub := 0 },
  .fsqrt { ctl := k 0x1D 5 false false, dst := 0x281, a := 1, b := 0x1C3, mod := 0x584, sub := 0 },
  .fsqrt { ctl := k 0x1D 5 false false, dst := 0x281, a := 0, b := 0x1C3, mod := 4, sub := 0 },
  .fsqrt { ctl := k 0x1D 5 false false, dst := 0x281, a := 0, b := 0x1C3, mod := 0x400, sub := 0 },
  .fex2 { ctl := k 0x1D 5 false false, dst := 0x281, a := 1, b := 0x1C3, mod := 0x584, sub := 0 },
  .fex2 { ctl := k 0x1D 5 false false, dst := 0x281, a := 0, b := 0x1C3, mod := 4, sub := 0 },
  .fex2 { ctl := k 0x1D 5 false false, dst := 0x281, a := 0, b := 0x1C3, mod := 0x400, sub := 0 },
  .flg2 { ctl := k 0x1D 5 false false, dst := 0x281, a := 1, b := 0x1C3, mod := 0x584, sub := 0 },
  .flg2 { ctl := k 0x1D 5 false false, dst := 0x281, a := 0, b := 0x1C3, mod := 4, sub := 0 },
  .flg2 { ctl := k 0x1D 5 false false, dst := 0x281, a := 0, b := 0x1C3, mod := 0x400, sub := 0 },
  .fsin { ctl := k 0x1D 5 false false, dst := 0x281, a := 1, b := 0x1C3, mod := 0x584, sub := 0 },
  .fsin { ctl := k 0x1D 5 false false, dst := 0x281, a := 0, b := 0x1C3, mod := 4, sub := 0 },
  .fsin { ctl := k 0x1D 5 false false, dst := 0x281, a := 0, b := 0x1C3, mod := 0x400, sub := 0 },
  .fcos { ctl := k 0x1D 5 false false, dst := 0x281, a := 1, b := 0x1C3, mod := 0x584, sub := 0 },
  .fcos { ctl := k 0x1D 5 false false, dst := 0x281, a := 0, b := 0x1C3, mod := 4, sub := 0 },
  .fcos { ctl := k 0x1D 5 false false, dst := 0x281, a := 0, b := 0x1C3, mod := 0x400, sub := 0 },
  .ffrc { ctl := k 0x1D 5 false false, dst := 0x281, a := 1, b := 0x1C3, mod := 0x584, sub := 0 }] : List Instr).all (fun i => !i.wellFormed) = true := by decide +kernel

theorem test_ill_formed_3 : ([
  .ffrc { ctl := k 0x1D 5 false false, dst := 0x281, a := 0, b := 0x1C3, mod := 4, sub := 0 },
  .ffrc { ctl := k 0x1D 5 false false, dst := 0x281, a := 0, b := 0x1C3, mod := 0x400, sub := 0 },
  .frnd { ctl := k 0x1D 5 false false, dst := 0x281, a := 1, b := 0x1C3, mod := 0x584, sub := 0 },
  .frnd { ctl := k 0x1D 5 false false, dst := 0x281, a := 0, b := 0x1C3, mod := 4, sub := 0 },
  .frnd { ctl := k 0x1D 5 false false, dst := 0x281, a := 0, b := 0x1C3, mod := 0x400, sub := 0 },
  .addsn { ctl := k 0x1D 5 false false, dst := 0x281, a := 0x142, b := 0x1C3, mod := 0x582, sub := 0 },
  .addsn { ctl := k 0x1D 5 false false, dst := 0x281, a := 0x142, b := 0x1C3, mod := 0x581, sub := 0 },
  .addsn { ctl := k 0x1D 5 false false, dst := 0x281, a := 0x142, b := 0x1C3, mod := 0x400, sub := 0 },
  .subsn { ctl := k 0x1D 5 false false, dst := 0x281, a := 0x142, b := 0x1C3, mod := 0x582, sub := 0 },
  .subsn { ctl := k 0x1D 5 false false, dst := 0x281, a := 0x142, b := 0x1C3, mod := 0x581, sub := 0 },
  .subsn { ctl := k 0x1D 5 false false, dst := 0x281, a := 0x142, b := 0x1C3, mod := 0x400, sub := 0 },
  .mulhn { ctl := k 0x1D 5 false false, dst := 0x281, a := 0x142, b := 0x1C3, mod := 0x582, sub := 0 },
  .mulhn { ctl := k 0x1D 5 false false, dst := 0x281, a := 0x142, b := 0x1C3, mod := 0x581, sub := 0 },
  .mulhn { ctl := k 0x1D 5 false false, dst := 0x281, a := 0x142, b := 0x1C3, mod := 0x400, sub := 0 },
  .minn { ctl := k 0x1D 5 false false, dst := 0x281, a := 0x142, b := 0x1C3, mod := 0x582, sub := 0 },
  .minn { ctl := k 0x1D 5 false false, dst := 0x281, a := 0x142, b := 0x1C3, mod := 0x581, sub := 0 },
  .minn { ctl := k 0x1D 5 false false, dst := 0x281, a := 0x142, b := 0x1C3, mod := 0x400, sub := 0 },
  .maxn { ctl := k 0x1D 5 false false, dst := 0x281, a := 0x142, b := 0x1C3, mod := 0x582, sub := 0 },
  .maxn { ctl := k 0x1D 5 false false, dst := 0x281, a := 0x142, b := 0x1C3, mod := 0x581, sub := 0 },
  .maxn { ctl := k 0x1D 5 false false, dst := 0x281, a := 0x142, b := 0x1C3, mod := 0x400, sub := 0 },
  .and { ctl := k 0x1D 5 false false, dst := 0x281, a := 0x142, b := 0x1C3, mod := 0x582, sub := 3 },
  .and { ctl := k 0x1D 5 false false, dst := 0x281, a := 0x142, b := 0x1C3, mod := 0x581, sub := 3 },
  .and { ctl := k 0x1D 5 false false, dst := 0x281, a := 0x142, b := 0x1C3, mod := 0x400, sub := 3 },
  .or { ctl := k 0x1D 5 false false, dst := 0x281, a := 0x142, b := 0x1C3, mod := 0x582, sub := 0 },
  .or { ctl := k 0x1D 5 false false, dst := 0x281, a := 0x142, b := 0x1C3, mod := 0x581, sub := 0 },
  .or { ctl := k 0x1D 5 false false, dst := 0x281, a := 0x142, b := 0x1C3, mod := 0x400, sub := 0 },
  .xor { ctl := k 0x1D 5 false false, dst := 0x281, a := 0x142, b := 0x1C3, mod := 0x582, sub := 3 },
  .xor { ctl := k 0x1D 5 false false, dst := 0x281, a := 0x142, b := 0x1C3, mod := 0x581, sub := 3 },
  .xor { ctl := k 0x1D 5 false false, dst := 0x281, a := 0x142, b := 0x1C3, mod := 0x400, sub := 3 },
  .andn { ctl := k 0x1D 5 false false, dst := 0x281, a := 0x142, b := 0x1C3, mod := 0x582, sub := 0 },
  .andn { ctl := k 0x1D 5 false false, dst := 0x281, a := 0x142, b := 0x1C3, mod := 0x581, sub := 0 },
  .andn { ctl := k 0x1D 5 false false, dst := 0x281, a := 0x142, b := 0x1C3, mod := 0x400, sub := 0 },
  .shl { ctl := k 0x1D 5 false false, dst := 0x281, a := 0x142, b := 0x1C3, mod := 0x582, sub := 3 },
  .shl { ctl := k 0x1D 5 false false, dst := 0x281, a := 0x142, b := 0x1C3, mod := 0x581, sub := 3 },
  .shl { ctl := k 0x1D 5 false false, dst := 0x281, a := 0x142, b := 0x1C3, mod := 0x400, sub := 3 },
  .shr { ctl := k 0x1D 5 false false, dst := 0x281, a := 0x142, b := 0x1C3, mod := 0x582, sub := 0 },
  .shr { ctl := k 0x1D 5 false false, dst := 0x281, a := 0x142, b := 0x1C3, mod := 0x581, sub := 0 },
  .shr { ctl := k 0x1D 5 false false, dst := 0x281, a := 0x142, b := 0x1C3, mod := 0x400, sub := 0 },
  .sar { ctl := k 0x1D 5 false false, dst := 0x281, a := 0x142, b := 0x1C3, mod := 0x582, sub := 0 },
  .sar { ctl := k 0x1D 5 false false, dst := 0x281, a := 0x142, b := 0x1C3, mod := 0x581, sub := 0 }] : List Instr).all (fun i => !i.wellFormed) = true := by decide +kernel

theorem test_ill_formed_4 : ([
  .sar { ctl := k 0x1D 5 false false, dst := 0x281, a := 0x142, b := 0x1C3, mod := 0x400, sub := 0 },
  .rol { ctl := k 0x1D 5 false false, dst := 0x281, a := 0x142, b := 0x1C3, mod := 0x582, sub := 0 },
  .rol { ctl := k 0x1D 5 false false, dst := 0x281, a := 0x142, b := 0x1C3, mod := 0x581, sub := 0 },
  .rol { ctl := k 0x1D 5 false false, dst := 0x281, a := 0x142, b := 0x1C3, mod := 0x400, sub := 0 },
  .rng { ctl := k 0x1D 5 false false, dst := 0x281, a := 0x142, b := 0x1C3, mod := 0x582, sub := 0 },
  .rng { ctl := k 0x1D 5 false false, dst := 0x281, a := 0x142, b := 0x1C3, mod := 0x581, sub := 0 },
  .rng { ctl := k 0x1D 5 false false, dst := 0x281, a := 0x142, b := 0x1C3, mod := 0x400, sub := 0 },
  .popc { ctl := k 0x1D 5 false false, dst := 0x281, a := 1, b := 0x1C3, mod := 0x584, sub := 0 },
  .popc { ctl := k 0x1D 5 false false, dst := 0x281, a := 0, b := 0x1C3, mod := 0x582, sub := 0 },
  .clz { ctl := k 0x1D 5 false false, dst := 0x281, a := 1, b := 0x1C3, mod := 0x584, sub := 0 },
  .clz { ctl := k 0x1D 5 false false, dst := 0x281, a := 0, b := 0x1C3, mod := 0x582, sub := 0 },
  .brev { ctl := k 0x1D 5 false false, dst := 0x281, a := 1, b := 0x1C3, mod := 0x584, sub := 0 },
  .brev { ctl := k 0x1D 5 false false, dst := 0x281, a := 0, b := 0x1C3, mod := 0x582, sub := 0 },
  .mov { ctl := k 0x1D 5 false false, dst := 0x281, a := 1, b := 0x1C3, mod := 0x584, sub := 0 },
  .movi { ctl := k 0x1D 5 false false, dst := 0x281, a := 1, imm := 0xC00001 },
  .movhi { ctl := k 0x1D 5 false false, dst := 0x281, a := 1, imm := 0xC001 },
  .movti { ctl := k 0x1D 5 false false, dst := 0x281, a := 1, imm := 0xC00001 },
  .movhi { ctl := k 0x1D 5 false false, dst := 0x281, a := 0, imm := 0x10000 },
  .shli { ctl := k 0x1D 5 false false, dst := 0x281, a := 0x142, imm := 0x20 },
  .shri { ctl := k 0x1D 5 false false, dst := 0x281, a := 0x142, imm := 0x20 },
  .sari { ctl := k 0x1D 5 false false, dst := 0x281, a := 0x142, imm := 0x20 },
  .mad { ctl := k 0x1D 5 false false, dst := 0x281, a := 0x142, b := 0x1C3, c := 0x2A7, sub := 4 },
  .ffma { ctl := k 0x1D 5 false false, dst := 0x281, a := 0x142, b := 0x1C3, c := 0x2A7, sub := 4 },
  .dfma { ctl := k 0x1D 5 false false, dst := 0x281, a := 0x142, b := 0x1C3, c := 0x2A7, sub := 4 },
  .pkfma { ctl := k 0x1D 5 false false, dst := 0x281, a := 0x142, b := 0x1C3, c := 0x2A7, sub := 4 },
  .hfma2 { ctl := k 0x1D 5 false false, dst := 0x281, a := 0x142, b := 0x1C3, c := 0x2A7, sub := 4 },
  .fdot4e { ctl := k 0x1D 5 false false, dst := 0x281, a := 0x142, b := 0x1C3, c := 0x2A7, sub := 4 },
  .flerp { ctl := k 0x1D 5 false false, dst := 0x281, a := 0x142, b := 0x1C3, c := 0x2A7, sub := 4 },
  .madw { ctl := k 0x1D 5 false false, dst := 0x281, a := 0x142, b := 0x1C3, c := 0x2A7, sub := 2 },
  .bfx { ctl := k 0x1D 5 false false, dst := 0x281, a := 0x142, b := 0x1C3, c := 0, sub := 2 },
  .bfxs { ctl := k 0x1D 5 false false, dst := 0x281, a := 0x142, b := 0x1C3, c := 0, sub := 2 },
  .bfi { ctl := k 0x1D 5 false false, dst := 0x281, a := 0x142, b := 0x1C3, c := 0x2A7, sub := 2 },
  .fdot2 { ctl := k 0x1D 5 false false, dst := 0x281, a := 0x142, b := 0x1C3, c := 0x2A7, sub := 2 },
  .bfx { ctl := k 0x1D 5 false false, dst := 0x281, a := 0x142, b := 0x1C3, c := 1, sub := 1 },
  .bfxs { ctl := k 0x1D 5 false false, dst := 0x281, a := 0x142, b := 0x1C3, c := 1, sub := 1 },
  .addp { ctl := k 0x1D 5 false false, dst := 0x281, a := 0x142, b := 0x1C3, mod := 0x584, sub := 3 },
  .dot4s { ctl := k 0x1D 5 false false, dst := 0x281, a := 0x142, b := 0x1C3, c := 0x2A7, sub := 0 },
  .dot4s { ctl := k 0x1D 5 false false, dst := 0x281, a := 0x142, b := 0x1C3, c := 0x2A7, sub := 1 },
  .dot4s { ctl := k 0x1D 5 false false, dst := 0x281, a := 0x142, b := 0x1C3, c := 0x2A7, sub := 4 },
  .dot4n { ctl := k 0x1D 5 false false, dst := 0x281, a := 0x142, b := 0x1C3, c := 0x2A7, sub := 0 }] : List Instr).all (fun i => !i.wellFormed) = true := by decide +kernel

theorem test_ill_formed_5 : ([
  .dot4n { ctl := k 0x1D 5 false false, dst := 0x281, a := 0x142, b := 0x1C3, c := 0x2A7, sub := 1 },
  .dot4n { ctl := k 0x1D 5 false false, dst := 0x281, a := 0x142, b := 0x1C3, c := 0x2A7, sub := 4 },
  .sad { ctl := k 0x1D 5 false false, dst := 0x281, a := 0x142, b := 0x1C3, c := 0x2A7, sub := 1 },
  .sad { ctl := k 0x1D 5 false false, dst := 0x281, a := 0x142, b := 0x1C3, c := 0x2A7, sub := 4 },
  .cmps { ctl := k 0x1D 5 false false, dst := 1, a := 0x142, b := 0x1C3, mod := 9, sub := 0 },
  .cmps { ctl := k 0x1D 5 false false, dst := 0, a := 0x142, b := 0x1C3, mod := 9, sub := 1 },
  .cmps { ctl := k 0x1D 5 false false, dst := 0, a := 0x142, b := 0x1C3, mod := 0x10, sub := 0 },
  .cmps { ctl := k 0x1D 5 false false, dst := 0, a := 0x142, b := 0x1C3, mod := 7, sub := 0 },
  .cmpn { ctl := k 0x1D 5 false false, dst := 1, a := 0x142, b := 0x1C3, mod := 9, sub := 0 },
  .cmpn { ctl := k 0x1D 5 false false, dst := 0, a := 0x142, b := 0x1C3, mod := 9, sub := 1 },
  .cmpn { ctl := k 0x1D 5 false false, dst := 0, a := 0x142, b := 0x1C3, mod := 0x10, sub := 0 },
  .cmpn { ctl := k 0x1D 5 false false, dst := 0, a := 0x142, b := 0x1C3, mod := 7, sub := 0 },
  .cmpsi { ctl := k 0x1D 5 false false, dst := 8, a := 0x142, imm := 0xC00001 },
  .cmpsi { ctl := k 0x1D 5 false false, dst := 7, a := 0x142, imm := 0xC00001 },
  .cmpni { ctl := k 0x1D 5 false false, dst := 8, a := 0x142, imm := 0xC00001 },
  .cmpni { ctl := k 0x1D 5 false false, dst := 7, a := 0x142, imm := 0xC00001 },
  .pand { ctl := k 0x1D 5 false false, dst := 1, a := 5, b := 6, mod := 0, sub := 2 },
  .pand { ctl := k 0x1D 5 false false, dst := 0, a := 5, b := 6, mod := 4, sub := 2 },
  .pand { ctl := k 0x1D 5 false false, dst := 0, a := 8, b := 6, mod := 0, sub := 2 },
  .pand { ctl := k 0x1D 5 false false, dst := 0, a := 5, b := 8, mod := 0, sub := 2 },
  .por { ctl := k 0x1D 5 false false, dst := 1, a := 5, b := 6, mod := 0, sub := 2 },
  .por { ctl := k 0x1D 5 false false, dst := 0, a := 5, b := 6, mod := 4, sub := 2 },
  .por { ctl := k 0x1D 5 false false, dst := 0, a := 8, b := 6, mod := 0, sub := 2 },
  .por { ctl := k 0x1D 5 false false, dst := 0, a := 5, b := 8, mod := 0, sub := 2 },
  .pxor { ctl := k 0x1D 5 false false, dst := 1, a := 5, b := 6, mod := 0, sub := 2 },
  .pxor { ctl := k 0x1D 5 false false, dst := 0, a := 5, b := 6, mod := 4, sub := 2 },
  .pxor { ctl := k 0x1D 5 false false, dst := 0, a := 8, b := 6, mod := 0, sub := 2 },
  .pxor { ctl := k 0x1D 5 false false, dst := 0, a := 5, b := 8, mod := 0, sub := 2 },
  .pnot { ctl := k 0x1D 5 false false, dst := 1, a := 5, b := 0, mod := 0, sub := 0 },
  .pnot { ctl := k 0x1D 5 false false, dst := 0, a := 5, b := 0, mod := 4, sub := 0 },
  .pnot { ctl := k 0x1D 5 false false, dst := 0, a := 8, b := 0, mod := 0, sub := 0 },
  .pnot { ctl := k 0x1D 5 false false, dst := 0, a := 5, b := 1, mod := 0, sub := 0 },
  .pnot { ctl := k 0x1D 5 false false, dst := 0, a := 5, b := 0, mod := 0, sub := 1 },
  .ppop { ctl := k 0x1D 5 false false, dst := 1, a := 5, b := 0, mod := 0, sub := 0 },
  .ppop { ctl := k 0x1D 5 false false, dst := 0, a := 5, b := 0, mod := 4, sub := 0 },
  .ppop { ctl := k 0x1D 5 false false, dst := 0, a := 8, b := 0, mod := 0, sub := 0 },
  .ppop { ctl := k 0x1D 5 false false, dst := 0, a := 5, b := 1, mod := 0, sub := 0 },
  .ppop { ctl := k 0x1D 5 false false, dst := 0, a := 5, b := 0, mod := 0, sub := 1 },
  .ppush { ctl := k 0x1D 5 false false, dst := 1, a := 0, b := 0x1C3, mod := 0, sub := 1 },
  .ppush { ctl := k 0x1D 5 false false, dst := 0, a := 0, b := 0x1C3, mod := 4, sub := 1 }] : List Instr).all (fun i => !i.wellFormed) = true := by decide +kernel

theorem test_ill_formed_6 : ([
  .ppush { ctl := k 0x1D 5 false false, dst := 0, a := 1, b := 0x1C3, mod := 0, sub := 1 },
  .ppush { ctl := k 0x1D 5 false false, dst := 0, a := 0, b := 0x1C3, mod := 0, sub := 2 },
  .pmovGet { ctl := k 0x1D 5 false false, dst := 0x81, a := 0, b := 0, mod := 4, sub := 0 },
  .pmovGet { ctl := k 0x1D 5 false false, dst := 0x81, a := 1, b := 0, mod := 0, sub := 0 },
  .pmovGet { ctl := k 0x1D 5 false false, dst := 0x81, a := 0, b := 1, mod := 0, sub := 0 },
  .pmovGet { ctl := k 0x1D 5 false false, dst := 0x81, a := 0, b := 0, mod := 0, sub := 2 },
  .vote { ctl := k 0x1D 5 false false, dst := 0x281, a := 5, b := 0, mod := 4, sub := 2 },
  .vote { ctl := k 0x1D 5 false false, dst := 0x281, a := 8, b := 0, mod := 0, sub := 2 },
  .vote { ctl := k 0x1D 5 false false, dst := 0x281, a := 5, b := 1, mod := 0, sub := 2 },
  .vote { ctl := k 0x1D 5 false true, dst := 0x281, a := 5, b := 0, mod := 0, sub := 2 },
  .perm { ctl := k 0x1D 5 false false, dst := 0x281, a := 0x142, b := 0x1C3, mod := 4, sub := 1 },
  .perm { ctl := k 0x1D 5 false false, dst := 0x281, a := 0x142, b := 0x1C3, mod := 0, sub := 2 },
  .perm { ctl := k 0x1D 5 false true, dst := 0x281, a := 0x142, b := 0x1C3, mod := 0, sub := 1 },
  .scan { ctl := k 0x1D 5 false false, dst := 0x281, a := 0xD, b := 0x1C3, mod := 4, sub := 1 },
  .scan { ctl := k 0x1D 5 false false, dst := 0x281, a := 0xD, b := 0x1C3, mod := 0, sub := 2 },
  .scan { ctl := k 0x1D 5 false true, dst := 0x281, a := 0xD, b := 0x1C3, mod := 0, sub := 1 },
  .rduc { ctl := k 0x1D 5 false false, dst := 0x281, a := 5, b := 0x1C3, mod := 4, sub := 1 },
  .rduc { ctl := k 0x1D 5 false false, dst := 0x281, a := 5, b := 0x1C3, mod := 0, sub := 2 },
  .rduc { ctl := k 0x1D 5 false true, dst := 0x281, a := 5, b := 0x1C3, mod := 0, sub := 1 },
  .matchMask { ctl := k 0x1D 5 false false, dst := 0x281, a := 0, b := 0x1C3, mod := 4, sub := 1 },
  .matchMask { ctl := k 0x1D 5 false false, dst := 0x281, a := 0, b := 0x1C3, mod := 0, sub := 2 },
  .matchMask { ctl := k 0x1D 5 false true, dst := 0x281, a := 0, b := 0x1C3, mod := 0, sub := 1 },
  .scan { ctl := k 0x1D 5 false false, dst := 0x281, a := 0x10, b := 0x1C3, mod := 0, sub := 1 },
  .rduc { ctl := k 0x1D 5 false false, dst := 0x281, a := 8, b := 0x1C3, mod := 0, sub := 1 },
  .matchMask { ctl := k 0x1D 5 false false, dst := 0x281, a := 1, b := 0x1C3, mod := 0, sub := 1 },
  .bra { ctl := k 0x1D 5 false false, off := 0x800001, reg := 1, imm := 0 },
  .bra { ctl := k 0x1D 5 false false, off := 0x800001, reg := 0, imm := 1 },
  .call { ctl := k 0x1D 5 false false, off := 0x800001, reg := 1, imm := 0 },
  .call { ctl := k 0x1D 5 false false, off := 0x800001, reg := 0, imm := 1 },
  .brx { ctl := k 0x1D 5 false false, off := 1, reg := 0x142, imm := 0 },
  .brx { ctl := k 0x1D 5 false false, off := 0, reg := 0x142, imm := 1 },
  .callx { ctl := k 0x1D 5 false false, off := 1, reg := 0x142, imm := 0 },
  .callx { ctl := k 0x1D 5 false false, off := 0, reg := 0x142, imm := 1 },
  .ret { ctl := k 0x1D 5 false false, off := 1, reg := 0, imm := 0 },
  .ret { ctl := k 0x1D 5 false false, off := 0, reg := 1, imm := 0 },
  .exit { ctl := k 0x1D 5 false false, off := 1, reg := 0, imm := 0 },
  .exit { ctl := k 0x1D 5 false false, off := 0, reg := 1, imm := 0 },
  .yield { ctl := k 0x1D 5 false false, off := 1, reg := 0, imm := 0 },
  .yield { ctl := k 0x1D 5 false false, off := 0, reg := 1, imm := 0 },
  .bar { ctl := k 0x1D 5 false false, off := 1, reg := 0, imm := 0 }] : List Instr).all (fun i => !i.wellFormed) = true := by decide +kernel

theorem test_ill_formed_7 : ([
  .bar { ctl := k 0x1D 5 false false, off := 0, reg := 1, imm := 0 },
  .tret { ctl := k 0x1D 5 false false, off := 1, reg := 0, imm := 1 },
  .tret { ctl := k 0x1D 5 false false, off := 0, reg := 1, imm := 1 },
  .escl { ctl := k 0x1D 5 false false, off := 1, reg := 0, imm := 0 },
  .escl { ctl := k 0x1D 5 false false, off := 0, reg := 1, imm := 0 },
  .ret { ctl := k 0x1D 5 false false, off := 0, reg := 0, imm := 1 },
  .exit { ctl := k 0x1D 5 false false, off := 0, reg := 0, imm := 1 },
  .yield { ctl := k 0x1D 5 false false, off := 0, reg := 0, imm := 1 },
  .bar { ctl := k 0x1D 5 false false, off := 0, reg := 0, imm := 1 },
  .escl { ctl := k 0x1D 5 false false, off := 0, reg := 0, imm := 1 },
  .trap { ctl := k 0x1D 5 false false, off := 1, reg := 0, imm := 0x281 },
  .trap { ctl := k 0x1D 5 false false, off := 0, reg := 1, imm := 0x281 },
  .brk { ctl := k 0x1D 5 false false, off := 1, reg := 0, imm := 0x281 },
  .brk { ctl := k 0x1D 5 false false, off := 0, reg := 1, imm := 0x281 },
  .sleep { ctl := k 0x1D 5 false false, off := 1, reg := 0, imm := 0x281 },
  .sleep { ctl := k 0x1D 5 false false, off := 0, reg := 1, imm := 0x281 },
  .fencei { ctl := k 0x1D 5 false false, off := 1, reg := 0, imm := 5 },
  .fencei { ctl := k 0x1D 5 false false, off := 0, reg := 1, imm := 5 },
  .tret { ctl := k 0x1D 5 false false, off := 0, reg := 0, imm := 2 },
  .tret { ctl := k 0x1D 5 false true, off := 0, reg := 0, imm := 1 },
  .escl { ctl := k 0x1D 5 false true, off := 0, reg := 0, imm := 0 },
  .fencei { ctl := k 0x1D 5 false false, off := 0, reg := 0, imm := 6 },
  .srd { ctl := k 0x1D 5 false false, reg := 0x281, num := 0x300, imm := 1 },
  .swr { ctl := k 0x1D 5 false false, reg := 0x281, num := 0x101, imm := 1 },
  .mon { ctl := k 0x1D 5 false false, reg := 0x281, num := 0x50A, imm := 1 },
  .srd { ctl := k 0x1D 5 false false, reg := 0x281, num := 0x1A, imm := 0 },
  .swr { ctl := k 0x1D 5 false false, reg := 0x281, num := 0x300, imm := 0 },
  .mon { ctl := k 0x1D 5 false false, reg := 0x281, num := 0x18, imm := 0 },
  .sview { ctl := k 0x1D 5 false false, dst := 4, a := 0, imm := 0xFC08 },
  .sview { ctl := k 0x1D 5 false false, dst := 3, a := 1, imm := 0xFC08 },
  .sview { ctl := k 0x1D 5 false false, dst := 3, a := 0, imm := 0x1FC08 },
  .sview { ctl := k 0x1D 5 false false, dst := 3, a := 0, imm := 1 },
  .fmin { ctl := k 0x1D 5 false false, dst := 0x281, a := 0x142, b := 0x1C3, mod := 0x584, sub := 1 },
  .fmax { ctl := k 0x1D 5 false false, dst := 0x281, a := 0x142, b := 0x1C3, mod := 0x584, sub := 1 },
  .fcmp { ctl := k 0x1D 5 false false, dst := 5, a := 0x142, b := 0x1C3, mod := 0x584, sub := 1 },
  .frcp { ctl := k 0x1D 5 false false, dst := 0x281, a := 0, b := 0x1C3, mod := 0x584, sub := 1 },
  .frsq { ctl := k 0x1D 5 false false, dst := 0x281, a := 0, b := 0x1C3, mod := 0x584, sub := 1 },
  .fex2 { ctl := k 0x1D 5 false false, dst := 0x281, a := 0, b := 0x1C3, mod := 0x584, sub := 1 },
  .flg2 { ctl := k 0x1D 5 false false, dst := 0x281, a := 0, b := 0x1C3, mod := 0x584, sub := 1 },
  .fsin { ctl := k 0x1D 5 false false, dst := 0x281, a := 0, b := 0x1C3, mod := 0x584, sub := 1 }] : List Instr).all (fun i => !i.wellFormed) = true := by decide +kernel

theorem test_ill_formed_8 : ([
  .fcos { ctl := k 0x1D 5 false false, dst := 0x281, a := 0, b := 0x1C3, mod := 0x584, sub := 1 },
  .dcmp { ctl := k 0x1D 5 false false, dst := 5, a := 0x142, b := 0x1C3, mod := 0x584, sub := 1 },
  .cvtsr { ctl := k 0x1D 5 false false, dst := 0x281, a := 0x142, b := 0x1C3, mod := 0x42, sub := 1 },
  .fclmp { ctl := k 0x1D 5 false false, dst := 0x281, a := 0x142, b := 0x1C3, c := 0x2A7, sub := 1 },
  .pack { ctl := k 0x1D 5 false false, dst := 0x281, a := 0x142, b := 0x1C3, c := 0x2A7, sub := 1 },
  .unpk { ctl := k 0x1D 5 false false, dst := 0x281, a := 0x142, b := 0x1C3, c := 0x2A7, sub := 1 },
  .rng { ctl := k 0x1D 5 false false, dst := 0x281, a := 0x142, b := 0x1C3, mod := 0x584, sub := 1 },
  .fcmp { ctl := k 0x1D 5 false false, dst := 8, a := 0x142, b := 0x1C3, mod := 0x584, sub := 0 },
  .dcmp { ctl := k 0x1D 5 false false, dst := 8, a := 0x142, b := 0x1C3, mod := 0x584, sub := 0 },
  .fcls { ctl := k 0x1D 5 false false, dst := 0x281, a := 0, b := 0x1C3, mod := 0x584, sub := 2 },
  .hmin2 { ctl := k 0x1D 5 false false, dst := 0x281, a := 0x142, b := 0x1C3, mod := 0x584, sub := 2 },
  .hmax2 { ctl := k 0x1D 5 false false, dst := 0x281, a := 0x142, b := 0x1C3, mod := 0x584, sub := 2 },
  .cvtff { ctl := k 0x1D 5 false false, dst := 0x281, a := 0x142, imm := 0x8000 },
  .cvtff { ctl := k 0x1D 5 false false, dst := 0x281, a := 0x142, imm := 0x11 },
  .cvtfi { ctl := k 0x1D 5 false false, dst := 0x281, a := 0x142, imm := 0x800 },
  .cvtfi { ctl := k 0x1D 5 false false, dst := 0x281, a := 0x142, imm := 0x11 },
  .cvtif { ctl := k 0x1D 5 false false, dst := 0x281, a := 0x142, imm := 0x1000 },
  .cvtif { ctl := k 0x1D 5 false false, dst := 0x281, a := 0x142, imm := 0x88 },
  .cvtsr { ctl := k 0x1D 5 false false, dst := 0x281, a := 0x142, b := 0x1C3, mod := 0, sub := 0 },
  .cvtsr { ctl := k 0x1D 5 false false, dst := 0x281, a := 0x142, b := 0x1C3, mod := 9, sub := 0 },
  .cvtsr { ctl := k 0x1D 5 false false, dst := 0x281, a := 0x142, b := 0x1C3, mod := 0x80, sub := 0 },
  .ld .b64 { ctl := k 0x1D 12 false false, data := 0x281, base := 0x142, off := 0xFFFFF8 },
  .ldg .b64 { ctl := k 0x1D 12 false false, data := 0x281, base := 0x142, off := 0xFFFFF8 },
  .st .b64 { ctl := k 0x1D 12 false false, data := 0x281, base := 0x142, off := 0xFFFFF8 },
  .atom .add true { ctl := k 0x1D 12 false false, data := 0x281, base := 0x142, off := 0xFFFFF8 },
  .red .add true { ctl := k 0x1D 12 false false, data := 0x281, base := 0x142, off := 0xFFFFF8 },
  .wait { ctl := k 0x1D 12 false false, r1 := 0x281, r2 := 0x142, imm := 9 },
  .bara { ctl := k 0x1D 12 false false, r1 := 0x281, r2 := 0x142, imm := 0 },
  .barw { ctl := k 0x1D 12 false false, r1 := 0x281, r2 := 0x142, imm := 0 },
  .ctadd { ctl := k 0x1D 12 false false, r1 := 0x281, r2 := 0x142, imm := 1 },
  .fence { ctl := k 0x1D 12 false false, data := 0, base := 0, off := 0 },
  .put { ctl := k 0x1D 12 false false, r1 := 0x281, r2 := 0, imm := 9 },
  .putm { ctl := k 0x1D 12 false false, r1 := 0x281, r2 := 0x142, imm := 0x1A },
  .tstore { ctl := k 0x1D 12 false true, r1 := 0x281, r2 := 0, imm := 0x814280 },
  .tstorer { ctl := k 0x1D 12 false true, r1 := 0x281, r2 := 0x142, imm := 0x81420A },
  .board { ctl := k 0x1D 12 false true, r1 := 0x281, r2 := 0x142, imm := 0 },
  .stamp { ctl := k 0x1D 12 false false, r1 := 0x281, r2 := 0x142, imm := 0 },
  .cmo { ctl := k 0x1D 1 false false, r1 := 0x281, r2 := 0x142, imm := 5 },
  .cmo { ctl := k 0x1D 2 false false, r1 := 0x281, r2 := 0x142, imm := 5 },
  .cpy { ctl := k 0x1D 1 false false, r1 := 0x281, r2 := 0x142, imm := 0 }] : List Instr).all (fun i => !i.wellFormed) = true := by decide +kernel

theorem test_ill_formed_9 : ([
  .cpy { ctl := k 0x1D 2 false false, r1 := 0x281, r2 := 0x142, imm := 0 },
  .cpyq { ctl := k 0x1D 1 false false, r1 := 0x281, r2 := 0x142, imm := 0 },
  .cpyq { ctl := k 0x1D 2 false false, r1 := 0x281, r2 := 0x142, imm := 0 },
  .spz { ctl := k 0x1D 1 false false, r1 := 0x281, r2 := 0x142, imm := 0 },
  .spz { ctl := k 0x1D 2 false false, r1 := 0x281, r2 := 0x142, imm := 0 },
  .spabs { ctl := k 0x1D 1 false false, r1 := 0x281, r2 := 0x142, imm := 0 },
  .spabs { ctl := k 0x1D 2 false false, r1 := 0x281, r2 := 0x142, imm := 0 },
  .spcrd { ctl := k 0x1D 1 false false, r1 := 0x281, r2 := 0, imm := 3 },
  .spcrd { ctl := k 0x1D 2 false false, r1 := 0x281, r2 := 0, imm := 3 },
  .carve { ctl := k 0x1D 1 false false, r1 := 0, r2 := 0, imm := 8 },
  .carve { ctl := k 0x1D 2 false false, r1 := 0, r2 := 0, imm := 8 },
  .ddupqFp { ctl := k 0x1D 1 false false, r1 := 0x281, r2 := 0x142, imm := 0 },
  .ddupqFp { ctl := k 0x1D 2 false false, r1 := 0x281, r2 := 0x142, imm := 0 },
  .tqry { ctl := k 0x1D 1 false true, r1 := 0x281, r2 := 0, imm := 0x810000 },
  .tqry { ctl := k 0x1D 2 false true, r1 := 0x281, r2 := 0, imm := 0x810000 },
  .tload { ctl := k 0x1D 1 false true, r1 := 0x281, r2 := 0, imm := 0x814208 },
  .tload { ctl := k 0x1D 2 false true, r1 := 0x281, r2 := 0, imm := 0x814208 },
  .tloadr { ctl := k 0x1D 1 false true, r1 := 0x281, r2 := 0x142, imm := 0x814268 },
  .tloadr { ctl := k 0x1D 2 false true, r1 := 0x281, r2 := 0x142, imm := 0x814268 },
  .emit { ctl := k 0x1D 1 false false, r1 := 0x281, r2 := 0, imm := 0x3F },
  .emit { ctl := k 0x1D 2 false false, r1 := 0x281, r2 := 0, imm := 0x3F },
  .nclose { ctl := k 0x1D 1 false true, r1 := 0, r2 := 0, imm := 0x3F },
  .nclose { ctl := k 0x1D 2 false true, r1 := 0, r2 := 0, imm := 0x3F },
  .qpush { ctl := k 0x1D 1 false false, r1 := 0x281, r2 := 0, imm := 7 },
  .qpush { ctl := k 0x1D 2 false false, r1 := 0x281, r2 := 0, imm := 7 },
  .qpop { ctl := k 0x1D 1 false false, r1 := 0x281, r2 := 0, imm := 7 },
  .qpop { ctl := k 0x1D 2 false false, r1 := 0x281, r2 := 0, imm := 7 },
  .qpeek { ctl := k 0x1D 1 false false, r1 := 0x281, r2 := 0, imm := 7 },
  .qpeek { ctl := k 0x1D 2 false false, r1 := 0x281, r2 := 0, imm := 7 },
  .alight { ctl := k 0x1D 1 false true, r1 := 0x281, r2 := 0, imm := 0 },
  .alight { ctl := k 0x1D 2 false true, r1 := 0x281, r2 := 0, imm := 0 },
  .ringack { ctl := k 0x1D 1 false true, r1 := 0x281, r2 := 0x142, imm := 0 },
  .ringack { ctl := k 0x1D 2 false true, r1 := 0x281, r2 := 0x142, imm := 0 },
  .stripq { ctl := k 0x1D 1 false false, r1 := 0x281, r2 := 0, imm := 3 },
  .stripq { ctl := k 0x1D 2 false false, r1 := 0x281, r2 := 0, imm := 3 },
  .tex { ctl := k 0x1D 1 false false, r1 := 0x281, r2 := 0x142, imm := 0 },
  .tex { ctl := k 0x1D 2 false false, r1 := 0x281, r2 := 0x142, imm := 0 },
  .texl { ctl := k 0x1D 1 false false, r1 := 0x281, r2 := 0x142, imm := 0 },
  .texl { ctl := k 0x1D 2 false false, r1 := 0x281, r2 := 0x142, imm := 0 },
  .texg { ctl := k 0x1D 1 false false, r1 := 0x281, r2 := 0x142, imm := 0 }] : List Instr).all (fun i => !i.wellFormed) = true := by decide +kernel

theorem test_ill_formed_10 : ([
  .texg { ctl := k 0x1D 2 false false, r1 := 0x281, r2 := 0x142, imm := 0 },
  .texq { ctl := k 0x1D 1 false false, r1 := 0x281, r2 := 0x142, imm := 0 },
  .texq { ctl := k 0x1D 2 false false, r1 := 0x281, r2 := 0x142, imm := 0 },
  .imst { ctl := k 0x1D 1 false false, r1 := 0x281, r2 := 0x142, imm := 0 },
  .imst { ctl := k 0x1D 2 false false, r1 := 0x281, r2 := 0x142, imm := 0 },
  .trace { ctl := k 0x1D 1 false false, r1 := 0x281, r2 := 0, imm := 0 },
  .trace { ctl := k 0x1D 2 false false, r1 := 0x281, r2 := 0, imm := 0 },
  .hitacc { ctl := k 0x1D 1 false false, r1 := 0x281, r2 := 0, imm := 0 },
  .hitacc { ctl := k 0x1D 2 false false, r1 := 0x281, r2 := 0, imm := 0 },
  .hitign { ctl := k 0x1D 1 false false, r1 := 0x281, r2 := 0, imm := 0 },
  .hitign { ctl := k 0x1D 2 false false, r1 := 0x281, r2 := 0, imm := 0 },
  .hitend { ctl := k 0x1D 1 false false, r1 := 0x281, r2 := 0, imm := 0 },
  .hitend { ctl := k 0x1D 2 false false, r1 := 0x281, r2 := 0, imm := 0 },
  .tblw { ctl := k 0x1D 1 false false, r1 := 0x281, r2 := 0x142, imm := 2 },
  .tblw { ctl := k 0x1D 2 false false, r1 := 0x281, r2 := 0x142, imm := 2 },
  .tblr { ctl := k 0x1D 1 false false, r1 := 0x281, r2 := 0x142, imm := 2 },
  .tblr { ctl := k 0x1D 2 false false, r1 := 0x281, r2 := 0x142, imm := 2 },
  .bari { ctl := k 0x1D 1 false false, r1 := 0x281, r2 := 0x142, imm := 1 },
  .bari { ctl := k 0x1D 2 false false, r1 := 0x281, r2 := 0x142, imm := 1 },
  .fence { ctl := k 0x1D 9 false false, data := 1, base := 0, off := 0 },
  .fence { ctl := k 0x1D 9 false false, data := 0, base := 1, off := 0 },
  .fence { ctl := k 0x1D 9 false false, data := 0, base := 0, off := 1 },
  .pref { ctl := k 0x1D 1 false false, data := 1, base := 0x142, off := 0xFFFFF8 },
  .pref { ctl := k 0x1D 2 false false, data := 0, base := 0x142, off := 0xFFFFF8 },
  .cmo { ctl := k 0x1D 0 false false, r1 := 0x281, r2 := 0x142, imm := 3 },
  .cmo { ctl := k 0x1D 0 false false, r1 := 0x281, r2 := 0x142, imm := 0x10 },
  .put { ctl := k 0x1D 8 false false, r1 := 0x281, r2 := 0, imm := 3 },
  .put { ctl := k 0x1D 8 false false, r1 := 0x281, r2 := 0, imm := 0x101 },
  .put { ctl := k 0x1D 8 false false, r1 := 0x281, r2 := 0, imm := 0xD },
  .put { ctl := k 0x1D 8 false false, r1 := 0x281, r2 := 0, imm := 0xD },
  .put { ctl := k 0x1D 8 false false, r1 := 0x281, r2 := 1, imm := 9 },
  .putm { ctl := k 0x1D 9 false false, r1 := 0x281, r2 := 0x142, imm := 0x106 },
  .putm { ctl := k 0x1D 9 false false, r1 := 0x281, r2 := 0x142, imm := 4 },
  .putm { ctl := k 0x1D 9 false false, r1 := 0x281, r2 := 0x142, imm := 2 },
  .cpy { ctl := k 0x1D 0 false false, r1 := 0x281, r2 := 0x142, imm := 1 },
  .cpyq { ctl := k 0x1D 0 false false, r1 := 0x281, r2 := 0x142, imm := 1 },
  .spz { ctl := k 0x1D 0 false false, r1 := 0x281, r2 := 0x142, imm := 1 },
  .spabs { ctl := k 0x1D 0 false false, r1 := 0x281, r2 := 0x142, imm := 1 },
  .spcrd { ctl := k 0x1D 0 false false, r1 := 0x281, r2 := 1, imm := 3 },
  .spcrd { ctl := k 0x1D 0 false false, r1 := 0x281, r2 := 0, imm := 4 }] : List Instr).all (fun i => !i.wellFormed) = true := by decide +kernel

theorem test_ill_formed_11 : ([
  .carve { ctl := k 0x1D 0 false false, r1 := 1, r2 := 0, imm := 8 },
  .carve { ctl := k 0x1D 0 false false, r1 := 0, r2 := 1, imm := 8 },
  .carve { ctl := k 0x1D 0 false false, r1 := 0, r2 := 0, imm := 9 },
  .ddupqFp { ctl := k 0x1D 0 false false, r1 := 0x281, r2 := 0x142, imm := 2 },
  .talloc { ctl := k 0x1D 5 false true, d := 0x81, a := 1, b := 0, aux := 0x20, cv := 0, keep := false, shape := 0, sub := 0 },
  .talloc { ctl := k 0x1D 5 false true, d := 0x81, a := 0, b := 1, aux := 0x20, cv := 0, keep := false, shape := 0, sub := 0 },
  .talloc { ctl := k 0x1D 5 false true, d := 0x81, a := 0, b := 0, aux := 0x20, cv := 1, keep := false, shape := 0, sub := 0 },
  .talloc { ctl := k 0x1D 5 false true, d := 0x81, a := 0, b := 0, aux := 0x20, cv := 0, keep := true, shape := 0, sub := 0 },
  .talloc { ctl := k 0x1D 5 false true, d := 0x81, a := 0, b := 0, aux := 0x20, cv := 0, keep := false, shape := 1, sub := 0 },
  .talloc { ctl := k 0x1D 5 false true, d := 0x81, a := 0, b := 0, aux := 0x20, cv := 0, keep := false, shape := 0, sub := 1 },
  .talloc { ctl := k 0x1D 5 false false, d := 0x81, a := 0, b := 0, aux := 0x20, cv := 0, keep := false, shape := 0, sub := 0 },
  .tfree { ctl := k 0x1D 5 false true, d := 0x81, a := 1, b := 0, aux := 0, cv := 0, keep := false, shape := 0, sub := 0 },
  .tfree { ctl := k 0x1D 5 false true, d := 0x81, a := 0, b := 1, aux := 0, cv := 0, keep := false, shape := 0, sub := 0 },
  .tfree { ctl := k 0x1D 5 false true, d := 0x81, a := 0, b := 0, aux := 0, cv := 1, keep := false, shape := 0, sub := 0 },
  .tfree { ctl := k 0x1D 5 false true, d := 0x81, a := 0, b := 0, aux := 0, cv := 0, keep := true, shape := 0, sub := 0 },
  .tfree { ctl := k 0x1D 5 false true, d := 0x81, a := 0, b := 0, aux := 0, cv := 0, keep := false, shape := 1, sub := 0 },
  .tfree { ctl := k 0x1D 5 false true, d := 0x81, a := 0, b := 0, aux := 0, cv := 0, keep := false, shape := 0, sub := 1 },
  .tfree { ctl := k 0x1D 5 false false, d := 0x81, a := 0, b := 0, aux := 0, cv := 0, keep := false, shape := 0, sub := 0 },
  .tgive { ctl := k 0x1D 5 false true, d := 0x81, a := 1, b := 0, aux := 0, cv := 0, keep := false, shape := 0, sub := 0 },
  .tgive { ctl := k 0x1D 5 false true, d := 0x81, a := 0, b := 1, aux := 0, cv := 0, keep := false, shape := 0, sub := 0 },
  .tgive { ctl := k 0x1D 5 false true, d := 0x81, a := 0, b := 0, aux := 0, cv := 1, keep := false, shape := 0, sub := 0 },
  .tgive { ctl := k 0x1D 5 false true, d := 0x81, a := 0, b := 0, aux := 0, cv := 0, keep := true, shape := 0, sub := 0 },
  .tgive { ctl := k 0x1D 5 false true, d := 0x81, a := 0, b := 0, aux := 0, cv := 0, keep := false, shape := 1, sub := 0 },
  .tgive { ctl := k 0x1D 5 false true, d := 0x81, a := 0, b := 0, aux := 0, cv := 0, keep := false, shape := 0, sub := 1 },
  .tgive { ctl := k 0x1D 5 false false, d := 0x81, a := 0, b := 0, aux := 0, cv := 0, keep := false, shape := 0, sub := 0 },
  .ttake { ctl := k 0x1D 5 false true, d := 0x81, a := 1, b := 0, aux := 0, cv := 0, keep := false, shape := 0, sub := 0 },
  .ttake { ctl := k 0x1D 5 false true, d := 0x81, a := 0, b := 1, aux := 0, cv := 0, keep := false, shape := 0, sub := 0 },
  .ttake { ctl := k 0x1D 5 false true, d := 0x81, a := 0, b := 0, aux := 0, cv := 1, keep := false, shape := 0, sub := 0 },
  .ttake { ctl := k 0x1D 5 false true, d := 0x81, a := 0, b := 0, aux := 0, cv := 0, keep := true, shape := 0, sub := 0 },
  .ttake { ctl := k 0x1D 5 false true, d := 0x81, a := 0, b := 0, aux := 0, cv := 0, keep := false, shape := 1, sub := 0 },
  .ttake { ctl := k 0x1D 5 false true, d := 0x81, a := 0, b := 0, aux := 0, cv := 0, keep := false, shape := 0, sub := 1 },
  .ttake { ctl := k 0x1D 5 false false, d := 0x81, a := 0, b := 0, aux := 0, cv := 0, keep := false, shape := 0, sub := 0 },
  .tzero { ctl := k 0x1D 5 false true, d := 0x81, a := 1, b := 0, aux := 0, cv := 0, keep := false, shape := 0, sub := 0 },
  .tzero { ctl := k 0x1D 5 false true, d := 0x81, a := 0, b := 1, aux := 0, cv := 0, keep := false, shape := 0, sub := 0 },
  .tzero { ctl := k 0x1D 5 false true, d := 0x81, a := 0, b := 0, aux := 0, cv := 1, keep := false, shape := 0, sub := 0 },
  .tzero { ctl := k 0x1D 5 false true, d := 0x81, a := 0, b := 0, aux := 0, cv := 0, keep := true, shape := 0, sub := 0 },
  .tzero { ctl := k 0x1D 5 false true, d := 0x81, a := 0, b := 0, aux := 0, cv := 0, keep := false, shape := 1, sub := 0 },
  .tzero { ctl := k 0x1D 5 false true, d := 0x81, a := 0, b := 0, aux := 0, cv := 0, keep := false, shape := 0, sub := 1 },
  .tzero { ctl := k 0x1D 5 false false, d := 0x81, a := 0, b := 0, aux := 0, cv := 0, keep := false, shape := 0, sub := 0 },
  .talloc { ctl := k 0x1D 5 false true, d := 0x81, a := 0, b := 0, aux := 0x21, cv := 0, keep := false, shape := 0, sub := 0 }] : List Instr).all (fun i => !i.wellFormed) = true := by decide +kernel

theorem test_ill_formed_12 : ([
  .tfree { ctl := k 0x1D 5 false true, d := 0x81, a := 0, b := 0, aux := 1, cv := 0, keep := false, shape := 0, sub := 0 },
  .tgive { ctl := k 0x1D 5 false true, d := 0x81, a := 0, b := 0, aux := 1, cv := 0, keep := false, shape := 0, sub := 0 },
  .ttake { ctl := k 0x1D 5 false true, d := 0x81, a := 0, b := 0, aux := 1, cv := 0, keep := false, shape := 0, sub := 0 },
  .tzero { ctl := k 0x1D 5 false true, d := 0x81, a := 0, b := 0, aux := 1, cv := 0, keep := false, shape := 0, sub := 0 },
  .tmma { ctl := k 0x1D 5 false false, d := 0x81, a := 0x42, b := 0xC3, aux := 1, cv := 9, keep := true, shape := 4, sub := 1 },
  .tmma { ctl := k 0x1D 5 false false, d := 0x81, a := 0x42, b := 0xC3, aux := 0, cv := 9, keep := true, shape := 5, sub := 1 },
  .tmma { ctl := k 0x1D 5 false false, d := 0x81, a := 0x42, b := 0xC3, aux := 0, cv := 9, keep := true, shape := 4, sub := 2 },
  .tmmasp { ctl := k 0x1D 5 false false, d := 0x81, a := 0x42, b := 0xC3, aux := 0xE7, cv := 9, keep := true, shape := 5, sub := 3 },
  .tmmasp { ctl := k 0x1D 5 false false, d := 0x81, a := 0x42, b := 0xC3, aux := 0xE7, cv := 9, keep := true, shape := 4, sub := 4 },
  .tcvt { ctl := k 0x1D 5 false true, d := 0x81, a := 0x42, b := 1, aux := 3, cv := 0, keep := false, shape := 0, sub := 5 },
  .tcvt { ctl := k 0x1D 5 false true, d := 0x81, a := 0x42, b := 0, aux := 4, cv := 0, keep := false, shape := 0, sub := 5 },
  .tcvt { ctl := k 0x1D 5 false true, d := 0x81, a := 0x42, b := 0, aux := 3, cv := 1, keep := false, shape := 0, sub := 5 },
  .tcvt { ctl := k 0x1D 5 false true, d := 0x81, a := 0x42, b := 0, aux := 3, cv := 0, keep := true, shape := 0, sub := 5 },
  .tcvt { ctl := k 0x1D 5 false true, d := 0x81, a := 0x42, b := 0, aux := 3, cv := 0, keep := false, shape := 1, sub := 5 },
  .tcvt { ctl := k 0x1D 5 false true, d := 0x81, a := 0x42, b := 0, aux := 3, cv := 0, keep := false, shape := 0, sub := 8 },
  .tcvt { ctl := k 0x1D 5 false false, d := 0x81, a := 0x42, b := 0, aux := 3, cv := 0, keep := false, shape := 0, sub := 5 },
  .tscl { ctl := k 0x1D 5 false true, d := 0x81, a := 0x42, b := 0xC3, aux := 2, cv := 0, keep := false, shape := 0, sub := 3 },
  .tscl { ctl := k 0x1D 5 false true, d := 0x81, a := 0x42, b := 0xC3, aux := 1, cv := 1, keep := false, shape := 0, sub := 3 },
  .tscl { ctl := k 0x1D 5 false true, d := 0x81, a := 0x42, b := 0xC3, aux := 1, cv := 0, keep := true, shape := 0, sub := 3 },
  .tscl { ctl := k 0x1D 5 false true, d := 0x81, a := 0x42, b := 0xC3, aux := 1, cv := 0, keep := false, shape := 1, sub := 3 },
  .tscl { ctl := k 0x1D 5 false true, d := 0x81, a := 0x42, b := 0xC3, aux := 1, cv := 0, keep := false, shape := 0, sub := 4 },
  .tscl { ctl := k 0x1D 5 false false, d := 0x81, a := 0x42, b := 0xC3, aux := 1, cv := 0, keep := false, shape := 0, sub := 3 },
  .tload { ctl := k 0x1D 0 false true, r1 := 0x281, r2 := 0, imm := 0x814288 },
  .tload { ctl := k 0x1D 0 false true, r1 := 0x281, r2 := 0, imm := 0x81420E },
  .tload { ctl := k 0x1D 0 false true, r1 := 0x281, r2 := 0, imm := 0x814238 },
  .tload { ctl := k 0x1D 0 false true, r1 := 0x281, r2 := 0, imm := 0x814250 },
  .tload { ctl := k 0x1D 0 false false, r1 := 0x281, r2 := 0, imm := 0x814208 },
  .tloadr { ctl := k 0x1D 0 false true, r1 := 0x281, r2 := 0x142, imm := 0x814288 },
  .tloadr { ctl := k 0x1D 0 false true, r1 := 0x281, r2 := 0x142, imm := 0x81420E },
  .tloadr { ctl := k 0x1D 0 false true, r1 := 0x281, r2 := 0x142, imm := 0x814238 },
  .tloadr { ctl := k 0x1D 0 false true, r1 := 0x281, r2 := 0x142, imm := 0x814250 },
  .tloadr { ctl := k 0x1D 0 false false, r1 := 0x281, r2 := 0x142, imm := 0x814268 },
  .tstore { ctl := k 0x1D 8 false true, r1 := 0x281, r2 := 0, imm := 0x81420E },
  .tstore { ctl := k 0x1D 8 false true, r1 := 0x281, r2 := 0, imm := 0x814238 },
  .tstore { ctl := k 0x1D 8 false true, r1 := 0x281, r2 := 0, imm := 0x814250 },
  .tstore { ctl := k 0x1D 8 false false, r1 := 0x281, r2 := 0, imm := 0x814280 },
  .tstorer { ctl := k 0x1D 8 false true, r1 := 0x281, r2 := 0x142, imm := 0x81420E },
  .tstorer { ctl := k 0x1D 8 false true, r1 := 0x281, r2 := 0x142, imm := 0x814238 },
  .tstorer { ctl := k 0x1D 8 false true, r1 := 0x281, r2 := 0x142, imm := 0x814250 },
  .tstorer { ctl := k 0x1D 8 false false, r1 := 0x281, r2 := 0x142, imm := 0x81420A }] : List Instr).all (fun i => !i.wellFormed) = true := by decide +kernel

theorem test_ill_formed_13 : ([
  .tload { ctl := k 0x1D 0 false true, r1 := 0x281, r2 := 1, imm := 0x814208 },
  .tstore { ctl := k 0x1D 8 false true, r1 := 0x281, r2 := 1, imm := 0x814280 },
  .tqry { ctl := k 0x1D 0 false true, r1 := 0x281, r2 := 1, imm := 0x810000 },
  .tqry { ctl := k 0x1D 0 false true, r1 := 0x281, r2 := 0, imm := 1 },
  .tqry { ctl := k 0x1D 0 false false, r1 := 0x281, r2 := 0, imm := 0x810000 },
  .cvset { ctl := k 0x1D 5 false true, dst := 0x10, a := 0, imm := 0x3000 },
  .cvset { ctl := k 0x1D 5 false true, dst := 9, a := 1, imm := 0x3000 },
  .cvset { ctl := k 0x1D 5 false true, dst := 9, a := 0, imm := 0 },
  .cvset { ctl := k 0x1D 5 false true, dst := 9, a := 0, imm := 0x3001 },
  .cvset { ctl := k 0x1D 5 false false, dst := 9, a := 0, imm := 0x3000 },
  .dlaunch { ctl := k 0x1D 1 false true, r1 := 0x281, r2 := 1, imm := 0 },
  .dlaunch { ctl := k 0x1D 1 false true, r1 := 0x281, r2 := 0, imm := 1 },
  .dlaunch { ctl := k 0x1D 2 false true, r1 := 0x281, r2 := 0, imm := 0 },
  .dlaunch { ctl := k 0x1D 1 false false, r1 := 0x281, r2 := 0, imm := 0 },
  .emit { ctl := k 0x1D 0 false false, r1 := 0x281, r2 := 1, imm := 0x3F },
  .emit { ctl := k 0x1D 0 false false, r1 := 0x281, r2 := 0, imm := 0x40 },
  .nclose { ctl := k 0x1D 0 false true, r1 := 0, r2 := 1, imm := 0x3F },
  .nclose { ctl := k 0x1D 0 false true, r1 := 0, r2 := 0, imm := 0x40 },
  .nclose { ctl := k 0x1D 0 false true, r1 := 1, r2 := 0, imm := 0x3F },
  .nclose { ctl := k 0x1D 0 false false, r1 := 0, r2 := 0, imm := 0x3F },
  .qpush { ctl := k 0x1D 0 false false, r1 := 0x281, r2 := 1, imm := 7 },
  .qpush { ctl := k 0x1D 0 false false, r1 := 0x281, r2 := 0, imm := 8 },
  .qpop { ctl := k 0x1D 0 false false, r1 := 0x281, r2 := 1, imm := 7 },
  .qpop { ctl := k 0x1D 0 false false, r1 := 0x281, r2 := 0, imm := 8 },
  .qpeek { ctl := k 0x1D 0 false false, r1 := 0x281, r2 := 1, imm := 7 },
  .qpeek { ctl := k 0x1D 0 false false, r1 := 0x281, r2 := 0, imm := 8 },
  .hcall { ctl := k 0x1D 5 false false, off := 0x800001, reg := 0x142, imm := 1 },
  .hret { ctl := k 0x1D 5 false false, off := 0, reg := 0x142, imm := 1 },
  .hret { ctl := k 0x1D 5 false false, off := 1, reg := 0x142, imm := 0 },
  .board { ctl := k 0x1D 9 false true, r1 := 0x281, r2 := 0x142, imm := 1 },
  .board { ctl := k 0x1D 9 false false, r1 := 0x281, r2 := 0x142, imm := 0 },
  .alight { ctl := k 0x1D 0 false true, r1 := 0x281, r2 := 0, imm := 1 },
  .alight { ctl := k 0x1D 0 false false, r1 := 0x281, r2 := 0, imm := 0 },
  .ringack { ctl := k 0x1D 0 false true, r1 := 0x281, r2 := 0x142, imm := 1 },
  .ringack { ctl := k 0x1D 0 false false, r1 := 0x281, r2 := 0x142, imm := 0 },
  .alight { ctl := k 0x1D 0 false true, r1 := 0x281, r2 := 1, imm := 0 },
  .stripq { ctl := k 0x1D 0 false false, r1 := 0x281, r2 := 1, imm := 3 },
  .stripq { ctl := k 0x1D 0 false false, r1 := 0x281, r2 := 0, imm := 4 },
  .spstart { ctl := k 0x1D 5 false true, off := 0x800001, reg := 0x142, imm := 0x10 },
  .spstart { ctl := k 0x1D 5 false false, off := 0x800001, reg := 0x142, imm := 0xF }] : List Instr).all (fun i => !i.wellFormed) = true := by decide +kernel

theorem test_ill_formed_14 : ([
  .spstop { ctl := k 0x1D 5 false true, off := 1, reg := 0, imm := 1 },
  .spstop { ctl := k 0x1D 5 false true, off := 0, reg := 1, imm := 1 },
  .spstop { ctl := k 0x1D 5 false true, off := 0, reg := 0, imm := 2 },
  .spstop { ctl := k 0x1D 5 false false, off := 0, reg := 0, imm := 1 },
  .tex { ctl := k 0x1D 0 false false, r1 := 0x281, r2 := 0x142, imm := 1 },
  .texl { ctl := k 0x1D 0 false false, r1 := 0x281, r2 := 0x142, imm := 1 },
  .texg { ctl := k 0x1D 0 false false, r1 := 0x281, r2 := 0x142, imm := 1 },
  .texq { ctl := k 0x1D 0 false false, r1 := 0x281, r2 := 0x142, imm := 1 },
  .imst { ctl := k 0x1D 0 false false, r1 := 0x281, r2 := 0x142, imm := 1 },
  .trace { ctl := k 0x1D 0 false false, r1 := 0x281, r2 := 1, imm := 0 },
  .trace { ctl := k 0x1D 0 false false, r1 := 0x281, r2 := 0, imm := 1 },
  .trace { ctl := k 0x1D 0 false true, r1 := 0x281, r2 := 0, imm := 0 },
  .hitacc { ctl := k 0x1D 0 false false, r1 := 0x281, r2 := 1, imm := 0 },
  .hitacc { ctl := k 0x1D 0 false false, r1 := 0x281, r2 := 0, imm := 1 },
  .hitacc { ctl := k 0x1D 0 false true, r1 := 0x281, r2 := 0, imm := 0 },
  .hitign { ctl := k 0x1D 0 false false, r1 := 0x281, r2 := 1, imm := 0 },
  .hitign { ctl := k 0x1D 0 false false, r1 := 0x281, r2 := 0, imm := 1 },
  .hitign { ctl := k 0x1D 0 false true, r1 := 0x281, r2 := 0, imm := 0 },
  .hitend { ctl := k 0x1D 0 false false, r1 := 0x281, r2 := 1, imm := 0 },
  .hitend { ctl := k 0x1D 0 false false, r1 := 0x281, r2 := 0, imm := 1 },
  .hitend { ctl := k 0x1D 0 false true, r1 := 0x281, r2 := 0, imm := 0 },
  .tblw { ctl := k 0x1D 0 false false, r1 := 0x281, r2 := 0x142, imm := 3 },
  .tblr { ctl := k 0x1D 0 false false, r1 := 0x281, r2 := 0x142, imm := 3 },
  .tblinv { ctl := k 0x1D 8 false false, r1 := 0x281, r2 := 0x142, imm := 4 },
  .tblinv { ctl := k 0x1D 9 false false, r1 := 0x281, r2 := 0x142, imm := 3 },
  .tblinv { ctl := k 0x1D 6 false false, r1 := 0x281, r2 := 0x142, imm := 3 },
  .tblinv { ctl := k 0x1D 0 false false, r1 := 0x281, r2 := 0x142, imm := 3 },
  .wait { ctl := k 0x1D 9 false false, r1 := 0x281, r2 := 0x142, imm := 3 },
  .wait { ctl := k 0x1D 9 false false, r1 := 0x281, r2 := 0x142, imm := 0xC },
  .wait { ctl := k 0x1D 9 false false, r1 := 0x281, r2 := 0x142, imm := 0x10 },
  .bari { ctl := k 0x1D 0 false false, r1 := 0x281, r2 := 0x142, imm := 2 },
  .ctadd { ctl := k 0x1D 9 false false, r1 := 0x281, r2 := 0x142, imm := 2 },
  .bara { ctl := k 0x1D 9 false false, r1 := 0x281, r2 := 0x142, imm := 1 },
  .barw { ctl := k 0x1D 9 false false, r1 := 0x281, r2 := 0x142, imm := 1 },
  .stamp { ctl := k 0x1D 8 false false, r1 := 0x281, r2 := 0x142, imm := 1 },
  .stamp { ctl := k 0x1D 9 false false, r1 := 0x281, r2 := 0x142, imm := 0 },
  .time { ctl := k 0x1D 5 false false, dst := 0x281, a := 1, imm := 2 },
  .time { ctl := k 0x1D 5 false false, dst := 0x281, a := 0, imm := 3 },
  .addi { ctl := k 0x4 5 false false, dst := 0x281, a := 0x142, imm := 0xC00001 },
  .ffma { ctl := k 0x4 5 false false, dst := 0x281, a := 0x142, b := 0x1C3, c := 0x2A7, sub := 3 }] : List Instr).all (fun i => !i.wellFormed) = true := by decide +kernel

theorem test_ill_formed_15 : ([
  .srd { ctl := k 0x4 5 false false, reg := 0x281, num := 0x300, imm := 0 }] : List Instr).all (fun i => !i.wellFormed) = true := by decide +kernel

-- THE SPEC'S OWN WORDS AND NUMBERS

/-- The words that the spec prints beside their assembly (20, 21, 22 and 23, the tables of encodings). -/
theorem test_printed_words : reads [
  (0x730140240F010000, .rng { ctl := k 0 5 false false, dst := 9, a := 15, b := 4, mod := 0, sub := 0 }),
  (0x7181487008024008, .cvtsr { ctl := k 0 5 false false, dst := 0x21C, a := 8, b := 9, mod := 2, sub := 0 }),
  (0xC28010410C000000, .cpy { ctl := k 0 0 false true, r1 := 0x010, r2 := 0x10C, imm := 0 }),
  (0xF48214310D000000, .stamp { ctl := k 0 8 false true, r1 := 0x10C, r2 := 0x10D, imm := 0 }),
  (0xF40274310D000004, .wait { ctl := k 0 9 true true, r1 := 0x10C, r2 := 0x10D, imm := 4 }),
  (0xF50014080A000000, .bari { ctl := k 0 0 false true, r1 := 0x102, r2 := 0x00A, imm := 0 }),
  (0xD00010B000000000, .talloc { ctl := k 0 0 false true, d := 11, a := 0, b := 0, aux := 0, cv := 0, keep := false, shape := 0, sub := 0 }),
  (0xD180108000000000, .ttake { ctl := k 0 0 false true, d := 8, a := 0, b := 0, aux := 0, cv := 0, keep := false, shape := 0, sub := 0 }),
  (0xD700101C00000003, .cvset { ctl := k 0 0 false true, dst := 7, a := 0, imm := 3 }),
  (0xF601740C03000000, .barw { ctl := k 0 5 true true, r1 := 0x103, r2 := 0x003, imm := 0 }),
  (0xD200145000050200, .tload { ctl := k 0 0 false true, r1 := 0x114, r2 := 0, imm := 0x050200 }),
  (0xD480108000200090, .tmma { ctl := k 0 0 false true, d := 8, a := 0, b := 2, aux := 0, cv := 0, keep := true, shape := 1, sub := 0 }),
  (0xD480109040700510, .tmma { ctl := k 0 0 false true, d := 9, a := 4, b := 7, aux := 0, cv := 5, keep := false, shape := 1, sub := 0 }),
  (0xD3021468000B0300, .tstore { ctl := k 0 8 false true, r1 := 0x11A, r2 := 0, imm := 0x0B0300 }),
  (0x83000C1502000000, .ld .b128 { ctl := k 0 0 false false, data := 0x305, base := 0x102, off := 0 }),
  (0x1580C06000018000, .mov { ctl := k 0 3 false false, dst := 0x018, a := 0, b := 6, mod := 0, sub := 0 }),
  (0xE080042000000003, .emit { ctl := k 0 0 false false, r1 := 0x108, r2 := 0, imm := 3 }),
  (0xE401540808000000, .board { ctl := k 0 5 false true, r1 := 0x102, r2 := 0x008, imm := 0 }),
  (0xF401741506000008, .wait { ctl := k 0 5 true true, r1 := 0x105, r2 := 0x106, imm := 8 }),
  (0xD480102000100031, .tmma { ctl := k 0 0 false true, d := 2, a := 0, b := 1, aux := 0, cv := 0, keep := false, shape := 3, sub := 1 }),
  (0xD580100020000000, .tcvt { ctl := k 0 0 false true, d := 0, a := 2, b := 0, aux := 0, cv := 0, keep := false, shape := 0, sub := 0 }),
  (0xD000102000020000, .talloc { ctl := k 0 0 false true, d := 2, a := 0, b := 0, aux := 32, cv := 0, keep := false, shape := 0, sub := 0 }),
  (0xC18254210C000006, .put { ctl := k 0 9 false true, r1 := 0x108, r2 := 0x10C, imm := 6 })] = true := by decide +kernel

/-- A thread with 32-bit registers set, w0 first. -/
def withWords (ws : List Nat) : Thread := { wTh with regs := putBytes 0 (ws.flatMap (toBytes 4)) [] }
/-- The bytes that an instruction leaves in a register of thread 0, its result landed. -/
def leaves (i : Instr) (th : Thread) (r : RegOp) (n : Nat) : Option Nat :=
  match exec i (wS th) with
  | .next t => (t.thread 0 0 0).map fun th => Thread.reg (th.pend.foldl (fun u p => u.land p.what) th) r n
  | _ => none
/-- Format R without a modifier. -/
def fR (d a b : RegOp) (sub : BitVec 2) : FmtR := { ctl := c0, dst := d, a := a, b := b, mod := 0, sub := sub }

/-- 05, the examples of R114, R117, R118 and R119: SUBSN.x4 w7, w2, w3; SHR by 33; BFI; ANDI -16; MOVTI after MOVI; SVIEW. -/
theorem test_integer_examples :
    leaves (.subsn (fR 7 2 3 3)) (withWords [0, 0, 0x0510FF02, 0x07200101]) 7 4 = some 0x0000FE01 ∧
    leaves (.shr (fR 4 5 6 0)) (withWords [0, 0, 0, 0, 0, 0x80000006, 33]) 4 4 = some 0x40000003 ∧
    leaves (.bfi { ctl := c0, dst := 4, a := 5, b := 6, c := 7, sub := 0 }) (withWords [0, 0, 0, 0, 0, 0xAB, 0x0804, 0xFFFFFFFF]) 4 4 =
      some 0xFFFFFABF ∧
    leaves (.andi { ctl := c0, dst := 3, a := 3, imm := 0xFFFFF0 }) (withWords [0, 0, 0, 0x1234567F]) 3 4 = some 0x12345670 ∧
    leaves (.movti { ctl := c0, dst := 0x102, a := 0, imm := 0x40 }) (withWords [0, 0, 0, 0, 0x1000]) 0x102 8 = some 0x4000001000 ∧
    (match exec (.sview { ctl := c0, dst := 2, a := 0, imm := 0x7C84 }) (wS (withWords ((List.range 33).map (· + 100)))) with
     | .next t => (t.thread 0 0 0).map fun th =>
        Thread.reg (th.pend.foldl (fun u p => u.land p.what) th) 0x200 4
     | _ => none) = some 132 := by decide +kernel

/-- 20 R466 and R467: RNG's draws of lanes 0, 1, 8 and 9, and CVTSR's roundings under them; R170, R155: FFRC of -2^-30. -/
theorem test_draws_and_roundings :
    (∀ p ∈ [(0, 0x6BBB11B0), (1, 0xA92084C9), (8, 0x9006A18D), (9, 0xBA89232B)],
      leaves (.rng (fR 9 15 4 0)) (withWords ((List.replicate 4 0) ++ [p.1] ++ List.replicate 10 0 ++ [0x5EED1234])) 9 4 = some p.2) ∧
    (∀ p ∈ [(0x3FAAE000, 0x6BBB11B0, 0x3FAA), (0xC2F67C00, 0xA92084C9, 0xC2F7), (0x7FA12345, 0, 0x7FE1), (0x3DCCCCCD, 0x9006A18D, 0x3DCD),
        (0x4479C000, 0xBA89232B, 0x4479), (0x80000000, 7, 0x8000), (0xFFC00001, 7, 0xFFC0)],
      leaves (.cvtsr { fR 0x21C 8 9 0 with mod := 2 }) (withWords ((List.replicate 8 0) ++ [p.1, p.2.1])) 0x21C 2 = some p.2.2) ∧
    leaves (.ffrc (fR 1 0 2 0)) (withWords [0, 0, 0xB0800000]) 1 4 = some 0x3F800000 := by decide +kernel

/-- 05, a scan over a partial skein: the exclusive sums of threads 1, 2, 4, 5 and 7 of the eight that replay. -/
theorem test_scan_example :
    let th (t : Nat) : Thread := { withWords [0, 0, 0, 0, 0, t] with pred := if t % 3 = 0 then 0 else 1 }
    let s : State := { wS wTh with skeins := [(0, { wK wTh with threads := (List.range 8).map th, joined := 0xFF })]
                                   issue := some { wI with present := 0xFF } }
    (match exec (.scan { ctl := { c0 with guard := 0x10, mid := 7 }, dst := 4, a := 8, b := 5, mod := 0, sub := 0 }) s with
     | .next t => ((t.skein 0 0).map fun k => k.threads.map fun th =>
        Thread.reg (th.pend.foldl (fun u p => u.land p.what) th) 4 4)
     | _ => none) = some [0, 0, 1, 0, 3, 7, 0, 12] := by decide +kernel

/-- 04, a misaligned load: what thread 3's trap record holds at its handler's entry. -/
theorem test_misaligned_load :
    let th : Thread := { withWords [0, 0, 0, 0] with
      regs := putBytes 16 (toBytes 8 0x40000010C2) [], pc := 0x1008, blk := 0x1000, pred := 5, link := 0x2100 }
    let s := pS 0x1000 th
    let s : State := { s with issue := some { wI with word := 0x8200002102000010 } }
    (match exec (.ld .b32 { ctl := c0, data := 8, base := 0x102, off := 0x10 }) s with
     | .next t => (t.thread 0 0 0).map fun th => [th.trec.cause.toNat, th.trec.pc.toNat, th.trec.addr.toNat, th.trec.info.toNat,
         th.trec.pred.toNat, th.trec.link.toNat, th.trec.blk.toNat, th.trec.view.toNat, th.pred.toNat, th.link.toNat, th.sup.toNat,
         th.pc.toNat]
     | _ => none) = some [0x110, 0x1008, 0x40000010D2, 0x8200002102000010, 5, 0x2100, 0x1000, 0xFC08FC02FC06FC04, 0, 0, 1, 0x1000] := by
  decide +kernel

end Sys2Proof.Tests
end

section
/-! Resets, start-up and attestation (01 R31, 19 R459, R461, R462): what each part of a start-up sets and leaves, then what
each event answers, and from them O55. -/

namespace Sys2Proof.Machine

-- WHAT A RESET KEEPS FROM OUTSIDE, AND WHAT THE FIRST SAMPLES LEAVE

section
variable (s t : State)

@[simp] theorem outside_power : (s.outside t).power = t.power := rfl
@[simp] theorem outside_boot : (s.outside t).boot = t.boot := rfl
@[simp] theorem outside_skeins : (s.outside t).skeins = t.skeins := rfl
@[simp] theorem outside_cores : (s.outside t).cores = t.cores := rfl
@[simp] theorem outside_grids : (s.outside t).grids = t.grids := rfl
@[simp] theorem outside_ctxs : (s.outside t).ctxs = t.ctxs := rfl
@[simp] theorem outside_w0 : (s.outside t).w0 = t.w0 := rfl
@[simp] theorem outside_mem_bytes : (s.outside t).mem.bytes = t.mem.bytes := rfl
@[simp] theorem outside_mem_host : (s.outside t).mem.host = s.mem.host := rfl

@[simp] theorem firstSamples_power : s.firstSamples.power = s.power := rfl
@[simp] theorem firstSamples_boot : s.firstSamples.boot = s.boot := rfl
@[simp] theorem firstSamples_skeins : s.firstSamples.skeins = s.skeins := rfl
@[simp] theorem firstSamples_grids : s.firstSamples.grids = s.grids := rfl
@[simp] theorem firstSamples_mem : s.firstSamples.mem = s.mem := rfl

end

-- START-UP (19 R461)

section
variable {s : State} {x : Image}

/-- An image that passes every check. -/
theorem bootWith_of_passes (h : bootStep x = 0) :
    s.bootWith x = State.firstSamples { s with boot := {
      ready := true, verified := true, version := x.version, measures := measured s.boot.measures x } } := by
  simp only [State.bootWith, h]

/-- An image that fails at a step. -/
theorem bootWith_of_fails (h : bootStep x ≠ 0) :
    s.bootWith x = { s with boot := { s.boot with
      ready := false, verified := false, recovery := true, failed := bootStep x, version := 0 } } := by
  unfold State.bootWith
  split
  · exact absurd ‹bootStep x = 0› h
  · rfl

-- THE RESETS

theorem exec_conventionalReset : exec (.conventionalReset x) s = .next ((s.outside State.reset).bootWith x) := rfl

theorem conventionalReset_of_passes (h : bootStep x = 0) : ∃ t, exec (.conventionalReset x) s = .next t ∧
    t.power = true ∧ t.boot.ready = true ∧ t.boot.recovery = false ∧ t.boot.version = x.version ∧
    t.boot.measures = measured [] x ∧ t.skeins = [] ∧ t.grids = [] ∧ t.mem.bytes = [] ∧ t.mem.host = s.mem.host := by
  refine ⟨_, exec_conventionalReset, ?_⟩
  rw [bootWith_of_passes h]
  simp [State.reset]

theorem conventionalReset_of_fails (h : bootStep x ≠ 0) : ∃ t, exec (.conventionalReset x) s = .next t ∧
    t.boot.ready = false ∧ t.boot.recovery = true ∧ t.boot.failed = bootStep x ∧ t.skeins = [] ∧
    t.mem.host = s.mem.host := by
  refine ⟨_, exec_conventionalReset, ?_⟩
  rw [bootWith_of_fails h]
  simp [State.reset]

/-- LPDDR 6, Nirsirum and the time counter stay, and host memory lies outside; the rest is at its reset value. -/
theorem functionLevelReset_keeps : ∃ t, exec .functionLevelReset s = .next t ∧ t.boot = s.boot ∧ t.time = s.time ∧
    t.mem.bytes = s.mem.bytes ∧ t.mem.host = s.mem.host ∧ t.skeins = [] ∧ t.grids = [] ∧ t.wgs = [] ∧ t.cores = [] ∧
    t.ctxs = [] ∧ t.saved = [] :=
  ⟨_, rfl, rfl, rfl, rfl, rfl, rfl, rfl, rfl, rfl, rfl, rfl⟩

theorem exec_modulePowerLoss : exec .modulePowerLoss s = .next (s.outside { power := false }) := rfl

theorem modulePowerLoss_retains_nothing : ∃ t, exec .modulePowerLoss s = .next t ∧ t.power = false ∧ t.skeins = [] ∧
    t.cores = [] ∧ t.ctxs = [] ∧ t.mem.bytes = [] ∧ t.w0 = [] ∧ t.mem.host = s.mem.host :=
  ⟨_, exec_modulePowerLoss, by simp⟩

-- AN IMAGE IN THE MAILBOX

theorem exec_mailboxImage : exec (.mailboxImage x) s =
    .next (if bootStep x ≠ 0 then s.postDev { kind := 20 } else if s.boot.recovery then s.bootWith x else s) := rfl

theorem mailboxImage_starts (hr : s.boot.recovery = true) (h : bootStep x = 0) :
    ∃ t, exec (.mailboxImage x) s = .next t ∧ t.boot.ready = true ∧ t.boot.recovery = false ∧
      t.boot.version = x.version := by
  refine ⟨s.bootWith x, by rw [exec_mailboxImage, if_neg (not_not.2 h), if_pos hr], ?_⟩
  rw [bootWith_of_passes h]
  simp

theorem mailboxImage_of_fails (h : bootStep x ≠ 0) :
    exec (.mailboxImage x) s = .next (s.postDev { kind := 20 }) := by
  rw [exec_mailboxImage, if_pos h]

theorem mailboxImage_outside_recovery (hr : s.boot.recovery = false) (h : bootStep x = 0) :
    exec (.mailboxImage x) s = .next s := by
  rw [exec_mailboxImage, if_neg (not_not.2 h), if_neg (by simp [hr])]

end

-- ATTESTATION (19 R462)

section
variable (s : State)

theorem exec_getVersion : exec .getVersion s = .next (s.reply (Config.spdmReply 0 [])) := rfl

theorem exec_getCapabilities : exec .getCapabilities s = .next (s.reply (Config.spdmReply 1 [])) := rfl

theorem exec_negotiateAlgorithms (r : List Byte) :
    exec (.negotiateAlgorithms r) s = .next (s.reply (Config.spdmReply 2 r)) := rfl

theorem exec_getCertificate (off n : Nat) :
    exec (.getCertificate off n) s = .next (s.reply ((Config.certificate.drop off).take n)) := rfl

theorem exec_challenge (nonce : List Byte) : exec (.challenge nonce) s = .next (s.reply (s.report nonce)) := rfl

theorem exec_getMeasurements (nonce : List Byte) :
    exec (.getMeasurements nonce) s = .next (s.reply (s.report nonce)) := rfl

end

/-- Settles O55: a start-up follows from whether the image passes, an answer is the reply that its request names. -/
theorem resetsStartAndAttest : Obligations.ResetsStartAndAttest := by
  intro s
  refine ⟨fun x => ⟨exec_conventionalReset, conventionalReset_of_passes, conventionalReset_of_fails⟩,
    fun x => ⟨mailboxImage_starts, mailboxImage_of_fails, mailboxImage_outside_recovery⟩,
    functionLevelReset_keeps, modulePowerLoss_retains_nothing, ?_⟩
  exact ⟨exec_getVersion s, exec_getCapabilities s, exec_negotiateAlgorithms s, exec_getCertificate s,
    fun nonce => ⟨exec_challenge s nonce, exec_getMeasurements s nonce⟩⟩

end Sys2Proof.Machine
end

section
/-! From a pick of the agenda to the instruction that runs: what a fetch reads (03 R57), which threads the frontier takes and
the block they enter (02 R42, 03 R58, R59), what becomes of their word (03 R78, R79), and from them O58. -/

namespace Sys2Proof.Machine

-- THE BYTES OF A WORD FETCHED (03 R57, 05 R140)

theorem settleLine_of_absent {s : State} {core line : Nat} (h : look (s.core core).icache line = none) :
    s.settleLine core line = s := by
  unfold State.settleLine; rw [h]

/-- A load from home without writes of the core under way and without poison gives the bytes at home. -/
theorem homeLoad_of_absent {s : State} {core pa n : Nat} (hl : look (s.core core).l1 (pa / 128) = none)
    (hw : ((s.recallRange pa n (some core)).core core).wt = []) (hp : (s.recallRange pa n (some core)).mem.poison = []) :
    s.homeLoad core pa n =
      (s.recallRange pa n (some core), bytesAt (s.recallRange pa n (some core)).mem.bytes pa n, []) := by
  have hb : ∀ m : SMap Byte, bytesAt (putBytes 0 (bytesAt m pa n) []) 0 n = bytesAt m pa n := fun m => by
    simpa [bytesAt] using bytesAt_putBytes [] 0 (bytesAt m pa n)
  unfold State.homeLoad
  dsimp only
  rw [hl]
  simp [State.homeRead, hw, hp, overlay, overlayBad, hb]

/-- A word of a line lies where the line's bytes do. -/
theorem natAt_line (m : SMap Byte) {pa : Nat} (h8 : pa % 8 = 0) :
    natAt (putBytes 0 (bytesAt m (128 * (pa / 128)) 128) []) (pa % 128 / 8 * 8) 8 =
      ofBytes ((List.range 8).map fun j => byteAt m (pa + j)) := by
  unfold natAt bytesAt
  congr 1
  refine List.map_congr_left fun j hj => ?_
  have hj : j < 8 := List.mem_range.1 hj
  have hoff : pa % 128 / 8 * 8 + j < 128 := by omega
  have hat : 128 * (pa / 128) + (pa % 128 / 8 * 8 + j) = pa + j := by omega
  rw [byteAt_putBytes]
  simp [hoff, hat]

theorem fetch_reads_home {s u : State} {core ctx pa kind : Nat} {va : Word} {user : Bool}
    (hva : va.toNat < 0xF * 2 ^ 48) (ht : s.translate core ctx va.toNat .fetch user = (u, .ok (pa, kind))) (h8 : pa % 8 = 0)
    (hi : look (u.core core).icache (pa / 128) = none) (hl : look (u.core core).l1 (pa / 128) = none)
    (hw : ((u.recallRange (128 * (pa / 128)) 128 (some core)).core core).wt = [])
    (hp : (u.recallRange (128 * (pa / 128)) 128 (some core)).mem.poison = []) :
    (s.fetch core ctx va user).2 = .ok (word (ofBytes ((List.range 8).map fun j =>
      (u.recallRange (128 * (pa / 128)) 128 (some core)).homeByte (pa + j)))) := by
  have hin : ¬(2 ^ 52 ≤ va.toNat ∨ va.toNat / 2 ^ 48 = 0xF) := by omega
  have hline : 128 * (pa / 128) / 128 = pa / 128 := by omega
  have hload := homeLoad_of_absent (pa := 128 * (pa / 128)) (by rw [hline]; exact hl) hw hp
  unfold State.fetch
  simp only [if_neg hin, ht, settleLine_of_absent hi, State.fetchLine, hi, hload]
  simp [State.core_modCore, lookD, natAt_line _ h8, State.homeByte]

-- A WORD FETCHED FOR THREADS OF ONE PRIVILEGE

section
variable {s v : State} {core slot : Nat} {k : Skein} {pc w : Word} {sup : Bool} {ls : List Nat}

theorem fetchFor_of_fetch {at_ : Word} (hne : ls ≠ []) (hs : ∀ l ∈ ls, (laneOf k.threads l).sup = sup)
    (hf : s.fetch core k.ctx at_ (!sup) = (v, .ok w)) : s.fetchFor core slot k pc at_ ls = (v, ls, w) := by
  obtain ⟨x, r, rfl⟩ := List.exists_cons_of_ne_nil hne
  have all : ∀ b, (x :: r).filter (fun l => (laneOf k.threads l).sup == b) = if sup = b then x :: r else [] := fun b => by
    split
    · next e => exact List.filter_eq_self.2 fun l hl => by simp [hs l hl, e]
    · next e => exact List.filter_eq_nil_iff.2 fun l hl => by simp [hs l hl, e]
  have sups := all true
  have users := all false
  simp only [beq_true, beq_false] at sups users
  unfold State.fetchFor
  rw [sups, users]
  cases sup
  · simp +contextual [show s.fetch core k.ctx at_ true = (v, .ok w) from hf]
  · simp +contextual [show s.fetch core k.ctx at_ false = (v, .ok w) from hf]

theorem fetchIn_of_fetch (hk : s.skein core slot = some k) (hne : ls ≠ []) (hs : ∀ l ∈ ls, (laneOf k.threads l).sup = sup)
    (hf : s.fetch core k.ctx pc (!sup) = (v, .ok w)) : s.fetchIn core slot pc ls = (v, .word pc w ls) := by
  unfold State.fetchIn
  rw [hk]
  dsimp only
  rw [fetchFor_of_fetch hne hs hf]
  cases ls with
  | nil => exact absurd rfl hne
  | cons => rfl

end

-- THE FRONTIER (02 R42)

theorem least_of_all_eq {p : Nat} : ∀ {l : List Nat}, l ≠ [] → (∀ x ∈ l, x = p) → least l = some p
  | [], h, _ => absurd rfl h
  | [x], _, h => by simp [least, h x]
  | x :: y :: r, _, h => by
    have hr := least_of_all_eq (List.cons_ne_nil y r) fun z hz => h z (List.mem_cons_of_mem _ hz)
    rw [least, hr, h x (by simp)]
    simp

/-- Threads at one program counter are all at the lowest. -/
theorem lowest_of_one_pc {k : Skein} {ls : List Nat} {pc : Word} (hne : ls ≠ [])
    (hpc : ∀ l ∈ ls, (laneOf k.threads l).pc = pc) : k.lowest ls = ls := by
  have hl : least (ls.map fun l => (laneOf k.threads l).pc.toNat) = some pc.toNat :=
    least_of_all_eq (by simpa using hne) fun x hx => by
      obtain ⟨l, hl, rfl⟩ := List.mem_map.1 hx
      rw [hpc l hl]
  unfold Skein.lowest
  rw [hl]
  exact List.filter_eq_self.2 fun l hl => by simp [hpc l hl]

/-- A thread whose PC is not past its BLK stands at a block to enter, and nothing is fetched to see it. -/
theorem entering_of_not_past {s : State} {core ctx : Nat} {ths : List Thread} {ls : List Nat}
    (h : ∀ l ∈ ls, (laneOf ths l).pc.toNat ≤ (laneOf ths l).blk.toNat) : s.entering core ctx ths ls = (s, ls) := by
  have go : ∀ (r done : List Nat), (∀ l ∈ r, (laneOf ths l).pc.toNat ≤ (laneOf ths l).blk.toNat) →
      r.foldl (fun (q : State × List Nat) l =>
        let p := q.1.within core ctx (laneOf ths l)
        (p.1, if p.2 then q.2 else q.2 ++ [l])) (s, done) = (s, done ++ r) := by
    intro r
    induction r with
    | nil => simp
    | cons l r ih =>
      intro done hr
      have hw : s.within core ctx (laneOf ths l) = (s, false) := if_neg (Nat.not_lt.2 (hr l (by simp)))
      rw [List.foldl_cons, hw]
      simpa using ih (done ++ [l]) fun m hm => hr m (by simp [hm])
  exact go ls [] h

theorem nodup_ready (k : Skein) (step : Bool) : (k.ready step).Nodup := List.nodup_range.filter _

theorem lt_length_of_mem_ready {k : Skein} {step : Bool} {l : Nat} (h : l ∈ k.ready step) : l < k.threads.length := by
  by_contra hl
  have hx : laneOf k.threads l = { st := .exited } := by
    unfold laneOf; rw [List.getD_eq_getElem?_getD, List.getElem?_eq_none (Nat.le_of_not_lt hl)]; rfl
  unfold Skein.ready at h
  simp [hx, Thread.runnable] at h

-- BLOCK ENTRY (03 R58, R59)

/-- Threads that have entered the block whose header is at pc. -/
def State.entered (s : State) (core slot : Nat) (pc h : Word) (ls : List Nat) : State :=
  (ls.foldl (fun s l => s.modThread core slot l fun th => { th with blk := pc, pc := pc + 8, trav := none }) s).modSkein
    core slot fun k => { k with joined := maskOf ls, blkEnd := pc + word (8 * fld h 47 8) }

/-- Entering a block keeps the skein's context and the privilege of every thread. -/
theorem entered_skein {s : State} {core slot : Nat} {k : Skein} {pc h : Word} {ls : List Nat}
    (hk : s.skein core slot = some k) (hlt : ∀ l ∈ ls, l < k.threads.length) (hn : ls.Nodup) :
    ∃ k', (s.entered core slot pc h ls).skein core slot = some k' ∧ k'.ctx = k.ctx ∧
      ∀ l, (laneOf k'.threads l).sup = (laneOf k.threads l).sup := by
  obtain ⟨-, T, hT, -, hlane⟩ := State.foldThreads core slot
    (fun _ th => { th with blk := pc, pc := pc + 8, trav := none }) ls s k hk hlt hn
  refine ⟨{ k with threads := T, joined := maskOf ls, blkEnd := pc + word (8 * fld h 47 8) },
    (State.skein_modSkein_self ..).trans (by rw [hT]; rfl), rfl, fun l => ?_⟩
  dsimp only
  rw [hlane]
  split <;> rfl

section
variable {s v : State} {core slot : Nat} {k : Skein} {pc h : Word} {sup : Bool} {ls : List Nat}

/-- Threads that stand together at a header enter its block, or take ILLEGAL_FIELD at it without a cycle. -/
theorem enterBlock_of_header (hne : ls ≠ [])
    (hat : ∀ l ∈ ls, (laneOf k.threads l).pc = pc ∧ (laneOf k.threads l).sup = sup)
    (hblk : ∀ l ∈ ls, pc.toNat ≤ (laneOf k.threads l).blk.toNat) (h8 : pc.toNat % 8 = 0)
    (hf : (s.modSkein core slot fun k => { k with joined := 0 }).fetch core k.ctx pc (!sup) = (v, .ok h))
    (hh : isHeader h = true) :
    s.enterBlock core slot k ls =
      if headerOk h then (v.entered core slot pc h ls).fetchIn core slot (pc + 8) ls
      else ((v.raise core slot pc h (faultAll ls { cause := .illegalField })).endFault core slot pc ls 0, .none) := by
  have hlow := lowest_of_one_pc hne fun l hl => (hat l hl).1
  have hent : v.entering core k.ctx k.threads ls = (v, ls) :=
    entering_of_not_past fun l hl => by rw [(hat l hl).1]; exact hblk l hl
  obtain ⟨x, r, rfl⟩ := List.exists_cons_of_ne_nil hne
  have hx : (laneOf k.threads x).pc = pc := (hat x (by simp)).1
  have hfor := fetchFor_of_fetch (slot := slot) (pc := pc) hne (fun l hl => (hat l hl).2) hf
  unfold State.enterBlock
  simp only [hlow, List.headD_cons, hx, hfor, hh, h8, beq_self_eq_true, Bool.and_self, if_true, hent, ne_eq, reduceCtorEq,
    not_false_eq_true]
  rfl

end

-- WHAT A SKEIN EXECUTES NEXT

section
variable {s v : State} {core slot : Nat} {r : Run} {k : Skein} {pc w : Word} {sup : Bool}
  (hr : ((s.core core).pipe (slot / 8)).run = some r) (hk : s.skein core slot = some k) (hne : k.ready r.step ≠ [])
  (hat : ∀ l ∈ k.ready r.step, (laneOf k.threads l).pc = pc ∧ (laneOf k.threads l).sup = sup)
include hr hk hne hat

theorem nextWord_in_block (hend : pc ≠ k.blkEnd) (hj : ∀ l ∈ k.ready r.step, k.joined.getLsbD l = true)
    (hf : s.fetch core k.ctx pc (!sup) = (v, .ok w)) : s.nextWord core slot = (v, .word pc w (k.ready r.step)) := by
  have hcur : ((k.ready r.step).filter fun l => k.joined.getLsbD l) = k.ready r.step := List.filter_eq_self.2 hj
  have hin := fetchIn_of_fetch hk hne (fun l hl => (hat l hl).2) hf
  have hpc : (laneOf k.threads ((k.ready r.step).headD 0)).pc = pc := by
    cases e : k.ready r.step with
    | nil => exact absurd e hne
    | cons x xs => exact (hat x (by simp [e])).1
  unfold State.nextWord
  simp only [hk, hr, Option.map_some, Option.getD_some, hcur, hpc, if_neg hne]
  rw [if_pos ⟨hne, hend⟩, hin]

omit hat in
theorem nextWord_outside_block (hj : ∀ l ∈ k.ready r.step, k.joined.getLsbD l = false) :
    s.nextWord core slot = s.enterBlock core slot k (k.ready r.step) := by
  have hcur : ((k.ready r.step).filter fun l => k.joined.getLsbD l) = [] :=
    List.filter_eq_nil_iff.2 fun l hl => by simp [hj l hl]
  unfold State.nextWord
  simp only [hk, hr, Option.map_some, Option.getD_some, hcur, if_neg hne]
  rw [if_neg (by simp)]

theorem nextWord_at_header {h : Word} (hj : ∀ l ∈ k.ready r.step, k.joined.getLsbD l = false)
    (hblk : ∀ l ∈ k.ready r.step, pc.toNat ≤ (laneOf k.threads l).blk.toNat) (h8 : pc.toNat % 8 = 0)
    (hf : (s.modSkein core slot fun k => { k with joined := 0 }).fetch core k.ctx pc (!sup) = (v, .ok h))
    (hh : isHeader h = true) :
    s.nextWord core slot =
      if headerOk h then (v.entered core slot pc h (k.ready r.step)).fetchIn core slot (pc + 8) (k.ready r.step)
      else ((v.raise core slot pc h (faultAll (k.ready r.step) { cause := .illegalField })).endFault core slot pc
        (k.ready r.step) 0, .none) := by
  rw [nextWord_outside_block hr hk hne hj, enterBlock_of_header hne hat hblk h8 hf hh]

/-- The word behind a header that passes its check, fetched for the threads that have entered. -/
theorem nextWord_behind_header {h : Word} {z : State} (hj : ∀ l ∈ k.ready r.step, k.joined.getLsbD l = false)
    (hblk : ∀ l ∈ k.ready r.step, pc.toNat ≤ (laneOf k.threads l).blk.toNat) (h8 : pc.toNat % 8 = 0)
    (hf : (s.modSkein core slot fun k => { k with joined := 0 }).fetch core k.ctx pc (!sup) = (v, .ok h))
    (hh : isHeader h = true) (hok : headerOk h = true)
    (hz : (v.entered core slot pc h (k.ready r.step)).fetch core k.ctx (pc + 8) (!sup) = (z, .ok w)) :
    s.nextWord core slot = (z, .word (pc + 8) w (k.ready r.step)) := by
  have hv : v.skein core slot = some { k with joined := 0 } := by
    have hm := ((State.memOnly.refl (s.modSkein core slot fun k => { k with joined := 0 })).fetch core k.ctx pc
      (!sup)).skein core slot
    rw [hf, State.skein_modSkein_self, hk] at hm
    exact hm
  obtain ⟨k', hk', hctx, hsup⟩ := entered_skein (pc := pc) (h := h) hv (fun l hl => lt_length_of_mem_ready hl)
    (nodup_ready k r.step)
  rw [nextWord_at_header hr hk hne hat hj hblk h8 hf hh, if_pos hok]
  exact fetchIn_of_fetch hk' hne (fun l hl => (hsup l).trans (hat l hl).2) (by rw [hctx]; exact hz)

end

-- WHAT BECOMES OF A WORD (03 R78, R79)

/-- What the step from s0 makes of a word that v holds fetched for threads none of which is barred from it: exec of the
instruction that it decodes to, or ILLEGAL_FIELD. -/
def State.runsWord (s0 v : State) (core slot : Nat) (pc w : Word) (ls : List Nat) : Prop :=
  (∀ l ∈ ls, barred slot w ((v.thread core slot l).getD {}) = false) →
  (∀ i, decode w = .ok i → step s0 =
    exec i { v with issue := some { core := core, slot := slot, pc := pc, word := w, present := maskOf ls } }) ∧
  (decode w = .error .illegalField → step s0 = .next ((v.raise core slot pc w
    (faultAll ls { cause := .illegalField })).endFault core slot pc ls 1))

section
variable {s v : State} {core slot : Nat} {pc w : Word} {ls : List Nat}

/-- Threads that may all execute a word go on to its decoding. -/
theorem admitWord_of_open (hne : ls ≠ []) (hb : ∀ l ∈ ls, barred slot w ((v.thread core slot l).getD {}) = false) :
    v.admitWord core slot pc w ls = match decode w with
      | .ok i => (v, some (i, ls))
      | .error _ => ((v.raise core slot pc w (faultAll ls { cause := .illegalField })).endFault core slot pc ls 1, none) := by
  have hbad : (ls.filter fun l => barred slot w ((v.thread core slot l).getD {})) = [] :=
    List.filter_eq_nil_iff.2 fun l hl => Bool.eq_false_iff.1 (hb l hl)
  have hraise : v.raise core slot pc w (faultAll [] { cause := .illegalOp }) = v := State.raise_nil ..
  obtain ⟨x, r, rfl⟩ := List.exists_cons_of_ne_nil hne
  unfold State.admitWord
  simp only [hbad, hraise, dropAll_nil]
  cases decode w <;> rfl

theorem mayIssue_of_run {r : Run} {k : Skein} (hr : ((s.core core).pipe (slot / 8)).run = some r) (hs : r.slot = slot)
    (hk : s.skein core slot = some k) (hc : k.readyAt ≤ s.cycle) : s.mayIssue core slot = true := by
  unfold State.mayIssue
  rw [hk, hr]
  simp [hs, hc]

/-- An issue that meets a fault before its instruction is over with it. -/
theorem perform_issue_of_none (hm : s.mayIssue core slot = true) (hw : s.nextWord core slot = (v, .none)) :
    s.perform (.issue core slot) = .next v := by
  simp [State.perform, State.fetchNext, hm, hw]

/-- An issue whose step fetches a word makes of it what the word is. -/
theorem runsWord_of_nextWord {s0 : State} (h0 : step s0 = s.perform (.issue core slot)) (hm : s.mayIssue core slot = true)
    (hne : ls ≠ []) (hw : s.nextWord core slot = (v, .word pc w ls)) : s0.runsWord v core slot pc w ls := by
  intro hb
  have hadm := admitWord_of_open (pc := pc) hne hb
  constructor
  · intro i hd
    simp [h0, State.perform, State.fetchNext, hm, hw, hadm, hd]
  · intro hd
    simp [h0, State.perform, State.fetchNext, hm, hw, hadm, hd]

end

-- THE STEP

section
variable {s : State} {p : Pick} {rest : List Pick}

theorem step_of_pick (ha : s.agenda = p :: rest) (hp : s.power = true) :
    step s = ({ s with agenda := rest }.pass p.cycles p.ticks).perform p.act := by
  unfold step; rw [ha]; simp [hp]

theorem step_of_no_pick (ha : s.agenda = []) (hp : s.power = true) :
    step s = (s.pass s.autoPick.cycles s.autoPick.ticks).perform s.autoPick.act := by
  unfold step; rw [ha]; simp [hp]

theorem step_unpowered (hp : s.power = false) (hn : ∀ p rest, s.agenda = p :: rest → p.act.powersUp = false) :
    step s = .fault .unpowered := by
  unfold step
  cases ha : s.agenda with
  | nil => simp [hp]
  | cons p rest => simp [hp, hn p rest ha]

end

/-- Settles O58: the step is what its pick performs, and an issue performs the word that the frontier comes to, inside a block
or behind the header of the one entered. -/
theorem aStepRunsTheDecodedInstruction : Obligations.AStepRunsTheDecodedInstruction := by
  refine ⟨?_, fun s u core ctx va user pa kind hva ht h8 hi hl hw hp => fetch_reads_home hva ht h8 hi hl hw hp,
    fun s p rest e ha hp he => ?_, fun s ha hp => step_of_no_pick ha hp, fun s hp hn => step_unpowered hp hn⟩
  · intro s0 p rest core slot ha hp hact s r k pc w sup v hr hs hk hc ready hne hat ran
    have h0 : step s0 = s.perform (.issue core slot) := by rw [step_of_pick ha hp, hact]
    have hm := mayIssue_of_run hr hs hk hc
    refine ⟨fun hend hj hf => runsWord_of_nextWord h0 hm hne (nextWord_in_block hr hk hne hat hend hj hf), ?_⟩
    intro h z hout h8 hf hh
    have hj := fun l hl => (hout l hl).1
    have hblk := fun l hl => (hout l hl).2
    constructor
    · intro hbad
      rw [h0]
      exact perform_issue_of_none hm (by rw [nextWord_at_header hr hk hne hat hj hblk h8 hf hh, hbad]; rfl)
    · intro hok u hz
      exact runsWord_of_nextWord h0 hm hne (nextWord_behind_header hr hk hne hat hj hblk h8 hf hh hok hz)
  · rw [step_of_pick ha hp, he]; rfl

end Sys2Proof.Machine
end

section
/-! The encoding (03 R57, R64, R68, R76 to R78): the fields of a word and the word of the fields undo each other, the opcode map
and the encoder name the same forms, and from them O56 and O57. -/

namespace Sys2Proof.Machine

-- FIELDS

section
variable (w : Word) {n : Nat}

theorem ofNat_wordOpcode : BitVec.ofNat 9 (wordOpcode w) = w.extractLsb' 55 9 := by
  simp [wordOpcode, fld, BitVec.extractLsb', ← BitVec.toNat_inj]

theorem ofBool_getLsbD (k : Nat) : BitVec.ofBool (w.getLsbD k) = w.extractLsb' k 1 := by
  ext i hi
  obtain rfl : i = 0 := by omega
  simp

theorem getLsbD_eq_field (k : Nat) : w.getLsbD k = (w.extractLsb' k 1).getLsbD 0 := by simp

/-- Two fields side by side are one. -/
theorem field_append_field {j k m : Nat} (h : j = k + m) : w.extractLsb' j n ++ w.extractLsb' k m = w.extractLsb' k (n + m) :=
  BitVec.extractLsb'_append_extractLsb'_eq_extractLsb' h

theorem field_whole (x : BitVec n) {k : Nat} (h : k = 0) : x.extractLsb' k n = x := by
  rw [h, BitVec.extractLsb'_eq_self]

end

-- THE WORD OF A WORD'S FIELDS

section
variable (w : Word)

theorem packHead_ctlOf : packHead (wordOpcode w) (ctlOf w) = w.extractLsb' 44 20 := by
  simp (disch := decide) only [packHead, ofNat_wordOpcode, ofBool_getLsbD, ctlOf, field_append_field]

theorem packR_fmtROf : packR (wordOpcode w) (fmtROf w) = w := by
  simp (disch := decide) only [packR, fmtROf, packHead_ctlOf, field_append_field]
  exact BitVec.extractLsb'_eq_self

theorem packI_fmtIOf : packI (wordOpcode w) (fmtIOf w) = w := by
  simp (disch := decide) only [packI, fmtIOf, packHead_ctlOf, field_append_field]
  exact BitVec.extractLsb'_eq_self

theorem packF_fmtFOf : packF (wordOpcode w) (fmtFOf w) = w := by
  simp (disch := decide) only [packF, fmtFOf, packHead_ctlOf, field_append_field]
  exact BitVec.extractLsb'_eq_self

theorem packM_fmtMOf : packM (wordOpcode w) (fmtMOf w) = w := by
  simp (disch := decide) only [packM, fmtMOf, packHead_ctlOf, field_append_field]
  exact BitVec.extractLsb'_eq_self

theorem packC_fmtCOf : packC (wordOpcode w) (fmtCOf w) = w := by
  simp (disch := decide) only [packC, fmtCOf, packHead_ctlOf, field_append_field]
  exact BitVec.extractLsb'_eq_self

theorem packS_fmtSOf : packS (wordOpcode w) (fmtSOf w) = w := by
  simp (disch := decide) only [packS, fmtSOf, packHead_ctlOf, field_append_field]
  exact BitVec.extractLsb'_eq_self

theorem packT_fmtTOf : packT (wordOpcode w) (fmtTOf w) = w := by
  simp (disch := decide) only [packT, fmtTOf, packHead_ctlOf, field_append_field, ofBool_getLsbD]
  exact BitVec.extractLsb'_eq_self

theorem packX_fmtXOf : packX (wordOpcode w) (fmtXOf w) = w := by
  simp (disch := decide) only [packX, fmtXOf, packHead_ctlOf, field_append_field]
  exact BitVec.extractLsb'_eq_self

end

-- THE FIELDS OF A PACKED WORD

section
variable {op : Nat}

theorem ctlOf_packHead_append (c : Ctl) (b : BitVec 44) : ctlOf (packHead op c ++ b) = c := by
  simp (disch := decide) only [ctlOf, packHead, getLsbD_eq_field, BitVec.extractLsb'_append_eq_of_le,
    BitVec.extractLsb'_append_eq_of_add_le, field_whole]
  simp

theorem wordOpcode_packHead_append (hop : op < 512) (c : Ctl) (b : BitVec 44) : wordOpcode (packHead op c ++ b) = op := by
  have hlt : wordOpcode (packHead op c ++ b) < 512 := Nat.mod_lt _ (by decide)
  have h : BitVec.ofNat 9 (wordOpcode (packHead op c ++ b)) = BitVec.ofNat 9 op := by
    rw [ofNat_wordOpcode]
    simp (disch := decide) only [packHead, BitVec.extractLsb'_append_eq_of_le, field_whole]
  simpa [← BitVec.toNat_inj, Nat.mod_eq_of_lt hlt, Nat.mod_eq_of_lt hop] using h

theorem fmtROf_packR (x : FmtR) : fmtROf (packR op x) = x := by
  have hc : ctlOf (packR op x) = x.ctl := ctlOf_packHead_append ..
  simp (disch := decide) only [fmtROf, hc]
  simp (disch := decide) only [packR, BitVec.extractLsb'_append_eq_of_le, BitVec.extractLsb'_append_eq_of_add_le,
    field_whole]

theorem fmtIOf_packI (x : FmtI) : fmtIOf (packI op x) = x := by
  have hc : ctlOf (packI op x) = x.ctl := ctlOf_packHead_append ..
  simp (disch := decide) only [fmtIOf, hc]
  simp (disch := decide) only [packI, BitVec.extractLsb'_append_eq_of_le, BitVec.extractLsb'_append_eq_of_add_le,
    field_whole]

theorem fmtFOf_packF (x : FmtF) : fmtFOf (packF op x) = x := by
  have hc : ctlOf (packF op x) = x.ctl := ctlOf_packHead_append ..
  simp (disch := decide) only [fmtFOf, hc]
  simp (disch := decide) only [packF, BitVec.extractLsb'_append_eq_of_le, BitVec.extractLsb'_append_eq_of_add_le,
    field_whole]

theorem fmtMOf_packM (x : FmtM) : fmtMOf (packM op x) = x := by
  have hc : ctlOf (packM op x) = x.ctl := ctlOf_packHead_append ..
  simp (disch := decide) only [fmtMOf, hc]
  simp (disch := decide) only [packM, BitVec.extractLsb'_append_eq_of_le, BitVec.extractLsb'_append_eq_of_add_le,
    field_whole]

theorem fmtCOf_packC (x : FmtC) : fmtCOf (packC op x) = x := by
  have hc : ctlOf (packC op x) = x.ctl := ctlOf_packHead_append ..
  simp (disch := decide) only [fmtCOf, hc]
  simp (disch := decide) only [packC, BitVec.extractLsb'_append_eq_of_le, BitVec.extractLsb'_append_eq_of_add_le,
    field_whole]

theorem fmtSOf_packS (x : FmtS) : fmtSOf (packS op x) = x := by
  have hc : ctlOf (packS op x) = x.ctl := ctlOf_packHead_append ..
  simp (disch := decide) only [fmtSOf, hc]
  simp (disch := decide) only [packS, BitVec.extractLsb'_append_eq_of_le, BitVec.extractLsb'_append_eq_of_add_le,
    field_whole]

theorem fmtTOf_packT (x : FmtT) : fmtTOf (packT op x) = x := by
  have hc : ctlOf (packT op x) = x.ctl := ctlOf_packHead_append ..
  simp (disch := decide) only [fmtTOf, hc]
  simp (disch := decide) only [packT, getLsbD_eq_field, BitVec.extractLsb'_append_eq_of_le, BitVec.extractLsb'_append_eq_of_add_le,
    field_whole]
  simp

theorem fmtXOf_packX (x : FmtX) : fmtXOf (packX op x) = x := by
  have hc : ctlOf (packX op x) = x.ctl := ctlOf_packHead_append ..
  simp (disch := decide) only [fmtXOf, hc]
  simp (disch := decide) only [packX, BitVec.extractLsb'_append_eq_of_le, BitVec.extractLsb'_append_eq_of_add_le,
    field_whole]

end

-- THE OPCODE MAP AND THE ENCODER

/-- The encoder gives the form's instructions this opcode's word. -/
def FormHasOpcode (op : Nat) : Form → Prop
  | .r mk => ∀ x, encode (mk x) = some (packR op x)
  | .i mk => ∀ x, encode (mk x) = some (packI op x)
  | .f mk => ∀ x, encode (mk x) = some (packF op x)
  | .m mk => ∀ x, encode (mk x) = some (packM op x)
  | .c mk => ∀ x, encode (mk x) = some (packC op x)
  | .s mk => ∀ x, encode (mk x) = some (packS op x)
  | .t mk => ∀ x, encode (mk x) = some (packT op x)
  | .x mk => ∀ x, encode (mk x) = some (packX op x)

section
variable {w : Word} {f : Form} {i : Instr}

/-- A form read from a word of its opcode encodes to that word. -/
theorem encode_read (h : FormHasOpcode (wordOpcode w) f) : encode (f.read w) = some w := by
  cases f with
  | r mk => exact (h _).trans (congrArg some (packR_fmtROf w))
  | i mk => exact (h _).trans (congrArg some (packI_fmtIOf w))
  | f mk => exact (h _).trans (congrArg some (packF_fmtFOf w))
  | m mk => exact (h _).trans (congrArg some (packM_fmtMOf w))
  | c mk => exact (h _).trans (congrArg some (packC_fmtCOf w))
  | s mk => exact (h _).trans (congrArg some (packS_fmtSOf w))
  | t mk => exact (h _).trans (congrArg some (packT_fmtTOf w))
  | x mk => exact (h _).trans (congrArg some (packX_fmtXOf w))

theorem pmov_form : FormHasOpcode 0x04A (.r fun x => if x.sub = 1 then .pmovSet x else .pmovGet x) := by
  intro x
  dsimp only
  split <;> rfl

theorem ddupq_form : FormHasOpcode 0x18B (.x fun x => if x.imm = 1 then .ddupqSt x else .ddupqFp x) := by
  intro x
  dsimp only
  split <;> rfl

theorem opcodesInt_forms : ∀ p ∈ opcodesInt, FormHasOpcode p.1 p.2 := by
  rw [← List.forall_iff_forall_mem]
  unfold opcodesInt
  repeat' apply And.intro
  all_goals exact fun _ => rfl

theorem opcodesControl_forms : ∀ p ∈ opcodesControl, FormHasOpcode p.1 p.2 := by
  rw [← List.forall_iff_forall_mem]
  unfold opcodesControl
  repeat' apply And.intro
  on_goal 11 => exact pmov_form
  all_goals exact fun _ => rfl

theorem opcodesFloat_forms : ∀ p ∈ opcodesFloat, FormHasOpcode p.1 p.2 := by
  rw [← List.forall_iff_forall_mem]
  unfold opcodesFloat
  repeat' apply And.intro
  all_goals exact fun _ => rfl

theorem opcodesAccess_forms : ∀ p ∈ opcodesAccess, FormHasOpcode p.1 p.2 := by
  rw [← List.forall_iff_forall_mem]
  unfold opcodesAccess
  repeat' apply And.intro
  all_goals exact fun _ => rfl

theorem opcodesReduce_forms : ∀ p ∈ opcodesReduce, FormHasOpcode p.1 p.2 := by
  rw [← List.forall_iff_forall_mem]
  unfold opcodesReduce
  repeat' apply And.intro
  on_goal 30 => exact ddupq_form
  all_goals exact fun _ => rfl

theorem opcodesEngine_forms : ∀ p ∈ opcodesEngine, FormHasOpcode p.1 p.2 := by
  rw [← List.forall_iff_forall_mem]
  unfold opcodesEngine
  repeat' apply And.intro
  all_goals exact fun _ => rfl

/-- Every row of the map holds the opcode that the encoder gives its form. -/
theorem opcodes_forms : ∀ p ∈ opcodes, FormHasOpcode p.1 p.2 := by
  simp only [opcodes, List.forall_mem_append]
  exact ⟨opcodesInt_forms, opcodesControl_forms, opcodesFloat_forms, opcodesAccess_forms, opcodesReduce_forms, opcodesEngine_forms⟩

/-- The opcodes that stand for no form are those the map leaves out. -/
theorem opcodeFree_eq_isNone_lookup (w : Word) : opcodeFree w = (opcodes.lookup (wordOpcode w)).isNone := by
  have hlt : wordOpcode w < 512 := Nat.mod_lt _ (by decide)
  unfold opcodeFree
  unfold wordOpcode at *
  generalize fld w 55 9 = k at *
  revert k
  decide +kernel

/-- The form that an opcode stands for, one list of the map after another. -/
def formOf (op : Nat) : Option Form :=
  (opcodesInt.lookup op).or ((opcodesControl.lookup op).or ((opcodesFloat.lookup op).or ((opcodesAccess.lookup op).or
    ((opcodesReduce.lookup op).or (opcodesEngine.lookup op)))))

theorem lookup_opcodes (op : Nat) : opcodes.lookup op = formOf op := by
  simp only [opcodes, List.lookup_append, formOf]

-- DECODE OF ENCODE

theorem decode_of_read (hf : opcodes.lookup (wordOpcode w) = some f) (hr : f.read w = i) (hw : WellFormed i) :
    decode w = .ok i := by
  simp only [decode, hf, hr, if_pos hw]

theorem decode_of_opcodeFree (h : opcodeFree w = true) : decode w = .ok (.unallocatedOpcode w) := by
  have hn : opcodes.lookup (wordOpcode w) = none := by simpa [opcodeFree_eq_isNone_lookup] using h
  simp only [decode, hn]

section
variable {op : Nat}

theorem decode_packR {mk : FmtR → Instr} {x : FmtR} (hw : WellFormed i) (hop : op < 512)
    (hf : formOf op = some (.r mk)) (hi : mk x = i) : decode (packR op x) = .ok i :=
  decode_of_read (f := .r mk) (by rw [packR, wordOpcode_packHead_append hop, lookup_opcodes, hf]) ((congrArg mk (fmtROf_packR x)).trans hi) hw

theorem decode_packI {mk : FmtI → Instr} {x : FmtI} (hw : WellFormed i) (hop : op < 512)
    (hf : formOf op = some (.i mk)) (hi : mk x = i) : decode (packI op x) = .ok i :=
  decode_of_read (f := .i mk) (by rw [packI, wordOpcode_packHead_append hop, lookup_opcodes, hf]) ((congrArg mk (fmtIOf_packI x)).trans hi) hw

theorem decode_packF {mk : FmtF → Instr} {x : FmtF} (hw : WellFormed i) (hop : op < 512)
    (hf : formOf op = some (.f mk)) (hi : mk x = i) : decode (packF op x) = .ok i :=
  decode_of_read (f := .f mk) (by rw [packF, wordOpcode_packHead_append hop, lookup_opcodes, hf]) ((congrArg mk (fmtFOf_packF x)).trans hi) hw

theorem decode_packM {mk : FmtM → Instr} {x : FmtM} (hw : WellFormed i) (hop : op < 512)
    (hf : formOf op = some (.m mk)) (hi : mk x = i) : decode (packM op x) = .ok i :=
  decode_of_read (f := .m mk) (by rw [packM, wordOpcode_packHead_append hop, lookup_opcodes, hf]) ((congrArg mk (fmtMOf_packM x)).trans hi) hw

theorem decode_packC {mk : FmtC → Instr} {x : FmtC} (hw : WellFormed i) (hop : op < 512)
    (hf : formOf op = some (.c mk)) (hi : mk x = i) : decode (packC op x) = .ok i :=
  decode_of_read (f := .c mk) (by rw [packC, wordOpcode_packHead_append hop, lookup_opcodes, hf]) ((congrArg mk (fmtCOf_packC x)).trans hi) hw

theorem decode_packS {mk : FmtS → Instr} {x : FmtS} (hw : WellFormed i) (hop : op < 512)
    (hf : formOf op = some (.s mk)) (hi : mk x = i) : decode (packS op x) = .ok i :=
  decode_of_read (f := .s mk) (by rw [packS, wordOpcode_packHead_append hop, lookup_opcodes, hf]) ((congrArg mk (fmtSOf_packS x)).trans hi) hw

theorem decode_packT {mk : FmtT → Instr} {x : FmtT} (hw : WellFormed i) (hop : op < 512)
    (hf : formOf op = some (.t mk)) (hi : mk x = i) : decode (packT op x) = .ok i :=
  decode_of_read (f := .t mk) (by rw [packT, wordOpcode_packHead_append hop, lookup_opcodes, hf]) ((congrArg mk (fmtTOf_packT x)).trans hi) hw

theorem decode_packX {mk : FmtX → Instr} {x : FmtX} (hw : WellFormed i) (hop : op < 512)
    (hf : formOf op = some (.x mk)) (hi : mk x = i) : decode (packX op x) = .ok i :=
  decode_of_read (f := .x mk) (by rw [packX, wordOpcode_packHead_append hop, lookup_opcodes, hf]) ((congrArg mk (fmtXOf_packX x)).trans hi) hw

end

theorem sub_of_pmovGet {x : FmtR} (hw : WellFormed (.pmovGet x)) : x.sub ≠ 1 := by
  simp only [WellFormed, Instr.wellFormed, Bool.and_eq_true, beq_iff_eq] at hw
  simp [hw.2]

theorem sub_of_pmovSet {x : FmtR} (hw : WellFormed (.pmovSet x)) : x.sub = 1 := by
  simp only [WellFormed, Instr.wellFormed, Bool.and_eq_true, beq_iff_eq] at hw
  exact hw.2

theorem imm_of_ddupqFp {x : FmtX} (hw : WellFormed (.ddupqFp x)) : x.imm ≠ 1 := by
  simp only [WellFormed, Instr.wellFormed, Bool.and_eq_true, beq_iff_eq] at hw
  simp [hw.2]

theorem imm_of_ddupqSt {x : FmtX} (hw : WellFormed (.ddupqSt x)) : x.imm = 1 := by
  simp only [WellFormed, Instr.wellFormed, Bool.and_eq_true, beq_iff_eq] at hw
  exact hw.2

/-- Decode undoes encode, form by form: the map's row of the form's opcode is the form. -/
theorem decode_encode (hw : WellFormed i) (h : encode i = some w) : decode w = .ok i := by
  cases i with
  | nop x | add x | sub x | adds x | addsn x | subs x | subsn x | mul x | mulhs x | mulhn x | mins x | minn x | maxs x | maxn x
  | abs x | neg x | and x | or x | xor x | andn x | shl x | shr x | sar x | rol x | popc x | clz x | brev x | mov x | addp x
  | cmps x | cmpn x | pand x | por x | pxor x | pnot x | ppop x | ppush x | sel x | vote x | perm x | scan x | rduc x
  | matchMask x | fadd x | fsub x | fmul x | fmin x | fmax x | fcmp x | fcls x | frcp x | frsq x | fsqrt x | fex2 x | flg2 x
  | fsin x | fcos x | ffrc x | frnd x | fdiv x | fscl x | dadd x | dmul x | dcmp x | pkadd x | pkmul x | hadd2 x | hmul2 x
  | hmin2 x | hmax2 x | cvtsr x | rng x
    => cases h; exact decode_packR hw (by decide) rfl rfl
  | addi x | muli x | andi x | ori x | xori x | shli x | shri x | sari x | movi x | movhi x | movti x | cmpsi x | cmpni x
  | sview x | cvtff x | cvtfi x | cvtif x | rngi x | cvset x | time x
    => cases h; exact decode_packI hw (by decide) rfl rfl
  | mad x | madw x | bfx x | bfxs x | bfi x | dot4s x | dot4n x | sad x | ffma x | fclmp x | dfma x | pkfma x | hfma2 x
  | fdot2 x | fdot4e x | flerp x | pack x | unpk x
    => cases h; exact decode_packF hw (by decide) rfl rfl
  | fence x | pref x
    => cases h; exact decode_packM hw (by decide) rfl rfl
  | bra x | brx x | call x | callx x | ret x | exit x | yield x | bar x | trap x | brk x | tret x | escl x | fencei x | sleep x
  | hcall x | hret x | spstart x | spstop x
    => cases h; exact decode_packC hw (by decide) rfl rfl
  | srd x | swr x | mon x
    => cases h; exact decode_packS hw (by decide) rfl rfl
  | talloc x | tfree x | tgive x | ttake x | tzero x | tmma x | tmmasp x | tcvt x | tscl x
    => cases h; exact decode_packT hw (by decide) rfl rfl
  | cmo x | put x | putm x | cpy x | cpyq x | spz x | spabs x | spcrd x | carve x | tqry x | tload x | tloadr x | tstore x
  | tstorer x | dlaunch x | emit x | nclose x | qpush x | qpop x | qpeek x | board x | alight x | ringack x | stripq x | tex x
  | texl x | texg x | texq x | imst x | trace x | hitacc x | hitign x | hitend x | tblw x | tblr x | tblinv x | wait x
  | stamp x | bari x | bara x | barw x | ctadd x
    => cases h; exact decode_packX hw (by decide) rfl rfl
  | ld sz x => cases h; cases sz <;> exact decode_packM hw (by decide) rfl rfl
  | ldg sz x => cases h; cases sz <;> exact decode_packM hw (by decide) rfl rfl
  | st sz x => cases h; cases sz <;> exact decode_packM hw (by decide) rfl rfl
  | atom o wide x => cases h; cases o <;> cases wide <;> exact decode_packM hw (by decide) rfl rfl
  | red o wide x =>
    cases o with
    | exch | cas => cases h
    | add | mins | minn | maxs | maxn | and | or | xor | fadd => cases h; cases wide <;> exact decode_packM hw (by decide) rfl rfl
  | pmovGet x => cases h; exact decode_packR hw (by decide) rfl (if_neg (sub_of_pmovGet hw))
  | pmovSet x => cases h; exact decode_packR hw (by decide) rfl (if_pos (sub_of_pmovSet hw))
  | ddupqFp x => cases h; exact decode_packX hw (by decide) rfl (if_neg (imm_of_ddupqFp hw))
  | ddupqSt x => cases h; exact decode_packX hw (by decide) rfl (if_pos (imm_of_ddupqSt hw))
  | unallocatedOpcode v => cases h; exact decode_of_opcodeFree hw
  | _ => cases h

-- ENCODE OF DECODE

theorem wellFormed_of_decode (h : decode w = .ok i) : WellFormed i := by
  unfold decode at h
  split at h
  next f hf =>
    dsimp only at h
    split at h
    · cases h; assumption
    · cases h
  next hf =>
    cases h
    exact (opcodeFree_eq_isNone_lookup w).trans (by rw [hf]; rfl)

theorem encode_of_decode (h : decode w = .ok i) : encode i = some w := by
  unfold decode at h
  split at h
  next f hf =>
    obtain ⟨pre, post, hmap, -⟩ := List.lookup_eq_some_iff.1 hf
    have hmem : (wordOpcode w, f) ∈ opcodes := hmap ▸ List.mem_append_right pre List.mem_cons_self
    dsimp only at h
    split at h
    · cases h; exact encode_read (opcodes_forms _ hmem)
    · cases h
  next => cases h; rfl

end

/-- Settles O56: the rows of the opcode map are the encoder's forms, and the fields of a word and the word of fields undo
each other. -/
theorem decodeAndEncodeAgree : Obligations.DecodeAndEncodeAgree :=
  ⟨fun _ _ hw h => decode_encode hw h, fun _ _ h => ⟨wellFormed_of_decode h, encode_of_decode h⟩⟩

/-- A field value that the form of the word's opcode does not admit. -/
theorem illegalField_of_read {w : Word} {f : Form} (hf : formOf (wordOpcode w) = some f)
    (hw : (f.read w).wellFormed = false) : decode w = .error .illegalField := by
  simp only [decode, lookup_opcodes, hf, hw, Bool.false_eq_true, if_false]

/-- Settles O57: each instruction is well formed and has its word, each ill word reads as a form that does not admit it, and no
form has the opcode of the others. -/
theorem wordsDecodeAsTheyAreEncoded : Obligations.WordsDecodeAsTheyAreEncoded := by
  refine ⟨fun p hp => ?_, fun w hw => ?_, fun w hw => decode_of_opcodeFree ?_⟩
  · suffices h : WellFormed p.2 ∧ encode p.2 = some p.1 from decode_encode h.1 h.2
    fin_cases hp
    all_goals exact ⟨rfl, rfl⟩
  · fin_cases hw
    all_goals exact illegalField_of_read rfl rfl
  · fin_cases hw
    all_goals rfl

end Sys2Proof.Machine
end

section
/-! The invariant and the core clock (18 R450). -/

namespace Sys2Proof.Machine

/-- The reset machine at a core clock of 1050 MHz, less than one of the clock's steps above its lowest, with an agenda. -/
def unevenClock (agenda : List Pick) : State := { mon := { mhz := 1050 }, agenda := agenda }

/-- The invariant bounds the clock and does not hold it to steps of 100 MHz. -/
theorem unevenClock_sound (agenda : List Pick) : (unevenClock agenda).sound :=
  ⟨⟨rfl, rfl, rfl⟩, nofun, (by decide : 0 < 2 ^ 48 * timeSecond), (by decide : 1000 ≤ 1050), (by decide : 1050 ≤ 2000)⟩

/-- A monitor check that samples a temperature far above its limit takes a whole step off the clock. -/
theorem step_unevenClock :
    step (unevenClock [{ act := .event (.monitorCheck [0x7FFFFFFF] [] []) }]) =
      .next { mon := { temps := [(0, 0x7FFFFFFF)], mhz := 950, throttle := 1, checked := some 0 } } :=
  rfl

/-- Refutes O60: the invariant allows a core clock of 1050 MHz, from which a step of 100 MHz leads below 1000 MHz. -/
theorem not_everyStepKeepsTheStateSound : ¬ Obligations.EveryStepKeepsTheStateSound := by
  intro h
  obtain ⟨-, -, -, hlow, -⟩ := h _ _ (unevenClock_sound _) step_unevenClock
  exact absurd hlow (by decide)

end Sys2Proof.Machine
end

section
/-! Returns from exceptions (04 R101 to R104, 05 R139): what a return restores, the effect of TRET and of ESCL on one thread,
and from them O15. -/

namespace Sys2Proof.Machine

/-- A thread that has returned from an exception: the restores of 04 R102, at a program counter and in a state. -/
def Thread.returned (th : Thread) (pc : Word) (st : ThreadState) : Thread :=
  { th with pred := th.trec.pred, link := th.trec.link, blk := th.trec.blk, views := Views.unpack th.trec.view, pc := pc
            sup := !th.trec.cause.getLsbD 8, st := st }

theorem restore_of_ok {th : Thread} (hq : th.quiet) (hv : (Views.unpack th.trec.view).ok = true) (pc : Word) :
    th.restore pc = some (th.returned pc th.st) := by
  obtain ⟨hpend, -, -, -⟩ := hq
  simp [Thread.restore, Thread.returned, hv, hpend]

theorem restore_of_rejected {th : Thread} (hv : (Views.unpack th.trec.view).ok = false) (pc : Word) :
    th.restore pc = none := by
  simp [Thread.restore, hv]

/-- The thread of a poised state runs, and its issue is the machine's. -/
theorem poised_running {s : State} {is : Issue} {k : Skein} {c : Ctl} {l : Nat} (h : s.poisedOne is k c l) :
    (laneOf k.threads l).st = .running ∧ s.issued = some (is, k) := by
  obtain ⟨⟨hi, hk, -⟩, -, -, hrun, -⟩ := h
  exact ⟨hrun, by simp [State.issued, hi, hk]⟩

section
variable {x : FmtC} {s : State} {is : Issue} {k : Skein} {l : Nat} (h : s.poisedOne is k x.ctl l)
include h

theorem tretRun_of_ok (hv : (Views.unpack (laneOf k.threads l).trec.view).ok = true) (next : Bool) (li : LaneIn) :
    tretRun next (siteOf s is l) li s = (s.modThread is.core is.slot l fun _ => (laneOf k.threads l).returned
      (if next then (laneOf k.threads l).trec.pc + 8 else (laneOf k.threads l).trec.pc) .running, .moved) := by
  unfold tretRun
  simp only [site_thread h, restore_of_ok (poised_quietOne h) hv, (poised_running h).1]
  rfl

theorem tretRun_of_rejected (hv : (Views.unpack (laneOf k.threads l).trec.view).ok = false) (next : Bool) (li : LaneIn) :
    tretRun next (siteOf s is l) li s = (s, .trap { cause := .illegalField }) := by
  unfold tretRun
  simp only [site_thread h, restore_of_rejected hv]

theorem esclRun_of_ok (hv : (Views.unpack (laneOf k.threads l).trec.view).ok = true) (li : LaneIn) :
    esclRun (siteOf s is l) li s = (s.modThread is.core is.slot l fun _ =>
      (laneOf k.threads l).returned (laneOf k.threads l).trec.pc .hostParked, .moved) := by
  unfold esclRun
  simp only [site_thread h, restore_of_ok (poised_quietOne h) hv]
  rfl

/-- A change of one thread leaves its skein in place and calm. -/
theorem modThread_calm (f : Thread → Thread) :
    ∃ k', (s.modThread is.core is.slot l f).skein is.core is.slot = some k' ∧ k'.calm := by
  obtain ⟨hk, hc⟩ := poised_skein h
  exact ⟨{ k with threads := modAt l f k.threads }, by rw [State.skein_modThread_self, hk]; rfl, hc⟩

variable (hs : (laneOf k.threads l).sup = true)
include hs

/-- TRET with a TRAPVIEW that 03 R71 rejects: a nested ILLEGAL_FIELD (04 R102, R103). -/
theorem tret_rejected (hv : (Views.unpack (laneOf k.threads l).trec.view).ok = false) :
    s.parksNested (.tret x) is k l .illegalField 0 is.word := by
  have hf : s.faults (.tret x) is k l .illegalField 0 is.word := runEach_trap (.tret x) x.ctl x.ctl.stall false
    { denied := supOnly, run := tretRun (x.imm.getLsbD 0) } s is k l h rfl
    (by simp [supOnly, hs]) (has_nil _ _) (has_nil _ _) { cause := .illegalField } s (poised_skein h).1
    (tretRun_of_rejected h hv _ (oneInput { denied := supOnly } s k l))
    rfl (by decide) rfl
  obtain ⟨-, -, -, hn⟩ := hf
  exact hn

theorem tret_returns (hv : (Views.unpack (laneOf k.threads l).trec.view).ok = true) :
    ∃ t, exec (.tret x) s = .next t ∧ (s.modThread is.core is.slot l fun _ => (laneOf k.threads l).returned
      (if x.imm.getLsbD 0 then (laneOf k.threads l).trec.pc + 8 else (laneOf k.threads l).trec.pc) .running).endsAs t (.tret x)
      is l .moved :=
  ⟨_, rfl, each_ends _ _ _ _ _ s is k l h (by simp [supOnly, hs]) (has_nil _ _) (has_nil _ _) _ _
    (tretRun_of_ok h hv _ (oneInput { denied := supOnly } s k l)) nofun (modThread_calm h _)⟩

/-- The threads that ESCL escalates: the one, where its TRAPVIEW is allowed. -/
theorem escl_lanes (hv : (Views.unpack (laneOf k.threads l).trec.view).ok = true) :
    (((gather { denied := supOnly } x.ctl k is.slot s.cycle (lanesOf is.present)).go.map (·.lane)).filter fun j =>
      ((laneOf k.threads j).restore 0).isSome) = [l] := by
  rw [gather_one { denied := supOnly } x.ctl s is k l h (by simp [supOnly, hs]) (has_nil _ _) (has_nil _ _)]
  simp [oneInput, restore_of_ok (poised_quietOne h) hv]

theorem escl_returns (hv : (Views.unpack (laneOf k.threads l).trec.view).ok = true) :
    ∃ t, exec (.escl x) s = .next (t.post k.ctx false (fragmentEvent k 2 is.core is.slot [l]
        (laneOf k.threads l).trec.cause (laneOf k.threads l).trec.pc (laneOf k.threads l).trec.addr
        (laneOf k.threads l).trec.info 0)) ∧
      (s.modThread is.core is.slot l fun _ =>
        (laneOf k.threads l).returned (laneOf k.threads l).trec.pc .hostParked).endsAs t (.escl x) is l .moved := by
  refine ⟨s.runEach (.escl x) x.ctl x.ctl.stall false { denied := supOnly, run := esclRun }, ?_,
    each_ends _ _ _ _ _ s is k l h (by simp [supOnly, hs]) (has_nil _ _) (has_nil _ _) _ _
      (esclRun_of_ok h hv (oneInput { denied := supOnly } s k l)) nofun
      (modThread_calm h _)⟩
  show execEscl x s = _
  unfold execEscl
  simp only [(poised_running h).2, escl_lanes h hs hv]
  rfl

end

/-- Settles O15: TRET and ESCL make of the one thread what it was before its trap, and a TRAPVIEW that is rejected is a nested
fault. -/
theorem trapsReturn : Obligations.TrapsReturn := by
  intro x s is k l h th r back hs
  exact ⟨fun hv => tret_rejected h hs hv hs, tret_returns h hs, escl_returns h hs⟩

end Sys2Proof.Machine
end

section
/-! System registers read (04 R89 to R93, 05 R141, R142): the value of each, what SRD is owed, and from them O16. -/

namespace Sys2Proof.Machine

/-- PARKMASK as 04 R91 words it. -/
theorem parkMask_eq (k : Skein) : parkMask k =
    (maskOf ((List.range 32).filter fun i => decide ((laneOf k.threads i).st = .exited))).toNat * 2 ^ 32 +
      (maskOf ((List.range 32).filter fun i =>
        decide ((laneOf k.threads i).st = .hostParked ∨ (laneOf k.threads i).st = .debugParked))).toNat := by
  simp only [parkMask, beq_eq_decide, Bool.decide_or]

theorem sysBytes_eq (th : Thread) (r : RegOp) : Claims.sysBytes th r = sysWidth th.views r := rfl

section
variable {x : FmtS} {s : State} {is : Issue} {k : Skein} {l : Nat} (h : s.poisedOne is k x.ctl l)
include h

/-- Each register of the table reads as its value there, where P and LINK are the thread's. -/
theorem sysRead_registers {w : Workgroup} {g : Grid} (hw : s.wg k.wgKey = some w) (hg : s.grid k.ctx k.grid = some g)
    {li : LaneIn} (hp : li.pred = (laneOf k.threads l).pred) (hl : li.link = (laneOf k.threads l).link) :
    ∀ p ∈ Claims.registers is k l (s.varOf is.core is.slot k.ctx) w g, s.sysRead (siteOf s is l) li p.1.toNat = p.2 := by
  obtain ⟨hk, -⟩ := poised_skein h
  have ht := thread_one h
  rw [← List.map_inj_left]
  simp [Claims.registers, State.sysRead, State.special, siteOf, hk, ht, hp, hl, hw, hg, parkMask_eq, spindleSlot, sectorOf]

/-- A result owed to the one thread leaves its skein in place and calm. -/
theorem owes_calm (r : RegOp) (n v : Nat) :
    ∃ k', (Claims.owes s is l r n v).skein is.core is.slot = some k' ∧ k'.calm := by
  obtain ⟨hk, hc⟩ := poised_skein h
  exact ⟨_, (State.skein_modThread_self ..).trans (congrArg _ hk), hc⟩

/-- The effect of SRD on the one thread: the value is owed to it at its register's width. -/
theorem srd_hold (v : Nat) :
    [l].foldl (fun s' i => s'.hold { siteOf s is l with lane := i, lanes := [i] } x.reg
      (sysWidth (s'.siteThread { siteOf s is l with lane := i, lanes := [i] }).views x.reg) v []) s =
      Claims.owes s is l x.reg (Claims.sysBytes (laneOf k.threads l) x.reg) v := by
  have ht : s.siteThread { siteOf s is l with lane := l, lanes := [l] } = laneOf k.threads l := site_thread h
  rw [List.foldl_cons, ht]
  rfl

variable (hd : (laneOf k.threads l).has k.alloc [(x.reg, Claims.sysBytes (laneOf k.threads l) x.reg, 1)])
  (hs : (laneOf k.threads l).sup = true ∨ SysReg.userRead x.num = true)
include hd hs

theorem srd_illegal (hw : SysReg.wide x.num = true) (hn : Claims.sysBytes (laneOf k.threads l) x.reg = 4) :
    s.faults (.srd x) is k l .illegalField 0 is.word :=
  runEach_illegal _ _ _ _ _ s is k l h rfl (by simpa [or_iff_not_imp_left] using hs) hd (has_nil _ _)
    (by simpa [hw, sysBytes_eq] using hn)

theorem srd_reads {w : Workgroup} {g : Grid} (hw : s.wg k.wgKey = some w) (hg : s.grid k.ctx k.grid = some g)
    (hn : SysReg.wide x.num = true → Claims.sysBytes (laneOf k.threads l) x.reg = 8)
    (p : BitVec 12 × Nat) (hp : p ∈ Claims.registers is k l (s.varOf is.core is.slot k.ctx) w g) (hx : x.num = p.1) :
    ∃ t, exec (.srd x) s = .next t ∧
      (Claims.owes s is l x.reg (Claims.sysBytes (laneOf k.threads l) x.reg) p.2).endsAs t (.srd x) is l .next := by
  have hv (li : LaneIn) (hp' : li.pred = (laneOf k.threads l).pred) (hl : li.link = (laneOf k.threads l).link) :
      s.sysRead (siteOf s is l) li x.num.toNat = p.2 := hx ▸ sysRead_registers h hw hg hp' hl p hp
  refine ⟨_, rfl, each_ends _ _ _ _ _ s is k l h (by simpa [or_iff_not_imp_left] using hs) hd (has_nil _ _) _ _
    (Prod.ext ((srd_hold h _).trans (congrArg _ (hv _ rfl rfl))) rfl) nofun (owes_calm h ..) ?_⟩
  cases hb : SysReg.wide x.num
  · simp
  · simp [← sysBytes_eq, hn hb]

end

/-- Settles O16: SRD is owed what its register reads as, for each row of the table. -/
theorem systemRegistersAreRead : Obligations.SystemRegistersAreRead := by
  intro x s is k l w g h hw hg th n hd hs
  exact ⟨srd_illegal h hd hs, srd_reads h hd hs hw hg⟩

end Sys2Proof.Machine
end

section
/-! Waits that end (04 R94, 11 R304): when a wait can be taken up, what taking it up does, and from them O31. -/

namespace Sys2Proof.Machine

-- WHICH WAITS CAN BE TAKEN UP

section
variable {s : State} {core slot l : Nat} {th : Thread}

theorem waitingFor_of_waiting {w : Wait} {f : WaitFor → Bool} (ht : s.thread core slot l = some th)
    (hst : th.st = .waiting w) (hf : f w.what = true) (hgo : w.what = .link ∨ s.halted core slot = false) :
    s.waitingFor core slot l f = some w := by
  have hgo : (w.what == .link || !s.halted core slot) = true := by simpa using hgo
  simp [State.waitingFor, ht, hst, hf, hgo]

theorem waitingFor_of_not_waiting (f : WaitFor → Bool) (ht : s.thread core slot l = some th)
    (hst : ∀ w, th.st ≠ .waiting w) : s.waitingFor core slot l f = none := by
  unfold State.waitingFor
  rw [ht]
  cases e : th.st with
  | waiting w => exact absurd e (hst w)
  | _ => simp [e]

/-- The one wait of a skein for an event, that is not being vacated, is taken up. -/
theorem retakeAll_of_one {k : Skein} {w : Wait} {f : WaitFor → Bool}
    {a : Instr → Option (Site → LaneIn → State → State × Fate)} {act : Site → LaneIn → State → State × Fate}
    (hk : s.skein core slot = some k) (hh : s.halted core slot = false) (hw : k.waitsFor f = [(l, w)])
    (ha : a w.instr = some act) : s.retakeAll core slot f a = s.retake core slot l w act := by
  have hgo : s.stopped k.wgKey = false := by simpa [State.halted, hk] using hh
  simp [State.retakeAll, hk, hgo, hw, ha]

end

-- WHAT TAKING UP DOES

/-- The threads of a wait changed. -/
def State.modLanes (s : State) (core slot : Nat) (ls : List Nat) (f : Thread → Thread) : State :=
  ls.foldl (fun s j => s.modThread core slot j f) s

/-- Where a waiting thread's instruction acts when it is taken up. -/
def Wait.site (w : Wait) (s : State) (core slot l : Nat) (th : Thread) : Site :=
  { core := core, slot := slot, lane := l, lanes := w.lanes, cyc := s.cycle, pc := th.pc, word := w.word, ord := w.seq }

/-- The operands that it issued with, and the thread's P and LINK. -/
def Wait.input (w : Wait) (s : State) (l : Nat) (th : Thread) : LaneIn :=
  { lane := l, cyc := s.cycle, vals := w.vals, pred := th.pred, link := th.link }

section
variable {s u : State} {core slot l : Nat} {th : Thread} {w : Wait} {act : Site → LaneIn → State → State × Fate}
  (ht : s.thread core slot l = some th)
include ht

/-- An access behind an earlier one of its skein that waits goes on waiting. -/
theorem retake_behind (hb : (w.what.blocks && s.mustWait (w.site s core slot l th) w.instr) = true) :
    s.retake core slot l w act = s.modLanes core slot w.lanes fun t => { t with st := .waiting w } := by
  simp only [Wait.site] at hb
  simp only [State.retake, ht, hb, if_true]
  rfl

variable (hb : (w.what.blocks && s.mustWait (w.site s core slot l th) w.instr) = false)
include hb

theorem retake_next (hr : act (w.site s core slot l th) (w.input s l th) s = (u, .next)) :
    s.retake core slot l w act = u.wakeLanes core slot w.lanes (th.pc + 8) := by
  simp only [Wait.site, Wait.input] at hb hr
  simp only [State.retake, ht, hb, hr, Bool.false_eq_true, if_false]

theorem retake_wait {what : WaitFor} {vals : List Nat}
    (hr : act (w.site s core slot l th) (w.input s l th) s = (u, .wait what vals)) :
    s.retake core slot l w act =
      u.modLanes core slot w.lanes fun t => { t with st := .waiting { w with what := what, vals := vals } } := by
  simp only [Wait.site, Wait.input] at hb hr
  simp only [State.retake, ht, hb, hr, Bool.false_eq_true, if_false]
  rfl

theorem retake_trap {q : Trap} (hr : act (w.site s core slot l th) (w.input s l th) s = (u, .trap q)) :
    s.retake core slot l w act = (u.modLanes core slot w.lanes fun t => { t.wake with stepNext := none }).raise core slot
      th.pc w.word (w.lanes.map fun j => (j, q)) := by
  simp only [Wait.site, Wait.input] at hb hr
  simp only [State.retake, ht, hb, hr, Bool.false_eq_true, if_false]
  rfl

end

/-- A wait taken up by its event; what waited for presence may have been the last that its workgroup waits for. -/
def State.takeUp (s : State) (core slot l : Nat) (w : Wait) (act : Site → LaneIn → State → State × Fate) : State :=
  if w.what = .presence then (s.retake core slot l w act).settle core slot else s.retake core slot l w act

section
variable {s : State} {core slot l : Nat} {w : Wait} {act : Site → LaneIn → State → State × Fate}

theorem takeUp_of_presence (h : w.what = .presence) :
    s.takeUp core slot l w act = (s.retake core slot l w act).settle core slot := if_pos h

theorem takeUp_of_not_presence (h : w.what ≠ .presence) : s.takeUp core slot l w act = s.retake core slot l w act := if_neg h

end

/-- An event that has the wait taken up does what the claim says of it. -/
theorem takesUp_of_retake {s : State} {e : Instr} {core slot l : Nat} {th : Thread} {w : Wait}
    {act : Site → LaneIn → State → State × Fate} (ht : s.thread core slot l = some th)
    (he : exec e s = .next (s.takeUp core slot l w act)) : Claims.takesUp s e core slot l th w act := by
  unfold State.takeUp at he
  constructor
  · intro hb
    rw [he, retake_behind ht hb]
    rfl
  · intro hb
    refine ⟨fun hr => ?_, fun what vals hr => ?_, fun q hr => ?_⟩
    · rw [he, retake_next ht hb (Prod.ext rfl hr)]
      rfl
    · rw [he, retake_wait ht hb (Prod.ext rfl hr)]
      rfl
    · rw [he, retake_trap ht hb (Prod.ext rfl hr)]
      rfl

-- THE EVENTS OF ONE THREAD

theorem forPresence_eq_presenceAct (i : Instr) : Claims.forPresence i = presenceAct i := by
  cases i <;> rfl

section
variable {s : State} {e : Instr} {core slot l : Nat} {th : Thread} {w : Wait} {act : Site → LaneIn → State → State × Fate}

/-- The host link's answer has the access taken up. -/
theorem exec_loadReturn_of_waiting {va : Nat → Word} (ht : s.thread core slot l = some th)
    (hw : s.waitingFor core slot l (· = .link) = some w) (ha : linkAct w.instr = some (act, va)) (idx : Nat) :
    exec (.loadReturn core slot l idx .ok) s = .next (s.retake core slot l w act) := by
  obtain ⟨k, hk, -⟩ := Option.bind_eq_some_iff.1 ht
  show execLoadReturn core slot l idx .ok s = _
  simp only [execLoadReturn, hw, ha, hk, ht]

-- each of the other events of a thread looks for its own wait, and takes up its own instructions

theorem waitSatisfied_runs (s : State) : exec (.waitSatisfied core slot l) s = execWaitSatisfied core slot l s := rfl
theorem barwComplete_runs (s : State) : exec (.barwComplete core slot l) s = execBarwComplete core slot l s := rfl
theorem shuttleQueueRoom_runs (s : State) : exec (.shuttleQueueRoom core slot l) s = execShuttleQueueRoom core slot l s := rfl
theorem arenaRoom_runs (s : State) : exec (.arenaRoom core slot l) s = execArenaRoom core slot l s := rfl

/-- Each event that ends a wait of one thread has it taken up with what its instruction does. -/
theorem exec_waker (ht : s.thread core slot l = some th) (hst : th.st = .waiting w)
    (hgo : w.what = .link ∨ s.halted core slot = false) {what : WaitFor} {i : Instr} (hwhat : w.what = what)
    (hi : w.instr = i) (he : Claims.wakers core slot l what i = some (e, act)) :
    exec e s = .next (s.takeUp core slot l w act) := by
  have hw (f : WaitFor → Bool) (hf : f w.what = true) := waitingFor_of_waiting ht hst hf hgo
  have link (va : Nat → Word) (hl : what = .link) (ha : linkAct i = some (act, va)) :
      exec (.loadReturn core slot l 0 .ok) s = .next (s.takeUp core slot l w act) := by
    rw [exec_loadReturn_of_waiting ht (hw _ (by simp [hwhat, hl])) (hi ▸ ha), takeUp_of_not_presence (by simp [hwhat, hl])]
  unfold Claims.wakers at he
  split at he
  next =>
    obtain ⟨a, ha, he⟩ := Option.map_eq_some_iff.1 he
    cases he
    rw [forPresence_eq_presenceAct, ← hi] at ha
    rw [takeUp_of_presence hwhat]
    show execPresenceWake .. = _
    simp only [execPresenceWake, hw (· = .presence) (by simp [hwhat]), ha]
  case h_2 | h_3 | h_4 | h_5 | h_6 => cases he; exact link _ rfl rfl
  all_goals cases he
  all_goals simp [waitSatisfied_runs, execWaitSatisfied, barwComplete_runs, execBarwComplete, shuttleQueueRoom_runs,
    execShuttleQueueRoom, arenaRoom_runs, execArenaRoom, takeUp_of_not_presence, hw, hi, hwhat]

/-- Each event that ends the one wait of a skein has it taken up with what its instruction does. -/
theorem exec_skeinWaker {k : Skein} (hk : s.skein core slot = some k) (hh : s.halted core slot = false)
    (hone : k.waitsFor (· = w.what) = [(l, w)]) {what : WaitFor} {i : Instr} (hwhat : w.what = what) (hi : w.instr = i)
    (he : Claims.skeinWakers core slot what i = some (e, act)) :
    exec e s = .next (s.takeUp core slot l w act) := by
  have hall (a) (hnp : what ≠ .presence) (ha : a i = some act) : s.retakeAll core slot (· = what) a =
      s.takeUp core slot l w act := by
    rw [takeUp_of_not_presence (hwhat ▸ hnp), ← hwhat, retakeAll_of_one hk hh hone (hi ▸ ha)]
  unfold Claims.skeinWakers at he
  split at he
  all_goals cases he
  all_goals exact congrArg Host.Outcome.next (hall _ nofun rfl)

end

-- THE OTHER STEPS

section
variable {s : State} {core slot l : Nat} {th : Thread} (ht : s.thread core slot l = some th)
include ht

/-- Two changes of a thread that agree on it are one. -/
theorem modThread_congr_of_thread {f g : Thread → Thread} (hfg : f th = g th) :
    s.modThread core slot l f = s.modThread core slot l g := by
  obtain ⟨k, hk, hl⟩ := Option.bind_eq_some_iff.1 ht
  have hth : laneOf k.threads l = th := by simp [laneOf, List.getD_eq_getElem?_getD, hl]
  unfold State.modThread
  rw [s.modSkein_of_some _ _ _ k hk, s.modSkein_of_some _ _ _ k hk, modAt_congr l f g _ (by rw [hth, hfg])]

/-- A strict put whose deliveries have all landed goes on. -/
theorem putStrictResolve_goes_on {w : Wait} (hst : th.st = .waiting w) (hh : s.halted core slot = false) {n : Nat}
    (hn : w.what = .putStrict n) (hp : ∀ d ∈ s.puts, d.strict ≠ some n) (hd : n ∉ s.putDrops) :
    exec (.putStrictResolve core slot l) s = .next (s.wakeLanes core slot w.lanes (th.pc + 8)) := by
  have hs : { s with putDrops := dropFrom n s.putDrops } = s := by
    rw [show dropFrom n s.putDrops = s.putDrops from List.filter_eq_self.2 fun m hm => by
      simpa using fun e : m = n => hd (e ▸ hm)]
  have hput : (s.puts.any fun d => d.strict == some n) = false := List.any_eq_false.2 fun d hd => by simpa using hp d hd
  show execPutStrictResolve core slot l s = _
  unfold execPutStrictResolve
  dsimp only
  rw [waitingFor_of_waiting ht hst ?_ (.inr hh)]
  · simp only [hn, hput, hs, Bool.false_eq_true, if_false]
    rw [retake_next ht (by simp [hn, WaitFor.blocks]) (u := s) (by simp [hd])]
  · rw [hn]

/-- A result that lands is written, its bad words marked. -/
theorem loadReturn_lands (hst : ∀ w, th.st ≠ .waiting w) {i : Nat} {h : Held} (hh : th.held[i]? = some h) :
    exec (.loadReturn core slot l i .ok) s = .next (s.modThread core slot l fun t =>
      let u := ({ t with held := t.held.eraseIdx i }).putReg h.addr h.bytes
      { u with bad := addAll h.bad u.bad }) := by
  show execLoadReturn core slot l i .ok s = _
  simp only [execLoadReturn, waitingFor_of_not_waiting _ ht hst]
  exact congrArg Host.Outcome.next (modThread_congr_of_thread ht (by simp only [hh]))

/-- A thread that no step and no debug stop waits for runs at the next word. -/
theorem wakeLanes_runs (pc : Word) (hstep : th.stepNext = none) (hstop : th.stopNext = false) :
    s.wakeLanes core slot [l] pc = s.modThread core slot l fun t => { t with st := .running, pc := pc } := by
  unfold State.wakeLanes
  simp only [List.filterMap_cons, List.filterMap_nil, ht, Option.bind_some, hstep, Option.map_none, State.raise_nil,
    List.foldl_cons, List.foldl_nil]
  exact modThread_congr_of_thread ht (by simp [Thread.wake, hstep, hstop])

end

/-- Settles O31: an event has its wait taken up, and taking it up follows from what the instruction does. -/
theorem waitingThreadsTakeUpTheirInstruction : Obligations.WaitingThreadsTakeUpTheirInstruction := by
  intro s core slot l th w
  refine ⟨fun ht hst hgo e act he => takesUp_of_retake ht (exec_waker ht hst hgo rfl rfl he),
    fun ht k e act hk hh hone he => takesUp_of_retake ht (exec_skeinWaker hk hh hone rfl rfl he),
    fun ht hst hh n hn hp hd => putStrictResolve_goes_on ht hst hh hn hp hd,
    fun ht hst i h hh => loadReturn_lands ht hst hh, fun pc ht hstep hstop => wakeLanes_runs ht pc hstep hstop⟩

end Sys2Proof.Machine
end

section
/-! The host's writes to a context (11 R300, R302, 15 R382, 19 R454, R455, R460) and to a skein's DBGRES (04 R91, R104): what
each does outside recovery, and from them O53. -/

namespace Sys2Proof.Machine

-- CTXUPD (15 R382)

/-- A run goes on with the values that it started with: those of its context, where it has no others. -/
def Context.keptBy (c : Context) (x : Run) : Run := { x with var := some (x.var.getD c.var) }

/-- The quota turns from 0 where the context is not enabled and the entry's quota is not 0. -/
theorem turns_eq (c : Context) (v : CtxVar) :
    (!c.enabled && v.quota != 0) = !decide (c.enabled = true ∨ v.quota = 0) := by
  cases c.enabled <;> simp [bne, beq_eq_decide]

theorem taken_of_lt {s : State} {ctx : Nat} (hlt : ctx < 512) (hr : (s.ctx ctx).resetting = false) :
    ¬(512 ≤ ctx ∨ (s.ctx ctx).resetting = true) := by simp [hr, hlt]

section
variable {s : State} {ctx a : Nat} (ha : s.ctxEntry ctx = some a) (hlt : ctx < 512) (hr : (s.ctx ctx).resetting = false)
include ha hlt hr

/-- A valid entry of a context that is enabled, or that it leaves disabled: its other fields are taken. -/
theorem ctxupd_keeps_fixed (hp : (s.homeRead a 256 none).2.2 = [])
    (hq : (s.ctx ctx).enabled = true ∨ (ctxVarOf (s.homeRead a 256 none).2.1).quota = 0)
    (hv : varOk (s.homeRead a 256 none).2.1 (s.ctx ctx).fix.freeSize = true) :
    s.ctxupd ctx = ((s.homeRead a 256 none).1.modRuns ctx (s.ctx ctx).keptBy).modCtx ctx fun c => { c with
      enabled := (ctxVarOf (s.homeRead a 256 none).2.1).quota != 0, fix := (s.ctx ctx).fix
      var := ctxVarOf (s.homeRead a 256 none).2.1 } := by
  simp only [State.ctxupd, ha, if_neg (taken_of_lt hlt hr), turns_eq, hq, decide_true, Bool.not_true, Bool.false_eq_true,
    if_false]
  rw [if_pos ⟨hp, hv, .inl rfl⟩]
  rfl

/-- A valid entry that turns the quota from 0 is taken whole. -/
theorem ctxupd_enables (hp : (s.homeRead a 256 none).2.2 = []) (he : (s.ctx ctx).enabled = false)
    (hq : (ctxVarOf (s.homeRead a 256 none).2.1).quota ≠ 0)
    (hv : varOk (s.homeRead a 256 none).2.1 (ctxFixedOf (s.homeRead a 256 none).2.1).freeSize = true)
    (hf : fixedOk (ctxFixedOf (s.homeRead a 256 none).2.1) = true) :
    s.ctxupd ctx = ((s.homeRead a 256 none).1.modRuns ctx (s.ctx ctx).keptBy).modCtx ctx fun c => { c with
      enabled := true, fix := ctxFixedOf (s.homeRead a 256 none).2.1, var := ctxVarOf (s.homeRead a 256 none).2.1 } := by
  have hturn : ¬((s.ctx ctx).enabled = true ∨ (ctxVarOf (s.homeRead a 256 none).2.1).quota = 0) := by simp [he, hq]
  simp only [State.ctxupd, ha, if_neg (taken_of_lt hlt hr), turns_eq, hturn, decide_false, Bool.not_false, if_true]
  rw [if_pos ⟨hp, hv, .inr hf⟩]
  simp only [bne_iff_ne.2 hq]
  rfl

/-- An entry with poison, or with fields that break the table, is refused. -/
theorem ctxupd_refuses (hbad : (s.homeRead a 256 none).2.2 ≠ [] ∨
      varOk (s.homeRead a 256 none).2.1 (if (s.ctx ctx).enabled = true ∨ (ctxVarOf (s.homeRead a 256 none).2.1).quota = 0
        then (s.ctx ctx).fix else ctxFixedOf (s.homeRead a 256 none).2.1).freeSize = false ∨
      ((s.ctx ctx).enabled = false ∧ (ctxVarOf (s.homeRead a 256 none).2.1).quota ≠ 0 ∧
        fixedOk (ctxFixedOf (s.homeRead a 256 none).2.1) = false)) :
    s.ctxupd ctx = (s.homeRead a 256 none).1.postDev { kind := 18, extra := word ctx } := by
  by_cases hq : (s.ctx ctx).enabled = true ∨ (ctxVarOf (s.homeRead a 256 none).2.1).quota = 0
  · rw [if_pos hq] at hbad
    simp only [State.ctxupd, ha, if_neg (taken_of_lt hlt hr), turns_eq, hq, decide_true, Bool.not_true, Bool.false_eq_true,
      if_false]
    refine if_neg fun ⟨hp, hv, _⟩ => ?_
    rcases hbad with h | h | ⟨he, hn, -⟩
    · exact h hp
    · exact Bool.false_ne_true (h.symm.trans hv)
    · exact hq.elim (by simp [he]) hn
  · rw [if_neg hq] at hbad
    simp only [State.ctxupd, ha, if_neg (taken_of_lt hlt hr), turns_eq, hq, decide_false, Bool.not_false, if_true]
    refine if_neg fun ⟨hp, hv, hf⟩ => ?_
    have hf := hf.resolve_left (by simp)
    rcases hbad with h | h | ⟨-, -, h⟩
    · exact h hp
    · exact Bool.false_ne_true (h.symm.trans hv)
    · exact Bool.false_ne_true (h.symm.trans hf)

end

-- THE CONTEXT'S OTHER REGISTERS

section
variable {s : State} {ctx : Nat}

/-- A frame that has room is the queue's last entry (11 R300). -/
theorem freeadd_adds {pa : Nat} (ha : pa % 4096 = 0) (hm : pa < memEnd) (hs : (s.ctx ctx).fix.freeSize ≠ 0)
    (hc : (s.ctx ctx).freeCount < 2 ^ (s.ctx ctx).fix.freeSize) :
    s.freeadd ctx pa = (s.homeWrite ((s.ctx ctx).fix.freeBase +
      8 * (((s.ctx ctx).freeHead + (s.ctx ctx).freeCount) % 2 ^ (s.ctx ctx).fix.freeSize)) (toBytes 8 pa) [] none).modCtx ctx
      fun c => { c with freeCount := c.freeCount + 1 } := by
  have hin : ¬(pa % 4096 ≠ 0 ∨ memEnd ≤ pa) := by omega
  have hroom : ¬((s.ctx ctx).fix.freeSize = 0 ∨ 2 ^ (s.ctx ctx).fix.freeSize ≤ (s.ctx ctx).freeCount) := by
    simp [hs, hc]
  rw [State.freeadd, if_neg hin, State.addFrame, if_neg hroom]
  rfl

/-- A PREEMPT write for all cores, or for a number that is allowed, sets a vacate going (11 R302). -/
theorem preempt_starts (hb : s.boot.recovery = false) (hp : (s.ctx ctx).preempting = false)
    (hr : (s.ctx ctx).resetting = false) {count : Option Nat} (hn : ∀ n ∈ count, 1 ≤ n ∧ n ≤ 72) :
    s.preempt ctx count = { s.modCtx ctx fun c => { c with preempting := true } with
      order := s.order + 1
      vacates := ins s.order { cores := [], wgs := [], host := some ctx, count := count } s.vacates } := by
  have hno : ¬(s.boot.recovery = true ∨ (s.ctx ctx).preempting = true ∨ (s.ctx ctx).resetting = true ∨
      (count.map fun n => decide (n = 0 ∨ 72 < n)).getD false = true) := by
    cases count with
    | none => simp [hb, hp, hr]
    | some n => have := hn n rfl; simp [hb, hp, hr]; omega
  rw [State.preempt, if_neg hno]

/-- A read index that is not ahead of the write index is taken (19 R454). -/
theorem setEvrd_takes {v : Nat} (hv : inRing v (s.ctx ctx).ev.rd ≤ inRing (s.ctx ctx).ev.wr (s.ctx ctx).ev.rd) :
    s.setEvrd ctx v = s.modCtx ctx fun c => { c with ev := { c.ev with rd := v } } := by
  simp [State.setEvrd, hv]

/-- A device counter written with zero is cleared (19 R454). -/
theorem clearCounters_device {i v : Nat} (hi : i < 23) (hv : v % 2 ^ 32 = 0) :
    s.clearCounters (0x800000 + 8 * i) v = { s with errors := del i s.errors } := by
  have hin : 0x800000 ≤ 0x800000 + 8 * i ∧ 0x800000 + 8 * i < 0x800000 + 8 * 23 ∧ (0x800000 + 8 * i) % 8 = 0 := by omega
  have hat : (0x800000 + 8 * i - 0x800000) / 8 = i := by omega
  rw [State.clearCounters, if_pos hin, if_pos (by simpa [bits] using hv), hat]

/-- A context without schedule entries is reset by a vacate that kills its workgroups (19 R460). -/
theorem ctxreset_kills (hb : s.boot.recovery = false) (hlt : ctx < 512) (hr : (s.ctx ctx).resetting = false)
    (hs : ∀ p ∈ s.sched, p.2.ctx ≠ ctx) :
    s.ctxreset ctx =
      let mine := (s.wgs.filter fun p => p.2.ctx == ctx).map (·.1)
      (State.modCtx { s with vacates := s.vacates.map fun p => (p.1, { p.2 with wgs := dropAll mine p.2.wgs }) } ctx fun c =>
        { c with resetting := true }).vacate { cores := [], wgs := [], host := some ctx, kill := true } mine := by
  have hsched : (s.sched.filter fun p => p.2.ctx == ctx) = [] := List.filter_eq_nil_iff.2 fun p hp => by simpa using hs p hp
  have hno : ¬(s.boot.recovery = true ∨ 512 ≤ ctx ∨ (s.ctx ctx).resetting = true) := by simp [hb, hr, hlt]
  rw [State.ctxreset, if_neg hno, hsched]
  rfl

end

-- DBGRES OF ONE PARKED THREAD (04 R91, R104, R108)

section
variable {s : State} {core slot l : Nat} {k : Skein} {mask : BitVec 32} (hk : s.skein core slot = some k)
  (hm : lanesOf mask = [l])
include hk hm

theorem dbgres_parked (hst : (laneOf k.threads l).st = .hostParked ∨ (laneOf k.threads l).st = .debugParked) {action : Nat}
    (ha : action ≠ 1) : s.dbgres core slot action mask =
      if action = 3 then (s.resume core slot l 3).settle core slot else (s.wdRestart k.wgKey).resume core slot l action := by
  have hhit : (lanesOf mask).filter (fun l => (laneOf k.threads l).st == .hostParked ||
      (laneOf k.threads l).st == .debugParked) = [l] := by simpa [hm] using hst
  unfold State.dbgres
  simp only [hk, hhit, if_neg ha, if_neg (List.cons_ne_nil l []), List.foldl_cons, List.foldl_nil]
  by_cases h3 : action = 3 <;> simp [h3]

theorem dbgres_step (hst : (laneOf k.threads l).st = .debugParked) : s.dbgres core slot 1 mask =
    ((s.wdRestart k.wgKey).modThread core slot l fun th => { th with st := .running, stopNext := false }).modSkein
      core slot fun k => { k with step := k.step ||| maskOf [l] } := by
  simp [State.dbgres, hk, hm, hst]

end

-- FAULTRES (19 R455)

theorem faultres_answers {s : State} {ctx seq : Nat} {r : Resumes} (hb : s.boot.recovery = false)
    (ho : (s.ctx ctx).ev.outstanding.find? (fun o => o.1 == seq) = some (seq, r)) (abandon : Bool) :
    s.faultres ctx seq abandon = (s.modCtx ctx fun c => { c with ev := { c.ev with
      outstanding := c.ev.outstanding.filter fun o => o.1 != seq } }).answer ctx abandon r := by
  simp [State.faultres, hb, ho]

-- OUTSIDE RECOVERY EACH EVENT IS ITS WRITE

section
variable {s : State} (hb : s.boot.recovery = false)
include hb

theorem exec_ctxupd (ctx : Nat) : exec (.ctxupd ctx) s = .next (s.ctxupd ctx) :=
  congrArg Host.Outcome.next (if_neg (Bool.eq_false_iff.1 hb))

theorem exec_freeadd (ctx : Nat) (pa : Word) : exec (.freeadd ctx pa) s = .next (s.freeadd ctx pa.toNat) :=
  congrArg Host.Outcome.next (if_neg (Bool.eq_false_iff.1 hb))

theorem exec_evrdWrite (ctx : Nat) (v : Word) : exec (.evrdWrite ctx v) s = .next (s.setEvrd ctx (v.toNat % 2 ^ 32)) :=
  congrArg Host.Outcome.next (if_neg (Bool.eq_false_iff.1 hb))

theorem exec_errorCounterClear (off : Nat) (v : Word) :
    exec (.errorCounterClear off v) s = .next (s.clearCounters off v.toNat) :=
  congrArg Host.Outcome.next (if_neg (Bool.eq_false_iff.1 hb))

theorem hostDbgres_next {core slot action : Nat} {mask : BitVec 32} {t : State}
    (ht : s.dbgres core slot action mask = t) :
    (.next (s.hostDbgres core slot action mask) : Host.Outcome State Fault Refusal) = .next t :=
  congrArg _ ((if_neg (Bool.eq_false_iff.1 hb)).trans ht)

end

/-- An abandoned fragment's replay-parked threads are host-parked (19 R455). -/
theorem answer_abandoned_fragment (s : State) (ctx g idx : Nat) (mask : BitVec 32) :
    s.answer ctx true (.fragment g idx mask) = s.modSkeinOf g idx fun k => { k with
      threads := k.threads.zipIdx.map fun t =>
        if mask.getLsbD t.2 && t.1.st == .replayParked then { t.1 with st := .hostParked } else t.1 } := rfl

/-- Settles O53: outside recovery each event is a write of the host, and each write does what its rule says. -/
theorem contextsAnswerTheHost : Obligations.ContextsAnswerTheHost := by
  intro s hb
  refine ⟨?_, ?_, ?_, ?_, ?_, ?_, ?_, ?_⟩
  · intro ctx a ha hlt hr
    rw [exec_ctxupd hb]
    exact ⟨fun hp hq hv => congrArg _ (ctxupd_keeps_fixed ha hlt hr hp hq hv),
      fun hp he hq hv hf => congrArg _ (ctxupd_enables ha hlt hr hp he hq hv hf),
      fun hbad => congrArg _ (ctxupd_refuses ha hlt hr hbad)⟩
  · intro ctx pa ha hm f hs hc
    exact (exec_freeadd hb ctx pa).trans (congrArg _ (freeadd_adds ha hm hs hc))
  · intro ctx hp hr
    exact ⟨fun n h1 h72 => congrArg Host.Outcome.next (preempt_starts hb hp hr (by rintro _ ⟨⟩; exact ⟨h1, h72⟩)),
      congrArg Host.Outcome.next (preempt_starts hb hp hr nofun)⟩
  · intro ctx v hv
    exact (exec_evrdWrite hb ctx v).trans (congrArg _ (setEvrd_takes hv))
  · intro i v hi hv
    exact (exec_errorCounterClear hb _ v).trans (congrArg _ (clearCounters_device hi hv))
  · intro ctx hlt hr hs
    exact congrArg Host.Outcome.next (ctxreset_kills hb hlt hr hs)
  · intro core slot k l mask hk hm hst
    exact ⟨hostDbgres_next hb (dbgres_parked hk hm hst (by decide)), hostDbgres_next hb (dbgres_parked hk hm hst (by decide)),
      hostDbgres_next hb (dbgres_parked hk hm hst (by decide)), fun hst => hostDbgres_next hb (dbgres_step hk hm hst)⟩
  · intro ctx seq r ho
    refine ⟨congrArg Host.Outcome.next (faultres_answers hb ho false),
      congrArg Host.Outcome.next (faultres_answers hb ho true), ?_⟩
    rintro g idx mask rfl
    exact answer_abandoned_fragment ..

end Sys2Proof.Machine
end

section
/-! The integer elements of 05 R112 to R114: what the model computes on numbers is the tables' operation on bit vectors. -/

namespace Sys2Proof.Machine

-- NUMBERS AND BIT VECTORS

@[simp] theorem ofNat_wrap (w n : Nat) : BitVec.ofNat w (wrap w n) = BitVec.ofNat w n := by
  apply BitVec.eq_of_toNat_eq
  simp [wrap]

theorem wrap_lt (w n : Nat) : wrap w n < 2 ^ w := Nat.mod_lt _ (Nat.two_pow_pos w)

@[simp] theorem ofNat_wrapInt (w : Nat) (v : Int) : BitVec.ofNat w (wrapInt w v) = BitVec.ofInt w v := by
  rw [wrapInt_eq_ofInt, BitVec.ofNat_toNat, BitVec.setWidth_eq]

theorem ofInt_sub (w : Nat) (a b : Int) : BitVec.ofInt w (a - b) = BitVec.ofInt w a - BitVec.ofInt w b := by
  rw [Int.sub_eq_add_neg, BitVec.ofInt_add, BitVec.ofInt_neg, ← BitVec.sub_eq_add_neg]

theorem ofNat_eq_iff {w n : Nat} {x : BitVec w} : BitVec.ofNat w n = x ↔ n % 2 ^ w = x.toNat := by
  rw [BitVec.toNat_eq, BitVec.toNat_ofNat]

theorem toNat_ofNat_of_lt {w n : Nat} (h : n < 2 ^ w) : (BitVec.ofNat w n).toNat = n := by
  rw [BitVec.toNat_ofNat, Nat.mod_eq_of_lt h]

theorem satInt_eq_clampTo (w : Nat) (v : Int) : BitVec.ofNat w (satInt w v) = clampTo w v := by
  have h : (1 : Int) ≤ 2 ^ (w - 1) := Int.pow_pos (by decide)
  rw [satInt, ofNat_wrapInt, clampTo]
  congr 1
  push_cast
  unfold clampInt
  omega

-- THE PAIRS OF 05 R113

/-- An operation on the numbers of two elements is an operation on their bit vectors, at every width of an element. -/
def Agrees (f : Nat → Nat → Nat → Nat) (g : (e : Nat) → BitVec e → BitVec e → BitVec e) : Prop :=
  ∀ e a b, 0 < e → a < 2 ^ e → b < 2 ^ e → BitVec.ofNat e (f e a b) = g e (BitVec.ofNat e a) (BitVec.ofNat e b)

/-- Where an operation stays within the width, its number is that of the bit vector. -/
theorem Agrees.eq_toNat {f : Nat → Nat → Nat → Nat} {g : (e : Nat) → BitVec e → BitVec e → BitVec e} (h : Agrees f g)
    {e a b : Nat} (he : 0 < e) (ha : a < 2 ^ e) (hb : b < 2 ^ e) (hf : f e a b < 2 ^ e) :
    f e a b = (g e (BitVec.ofNat e a) (BitVec.ofNat e b)).toNat := by
  rw [← h e a b he ha hb, toNat_ofNat_of_lt hf]

theorem agrees_add : Agrees (fun w a b => wrap w (a + b)) fun _ a b => a + b := fun e a b _ _ _ => by
  rw [ofNat_wrap, BitVec.ofNat_add]

theorem agrees_sub : Agrees (fun w a b => wrapInt w ((a : Int) - b)) fun _ a b => a - b := fun e a b _ _ _ => by
  rw [ofNat_wrapInt, ofInt_sub, BitVec.ofInt_natCast, BitVec.ofInt_natCast]

theorem agrees_adds : Agrees (fun w a b => satInt w (sgn w a + sgn w b)) fun e a b => clampTo e (a.toInt + b.toInt) :=
  fun e a b _ _ _ => by rw [satInt_eq_clampTo, sgn_ofNat, sgn_ofNat]

theorem agrees_subs : Agrees (fun w a b => satInt w (sgn w a - sgn w b)) fun e a b => clampTo e (a.toInt - b.toInt) :=
  fun e a b _ _ _ => by rw [satInt_eq_clampTo, sgn_ofNat, sgn_ofNat]

theorem agrees_addsn : Agrees (fun w a b => min (a + b) (2 ^ w - 1))
    fun e a b => BitVec.ofNat e (min (a.toNat + b.toNat) (2 ^ e - 1)) := fun e a b _ ha hb => by
  simp only [toNat_ofNat_of_lt ha, toNat_ofNat_of_lt hb]

theorem agrees_subsn : Agrees (fun _ a b => a - b) fun e a b => BitVec.ofNat e (a.toNat - b.toNat) := fun e a b _ ha hb => by
  simp only [toNat_ofNat_of_lt ha, toNat_ofNat_of_lt hb]

theorem agrees_mul : Agrees (fun w a b => wrap w (a * b)) fun _ a b => a * b := fun e a b _ _ _ => by
  rw [ofNat_wrap, BitVec.ofNat_mul]

theorem agrees_mulhs : Agrees (fun w a b => mulHigh w (sgn w a * sgn w b))
    fun e a b => BitVec.ofInt e (a.toInt * b.toInt / 2 ^ e) := fun e a b _ _ _ => by
  simp only [mulHigh, ofNat_wrapInt, sgn_ofNat, Int.natCast_pow, Nat.cast_ofNat]

theorem agrees_mulhn : Agrees (fun w a b => mulHigh w ((a * b : Nat) : Int))
    fun e a b => BitVec.ofNat e (a.toNat * b.toNat / 2 ^ e) := fun e a b _ ha hb => by
  simp only [mulHigh, ofNat_wrapInt, ← Int.natCast_ediv, BitVec.ofInt_natCast, toNat_ofNat_of_lt ha, toNat_ofNat_of_lt hb]

theorem agrees_mins : Agrees (fun w a b => if sgn w b < sgn w a then b else a) fun _ a b => if b.slt a then b else a :=
  fun e a b _ _ _ => by
    simp only [sgn_ofNat, apply_ite (BitVec.ofNat e), BitVec.slt_iff_toInt_lt]

theorem agrees_maxs : Agrees (fun w a b => if sgn w a < sgn w b then b else a) fun _ a b => if a.slt b then b else a :=
  fun e a b _ _ _ => by
    simp only [sgn_ofNat, apply_ite (BitVec.ofNat e), BitVec.slt_iff_toInt_lt]

theorem agrees_minn : Agrees (fun _ a b => min a b) fun _ a b => if b.ult a then b else a := fun e a b _ ha hb => by
  have h : min a b = if b < a then b else a := by split <;> omega
  simp only [h, apply_ite (BitVec.ofNat e), BitVec.ult, decide_eq_true_eq, toNat_ofNat_of_lt ha, toNat_ofNat_of_lt hb]

theorem agrees_maxn : Agrees (fun _ a b => max a b) fun _ a b => if a.ult b then b else a := fun e a b _ ha hb => by
  have h : max a b = if a < b then b else a := by split <;> omega
  simp only [h, apply_ite (BitVec.ofNat e), BitVec.ult, decide_eq_true_eq, toNat_ofNat_of_lt ha, toNat_ofNat_of_lt hb]

theorem agrees_and : Agrees (fun _ a b => Nat.land a b) fun _ a b => a &&& b := fun _ _ _ _ _ _ => BitVec.ofNat_and

theorem agrees_or : Agrees (fun _ a b => Nat.lor a b) fun _ a b => a ||| b := fun _ _ _ _ _ _ => BitVec.ofNat_or

theorem agrees_xor : Agrees (fun _ a b => Nat.xor a b) fun _ a b => a ^^^ b := fun _ _ _ _ _ _ => BitVec.ofNat_xor

theorem agrees_andn : Agrees (fun w a b => Nat.land a (2 ^ w - 1 - b)) fun _ a b => a &&& ~~~b := fun e a b _ _ hb => by
  have h : BitVec.ofNat e (2 ^ e - 1 - b) = ~~~BitVec.ofNat e b := by
    apply BitVec.eq_of_toNat_eq
    rw [BitVec.toNat_not, toNat_ofNat_of_lt hb, toNat_ofNat_of_lt (by omega)]
  simp only [← h]
  exact BitVec.ofNat_and

theorem agrees_shl : Agrees (fun w a b => wrap w (a * 2 ^ (b % w))) fun e a b => a <<< (b.toNat % e) :=
  fun e a b _ ha hb => by
    apply BitVec.eq_of_toNat_eq
    rw [ofNat_wrap, BitVec.toNat_shiftLeft, toNat_ofNat_of_lt ha, toNat_ofNat_of_lt hb, Nat.shiftLeft_eq, BitVec.toNat_ofNat]

theorem agrees_shr : Agrees (fun w a b => a / 2 ^ (b % w)) fun e a b => a >>> (b.toNat % e) := fun e a b _ ha hb => by
  apply BitVec.eq_of_toNat_eq
  rw [BitVec.toNat_ushiftRight, toNat_ofNat_of_lt ha, toNat_ofNat_of_lt hb, Nat.shiftRight_eq_div_pow,
    toNat_ofNat_of_lt (Nat.lt_of_le_of_lt (Nat.div_le_self ..) ha)]

theorem ofInt_div_two_pow {w : Nat} (x : BitVec w) (n : Nat) :
    BitVec.ofInt w (x.toInt / (2 ^ n : Nat)) = x.sshiftRight n := by
  rw [← Int.shiftRight_eq_div_pow, ← BitVec.toInt_sshiftRight, BitVec.ofInt_toInt]

theorem agrees_sar : Agrees (fun w a b => wrapInt w (sgn w a / (2 ^ (b % w) : Nat)))
    fun e a b => a.sshiftRight (b.toNat % e) := fun e a b _ _ hb => by
  simp only [ofNat_wrapInt, sgn_ofNat, ofInt_div_two_pow, toNat_ofNat_of_lt hb]

/-- The two parts of a rotation do not overlap, so their sum is their union. -/
theorem rotl_eq_toNat {e a k : Nat} (ha : a < 2 ^ e) (hk : k < e) : rotl e a k = ((BitVec.ofNat e a).rotateLeft k).toNat := by
  have hsplit : 2 ^ e = 2 ^ (e - k) * 2 ^ k := by rw [← Nat.pow_add]; congr 1; omega
  have hlow : a / 2 ^ (e - k) < 2 ^ k := by
    rw [Nat.div_lt_iff_lt_mul (Nat.two_pow_pos _), Nat.mul_comm, ← hsplit]; exact ha
  have hhigh : a * 2 ^ k % 2 ^ e = (a % 2 ^ (e - k)) <<< k := by
    rw [hsplit, Nat.mul_mod_mul_right, Nat.shiftLeft_eq]
  rw [rotl, wrap, BitVec.toNat_rotateLeft, toNat_ofNat_of_lt ha, Nat.mod_eq_of_lt hk, Nat.mod_eq_of_lt ha,
    Nat.shiftLeft_eq a, Nat.shiftRight_eq_div_pow, hhigh, Nat.shiftLeft_add_eq_or_of_lt hlow]

theorem agrees_rol : Agrees (fun w a b => rotl w a (b % w)) fun e a b => a.rotateLeft (b.toNat % e) := fun e a b he ha hb => by
  simp only [rotl_eq_toNat ha (Nat.mod_lt _ he), toNat_ofNat_of_lt hb, BitVec.ofNat_toNat, BitVec.setWidth_eq]

-- THE OPERATIONS OF 05 R114 ON ONE OPERAND

/-- An operation on the number of an element is an operation on its bit vector, at every width of an element. -/
def AgreesOn (f : Nat → Nat → Nat) (g : (e : Nat) → BitVec e → BitVec e) : Prop :=
  ∀ e a, a < 2 ^ e → BitVec.ofNat e (f e a) = g e (BitVec.ofNat e a)

theorem agrees_neg : AgreesOn (fun w a => wrapInt w (-(a : Int))) fun _ b => -b := fun e a _ => by
  rw [ofNat_wrapInt, BitVec.ofInt_neg, BitVec.ofInt_natCast]

theorem agrees_abs : AgreesOn (fun w a => wrapInt w ((sgn w a).natAbs : Int)) fun _ b => if b.toInt < 0 then -b else b :=
  fun e a _ => by
    simp only [ofNat_wrapInt, sgn_ofNat]
    split
    · next h => rw [Int.ofNat_natAbs_of_nonpos (Int.le_of_lt h), BitVec.ofInt_neg, BitVec.ofInt_toInt]
    · next h => rw [Int.natAbs_of_nonneg (Int.not_lt.1 h), BitVec.ofInt_toInt]

theorem agrees_popc : AgreesOn (fun w a => popCount w a)
    fun e b => BitVec.ofNat e ((List.range e).countP fun j => b.getLsbD j) := fun e a ha => by
  have h : ∀ j, (BitVec.ofNat e a).getLsbD j = a.testBit j := fun j => by
    rw [← BitVec.testBit_toNat, toNat_ofNat_of_lt ha]
  simp only [popCount, h, List.countP_eq_length_filter]

theorem agrees_clz : AgreesOn (fun w a => leadZeros w a)
    fun e b => BitVec.ofNat e (if b = 0 then e else e - 1 - Nat.log2 b.toNat) := fun e a ha => by
  have h : BitVec.ofNat e a = 0 ↔ a = 0 := by
    rw [ofNat_eq_iff, Nat.mod_eq_of_lt ha]; simp
  simp only [leadZeros, h, Nat.mod_eq_of_lt ha, toNat_ofNat_of_lt ha]

/-- A sum of terms that are each doubled is the sum doubled. -/
theorem foldl_add_double {α : Type} (p : α → Bool) (f g : α → Nat) : ∀ (l : List α), (∀ x ∈ l, f x = 2 * g x) → ∀ r,
    l.foldl (fun r x => if p x then r + f x else r) (2 * r) = 2 * l.foldl (fun r x => if p x then r + g x else r) r
  | [], _, _ => rfl
  | x :: l, h, r => by
    have ih := foldl_add_double p f g l (fun y hy => h y (List.mem_cons_of_mem _ hy))
    rw [List.foldl_cons, List.foldl_cons, ← ih, h x List.mem_cons_self]
    congr 1
    split <;> omega

theorem bitReverse_succ (w a : Nat) : bitReverse (w + 1) a = 2 * bitReverse w a + (a.testBit w).toNat := by
  have h := foldl_add_double a.testBit (fun j => 2 ^ (w - j)) (fun j => 2 ^ (w - 1 - j)) (List.range w) (fun j hj => by
    rw [← Nat.pow_succ']; congr 1; have := List.mem_range.1 hj; omega) 0
  unfold bitReverse
  simp only [List.range_succ, List.foldl_append, List.foldl_cons, List.foldl_nil, Nat.add_sub_cancel, ← h, Nat.sub_self]
  cases a.testBit w <;> rfl

theorem bitReverse_eq_toNat (w a : Nat) : bitReverse w a = (BitVec.ofNat w a).reverse.toNat := by
  induction w with
  | zero => rw [BitVec.toNat_of_zero_length rfl]; rfl
  | succ w ih =>
    have hlow : (BitVec.ofNat (w + 1) a).setWidth w = BitVec.ofNat w a := by
      apply BitVec.eq_of_toNat_eq
      simp
    have hmsb : (BitVec.ofNat (w + 1) a).msb = a.testBit w := by
      rw [BitVec.msb_eq_getLsbD_last, BitVec.getLsbD_ofNat]; simp
    rw [bitReverse_succ, ih, ← BitVec.concat_reverse_setWidth_msb_eq_reverse, BitVec.toNat_concat, hlow, hmsb, Nat.mul_comm]

theorem agrees_brev : AgreesOn (fun w a => bitReverse w a) fun _ b => b.reverse := fun e a _ => by
  simp only [bitReverse_eq_toNat, BitVec.ofNat_toNat, BitVec.setWidth_eq]

theorem agrees_mov : AgreesOn (fun _ a => a) fun _ b => b := fun _ _ _ => rfl

end Sys2Proof.Machine
end

section
/-! The integer operations of 05 R113 and R114: an operation whose elements agree with its table's completes, and from that O1 and
O2. -/

namespace Sys2Proof.Machine

-- FROM AN OPERATION TO ITS SPECIFICATION

theorem ok_reg {r : RegOp} {w v v' : Nat} (h : v = v') : (Except.ok [Wr.reg r w v] : Except Trap (List Wr)) = .ok [.reg r w v'] :=
  by rw [h]

theorem ok_push {b b' : Bool} (h : b = b') : (Except.ok [Wr.push b] : Except Trap (List Wr)) = .ok [.push b'] :=
  by rw [h]

/-- The operation that reads and writes what a specification names, with an evaluation. -/
def LaneSpec.toOp (p : LaneSpec) (readsPred : Bool) (eval : LaneIn → List LaneIn → Except Trap (List Wr)) : LaneOp :=
  { reads := fun _ => p.reads, dsts := fun _ => p.dsts, cost := p.cost, lat := some p.lat, readsPred := readsPred, eval := eval }

section
variable {i : Instr} {c : Ctl} {p : LaneSpec} {readsPred : Bool} {eval : LaneIn → List LaneIn → Except Trap (List Wr)}
  (hi : ∀ s, exec i s = .next (s.runLanes i c (p.toOp readsPred eval)))
include hi

/-- An instruction completes where its operation's results are those of the specification, for values that fit their registers
and participants below lane 32. -/
theorem completes_of_bounded_eval (hv : ∀ t ts, (∀ j (h : j < p.reads.length), p.reads[j].bounds (t.val j)) →
      (∀ u ∈ ts, u.lane < 32 ∧ ∀ j (h : j < p.reads.length), p.reads[j].bounds (u.val j)) →
      eval t ts = .ok (p.result t ts).toList) : p.completes i c :=
  runLanes_quiet i c (p.toOp readsPred eval) p hi rfl rfl rfl rfl rfl rfl fun t ts _ => hv t ts

/-- The same where the results agree on all values. -/
theorem completes_of_eval (hv : ∀ t ts, eval t ts = .ok (p.result t ts).toList) : p.completes i c :=
  completes_of_bounded_eval hi fun t ts _ _ => hv t ts

end

-- ELEMENTS

theorem intShape_width_pos (sub : Nat) : 0 < (intShape sub).2.1 := by
  unfold intShape
  split <;> decide

theorem zipElems_eq_onPairs {f : Nat → Nat → Nat → Nat} {g : (e : Nat) → BitVec e → BitVec e → BitVec e} (h : Agrees f g)
    {e : Nat} (he : 0 < e) (n a b : Nat) : zipElems e n (f e) a b = onPairs e n (g e) a b :=
  joinElems_zipWith (fun a b ha hb => by
    rw [ofNat_eq_iff.1 (h e a b he ha hb), Nat.mod_eq_of_lt (BitVec.isLt _)]) n a b

theorem joinElems_map_eq_onEach {f : Nat → Nat → Nat} {g : (e : Nat) → BitVec e → BitVec e} (h : AgreesOn f g) (e n a : Nat) :
    joinElems e ((elems e n a).map (f e)) = onEach e n (g e) a :=
  joinElems_map (fun a ha => by
    rw [ofNat_eq_iff.1 (h e a ha), Nat.mod_eq_of_lt (BitVec.isLt _)]) n a

/-- An operation on pairs of elements, as its table has it. -/
theorem intPairs_completes {i : Instr} {x : FmtR} {lat : Nat} {f : Nat → Nat → Nat → Nat}
    {g : (e : Nat) → BitVec e → BitVec e → BitVec e} (h : Agrees f g)
    (hi : ∀ s, exec i s = .next (s.runLanes i x.ctl (int2 x lat f))) : (LaneSpec.intPairs x lat g).completes i x.ctl := by
  have hpos := intShape_width_pos x.sub.toNat
  unfold int2 at hi
  unfold LaneSpec.intPairs
  generalize intShape x.sub.toNat = shape at *
  obtain ⟨w, e, n⟩ := shape
  exact completes_of_eval hi fun t _ => ok_reg (zipElems_eq_onPairs h hpos n (t.val 0) (t.val 1))

/-- An operation on the elements of one operand, as its table has it. -/
theorem intEach_completes {i : Instr} {x : FmtR} {f : Nat → Nat → Nat} {g : (e : Nat) → BitVec e → BitVec e}
    (h : AgreesOn f g) (hi : ∀ s, exec i s = .next (s.runLanes i x.ctl (int1 x f))) :
    (LaneSpec.intEach x 4 g).completes i x.ctl := by
  unfold int1 at hi
  unfold LaneSpec.intEach
  generalize intShape x.sub.toNat = shape at *
  obtain ⟨w, e, n⟩ := shape
  exact completes_of_eval hi fun t _ => ok_reg (joinElems_map_eq_onEach h e n (t.val 0))

/-- Settles O1: each operation of the table agrees with the model's on elements. -/
theorem integerPairsWriteTheirTable : Obligations.IntegerPairsWriteTheirTable := by
  intro x
  simp only [Claims.pairTable, List.forall_mem_cons, List.not_mem_nil, false_implies, implies_true, and_true]
  exact ⟨intPairs_completes agrees_add fun _ => rfl, intPairs_completes agrees_sub fun _ => rfl,
    intPairs_completes agrees_adds fun _ => rfl, intPairs_completes agrees_addsn fun _ => rfl,
    intPairs_completes agrees_subs fun _ => rfl, intPairs_completes agrees_subsn fun _ => rfl,
    intPairs_completes agrees_mul fun _ => rfl, intPairs_completes agrees_mulhs fun _ => rfl,
    intPairs_completes agrees_mulhn fun _ => rfl, intPairs_completes agrees_mins fun _ => rfl,
    intPairs_completes agrees_minn fun _ => rfl, intPairs_completes agrees_maxs fun _ => rfl,
    intPairs_completes agrees_maxn fun _ => rfl, intPairs_completes agrees_and fun _ => rfl,
    intPairs_completes agrees_or fun _ => rfl, intPairs_completes agrees_xor fun _ => rfl,
    intPairs_completes agrees_andn fun _ => rfl, intPairs_completes agrees_shl fun _ => rfl,
    intPairs_completes agrees_shr fun _ => rfl, intPairs_completes agrees_sar fun _ => rfl,
    intPairs_completes agrees_rol fun _ => rfl⟩

/-- Settles O2: each operation of the table agrees with the model's on elements. -/
theorem integerUnaryWritesItsTable : Obligations.IntegerUnaryWritesItsTable := by
  intro x
  simp only [Claims.eachTable, List.forall_mem_cons, List.not_mem_nil, false_implies, implies_true, and_true]
  exact ⟨intEach_completes agrees_abs fun _ => rfl, intEach_completes agrees_neg fun _ => rfl,
    intEach_completes agrees_popc fun _ => rfl, intEach_completes agrees_clz fun _ => rfl,
    intEach_completes agrees_brev fun _ => rfl, intEach_completes agrees_mov fun _ => rfl⟩

end Sys2Proof.Machine
end

section
/-! The integer operations with three sources, ADDP and the bit fields (05 R115 to R117), and from them O3. -/

namespace Sys2Proof.Machine

-- SUMS AND PRODUCTS (05 R115, R116)

theorem wrap_eq_toNat (w n : Nat) : wrap w n = (BitVec.ofNat w n).toNat := (BitVec.toNat_ofNat ..).symm

theorem sextNat_eq_signExtend (w n x : Nat) : sextNat w n x = ((BitVec.ofNat n x).signExtend w).toNat := by
  rw [sextNat, wrapInt_eq_ofInt, sgn_ofNat, BitVec.signExtend]

theorem foldl_add_eq_add_sum (c : Int) (l : List Int) : l.foldl (· + ·) c = c + l.sum := by
  induction l generalizing c with
  | nil => simp
  | cons x l ih => rw [List.foldl_cons, ih, List.sum_cons, Int.add_assoc]

/-- A sum over element pairs that are numbers is taken modulo 2^32 as it stands. -/
theorem wrapInt_add_sum (c : Nat) (f : Nat → Nat → Nat) (l m : List Nat) :
    wrapInt 32 ((l.zipWith (fun p q => (f p q : Int)) m).foldl (· + ·) (c : Int)) =
      (BitVec.ofNat 32 (c + (l.zipWith f m).sum)).toNat := by
  have h : l.zipWith (fun p q => (f p q : Int)) m = (l.zipWith f m).map fun (n : Nat) => (n : Int) := List.map_zipWith.symm
  rw [foldl_add_eq_add_sum, h, ← Nat.cast_list_sum, ← Int.natCast_add, wrapInt_eq_ofInt, BitVec.ofInt_natCast]

theorem natAbs_sub_eq (p q : Nat) : ((p : Int) - q).natAbs = max p q - min p q := by omega

/-- The elements of a product and sum, each reduced to its width. -/
theorem joinElems_mul_add (e : Nat) (l m o : List Nat) :
    joinElems e ((l.zipWith (· * ·) m).zipWith (· + ·) o) = joinElems e ((l.zip m).zipWith
      (fun p z => (BitVec.ofNat e p.1 * BitVec.ofNat e p.2 + BitVec.ofNat e z).toNat) o) := by
  have h (p q z : Nat) : (BitVec.ofNat e p * BitVec.ofNat e q + BitVec.ofNat e z).toNat = (p * q + z) % 2 ^ e := by
    rw [← BitVec.ofNat_mul, ← BitVec.ofNat_add, BitVec.toNat_ofNat]
  have hmul : l.zipWith (· * ·) m = (l.zip m).map fun p => p.1 * p.2 :=
    (List.map_zip_eq_zipWith (f := fun p : Nat × Nat => p.1 * p.2)).symm
  apply joinElems_congr
  rw [hmul, List.zipWith_map_left, List.map_zipWith, List.map_zipWith]
  simp only [h, Nat.mod_mod]

-- BIT FIELDS (05 R117)

theorem fieldOf_eq_field (w b : Nat) : fieldOf w b = Claims.field w b := by
  simp only [fieldOf, Claims.field, bits_eq, Nat.pow_zero, Nat.div_one]
  rfl

theorem toNat_ones {w len : Nat} (h : len ≤ w) : (Claims.ones w len).toNat = 2 ^ len - 1 :=
  toNat_ofNat_of_lt (by have := Nat.pow_le_pow_right (n := 2) (by decide) h; have := Nat.two_pow_pos len; omega)

theorem field_length_le (w b : Nat) : (Claims.field w b).2 ≤ w := by
  unfold Claims.field; dsimp only; omega

/-- A field of some length lies within the operand. -/
theorem field_end_le {w b : Nat} (h : (Claims.field w b).2 ≠ 0) : (Claims.field w b).1 + (Claims.field w b).2 ≤ w := by
  unfold Claims.field at *; dsimp only at *; omega

/-- BFX on numbers. -/
theorem bits_fieldOf {w v : Nat} (b : Nat) (hv : v < 2 ^ w) : bits v (fieldOf w b).1 (fieldOf w b).2 =
    ((BitVec.ofNat w v >>> (Claims.field w b).1) &&& Claims.ones w (Claims.field w b).2).toNat := by
  rw [fieldOf_eq_field, BitVec.toNat_and, BitVec.toNat_ushiftRight, toNat_ofNat_of_lt hv, toNat_ones (field_length_le ..),
    Nat.and_two_pow_sub_one_eq_mod]
  rfl

/-- BFXS on numbers. -/
theorem sext_fieldOf {w v : Nat} (b : Nat) (hv : v < 2 ^ w) :
    (if (fieldOf w b).2 = 0 then 0 else sextNat w (fieldOf w b).2 (bits v (fieldOf w b).1 (fieldOf w b).2)) =
      (((BitVec.ofNat w v >>> (Claims.field w b).1).setWidth (Claims.field w b).2).signExtend w).toNat := by
  rw [fieldOf_eq_field]
  obtain ⟨pos, len⟩ := Claims.field w b
  dsimp only
  split
  · next h => subst h; simp [BitVec.of_length_zero, BitVec.signExtend]
  · have hb : BitVec.ofNat len (bits v pos len) = (BitVec.ofNat w v >>> pos).setWidth len := by
      apply BitVec.eq_of_toNat_eq
      rw [BitVec.toNat_setWidth, BitVec.toNat_ushiftRight, toNat_ofNat_of_lt hv, toNat_ofNat_of_lt (bits_lt ..)]
      rfl
    rw [sextNat_eq_signExtend, hb]

/-- A number with a field replaced: below the field, the field and above it. -/
theorem setBits_eq (x lo n v : Nat) :
    setBits x lo n v = 2 ^ lo * (2 ^ n * (x / 2 ^ lo / 2 ^ n) + v % 2 ^ n) + x % 2 ^ lo := by
  have h1 := Nat.div_add_mod x (2 ^ lo)
  have h2 := Nat.div_add_mod (x / 2 ^ lo) (2 ^ n)
  have hx : x = 2 ^ lo * (2 ^ n * (x / 2 ^ lo / 2 ^ n)) + 2 ^ lo * (x / 2 ^ lo % 2 ^ n) + x % 2 ^ lo := by
    rw [← Nat.mul_add, h2, h1]
  rw [setBits, bits_eq, Nat.shiftLeft_eq, Nat.shiftLeft_eq, Nat.mul_add, Nat.mul_comm (x / 2 ^ lo % 2 ^ n),
    Nat.mul_comm (v % 2 ^ n)]
  omega

theorem testBit_setBits (x lo n v j : Nat) :
    (setBits x lo n v).testBit j = if lo ≤ j ∧ j < lo + n then v.testBit (j - lo) else x.testBit j := by
  rw [setBits_eq, Nat.testBit_two_pow_mul_add _ (Nat.mod_lt _ (Nat.two_pow_pos lo)),
    Nat.testBit_two_pow_mul_add _ (Nat.mod_lt _ (Nat.two_pow_pos n)), Nat.testBit_mod_two_pow, Nat.testBit_mod_two_pow,
    Nat.testBit_div_two_pow, Nat.testBit_div_two_pow]
  by_cases h1 : j < lo
  · simp [h1, Nat.not_le.2 h1]
  · by_cases h2 : j - lo < n
    · have : lo ≤ j ∧ j < lo + n := by omega
      simp [h1, h2, this]
    · have h3 : ¬(lo ≤ j ∧ j < lo + n) := by omega
      rw [if_neg h1, if_neg h2, if_neg h3]
      congr 1
      omega

theorem setBits_eq_insert {w c a pos len : Nat} (hc : c < 2 ^ w) (ha : a < 2 ^ w) (h : pos + len ≤ w) :
    setBits c pos len a = (BitVec.ofNat w c &&& ~~~(Claims.ones w len <<< pos) |||
      (BitVec.ofNat w a &&& Claims.ones w len) <<< pos).toNat := by
  have hones (j : Nat) : (Claims.ones w len).getLsbD j = decide (j < len) := by
    rw [← BitVec.testBit_toNat, toNat_ones (by omega), Nat.testBit_two_pow_sub_one]
  have hbit {v : Nat} (hv : v < 2 ^ w) (j : Nat) : (BitVec.ofNat w v).getLsbD j = v.testBit j := by
    rw [← BitVec.testBit_toNat, toNat_ofNat_of_lt hv]
  apply Nat.eq_of_testBit_eq
  intro j
  rw [testBit_setBits, BitVec.testBit_toNat]
  simp only [BitVec.getLsbD_or, BitVec.getLsbD_and, BitVec.getLsbD_not, BitVec.getLsbD_shiftLeft, hones, hbit hc, hbit ha]
  by_cases hw : j < w
  · by_cases h1 : j < pos
    · simp [hw, h1, Nat.not_le.2 h1]
    · by_cases h2 : j - pos < len
      · have : pos ≤ j ∧ j < pos + len := by omega
        simp [hw, h1, h2, this]
      · have : ¬(pos ≤ j ∧ j < pos + len) := by omega
        simp [hw, h1, h2, this]
  · have : ¬(pos ≤ j ∧ j < pos + len) := by omega
    have hcj : c.testBit j = false := Nat.testBit_lt_two_pow (Nat.lt_of_lt_of_le hc (Nat.pow_le_pow_right (by decide) (by omega)))
    simp [hw, this, hcj]

/-- BFI on numbers. -/
theorem insert_fieldOf {w c a : Nat} (b : Nat) (hc : c < 2 ^ w) (ha : a < 2 ^ w) :
    (if (fieldOf w b).2 = 0 then c else setBits c (fieldOf w b).1 (fieldOf w b).2 a) =
      (BitVec.ofNat w c &&& ~~~(Claims.ones w (Claims.field w b).2 <<< (Claims.field w b).1) |||
        (BitVec.ofNat w a &&& Claims.ones w (Claims.field w b).2) <<< (Claims.field w b).1).toNat := by
  rw [fieldOf_eq_field]
  split
  · next h => simp [h, Claims.ones, Nat.mod_eq_of_lt hc]
  · next h => exact setBits_eq_insert hc ha (field_end_le h)

/-- The shape of a bit-field operation: one element of 32 or 64 bits. -/
theorem intShape_field {x : FmtF} (h : x.sub = 0 ∨ x.sub = 1) :
    intShape (fld x.sub 0 2) = ((if x.sub = 0 then 32 else 64) / 8, if x.sub = 0 then 32 else 64, 1) := by
  obtain h | h := h <;> rw [h] <;> rfl

-- THE OPERATIONS

/-- An operation on three registers whose result is the model's on operands of their widths. -/
theorem int3_completes {i : Instr} {x : FmtF} {w wc wd lat : Nat} {f r : Nat → Nat → Nat → Nat}
    (hi : ∀ s, exec i s = .next (s.runLanes i x.ctl (int3 x w wc wd lat f)))
    (h : ∀ a b c, a < 256 ^ w → b < 256 ^ w → c < 256 ^ wc → f a b c = r a b c) :
    (LaneSpec.three x w wc wd lat 1 r).completes i x.ctl :=
  completes_of_bounded_eval hi fun _ _ hb _ =>
    ok_reg (h _ _ _ (hb 0 (Nat.zero_lt_succ 2)) (hb 1 (Nat.succ_lt_succ (Nat.zero_lt_succ 1))) (hb 2 (Nat.lt_succ_self 2)))

theorem addp_completes (x : FmtR) :
    LaneSpec.completes
      { reads := [.reg x.a 8, .mod x.b x.mod (if x.sub = 1 then 8 else 4) (.int (8 * if x.sub = 1 then 8 else 4) 1)]
        dsts := [(x.dst, 8, 1)], lat := 4
        result := fun t _ => some (.reg x.dst 8 (BitVec.ofNat 64 (t.val 0) +
          (if x.sub = 0 then (BitVec.ofNat 32 (t.val 1)).signExtend 64 else BitVec.ofNat 64 (t.val 1))).toNat) }
      (.addp x) x.ctl :=
  completes_of_eval (fun _ => rfl) fun t _ => ok_reg <| by
    rw [wrap_eq_toNat, BitVec.ofNat_add, apply_ite (BitVec.ofNat 64), sextNat_eq_signExtend, BitVec.ofNat_toNat,
      BitVec.setWidth_eq]

theorem mad_completes (x : FmtF) {w e n : Nat} (hs : intShape (fld x.sub 0 2) = (w, e, n)) :
    (LaneSpec.three x w w w 6 1 fun a b c => joinElems e (((elems e n a).zip (elems e n b)).zipWith
      (fun p z => (BitVec.ofNat e p.1 * BitVec.ofNat e p.2 + BitVec.ofNat e z).toNat) (elems e n c))).completes (.mad x) x.ctl :=
  int3_completes (fun s => by show execMad x s = _; unfold execMad; rw [hs]) fun _ _ _ _ _ _ => joinElems_mul_add ..

theorem madw_completes (x : FmtF) : (LaneSpec.three x 4 8 8 6 1 fun a b c => (if x.sub = 0 then
      (BitVec.ofNat 32 a).signExtend 64 * (BitVec.ofNat 32 b).signExtend 64 + BitVec.ofNat 64 c
    else BitVec.ofNat 64 a * BitVec.ofNat 64 b + BitVec.ofNat 64 c).toNat).completes (.madw x) x.ctl :=
  int3_completes (fun _ => rfl) fun a b c _ _ _ => by
    split
    · rw [wrapInt_eq_ofInt, BitVec.ofInt_add, BitVec.ofInt_mul, sgn_ofNat, sgn_ofNat, BitVec.ofInt_natCast]; rfl
    · rw [wrap_eq_toNat, BitVec.ofNat_add, BitVec.ofNat_mul]

/-- A sum over element pairs, added to a 32-bit value. -/
theorem sumElems_completes {i : Instr} {x : FmtF} {f : Nat → Nat → Nat → Int} {r : Nat → Nat → Nat → Nat}
    (hi : ∀ s, exec i s = .next (s.runLanes i x.ctl (sumElems x f)))
    (h : ∀ a b c : Nat, wrapInt 32 ((List.zipWith (f (intShape (fld x.sub 0 2)).2.1)
      (elems (intShape (fld x.sub 0 2)).2.1 (intShape (fld x.sub 0 2)).2.2 a)
      (elems (intShape (fld x.sub 0 2)).2.1 (intShape (fld x.sub 0 2)).2.2 b)).foldl (· + ·) (c : Int)) = r a b c) :
    (LaneSpec.three x 4 4 4 6 1 r).completes i x.ctl :=
  int3_completes hi fun a b c _ _ _ => h a b c

section
variable {x : FmtF} {w : Nat} (hs : intShape (fld x.sub 0 2) = (w / 8, w, 1)) (hw : 256 ^ (w / 8) = 2 ^ w)
include hs hw

theorem bfx_completes :
    LaneSpec.completes
      { reads := [.reg x.a (w / 8), .reg x.b (w / 8)], dsts := [(x.dst, w / 8, 1)], lat := 4
        result := fun t _ => some (.reg x.dst (w / 8) ((BitVec.ofNat w (t.val 0) >>> (Claims.field w (t.val 1)).1) &&&
          Claims.ones w (Claims.field w (t.val 1)).2).toNat) } (.bfx x) x.ctl :=
  completes_of_bounded_eval (readsPred := false)
    (fun s => by show execBfx x s = _; unfold execBfx; rw [hs]; rfl) fun t _ hb _ =>
    ok_reg (bits_fieldOf (t.val 1) (lt_of_lt_of_eq (hb 0 (Nat.zero_lt_succ 1)) hw))

theorem bfxs_completes :
    LaneSpec.completes
      { reads := [.reg x.a (w / 8), .reg x.b (w / 8)], dsts := [(x.dst, w / 8, 1)], lat := 4
        result := fun t _ => some (.reg x.dst (w / 8) (((BitVec.ofNat w (t.val 0) >>> (Claims.field w (t.val 1)).1).setWidth
          (Claims.field w (t.val 1)).2).signExtend w).toNat) } (.bfxs x) x.ctl :=
  completes_of_bounded_eval (readsPred := false)
    (fun s => by show execBfxs x s = _; unfold execBfxs; rw [hs]; rfl) fun t _ hb _ =>
    ok_reg (sext_fieldOf (t.val 1) (lt_of_lt_of_eq (hb 0 (Nat.zero_lt_succ 1)) hw))

theorem bfi_completes :
    (LaneSpec.three x (w / 8) (w / 8) (w / 8) 4 1 fun a b c =>
      (BitVec.ofNat w c &&& ~~~(Claims.ones w (Claims.field w b).2 <<< (Claims.field w b).1) |||
        (BitVec.ofNat w a &&& Claims.ones w (Claims.field w b).2) <<< (Claims.field w b).1).toNat).completes (.bfi x) x.ctl :=
  int3_completes (fun s => by show execBfi x s = _; unfold execBfi; rw [hs]) fun _ b _ ha _ hc =>
    insert_fieldOf b (hw ▸ hc) (hw ▸ ha)

end

/-- Settles O3: each operation's result on numbers is its rule's on bit vectors. -/
theorem integerThreeSourceWritesItsTable : Obligations.IntegerThreeSourceWritesItsTable := by
  refine ⟨addp_completes, fun x => mad_completes x rfl, madw_completes, fun x => ⟨?_, ?_, ?_⟩, fun x h => ?_⟩
  · exact sumElems_completes (fun _ => rfl) fun a b c => by
      simp only [foldl_add_eq_add_sum, wrapInt_eq_ofInt, sgn_ofNat]
  · exact sumElems_completes (fun _ => rfl) fun a b c => wrapInt_add_sum ..
  · exact sumElems_completes (fun _ => rfl) fun a b c => by simp only [natAbs_sub_eq, wrapInt_add_sum]
  · have hs := intShape_field h
    have hw : 256 ^ ((if x.sub = 0 then 32 else 64) / 8) = 2 ^ (if x.sub = 0 then 32 else 64) := by split <;> rfl
    exact ⟨bfx_completes hs hw, bfxs_completes hs hw, bfi_completes hs hw⟩

end Sys2Proof.Machine
end

section
/-! The immediate forms and the constants (05 R118, R119), the comparisons, the predicate operations and SEL (05 R120 to R124),
and from them O4 and O5. -/

namespace Sys2Proof.Machine

-- IMMEDIATES (05 R118)

theorem sextTo_eq_signExtend {n : Nat} (w : Nat) (x : BitVec n) : sextTo w x = (x.signExtend w).toNat := by
  rw [sextTo, wrapInt_eq_ofInt, sgn_ofNat, BitVec.ofNat_toNat, BitVec.setWidth_eq, BitVec.signExtend]

/-- The count of a shift by an immediate: sign extension leaves the low five bits. -/
theorem signExtend_toNat_mod_32 (x : BitVec 24) : (x.signExtend 32).toNat % 32 = x.toNat % 32 := by
  rw [BitVec.toNat_signExtend, BitVec.toNat_setWidth]
  split <;> omega

/-- An operation on a 32-bit operand and the immediate, as its table has it. -/
theorem intI_completes {i : Instr} {x : FmtI} {lat : Nat} {f : Nat → Nat → Nat → Nat}
    {g : (e : Nat) → BitVec e → BitVec e → BitVec e} {r : BitVec 32 → BitVec 32} (h : Agrees f g)
    (hf : ∀ a b, a < 2 ^ 32 → b < 2 ^ 32 → f 32 a b < 2 ^ 32) (hr : ∀ a, g 32 a (x.imm.signExtend 32) = r a)
    (hi : ∀ s, exec i s = .next (s.runLanes i x.ctl (intI x lat (f 32)))) :
    (LaneSpec.imm x 4 4 lat fun a => (r (BitVec.ofNat 32 a)).toNat).completes i x.ctl :=
  completes_of_bounded_eval hi fun t _ hb _ => ok_reg <| by
    have ha : t.val 0 < 2 ^ 32 := hb 0 (Nat.lt_succ_self 0)
    have hx : sextTo 32 x.imm < 2 ^ 32 := wrapInt_lt ..
    rw [h.eq_toNat (by decide) ha hx (hf _ _ ha hx), sextTo_eq_signExtend, BitVec.ofNat_toNat, BitVec.setWidth_eq, hr]

theorem immTable_completes (x : FmtI) : ∀ p ∈ Claims.immTable x,
    (LaneSpec.imm x 4 4 p.2.1 fun a => (p.2.2 (BitVec.ofNat 32 a)).toNat).completes p.1 x.ctl := by
  have hn := signExtend_toNat_mod_32 x.imm
  simp only [Claims.immTable, List.forall_mem_cons, List.not_mem_nil, false_implies, implies_true, and_true]
  exact ⟨
    intI_completes (r := fun a => a + x.imm.signExtend 32) agrees_add (fun _ _ _ _ => wrap_lt ..) (fun _ => rfl) fun _ => rfl,
    intI_completes (r := fun a => a * x.imm.signExtend 32) agrees_mul (fun _ _ _ _ => wrap_lt ..) (fun _ => rfl) fun _ => rfl,
    intI_completes (r := fun a => a &&& x.imm.signExtend 32) agrees_and (fun _ _ _ hb => Nat.and_lt_two_pow _ hb)
      (fun _ => rfl) fun _ => rfl,
    intI_completes (r := fun a => a ||| x.imm.signExtend 32) agrees_or (fun _ _ => Nat.or_lt_two_pow) (fun _ => rfl) fun _ => rfl,
    intI_completes (r := fun a => a ^^^ x.imm.signExtend 32) agrees_xor (fun _ _ => Nat.xor_lt_two_pow) (fun _ => rfl) fun _ => rfl,
    intI_completes (r := fun a => a <<< (x.imm.toNat % 32)) agrees_shl (fun _ _ _ _ => wrap_lt ..) (fun _ => by rw [hn]) fun _ => rfl,
    intI_completes (r := fun a => a >>> (x.imm.toNat % 32)) agrees_shr
      (fun _ _ ha _ => Nat.lt_of_le_of_lt (Nat.div_le_self ..) ha) (fun _ => by rw [hn]) fun _ => rfl,
    intI_completes (r := fun a => a.sshiftRight (x.imm.toNat % 32)) agrees_sar (fun _ _ _ _ => wrapInt_lt ..)
      (fun _ => by rw [hn]) fun _ => rfl⟩

-- CONSTANTS (05 R119)

theorem toNat_append_ofNat {m : Nat} (x : BitVec m) (n d : Nat) : (x ++ BitVec.ofNat n d).toNat = x.toNat * 2 ^ n + d % 2 ^ n := by
  rw [BitVec.toNat_append, BitVec.toNat_ofNat, ← Nat.shiftLeft_add_eq_or_of_lt (Nat.mod_lt _ (Nat.two_pow_pos n)),
    Nat.shiftLeft_eq]

/-- Settles O4: each result on numbers is its rule's on bit vectors. -/
theorem immediateFormsWriteTheirResults : Obligations.ImmediateFormsWriteTheirResults := by
  refine ⟨immTable_completes, fun x => ⟨?_, ?_, ?_⟩⟩
  · exact completes_of_eval (fun _ => rfl) fun _ _ => ok_reg (sextTo_eq_signExtend 32 x.imm)
  · exact completes_of_eval (fun _ => rfl) fun t _ =>
      ok_reg (toNat_append_ofNat (x.imm.extractLsb' 0 16) 16 (t.val 0)).symm
  · exact completes_of_eval (fun _ => rfl) fun _ _ => ok_reg (by rw [toNat_append_ofNat, sextTo_eq_signExtend])

-- COMPARISONS (05 R121, R122)

theorem condInt_eq_holds (code : Nat) (a b : Int) : condInt code a b = Claims.holds code a b := by
  match code with
  | 0 | 1 | 2 | 3 | 4 | 5 | _ + 6 => rfl

/-- A comparison of two registers, under the reading of numbers that it compares. -/
theorem cmpOp_completes {i : Instr} {x : FmtR} {f : Nat → Nat → Int} {g : Nat → Int}
    (hi : ∀ s, exec i s = .next (s.runLanes i x.ctl (cmpOp x f)))
    (h : ∀ v, f (8 * if fld x.mod 3 1 = 1 then 8 else 4) v = g v) :
    LaneSpec.completes
      { reads := [.reg x.a (if fld x.mod 3 1 = 1 then 8 else 4), .reg x.b (if fld x.mod 3 1 = 1 then 8 else 4)], dsts := [], lat := 4
        result := fun t _ => some (.push (Claims.holds (fld x.mod 0 3) (g (t.val 0)) (g (t.val 1)))) } i x.ctl :=
  completes_of_eval hi fun _ _ => ok_push (by rw [condInt_eq_holds, h, h])

-- PREDICATES (05 R123)

theorem predAt_eq_xor (p : BitVec 8) (k : Nat) (inv : Bool) : predAt p k inv = (p.getLsbD k ^^ inv) := by
  cases inv <;> simp [predAt]

/-- Two predicates, each inverted on request, combined and pushed. -/
theorem predOp_completes {i : Instr} {x : FmtR} {f : Bool → Bool → Bool}
    (hi : ∀ s, exec i s = .next (s.runLanes i x.ctl (predOp x f))) :
    LaneSpec.completes
      { reads := [], dsts := [], lat := 4
        result := fun t _ => some (.push (f (t.pred.getLsbD (fld x.a 0 3) ^^ x.sub.getLsbD 0)
          (t.pred.getLsbD (fld x.b 0 3) ^^ x.sub.getLsbD 1))) } i x.ctl :=
  completes_of_eval hi fun _ _ => ok_push (by rw [predAt_eq_xor, predAt_eq_xor])

/-- Settles O5: the comparisons, the predicates that are combined, and the operations whose result is their rule's as it stands. -/
theorem predicatesAndComparisonsFollowTheirRules : Obligations.PredicatesAndComparisonsFollowTheirRules := by
  refine ⟨fun x => ⟨?_, ?_⟩, fun x => ⟨?_, ?_⟩, fun x => ⟨?_, ?_, ?_, ?_, ?_, ?_, ?_, ?_, ?_, ?_⟩⟩
  · -- CMPS
    exact cmpOp_completes (g := fun v => (BitVec.ofNat (8 * if fld x.mod 3 1 = 1 then 8 else 4) v).toInt) (fun _ => rfl)
      (sgn_ofNat _)
  · -- CMPN
    exact cmpOp_completes (g := fun v => (v : Int)) (fun _ => rfl) fun _ => rfl
  · -- CMPSI
    exact completes_of_eval (fun _ => rfl) fun t _ =>
      ok_push (by rw [condInt_eq_holds, sgn_ofNat, sgn_ofNat, BitVec.ofNat_toNat, BitVec.setWidth_eq])
  · -- CMPNI
    exact completes_of_eval (fun _ => rfl) fun t _ => ok_push (condInt_eq_holds ..)
  · -- NOP
    exact completes_of_eval (fun _ => rfl) fun _ _ => rfl
  · -- PAND
    exact predOp_completes (f := (· && ·)) fun _ => rfl
  · -- POR
    exact predOp_completes (f := (· || ·)) fun _ => rfl
  · -- PXOR
    exact predOp_completes (f := xor) fun _ => rfl
  · -- PNOT
    exact completes_of_eval (fun _ => rfl) fun t _ => ok_push ((predAt_eq_xor ..).trans (Bool.xor_true _))
  · -- PPOP
    exact completes_of_eval (fun _ => rfl) fun _ _ => rfl
  · -- PPUSH
    exact completes_of_eval (fun _ => rfl) fun t _ => ok_push (by simp [bne, beq_eq_decide])
  · -- PMOV.get
    exact completes_of_eval (fun _ => rfl) fun _ _ => rfl
  · -- PMOV.set
    exact completes_of_eval (fun _ => rfl) fun _ _ => rfl
  · -- SEL
    exact completes_of_eval (fun _ => rfl) fun _ _ => rfl

end Sys2Proof.Machine
end

section
/-! The skein-wide operations (05 R125 to R129): masks, combinations of the participants' values, and from them O6. -/

namespace Sys2Proof.Machine

-- MASKS (05 R126, R129)

theorem foldl_ballot_eq_add_sum (f : LaneIn → Bool) (ts : List LaneIn) (r : Nat) :
    ts.foldl (fun m t => if f t then m + 2 ^ t.lane else m) r = r + ((ts.filter f).map fun t => 2 ^ t.lane).sum := by
  induction ts generalizing r with
  | nil => rfl
  | cons t ts ih =>
    rw [List.foldl_cons, ih, List.filter_cons]
    split
    · rw [List.map_cons, List.sum_cons, Nat.add_assoc]
    · rfl

theorem ballot_eq_sum (ts : List LaneIn) (f : LaneIn → Bool) : ballot ts f = ((ts.filter f).map fun t => 2 ^ t.lane).sum := by
  rw [ballot, foldl_ballot_eq_add_sum, Nat.zero_add]

-- COMBINATIONS (05 R128)

/-- An operation on numbers of w bits with its identity is one on bit vectors with its own. -/
def Combines (w : Nat) (f : (Nat → Nat → Nat) × Nat) (g : (BitVec w → BitVec w → BitVec w) × BitVec w) : Prop :=
  f.2 = g.2.toNat ∧ ∀ a b, a < 2 ^ w → b < 2 ^ w → f.1 a b = (g.1 (BitVec.ofNat w a) (BitVec.ofNat w b)).toNat

/-- The operations of SCAN and RDUC are those of their table. -/
theorem scanOp_combines {w : Nat} (hw : 0 < w) (code : Nat) : Combines w (scanOp code w) (Claims.combine w code) := by
  have hone : 2 ^ w - 1 < 2 ^ w := Nat.sub_one_lt (Nat.two_pow_pos w).ne'
  match code with
  | 0 => exact ⟨rfl, fun a b ha hb => agrees_add.eq_toNat hw ha hb (wrap_lt ..)⟩
  | 1 => exact ⟨BitVec.toNat_intMax.symm, fun a b ha hb => agrees_mins.eq_toNat hw ha hb (by split <;> assumption)⟩
  | 2 => exact ⟨BitVec.toNat_allOnes.symm, fun a b ha hb => agrees_minn.eq_toNat hw ha hb (Nat.lt_of_le_of_lt (Nat.min_le_left ..) ha)⟩
  | 3 => exact ⟨(BitVec.toNat_intMin_of_pos hw).symm, fun a b ha hb => agrees_maxs.eq_toNat hw ha hb (by split <;> assumption)⟩
  | 4 => exact ⟨rfl, fun a b ha hb => agrees_maxn.eq_toNat hw ha hb (Nat.max_lt.2 ⟨ha, hb⟩)⟩
  | 5 => exact ⟨BitVec.toNat_allOnes.symm, fun a b ha hb => agrees_and.eq_toNat hw ha hb (Nat.and_lt_two_pow _ hb)⟩
  | 6 => exact ⟨rfl, fun a b ha hb => agrees_or.eq_toNat hw ha hb (Nat.or_lt_two_pow ha hb)⟩
  | 7 | _ + 8 => exact ⟨rfl, fun a b ha hb => agrees_xor.eq_toNat hw ha hb (Nat.xor_lt_two_pow ha hb)⟩

/-- The combination of values of w bits is that of their bit vectors. -/
theorem Combines.foldl_eq {w : Nat} {f : (Nat → Nat → Nat) × Nat} {g : (BitVec w → BitVec w → BitVec w) × BitVec w}
    (h : Combines w f g) (ts : List LaneIn) (hts : ∀ t ∈ ts, t.val 0 < 2 ^ w) :
    ts.foldl (fun a t => f.1 a (t.val 0)) f.2 = ((ts.map fun t => BitVec.ofNat w (t.val 0)).foldl g.1 g.2).toNat := by
  have main (r : BitVec w) : ts.foldl (fun a t => f.1 a (t.val 0)) r.toNat =
      ((ts.map fun t => BitVec.ofNat w (t.val 0)).foldl g.1 r).toNat := by
    induction ts generalizing r with
    | nil => rfl
    | cons t ts ih =>
      have hstep := h.2 r.toNat (t.val 0) r.isLt (hts t List.mem_cons_self)
      rw [BitVec.ofNat_toNat, BitVec.setWidth_eq] at hstep
      rw [List.foldl_cons, List.map_cons, List.foldl_cons, hstep]
      exact ih (fun u hu => hts u (List.mem_cons_of_mem _ hu)) _
  rw [h.1, main]

/-- What a participant reads fits the operand's width. -/
theorem val_lt_of_bounds {r : RegOp} {w : Nat} {t : LaneIn} (hb : (Rd.reg r w).bounds (t.val 0)) : t.val 0 < 2 ^ (8 * w) := by
  rw [Nat.pow_mul]
  exact hb

/-- Up to lane 32 are all participants, whose lanes are below 32. -/
theorem scanTo_32 (f : Nat → Nat → Nat) (e : Nat) {ts : List LaneIn} (h : ∀ t ∈ ts, t.lane < 32) :
    scanTo f e ts 32 false = ts.foldl (fun a t => f a (t.val 0)) e := by
  unfold scanTo
  rw [List.filter_eq_self.2 fun t ht => by simp [h t ht]]

section
variable (x : FmtR) {w : Nat} (hw : (if x.sub = 0 then 4 else 8) = w)
include hw

theorem scan_completes (hpos : 0 < w) :
    LaneSpec.completes
      { reads := [.reg x.b w], dsts := [(x.dst, w, 1)], lat := 8
        result := fun t ts => some (.reg x.dst w ((((ts.filter fun u =>
            decide (u.lane < t.lane) || (fld x.a 3 1 == 0 && u.lane == t.lane)).map fun t => BitVec.ofNat (8 * w) (t.val 0)).foldl
          (Claims.combine (8 * w) (fld x.a 0 3)).1 (Claims.combine (8 * w) (fld x.a 0 3)).2).toNat)) } (.scan x) x.ctl :=
  completes_of_bounded_eval (readsPred := false)
    (fun s => by show execScan x s = _; unfold execScan; rw [hw]; rfl) fun t ts _ hts =>
    ok_reg ((scanOp_combines (by omega) (fld x.a 0 3)).foldl_eq _ fun u hu =>
        val_lt_of_bounds ((hts u (List.mem_of_mem_filter hu)).2 0 (Nat.lt_succ_self 0)))

theorem rduc_completes (hpos : 0 < w) :
    LaneSpec.completes
      { reads := [.reg x.b w], dsts := [(x.dst, w, 1)], lat := 8
        result := fun _ ts => some (.reg x.dst w (((ts.map fun t => BitVec.ofNat (8 * w) (t.val 0)).foldl
          (Claims.combine (8 * w) (fld x.a 0 3)).1 (Claims.combine (8 * w) (fld x.a 0 3)).2).toNat)) } (.rduc x) x.ctl :=
  completes_of_bounded_eval (readsPred := false)
    (fun s => by show execRduc x s = _; unfold execRduc; rw [hw]; rfl) fun t ts _ hts =>
    ok_reg ((scanTo_32 _ _ fun u hu => (hts u hu).1).trans ((scanOp_combines (by omega) (fld x.a 0 3)).foldl_eq _ fun u hu =>
        val_lt_of_bounds ((hts u hu).2 0 (Nat.lt_succ_self 0))))

end

theorem vote_completes (x : FmtR) :
    LaneSpec.completes
      { reads := [], dsts := if x.sub = 2 then [(x.dst, 4, 1)] else [], lat := 8
        result := fun t ts => some (match x.sub.toNat with
          | 0 => .push (ts.all fun t => t.pred.getLsbD (fld x.a 0 3))
          | 1 => .push (ts.any fun t => t.pred.getLsbD (fld x.a 0 3))
          | 2 => .reg x.dst 4 ((ts.filter fun t => t.pred.getLsbD (fld x.a 0 3)).map fun t => 2 ^ t.lane).sum
          | _ => .push (ts.all fun u => u.pred.getLsbD (fld x.a 0 3) == t.pred.getLsbD (fld x.a 0 3))) } (.vote x) x.ctl :=
  completes_of_eval (fun _ => rfl) fun t ts =>
    congrArg (fun v => Except.ok [v]) <| by
      match x.sub.toNat with
      | 0 | 1 | _ + 3 => rfl
      | 2 => exact congrArg (Wr.reg x.dst 4) (ballot_eq_sum ..)

/-- Settles O6: the masks are sums of the lanes' bits, and the combinations are those of the table over the participants. -/
theorem skeinWideOperationsCombineTheParticipants : Obligations.SkeinWideOperationsCombineTheParticipants := by
  intro x
  have hpos : 0 < if x.sub = 0 then 4 else 8 := by split <;> decide
  refine ⟨vote_completes x, ?_, scan_completes x rfl hpos, rduc_completes x rfl hpos, ?_⟩
  · -- PERM
    exact completes_of_eval (fun _ => rfl) fun _ _ => rfl
  · -- MATCH
    exact completes_of_eval (fun _ => rfl) fun t ts => ok_reg (ballot_eq_sum ..)

end Sys2Proof.Machine
end

section
/-! Branches (05 R130 to R134, 03 R61): what the one thread's branch does where its target is good and where it is not, and from
them O12. -/

namespace Sys2Proof.Machine

/-- A target of permitted bits whose word is a header or cannot be fetched is good; the fetch has been made. -/
theorem badTarget_of_target {s : State} {is : Issue} {k : Skein} {user : Bool} {a : Word} (h : Claims.target s is k user a) :
    s.badTarget is.core k.ctx a user = ((s.fetch is.core k.ctx a user).1, false) := by
  obtain ⟨hlt, hmod, hhead⟩ := h
  unfold State.badTarget
  rw [if_neg (by omega)]
  rcases hf : s.fetch is.core k.ctx a user with ⟨u, _ | w⟩
  · rfl
  · rw [hf] at hhead
    simp [hhead w rfl]

theorem badTarget_of_bits {s : State} {core ctx : Nat} {user : Bool} {a : Word} (h : 2 ^ 52 ≤ a.toNat ∨ a.toNat % 8 ≠ 0) :
    s.badTarget core ctx a user = (s, true) := if_pos h

theorem badTarget_of_word {s : State} {core ctx : Nat} {user : Bool} {a w : Word} (hlt : a.toNat < 2 ^ 52)
    (hmod : a.toNat % 8 = 0) (hw : (s.fetch core ctx a user).2 = .ok w) (hh : isHeader w = false) :
    s.badTarget core ctx a user = ((s.fetch core ctx a user).1, true) := by
  unfold State.badTarget
  rw [if_neg (by omega)]
  rcases hf : s.fetch core ctx a user with ⟨u, _ | v⟩
  · rw [hf] at hw; cases hw
  · rw [hf] at hw
    cases hw
    simp [hh]

/-- The target of a branch by an offset (05 R130). -/
theorem offsetTarget_eq (x : FmtC) (s : State) (is : Issue) (l : Nat) (li : LaneIn) :
    offsetTarget x (siteOf s is l) li = is.pc + 8 * x.off.signExtend 64 := by
  show is.pc + word (8 * sextTo 64 x.off) = _
  rw [word_mul, sext_word]
  rfl

/-- The state that a branch's effect leaves: the target fetched, and LINK owed where the branch links. -/
def State.branched (s : State) (is : Issue) (k : Skein) (l : Nat) (link : Bool) (a : Word) : State :=
  let u := (s.fetch is.core k.ctx a (!(laneOf k.threads l).sup)).1
  if link then u.modThread is.core is.slot l fun t => { t with pend := t.pend ++ [{ due := s.cycle + 4, what := .link k.blkEnd }] }
  else u

section
variable {x : FmtC} {s : State} {is : Issue} {k : Skein} {l : Nat} (h : s.poisedOne is k x.ctl l)
include h

theorem fetch_skein (a : Word) (user : Bool) :
    (s.fetch is.core k.ctx a user).1.skein is.core is.slot = some k := by
  rw [((State.memOnly.refl s).fetch ..).skein]
  exact (poised_skein h).1

/-- LINK is owed to a thread to which nothing else is (05 R133). -/
theorem pendLink_quiet {u : State} (hk : u.skein is.core is.slot = some k) (due : Nat) (w : Word) :
    (u.modThread is.core is.slot l fun th => th.pendLink due w) =
      u.modThread is.core is.slot l fun th => { th with pend := th.pend ++ [{ due := due, what := .link w }] } := by
  obtain ⟨hq, -, -, -⟩ := poised_quietOne h
  unfold State.modThread
  rw [u.modSkein_of_some _ _ _ k hk, u.modSkein_of_some _ _ _ k hk]
  congr 2
  exact modAt_congr _ _ _ _ (by simp [Thread.pendLink, hq, dueAfter])

/-- A branch of the one thread to a good target. -/
theorem branchRun_of_target {target : Site → LaneIn → Word} (link : Bool) {li : LaneIn} {a : Word}
    (ha : target (siteOf s is l) li = a) (hg : Claims.target s is k (!(laneOf k.threads l).sup) a) :
    branchRun target link (siteOf s is l) li s = (s.branched is k l link a, .jump a) := by
  unfold branchRun State.branched
  rw [site_thread h, ha]
  simp only [siteOf, (poised_skein h).1, badTarget_of_target hg, List.foldl_cons, List.foldl_nil,
    pendLink_quiet h (fetch_skein h ..)]

theorem branchRun_of_bad {target : Site → LaneIn → Word} (link : Bool) {li : LaneIn} {a : Word} {u : State}
    (ha : target (siteOf s is l) li = a)
    (hb : s.badTarget is.core k.ctx a (!(laneOf k.threads l).sup) = (u, true)) :
    branchRun target link (siteOf s is l) li s = (u, .trap { cause := .badTarget, addr := a }) := by
  unfold branchRun
  rw [site_thread h, ha]
  simp only [siteOf, (poised_skein h).1, hb]

variable {i : Instr} {rd : Views → List Rd} {readsLink link : Bool} {target : Site → LaneIn → Word} {a : Word}
  (hi : exec i s = .next (s.runEach i x.ctl x.ctl.stall false
    { reads := rd, readsLink := readsLink, run := branchRun target link }))
  (hr : (laneOf k.threads l).has k.alloc ((rd (laneOf k.threads l).views).flatMap Rd.ops))
  (ha : target (siteOf s is l) (oneInput { reads := rd, readsLink := readsLink } s k l) = a)
include hi hr ha

theorem branched_ends (hg : Claims.target s is k (!(laneOf k.threads l).sup) a) :
    ∃ t, exec i s = .next t ∧ (s.branched is k l link a).endsAs t i is l (.jump a) := by
  have hk := fetch_skein h a (!(laneOf k.threads l).sup)
  have hcalm : ∃ k', (s.branched is k l link a).skein is.core is.slot = some k' ∧ k'.calm := by
    unfold State.branched
    cases link
    · exact ⟨k, hk, (poised_skein h).2⟩
    · exact ⟨_, (State.skein_modThread_self ..).trans (congrArg _ hk), (poised_skein h).2⟩
  exact one_ends i x.ctl x.ctl.stall false _ s is k l h hi rfl (has_nil _ _) hr _ (.jump a)
    (branchRun_of_target h link ha hg) nofun hcalm

/-- A branch to any other target takes BAD_TARGET. -/
theorem branch_badTargets : Claims.badTargets s i is k l a :=
  ⟨fun hb => runEach_trap i x.ctl x.ctl.stall false _ s is k l h hi rfl (has_nil _ _) hr { cause := .badTarget, addr := a } s
      (poised_skein h).1 (branchRun_of_bad h link ha (badTarget_of_bits hb)) rfl nofun rfl,
    fun hlt hmod w hw hh => runEach_trap i x.ctl x.ctl.stall false _ s is k l h hi rfl (has_nil _ _) hr
      { cause := .badTarget, addr := a } _ (fetch_skein h ..) (branchRun_of_bad h link ha (badTarget_of_word hlt hmod hw hh)) rfl
      nofun rfl⟩

end

section
variable {x : FmtC} {s : State} {is : Issue} {k : Skein} {l : Nat} (h : s.poisedOne is k x.ctl l)
include h

theorem regTarget_eq : regTarget (siteOf s is l) (oneInput { reads := targetRead x } s k l) =
    word ((laneOf k.threads l).reg x.reg 8) :=
  congrArg word (val_at h { reads := targetRead x } 0 x.reg 8 rfl)

variable {i : Instr} {rd : Views → List Rd} {readsLink : Bool} {target : Site → LaneIn → Word} {a : Word}
  (hr : (laneOf k.threads l).has k.alloc ((rd (laneOf k.threads l).views).flatMap Rd.ops))
  (ha : target (siteOf s is l) (oneInput { reads := rd, readsLink := readsLink } s k l) = a)
  (hg : Claims.target s is k (!(laneOf k.threads l).sup) a)
include hr ha hg

/-- A branch that does not link leaves the state in which its target has been fetched. -/
theorem jump_completes (hi : exec i s = .next (s.runEach i x.ctl x.ctl.stall false
      { reads := rd, readsLink := readsLink, run := branchRun target false })) :
    ∃ t, exec i s = .next t ∧ (s.fetch is.core k.ctx a (!(laneOf k.threads l).sup)).1.endsAs t i is l (.jump a) :=
  branched_ends h hi hr ha hg

/-- A branch that links owes the thread its LINK besides. -/
theorem call_completes (hi : exec i s = .next (s.runEach i x.ctl x.ctl.stall false
      { reads := rd, readsLink := readsLink, run := branchRun target true })) :
    ∃ t, exec i s = .next t ∧ ((s.fetch is.core k.ctx a (!(laneOf k.threads l).sup)).1.modThread is.core is.slot l fun t =>
      { t with pend := t.pend ++ [{ due := s.cycle + 4, what := .link k.blkEnd }] }).endsAs t i is l (.jump a) :=
  branched_ends h hi hr ha hg

end

/-- Settles O12: each branch is one with its own target, which completes where the target is good and faults where it is not. -/
theorem branchesTransferControl : Obligations.BranchesTransferControl := by
  intro x s is k l h th rel reg good at_ linked
  have hoff (li : LaneIn) : offsetTarget x (siteOf s is l) li = rel := offsetTarget_eq x s is l li
  have hreg := regTarget_eq h
  refine ⟨?_, ?_, ?_, fun hr hg => ⟨?_, ?_⟩, fun a => (State.memOnly.refl s).fetch .., ?_, ?_, ?_, fun hr => ⟨?_, ?_⟩⟩
  · exact fun hg => jump_completes h (has_nil _ _) (hoff _) hg rfl
  · exact fun hg => call_completes h (has_nil _ _) (hoff _) hg rfl
  · exact fun hg => jump_completes h (a := th.link) (has_nil _ _) rfl hg rfl
  · exact jump_completes h (rd := targetRead x) hr hreg hg rfl
  · exact call_completes h (rd := targetRead x) hr hreg hg rfl
  · exact branch_badTargets h (link := false) (a := rel) rfl (has_nil _ _) (hoff _)
  · exact branch_badTargets h (link := true) (a := rel) rfl (has_nil _ _) (hoff _)
  · exact branch_badTargets h (link := false) (a := th.link) rfl (has_nil _ _) rfl
  · exact branch_badTargets h (link := false) (a := reg) rfl hr hreg
  · exact branch_badTargets h (link := true) (a := reg) rfl hr hreg

end Sys2Proof.Machine
end

section
/-! Threads that end and wait (05 R135 to R137, 04 R94): the four instructions of one thread, the end of a sleep, the end of a
skein, and from them O13. -/

namespace Sys2Proof.Machine

-- EXIT, YIELD, SLEEP, BAR

section
variable {x : FmtC} {s : State} {is : Issue} {k : Skein} {l : Nat} (h : s.poisedOne is k x.ctl l)
include h

theorem settleIssue_of_poised (t : State) : s.settleIssue t = t.settle is.core is.slot := by
  obtain ⟨⟨hi, -⟩, -⟩ := h
  simp only [State.settleIssue, hi]

theorem exit_ends : ∃ t, exec (.exit x) s = .next (t.settle is.core is.slot) ∧
    (s.modThread is.core is.slot l Thread.exit).endsAs t (.exit x) is l .moved :=
  ⟨_, congrArg Host.Outcome.next (settleIssue_of_poised h _),
    each_ends _ _ _ _ _ s is k l h rfl (has_nil _ _) (has_nil _ _) _ _ rfl nofun (modThread_calm h _)⟩

theorem bar_waits : ∃ t, exec (.bar x) s = .next (t.settle is.core is.slot) ∧
    (s.drainTo is.core is.slot 1).endsAs t (.bar x) is l (.wait .bar []) :=
  ⟨_, congrArg Host.Outcome.next (settleIssue_of_poised h _),
    each_ends _ _ _ _ _ s is k l h rfl (has_nil _ _) (has_nil _ _) _ _ rfl nofun
      (poised_calm h ((State.stills.refl s).drainTo ..))⟩

/-- An instruction of the one thread that ends the run. -/
theorem ends_with_run {i : Instr} {op : SeqOp} (hi : exec i s = .next (s.runEach i x.ctl x.ctl.stall true op))
    (hd : op.denied (laneOf k.threads l) = false) (h1 : op.dsts (laneOf k.threads l).views = [])
    (h2 : op.reads (laneOf k.threads l).views = []) (h3 : op.illegal (laneOf k.threads l).views = false)
    (h4 : op.names (laneOf k.threads l).views = []) {u : State} {f : Fate}
    (hr : op.run (siteOf s is l) (oneInput op.toOp s k l) s = (u, f)) (hf : ∀ t, f ≠ .trap t)
    (hu : ∃ k', u.skein is.core is.slot = some k' ∧ k'.calm) :
    ∃ t, exec i s = .next t ∧ ((t.core is.core).pipe (is.slot / 8)).run = none ∧ u.endsAs t i is l f := by
  have hd1 : (laneOf k.threads l).has k.alloc (op.dsts (laneOf k.threads l).views) := h1 ▸ has_nil _ _
  have hd2 : (laneOf k.threads l).has k.alloc ((op.reads (laneOf k.threads l).views).flatMap Rd.ops) := h2 ▸ has_nil _ _
  have hd4 : (laneOf k.threads l).has k.alloc (op.names (laneOf k.threads l).views) := h4 ▸ has_nil _ _
  exact ⟨_, hi, each_ends_run i _ _ op s is k l h hd hd1 hd2 u f hr hf hu h3 hd4,
    each_ends i _ _ _ op s is k l h hd hd1 hd2 u f hr hf hu h3 hd4⟩

theorem yielded_calm :
    ∃ k', (s.modSkein is.core is.slot fun k => { k with yielded := true }).skein is.core is.slot = some k' ∧ k'.calm := by
  obtain ⟨hk, hc⟩ := poised_skein h
  exact ⟨_, (State.skein_modSkein_self ..).trans (congrArg _ hk), hc⟩

theorem yield_ends : ∃ t, exec (.yield x) s = .next t ∧ ((t.core is.core).pipe (is.slot / 8)).run = none ∧
    (s.modSkein is.core is.slot fun k => { k with yielded := true }).endsAs t (.yield x) is l .next :=
  ends_with_run h rfl rfl rfl rfl rfl rfl rfl nofun (yielded_calm h)

theorem sleep_ends : ∃ t, exec (.sleep x) s = .next t ∧ ((t.core is.core).pipe (is.slot / 8)).run = none ∧
    if x.imm = 0 then (s.modSkein is.core is.slot fun k => { k with yielded := true }).endsAs t (.sleep x) is l .next
    else s.endsAs t (.sleep x) is l (.wait (.sleep (s.cycle + 64 * x.imm.toNat)) []) := by
  split
  · next h0 => exact ends_with_run h rfl rfl rfl rfl rfl rfl (if_pos h0) nofun (yielded_calm h)
  · next h0 => exact ends_with_run h rfl rfl rfl rfl rfl rfl (if_neg h0) nofun ⟨k, poised_skein h⟩

end

-- THE END OF A SLEEP

section
variable {s : State} {core slot l : Nat} {th : Thread} (ht : s.thread core slot l = some th)
include ht

/-- A thread whose wait has ended goes on or is parked, and its step is raised where one waits for it. -/
theorem wakeLanes_one (pc : Word) : s.wakeLanes core slot [l] pc =
    (s.modThread core slot l fun t => { t with
      st := if th.stopNext then .debugParked else .running, stopNext := false, pc := pc, stepNext := none }).raise core slot pc 0
      (th.stepNext.map fun a => (l, { cause := .step, info := some a })).toList := by
  have hmod : (s.modThread core slot l fun t => { t.wake with pc := pc, stepNext := none }) =
      s.modThread core slot l fun t => { t with
        st := if th.stopNext then .debugParked else .running, stopNext := false, pc := pc, stepNext := none } :=
    modThread_congr_of_thread ht (by unfold Thread.wake; cases hn : th.stopNext <;> simp)
  have hsteps : ([l].filterMap fun l => ((s.thread core slot l).bind (·.stepNext)).map fun a =>
      (l, ({ cause := .step, info := some a } : Trap))) =
      (th.stepNext.map fun a => (l, { cause := .step, info := some a })).toList := by
    simp only [List.filterMap_cons, List.filterMap_nil, ht, Option.bind_some]
    cases th.stepNext <;> rfl
  unfold State.wakeLanes
  dsimp only
  rw [hsteps, List.foldl_cons, List.foldl_nil, hmod]

variable {w : Wait} {c : Nat} (hst : th.st = .waiting w) (hw : w.what = .sleep c)
include hst hw

theorem exec_sleepWake : exec (.sleepWake core slot l) s =
    .next (if c ≤ s.cycle ∧ (!s.halted core slot) = true then s.wakeAt core slot l (th.pc + 8) else s) := by
  show execSleepWake core slot l s = _
  simp only [execSleepWake, ht, hst, hw]

/-- A sleep lasts to its cycle, and while its skein is being vacated. -/
theorem sleepWake_waits (hc : s.cycle < c ∨ s.halted core slot = true) : exec (.sleepWake core slot l) s = .next s := by
  rw [exec_sleepWake ht hst hw, if_neg]
  rintro ⟨hle, hgo⟩
  rw [Bool.not_eq_true'] at hgo
  obtain hc | hc := hc
  · omega
  · rw [hgo] at hc; cases hc

theorem sleepWake_wakes (hc : c ≤ s.cycle) (hgo : s.halted core slot = false) : exec (.sleepWake core slot l) s =
    .next (s.wakeLanes core slot [l] (th.pc + 8)) := by
  rw [exec_sleepWake ht hst hw, if_pos ⟨hc, by rw [hgo]; rfl⟩, State.wakeAt]

end

-- THE END OF A SKEIN (05 R135)

section
variable {s : State} {core slot : Nat}

theorem skein_clearSlot (s : State) (c l core slot : Nat) : (s.clearSlot c l).skein core slot =
    if slotKey core slot = slotKey c l then none else s.skein core slot := look_del ..

/-- A workgroup's exit on a core fills no slot. -/
theorem skein_exitOn_of_none (hk : s.skein core slot = none) (w : Workgroup) (wgk c cslot : Nat) :
    (s.exitOn w wgk c cslot).skein core slot = none := by
  unfold State.exitOn
  dsimp only
  rw [State.skein_modCore]
  split
  · exact hk
  · next j hj =>
    have hne : slotKey core slot ≠ slotKey c spindleSlot := fun e => by
      rw [State.skein, e] at hk
      rw [State.skein, hk] at hj
      cases hj
    split
    · split
      · rw [skein_clearSlot, if_neg hne]; exact hk
      · rw [State.skein_setSkein, if_neg hne]; exact hk
    · exact hk

theorem skein_modWg (s : State) (wgk : Nat) (f : Workgroup → Workgroup) (core slot : Nat) :
    (s.modWg wgk f).skein core slot = s.skein core slot := by
  rw [State.skein, State.modWg_skeins]
  rfl

theorem core_modWg (s : State) (wgk : Nat) (f : Workgroup → Workgroup) (core : Nat) :
    (s.modWg wgk f).core core = s.core core := by
  rw [State.core, State.modWg_cores]
  rfl

theorem skein_wgExit_of_none (hk : s.skein core slot = none) (wgk : Nat) : (s.wgExit wgk).skein core slot = none := by
  have hfold (w : Workgroup) (cs : List (Nat × Nat)) (s : State) (hk : s.skein core slot = none) :
      (cs.foldl (fun s c => s.exitOn w wgk c.1 c.2) s).skein core slot = none := by
    induction cs generalizing s with
    | nil => exact hk
    | cons c cs ih => exact ih _ (skein_exitOn_of_none hk ..)
  unfold State.wgExit
  split
  · exact hk
  · split
    · exact hk
    · exact hfold _ _ s hk

theorem skein_freeSlot (s : State) (core slot : Nat) (k : Skein) : (s.freeSlot core slot k).skein core slot = none := by
  have hclear : (s.clearSlot core slot).skein core slot = none := by rw [skein_clearSlot, if_pos rfl]
  unfold State.freeSlot
  dsimp only
  split
  · exact hclear
  · exact skein_wgExit_of_none (by rw [skein_modWg, hclear]) _

/-- A skein of exited threads, with an empty queue and nothing with the Shuttle, leaves its slot. -/
theorem skein_reap_of_exited {k : Skein} (hk : s.skein core slot = some k) (hex : ∀ th ∈ k.threads, th.st = .exited)
    (hsq : k.sq = []) (hsh : ∀ q ∈ (s.core core).shuttle, q.slot ≠ slot) : (s.reap core slot).skein core slot = none := by
  have hover (u : State) (hu : u.core core = s.core core) : u.over core slot k = true := by
    have h1 : k.threads.all (fun th => th.st == .exited) = true := List.all_eq_true.2 fun th hth => by simp [hex th hth]
    have h2 : (s.core core).shuttle.any (fun q => q.slot == slot) = false := List.any_eq_false.2 fun q hq => by simp [hsh q hq]
    simp only [State.over, hu, h1, h2, hsq]
    rfl
  unfold State.reap
  rw [hk]
  dsimp only
  rw [if_pos (hover _ (by split <;> simp only [core_modWg]))]
  exact skein_freeSlot ..

end

/-- Settles O13: the four instructions' ends, the end of a sleep from its wait and its step, and the slot of a skein that is over. -/
theorem threadsEndAndWait : Obligations.ThreadsEndAndWait := by
  refine ⟨fun x s is k l h => ⟨exit_ends h, yield_ends h, sleep_ends h, bar_waits h⟩, fun s core slot lane c th w ht hst hw => ?_,
    fun s core slot k hk hex hsq hsh => skein_reap_of_exited hk hex hsq hsh⟩
  refine ⟨sleepWake_waits ht hst hw, fun hc hgo => ⟨fun hstep => ?_, fun a hstep => ?_⟩⟩
  · rw [sleepWake_wakes ht hst hw hc hgo, wakeLanes_one ht, hstep]
    exact congrArg Host.Outcome.next (State.raise_nil ..)
  · rw [sleepWake_wakes ht hst hw hc hgo, wakeLanes_one ht, hstep]
    rfl

end Sys2Proof.Machine
end

section
/-! The floating-point instructions (06 R151 to R165): an operation whose value is its specification's completes, a NaN operand makes
a NaN, and from them O7, O8 and O10. -/

namespace Sys2Proof.Machine

-- FROM A FLOATING-POINT OPERATION TO ITS SPECIFICATION (06 R153)

/-- Two operands, the second under the modifier. -/
theorem flt2_completes {i : Instr} {x : FmtR} {w lat cost : Nat} {k : ModKind} {f : Nat → Nat → Nat}
    (hi : ∀ s, exec i s = .next (s.runLanes i x.ctl { flt2 x w k lat f with cost := cost })) :
    (LaneSpec.two x w k lat cost f).completes i x.ctl :=
  completes_of_eval hi fun _ _ => rfl

/-- One f32 operand, under the modifier. -/
theorem flt1_completes {i : Instr} {x : FmtR} {lat : Nat} {f : Nat → Nat}
    (hi : ∀ s, exec i s = .next (s.runLanes i x.ctl (flt1 x lat f))) :
    (LaneSpec.one x 4 4 (.float 32 1) lat f).completes i x.ctl :=
  completes_of_eval hi fun _ _ => rfl

/-- Three operands. -/
theorem flt3_completes {i : Instr} {x : FmtF} {w lat cost : Nat} {f : Nat → Nat → Nat → Nat}
    (hi : ∀ s, exec i s = .next (s.runLanes i x.ctl { flt3 x w lat f with cost := cost })) :
    (LaneSpec.three x w w w lat cost f).completes i x.ctl :=
  completes_of_eval hi fun _ _ => rfl

/-- A comparison, which pushes its condition (06 R156). -/
theorem fltCmp_completes {i : Instr} {x : FmtR} {f : Fmt} {w lat cost : Nat}
    (hi : ∀ s, exec i s = .next (s.runLanes i x.ctl (fltCmp x f w lat cost))) :
    LaneSpec.completes
      { reads := [.reg x.a w, .mod x.b x.mod w (.float (8 * w) 1)], dsts := [], cost := cost, lat := lat
        result := fun t _ => some (.push (condFloat (fld x.dst 0 3) (f.val (t.val 0)) (f.val (t.val 1)))) } i x.ctl :=
  completes_of_eval hi fun _ _ => rfl

/-- FSCL's factor is 2 to the power of b as a signed number (06 R154). -/
theorem fScl_eq (rm : Rm) (a b : Nat) : fScl rm a b =
    f32.arith rm ((f32.val a).mul (.fin false 1 (clampInt (-1000) 1000 (BitVec.ofNat 32 b).toInt))) := by
  rw [fScl, sgn_ofNat]

/-- Settles O7: each operation's value is that of its rule. -/
theorem singlePrecisionWritesTheRoundedValue : Obligations.SinglePrecisionWritesTheRoundedValue := by
  refine ⟨fun x => ⟨?_, ?_, ?_, ?_, ?_, ?_, ?_, ?_, ?_, ?_, ?_, ?_⟩, fun x => ⟨?_, ?_, ?_⟩⟩
  · -- FADD
    exact flt2_completes fun _ => rfl
  · -- FSUB
    exact flt2_completes fun _ => rfl
  · -- FMUL
    exact flt2_completes fun _ => rfl
  · -- FDIV
    exact flt2_completes fun _ => rfl
  · -- FMIN
    exact flt2_completes fun _ => rfl
  · -- FMAX
    exact flt2_completes fun _ => rfl
  · -- FSCL
    exact completes_of_eval (fun _ => rfl) fun _ _ => ok_reg (fScl_eq ..)
  · -- FSQRT
    exact flt1_completes fun _ => rfl
  · -- FFRC
    exact flt1_completes fun _ => rfl
  · -- FRND
    exact flt1_completes fun _ => rfl
  · -- FCMP
    exact fltCmp_completes fun _ => rfl
  · -- FCLS
    exact completes_of_eval (fun _ => rfl) fun _ _ => rfl
  · -- FFMA
    exact flt3_completes fun _ => rfl
  · -- FCLMP
    exact flt3_completes fun _ => rfl
  · -- FLERP
    exact flt3_completes fun _ => rfl

/-- Settles O10: each operation's value is that of its rule, element by element where it has more than one. -/
theorem doublePackedAndHalfWriteTheRoundedValue : Obligations.DoublePackedAndHalfWriteTheRoundedValue := by
  refine ⟨fun x => ⟨?_, ?_, ?_, ?_, ?_, ?_, ?_, ?_, ?_⟩, fun x => ⟨?_, ?_, ?_, ?_, ?_⟩⟩
  · -- DADD
    exact flt2_completes fun _ => rfl
  · -- DMUL
    exact flt2_completes fun _ => rfl
  · -- DCMP
    exact fltCmp_completes fun _ => rfl
  · -- PKADD
    exact flt2_completes fun _ => rfl
  · -- PKMUL
    exact flt2_completes fun _ => rfl
  · -- HADD2
    exact flt2_completes fun _ => rfl
  · -- HMUL2
    exact flt2_completes fun _ => rfl
  · -- HMIN2
    exact flt2_completes fun _ => rfl
  · -- HMAX2
    exact flt2_completes fun _ => rfl
  · -- DFMA
    exact flt3_completes fun _ => rfl
  · -- PKFMA
    exact flt3_completes fun _ => rfl
  · -- HFMA2
    exact flt3_completes fun _ => rfl
  · -- FDOT2
    exact flt3_completes fun _ => rfl
  · -- FDOT4E
    exact flt3_completes fun _ => rfl

-- NANS (06 R151)

@[simp] theorem Fmt.arith_nan (f : Fmt) (rm : Rm) (neg : Bool) (p w : Nat) : f.arith rm (.nan neg p w) = f.cnan := rfl

section
variable {a b : Val} (h : a.isNan = true ∨ b.isNan = true)
include h

/-- An operation that gives NaN for a NaN on either side gives NaN where one of its operands is one. -/
theorem eq_qnan_of_isNan {op : Val → Val → Val} (hl : ∀ s p w v, op (.nan s p w) v = qnan)
    (hr : ∀ s p w v, op v (.nan s p w) = qnan) : op a b = qnan := by
  rcases h with h | h
  · cases a with
    | nan s p w => exact hl s p w b
    | inf | fin => cases h
  · cases b with
    | nan s p w => exact hr s p w a
    | inf | fin => cases h

theorem Val.add_of_isNan (rm : Rm) : a.add rm b = qnan :=
  eq_qnan_of_isNan h (fun _ _ _ _ => rfl) fun _ _ _ v => by cases v <;> rfl

theorem Val.mul_of_isNan : a.mul b = qnan := eq_qnan_of_isNan h (fun _ _ _ _ => rfl) fun _ _ _ v => by cases v <;> rfl

theorem Val.div_of_isNan : a.div b = qnan := eq_qnan_of_isNan h (fun _ _ _ _ => rfl) fun _ _ _ v => by cases v <;> rfl

end

/-- Settles O8: the canonical NaN of each format by its bits, and a NaN operand's way through the sum, product and quotient. -/
theorem arithmeticNaNsAreCanonical : Obligations.ArithmeticNaNsAreCanonical := by
  refine ⟨fun rm neg p w => ?_, fun rm a b c h => ?_⟩
  · simp only [Fmt.arith_nan]
    decide
  · rw [Val.add_of_isNan h, Val.mul_of_isNan h, Val.div_of_isNan h, Val.add_of_isNan (.inl rfl)]
    exact ⟨rfl, rfl, rfl, rfl⟩

end Sys2Proof.Machine
end

section
/-! The conversions, PACK and UNPK, and the random numbers (06 R166 to R173), and from them O11. -/

namespace Sys2Proof.Machine

/-- A conversion of one operand between widths. -/
theorem cvtOp_completes {i : Instr} {x : FmtI} {ws wd : Nat} {f g : Nat → Nat}
    (hi : ∀ s, exec i s = .next (s.runLanes i x.ctl (cvtOp x ws wd f))) (h : ∀ a, f a = g a) :
    (LaneSpec.imm x ws wd 6 g).completes i x.ctl :=
  completes_of_eval hi fun t _ => ok_reg (h (t.val 0))

/-- An instruction completes where its operation's results are those of the specification for the values that it takes. -/
theorem completes_of_eval_of_fits {i : Instr} {c : Ctl} {p : LaneSpec} {readsPred : Bool}
    {eval : LaneIn → List LaneIn → Except Trap (List Wr)} (hi : ∀ s, exec i s = .next (s.runLanes i c (p.toOp readsPred eval)))
    (hv : ∀ t ts, p.fits t → eval t ts = .ok (p.result t ts).toList) : p.completes i c :=
  runLanes_quiet i c (p.toOp readsPred eval) p hi rfl rfl rfl rfl rfl rfl fun t ts hf _ _ => hv t ts hf

/-- A permitted format code is not refused. -/
theorem not_illegalCode {code hi : Nat} (h : 2 ≤ code ∧ code ≤ hi) : ¬(code < 2 ∨ hi < code) := by omega

/-- Settles O11: each conversion's value is that of its rule, and PACK and UNPK refuse no permitted format code. -/
theorem conversionsWriteTheConvertedValue : Obligations.ConversionsWriteTheConvertedValue := by
  refine ⟨fun x => ⟨?_, ?_, ?_, ?_⟩, fun x => ⟨?_, ?_⟩, fun x => ⟨?_, ?_⟩⟩
  · -- CVTFF
    exact cvtOp_completes (fun _ => rfl) fun _ => rfl
  · -- CVTFI
    exact cvtOp_completes (fun _ => rfl) fun _ => wrapInt_eq_ofInt ..
  · -- CVTIF
    exact cvtOp_completes (fun _ => rfl) fun a => by rw [sgn_ofNat]; rfl
  · -- RNGI
    exact cvtOp_completes (fun _ => rfl) fun _ => rfl
  · -- CVTSR
    exact completes_of_eval (fun _ => rfl) fun _ _ => rfl
  · -- RNG
    exact flt2_completes fun _ => rfl
  · -- PACK
    exact completes_of_eval_of_fits (fun _ => rfl) fun _ _ hf => if_neg (not_illegalCode hf)
  · -- UNPK
    exact completes_of_eval_of_fits (fun _ => rfl) fun _ _ hf => if_neg (not_illegalCode hf)

end Sys2Proof.Machine
end

section
/-! Window addresses (07 R174 to R177): what the check of an address answers in each window, and from them O19. -/

namespace Sys2Proof.Machine

section
variable {s : State} {core ctx wk n : Nat} {va : Word} {use : Use} {user : Bool}

/-- An address that its window places is placed there. -/
theorem place_of_window (hv : va.toNat / 2 ^ 48 = 0xF) {p : Place} (hw : s.window core ctx wk va n use user = .ok p) :
    s.place core ctx wk va n use user = (s, .ok p) := by
  rw [State.place, if_neg (by omega), if_pos hv, hw]

/-- An address that its window refuses faults with that cause. -/
theorem place_of_refused (hv : va.toNat / 2 ^ 48 = 0xF) {c : Cause} (hw : s.window core ctx wk va n use user = .error c) :
    s.place core ctx wk va n use user = (s, .error (dataTrap c va (if use = .load then .read else .write))) := by
  rw [State.place, if_neg (by omega), if_pos hv, hw]

/-- A window number is bits [47:40] of the address. -/
theorem window_number {m : Nat} (h : va.toNat / 2 ^ 40 = 0xF00 + m) (hm : m < 2 ^ 8) :
    va.toNat / 2 ^ 48 = 0xF ∧ bits va.toNat 40 8 = m := by
  rw [bits_eq]
  omega

theorem window_reserved (h : 3 < bits va.toNat 40 8) : s.window core ctx wk va n use user = .error .prot := by
  unfold State.window
  dsimp only
  split
  case h_5 => rfl
  all_goals omega

/-- The register window takes no atomic. -/
theorem window_registers_atom (h : bits va.toNat 40 8 = 2) : s.window core ctx wk va n .atom user = .error .prot := by
  simp [State.window, h]

/-- The strip window takes no atomic, and nothing from a user thread. -/
theorem window_strip_refused (h : bits va.toNat 40 8 = 3) (hu : use = .atom ∨ user = true) :
    s.window core ctx wk va n use user = .error .prot := by
  simp only [State.window, h]
  exact if_pos (by tauto)

/-- An address of the own core's scratchpad is in window 0x00, at its offset. -/
theorem inScratch_bits {off : Nat} (h : Claims.inScratch va off) : va.toNat = 0xF * 2 ^ 48 + off ∧
    va.toNat / 2 ^ 48 = 0xF ∧ bits va.toNat 40 8 = 0 ∧ bits va.toNat 21 19 = 0 ∧ bits va.toNat 0 21 = off := by
  obtain ⟨hoff, rfl⟩ := h
  have hva : (BitVec.ofNat 64 (0xF * 2 ^ 48 + off)).toNat = 0xF * 2 ^ 48 + off := by
    rw [BitVec.toNat_ofNat]
    omega
  rw [hva]
  refine ⟨rfl, by omega, ?_, ?_, ?_⟩ <;> rw [bits_eq] <;> omega

/-- Window 0x00 names the own core's part of the grant, and the compressed apertures for loads. -/
theorem window_scratch {w : Workgroup} (hw : s.wg wk = some w) {off : Nat} (h : Claims.inScratch va off) :
    s.window core ctx wk va n use user =
      if off + n ≤ w.scratch then .ok (.scr wk ((w.slotOf core).getD 0) off)
      else if 0x180000 ≤ off ∧ off + n ≤ 2 ^ 21 ∧ use = .load then .ok (.aper wk ((w.slotOf core).getD 0) off)
      else .error .prot := by
  obtain ⟨-, -, hnum, hmid, hoff⟩ := inScratch_bits h
  simp only [State.window, hnum, hmid, hoff, hw, Option.bind_some, Option.map_some, Option.getD_some]
  by_cases hl : use = .load <;> simp [hl]

end

/-- Settles O19: each window's answer, and the answer of a refused address. -/
theorem windowAddressesAreChecked : Obligations.WindowAddressesAreChecked := by
  intro s core ctx wk w va n use user hw acc prot
  refine ⟨fun h => if_pos h, fun h hr => ?_, fun h hu => ?_, fun h hu => ?_, fun off h => ?_⟩
  · exact place_of_refused h (window_reserved (by rwa [bits_eq]))
  · obtain ⟨hv, hnum⟩ := window_number (m := 3) h (by decide)
    exact place_of_refused hv (window_strip_refused hnum (.inr hu))
  · subst hu
    rcases h with h | h
    · obtain ⟨hv, hnum⟩ := window_number (m := 2) h (by decide)
      exact place_of_refused hv (window_registers_atom hnum)
    · obtain ⟨hv, hnum⟩ := window_number (m := 3) h (by decide)
      exact place_of_refused hv (window_strip_refused hnum (.inl rfl))
  · obtain ⟨-, hv, -⟩ := inScratch_bits h
    have hwin := window_scratch (core := core) (ctx := ctx) (n := n) (use := use) (user := user) hw h
    split_ifs at hwin ⊢
    · exact place_of_window hv hwin
    · exact place_of_window hv hwin
    · exact place_of_refused hv hwin

end Sys2Proof.Machine
end

section
/-! The host's writes to the device's registers and its accesses through the aperture (07 R189, R203, 18 R438, R439, R449, R450, 19
R451 to R456, R463): what each does outside recovery, and from them O54. -/

namespace Sys2Proof.Machine

theorem bits_zero (v n : Nat) : bits v 0 n = v % 2 ^ n := by simp [bits]

section
variable {s : State}

-- TIME AND MONITORS (18 R438, R439, R449, R450)

/-- TCSET takes a word whose nanoseconds are below one second. -/
theorem put_takes {u : TimeUnit} {w1 : Nat} (h : w1 / 2 ^ 16 % 2 ^ 30 ≤ 999999999) :
    u.put w1 = { u with now := u.set0.toNat % 2 ^ 48 * timeSecond + w1 % 2 ^ 46 * 2 ^ 24, part := 0, valid := true } := by
  rw [TimeUnit.put, bits_eq, if_neg (by omega), bits_zero, bits_zero]

/-- A monitor that asks for a lower clock gets one of 100 MHz less, where the clock is above 1000 MHz. -/
theorem clockStep_slows (hot : s.tooHot = true) (hm : 1000 < s.mon.mhz) :
    s.clockStep.mon.mhz = s.mon.mhz - 100 ∧ s.clockStep.mon.throttle = sat32 (s.mon.throttle + 1) := by
  simp [State.clockStep, hot, hm]

/-- The monitors are checked where the last check is 10 µs past, or there was none. -/
theorem exec_monitorCheck (a b c : List (BitVec 32)) (h : ∀ t, s.mon.checked = some t → t + monitorPeriod ≤ s.time.now) :
    exec (.monitorCheck a b c) s = .next (State.clockStep { s with mon := { s.mon with
      temps := takeSamples a 24 s.mon.temps, volts := takeSamples b 12 s.mon.volts, procs := takeSamples c 8 s.mon.procs
      checked := some s.time.now } }) := by
  have hgo : ¬(s.mon.checked.map fun t => decide (s.time.now < t + monitorPeriod)).getD false = true := by
    cases hc : s.mon.checked with
    | none => simp
    | some t =>
      rw [Option.map_some, Option.getD_some, decide_eq_true_eq, Nat.not_lt]
      exact h t hc
  refine congrArg Host.Outcome.next ?_
  rw [if_neg hgo]

-- QUEUE, PARTITION AND RING REGISTERS (07 R189, 19 R453, R455)

/-- A read index that is not ahead of the write index is taken. -/
theorem setDevqrd_takes {v : Nat} (hv : inRing v s.devq.rd ≤ inRing s.devq.wr s.devq.rd) :
    s.setDevqrd v = { s with devq := { s.devq with rd := v } } := if_neg (Nat.not_lt.2 hv)

/-- The encoder partition is taken while no encode session is open. -/
theorem setEncways_takes {v : Nat} (hv : v ≤ 8) (hs : ∀ p ∈ s.sched, p.1 < 4) (he : s.engines = []) :
    s.setEncways v = s.setReg0 0x30 v := by
  have hsess : (s.sched.any fun p => decide (4 ≤ p.1)) = false := by simpa using hs
  rw [State.setEncways, hsess, he]
  exact if_neg (by simp [hv])

/-- The aperture's base is taken where it lies below 384 GiB. -/
theorem writeDevice_aperture {v : Nat} (h : v / 2 ^ 30 % 2 ^ 22 * 2 ^ 30 < memEnd) :
    s.writeDevice 0x38 v = s.setReg0 0x38 (v / 2 ^ 30 % 2 ^ 22 * 2 ^ 30) := by
  unfold State.writeDevice
  split
  case h_8 => rw [bits_eq, if_neg (Nat.not_le.2 h)]
  all_goals contradiction

/-- The time limit of the ring's hold. -/
theorem writeTime_hold (v : Nat) : s.writeTime 0x1088 v = s.modRing fun r => { r with hold := v % 2 ^ 32 } := by
  rw [← bits_zero]
  rfl

end

section
variable {s : State} (hb : s.boot.recovery = false)
include hb

theorem exec_tcset (w : Word) : exec (.tcset w) s = .next { s with time := s.time.put w.toNat } :=
  congrArg Host.Outcome.next (if_neg (Bool.eq_false_iff.1 hb))

theorem exec_tcofs (w : Word) : exec (.tcofs w) s = .next { s with time := s.time.shift w.toInt } :=
  congrArg Host.Outcome.next (if_neg (Bool.eq_false_iff.1 hb))

theorem exec_tcrate (w : Word) : exec (.tcrate w) s = .next { s with time := { s.time with rate := w.setWidth 32 } } :=
  congrArg Host.Outcome.next (if_neg (Bool.eq_false_iff.1 hb))

theorem exec_devqrdWrite (v : Word) : exec (.devqrdWrite v) s = .next (s.setDevqrd (v.toNat % 2 ^ 32)) := by
  rw [← bits_zero]
  exact congrArg Host.Outcome.next (if_neg (Bool.eq_false_iff.1 hb))

theorem exec_devqConfigWrite (off : Nat) (v : Word) : exec (.devqConfigWrite off v) s = .next (s.setDevq off v.toNat) :=
  congrArg Host.Outcome.next (if_neg (Bool.eq_false_iff.1 hb))

theorem exec_tlbinv (v : Word) : exec (.tlbinv v) s = .next { s with tlbInv := s.tlbInv ++
    [(v.toNat % 2 ^ 16, (s.reg0 0x40).toNat, 4096 * (v.toNat / 2 ^ 16 % 2 ^ 32), v.toNat.testBit 63)] } := by
  rw [← bits_zero, ← bits_eq]
  exact congrArg Host.Outcome.next (if_neg (Bool.eq_false_iff.1 hb))

theorem exec_encoderPartitionWrite (v : Word) : exec (.encoderPartitionWrite v) s = .next (s.setEncways v.toNat) :=
  congrArg Host.Outcome.next (if_neg (Bool.eq_false_iff.1 hb))

/-- An aligned write below the time block is one of device control. -/
theorem exec_registerWrite_device {off : Nat} (h8 : off % 8 = 0) (hoff : off < 0x1000) (v : Word) :
    exec (.registerWrite off v) s = .next (s.writeDevice off v.toNat) :=
  congrArg Host.Outcome.next (by rw [State.writeReg, if_neg (by simp [hb, h8]), if_pos hoff])

/-- An aligned write in the time block. -/
theorem exec_registerWrite_time {off : Nat} (h8 : off % 8 = 0) (hlo : 0x1000 ≤ off) (hoff : off < 0x2000) (v : Word) :
    exec (.registerWrite off v) s = .next (s.writeTime off v.toNat) :=
  congrArg Host.Outcome.next (by
    rw [State.writeReg, if_neg (by simp [hb, h8]), if_neg (Nat.not_lt.2 hlo), if_pos hoff])

-- THE APERTURE (07 R203, 19 R451, R456)

theorem exec_hostApertureRead_inside {off len : Nat} (h : s.aperture off + len ≤ memEnd) :
    exec (.hostApertureRead off len) s = .next ((s.homeRead (s.aperture off) len none).1.answerHost
      (s.homeRead (s.aperture off) len none).2.1 (decide ((s.homeRead (s.aperture off) len none).2.2 ≠ []))) :=
  congrArg Host.Outcome.next ((if_neg (Bool.eq_false_iff.1 hb)).trans (if_neg (Nat.not_lt.2 h)))

theorem exec_hostApertureRead_beyond {off len : Nat} (h : memEnd < s.aperture off + len) :
    exec (.hostApertureRead off len) s = .next ((s.countDev 13 1).answerHost (List.replicate len 0xFF) false) :=
  congrArg Host.Outcome.next ((if_neg (Bool.eq_false_iff.1 hb)).trans (if_pos h))

theorem exec_hostApertureWrite_inside {off : Nat} {bs : List Byte} (h : s.aperture off + bs.length ≤ memEnd) :
    exec (.hostApertureWrite off bs) s = .next (s.homeWrite (s.aperture off) bs [] none) :=
  congrArg Host.Outcome.next ((if_neg (Bool.eq_false_iff.1 hb)).trans (if_neg (Nat.not_lt.2 h)))

/-- A FetchAdd, Swap or CAS at an aligned address below 384 GiB stores its value at the home slice and answers the old one. -/
theorem exec_hostAtomicop {off : Nat} {wide : Bool} (v c : Word) {op : AtomOp} (hop : op ∈ [AtomOp.add, .exch, .cas])
    (ha : s.aperture off % (if wide then 8 else 4) = 0) (hm : s.aperture off + (if wide then 8 else 4) ≤ memEnd) :
    exec (.hostAtomicop off op wide v c) s =
      let n := if wide then 8 else 4
      let r := s.homeRead (s.aperture off) n none
      .next ((match atomStore op (8 * n) (ofBytes r.2.1) (v.toNat % 2 ^ (8 * n)) (c.toNat % 2 ^ (8 * n)) with
        | none => r.1
        | some x => r.1.homeWrite (s.aperture off) (toBytes n x) r.2.2 none).answerHost r.2.1 (decide (r.2.2 ≠ []))) := by
  have hgo : ¬(s.boot.recovery = true ∨ s.aperture off % (if wide then 8 else 4) ≠ 0 ∨
      (!(op == .add || op == .exch || op == .cas)) = true) := by
    simp only [List.mem_cons, List.not_mem_nil, or_false] at hop
    rcases hop with rfl | rfl | rfl <;> simp [hb, ha]
  exact congrArg Host.Outcome.next ((if_neg hgo).trans (if_neg (Nat.not_lt.2 hm)))

end

theorem exec_displayportLinkTraining (s : State) {head : Nat} (hh : head < 4) (link : Option DpLink) :
    exec (.displayportLinkTraining head link) s = .next { s with links := match link with
      | none => del head s.links
      | some l => ins head l s.links } :=
  congrArg Host.Outcome.next (if_neg (Nat.not_le.2 hh))

/-- Settles O54: outside recovery each register takes its write, and the aperture answers from the home slices. -/
theorem deviceRegistersAnswerTheHost : Obligations.DeviceRegistersAnswerTheHost := by
  intro s hb
  refine ⟨fun w hw => ?_, exec_tcofs hb, exec_tcrate hb, fun gap => ⟨_, rfl, rfl, rfl⟩, fun a b c h => exec_monitorCheck a b c h,
    clockStep_slows, fun v hv => ?_, exec_devqConfigWrite hb 0x50, exec_tlbinv hb, fun a lo n all h => ?_,
    fun v hv hs he => ?_, fun v => ⟨?_, fun hv => ?_⟩,
    fun head l hh => ⟨exec_displayportLinkTraining s hh (some l), exec_displayportLinkTraining s hh none⟩,
    fun off len h => exec_hostApertureRead_inside hb h, fun off len h => exec_hostApertureRead_beyond hb h,
    fun off bs h => exec_hostApertureWrite_inside hb h, fun off wide v c ha hm op hop => ?_⟩
  · rw [exec_tcset hb, put_takes hw]
  · rw [exec_devqrdWrite hb, setDevqrd_takes hv]
  · exact congrArg Host.Outcome.next (by rw [h]; rfl)
  · rw [exec_encoderPartitionWrite hb, setEncways_takes hv hs he]
  · rw [exec_registerWrite_time hb (by decide) (by decide) (by decide), writeTime_hold]
  · rw [exec_registerWrite_device hb (by decide) (by decide), writeDevice_aperture hv]
  · exact exec_hostAtomicop hb v c hop ha hm

end Sys2Proof.Machine
end

section
/-! Puts (09 R241 to R243, 08 R211, R227, 07 R497): the command that a thread's registers give, its effect where a check refuses it
and where it is sent, and from them O33. -/

namespace Sys2Proof.Machine

/-- PUT, or PUTM. -/
def putInstr (multi : Bool) (x : FmtX) : Instr := if multi then .putm x else .put x

/-- What PUT and PUTM do for each thread. -/
def putOp (multi : Bool) (x : FmtX) : SeqOp := { reads := putReads x, run := putRun multi x }

theorem exec_putInstr (multi : Bool) (x : FmtX) (s : State) :
    exec (putInstr multi x) s = .next (s.runEach (putInstr multi x) x.ctl 0 false (putOp multi x)) := by
  cases multi <;> rfl

-- THE COMMAND (09 R241)

theorem fld_eq {w : Nat} (b : BitVec w) (lo n : Nat) : fld b lo n = b.toNat / 2 ^ lo % 2 ^ n := by
  rw [fld, Nat.shiftRight_eq_div_pow]

/-- The kind of a put, in its immediate's bits [1:0]. -/
theorem fld_kind {w : Nat} (b : BitVec w) : fld b 0 2 = b.toNat % 4 := by rw [fld_eq]; simp

/-- A put reads its four registers, and the one that names its target where it is of kind 2. -/
theorem putReads_eq (x : FmtX) (vs : Views) :
    putReads x vs = .group x.r1 8 4 :: if x.imm.toNat % 4 = 2 then [.reg x.r2 8] else [] := by
  rw [putReads, fld_kind]

/-- The operands that a put reads are in the thread's registers. -/
theorem put_has {x : FmtX} {k : Skein} {l : Nat} {multi : Bool} (h1 : (laneOf k.threads l).has k.alloc [(x.r1, 8, 4)])
    (h2 : x.imm.toNat % 4 = 2 → (laneOf k.threads l).has k.alloc [(x.r2, 8, 1)]) :
    (laneOf k.threads l).has k.alloc (((putOp multi x).reads (laneOf k.threads l).views).flatMap Rd.ops) := by
  have hr : (putOp multi x).reads (laneOf k.threads l).views =
      .group x.r1 8 4 :: if x.imm.toNat % 4 = 2 then [.reg x.r2 8] else [] := putReads_eq x (laneOf k.threads l).views
  rw [hr]
  intro o ho
  by_cases hk : x.imm.toNat % 4 = 2
  · rw [if_pos hk] at ho
    exact (List.mem_append.1 ho).elim (h1 o) (h2 hk o)
  · rw [if_neg hk] at ho
    exact h1 o ho

/-- The four registers of a put as one number (09 R241). -/
def putWords (r : Claims.PutRegs) : Nat := r.dst + 2 ^ 64 * (r.src + 2 ^ 64 * (r.cnt + 2 ^ 64 * (r.inc + 2 ^ 32 * r.len)))

/-- The fields of a put's registers fit them. -/
def PutFits (r : Claims.PutRegs) : Prop := r.dst < 2 ^ 64 ∧ r.src < 2 ^ 64 ∧ r.cnt < 2 ^ 64 ∧ r.inc < 2 ^ 32 ∧ r.len < 2 ^ 20

/-- The fields of the registers are those that were put into them. -/
theorem bits_putWords {r : Claims.PutRegs} (hf : PutFits r) :
    bits (putWords r) 0 64 = r.dst ∧ bits (putWords r) 64 64 = r.src ∧ bits (putWords r) 128 64 = r.cnt ∧
    bits (bits (putWords r) 192 64) 0 32 = r.inc ∧ bits (bits (putWords r) 192 64) 32 20 = r.len := by
  obtain ⟨h1, h2, h3, h4, h5⟩ := hf
  simp only [bits_eq, putWords]
  omega

/-- Nothing stands above the length. -/
theorem reserved_putWords {r : Claims.PutRegs} (hf : PutFits r) : bits (putWords r) 244 12 = 0 := by
  obtain ⟨h1, h2, h3, h4, h5⟩ := hf
  simp only [bits_eq, putWords]
  omega

/-- What stands above the length in the four registers is their reserved field. -/
theorem reserved_ne_zero {d : Nat} (hlt : d < 256 ^ 32) (hd : d / 2 ^ 244 ≠ 0) : bits d 244 12 ≠ 0 := by
  rw [bits_eq]
  omega

/-- A put without a counter, or with one that 8 divides, passes the check of its alignment. -/
theorem aligned_of {c : PutCmd} (ha : c.nocnt = true ∨ c.cnt % 8 = 0) : ¬(!c.nocnt && c.cnt % 8 != 0) = true := by
  rcases ha with ha | ha <;> simp [ha]

theorem putCmd_eq {x : FmtX} {r : Claims.PutRegs} (hf : PutFits r) {li : LaneIn} (h0 : li.val 0 = putWords r)
    (h1 : li.val 1 = r.target) : putCmd x li = Claims.put x r := by
  obtain ⟨hd, hs, hc, hi, hl⟩ := bits_putWords hf
  simp only [putCmd, Claims.put, h0, h1, hd, hs, hc, hi, hl, fld_eq]
  norm_num

-- THE EFFECT OF ONE THREAD

section
variable {x : FmtX} {s : State} {is : Issue} {k : Skein} {l : Nat} (h : s.poisedOne is k x.ctl l)
include h

theorem site_skein : s.skein (siteOf s is l).core (siteOf s is l).slot = some k := (poised_skein h).1

/-- The values that the one thread gives its put: its four registers, and the target where the word names one. -/
theorem put_vals (multi : Bool) {target : Nat} (ht : x.imm.toNat % 4 = 2 → target = (laneOf k.threads l).reg x.r2 8) :
    (oneInput (putOp multi x).toOp s k l).vals = natAt (laneOf k.threads l).regs (regAddr (laneOf k.threads l).views x.r1) 32 ::
      if x.imm.toNat % 4 = 2 then [target] else [] := by
  have hst : (laneOf k.threads l).st ≠ .exited := by simp [poised_running h]
  have hg : (Rd.group x.r1 8 4).value k.threads l =
      natAt (laneOf k.threads l).regs (regAddr (laneOf k.threads l).views x.r1) 32 := by
    simp [Rd.value, Rd.pieces, readPiece, hst]
  by_cases h2 : x.imm.toNat % 4 = 2
  · simp [oneInput, Op.srcs, putOp, putReads_eq, h2, hg, ht h2, reg_value _ _ _ rfl hst]
  · simp [oneInput, Op.srcs, putOp, putReads_eq, h2, hg]

/-- A put that its thread's checks refuse takes the exception, with nothing else done. -/
theorem put_faults {multi : Bool}
    (hr : (laneOf k.threads l).has k.alloc (((putOp multi x).reads (laneOf k.threads l).views).flatMap Rd.ops)) {cause : Cause}
    {addr : Word} {acc : AccKind} (ht : putRun multi x (siteOf s is l) (oneInput (putOp multi x).toOp s k l) s =
      (s, .trap { cause := cause, addr := addr, acc := acc }))
    (hc : cause.replayable = false) (hw : cause ≠ .watchdog) (hb : cause.debug = false) :
    s.faults (putInstr multi x) is k l cause addr is.word :=
  runEach_trap (putInstr multi x) x.ctl 0 false (putOp multi x) s is k l h (exec_putInstr multi x s) rfl (has_nil _ _) hr
    { cause := cause, addr := addr, acc := acc } s (poised_skein h).1 ht hc hw (by rw [hb]; rfl)

variable {multi : Bool} {li : LaneIn}

theorem putRun_reserved (hd : bits (li.val 0) 244 12 ≠ 0) :
    putRun multi x (siteOf s is l) li s = (s, .trap { cause := .illegalField }) := by
  simp only [putRun, site_skein h]
  exact if_pos hd

variable {c : PutCmd} (hd : bits (li.val 0) 244 12 = 0) (hc : putCmd x li = c)
include hd hc

theorem putRun_misaligned (hn : c.nocnt = false) (ha : c.cnt % 8 ≠ 0) :
    putRun multi x (siteOf s is l) li s = (s, .trap (dataTrap .align (word c.cnt) .write)) := by
  simp only [putRun, site_skein h, hc]
  rw [if_neg (not_not.2 hd), if_pos (by simp [hn, ha])]

variable (ha : c.nocnt = true ∨ c.cnt % 8 = 0)
include ha

theorem putRun_refused {va : Word} (hb : s.putBits (siteOf s is l) k c (!(laneOf k.threads l).sup) = some va) :
    putRun multi x (siteOf s is l) li s = (s, .trap (dataTrap .prot va .write)) := by
  simp only [putRun, site_skein h, hc, site_thread h, hb]
  rw [if_neg (not_not.2 hd), if_neg (aligned_of ha)]

/-- A put whose addresses are good lets the stores perform, reads its source, and puts its deliveries in flight. -/
theorem putRun_sends (hb : s.putBits (siteOf s is l) k c (!(laneOf k.threads l).sup) = none)
    (hp : s.putCopies (siteOf s is l) k c = false) {u1 u2 u3 v : State} {dst : PutTo} {src : List (Place × Nat)}
    {cnt : Option PutTo} {bs : List Byte} {bad : List Nat}
    (h1 : (if c.kind = 0 then s.memTarget (siteOf s is l) k c.dst c.len .store (!(laneOf k.threads l).sup)
      else (s, .ok (.mem []))) = (u1, .ok dst))
    (h2 : u1.rangeTo (siteOf s is l) k c.src c.len .load (!(laneOf k.threads l).sup) = (u2, .ok src))
    (h3 : if c.nocnt = true ∨ c.kind ≠ 0 then u3 = u2 ∧ cnt = none
      else ∃ q, cnt = some q ∧ u2.memTarget (siteOf s is l) k c.cnt 8 .atom (!(laneOf k.threads l).sup) = (u3, .ok q))
    (h4 : (u3.drainForEngine (siteOf s is l).core (siteOf s is l).slot).putSource (siteOf s is l) k.ctx k.wgKey c.src src [] [] =
      (v, .ok (bs, bad))) :
    putRun multi x (siteOf s is l) li s =
      let ds := putDeliveries v (siteOf s is l) k c multi x.ctl.flag x.ctl.scope.toNat dst cnt bs bad
      let w := ds.foldl State.putAbsent v
      ({ w with puts := w.puts ++ ds, order := w.order + 1 },
        if x.ctl.flag then .wait (.putStrict w.order) li.vals else .next) := by
  simp only [putRun, site_skein h, hc, site_thread h, hb, hp, h1, h2]
  rw [if_neg (not_not.2 hd), if_neg (aligned_of ha), if_neg Bool.false_ne_true]
  by_cases hq : c.nocnt = true ∨ c.kind ≠ 0
  · rw [if_pos hq] at h3
    obtain ⟨rfl, rfl⟩ := h3
    simp only [if_pos hq, h4]
  · rw [if_neg hq] at h3
    obtain ⟨q, rfl, ht⟩ := h3
    simp only [if_neg hq, ht, h4]

end

/-- The deliveries that the model makes are those of the claim. -/
theorem putDeliveries_eq (v s : State) (is : Issue) (k : Skein) (l : Nat) (x : FmtX) (multi : Bool) (r : Claims.PutRegs) (dst : PutTo)
    (cnt : Option PutTo) (bs : List Byte) (bad : List Nat) :
    putDeliveries v (siteOf s is l) k (Claims.put x r) multi x.ctl.flag x.ctl.scope.toNat dst cnt bs bad =
      Claims.deliveries v is k x multi r bs bad dst cnt := rfl

-- A PUT OF KIND 1 WITHIN THE CLUSTER (09 R242)

/-- A range at an offset of a grant is good where no slot is beyond the cluster and it ends within the grant. -/
theorem offsetBad_none {s : State} {c : PutCmd} {wk off n : Nat} {g : Workgroup} (hg : s.wg wk = some g)
    (hm : ∀ i ∈ slotsIn c.mask, i < g.cluster.length) (hn : off + n ≤ g.scratch) : s.offsetBad c wk off n = none := by
  have hslots : ((List.range 4).any fun i => c.mask.testBit i && decide (g.cluster.length ≤ i)) = false := by
    rw [List.any_eq_false]
    intro i hi
    cases hb : c.mask.testBit i
    · simp
    · simpa using hm i (List.mem_filter.2 ⟨hi, hb⟩)
  simp only [State.offsetBad, State.anyWg, hg, hslots]
  rw [if_neg Bool.false_ne_true, if_neg (Nat.not_lt.2 hn), ite_self]

section
variable {s : State} {st : Site} {k : Skein} {g : Workgroup} {va n off : Nat} (hg : s.wg k.wgKey = some g) (hva : va < 2 ^ 64)
  (hs : Claims.inScratch (word va) off) (hn : off + n ≤ g.scratch)
include hg hva hs hn

/-- A range of the own core's scratchpad is in window 0x00, which places it. -/
theorem window_own (use : Use) (user : Bool) : va = 0xF * 2 ^ 48 + off ∧
    s.window st.core k.ctx k.wgKey (word va) n use user = .ok (.scr k.wgKey ((g.slotOf st.core).getD 0) off) := by
  obtain ⟨hw, -⟩ := inScratch_bits hs
  rw [word, BitVec.toNat_ofNat, Nat.mod_eq_of_lt hva] at hw
  exact ⟨hw, (window_scratch hg hs).trans (if_pos hn)⟩

theorem rangeBits_own (hlen : n < 2 ^ 20) (use : Use) (user : Bool) : s.rangeBits st k va n use user = none := by
  obtain ⟨hw, hwin⟩ := window_own (st := st) hg hva hs hn use user
  have hoff := hs.1
  rw [State.rangeBits, if_neg (by omega : ¬2 ^ 52 < va + n), if_pos (by omega : va / 2 ^ 48 = 0xF), hwin, ite_self]

theorem rangeTo_own (use : Use) (user : Bool) : s.rangeTo st k va n use user =
    (s, .ok (if n = 0 then [] else [(.scr k.wgKey ((g.slotOf st.core).getD 0) off, n)])) := by
  obtain ⟨hw, hwin⟩ := window_own (st := st) hg hva hs hn use user
  have hv : va / 2 ^ 48 = 0xF := by have := hs.1; omega
  have hplace := place_of_window (s := s) (core := st.core) (inScratch_bits hs).2.1 hwin
  unfold State.rangeTo
  by_cases h0 : n = 0
  · rw [if_pos h0, if_pos h0]
  · rw [if_neg h0, if_neg h0, if_pos hv]
    simp only [State.rangePieces, hplace, List.nil_append]

end

/-- The checks of a put of kind 1 between scratchpads of the own cluster. -/
theorem put_own {s : State} {st : Site} {k : Skein} {c : PutCmd} {g : Workgroup} {off : Nat} (user : Bool) (hk : c.kind = 1)
    (hg : s.wg k.wgKey = some g) (hm : ∀ i ∈ slotsIn c.mask, i < g.cluster.length) (hd : c.dst + c.len ≤ g.scratch)
    (hc : c.cnt + 8 ≤ g.scratch) (hva : c.src < 2 ^ 64) (hlen : c.len < 2 ^ 20) (hs : Claims.inScratch (word c.src) off)
    (hn : off + c.len ≤ g.scratch) : s.putBits st k c user = none ∧ s.putCopies st k c = false := by
  have hwk : c.wg k = k.wgKey := if_pos hk
  have hk0 : c.kind ≠ 0 := by omega
  refine ⟨?_, by simp [State.putCopies, hk]⟩
  unfold State.putBits
  simp only [if_neg hk0, hwk, offsetBad_none hg hm hd, offsetBad_none hg hm hc, rangeBits_own hg hva hs hn hlen, ite_self]
  rfl

-- THE STATEMENT

/-- Settles O33: a put is refused with its fault, or sent; one of kind 1 within the cluster is not refused. -/
theorem putsAreSent : Obligations.PutsAreSent := by
  intro s is k l x multi r h i th user c two d vals h1 h2 h0 _ hf
  have ⟨_, hsrc, _, _, hlen⟩ := hf
  have hhas := put_has (multi := multi) h1 fun ht => (h2 ht).1
  have hvals : (oneInput (putOp multi x).toOp s k l).vals = vals := put_vals h multi fun ht => (h2 ht).2
  have hval0 : (oneInput (putOp multi x).toOp s k l).val 0 = d := by rw [LaneIn.val, hvals]; rfl
  have hval1 : (oneInput (putOp multi x).toOp s k l).val 1 = r.target := by
    rw [LaneIn.val, hvals]
    by_cases ht : two
    · simp [vals, ht]
    · simp [vals, ht, h0 ht]
  refine ⟨fun hd => ?_, fun hd => ?_⟩
  · exact put_faults h hhas (putRun_reserved h (by rw [hval0]; exact reserved_ne_zero (natAt_lt ..) hd)) rfl (by decide) rfl
  have hd0 : bits ((oneInput (putOp multi x).toOp s k l).val 0) 244 12 = 0 := by
    rw [hval0, hd]
    exact reserved_putWords hf
  have hc : putCmd x (oneInput (putOp multi x).toOp s k l) = c := putCmd_eq hf (hval0.trans hd) hval1
  refine ⟨fun hn ha => put_faults h hhas (putRun_misaligned h hd0 hc hn ha) rfl (by decide) rfl, fun ha => ⟨fun va hb => ?_, ?_, ?_⟩⟩
  · exact put_faults h hhas (putRun_refused h hd0 hc ha hb) rfl (by decide) rfl
  · intro hb hp u1 dst u2 src u3 cnt e1 e2 e3 v bs bad e4 ds w hw
    have hrun := putRun_sends (multi := multi) h hd0 hc ha hb hp e1 e2 e3 e4
    rw [putDeliveries_eq, hvals] at hrun
    refine one_ends i x.ctl 0 false (putOp multi x) s is k l h (exec_putInstr multi x s) rfl (has_nil _ _) hhas _ _ hrun ?_ hw
    intro t
    split <;> nofun
  · intro g off hk1 hg hm hdst hcnt hs hn
    obtain ⟨hb, hp⟩ := put_own (st := siteOf s is l) (c := c) user hk1 hg hm hdst hcnt hsrc hlen hs hn
    exact ⟨hb, hp, rangeTo_own hg hsrc hs hn .load user⟩

end Sys2Proof.Machine
end

section
/-! Stores, reductions and atomics of one thread (08 R209, R219, 09 R231, R234 to R236): what each does where its checks pass, and
from them O21 and O23. -/

namespace Sys2Proof.Machine

/-- The bytes that an atomic works on (09 R235). -/
abbrev atomBytes (wide : Bool) : Nat := if wide then 8 else 4

/-- The registers of an ATOM's operand: CAS takes a group of two (09 R235). -/
abbrev atomRegs (op : AtomOp) : Nat := if op = .cas then 2 else 1

/-- What ST does for each thread. -/
def storeOp (sz : StSize) (x : FmtM) : SeqOp :=
  { reads := fun _ => [baseRead x, .reg x.data (StSize.shape sz).2], run := storeRun sz x }

/-- What RED does for each thread. -/
def redOp (op : AtomOp) (wide : Bool) (x : FmtM) : SeqOp :=
  { reads := fun _ => [baseRead x, .reg x.data (atomBytes wide)], run := redRun op wide x }

/-- What ATOM does for each thread. -/
def atomOp (op : AtomOp) (wide : Bool) (x : FmtM) : SeqOp :=
  { reads := fun _ => [baseRead x, .group x.data (atomBytes wide) (atomRegs op)]
    dsts := fun _ => [(x.data, atomBytes wide, atomRegs op)], run := atomRun op wide x false }

theorem exec_st (sz : StSize) (x : FmtM) (s : State) :
    exec (.st sz x) s = .next (s.runEach (.st sz x) x.ctl 0 false (storeOp sz x)) := rfl

theorem exec_red (op : AtomOp) (wide : Bool) (x : FmtM) (s : State) :
    exec (.red op wide x) s = .next (s.runEach (.red op wide x) x.ctl 0 false (redOp op wide x)) := rfl

theorem exec_atom (op : AtomOp) (wide : Bool) (x : FmtM) (s : State) :
    exec (.atom op wide x) s = .next (s.runEach (.atom op wide x) x.ctl 0 false (atomOp op wide x)) := rfl

/-- The new value that an atomic with an operand d of n bytes stores over an old one: CAS has its comparand in the lower half of a
group of two (09 R235). -/
def atomEffect (op : AtomOp) (n d old : Nat) : Option Nat :=
  if op = .cas then atomStore .cas (8 * n) old (d / 2 ^ (8 * n) % 2 ^ (8 * n)) (d % 2 ^ (8 * n))
  else atomStore op (8 * n) old d 0

/-- ATOM takes its new value and comparand from the halves of a group of two, or its value alone. -/
theorem atomStore_eq_atomEffect (op : AtomOp) (n d : Nat) : (fun old => atomStore op (8 * n) old
      (if op = .cas then (bits d (8 * n) (8 * n), bits d 0 (8 * n)) else (d, 0)).1
      (if op = .cas then (bits d (8 * n) (8 * n), bits d 0 (8 * n)) else (d, 0)).2) = atomEffect op n d := by
  funext old
  by_cases hop : op = .cas <;> simp [atomEffect, hop, bits_eq]

/-- The operand of a thread's ATOM, from its register or group of two. -/
def atomOperand (th : Thread) (x : FmtM) (op : AtomOp) (wide : Bool) : Nat :=
  natAt th.regs (regAddr th.views x.data) (atomBytes wide * atomRegs op)

-- AN ATOMIC IN THE OWN SCRATCHPAD

/-- An aligned atomic within the own part of the grant is placed there. -/
theorem atomPlace_scratch {s : State} {st : Site} {k : Skein} {g : Workgroup} {va : Word} {n off : Nat} (hg : s.wg k.wgKey = some g)
    (hs : Claims.inScratch va off) (hn : off + n ≤ g.scratch) (ha : va.toNat % n = 0) (red : Bool) (op : AtomOp) :
    s.atomPlace st k va n red op = (s, .ok (.scr k.wgKey ((g.slotOf st.core).getD 0) off)) := by
  obtain ⟨-, hv, -⟩ := inScratch_bits hs
  have hwin (user : Bool) := (window_scratch (core := st.core) (ctx := k.ctx) (use := .atom) (user := user) hg hs).trans (if_pos hn)
  simp only [State.atomPlace, ha, place_of_window hv (hwin _)]
  rfl

theorem drainQueue_of_empty {s : State} {core slot : Nat} {k : Skein} (hk : s.skein core slot = some k) (hq : k.sq = []) :
    s.drainQueue core slot = s := by
  simp [State.drainQueue, hk, hq]

/-- With an empty queue an atomic on readable bytes of a scratchpad may perform at once. -/
theorem atomReady_scratch {s : State} {st : Site} {k : Skein} {g : Workgroup} {va : Word} {off n : Nat}
    (hk : s.skein st.core st.slot = some k) (hq : k.sq = []) (hr : Claims.readable s st.core k.wgKey g off n)
    (hb : s.tileBusy st.core st.slot (.scr k.wgKey ((g.slotOf st.core).getD 0) off) n true = false) :
    s.atomReady st k.wgKey va (.scr k.wgKey ((g.slotOf st.core).getD 0) off) n = (s, none) := by
  obtain ⟨-, -, hmiss, hmark, hbad⟩ := hr
  have hfind : (units 128 off n).find?
      (fun j => (look (s.part k.wgKey ((g.slotOf st.core).getD 0)).marks j).isSome) = none :=
    List.find?_eq_none.2 fun j hj => by simp [hmark j hj]
  simp [State.atomReady, drainQueue_of_empty hk hq, hb, State.atomSite, State.atomCheck, hmiss, hfind, hbad]

/-- An atomic on a scratchpad reads its bytes and stores the new value, where it has one. -/
theorem atomAt_scratch (s : State) (core w c off n : Nat) (f : Nat → Option Nat) :
    s.atomAt core (.scr w c off) n f = (match f (natAt (s.part w c).bytes off n) with
      | none => s
      | some v => s.modPart w c fun q => q.store off (toBytes n v) [], natAt (s.part w c).bytes off n) := by
  cases hf : f (natAt (s.part w c).bytes off n) <;> simp only [State.atomAt, hf]

/-- An atomic that may perform has had its skein's queue perform and its line brought to its place. -/
theorem stills_of_atomReady {s u v : State} (h : s.stills u) {st : Site} {wk : Nat} {va : Word} {p : Place} {n : Nat}
    (hr : u.atomReady st wk va p n = (v, none)) : s.stills v := by
  unfold State.atomReady at hr
  dsimp only at hr
  split at hr
  · cases hr
  · obtain ⟨rfl, -⟩ := Prod.mk.inj hr
    exact (h.drainQueue ..).memOnly ((State.memOnly.refl _).atomSite ..)

-- THE EFFECT OF ONE THREAD

section
variable {x : FmtM} {s : State} {is : Issue} {k : Skein} {l : Nat} (h : s.poisedOne is k x.ctl l)
include h

/-- The address of the one thread's access. -/
theorem effAddr_base {op : Op} {r : List Rd} (hr : op.reads (laneOf k.threads l).views = baseRead x :: r) :
    effAddr ((oneInput op s k l).val 0) x.off = Claims.ea (laneOf k.threads l) x := by
  rw [effAddr_eq, base_val h x op r hr]
  rfl

/-- An entry that joins the queue leaves the skein calm. -/
theorem queued_calm {u : State} (hu : s.stills u) (e : SqEntry) :
    ∃ k', (Claims.queued u is e).skein is.core is.slot = some k' ∧ k'.calm := by
  obtain ⟨k', hk, hc⟩ := poised_calm h hu
  exact ⟨_, (State.skein_modSkein_self ..).trans (congrArg _ hk), hc⟩

variable {li : LaneIn} {va : Word} (ha : effAddr (li.val 0) x.off = va) (hc : s.copyWaits (siteOf s is l) k va = false)
include ha hc

/-- A store whose checks pass joins the queue. -/
theorem storeRun_queues {sz : StSize} (hal : va.toNat % (StSize.shape sz).1 = 0) {u : State} {p : Place}
    (hp : s.place is.core k.ctx k.wgKey va (StSize.shape sz).1 .store (!(laneOf k.threads l).sup) = (u, .ok p))
    (hb : u.tileBusy is.core is.slot p (StSize.shape sz).1 true = false) :
    storeRun sz x (siteOf s is l) li s = (Claims.queued u is
      { act := .store p (toBytes (StSize.shape sz).1 (li.val 1)) [] (u.isPrivate is.core is.slot k.ctx va.toNat)
        rel := x.ctl.flag, scope := x.ctl.scope.toNat, lane := l }, .next) := by
  have hk : s.skein (siteOf s is l).core (siteOf s is l).slot = some k := (poised_skein h).1
  have hp' : s.place (siteOf s is l).core k.ctx k.wgKey va (StSize.shape sz).1 .store (!(laneOf k.threads l).sup) =
    (u, .ok p) := hp
  have hb' : u.tileBusy (siteOf s is l).core (siteOf s is l).slot p (StSize.shape sz).1 true = false := hb
  simp only [storeRun, hk, ha, hal, hc, site_thread h, hp', hb']
  rfl

/-- A reduction whose checks pass joins the queue. -/
theorem redRun_queues {op : AtomOp} {wide : Bool} {u v : State} {p : Place}
    (hp : s.atomPlace (siteOf s is l) k va (atomBytes wide) true op = (u, .ok p))
    (hr : u.atomReady (siteOf s is l) k.wgKey va p (atomBytes wide) = (v, none)) :
    redRun op wide x (siteOf s is l) li s = (Claims.queued v is
      { act := .red p op wide (li.val 1), rel := x.ctl.flag, scope := x.ctl.scope.toNat, lane := l }, .next) := by
  have hk : s.skein (siteOf s is l).core (siteOf s is l).slot = some k := (poised_skein h).1
  simp only [redRun, hk, ha, hc, hp, hr, Bool.false_eq_true, and_false, if_false]
  rfl

/-- An atomic whose checks pass performs, and the thread is owed the old value. -/
theorem atomRun_performs {op : AtomOp} {wide : Bool} {u v : State} {p : Place}
    (hp : s.atomPlace (siteOf s is l) k va (atomBytes wide) false op = (u, .ok p)) (hh : ∀ a, p ≠ .host a)
    (hr : u.atomReady (siteOf s is l) k.wgKey va p (atomBytes wide) = (v, none)) :
    atomRun op wide x false (siteOf s is l) li s =
      let q := if x.ctl.flag then v.drainTo is.core is.slot x.ctl.scope.toNat else v
      let r := q.atomAt is.core p (atomBytes wide) (atomEffect op (atomBytes wide) (li.val 1))
      (r.1.hold (siteOf s is l) x.data (atomBytes wide) r.2 [], .next) := by
  have hk : s.skein (siteOf s is l).core (siteOf s is l).slot = some k := (poised_skein h).1
  simp only [atomRun, hk, ha, hc, hp, hr, atomStore_eq_atomEffect, Bool.false_eq_true, and_false, if_false]
  cases p
  case host a => exact absurd rfl (hh a)
  all_goals rfl

end

section
variable {x : FmtM} {s : State} {is : Issue} {k : Skein} {l : Nat} (h : s.poisedOne is k x.ctl l)
  {va : Word} (hva : Claims.ea (laneOf k.threads l) x = va) (hc : s.copyWaits (siteOf s is l) k va = false)
include h hva hc

/-- ST of an address that its checks have placed. -/
theorem st_queues {sz : StSize} (hreg : (laneOf k.threads l).has k.alloc [(x.base, 8, 1), (x.data, (StSize.shape sz).2, 1)])
    (hal : va.toNat % (StSize.shape sz).1 = 0) {u : State} {p : Place}
    (hp : s.place is.core k.ctx k.wgKey va (StSize.shape sz).1 .store (!(laneOf k.threads l).sup) = (u, .ok p))
    (hb : u.tileBusy is.core is.slot p (StSize.shape sz).1 true = false) :
    s.memOnly u ∧ ∃ t, exec (.st sz x) s = .next t ∧
      (Claims.queued u is
        { act := .store p (toBytes (StSize.shape sz).1 ((laneOf k.threads l).reg x.data (StSize.shape sz).2)) []
            (u.isPrivate is.core is.slot k.ctx va.toNat)
          rel := x.ctl.flag, scope := x.ctl.scope.toNat, lane := l }).endsAs t (.st sz x) is l .next := by
  have hmem : s.memOnly u := .beside hp ((State.memOnly.refl s).place ..)
  have hrun := storeRun_queues h ((effAddr_base h (op := (storeOp sz x).toOp) rfl).trans hva) hc hal hp hb
  rw [val_at h (storeOp sz x).toOp 1 x.data (StSize.shape sz).2 rfl] at hrun
  exact ⟨hmem, one_ends _ _ _ _ (storeOp sz x) s is k l h (exec_st sz x s) rfl (has_nil _ _) hreg _ _ hrun nofun
    (queued_calm h ((State.stills.refl s).memOnly hmem) _)⟩

variable {op : AtomOp} {wide : Bool} {u v : State} {p : Place}

/-- RED of an address that its checks have placed. -/
theorem red_queues (hreg : (laneOf k.threads l).has k.alloc [(x.base, 8, 1), (x.data, atomBytes wide, 1)])
    (hp : s.atomPlace (siteOf s is l) k va (atomBytes wide) true op = (u, .ok p))
    (hr : u.atomReady (siteOf s is l) k.wgKey va p (atomBytes wide) = (v, none)) :
    s.memOnly u ∧ ∃ t, exec (.red op wide x) s = .next t ∧
      (Claims.queued v is
        { act := .red p op wide ((laneOf k.threads l).reg x.data (atomBytes wide)), rel := x.ctl.flag
          scope := x.ctl.scope.toNat, lane := l }).endsAs t (.red op wide x) is l .next := by
  have hmem : s.memOnly u := .beside hp (memOnly_atomPlace ..)
  have hrun := redRun_queues h ((effAddr_base h (op := (redOp op wide x).toOp) rfl).trans hva) hc hp hr
  rw [val_at h (redOp op wide x).toOp 1 x.data (atomBytes wide) rfl] at hrun
  exact ⟨hmem, one_ends _ _ _ _ (redOp op wide x) s is k l h (exec_red op wide x s) rfl (has_nil _ _) hreg _ _ hrun nofun
    (queued_calm h (stills_of_atomReady ((State.stills.refl s).memOnly hmem) hr) _)⟩

/-- ATOM of an address that its checks have placed. -/
theorem atom_performs (hreg : (laneOf k.threads l).has k.alloc [(x.base, 8, 1), (x.data, atomBytes wide, atomRegs op)])
    (hp : s.atomPlace (siteOf s is l) k va (atomBytes wide) false op = (u, .ok p)) (hh : ∀ a, p ≠ .host a)
    (hr : u.atomReady (siteOf s is l) k.wgKey va p (atomBytes wide) = (v, none)) :
    let q := if x.ctl.flag then v.drainTo is.core is.slot x.ctl.scope.toNat else v
    let r := q.atomAt is.core p (atomBytes wide) (atomEffect op (atomBytes wide) (atomOperand (laneOf k.threads l) x op wide))
    ∃ t, exec (.atom op wide x) s = .next t ∧
      (r.1.hold (siteOf s is l) x.data (atomBytes wide) r.2 []).endsAs t (.atom op wide x) is l .next := by
  intro q r
  have hrun := atomRun_performs h ((effAddr_base h (op := (atomOp op wide x).toOp) rfl).trans hva) hc hp hh hr
  rw [group_at h (atomOp op wide x).toOp 1 x.data (atomBytes wide) (atomRegs op) rfl] at hrun
  have hv : s.stills v := stills_of_atomReady ((State.stills.refl s).memOnly (.beside hp (memOnly_atomPlace ..))) hr
  have hq : s.stills q := by
    unfold q
    split
    · exact hv.drainTo ..
    · exact hv
  exact one_ends _ _ _ _ (atomOp op wide x) s is k l h (exec_atom op wide x s) rfl
    (fun o ho => hreg o (List.mem_cons_of_mem _ ho)) hreg _ _ hrun nofun
    (poised_calm h ((hq.atomAt ..).trans (hold_stills ..)))

/-- ATOM on readable bytes of the own scratchpad, with an empty queue, changes those bytes alone and is owed the old ones. -/
theorem atom_scratch (hreg : (laneOf k.threads l).has k.alloc [(x.base, 8, 1), (x.data, atomBytes wide, atomRegs op)])
    (hal : va.toNat % atomBytes wide = 0) {g : Workgroup} {off : Nat} (hs : Claims.inScratch va off)
    (hread : Claims.readable s is.core k.wgKey g off (atomBytes wide)) (hq : k.sq = []) (hf : x.ctl.flag = false)
    (hb : s.tileBusy is.core is.slot (.scr k.wgKey ((g.slotOf is.core).getD 0) off) (atomBytes wide) true = false) :
    let c := (g.slotOf is.core).getD 0
    let old := natAt (s.part k.wgKey c).bytes off (atomBytes wide)
    ∃ t, exec (.atom op wide x) s = .next t ∧
      (Claims.owes (match atomEffect op (atomBytes wide) (atomOperand (laneOf k.threads l) x op wide) old with
        | none => s
        | some v => s.modPart k.wgKey c fun q => q.store off (toBytes (atomBytes wide) v) []) is l x.data
        (atomBytes wide) old).endsAs t (.atom op wide x) is l .next := by
  intro c old
  have ⟨hg, hn, _⟩ := hread
  have hends := atom_performs (op := op) h hva hc hreg (atomPlace_scratch (st := siteOf s is l) hg hs hn hal false op) nofun
    (atomReady_scratch (st := siteOf s is l) (poised_skein h).1 hq hread hb)
  simp only [hf, Bool.false_eq_true, if_false, atomAt_scratch] at hends
  exact hends

end

/-- Settles O21: each access whose checks pass joins the queue with what its thread's registers give. -/
theorem storesAndReductionsQueue : Obligations.StoresAndReductionsQueue := by
  constructor
  · intro sz x s is k l h th n va hreg hal hc u p hp hb
    exact st_queues h rfl hc hreg hal hp hb
  · intro op wide x s is k l h th n va hreg hc u p v hp hr
    exact red_queues h rfl hc hreg hp hr

/-- Settles O23: an atomic whose checks pass performs; one on readable bytes of the own scratchpad passes them with nothing
changed. -/
theorem atomicsReadAndWriteAtOnce : Obligations.AtomicsReadAndWriteAtOnce := by
  intro op wide x s is k l h th n va d f hreg hal hc
  constructor
  · intro g off hs hread hq hf hb
    exact atom_scratch h rfl hc hreg hal hs hread hq hf hb
  · intro u p v hp hh hr
    exact atom_performs h rfl hc hreg hp hh hr

end Sys2Proof.Machine
end

section
/-! Queued stores and write-throughs (08 R209, R210, 07 R190, R192): what performing the head of a queue and a write-through of a core
does, and from them O24. -/

namespace Sys2Proof.Machine

-- THE HEAD OF A QUEUE (08 R209)

/-- A slot whose skein has a thread that has not exited stays as it is. -/
theorem reap_of_not_exited {s : State} {core slot : Nat} {k : Skein} (hk : s.skein core slot = some k)
    (hth : ∃ th ∈ k.threads, th.st ≠ .exited) : s.reap core slot = s := by
  have hall : k.threads.all (fun th => th.st == .exited) = false := by
    obtain ⟨th, hm, hne⟩ := hth
    exact List.all_eq_false.2 ⟨th, hm, by simpa using hne⟩
  simp [State.reap, hk, State.over, hall]

section
variable {s : State} {core slot : Nat} {k : Skein} {e : SqEntry} {r : List SqEntry} (hk : s.skein core slot = some k)
  (hq : k.sq = e :: r) (hu : k.unblocked) (hrel : e.rel = false)
include hk hq hu hrel

/-- An entry that is no release leaves the queue and performs, where no access of the skein waits. -/
theorem performHead_of_unblocked :
    s.performHead core slot = (s.setSkein core slot { k with sq := r }).performAct core k.ctx e.act := by
  simp [State.performHead, hk, hq, hu.runs, hrel]

variable (hth : ∃ th ∈ k.threads, th.st ≠ .exited)
include hth

/-- Performing an entry that changes no skein is all that the step does. -/
theorem exec_storeQueuePerform_head {t : State}
    (ht : (s.setSkein core slot { k with sq := r }).performAct core k.ctx e.act = t)
    (hsk : t.skeins = (s.setSkein core slot { k with sq := r }).skeins) :
    exec (.storeQueuePerform core slot none) s = .next t := by
  have hk' : t.skein core slot = some { k with sq := r } := by
    rw [State.skein, hsk]
    exact look_ins_self ..
  show Host.Outcome.next ((s.performHead core slot).reap core slot) = _
  rw [performHead_of_unblocked hk hq hu hrel, ht, reap_of_not_exited hk' hth]

end

/-- The bytes of a scratchpad after a store. -/
theorem byteAt_store (x : Part) (off : Nat) (bs : List Byte) (bad : List Nat) (a : Nat) : byteAt (x.store off bs bad).bytes a =
    if off ≤ a ∧ a < off + bs.length then bs.getD (a - off) 0 else byteAt x.bytes a := byteAt_putBytes ..

/-- A store of device kind to a line that L1 does not hold goes to the write-throughs alone (07 R190). -/
theorem l1Store_of_miss {s : State} {core ctx pa : Nat} {bs : List Byte} (h : look (s.core core).l1 (pa / 128) = none) :
    s.l1Store core ctx pa bs false =
      s.modCore core fun c => { c with wt := c.wt ++ [{ pa := pa, bytes := bs, ctx := ctx }] } := by
  simp [State.l1Store, h]

-- WRITE-THROUGHS (08 R210)

/-- A request for lines that no other core holds exclusively recalls none. -/
theorem recallRange_of_unshared {s : State} {core pa n : Nat}
    (h : ∀ c ≠ core, ∀ j ∈ units 128 pa n, ∀ line, look (s.core c).l1 j = some line → line.excl = false) :
    s.recallRange pa n (some core) = s := by
  refine foldl_fixed _ _ _ fun j hj => foldl_fixed _ _ _ fun c _ => ?_
  split
  · rfl
  · next hc =>
    split
    · next line hl =>
      rw [h c (fun e => hc (congrArg some e)) j hj line hl]
      rfl
    · rfl

/-- The oldest write-through of a core performs at the home slice. -/
theorem performThrough_of_unshared {s : State} {core : Nat} {w : WriteThrough} {r : List WriteThrough} (hw : (s.core core).wt = w :: r)
    (h : ∀ c ≠ core, ∀ j ∈ units 128 w.pa w.bytes.length, ∀ line, look (s.core c).l1 j = some line → line.excl = false) :
    s.performThrough core 0 = (s.homePut w.pa w.bytes []).modCore core fun c => { c with wt := c.wt.eraseIdx 0 } := by
  simp [State.performThrough, hw, State.homeWrite, recallRange_of_unshared h]

/-- No write-through of the core stands before its oldest. -/
theorem exec_storeQueuePerform_home {s : State} {core slot : Nat} {w : WriteThrough} {r : List WriteThrough}
    (hw : (s.core core).wt = w :: r) : exec (.storeQueuePerform core slot (some 0)) s = .next (s.performThrough core 0) := by
  show execStoreQueuePerform core slot (some 0) s = _
  simp [execStoreQueuePerform, hw]

/-- Settles O24: the head of a queue performs with nothing else done, and so does the oldest write-through. -/
theorem queuedStoresPerform : Obligations.QueuedStoresPerform := by
  constructor
  · intro s core slot k e r bs priv hk hq hu hrel _ hth u
    refine ⟨fun w c off he hw => ⟨?_, fun a => ?_⟩, fun off he => ⟨?_, byteAt_putBytes _ _ _⟩, fun pa he hl => ?_⟩
    · exact exec_storeQueuePerform_head hk hq hu hrel hth (by rw [he]; rfl) (State.modPart_skeins ..)
    · obtain ⟨g, hg⟩ := Option.ne_none_iff_exists'.1 hw
      rw [part_modPart u w c _ g hg]
      exact byteAt_store ..
    · exact exec_storeQueuePerform_head hk hq hu hrel hth (by rw [he]; rfl) rfl
    · exact exec_storeQueuePerform_head hk hq hu hrel hth (by rw [he]; exact l1Store_of_miss hl) (State.modCore_skeins ..)
  · intro s core slot w r hw h
    refine ⟨_, exec_storeQueuePerform_home hw, (State.memOnly.refl s).performThrough .., ?_, fun a => ?_⟩
    · rw [performThrough_of_unshared hw h, State.core_modCore, if_pos rfl, core_homePut, hw]
      rfl
    · rw [performThrough_of_unshared hw h]
      exact byteAt_putBytes ..

end Sys2Proof.Machine
end

section
/-! Deliveries of puts (08 R227 to R229, 07 R192): the bytes and the counter of one that lands, the count of one that is dropped, the
Reed window, and from them O34. -/

namespace Sys2Proof.Machine

-- BYTES AND WORDS OF A SCRATCHPAD

/-- A number read where other bytes have been put. -/
theorem natAt_putBytes_apart {m : SMap Byte} {a : Nat} {bs : List Byte} {q n : Nat} (h : q + n ≤ a ∨ a + bs.length ≤ q) :
    natAt (putBytes a bs m) q n = natAt m q n := by
  refine congrArg ofBytes (List.map_congr_left fun i hi => ?_)
  have hi := List.mem_range.1 hi
  rw [byteAt_putBytes, if_neg (by omega)]

/-- A number read where it has been put, modulo what its bytes hold. -/
theorem natAt_putBytes_toBytes (m : SMap Byte) (a n v : Nat) : natAt (putBytes a (toBytes n v) m) a n = v % 256 ^ n := by
  have h := bytesAt_putBytes m a (toBytes n v)
  rw [length_toBytes] at h
  rw [natAt, h, ofBytes_toBytes]

section
variable (x : Part) (off : Nat) (bs : List Byte) (pres : Bool)

theorem bytes_landPut (bad : List Nat) : (x.landPut off bs bad pres).bytes = putBytes off bs x.bytes := by
  cases pres <;> rfl

theorem poison_landPut_of_clean : (x.landPut off bs [] pres).poison = dropAll (wholeUnits 8 off bs.length) x.poison := by
  cases pres <;> rfl

/-- Data without poison poisons no word. -/
theorem badIn_landPut_of_clean {q n : Nat} (h : x.badIn q n = []) : (x.landPut off bs [] pres).badIn q n = [] := by
  rw [Part.badIn, List.filter_eq_nil_iff] at h ⊢
  intro j hj hbad
  rw [poison_landPut_of_clean, List.contains_iff_mem, dropAll, List.mem_filter] at hbad
  exact h j hj (List.contains_iff_mem.2 hbad.1)

/-- A counter without poison takes its increment. -/
theorem bump_of_clean {q : Nat} (inc : Nat) (h : x.badIn q 8 = []) :
    x.bump q inc = x.store q (toBytes 8 (natAt x.bytes q 8 + inc)) [] := if_neg (not_not.2 h)

/-- The counter beside the data: its old value and the increment. -/
theorem natAt_bump_landPut {q : Nat} (inc : Nat) (h : x.badIn q 8 = []) (ha : q + 8 ≤ off ∨ off + bs.length ≤ q) :
    natAt ((x.landPut off bs [] pres).bump q inc).bytes q 8 = (natAt x.bytes q 8 + inc) % 2 ^ 64 := by
  rw [bump_of_clean _ inc (badIn_landPut_of_clean x off bs pres h), bytes_landPut, natAt_putBytes_apart ha]
  exact natAt_putBytes_toBytes ..

/-- Beside the counter the data stand in their range, and the other bytes as they were. -/
theorem byteAt_bump_landPut {q : Nat} (inc : Nat) (h : x.badIn q 8 = []) {a : Nat} (ha : ¬(q ≤ a ∧ a < q + 8)) :
    byteAt ((x.landPut off bs [] pres).bump q inc).bytes a =
      if off ≤ a ∧ a < off + bs.length then bs.getD (a - off) 0 else byteAt x.bytes a := by
  rw [bump_of_clean _ inc (badIn_landPut_of_clean x off bs pres h)]
  refine (byteAt_putBytes ..).trans ?_
  rw [length_toBytes, if_neg ha, bytes_landPut, byteAt_putBytes]

end

-- A RESIDENT WORKGROUP'S SCRATCHPAD

section
variable {s : State} {w c : Nat} {g : Workgroup} (hg : s.wg w = some g)
include hg

theorem modAnyPart_of_resident (f : Part → Part) : s.modAnyPart w c f = s.modPart w c f := by
  simp [State.modAnyPart, hg]

theorem modPart_of_resident (f : Part → Part) : s.modPart w c f =
    { s with wgs := ins w { g with parts := set {} c (f (lookD {} g.parts c)) g.parts } s.wgs } := by
  simp [State.modPart, State.modWg, hg]

/-- A change of a part keeps the workgroup and its generation. -/
theorem wg_modPart (f : Part → Part) :
    (s.modPart w c f).wg w = some { g with parts := set {} c (f (lookD {} g.parts c)) g.parts } := by
  rw [modPart_of_resident hg]
  exact look_ins_self ..

theorem targetLives_of_resident {gen off : Nat} (hgen : g.gen = gen) : s.targetLives (.scr w gen c off) = true := by
  simp [State.targetLives, State.anyWg, hg, hgen]

end

-- LANDING (08 R227, R229)

section
variable {s : State} {d : Delivery} {w gen c off : Nat} (hto : d.to_ = .scr w gen c off)
include hto

/-- A delivery to a resident workgroup of its generation stores its bytes, then its increment. -/
theorem land_of_resident {g : Workgroup} {q : Nat} (hg : s.wg w = some g) (hgen : g.gen = gen)
    (hcnt : d.counter = some (.scr w gen c q)) :
    s.land d = (s.modPart w c fun x => x.landPut off d.bytes d.bad d.pres).modPart w c fun x => x.bump q d.inc := by
  have hg' := wg_modPart (c := c) hg fun x => x.landPut off d.bytes d.bad d.pres
  simp only [State.land, hto, hcnt, targetLives_of_resident hg hgen, modAnyPart_of_resident hg, if_true,
    targetLives_of_resident hg' (gen := gen) hgen, modAnyPart_of_resident hg']

/-- A delivery whose workgroup or generation is gone is counted, and a strict put told. -/
theorem land_of_gone (hgone : ∀ g, s.anyWg w = some g → g.gen ≠ gen) : s.land d = match d.strict with
    | none => s.count d.ctx 16 1
    | some n => { s.count d.ctx 16 1 with putDrops := addTo n s.putDrops } := by
  have hdead : s.targetLives (.scr w gen c off) = false := by
    simpa [State.targetLives] using hgone
  cases hst : d.strict <;> simp only [State.land, hto, hdead, hst] <;> rfl

end

/-- A delivery that no other must precede lands. -/
theorem exec_putDelivery_of_first {s : State} {idx : Nat} {d : Delivery} (hd : s.puts[idx]? = some d)
    (hwin : d.multi = true → d.window ≠ none) (hfirst : ∀ e ∈ s.puts, e.before d = false) :
    exec (.putDelivery idx) s = .next ({ s with puts := s.puts.eraseIdx idx }.land d) := by
  have hwait : ((d.multi && d.window.isNone) || s.puts.any fun e => e.before d) = false := by
    have hany : (s.puts.any fun e => e.before d) = false := List.any_eq_false.2 fun e he => by simp [hfirst e he]
    cases hm : d.multi
    · simp [hany]
    · simp [hany, Option.isSome_iff_ne_none.2 (hwin hm)]
  show execPutDelivery idx s = _
  simp [execPutDelivery, hd, hwait]

/-- The Reed numbers the multicasts that have no window, and no other delivery (08 R228). -/
theorem exec_reedWindow (s : State) : exec .reedWindow s = .next { s with
    reed := s.reed + 1
    puts := s.puts.map fun d => if d.multi = true ∧ d.window = none then { d with window := some s.reed } else d } := by
  show execReedWindow s = _
  simp only [execReedWindow, Bool.and_eq_true, Option.isNone_iff_eq_none]

/-- Settles O34: a delivery to a living scratchpad changes its part alone, one to another is counted; the window's number is given. -/
theorem putsLandOrAreDropped : Obligations.PutsLandOrAreDropped := by
  constructor
  · intro s idx d w gen c off hd hwin hfirst hto u
    have hexec : exec (.putDelivery idx) s = .next (u.land d) := exec_putDelivery_of_first hd hwin hfirst
    constructor
    · intro g q hg hgen hbad hcnt hapart hclean
      have hg1 := wg_modPart (s := u) (c := c) hg fun x => x.landPut off d.bytes d.bad d.pres
      have hpart : (u.land d).part w c = ((s.part w c).landPut off d.bytes [] d.pres).bump q d.inc := by
        rw [land_of_resident (s := u) hto hg hgen hcnt, part_modPart _ _ _ _ _ hg1, part_modPart u _ _ _ _ hg, hbad]
        rfl
      refine ⟨_, hexec, fun f => ?_, ?_, fun a ha => ?_⟩
      · rw [land_of_resident (s := u) hto hg hgen hcnt, modPart_of_resident hg1, modPart_of_resident (s := u) hg]
      · rw [hpart]
        exact natAt_bump_landPut _ off _ _ _ hclean hapart
      · rw [hpart]
        exact byteAt_bump_landPut _ off _ _ _ hclean ha
    · intro hgone
      exact hexec.trans (congrArg _ (land_of_gone (s := u) hto hgone))
  · exact exec_reedWindow

end Sys2Proof.Machine
end

section
/-! One thread's trap, and a calm skein through a change of it, as the statements of the memory instructions have them. -/

namespace Sys2Proof.Machine

/-- What one thread's effect traps with is taken, where its skein is still as it was. -/
theorem one_traps (i : Instr) (c : Ctl) (stall : Nat) (ends : Bool) (op : SeqOp) (s : State) (is : Issue) (k : Skein) (l : Nat)
    (h : s.poisedOne is k c l) (he : exec i s = .next (s.runEach i c stall ends op)) (hd : op.denied (laneOf k.threads l) = false)
    (h1 : (laneOf k.threads l).has k.alloc (op.dsts (laneOf k.threads l).views))
    (h2 : (laneOf k.threads l).has k.alloc ((op.reads (laneOf k.threads l).views).flatMap Rd.ops)) (q : Trap) (u : State)
    (hr : op.run (siteOf s is l) (oneInput op.toOp s k l) s = (u, .trap q))
    (h3 : op.illegal (laneOf k.threads l).views = false := by rfl)
    (h4 : (laneOf k.threads l).has k.alloc (op.names (laneOf k.threads l).views) := by intro _ h; cases h) :
    Claims.traps s i is k l q u :=
  fun hu hc hw hb => runEach_trap i c stall ends op s is k l h he hd h1 h2 q u hu hr hc hw (by rw [hb]; rfl) h3 h4

/-- A change of a skein that leaves its step, stop, halt and watchdog leaves it calm. -/
theorem calm_modSkein {u : State} {is : Issue} (hu : ∃ k', u.skein is.core is.slot = some k' ∧ k'.calm) {f : Skein → Skein}
    (hf : ∀ k, k.calm → (f k).calm) : ∃ k', (u.modSkein is.core is.slot f).skein is.core is.slot = some k' ∧ k'.calm := by
  obtain ⟨k', hk, hc⟩ := hu
  exact ⟨f k', (State.skein_modSkein_self ..).trans (congrArg _ hk), hf k' hc⟩

end Sys2Proof.Machine
end

section
/-! Loads of one thread (07 R176, R179, R193, 09 R231, R233): what LD and LDG do where their address is good, and from it O20. -/

namespace Sys2Proof.Machine

/-- LD, or LDG. -/
def loadInstr (ldg : Bool) (sz : LdSize) (x : FmtM) : Instr := if ldg then .ldg sz x else .ld sz x

theorem exec_loadInstr (ldg : Bool) (sz : LdSize) (x : FmtM) (s : State) :
    exec (loadInstr ldg sz x) s = .next (s.runEach (loadInstr ldg sz x) x.ctl 0 false (loadOp ldg sz x)) := by
  cases ldg <;> rfl

/-- Bytes that a load has read, extended as its size says (09 R233). -/
def loadExt (sz : LdSize) (v : Nat) : Nat :=
  if (LdSize.shape sz).2.2 then ((BitVec.ofNat (8 * (LdSize.shape sz).1) v).signExtend 32).toNat else v

/-- Whether a load reads at the home slices (08 R212, 09 R233). -/
def loadHome (ldg : Bool) (x : FmtM) (k : Skein) (u : State) : Bool := ldg || (x.ctl.flag && u.wideScope k x.ctl.scope.toNat)

-- THE EFFECT OF ONE THREAD

section
variable {ldg : Bool} {sz : LdSize} {x : FmtM} {s : State} {is : Issue} {k : Skein} {l : Nat} (h : s.poisedOne is k x.ctl l)
  {li : LaneIn} {va : Word} (ha : effAddr (li.val 0) x.off = va) (hal : va.toNat % (LdSize.shape sz).1 = 0) {u : State} {p : Place}
  (hp : s.place (siteOf s is l).core k.ctx k.wgKey va (LdSize.shape sz).1 .load (!(laneOf k.threads l).sup) = (u, .ok p))
include h ha hal hp

/-- A load of host kind waits for the link. -/
theorem loadRun_host {a : Nat} (hh : p = .host a) : loadRun ldg sz x false (siteOf s is l) li s = (u, .wait .link li.vals) := by
  have hk : s.skein (siteOf s is l).core (siteOf s is l).slot = some k := (poised_skein h).1
  subst hh
  simp only [loadRun, hk, ha, hal, site_thread h, hp]
  rfl

variable (hh : ∀ a, p ≠ .host a)
  (hb : u.tileBusy (siteOf s is l).core (siteOf s is l).slot p (LdSize.shape sz).1 false = false) {v : State}
include hh hb

/-- A load of a line that is not present waits for it. -/
theorem loadRun_absent
    (hr : u.readFor (siteOf s is l).core (siteOf s is l).slot p (LdSize.shape sz).1 (loadHome ldg x k u) = (v, .absent)) :
    loadRun ldg sz x false (siteOf s is l) li s = (v, .wait .presence li.vals) := by
  have hk : s.skein (siteOf s is l).core (siteOf s is l).slot = some k := (poised_skein h).1
  unfold loadHome at hr
  cases p
  case host a => exact absurd rfl (hh a)
  all_goals
    simp only [loadRun, hk, ha, hal, site_thread h, hp, hb, hr]
    rfl

/-- A load is owed what its read gives. -/
theorem loadRun_reads {bs : List Byte} {bad : List Nat}
    (hr : u.readFor (siteOf s is l).core (siteOf s is l).slot p (LdSize.shape sz).1 (loadHome ldg x k u) = (v, .ok bs [] bad)) :
    loadRun ldg sz x false (siteOf s is l) li s =
      (v.hold (siteOf s is l) x.data (LdSize.shape sz).2.1 (loadExt sz (ofBytes bs)) bad, .next) := by
  have hk : s.skein (siteOf s is l).core (siteOf s is l).slot = some k := (poised_skein h).1
  unfold loadHome at hr
  cases p
  case host a => exact absurd rfl (hh a)
  all_goals
    simp only [loadRun, hk, ha, hal, site_thread h, hp, hb, hr, sextNat_eq_signExtend]
    rfl

end

/-- An address within the own part of the grant is placed there. -/
theorem place_scratch {s : State} {core ctx wk off n : Nat} {va : Word} {use : Use} {user : Bool} {g : Workgroup}
    (hg : s.wg wk = some g) (hs : Claims.inScratch va off) (hn : off + n ≤ g.scratch) :
    s.place core ctx wk va n use user = (s, .ok (.scr wk ((g.slotOf core).getD 0) off)) :=
  place_of_window (inScratch_bits hs).2.1 ((window_scratch hg hs).trans (if_pos hn))

/-- A placed address read for a load: of the skeins only queues and threads differ. -/
theorem stills_load {s u v : State} {core slot ctx wk n m : Nat} {va : Word} {use : Use} {user home : Bool} {p : Place}
    {r : ReadResult} (hp : s.place core ctx wk va n use user = (u, .ok p)) (hr : u.readFor core slot p m home = (v, r)) : s.stills v := by
  have hu : s.stills u := (State.stills.refl s).memOnly (.beside hp ((State.memOnly.refl s).place ..))
  have hv := stills_readFor u core slot p m home
  rw [hr] at hv
  exact hu.trans hv

-- LD AND LDG

section
variable {ldg : Bool} {sz : LdSize} {x : FmtM} {s : State} {is : Issue} {k : Skein} {l : Nat} (h : s.poisedOne is k x.ctl l)
include h

/-- The one source of a load's thread. -/
theorem load_vals : (oneInput (loadOp ldg sz x).toOp s k l).vals = [(laneOf k.threads l).reg x.base 8] :=
  congrArg (· :: []) (reg_value (laneOf k.threads l) k.threads l rfl (by simp [poised_running h]) x.base 8)

variable (hbase : (laneOf k.threads l).has k.alloc [(x.base, 8, 1)])
  (hdata : (laneOf k.threads l).has k.alloc [(x.data, (LdSize.shape sz).2.1, 1)])
include hbase hdata

/-- A load ends as its effect does. -/
theorem load_ends {u : State} {f : Fate}
    (hr : loadRun ldg sz x false (siteOf s is l) (oneInput (loadOp ldg sz x).toOp s k l) s = (u, f))
    (hf : ∀ t, f ≠ .trap t) (hu : s.stills u) :
    ∃ t, exec (loadInstr ldg sz x) s = .next t ∧ u.endsAs t (loadInstr ldg sz x) is l f :=
  one_ends _ _ _ _ (loadOp ldg sz x) s is k l h (exec_loadInstr ldg sz x s) rfl hdata hbase u f hr hf (poised_calm h hu)

variable {va : Word} (hva : Claims.ea (laneOf k.threads l) x = va) (hal : va.toNat % (LdSize.shape sz).1 = 0) {u : State}
  {p : Place} (hp : s.place is.core k.ctx k.wgKey va (LdSize.shape sz).1 .load (!(laneOf k.threads l).sup) = (u, .ok p))
include hva hal hp

theorem load_host {a : Nat} (hh : p = .host a) : ∃ t, exec (loadInstr ldg sz x) s = .next t ∧
    u.endsAs t (loadInstr ldg sz x) is l (.wait .link [(laneOf k.threads l).reg x.base 8]) := by
  have hrun := loadRun_host (ldg := ldg) (sz := sz) h ((effAddr_base h (op := (loadOp ldg sz x).toOp) rfl).trans hva) hal hp hh
  rw [load_vals h] at hrun
  exact load_ends h hbase hdata hrun nofun ((State.stills.refl s).memOnly (.beside hp ((State.memOnly.refl s).place ..)))

variable (hh : ∀ a, p ≠ .host a) (hb : u.tileBusy is.core is.slot p (LdSize.shape sz).1 false = false) {v : State}
include hh hb

theorem load_absent (hr : u.readFor is.core is.slot p (LdSize.shape sz).1 (loadHome ldg x k u) = (v, .absent)) :
    ∃ t, exec (loadInstr ldg sz x) s = .next t ∧
      v.endsAs t (loadInstr ldg sz x) is l (.wait .presence [(laneOf k.threads l).reg x.base 8]) := by
  have hrun := loadRun_absent (ldg := ldg) h ((effAddr_base h (op := (loadOp ldg sz x).toOp) rfl).trans hva) hal hp hh hb hr
  rw [load_vals h] at hrun
  exact load_ends h hbase hdata hrun nofun (stills_load hp hr)

theorem load_reads {bs : List Byte} {bad : List Nat}
    (hr : u.readFor is.core is.slot p (LdSize.shape sz).1 (loadHome ldg x k u) = (v, .ok bs [] bad)) :
    ∃ t, exec (loadInstr ldg sz x) s = .next t ∧
      (v.hold (siteOf s is l) x.data (LdSize.shape sz).2.1 (loadExt sz (ofBytes bs)) bad).endsAs t
        (loadInstr ldg sz x) is l .next := by
  have hrun := loadRun_reads (ldg := ldg) h ((effAddr_base h (op := (loadOp ldg sz x).toOp) rfl).trans hva) hal hp hh hb hr
  exact load_ends h hbase hdata hrun nofun ((stills_load hp hr).trans (hold_stills ..))

end

/-- Settles O20: a load of a placed address does what its read comes to; the own scratchpad is placed with nothing changed. -/
theorem loadsAreOwedTheirBytes : Obligations.LoadsAreOwedTheirBytes := by
  intro sz ldg x s is k l h i th n w ext va hbase hdata hal
  refine ⟨fun g off hs hq hb => ⟨fun hread => ?_, fun hg hn hmiss => ?_⟩,
    fun u p hp => ⟨fun a hh => ?_, fun hh hb v bs bad hr => ?_⟩⟩
  · obtain ⟨hg, hn, hpres, hmark, hbad⟩ := hread
    exact load_reads h hbase hdata rfl hal (place_scratch hg hs hn) nofun (hb _)
      (readFor_scr s _ _ k (poised_skein h).1 hq _ _ off n _ hpres hmark hbad)
  · exact load_absent h hbase hdata rfl hal (place_scratch hg hs hn) nofun (hb _)
      (readFor_absent s _ _ k (poised_skein h).1 hq _ _ off n _ hmiss)
  · exact load_host h hbase hdata rfl hal hp hh
  · exact load_reads h hbase hdata rfl hal hp hh hb hr

end Sys2Proof.Machine
end

section
/-! What atomics write (09 R235), and from it O22. -/

namespace Sys2Proof.Machine

theorem sgn_toNat {w : Nat} (x : BitVec w) : sgn w x.toNat = x.toInt := by
  rw [sgn_ofNat, BitVec.ofNat_toNat, BitVec.setWidth_eq]

theorem atomStore_of_ne_cas {op : AtomOp} (h : op ≠ .cas) (w old v c : Nat) :
    atomStore op w old v c = some (atomNew op w old v c) := if_neg fun hc => h hc.1

/-- CAS stores its operand where the old value is its comparand. -/
theorem atomStore_cas (w old v c : Nat) : atomStore .cas w old v c = if old = c then some v else none := by
  by_cases h : old = c <;> simp [atomStore, atomNew, atomValue, h]

/-- The operations of the table on the numbers of two bit vectors. -/
theorem atomNew_atomTable {w : Nat} (old v : BitVec w) (c : Nat) :
    ∀ p ∈ Claims.atomTable w, p.1 ≠ .cas ∧ atomNew p.1 w old.toNat v.toNat c = (p.2 old v).toNat := by
  simp only [Claims.atomTable, List.forall_mem_cons, List.not_mem_nil, false_imp_iff, implies_true, and_true]
  refine ⟨⟨nofun, ?add⟩, ⟨nofun, ?mins⟩, ⟨nofun, ?minn⟩, ⟨nofun, ?maxs⟩, ⟨nofun, ?maxn⟩, ⟨nofun, ?and⟩, ⟨nofun, ?or⟩,
    ⟨nofun, ?xor⟩, ⟨nofun, ?exch⟩⟩
  case add => exact (BitVec.toNat_add old v).symm
  case mins | maxs =>
    simp only [atomNew, atomValue, sgn_toNat, BitVec.slt_iff_toInt_lt]
    split <;> rfl
  case minn | maxn =>
    simp only [atomNew, atomValue, BitVec.ult_iff_toNat_lt]
    split <;> rfl
  case and => exact (BitVec.toNat_and old v).symm
  case or => exact (BitVec.toNat_or old v).symm
  case xor => exact (BitVec.toNat_xor old v).symm
  case exch => rfl

/-- Settles O22: each operation's number is that of the table's bit vector; CAS and FADD by their definitions. -/
theorem atomicsComputeTheirTable : Obligations.AtomicsComputeTheirTable := by
  intro w old v c _
  refine ⟨fun p hp => ?_, ?_, ?_, ?_⟩
  · obtain ⟨hop, hnew⟩ := atomNew_atomTable old v c.toNat p hp
    rw [atomStore_of_ne_cas hop, hnew]
  · simp only [atomStore_cas, BitVec.toNat_inj]
  · rintro rfl
    exact atomStore_of_ne_cas (op := .fadd) nofun ..
  · rintro rfl
    exact atomStore_of_ne_cas (op := .fadd) nofun ..

end Sys2Proof.Machine
end

section
/-! SPZ, SPABS, SPCRD and CARVE (09 R253 to R255, 15 R382): what the check of a range of lines answers, what each does for one
thread, and from them O26. -/

namespace Sys2Proof.Machine

theorem grantOf_eq {s : State} {wk : Nat} {g : Workgroup} (hg : s.wg wk = some g) : s.grantOf wk = g.scratch := by
  simp only [State.grantOf, hg, Option.map_some, Option.getD_some]

-- A RANGE OF LINES (09 R253)

section
variable {s : State} {st : Site} {k : Skein} {va : Word} {n : Nat}

theorem lineRange_misaligned (h : va.toNat % 128 ≠ 0 ∨ n % 128 ≠ 0) : s.lineRange st k va n = .error (dataTrap .align va .write) :=
  if_pos h

theorem lineRange_empty (h : va.toNat % 128 = 0) : s.lineRange st k va 0 = .ok none :=
  (if_neg (not_or.2 ⟨not_not.2 h, not_not.2 rfl⟩)).trans (if_pos rfl)

/-- The bits of an address of the own grant. -/
theorem inOwn_bits {c off : Nat} (h : Claims.inOwn c va off) :
    va.toNat < 2 ^ 52 ∧ va.toNat / 2 ^ 48 = 0xF ∧ bits va.toNat 0 21 = off ∧
    (bits va.toNat 40 8 = 0 ∧ bits va.toNat 21 19 = 0 ∨
      bits va.toNat 40 8 = 1 ∧ bits va.toNat 23 17 = 0 ∧ bits va.toNat 21 2 = c) := by
  obtain ⟨hoff, rfl | ⟨hc, rfl⟩⟩ := h <;> simp only [BitVec.toNat_ofNat, bits_eq] <;> omega

variable (ha : va.toNat % 128 = 0) (hn : n % 128 = 0) (h0 : n ≠ 0)
include ha hn h0

/-- Outside the windows no line is the workgroup's own. -/
theorem lineRange_outside (h : va.toNat < 0xF * 2 ^ 48 ∨ 2 ^ 52 ≤ va.toNat) :
    s.lineRange st k va n = .error (dataTrap .prot va .write) := by
  refine (if_neg (not_or.2 ⟨not_not.2 ha, not_not.2 hn⟩)).trans ((if_neg h0).trans (if_pos ?_))
  rcases h with h | h
  · have hwin : (va.toNat / 2 ^ 48 == 0xF) = false := beq_false_of_ne (by omega)
    rw [hwin]
    exact .inr rfl
  · exact .inl h

/-- Lines at an offset of the own grant are good where they end within it; else the lowest line beyond it faults. -/
theorem lineRange_own {g : Workgroup} {off : Nat} (hg : s.wg k.wgKey = some g)
    (h : Claims.inOwn ((g.slotOf st.core).getD 0) va off) : s.lineRange st k va n =
      if off + n ≤ g.scratch then .ok (some ((g.slotOf st.core).getD 0, off))
      else .error (dataTrap .prot (va + word (g.scratch - off)) .write) := by
  obtain ⟨hlt, hwin, hoff, hnum⟩ := inOwn_bits h
  refine (if_neg (not_or.2 ⟨not_not.2 ha, not_not.2 hn⟩)).trans ((if_neg h0).trans ((if_neg ?_).trans ?_))
  · rw [hg, Option.bind_some, hwin]
    rcases hnum with ⟨h1, h2⟩ | ⟨h1, h2, h3⟩
    · simpa [h1, h2] using hlt
    · simpa [h1, h2, h3] using hlt
  · rw [hg, Option.bind_some, grantOf_eq hg, hoff]

end

-- SPZ AND SPABS

/-- SPZ, or SPABS. -/
def linesInstr (zero : Bool) (x : FmtX) : Instr := if zero then .spz x else .spabs x

/-- What SPZ, or SPABS, does to its lines. -/
def linesAct (zero : Bool) : Nat → Nat → Nat → Nat → SqAct := if zero then .spz else .spabs

/-- What SPZ and SPABS do for each thread. -/
def linesOp (zero : Bool) (x : FmtX) : SeqOp := { reads := pairReads x 4, run := linesRun (linesAct zero) }

theorem exec_linesInstr (zero : Bool) (x : FmtX) (s : State) :
    exec (linesInstr zero x) s = .next (s.runEach (linesInstr zero x) x.ctl 0 false (linesOp zero x)) := by
  cases zero <;> rfl

section
variable {zero : Bool} {x : FmtX} {s : State} {is : Issue} {k : Skein} {l : Nat} (h : s.poisedOne is k x.ctl l)
  (hreg : (laneOf k.threads l).has k.alloc [(x.r1, 8, 1), (x.r2, 4, 1)]) {va : Word} {n : Nat}
  (hva : word ((laneOf k.threads l).reg x.r1 8) = va) (hn : (laneOf k.threads l).reg x.r2 4 = n)
include h hva hn

/-- The one thread's SPZ or SPABS, by what the check of its range answers. -/
theorem linesRun_one : linesRun (linesAct zero) (siteOf s is l) (oneInput (linesOp zero x).toOp s k l) s =
    match s.lineRange (siteOf s is l) k va n with
    | .error t => (s, .trap t)
    | .ok none => (s, .next)
    | .ok (some (c, off)) =>
      if s.tileBusy is.core is.slot (.scr k.wgKey c off) n true then
        (s, .wait .presence (oneInput (linesOp zero x).toOp s k l).vals)
      else (Claims.queued s is { act := linesAct zero k.wgKey c off n, lane := l }, .next) := by
  have hk : s.skein (siteOf s is l).core (siteOf s is l).slot = some k := (poised_skein h).1
  have h0 := val_at h (linesOp zero x).toOp 0 x.r1 8 rfl
  have h1 := val_at h (linesOp zero x).toOp 1 x.r2 4 rfl
  simp only [linesRun, hk, h0, h1, hva, hn]
  rfl

include hreg

theorem lines_faults {c : Cause} {a : Word} (hr : s.lineRange (siteOf s is l) k va n = .error (dataTrap c a .write))
    (hc : c.replayable = false) (hw : c ≠ .watchdog) (hb : c.debug = false) : s.faults (linesInstr zero x) is k l c a is.word := by
  have hrun := linesRun_one (zero := zero) h hva hn
  rw [hr] at hrun
  exact (one_traps _ x.ctl 0 false (linesOp zero x) s is k l h (exec_linesInstr zero x s) rfl (has_nil _ _) hreg
    (dataTrap c a .write) s hrun) (poised_skein h).1 hc hw hb

theorem lines_empty (hr : s.lineRange (siteOf s is l) k va n = .ok none) :
    ∃ t, exec (linesInstr zero x) s = .next t ∧ s.endsAs t (linesInstr zero x) is l .next := by
  have hrun := linesRun_one (zero := zero) h hva hn
  rw [hr] at hrun
  exact one_ends _ x.ctl 0 false (linesOp zero x) s is k l h (exec_linesInstr zero x s) rfl (has_nil _ _) hreg
    s .next hrun nofun ⟨k, poised_skein h⟩

theorem lines_queue {c off : Nat} (hr : s.lineRange (siteOf s is l) k va n = .ok (some (c, off)))
    (hb : s.tileBusy is.core is.slot (.scr k.wgKey c off) n true = false) : ∃ t, exec (linesInstr zero x) s = .next t ∧
      (Claims.queued s is { act := linesAct zero k.wgKey c off n, lane := l }).endsAs t (linesInstr zero x) is l .next := by
  have hrun := linesRun_one (zero := zero) h hva hn
  simp only [hr, hb, Bool.false_eq_true, if_false] at hrun
  exact one_ends _ x.ctl 0 false (linesOp zero x) s is k l h (exec_linesInstr zero x s) rfl (has_nil _ _) hreg
    _ .next hrun nofun (calm_modSkein ⟨k, poised_skein h⟩ fun _ hc => hc)

end


/-- What SPZ and SPABS do for one thread, by the check of their range. -/
theorem lines_complete {zero : Bool} {x : FmtX} {s : State} {is : Issue} {k : Skein} {l : Nat} (h : s.poisedOne is k x.ctl l)
    {g : Workgroup} (hg : s.wg k.wgKey = some g) (hreg : (laneOf k.threads l).has k.alloc [(x.r1, 8, 1), (x.r2, 4, 1)]) :
    let va := word ((laneOf k.threads l).reg x.r1 8)
    let n := (laneOf k.threads l).reg x.r2 4
    let c := (g.slotOf is.core).getD 0
    let i := linesInstr zero x
    (va.toNat % 128 ≠ 0 ∨ n % 128 ≠ 0 → s.faults i is k l .align va is.word) ∧
    (va.toNat % 128 = 0 → n = 0 → ∃ t, exec i s = .next t ∧ s.endsAs t i is l .next) ∧
    (va.toNat % 128 = 0 → n % 128 = 0 → n ≠ 0 →
      (va.toNat < 0xF * 2 ^ 48 ∨ 2 ^ 52 ≤ va.toNat → s.faults i is k l .prot va is.word) ∧
      ∀ off, Claims.inOwn c va off →
        (g.scratch < off + n → s.faults i is k l .prot (va + word (g.scratch - off)) is.word) ∧
        (off + n ≤ g.scratch → s.tileBusy is.core is.slot (.scr k.wgKey c off) n true = false →
          ∃ t, exec i s = .next t ∧
            (Claims.queued s is { act := linesAct zero k.wgKey c off n, lane := l }).endsAs t i is l .next)) := by
  intro va n c i
  refine ⟨fun ha => ?_, fun ha h0 => ?_, fun ha hn h0 => ⟨fun hout => ?_, fun off hown => ⟨fun hpast => ?_, fun hin hb => ?_⟩⟩⟩
  · exact lines_faults h hreg rfl rfl (lineRange_misaligned ha) rfl (by decide) rfl
  · exact lines_empty h hreg rfl h0 (lineRange_empty ha)
  · exact lines_faults h hreg rfl rfl (lineRange_outside ha hn h0 hout) rfl (by decide) rfl
  · have hr := (lineRange_own (st := siteOf s is l) ha hn h0 hg hown).trans (if_neg (Nat.not_le.2 hpast))
    exact lines_faults h hreg rfl rfl hr rfl (by decide) rfl
  · have hr := (lineRange_own (st := siteOf s is l) ha hn h0 hg hown).trans (if_pos hin)
    exact lines_queue h hreg rfl rfl hr hb

-- SPCRD (09 R254)

/-- What SPCRD does for each thread. -/
def spcrdOp (x : FmtX) : SeqOp := { reads := fun _ => [.reg x.r1 4], run := spcrdRun x }

theorem exec_spcrd (x : FmtX) (s : State) : exec (.spcrd x) s = .next (s.runEach (.spcrd x) x.ctl 0 false (spcrdOp x)) := rfl

section
variable {x : FmtX} {s : State} {is : Issue} {k : Skein} {l : Nat} (h : s.poisedOne is k x.ctl l) {li : LaneIn} {d : Nat}
  (hd : li.val 0 = d)
include h hd

theorem spcrdRun_reserved (hbad : d / 2 ^ 21 % 32 ≠ 0 ∨ d % 2 ^ 21 % 4 ≠ 0) :
    spcrdRun x (siteOf s is l) li s = (s, .trap { cause := .illegalField }) := by
  have hk : s.skein (siteOf s is l).core (siteOf s is l).slot = some k := (poised_skein h).1
  simp only [spcrdRun, hk, hd, bits_eq, pow_zero, Nat.div_one]
  exact if_pos hbad

variable (hres : d / 2 ^ 21 % 32 = 0) (hal : d % 2 ^ 21 % 4 = 0) {g : Workgroup} (hg : s.wg k.wgKey = some g)
include hres hal hg

/-- A good descriptor joins the queue where its table ends within the grant. -/
theorem spcrdRun_valid : spcrdRun x (siteOf s is l) li s =
    if d / 2 ^ 31 % 2 = 1 ∧ g.scratch < d % 2 ^ 21 + 4 * (d / 2 ^ 26 % 32 + 1) then
      (s, .trap (dataTrap .prot (word (0xF * 2 ^ 48 + max (d % 2 ^ 21) g.scratch)) .read))
    else (Claims.queued s is
      { act := .spcrd k.wgKey ((g.slotOf is.core).getD 0) (x.imm.toNat % 4) (BitVec.ofNat 32 d), lane := l }, .next) := by
  have hk : s.skein (siteOf s is l).core (siteOf s is l).slot = some k := (poised_skein h).1
  simp only [spcrdRun, hk, hd, bits_eq, pow_zero, Nat.div_one, grantOf_eq hg, hg, Option.bind_some, fld_kind]
  exact if_neg (not_or.2 ⟨not_not.2 hres, not_not.2 hal⟩)

end

-- CARVE (09 R255)

/-- What CARVE does for each thread. -/
def carveOp (x : FmtX) : SeqOp := { run := carveRun x }

section
variable {x : FmtX} {s : State} {is : Issue} {k : Skein} {l : Nat} (h : s.poisedOne is k x.ctl l)
include h

theorem carveRun_writes (li : LaneIn) : carveRun x (siteOf s is l) li s =
    (((s.drainTo is.core is.slot 4).modVar k.ctx fun v => { v with carve := x.imm.toNat % 16 }).putEntry k.ctx 0x2C
      [BitVec.ofNat 8 (x.imm.toNat % 16)], .next) := by
  have hk : s.skein (siteOf s is l).core (siteOf s is l).slot = some k := (poised_skein h).1
  have hfld : fld x.imm 0 4 = x.imm.toNat % 16 := by rw [fld_eq]; simp
  simp only [carveRun, hk, hfld]
  rfl

end

theorem memOnly_putEntry (s : State) (ctx off : Nat) (bs : List Byte) : s.memOnly (s.putEntry ctx off bs) := by
  unfold State.putEntry
  split
  · exact .refl s
  · exact (State.memOnly.refl s).homeWrite ..

section
variable {x : FmtX} {s : State} {is : Issue} {k : Skein} {l : Nat} (h : s.poisedOne is k x.ctl l)
include h

/-- What SPCRD does for one thread, by the check of its descriptor. -/
theorem spcrd_completes {g : Workgroup} (hg : s.wg k.wgKey = some g) (hreg : (laneOf k.threads l).has k.alloc [(x.r1, 4, 1)]) :
    let d := (laneOf k.threads l).reg x.r1 4
    let table := d % 2 ^ 21
    let past := d / 2 ^ 31 % 2 = 1 ∧ g.scratch < table + 4 * (d / 2 ^ 26 % 32 + 1)
    (d / 2 ^ 21 % 32 ≠ 0 ∨ table % 4 ≠ 0 → s.faults (.spcrd x) is k l .illegalField 0 is.word) ∧
    (d / 2 ^ 21 % 32 = 0 → table % 4 = 0 →
      (past → s.faults (.spcrd x) is k l .prot (word (0xF * 2 ^ 48 + max table g.scratch)) is.word) ∧
      (¬past → ∃ t, exec (.spcrd x) s = .next t ∧ (Claims.queued s is
        { act := .spcrd k.wgKey ((g.slotOf is.core).getD 0) (x.imm.toNat % 4) (BitVec.ofNat 32 d), lane := l }).endsAs t
        (.spcrd x) is l .next)) := by
  intro d table past
  have hd : (oneInput (spcrdOp x).toOp s k l).val 0 = d := val_at h (spcrdOp x).toOp 0 x.r1 4 rfl
  have hfault {q : Trap} (hrun : spcrdRun x (siteOf s is l) (oneInput (spcrdOp x).toOp s k l) s = (s, .trap q)) :
      Claims.traps s (.spcrd x) is k l q s :=
    one_traps _ x.ctl 0 false (spcrdOp x) s is k l h (exec_spcrd x s) rfl (has_nil _ _) hreg q s hrun
  refine ⟨fun hbad => ?_, fun hres hal => ⟨fun hpast => ?_, fun hin => ?_⟩⟩
  · have htrap := hfault (spcrdRun_reserved h hd hbad)
    exact htrap (poised_skein h).1 rfl nofun rfl
  · have htrap := hfault ((spcrdRun_valid h hd hres hal hg).trans (if_pos hpast))
    exact htrap (poised_skein h).1 rfl nofun rfl
  · exact one_ends _ x.ctl 0 false (spcrdOp x) s is k l h (exec_spcrd x s) rfl (has_nil _ _) hreg _ .next
      ((spcrdRun_valid h hd hres hal hg).trans (if_neg hin)) nofun (calm_modSkein ⟨k, poised_skein h⟩ fun _ hc => hc)

/-- CARVE writes the reservation and its entry for one thread. -/
theorem carve_completes :
    let n := x.imm.toNat % 16
    let u := (s.drainTo is.core is.slot 4).modVar k.ctx fun v => { v with carve := n }
    ∃ t, exec (.carve x) s = .next t ∧ (u.putEntry k.ctx 0x2C [BitVec.ofNat 8 n]).endsAs t (.carve x) is l .next := by
  intro n u
  have hu : s.stills u := ((State.stills.refl s).drainTo is.core is.slot 4).of_skeins rfl
  exact one_ends _ x.ctl 0 false (carveOp x) s is k l h rfl rfl (has_nil _ _) (has_nil _ _) _ .next
    (carveRun_writes h (oneInput (carveOp x).toOp s k l)) nofun
    (poised_calm h (hu.memOnly (memOnly_putEntry ..)))

end

/-- Settles O26: SPZ and SPABS by the check of their range, SPCRD by that of its descriptor, CARVE by its write. -/
theorem scratchpadControlCompletes : Obligations.ScratchpadControlCompletes := by
  intro s is k l x g h hg th c
  refine ⟨fun hreg => ?_, spcrd_completes h hg, carve_completes h⟩
  obtain ⟨zeroAlign, zeroEmpty, zeroLines⟩ := lines_complete (zero := true) h hg hreg
  obtain ⟨absAlign, absEmpty, absLines⟩ := lines_complete (zero := false) h hg hreg
  refine ⟨fun ha => ⟨zeroAlign ha, absAlign ha⟩, fun ha h0 => ⟨zeroEmpty ha h0, absEmpty ha h0⟩, fun ha hn h0 => ?_⟩
  obtain ⟨zeroOut, zeroOwn⟩ := zeroLines ha hn h0
  obtain ⟨absOut, absOwn⟩ := absLines ha hn h0
  refine ⟨fun hout => ⟨zeroOut hout, absOut hout⟩, fun off hown => ?_⟩
  obtain ⟨zeroPast, zeroQueue⟩ := zeroOwn off hown
  obtain ⟨absPast, absQueue⟩ := absOwn off hown
  exact ⟨fun hpast => ⟨zeroPast hpast, absPast hpast⟩, fun hin hb => ⟨zeroQueue hin hb, absQueue hin hb⟩⟩

end Sys2Proof.Machine
end

section
/-! What SPZ, SPABS and SPCRD do when they perform (09 R253, R254, 07 R192, R193), and from it O27. -/

namespace Sys2Proof.Machine

-- SETS AND TABLES

theorem mem_addTo {k j : Nat} {l : List Nat} : j ∈ addTo k l ↔ j = k ∨ j ∈ l := by
  induction l with
  | nil => simp [addTo]
  | cons x r ih =>
    unfold addTo
    split_ifs with hlt heq
    · exact List.mem_cons
    · simp [heq]
    · simp only [List.mem_cons, ih]
      tauto

theorem mem_addAll {ks l : List Nat} {j : Nat} : j ∈ addAll ks l ↔ j ∈ ks ∨ j ∈ l := by
  induction ks with
  | nil => simp [addAll]
  | cons k r ih => rw [addAll, List.foldr_cons, mem_addTo, ← addAll, ih, List.mem_cons, or_assoc]

theorem mem_dropAll {ks l : List Nat} {j : Nat} : j ∈ dropAll ks l ↔ j ∈ l ∧ j ∉ ks := by
  simp [dropAll, List.mem_filter]

/-- A table after some of its keys have been deleted. -/
theorem look_foldl_del {α : Type} (ks : List Nat) (m : SMap α) (j : Nat) :
    look (ks.foldl (fun m k => del k m) m) j = if j ∈ ks then none else look m j := by
  induction ks generalizing m with
  | nil => rfl
  | cons k r ih =>
    rw [List.foldl_cons, ih, look_del]
    by_cases hr : j ∈ r <;> simp [hr]

-- THE ENTRIES OF THE QUEUE

/-- A part whose lines are zero and present, without a ring mark. -/
def Part.zeroed (x : Part) (off n : Nat) : Part :=
  { x.store off (List.replicate n 0) [] with
    absent := dropAll (units 128 off n) x.absent
    marks := (units 128 off n).foldl (fun m k => del k m) x.marks }

/-- A part whose lines are absent, without a ring mark. -/
def Part.emptied (x : Part) (off n : Nat) : Part :=
  { x with
    absent := addAll (units 128 off n) x.absent
    marks := (units 128 off n).foldl (fun m k => del k m) x.marks }

section
variable (s : State) (core ctx w c off n : Nat)

theorem performAct_spz : s.performAct core ctx (.spz w c off n) = s.modPart w c fun x => x.zeroed off n := rfl

theorem performAct_spabs : s.performAct core ctx (.spabs w c off n) = s.modPart w c fun x => x.emptied off n := rfl

theorem performAct_spcrd (j : Nat) (d : BitVec 32) :
    s.performAct core ctx (.spcrd w c j d) = s.modPart w c fun x => { x with desc := set 0 j d x.desc } := rfl

end

section
variable (x : Part) (off n : Nat)

theorem byteAt_zeroed (a : Nat) :
    byteAt (x.zeroed off n).bytes a = if off ≤ a ∧ a < off + n then 0 else byteAt x.bytes a := by
  refine (byteAt_putBytes ..).trans ?_
  rw [List.length_replicate]
  split
  · exact List.getD_replicate _ (by omega)
  · rfl

theorem missing_zeroed : (x.zeroed off n).missing off n = [] :=
  List.filter_eq_nil_iff.2 fun j hj => by simp [Part.zeroed, mem_dropAll, hj]

theorem marks_zeroed {j : Nat} (hj : j ∈ units 128 off n) : look (x.zeroed off n).marks j = none :=
  (look_foldl_del ..).trans (if_pos hj)

theorem mem_absent_emptied {j : Nat} : j ∈ (x.emptied off n).absent ↔ j ∈ units 128 off n ∨ j ∈ x.absent := mem_addAll

end

/-- Settles O27: each entry changes its part as its function of the part does. -/
theorem scratchpadControlPerforms : Obligations.ScratchpadControlPerforms := by
  intro s core ctx w c off n g hg
  have hpart (f : Part → Part) : (s.modPart w c f).part w c = f (s.part w c) := part_modPart s w c f g hg
  refine ⟨?spz, ?spabs, fun j d => ?spcrd⟩
  case spz =>
    rw [performAct_spz, hpart]
    exact ⟨byteAt_zeroed _ off n, missing_zeroed _ off n, fun j hj => marks_zeroed _ off n hj⟩
  case spabs =>
    rw [performAct_spabs, hpart]
    exact ⟨rfl, fun j hj => (mem_absent_emptied ..).2 (.inl hj), fun j hj => (mem_absent_emptied ..).2 (.inr hj)⟩
  case spcrd =>
    rw [performAct_spcrd, hpart]
    exact ⟨lookD_set_self .., rfl, rfl⟩

end Sys2Proof.Machine
end

section
/-! DDUPQ (09 R256, 15 R377): a page read as loads of one thread would read it, the answers of the two forms, and from them O32. -/

namespace Sys2Proof.Machine

-- A PAGE READ (09 R256)

section
variable {s : State} {st : Site} {k : Skein} {li : LaneIn}

/-- A page at a place that its loads can read. -/
theorem pageRead_of_loads {u v : State} {p : Place} {ws : List Nat} (hp : s.pageFor st k (li.val 0) = (u, .ok p))
    (hh : ∀ b, p ≠ .host b) (hb : u.tileBusy st.core st.slot p 4096 false = false)
    (hl : u.pageLoads st k.wgKey (word (li.val 0 / 4096 * 4096)) p li.vals (List.range 512) [] = (v, .ok ws)) :
    s.pageRead st k li false = (v, .ok (p, ws)) := by
  cases p
  case host b => exact absurd rfl (hh b)
  all_goals simp only [State.pageRead, hp, hb, hl, Bool.false_and, Bool.false_eq_true, if_false]

theorem stills_pageLoads (st : Site) (wk : Nat) (base : Word) (p : Place) (all : List Nat) :
    ∀ (js acc : List Nat) (s : State), s.stills (s.pageLoads st wk base p all js acc).1
  | [], _, s => .refl s
  | j :: js, acc, s => by
    have hread := stills_readFor s st.core st.slot (p.move (p.off + 8 * j)) 8 false
    unfold State.pageLoads
    split
    · next hr => rw [hr] at hread; exact hread
    · next hr => rw [hr] at hread; exact hread.trans (stills_pageLoads st wk base p all js _ _)
    · next hr => rw [hr] at hread; exact hread

theorem stills_ite {α : Type} {s : State} {c : Prop} [Decidable c] {a b : State × α} (ha : s.stills a.1) (hb : s.stills b.1) :
    s.stills (if c then a else b).1 := by
  split
  · exact ha
  · exact hb

theorem stills_pageRead (s : State) (st : Site) (k : Skein) (li : LaneIn) (linked : Bool) :
    s.stills (s.pageRead st k li linked).1 := by
  have hplace : s.memOnly (s.pageFor st k (li.val 0)).1 := (State.memOnly.refl s).place ..
  have hfor : s.stills (s.pageFor st k (li.val 0)).1 := (State.stills.refl s).memOnly hplace
  unfold State.pageRead
  split
  · next hp => rw [hp] at hfor; exact hfor
  · next u p hp =>
    rw [hp] at hfor
    have hloads := hfor.trans
      (stills_pageLoads st k.wgKey (word (li.val 0 / 4096 * 4096)) p li.vals (List.range 512) [] u)
    refine stills_ite hfor (stills_ite hfor ?_)
    split
    · next hl => rw [hl] at hloads; exact hloads
    · next hl => rw [hl] at hloads; exact hloads

end

-- THE ANSWERS

/-- What each form of DDUPQ reads and writes. -/
def pageOp (x : FmtX) (run : Site → LaneIn → State → State × Fate) : SeqOp :=
  { reads := fun _ => [.reg x.r2 8], dsts := fun _ => [(x.r1, 8, 1)], run := run }

/-- Bits that DDUPQ.st answers for a page with a leaf: those of its entry and its dedup-shared bit (15 R377). -/
def pageStatus (s : State) (ctx pa : Nat) (lf : Leaf) : Nat :=
  (match s.wayOf ctx (pa / 4096) (fingerprint (s.pageWords (pa / 4096 * 4096))) with
    | some e => 2 ^ 17 + natAt s.mem.bytes (e + 8) 8 / 2 ^ 40 % 2 ^ 16
    | none => 0) + lf.pte / 2 ^ 4 % 2 * 2 ^ 16

section
variable {x : FmtX} {s : State} {st : Site} {k : Skein} {li : LaneIn} {v : State} (hk : s.skein st.core st.slot = some k)
include hk

/-- Both forms stop as the read of their page does. -/
theorem ddupRun_stops {f : Fate} (hr : s.pageRead st k li false = (v, .error f)) :
    ddupFpRun x false st li s = (v, f) ∧ ddupStRun x false st li s = (v, f) := by
  constructor <;> simp only [ddupFpRun, ddupStRun, hk, hr]

variable {p : Place} {ws : List Nat} (hr : s.pageRead st k li false = (v, .ok (p, ws)))
include hr

theorem ddupFpRun_answers : ddupFpRun x false st li s = (v.hold st x.r1 8 (fingerprint ws) [], .next) := by
  simp only [ddupFpRun, hk, hr]

/-- Without deduplication, and of a page of the scratchpad, the status is zero. -/
theorem ddupStRun_zero (hoff : (v.ctx k.ctx).fix.dedupBits = 0 ∨ li.val 0 / 2 ^ 48 = 0xF) :
    ddupStRun x false st li s = (v.hold st x.r1 8 0 [], .next) := by
  simp only [ddupStRun, hk, hr, if_pos hoff]
  split <;> rfl

/-- The status of a page of device memory. -/
theorem ddupStRun_status {z : State} {lf : Leaf} {i : Bool} {pa : Nat}
    (hon : ¬((v.ctx k.ctx).fix.dedupBits = 0 ∨ li.val 0 / 2 ^ 48 = 0xF))
    (hp : p = .dev pa ∨ p = .unc pa) (hw : v.walkOnly k.ctx (li.val 0) .read false = (z, .ok (lf, i))) :
    ddupStRun x false st li s = (z.hold st x.r1 8 (pageStatus z k.ctx pa lf) [], .next) := by
  rcases hp with rfl | rfl <;> simp only [ddupStRun, hk, hr, hw, if_neg hon, bits_eq] <;> rfl

end

-- DDUPQ

section
variable {x : FmtX} {s : State} {is : Issue} {k : Skein} {l : Nat} (h : s.poisedOne is k x.ctl l)
  (h1 : (laneOf k.threads l).has k.alloc [(x.r1, 8, 1)]) (h2 : (laneOf k.threads l).has k.alloc [(x.r2, 8, 1)])
include h

theorem page_input (run : Site → LaneIn → State → State × Fate) : oneInput (pageOp x run).toOp s k l =
    { lane := l, cyc := s.cycle, vals := [(laneOf k.threads l).reg x.r2 8], pred := (laneOf k.threads l).pred
      link := (laneOf k.threads l).link } := by
  have hval : (Rd.reg x.r2 8).value k.threads l = (laneOf k.threads l).reg x.r2 8 :=
    reg_value _ _ _ rfl (by simp [poised_running h]) ..
  rw [← hval]
  rfl

variable {i : Instr} {run : Site → LaneIn → State → State × Fate}
  (he : exec i s = .next (s.runEach i x.ctl 0 false (pageOp x run))) {li : LaneIn} (hli : oneInput (pageOp x run).toOp s k l = li)
include h1 h2 he hli

theorem page_ends {u : State} {f : Fate} (hrun : run (siteOf s is l) li s = (u, f)) (hf : ∀ t, f ≠ .trap t) (hu : s.stills u) :
    ∃ t, exec i s = .next t ∧ u.endsAs t i is l f :=
  one_ends i x.ctl 0 false (pageOp x run) s is k l h he rfl h1 h2 u f (hli ▸ hrun) hf (poised_calm h hu)

theorem page_traps {u : State} {q : Trap} (hrun : run (siteOf s is l) li s = (u, .trap q)) : Claims.traps s i is k l q u :=
  one_traps i x.ctl 0 false (pageOp x run) s is k l h he rfl h1 h2 q u (hli ▸ hrun)

end

/-- Settles O32: both forms do what the read of their page comes to, and answer for a page that it gives. -/
theorem deduplicationIsQueried : Obligations.DeduplicationIsQueried := by
  intro s is k l x h th a li h1 h2
  have hk : s.skein (siteOf s is l).core (siteOf s is l).slot = some k := (poised_skein h).1
  refine ⟨fun u p v ws hp hh hb hl => pageRead_of_loads (li := li) hp hh hb hl, fun v f hr => ?_, fun v p ws hr => ?_⟩
  · have hv : s.stills v := by simpa only [hr] using stills_pageRead s (siteOf s is l) k li false
    obtain ⟨hfp, hst⟩ := ddupRun_stops (x := x) hk hr
    refine ⟨?_, ?_⟩
    · rintro what vals rfl
      exact ⟨page_ends h h1 h2 rfl (page_input h _) hfp nofun hv, page_ends h h1 h2 rfl (page_input h _) hst nofun hv⟩
    · rintro q rfl
      exact ⟨page_traps h h1 h2 rfl (page_input h _) hfp, page_traps h h1 h2 rfl (page_input h _) hst⟩
  · have hv : s.stills v := by simpa only [hr] using stills_pageRead s (siteOf s is l) k li false
    refine ⟨?_, fun hoff => ?_, fun z lf i pa hbits hwin hp hw => ?_⟩
    · exact page_ends h h1 h2 rfl (page_input h _) (ddupFpRun_answers hk hr) nofun (hv.trans (hold_stills ..))
    · exact page_ends h h1 h2 rfl (page_input h _) (ddupStRun_zero hk hr hoff) nofun (hv.trans (hold_stills ..))
    · have hz : v.memOnly z := .beside hw ((State.memOnly.refl v).walkOnly ..)
      exact page_ends h h1 h2 rfl (page_input h _) (ddupStRun_status hk hr (not_or.2 ⟨hbits, hwin⟩) hp hw) nofun
        ((hv.memOnly hz).trans (hold_stills ..))

end Sys2Proof.Machine
end

section
/-! CPY, CPYQ and STAMP (09 R244, R245, R252, 18 R443): the checks of a command, what each does for one thread, and from them
O35. -/

namespace Sys2Proof.Machine

-- THE CHECKS OF A COMMAND (09 R245)

/-- A command with reserved fields, or with a tag of kind 3. -/
def cpyReserved (d : Nat) : Prop := d / 2 ^ 152 % 4 = 3 ∨ d / 2 ^ 146 % 64 ≠ 0 ∨ 6 ≤ d / 2 ^ 157 % 8 ∨ d / 2 ^ 254 = 3

/-- The kind of a command's tag stands in its highest bits. -/
theorem tagKind_eq {d : Nat} (hd : d < 256 ^ 32) : bits d 254 2 = d / 2 ^ 254 := by
  rw [bits_eq]
  omega

section
variable {s : State} {core : Nat} {k : Skein} {user : Bool} {d stamp : Nat} (hd : d < 256 ^ 32)
include hd

theorem cpyFault_of_reserved (hb : cpyReserved d) : s.cpyFault core k user d stamp = some { cause := .illegalField } := by
  simp only [State.cpyFault, tagKind_eq hd, bits_eq]
  exact if_pos hb

/-- Of the other commands a tag's address is checked. -/
theorem cpyFault_of_valid (hb : ¬cpyReserved d) : s.cpyFault core k user d stamp =
    if d / 2 ^ 254 = 2 then s.stampFault core k (word stamp) user
    else if d / 2 ^ 254 = 1 then s.barrierFault k.wgKey (d / 2 ^ 224 % 2 ^ 30) else none := by
  simp only [State.cpyFault, tagKind_eq hd, bits_eq]
  exact if_neg hb

end

theorem site_ord {s : State} {is : Issue} {k : Skein} {l : Nat} (hk : s.skein is.core is.slot = some k) :
    (siteOf s is l).ord = k.ord := by
  simp only [siteOf, State.ordOf, hk, Option.map_some, Option.getD_some]

/-- A command without the presence flag, or a STAMP's, joins the queue with nothing else done. -/
theorem shPlace_plain {s : State} {st : Site} {c : ShCmd} (hc : (c.pres && !c.only) = false) :
    s.shPlace st c = s.modCore st.core fun q => { q with shuttle := q.shuttle ++ [c] } := by
  rw [State.shPlace, hc]
  rfl

/-- The command that the model places is that of the claim, whose stamp address counts for a tag of kind 2 alone. -/
theorem cpyCmd_eq {s u : State} {is : Issue} {k : Skein} {l d a stamp : Nat} (hk : s.skein is.core is.slot = some k)
    (hd : d < 256 ^ 32) (hst : d / 2 ^ 254 = 2 → stamp = a) : u.cpyCmd (siteOf s is l) k d stamp =
      Claims.command s u is k l d (if d / 2 ^ 254 = 1 then
          .barrier (d / 2 ^ 224 % 2 ^ 30)
            (u.generation k.wgKey (((u.wg k.wgKey).bind (·.slotOf is.core)).getD 0) (d / 2 ^ 224 % 2 ^ 30))
        else if d / 2 ^ 254 = 2 then .stamp (word a) (d / 2 ^ 224 % 2 ^ 30) else .none) := by
  have hkind := tagKind_eq hd
  rw [State.cpyCmd, site_ord hk, hkind, bits_eq]
  generalize d / 2 ^ 254 = kind at hst ⊢
  match kind, hst with
  | 0, _ => rfl
  | 1, _ => rfl
  | 2, hst => rw [hst rfl]; rfl
  | n + 3, _ => rfl

-- THE EFFECT OF ONE THREAD

section
variable {s : State} {is : Issue} {k : Skein} {l : Nat} {li : LaneIn}
  (hk : s.skein (siteOf s is l).core (siteOf s is l).slot = some k)
include hk

/-- CPY and CPYQ of a command that its checks refuse trap, with nothing else done. -/
theorem cpyRun_refused {room : Bool} {q : Trap}
    (hf : s.cpyFault (siteOf s is l).core k (!(s.siteThread (siteOf s is l)).sup) (li.val 0) (li.val 1) = some q) :
    cpyRun (siteOf s is l) li s = (s, .trap q) ∧ cpyqRun room (siteOf s is l) li s = (s, .trap q) := by
  constructor <;> simp only [cpyRun, cpyqRun, hk, hf]

variable (hf : s.cpyFault (siteOf s is l).core k (!(s.siteThread (siteOf s is l)).sup) (li.val 0) (li.val 1) = none)
include hf

theorem cpyRun_waits (hfull : 32 ≤ (s.core is.core).shCount) :
    cpyRun (siteOf s is l) li s = (s, .wait .shuttleRoom li.vals) := by
  simp only [cpyRun, hk, hf]
  exact if_pos hfull

theorem cpyqRun_full : cpyqRun false (siteOf s is l) li s = (s.modThread is.core is.slot l fun q => q.pushNow false, .next) := by
  simp only [cpyqRun, hk, hf]
  rfl

variable {c : ShCmd} (hc : (s.drainForEngine is.core is.slot).cpyCmd (siteOf s is l) k (li.val 0) (li.val 1) = c)
include hc

theorem cpyRun_places (hroom : (s.core is.core).shCount < 32) :
    cpyRun (siteOf s is l) li s = ((s.drainForEngine is.core is.slot).shPlace (siteOf s is l) c, .next) := by
  subst hc
  simp only [cpyRun, hk, hf]
  exact if_neg (Nat.not_le.2 hroom)

theorem cpyqRun_places : cpyqRun true (siteOf s is l) li s =
    (((s.drainForEngine is.core is.slot).shPlace (siteOf s is l) c).modThread is.core is.slot l
      fun q => q.pushNow true, .next) := by
  subst hc
  simp only [cpyqRun, hk, hf]
  rfl

end

-- CPY AND CPYQ

/-- The words of a command in its thread's registers. -/
def cpyBody (th : Thread) (x : FmtX) : Nat := natAt th.regs (regAddr th.views x.r1) 32

theorem cpyBody_lt (th : Thread) (x : FmtX) : cpyBody th x < 256 ^ 32 := natAt_lt ..

/-- What the one thread gives CPY and CPYQ. -/
def cpyInput (x : FmtX) (s : State) (k : Skein) (l : Nat) : LaneIn := oneInput (cpyOp x cpyRun).toOp s k l

/-- The fault that the checks of the one thread's command find. -/
abbrev cpyCheck (x : FmtX) (s : State) (is : Issue) (k : Skein) (l : Nat) : Option Trap :=
  s.cpyFault is.core k (!(s.siteThread (siteOf s is l)).sup) ((cpyInput x s k l).val 0) ((cpyInput x s k l).val 1)

section
variable {x : FmtX} {s : State} {is : Issue} {k : Skein} {l : Nat} (h : s.poisedOne is k x.ctl l)
  (hreg : (laneOf k.threads l).has k.alloc [(x.r1, 4, 8), (x.r2, 8, 1)])
include h

/-- The values that the one thread gives CPY and CPYQ: its command, and the stamp address for a tag of kind 2. -/
theorem cpyInput_vals : (cpyInput x s k l).vals = cpyBody (laneOf k.threads l) x ::
    if cpyBody (laneOf k.threads l) x / 2 ^ 254 = 2 then [(laneOf k.threads l).reg x.r2 8] else [] := by
  have hst : (laneOf k.threads l).st ≠ .exited := by simp [poised_running h]
  have hg : (Rd.group x.r1 4 8).value k.threads l = cpyBody (laneOf k.threads l) x := by
    simp [Rd.value, Rd.pieces, readPiece, hst, cpyBody]
  have hsrcs : (cpyOp x cpyRun).toOp.srcs k.threads l =
      .group x.r1 4 8 :: if cpyBody (laneOf k.threads l) x / 2 ^ 254 = 2 then [.reg x.r2 8] else [] := by
    rw [← tagKind_eq (cpyBody_lt ..), ← hg]
    rfl
  rw [cpyInput, oneInput, hsrcs, List.map_cons, hg]
  split
  · rw [List.map_singleton, reg_value _ _ _ rfl hst]
  · rfl

theorem cpyInput_body : (cpyInput x s k l).val 0 = cpyBody (laneOf k.threads l) x := by
  rw [LaneIn.val, cpyInput_vals h]
  rfl

theorem cpyInput_stamp (hkind : cpyBody (laneOf k.threads l) x / 2 ^ 254 = 2) :
    (cpyInput x s k l).val 1 = (laneOf k.threads l).reg x.r2 8 := by
  rw [LaneIn.val, cpyInput_vals h, if_pos hkind]
  rfl

theorem cpyCheck_of_reserved (hb : cpyReserved (cpyBody (laneOf k.threads l) x)) :
    cpyCheck x s is k l = some { cause := .illegalField } := by
  rw [cpyCheck, cpyInput_body h]
  exact cpyFault_of_reserved (cpyBody_lt ..) hb

theorem cpyCheck_of_valid (hb : ¬cpyReserved (cpyBody (laneOf k.threads l) x)) : cpyCheck x s is k l =
    if cpyBody (laneOf k.threads l) x / 2 ^ 254 = 2 then
      s.stampFault is.core k (word ((laneOf k.threads l).reg x.r2 8)) (!(s.siteThread (siteOf s is l)).sup)
    else if cpyBody (laneOf k.threads l) x / 2 ^ 254 = 1 then
      s.barrierFault k.wgKey (cpyBody (laneOf k.threads l) x / 2 ^ 224 % 2 ^ 30) else none := by
  rw [cpyCheck, cpyInput_body h, cpyFault_of_valid (cpyBody_lt ..) hb]
  by_cases hkind : cpyBody (laneOf k.threads l) x / 2 ^ 254 = 2
  · rw [if_pos hkind, if_pos hkind, cpyInput_stamp h hkind]
  · rw [if_neg hkind, if_neg hkind]

include hreg

/-- CPYQ of one thread has room where the queue of the Shuttle takes one command more, if the thread's is good. -/
theorem exec_cpyq : exec (.cpyq x) s = .next (s.runEach (.cpyq x) x.ctl 0 false (cpyOp x (cpyqRun
    (decide ((s.core is.core).shCount + (if (cpyCheck x s is k l).isNone then 1 else 0) ≤ 32))))) := by
  have hgather : gather (cpyOp x (cpyqRun true)).toOp x.ctl k is.slot s.cycle (lanesOf is.present) =
      { present := [l], active := [l], go := [cpyInput x s k l], faults := [], parity := [] } :=
    gather_one (cpyOp x (cpyqRun true)).toOp x.ctl s is k l h rfl (has_nil _ _) (has_two hreg).1 rfl (has_two hreg).2
  have htake : (if x.ctl.uni = true then [cpyInput x s k l].take 1 else [cpyInput x s k l]) = [cpyInput x s k l] := by
    split <;> rfl
  have hthread : laneOf k.threads (cpyInput x s k l).lane = s.siteThread (siteOf s is l) := (site_thread h).symm
  show execCpyq x s = _
  simp only [execCpyq, (poised_running h).2, hgather, htake, List.filter_singleton, hthread]
  cases (cpyCheck x s is k l).isNone <;> rfl

theorem cpy_ends {u : State} {f : Fate} (hrun : cpyRun (siteOf s is l) (cpyInput x s k l) s = (u, f)) (hf : ∀ t, f ≠ .trap t)
    (hu : ∃ k', u.skein is.core is.slot = some k' ∧ k'.calm) : ∃ t, exec (.cpy x) s = .next t ∧ u.endsAs t (.cpy x) is l f :=
  one_ends _ x.ctl 0 false (cpyOp x cpyRun) s is k l h rfl rfl (has_nil _ _) (has_two hreg).1 u f hrun hf hu rfl (has_two hreg).2

/-- CPYQ of a good command ends as its effect does with the room that the queue has. -/
theorem cpyq_ends (hgood : cpyCheck x s is k l = none) {room : Bool} (hroom : decide ((s.core is.core).shCount < 32) = room)
    {u : State} {f : Fate} (hrun : cpyqRun room (siteOf s is l) (cpyInput x s k l) s = (u, f)) (hf : ∀ t, f ≠ .trap t)
    (hu : ∃ k', u.skein is.core is.slot = some k' ∧ k'.calm) : ∃ t, exec (.cpyq x) s = .next t ∧ u.endsAs t (.cpyq x) is l f := by
  have hexec := exec_cpyq h hreg
  rw [hgood] at hexec
  subst hroom
  exact one_ends _ x.ctl 0 false (cpyOp x (cpyqRun _)) s is k l h hexec rfl (has_nil _ _) (has_two hreg).1 u f hrun hf hu rfl
    (has_two hreg).2

/-- A command that its checks refuse is a trap of both instructions. -/
theorem cpy_traps {q : Trap} (hq : cpyCheck x s is k l = some q) :
    Claims.traps s (.cpy x) is k l q s ∧ Claims.traps s (.cpyq x) is k l q s := by
  have hk : s.skein (siteOf s is l).core (siteOf s is l).slot = some k := (poised_skein h).1
  exact ⟨one_traps _ x.ctl 0 false (cpyOp x cpyRun) s is k l h rfl rfl (has_nil _ _) (has_two hreg).1 q s
      (cpyRun_refused (room := true) hk hq).1 rfl (has_two hreg).2,
    one_traps _ x.ctl 0 false (cpyOp x (cpyqRun _)) s is k l h (exec_cpyq h hreg) rfl (has_nil _ _) (has_two hreg).1 q s
      (cpyRun_refused hk hq).2 rfl (has_two hreg).2⟩

end

-- STAMP (18 R443)

/-- What STAMP does for each thread. -/
def stampOp (x : FmtX) : SeqOp := { reads := pairReads x 8, run := stampRun x }

section
variable {x : FmtX} {s : State} {is : Issue} {k : Skein} {l : Nat} (h : s.poisedOne is k x.ctl l)
include h

/-- The command of a STAMP. -/
def stampCmd (s : State) (is : Issue) (k : Skein) (l : Nat) (x : FmtX) (va a : Nat) : ShCmd :=
  { Claims.command s s is k l (x.ctl.scope.toNat * 2 ^ 157) (.stamp (word va) (a % 2 ^ 63)) with only := true }

theorem stampCmd_eq (va a : Nat) : { s.cpyCmd (siteOf s is l) k (x.ctl.scope.toNat * 2 ^ 157) 0 with
    tag := .stamp (word va) (a % 2 ^ 63), only := true } = stampCmd s is k l x va a := by
  rw [State.cpyCmd, site_ord (poised_skein h).1]
  rfl

variable {li : LaneIn} {va a : Nat} (h0 : li.val 0 = va) (h1 : li.val 1 = a)
include h0

theorem stampRun_refused {q : Trap}
    (hf : s.stampFault (siteOf s is l).core k (word va) (!(s.siteThread (siteOf s is l)).sup) = some q) :
    stampRun x (siteOf s is l) li s = (s, .trap q) := by
  have hk : s.skein (siteOf s is l).core (siteOf s is l).slot = some k := (poised_skein h).1
  simp only [stampRun, hk, h0, hf]

variable (hf : s.stampFault (siteOf s is l).core k (word va) (!(s.siteThread (siteOf s is l)).sup) = none)
include hf

theorem stampRun_waits (hfull : 32 ≤ (s.core is.core).shCount) :
    stampRun x (siteOf s is l) li s = (s, .wait .shuttleRoom li.vals) := by
  have hk : s.skein (siteOf s is l).core (siteOf s is l).slot = some k := (poised_skein h).1
  simp only [stampRun, hk, h0, hf]
  exact if_pos hfull

include h1

theorem stampRun_places (hroom : (s.core is.core).shCount < 32) : stampRun x (siteOf s is l) li s =
    ((s.drainForEngine is.core is.slot).modCore is.core
      fun q => { q with shuttle := q.shuttle ++ [stampCmd s is k l x va a] }, .next) := by
  have hk : s.skein (siteOf s is l).core (siteOf s is l).slot = some k := (poised_skein h).1
  simp only [stampRun, hk, h0, h1, hf, stampCmd_eq h]
  rw [shPlace_plain (by simp [stampCmd])]
  exact if_neg (Nat.not_le.2 hroom)

end

/-- A command that joins the queue of the Shuttle leaves the skein calm. -/
theorem shuttle_calm {s : State} {is : Issue} {k : Skein} {c : Ctl} {l : Nat} (h : s.poisedOne is k c l) (f : Core → Core) :
    ∃ k', ((s.drainForEngine is.core is.slot).modCore is.core f).skein is.core is.slot = some k' ∧ k'.calm :=
  poised_calm h (((State.stills.refl s).drainForEngine ..).of_skeins (State.modCore_skeins ..))

/-- Settles O35: each instruction does what the checks of its command and the room of the queue make of it. -/
theorem shuttleCommandsAreQueued : Obligations.ShuttleCommandsAreQueued := by
  intro s is k l x h th st u user
  have hk : s.skein is.core is.slot = some k := (poised_skein h).1
  refine ⟨fun hreg => ?_, fun hreg => ?_⟩
  · intro d a v kind bad fault c w
    refine ⟨fun hb => ?_, fun hb q hq => ?_, fun hb hgood => ?_, fun hpres => ?_⟩
    · obtain ⟨hcpy, hcpyq⟩ := cpy_traps h hreg (cpyCheck_of_reserved h hb)
      exact ⟨hcpy hk rfl nofun rfl, hcpyq hk rfl nofun rfl⟩
    · exact cpy_traps h hreg ((cpyCheck_of_valid h hb).trans hq)
    · have hf : cpyCheck x s is k l = none := (cpyCheck_of_valid h hb).trans hgood
      refine ⟨fun hroom hw => ?_, fun hfull => ?_⟩
      · have hcmd : u.cpyCmd st k ((cpyInput x s k l).val 0) ((cpyInput x s k l).val 1) = c := by
          rw [cpyInput_body h]
          exact cpyCmd_eq hk (cpyBody_lt ..) (cpyInput_stamp h)
        exact ⟨cpy_ends h hreg (cpyRun_places hk hf hcmd hroom) nofun hw,
          cpyq_ends h hreg hf (decide_eq_true hroom) (cpyqRun_places hk hf hcmd) nofun (calm_modSkein hw fun _ hc => hc)⟩
      · have hcpy := cpyRun_waits hk hf hfull
        rw [cpyInput_vals h] at hcpy
        exact ⟨cpy_ends h hreg hcpy nofun ⟨k, poised_skein h⟩,
          cpyq_ends h hreg hf (decide_eq_false (Nat.not_lt.2 hfull)) (cpyqRun_full hk hf) nofun
            (calm_modSkein ⟨k, poised_skein h⟩ fun _ hc => hc)⟩
    · have hplain : (c.pres && !c.only) = false := by rw [show c.pres = false from hpres]; rfl
      have hw : w = u.modCore is.core fun q => { q with shuttle := q.shuttle ++ [c] } := shPlace_plain hplain
      exact ⟨hw ▸ shuttle_calm h _, hw⟩
  · intro va a c
    have h0 : (oneInput (stampOp x).toOp s k l).val 0 = th.reg x.r1 8 := val_at h (stampOp x).toOp 0 x.r1 8 rfl
    have h1 : (oneInput (stampOp x).toOp s k l).val 1 = a := val_at h (stampOp x).toOp 1 x.r2 8 rfl
    refine ⟨fun q hq => ?_, fun hgood => ⟨fun hroom => ?_, fun hfull => ?_⟩⟩
    · exact one_traps _ x.ctl 0 false (stampOp x) s is k l h rfl rfl (has_nil _ _) hreg q s (stampRun_refused h h0 hq)
    · exact one_ends _ x.ctl 0 false (stampOp x) s is k l h rfl rfl (has_nil _ _) hreg _ .next
        (stampRun_places h h0 h1 hgood hroom) nofun (shuttle_calm h _)
    · have hrun := stampRun_waits h h0 hgood hfull
      rw [vals_two h (stampOp x).toOp x.r1 x.r2 8 8 rfl] at hrun
      exact one_ends _ x.ctl 0 false (stampOp x) s is k l h rfl rfl (has_nil _ _) hreg s _ hrun nofun ⟨k, poised_skein h⟩

end Sys2Proof.Machine
end

section
/-! The Shuttle's commands as they start, walk and complete (09 R246, R249, R250, 18 R443), and from them O36. -/

namespace Sys2Proof.Machine

-- A COMMAND STARTS (09 R246)

section
variable {s : State} {core : Nat}

section
variable {c : ShCmd}

theorem shBegin_of_layouts {v : State} {l : Layout × Layout} (h : s.shLayouts core c = (v, .ok l)) :
    s.shBegin core c = if v.shCheck core c l then v.shRun core c l else v.shEnd core c true := by
  simp only [State.shBegin, h]

theorem shBegin_of_abort {v : State} (h : s.shLayouts core c = (v, .error .abort)) : s.shBegin core c = v.shEnd core c true := by
  simp only [State.shBegin, h]

theorem shBegin_of_wait {v : State} (h : s.shLayouts core c = (v, .error .wait)) :
    s.shBegin core c = v.modCore core fun q => { q with started := some c } := by
  simp only [State.shBegin, h]

variable (hs : s.stalls core = false)
include hs

/-- The oldest command of the queue leaves it and starts; a STAMP's is complete. -/
theorem exec_shuttleStart_next {rest : List ShCmd} (hn : (s.core core).started = none) (hq : (s.core core).shuttle = c :: rest)
    (hp : c.parked = false) : exec (.shuttleStart core) s =
      let u := s.setCore core { s.core core with shuttle := rest }
      .next ((if c.only then u.shEnd core c false else u.shBegin core c).reap core c.slot) := by
  show execShuttleStart core s = _
  simp only [execShuttleStart, hs, hn, hq, hp, Bool.false_eq_true, if_false]

/-- A started command that has its layouts walks on. -/
theorem exec_shuttleStart_started {l : Layout × Layout} (hc : (s.core core).started = some c) (hp : c.parked = false)
    (hl : c.lay = some l) : exec (.shuttleStart core) s = .next (s.shRun core c l) := by
  show execShuttleStart core s = _
  simp only [execShuttleStart, hs, hc, hp, hl, Bool.false_eq_true, if_false]

end

-- A COMPLETION PERFORMS (09 R250)

section
variable {d : Done}

theorem exec_shuttleComplete_performs {rest : List Done} {u : State} (hs : s.stalls core = false)
    (hq : (s.core core).done = d :: rest) (hp : (s.core core).doneParked = false) (hu : s.complete core d = (u, .ok ())) :
    exec (.shuttleComplete core) s = .next (u.modCore core fun q => { q with done := rest }) := by
  show execShuttleComplete core s = _
  simp only [execShuttleComplete, hq, hp, hs, hu, Bool.or_false, Bool.false_eq_true, if_false]

theorem complete_of_resetting (hr : (s.ctx d.ctx).resetting = true) : s.complete core d = (s, .ok ()) := if_pos hr

theorem complete_untagged (ht : d.tag = .none) (hf : d.failed = false) : s.complete core d = (s, .ok ()) := by
  simp only [State.complete, ht, hf, Bool.false_eq_true, if_false, ite_self]

/-- An aborted command without a tag posts its event. -/
theorem complete_aborted {g : Workgroup} (ht : d.tag = .none) (hf : d.failed = true) (hr : (s.ctx d.ctx).resetting = false)
    (hg : s.wg d.wg = some g) : s.complete core d = (s.post d.ctx false
      { kind := 5, core := core, slot := d.slot, grid := g.grid, wg := g.lin, extra := d.dst }, .ok ()) := by
  simp only [State.complete, hr, ht, hf, hg, Bool.false_eq_true, if_false, if_true]
  rfl

/-- A stamp at a scope other than .wg is a store, and a release at .sector or wider. -/
theorem stampStore_of_place {va : Word} {v : Nat} {p : Place} {u : State}
    (hp : s.place core d.ctx d.wg va 8 .store d.user = (u, .ok p)) (hsc : d.scope ≠ 1) :
    let q := u.release core (decide (3 ≤ d.scope))
    s.stampStore core d va v = (q.storeAt core d.ctx p (toBytes 8 v) [] (q.isPrivate core d.slot d.ctx va.toNat), .ok ()) := by
  simp only [State.stampStore, hp, beq_false_of_ne hsc, Bool.false_and, Bool.or_false]

/-- The stamp of a command that does more than complete is stored, with bit 63 set where it aborted. -/
theorem complete_stamp {va : Word} {v : Nat} (ht : d.tag = .stamp va v) (ho : d.only = false)
    (hr : (s.ctx d.ctx).resetting = false) {q : State}
    (hst : s.stampStore core d va (v + if d.failed then 2 ^ 63 else 0) = (q, .ok ())) : s.complete core d = (q, .ok ()) := by
  simp only [State.complete, hr, ht, ho, Bool.false_and, Bool.or_false, Bool.false_eq_true, if_false]
  rw [hst]
  rfl

end

end

/-- Settles O36: what a start does by what its layouts come to, and what a completion does by its tag. -/
theorem shuttleCommandsRun : Obligations.ShuttleCommandsRun := by
  intro s core hs
  refine ⟨fun c rest hn hq hp => ?_, fun c l => exec_shuttleStart_started hs, fun d rest u => exec_shuttleComplete_performs hs,
    fun d hd => ?_, fun d g => complete_aborted, fun d va v p u ht ho hr hp hsc => ?_⟩
  · intro u
    have hstart := exec_shuttleStart_next hs hn hq hp
    have hbegin (ho : c.only = false) : exec (.shuttleStart core) s = .next ((u.shBegin core c).reap core c.slot) := by
      rw [hstart, ho]
      rfl
    refine ⟨fun ho => ?_, fun v l ho hl => ?_, fun v ho hl => ?_, fun v ho hl => ?_⟩
    · rw [hstart, ho]
      rfl
    · rw [hbegin ho, shBegin_of_layouts hl]
    · rw [hbegin ho, shBegin_of_abort hl]
    · rw [hbegin ho, shBegin_of_wait hl]
  · exact hd.elim complete_of_resetting fun h => complete_untagged h.1 h.2
  · exact complete_stamp ht ho hr (stampStore_of_place hp (by omega))

end Sys2Proof.Machine
end

section
/-! Handles and convergence registers (10 R258, R265, R266, R281, R283): what each instruction does for one thread, and from
them O37. -/

namespace Sys2Proof.Machine

-- INSTRUCTIONS THAT READ NO REGISTER

/-- What the one thread gives an instruction that reads no register. -/
abbrev bareInput (s : State) (k : Skein) (l : Nat) : LaneIn := oneInput {} s k l

theorem next_ne_trap (t : Trap) : Fate.next ≠ .trap t := Fate.noConfusion

theorem wait_ne_trap (w : WaitFor) (vals : List Nat) (t : Trap) : Fate.wait w vals ≠ .trap t := Fate.noConfusion

/-- A cause that is neither replayable nor for a debugger nor the watchdog's. -/
def Cause.plain (c : Cause) : Bool := !c.replayable && !c.debug && c != .watchdog

section
variable {i : Instr} {c : Ctl} {stall : Nat} {run : Site → LaneIn → State → State × Fate} {s u : State} {is : Issue} {k : Skein}
  {l : Nat} (h : s.poisedOne is k c l) (he : exec i s = .next (s.runEach i c stall false { run := run }))
include h he

theorem bare_ends {f : Fate} (hr : run (siteOf s is l) (bareInput s k l) s = (u, f)) (hf : ∀ t, f ≠ .trap t)
    (hu : u.skeins = s.skeins) : ∃ t, exec i s = .next t ∧ u.endsAs t i is l f :=
  one_ends i c stall false { run := run } s is k l h he rfl (has_nil _ _) (has_nil _ _) u f hr hf
    (poised_calm h ((State.stills.refl s).of_skeins hu)) rfl (has_nil _ _)

theorem bare_faults {cause : Cause} {addr : Word}
    (hr : run (siteOf s is l) (bareInput s k l) s = (u, .trap { cause := cause, addr := addr })) (hu : u.skeins = s.skeins)
    (hc : cause.plain = true) : s.faults i is k l cause addr is.word u := by
  have hk : u.skein is.core is.slot = some k := by
    rw [State.skein, hu]
    exact (poised_skein h).1
  obtain ⟨⟨hrep, hdbg⟩, hdog⟩ : (cause.replayable = false ∧ cause.debug = false) ∧ cause ≠ .watchdog := by
    simpa [Cause.plain] using hc
  have htraps := one_traps i c stall false { run := run } s is k l h he rfl (has_nil _ _) (has_nil _ _) _ u hr rfl (has_nil _ _)
  exact htraps hk hrep hdog hdbg

end

-- HANDLES

theorem tileSite_of_skein {s : State} {st : Site} {k : Skein} {g : Workgroup} (hk : s.skein st.core st.slot = some k)
    (hg : s.wg k.wgKey = some g) : s.tileSite st = some (k, g, (g.slotOf st.core).getD 0) := by
  unfold State.tileSite
  simp only [hk, hg, Option.map_some]

@[simp] theorem modHandle_skeins (s : State) (wgk cs h : Nat) (f : Handle → Handle) :
    (s.modHandle wgk cs h f).skeins = s.skeins := State.modWg_skeins ..

/-- A handle's release leaves every skein. -/
@[simp] theorem unbind_skeins (s : State) (core wgk cs h : Nat) : (s.unbind core wgk cs h).skeins = s.skeins := by
  unfold State.unbind
  split
  · rfl
  · simp

section
variable {w : Workgroup} {cs idx : Nat} {named written : List Nat}

theorem tileFault_of_unbound {h : Nat} (hf : (named.find? fun h => !(w.handle cs h).bound) = some h) :
    w.tileFault cs idx named written = some { cause := .tileFreed, addr := word h } := by
  unfold Workgroup.tileFault
  simp only [hf]

/-- With every named handle bound, the written ones' owners count. -/
theorem tileFault_of_bound (hb : ∀ h ∈ named, (w.handle cs h).bound = true) : w.tileFault cs idx named written =
    (written.find? fun h => (w.handle cs h).owner ≠ idx).map fun h => { cause := .tileOwner, addr := word h } := by
  have hn : (named.find? fun h => !(w.handle cs h).bound) = none := by simpa using hb
  unfold Workgroup.tileFault
  simp only [hn]

theorem tileFault_of_foreign {d : Nat} (hb : ∀ h ∈ named, (w.handle cs h).bound = true) (ho : (w.handle cs d).owner ≠ idx) :
    w.tileFault cs idx named [d] = some { cause := .tileOwner, addr := word d } := by
  rw [tileFault_of_bound hb, List.find?_cons_of_pos (by simpa using ho)]
  rfl

theorem tileFault_of_own {d : Nat} (hb : ∀ h ∈ named, (w.handle cs h).bound = true) (ho : (w.handle cs d).owner = idx) :
    w.tileFault cs idx named [d] = none := by
  rw [tileFault_of_bound hb, List.find?_cons_of_neg (by simpa using ho)]
  rfl

end

-- TALLOC (10 R265)

section
variable {x : FmtT} {st : Site} {li : LaneIn} {s b : State} {k : Skein} {g : Workgroup} {cs : Nat}
  (hs : s.tileSite st = some (k, g, cs))
include hs

theorem tallocRun_of_foreign (hb : (g.handle cs x.d.toNat).bound = true) (ho : (g.handle cs x.d.toNat).owner ≠ k.idx) :
    tallocRun x st li s = (s, .trap { cause := .tileOwner, addr := word x.d.toNat }) := by
  unfold tallocRun
  simp only [hs]
  exact if_pos ⟨hb, ho⟩

variable (hown : (g.handle cs x.d.toNat).bound = true → (g.handle cs x.d.toNat).owner = k.idx)
  (hb : (if (g.handle cs x.d.toNat).bound then s.unbind st.core k.wgKey cs x.d.toNat else s) = b) {due held : Nat}
  (hdue : ((b.core st.core).releasing.filter fun p => p.2 = k.wgKey).length = due)
  (hheld : (((b.wg k.wgKey).getD g).bound cs).length + due = held)
include hown hb hdue hheld

/-- With room for one frame more, the handle takes the lowest free one. -/
theorem tallocRun_binds {f : Nat} {r : List Nat} (hroom : held < g.frames) (hfree : b.freeFrames st.core = f :: r) :
    tallocRun x st li s = ((b.modHandle k.wgKey cs x.d.toNat fun _ =>
      { bound := true, owner := k.idx, frame := f, fmt := x.aux.toNat }).modCore st.core fun c => c.setFrame f {}, .next) := by
  have hforeign : ¬((g.handle cs x.d.toNat).bound = true ∧ (g.handle cs x.d.toNat).owner ≠ k.idx) := fun ⟨h1, h2⟩ => h2 (hown h1)
  unfold tallocRun
  simp only [hs, if_neg hforeign, hb, hdue, hheld, if_pos hroom, hfree]

variable (hfull : g.frames ≤ held ∨ b.freeFrames st.core = [])
include hfull

/-- Without a frame it waits for the release of one, or finds none. -/
theorem tallocRun_full : tallocRun x st li s =
    (b, if due ≠ 0 then .wait .frameFreed li.vals else .trap { cause := .tileNoframe, addr := word x.d.toNat }) := by
  have hforeign : ¬((g.handle cs x.d.toNat).bound = true ∧ (g.handle cs x.d.toNat).owner ≠ k.idx) := fun ⟨h1, h2⟩ => h2 (hown h1)
  have hnone : (if held < g.frames then b.freeFrames st.core else []) = [] := by
    rcases hfull with hfull | hfull
    · exact if_neg (Nat.not_lt.2 hfull)
    · rw [hfull, ite_self]
  unfold tallocRun
  simp only [hs, if_neg hforeign, hb, hdue, hheld, hnone]
  split <;> rfl

theorem tallocRun_waits (hd : due ≠ 0) : tallocRun x st li s = (b, .wait .frameFreed li.vals) := by
  rw [tallocRun_full hs hown hb hdue hheld hfull, if_pos hd]

theorem tallocRun_noframe (hd : due = 0) :
    tallocRun x st li s = (b, .trap { cause := .tileNoframe, addr := word x.d.toNat }) := by
  rw [tallocRun_full hs hown hb hdue hheld hfull, if_neg (not_not.2 hd)]

end

-- TFREE AND TGIVE (10 R265)

/-- What an instruction does that needs its handle bound and owned. -/
def ownedRun (x : FmtT) (act : Site → Skein → Nat → State → State) (st : Site) (_ : LaneIn) (s : State) : State × Fate :=
  match s.tileSite st with
  | none => (s, .next)
  | some (k, w, cs) => match w.tileFault cs k.idx [x.d.toNat] [x.d.toNat] with
    | some t => (s, .trap t)
    | none => (act st k cs s, .next)

theorem exec_tfree (x : FmtT) (s : State) : exec (.tfree x) s = .next (s.runEach (.tfree x) x.ctl x.ctl.stall false
    { run := ownedRun x fun st k cs s => s.unbind st.core k.wgKey cs x.d.toNat }) := rfl

theorem exec_tgive (x : FmtT) (s : State) : exec (.tgive x) s = .next (s.runEach (.tgive x) x.ctl x.ctl.stall false
    { run := ownedRun x fun _ k cs s => s.modHandle k.wgKey cs x.d.toNat fun e => { e with owner := 0x1FF } }) := rfl

section
variable {x : FmtT} {act : Site → Skein → Nat → State → State} {st : Site} {li : LaneIn} {s : State} {k : Skein} {g : Workgroup}
  {cs : Nat} (hs : s.tileSite st = some (k, g, cs))
include hs

theorem ownedRun_of_unbound (hb : (g.handle cs x.d.toNat).bound = false) :
    ownedRun x act st li s = (s, .trap { cause := .tileFreed, addr := word x.d.toNat }) := by
  unfold ownedRun
  simp only [hs, tileFault_of_unbound (List.find?_cons_of_pos (by simpa using hb))]

variable (hb : (g.handle cs x.d.toNat).bound = true)
include hb

theorem ownedRun_of_foreign (ho : (g.handle cs x.d.toNat).owner ≠ k.idx) :
    ownedRun x act st li s = (s, .trap { cause := .tileOwner, addr := word x.d.toNat }) := by
  unfold ownedRun
  simp only [hs, tileFault_of_foreign (List.forall_mem_singleton.2 hb) ho]

theorem ownedRun_of_own (ho : (g.handle cs x.d.toNat).owner = k.idx) : ownedRun x act st li s = (act st k cs s, .next) := by
  unfold ownedRun
  simp only [hs, tileFault_of_own (List.forall_mem_singleton.2 hb) ho]

end

-- TTAKE (10 R265)

section
variable {x : FmtT} {st : Site} {li : LaneIn} {s : State} {k : Skein} {g : Workgroup} {cs : Nat}
  (hs : s.tileSite st = some (k, g, cs))
include hs

theorem ttakeRun_of_unbound (hb : (g.handle cs x.d.toNat).bound = false) :
    ttakeRun x st li s = (s, .trap { cause := .tileFreed, addr := word x.d.toNat }) := by
  unfold ttakeRun
  simp [hs, hb]

variable (hb : (g.handle cs x.d.toNat).bound = true)
include hb

theorem ttakeRun_of_own (ho : (g.handle cs x.d.toNat).owner = k.idx) : ttakeRun x st li s = (s, .next) := by
  unfold ttakeRun
  simp [hs, hb, ho]

variable (hv : li.vals = []) (ho : (g.handle cs x.d.toNat).owner ≠ k.idx)
include hv ho

/-- A skein that has not waited takes an ownerless handle that no other skein waits for. -/
theorem ttakeRun_takes (hfree : (g.handle cs x.d.toNat).owner = 0x1FF) (hw : ∀ i ∈ s.takers st.core k.wgKey x.d.toNat, s.order ≤ i) :
    ttakeRun x st li s = (s.modHandle k.wgKey cs x.d.toNat fun e => { e with owner := k.idx }, .next) := by
  have hall : (s.takers st.core k.wgKey x.d.toNat).all (s.order ≤ ·) = true := by simpa using hw
  unfold ttakeRun
  simp only [hs, hb, hv, List.headD_nil, if_neg ho, Bool.not_true, Bool.false_eq_true, if_false]
  exact if_pos ⟨hfree, hall⟩

theorem ttakeRun_waits (hw : (g.handle cs x.d.toNat).owner ≠ 0x1FF ∨ ∃ i ∈ s.takers st.core k.wgKey x.d.toNat, i < s.order) :
    ttakeRun x st li s = ({ s with order := s.order + 1 }, .wait .takeOwner [s.order]) := by
  have hnot : ¬((g.handle cs x.d.toNat).owner = 0x1FF ∧ (s.takers st.core k.wgKey x.d.toNat).all (s.order ≤ ·) = true) := by
    rintro ⟨hfree, hall⟩
    obtain hn | ⟨i, hi, hlt⟩ := hw
    · exact hn hfree
    · exact Nat.not_le.2 hlt (by simpa using List.all_eq_true.1 hall i hi)
  unfold ttakeRun
  simp only [hs, hb, hv, List.headD_nil, if_neg ho, if_neg hnot, Bool.not_true, Bool.false_eq_true, if_false, if_true]

end

-- TQRY AND CVSET (10 R266, R281)

theorem tqryRun_owes {x : FmtX} {s : State} {is : Issue} {k : Skein} {l : Nat} {li : LaneIn} {g : Workgroup} {cs : Nat}
    (hs : s.tileSite (siteOf s is l) = some (k, g, cs)) :
    let e := g.handle cs (x.imm.toNat / 2 ^ 16 % 2 ^ 8)
    let c := s.core is.core
    let pending := if e.bound then c.tilePending e.frame else e.pending
    let error := if e.bound ∨ e.pending then (c.frame e.frame).error || c.tileFailed e.frame else e.error
    tqryRun x (siteOf s is l) li s = (Claims.owes s is l x.r1 4 (2 ^ 31 * e.bound.toNat + 2 ^ 30 * pending.toNat +
      2 ^ 29 * error.toNat + 2 ^ 20 * e.owner + 2 ^ 12 * e.frame + e.fmt), .next) := by
  intro e c pending error
  have hv : e.bound.toNat * 2 ^ 31 + pending.toNat * 2 ^ 30 + error.toNat * 2 ^ 29 + e.owner * 2 ^ 20 + e.frame * 2 ^ 12 + e.fmt =
      2 ^ 31 * e.bound.toNat + 2 ^ 30 * pending.toNat + 2 ^ 29 * error.toNat + 2 ^ 20 * e.owner + 2 ^ 12 * e.frame + e.fmt := by
    simp only [Nat.mul_comm (2 ^ _)]
  rw [← hv]
  unfold tqryRun
  simp only [hs, fld_eq]
  rfl

/-- What CVSET does for each thread. -/
def cvsetRun (x : FmtI) (st : Site) (_ : LaneIn) (s : State) : State × Fate :=
  match s.tileSite st with
  | none => (s, .next)
  | some (k, _, cs) => (s.setCv k.wgKey cs (x.dst.toNat % 16) { target := x.imm.toNat }, .next)

theorem exec_cvset (x : FmtI) (s : State) :
    exec (.cvset x) s = .next (s.runEach (.cvset x) x.ctl x.ctl.stall false { run := cvsetRun x }) := by
  have hn : fld x.dst 0 4 = x.dst.toNat % 16 := by simp [fld_eq]
  show execCvset x s = _
  rw [execCvset, hn]
  rfl

/-- Settles O37: each instruction does what its handle's entry and the core's frames make of it. -/
theorem handlesAreBoundAndPassed : Obligations.HandlesAreBoundAndPassed := by
  intro s is k l g hg th cs
  have hsite {c : Ctl} (h : s.poisedOne is k c l) : s.tileSite (siteOf s is l) = some (k, g, cs) :=
    tileSite_of_skein (poised_skein h).1 hg
  refine ⟨fun x h => ?_, fun x h hreg => ?_, fun x h => ?_⟩
  · intro d e
    have hs := hsite h
    refine ⟨fun hb ho => bare_faults h rfl (tallocRun_of_foreign hs hb ho) rfl rfl, fun hown => ?_, fun hb ho => ?_,
      fun hb ho => ?_, fun hb => ?_⟩
    · intro b due held
      have hskeins : b.skeins = s.skeins := by
        show (if e.bound then s.unbind is.core k.wgKey cs d else s).skeins = s.skeins
        split
        · exact unbind_skeins ..
        · rfl
      exact ⟨fun f r hroom hfree =>
          bare_ends h rfl (tallocRun_binds hs hown rfl rfl rfl hroom hfree) next_ne_trap (by simpa using hskeins),
        fun hfull => ⟨fun hdue => bare_ends h rfl (tallocRun_waits hs hown rfl rfl rfl hfull hdue) (wait_ne_trap _ _) hskeins,
          fun hdue => bare_faults h rfl (tallocRun_noframe hs hown rfl rfl rfl hfull hdue) hskeins rfl⟩⟩
    · exact ⟨bare_ends h (exec_tfree x s) (ownedRun_of_own hs hb ho) next_ne_trap (unbind_skeins ..),
        bare_ends h (exec_tgive x s) (ownedRun_of_own hs hb ho) next_ne_trap (modHandle_skeins ..),
        bare_ends h rfl (ttakeRun_of_own hs hb ho) next_ne_trap rfl⟩
    · exact ⟨fun hfree hw => bare_ends h rfl (ttakeRun_takes hs hb rfl ho hfree hw) next_ne_trap (modHandle_skeins ..),
        fun hw => bare_ends h rfl (ttakeRun_waits hs hb rfl ho hw) (wait_ne_trap _ _) rfl,
        bare_faults h (exec_tfree x s) (ownedRun_of_foreign hs hb ho) rfl rfl,
        bare_faults h (exec_tgive x s) (ownedRun_of_foreign hs hb ho) rfl rfl⟩
    · exact ⟨bare_faults h (exec_tfree x s) (ownedRun_of_unbound hs hb) rfl rfl,
        bare_faults h (exec_tgive x s) (ownedRun_of_unbound hs hb) rfl rfl, bare_faults h rfl (ttakeRun_of_unbound hs hb) rfl rfl⟩
  · have hrun := tqryRun_owes (x := x) (li := oneInput { dsts := fun _ => [(x.r1, 4, 1)] } s k l) (hsite h)
    exact one_ends (.tqry x) x.ctl 0 false { dsts := fun _ => [(x.r1, 4, 1)], run := tqryRun x } s is k l h rfl rfl hreg
      (has_nil _ _) _ .next hrun next_ne_trap (poised_calm h ((State.stills.refl s).modSkein _ _ _ fun _ => rfl)) rfl (has_nil _ _)
  · refine bare_ends h (exec_cvset x s) ?_ next_ne_trap (State.modWg_skeins ..)
    unfold cvsetRun
    simp only [hsite h]
    rfl

end Sys2Proof.Machine
end

section
/-! Tile commands as they are accepted (10 R263, R267, R269, R273 to R275, R278, R282, R283): what each instruction does for one
thread, and from them O38. -/

namespace Sys2Proof.Machine

-- THE QUEUE (10 R263)

section
variable {c : Core}

theorem tileRoom_of_room (h : ¬16 ≤ c.tileq.length) : c.tileRoom = true := decide_eq_true (Nat.not_le.1 h)

theorem tileRoom_of_full (h : 16 ≤ c.tileq.length) : c.tileRoom = false := decide_eq_false (Nat.not_lt.2 h)

end

/-- A command of the frames and formats that handles name now. -/
def Workgroup.tileCmd (g : Workgroup) (cs : Nat) (io : ShCmd) (i : Instr) (d : Nat) (a b m : Option Nat) : TileCmd :=
  { instr := i, d := g.named cs d, a := a.bind (g.named cs), b := b.bind (g.named cs), m := m.bind (g.named cs), io := io }

theorem tileCmd_eq_tileCommand {s : State} {is : Issue} {k : Skein} {l : Nat} (hk : s.skein is.core is.slot = some k) (u : State)
    (g : Workgroup) (i : Instr) (d : Nat) (a b m : Option Nat) :
    let cs := (g.slotOf is.core).getD 0
    g.tileCmd cs (u.tileIo (siteOf s is l) k cs) i d a b m = Claims.tileCommand s u is k g l i d a b m := by
  intro cs
  have hnamed (o : Option Nat) : o.bind (g.named cs) = o.map fun h => ((g.handle cs h).frame, (g.handle cs h).fmt) := by
    cases o <;> rfl
  unfold Workgroup.tileCmd
  simp only [hnamed, Claims.tileCommand, State.tileIo, site_ord hk]
  rfl

-- TZERO, TCVT AND TSCL (10 R273 to R275)

section
variable {i : Instr} {d : Nat} {a b : Option Nat} {ok : Nat → Nat → Nat → Bool} {st : Site} {li : LaneIn} {s : State} {k : Skein}
  {g : Workgroup} {cs : Nat} (hs : s.tileSite st = some (k, g, cs))
include hs

theorem tileArithRun_of_fault {q : Trap} (hf : g.tileFault cs k.idx (d :: a.toList ++ b.toList) [d] = some q) :
    tileArithRun i d a b ok st li s = (s, .trap q) := by
  unfold tileArithRun
  simp only [hs, hf]

variable (hf : g.tileFault cs k.idx (d :: a.toList ++ b.toList) [d] = none)
include hf

theorem tileArithRun_of_misfit
    (hok : ok (g.handle cs d).fmt (g.handle cs (a.getD d)).fmt (g.handle cs (b.getD d)).fmt = false) :
    tileArithRun i d a b ok st li s = (s, .trap { cause := .illegalField }) := by
  unfold tileArithRun
  simp only [hs, hf, hok]
  rfl

variable (hok : ok (g.handle cs d).fmt (g.handle cs (a.getD d)).fmt (g.handle cs (b.getD d)).fmt = true)
include hok

theorem tileArithRun_waits (hfull : 16 ≤ (s.core st.core).tileq.length) :
    tileArithRun i d a b ok st li s = (s, .wait .tileRoom li.vals) := by
  unfold tileArithRun
  simp only [hs, hf, hok, tileRoom_of_full hfull]
  rfl

theorem tileArithRun_accepts (hroom : ¬16 ≤ (s.core st.core).tileq.length) : tileArithRun i d a b ok st li s =
    (s.accept st.core (g.tileCmd cs (s.tileIo st k cs) i d a b none), .next) := by
  unfold tileArithRun
  simp only [hs, hf, hok, tileRoom_of_room hroom]
  rfl

end

-- LOADS AND STORES (10 R267 to R272)

/-- The instruction of a load or store, and what it does for each thread. -/
def tileMemInstr (store gather : Bool) (x : FmtX) : Instr :=
  if store then (if gather then .tstorer x else .tstore x) else if gather then .tloadr x else .tload x

def tileMemOp (store gather : Bool) (x : FmtX) : SeqOp :=
  { reads := tileReads x store gather, run := tileMemRun (tileMemInstr store gather x) x store gather }

theorem exec_tileMemInstr (store gather : Bool) (x : FmtX) (s : State) : exec (tileMemInstr store gather x) s =
    .next (s.runEach (tileMemInstr store gather x) x.ctl 0 false (tileMemOp store gather x)) := by
  cases store <;> cases gather <;> rfl

section
variable {i : Instr} {x : FmtX} {store gather : Bool} {st : Site} {li : LaneIn} {s : State} {k : Skein} {g : Workgroup}
  {cs d : Nat} {r : List Nat} (hs : s.tileSite st = some (k, g, cs)) (hv : li.vals = d :: r)
include hs hv

theorem tileMemRun_of_fault {q : Trap} (hf : s.tileMemFault st.core k g cs (!(s.siteThread st).sup) x store gather d = some q) :
    tileMemRun i x store gather st li s = (s, .trap q) := by
  unfold tileMemRun
  simp only [hs, LaneIn.val, hv, List.getD_cons_zero, hf]

variable (hf : s.tileMemFault st.core k g cs (!(s.siteThread st).sup) x store gather d = none)
include hf

theorem tileMemRun_waits (hfull : 16 ≤ (s.core st.core).tileq.length) :
    tileMemRun i x store gather st li s = (s, .wait .tileRoom (d :: r)) := by
  unfold tileMemRun
  simp only [hs, LaneIn.val, hv, List.getD_cons_zero, hf, tileRoom_of_full hfull]
  rfl

theorem tileMemRun_accepts (hroom : ¬16 ≤ (s.core st.core).tileq.length) : tileMemRun i x store gather st li s =
    (s.tileMemCmd st i x store gather k g cs d (if gather then elems 32 64 (r.headD 0) else []), .next) := by
  have h1 : (d :: r).getD 1 0 = r.headD 0 := by cases r <;> rfl
  unfold tileMemRun
  simp only [hs, LaneIn.val, hv, List.getD_cons_zero, h1, hf, tileRoom_of_room hroom]
  rfl

end

-- What an engine's read of a layout entry can change (07 R179, R204): no skein but by a parity error's mark.

theorem stills_engThen {α β : Type} {s : State} {y : Eng α} {f : α → State → Eng β} (hy : s.stills y.1)
    (hf : ∀ a u, s.stills u → s.stills (f a u).1) : s.stills (engThen y f).1 := by
  obtain ⟨u, e | a⟩ := y
  · exact hy
  · exact hf a u hy

section
variable (s : State) (w : Who) (n : Nat)

theorem memOnly_engPlace (va : Nat) (acc : AccKind) : s.memOnly (s.engPlace w va n acc).1 := by
  have htr := (State.memOnly.refl s).translate w.core w.ctx va acc w.user
  unfold State.engPlace
  split
  · exact .refl s
  split
  · split <;> exact .refl s
  split
  · exact .refl s
  split
  · next hp => rw [hp] at htr; exact htr
  · next hp =>
    rw [hp] at htr
    split <;> exact htr

theorem stills_engGet (core ctx : Nat) (p : Place) : s.stills (s.engGet core ctx p n).1 := by
  have hread := stills_readPlace s core p n true
  unfold State.engGet
  split
  · exact stills_ite ((State.stills.refl s).count ..) (.refl s)
  · exact (State.stills.refl s).memOnly ((State.memOnly.refl s).homeRead ..)
  · exact (State.stills.refl s).memOnly ((State.memOnly.refl s).homeRead ..)
  · split
    · next hp => rw [hp] at hread; exact hread
    · next hp => rw [hp] at hread; exact hread
    · next hp => rw [hp] at hread; exact hread

theorem aperEng_state (r : Except AperErr (List Byte × List Nat)) : (aperEng s r).1 = s := by
  unfold aperEng
  split <;> rfl

theorem stills_engRead (va : Nat) : s.stills (s.engRead w va n).1 := by
  refine stills_engThen ((State.stills.refl s).memOnly (memOnly_engPlace ..)) fun p u hu => ?_
  dsimp only
  split
  · rw [aperEng_state]; exact hu
  · exact hu.trans (stills_engGet ..)

theorem stills_layBytes : s.stills (s.layBytes w n).1 := by
  refine stills_engThen (stills_engRead ..) fun a u hu => stills_engThen (stills_ite hu (hu.trans (stills_engRead ..))) fun b v hv => hv

theorem stills_layAt : s.stills (s.layAt w n).1 := by
  have hlay := stills_layBytes s w n
  unfold State.layAt
  split
  · next hl => rw [hl] at hlay; exact hlay
  · next hl => rw [hl] at hlay; exact hlay
  · next hl => rw [hl] at hlay; exact hlay

end

theorem tileBind_skeins (s : State) (core : Nat) (q : TileCmd) (x : FmtX) (store gather : Bool) (lay : List Byte) :
    (s.tileBind core q x store gather lay).1.skeins = s.skeins := by
  unfold State.tileBind
  dsimp only
  split
  · rfl
  · split
    · rfl
    · exact State.modPart_skeins ..

/-- The acceptance of a load or store leaves every skein but for threads and queues. -/
theorem stills_tileMemCmd (s : State) (st : Site) (i : Instr) (x : FmtX) (store gather : Bool) (k : Skein) (g : Workgroup)
    (cs d : Nat) (rows : List Nat) : s.stills (s.tileMemCmd st i x store gather k g cs d rows) := by
  have hdrain : s.stills (s.drainForEngine st.core st.slot) := (State.stills.refl s).drainForEngine ..
  have hlay {w : Who} {n : Nat} {v : State} {r : Except EngStop (List Byte)}
      (hl : (s.drainForEngine st.core st.slot).layAt w n = (v, r)) : s.stills v := by
    simpa only [hl] using hdrain.trans (stills_layAt (s.drainForEngine st.core st.slot) w n)
  have hend (v : State) (q : TileCmd) (hv : s.stills v) : s.stills (if (store && mapBit x 7) = true then
      (v.accept st.core q).unbind st.core k.wgKey cs (mapHandle x) else v.accept st.core q) := by
    have hacc : s.stills (v.accept st.core q) := hv.of_skeins (State.modCore_skeins ..)
    split
    · exact hacc.of_skeins (unbind_skeins ..)
    · exact hacc
  unfold State.tileMemCmd
  refine hend _ _ ?_
  split
  · next v lay hl => exact (hlay hl).of_skeins (tileBind_skeins ..)
  · next v e hl => exact hlay hl

-- TMMA AND TMMASP (10 R278, R282)

/-- The handles that a multiply names. -/
abbrev mmaNamed (x : FmtT) (sparse : Bool) : List Nat :=
  [x.d.toNat, x.a.toNat, x.b.toNat] ++ if sparse then [x.aux.toNat] else []

/-- The formats of a multiply's handles go together. -/
abbrev mmaFits (x : FmtT) (sparse : Bool) (g : Workgroup) (cs : Nat) : Prop :=
  mmaFmts sparse (g.handle cs x.d.toNat).fmt (g.handle cs x.a.toNat).fmt (g.handle cs x.b.toNat).fmt = true ∧
    (sparse = true → (g.handle cs x.aux.toNat).fmt = 12)

section
variable {x : FmtT} {sparse owned : Bool} {k : Skein} {g : Workgroup} {cs : Nat}

theorem mmaFault_of_unbound {h : Nat} (hf : ((mmaNamed x sparse).find? fun h => !(g.handle cs h).bound) = some h) :
    mmaFault x sparse k g cs owned = some { cause := .tileFreed, addr := word h } := by
  unfold mmaFault
  simp only [tileFault_of_unbound hf]

variable (hb : ∀ h ∈ mmaNamed x sparse, (g.handle cs h).bound = true)
include hb

/-- With every handle bound, D's owner counts, then the formats. -/
theorem mmaFault_of_bound : mmaFault x sparse k g cs owned =
    if !owned then some { cause := .tileOwner, addr := word x.d.toNat }
    else if mmaFits x sparse g cs then none else some { cause := .illegalField } := by
  have hfit : (!mmaFmts sparse (g.handle cs x.d.toNat).fmt (g.handle cs x.a.toNat).fmt (g.handle cs x.b.toNat).fmt ||
      (sparse && (g.handle cs x.aux.toNat).fmt != 12)) = !decide (mmaFits x sparse g cs) := by
    cases sparse <;> simp [mmaFits, bne, beq_eq_decide]
  unfold mmaFault
  simp only [tileFault_of_bound hb, hfit, Bool.not_eq_true', decide_eq_false_iff_not, ite_not]
  rfl

theorem mmaFault_of_unowned : mmaFault x sparse k g cs false = some { cause := .tileOwner, addr := word x.d.toNat } :=
  mmaFault_of_bound hb

theorem mmaFault_of_misfit (hfit : ¬mmaFits x sparse g cs) : mmaFault x sparse k g cs true = some { cause := .illegalField } :=
  (mmaFault_of_bound hb).trans (if_neg hfit)

theorem mmaFault_of_fits (hfit : mmaFits x sparse g cs) : mmaFault x sparse k g cs true = none :=
  (mmaFault_of_bound hb).trans (if_pos hfit)

end

/-- A convergence register with one signature more (10 R282). -/
def CvReg.sign (c : CvReg) (sparse : Bool) (w : BitVec 44) (own : Bool) : CvReg :=
  let c1 : CvReg := if c.count = 0 then { c with sparse := sparse, word := w }
    else { c with mismatch := c.mismatch || c.word != w || c.sparse != sparse }
  { c1 with ownsig := c1.ownsig || own, count := c1.count + 1 }

theorem sign_target (c : CvReg) (sparse : Bool) (w : BitVec 44) (own : Bool) : (c.sign sparse w own).target = c.target := by
  unfold CvReg.sign
  split <;> rfl

theorem sign_eq (c : CvReg) (sparse : Bool) (w : BitVec 44) (own : Prop) [Decidable own] : c.sign sparse w (decide own) =
    if c.count = 0 then { c with sparse := sparse, word := w, ownsig := c.ownsig || decide own, count := 1 }
    else { c with mismatch := c.mismatch || decide (c.word ≠ w) || decide (c.sparse ≠ sparse)
                  ownsig := c.ownsig || decide own, count := c.count + 1 } := by
  by_cases hc : c.count = 0 <;> simp [CvReg.sign, hc, bne, beq_eq_decide]

/-- The instruction of a multiply. -/
def mmaInstr (sparse : Bool) (x : FmtT) : Instr := if sparse then .tmmasp x else .tmma x

/-- What a signature does that is not its command's own wait (10 R282). -/
def mmaSign (x : FmtT) (sparse : Bool) (st : Site) (k : Skein) (g : Workgroup) (cs : Nat) (s : State) : State × Fate :=
  let c := lookD {} g.cvs (cvKey cs x.cv.toNat)
  let d := g.handle cs x.d.toNat
  let v := c.sign sparse (st.word.extractLsb' 0 44) (d.owner == k.idx)
  let closed := s.setCv k.wgKey cs x.cv.toNat { target := c.target }
  if v.count < v.target then (s.setCv k.wgKey cs x.cv.toNat v, .next)
  else if v.mismatch then (closed, .trap { cause := .cvrMismatch, addr := word x.cv.toNat })
  else match mmaFault x sparse k g cs (d.owner != 0x1FF && v.ownsig) with
    | some t => (closed, .trap t)
    | none => mmaAccept x sparse st k g cs closed

theorem mmaRun_eq_mmaSign {x : FmtT} {sparse : Bool} {st : Site} {li : LaneIn} {s : State} {k : Skein} {g : Workgroup} {cs : Nat}
    (hs : s.tileSite st = some (k, g, cs)) (hv : li.vals ≠ [1]) : mmaRun x sparse st li s = mmaSign x sparse st k g cs s := by
  unfold mmaRun
  rw [hs]
  exact if_neg hv

section
variable {x : FmtT} {sparse : Bool} {st : Site} {s : State} {k : Skein} {g : Workgroup} {cs : Nat} {c v : CvReg}
  (hc : lookD {} g.cvs (cvKey cs x.cv.toNat) = c)
  (hsign : c.sign sparse (st.word.extractLsb' 0 44) ((g.handle cs x.d.toNat).owner == k.idx) = v)
include hc hsign

theorem mmaSign_signs (hlt : v.count < c.target) :
    mmaSign x sparse st k g cs s = (s.setCv k.wgKey cs x.cv.toNat v, .next) := by
  have ht : v.target = c.target := hsign ▸ sign_target ..
  unfold mmaSign
  simp only [hc, hsign, ht, if_pos hlt]

variable (hle : c.target ≤ v.count)
include hle

theorem mmaSign_of_mismatch (hm : v.mismatch = true) : mmaSign x sparse st k g cs s =
    (s.setCv k.wgKey cs x.cv.toNat { target := c.target }, .trap { cause := .cvrMismatch, addr := word x.cv.toNat }) := by
  have ht : v.target = c.target := hsign ▸ sign_target ..
  unfold mmaSign
  simp only [hc, hsign, ht, if_neg (Nat.not_lt.2 hle), if_pos hm]

variable (hm : v.mismatch = false) {owned : Bool} (ho : ((g.handle cs x.d.toNat).owner != 0x1FF && v.ownsig) = owned)
include hm ho

theorem mmaSign_of_fault {q : Trap} (hf : mmaFault x sparse k g cs owned = some q) :
    mmaSign x sparse st k g cs s = (s.setCv k.wgKey cs x.cv.toNat { target := c.target }, .trap q) := by
  have ht : v.target = c.target := hsign ▸ sign_target ..
  unfold mmaSign
  simp only [hc, hsign, ht, if_neg (Nat.not_lt.2 hle), hm, ho, hf, Bool.false_eq_true, if_false]

/-- The last signature of a round without a fault leaves the rest to its command. -/
theorem mmaSign_closes (hf : mmaFault x sparse k g cs owned = none) :
    mmaSign x sparse st k g cs s = mmaAccept x sparse st k g cs (s.setCv k.wgKey cs x.cv.toNat { target := c.target }) := by
  have ht : v.target = c.target := hsign ▸ sign_target ..
  unfold mmaSign
  simp only [hc, hsign, ht, if_neg (Nat.not_lt.2 hle), hm, ho, hf, Bool.false_eq_true, if_false]

end

section
variable {x : FmtT} {sparse : Bool} {st : Site} {s : State} {k : Skein} {g : Workgroup} {cs : Nat}

theorem mmaAccept_waits (hfull : 16 ≤ (s.core st.core).tileq.length) :
    mmaAccept x sparse st k g cs s = (s, .wait .tileRoom [1]) := by
  unfold mmaAccept
  simp only [tileRoom_of_full hfull]
  rfl

theorem mmaAccept_accepts (hf : mmaFault x sparse k g cs true = none) (hroom : ¬16 ≤ (s.core st.core).tileq.length) :
    mmaAccept x sparse st k g cs s = (s.accept st.core (g.tileCmd cs (s.tileIo st k cs) (mmaInstr sparse x) x.d.toNat
      (some x.a.toNat) (some x.b.toNat) (if sparse then some x.aux.toNat else none)), .next) := by
  unfold mmaAccept
  simp only [tileRoom_of_room hroom, hf]
  cases sparse <;> rfl

end

theorem exec_mmaInstr (sparse : Bool) (x : FmtT) (s : State) : exec (mmaInstr sparse x) s =
    .next (s.runEach (mmaInstr sparse x) x.ctl x.ctl.stall false { run := mmaRun x sparse }) := by
  cases sparse <;> rfl

/-- Settles O38: each command does what the checks of its handles and formats and the room of the queue make of it, and a
signature what its convergence register makes of it. -/
theorem tileCommandsAreAccepted : Obligations.TileCommandsAreAccepted := by
  intro s is k l g hg th cs fmt full accepted waits
  have hsite {c : Ctl} (h : s.poisedOne is k c l) : s.tileSite (siteOf s is l) = some (k, g, cs) :=
    tileSite_of_skein (poised_skein h).1 hg
  refine ⟨fun x h => ?_, fun x store gather h hreg => ?_, fun x sparse h => ?_⟩
  · intro d a b int p hp
    obtain ⟨a', b', ok, he, hnamed, hok, hcmd⟩ : ∃ a' b' ok,
        exec p.1 s = .next (s.runEach p.1 x.ctl x.ctl.stall false { run := tileArithRun p.1 d a' b' ok }) ∧
        d :: a'.toList ++ b'.toList = p.2.1 ∧ ok (fmt d) (fmt (a'.getD d)) (fmt (b'.getD d)) = p.2.2.1 ∧
        Claims.tileCommand s s is k g l p.1 d a' b' none = p.2.2.2 := by
      simp only [List.mem_cons, List.not_mem_nil, or_false] at hp
      rcases hp with rfl | rfl | rfl
      · exact ⟨none, none, _, rfl, rfl, rfl, rfl⟩
      · exact ⟨some a, none, _, rfl, rfl, by simp [int, beq_eq_decide], rfl⟩
      · exact ⟨some a, some b, _, rfl, rfl, by simp [beq_eq_decide, Bool.and_assoc], rfl⟩
    refine ⟨fun n hn => ?_, fun hb => ⟨fun ho => ?_, fun ho => ⟨fun hfit => ?_, fun hfit => ⟨fun hroom => ?_, fun hfull => ?_⟩⟩⟩⟩
    · exact bare_faults h he (tileArithRun_of_fault (hsite h) (tileFault_of_unbound (hnamed ▸ hn))) rfl rfl
    · exact bare_faults h he (tileArithRun_of_fault (hsite h) (tileFault_of_foreign (hnamed ▸ hb) ho)) rfl rfl
    · exact bare_faults h he (tileArithRun_of_misfit (hsite h) (tileFault_of_own (hnamed ▸ hb) ho) (hok.trans hfit)) rfl rfl
    · have hrun := tileArithRun_accepts (i := p.1) (li := bareInput s k l) (hsite h) (tileFault_of_own (hnamed ▸ hb) ho)
        (hok.trans hfit) hroom
      rw [tileCmd_eq_tileCommand (poised_skein h).1, hcmd] at hrun
      exact bare_ends h he hrun next_ne_trap (State.modCore_skeins ..)
    · exact bare_ends h he (tileArithRun_waits (hsite h) (tileFault_of_own (hnamed ▸ hb) ho) (hok.trans hfit) hfull) (wait_ne_trap _ _) rfl
  · intro i d r hvals fault
    have he := exec_tileMemInstr store gather x s
    have hv : (oneInput (tileMemOp store gather x).toOp s k l).vals = d :: r :=
       (congrArg (List.map fun r : Rd => r.value k.threads l) (List.append_nil _)).trans hvals
    refine ⟨fun q hf => ?_, fun hf hfull => ?_, fun hf hroom => ?_⟩
    · exact one_traps i x.ctl 0 false _ s is k l h he rfl (has_nil _ _) hreg q s (tileMemRun_of_fault (hsite h) hv hf) rfl
        (has_nil _ _)
    · exact one_ends i x.ctl 0 false _ s is k l h he rfl (has_nil _ _) hreg _ _ (tileMemRun_waits (hsite h) hv hf hfull) (wait_ne_trap _ _)
        ⟨k, poised_skein h⟩ rfl (has_nil _ _)
    · exact one_ends i x.ctl 0 false _ s is k l h he rfl (has_nil _ _) hreg _ _ (tileMemRun_accepts (hsite h) hv hf hroom) next_ne_trap
        (poised_calm h (stills_tileMemCmd ..)) rfl (has_nil _ _)
  · intro i n c w own named sets signed
    have he := exec_mmaInstr sparse x s
    have hc : lookD {} g.cvs (cvKey cs x.cv.toNat) = c := rfl
    have hsigned : c.sign sparse ((siteOf s is l).word.extractLsb' 0 44) ((g.handle cs x.d.toNat).owner == k.idx) = signed := by
      rw [beq_eq_decide]
      exact sign_eq ..
    have hrun : mmaRun x sparse (siteOf s is l) (bareInput s k l) s = mmaSign x sparse (siteOf s is l) k g cs s :=
      mmaRun_eq_mmaSign (hsite h) (by nofun)
    have hsets (v : CvReg) : (s.setCv k.wgKey cs n v).skeins = s.skeins := State.modWg_skeins ..
    refine ⟨fun hlt => bare_ends h he (hrun.trans (mmaSign_signs hc hsigned hlt)) next_ne_trap (hsets _), fun hle => ?_⟩
    intro closed
    have hlen : (closed.core is.core).tileq.length = (s.core is.core).tileq.length := by rw [core_modWg]
    refine ⟨fun hm => bare_faults h he (hrun.trans (mmaSign_of_mismatch hc hsigned hle hm)) (hsets _) rfl, fun hm => ?_⟩
    refine ⟨fun m hf => ?_, fun hb => ⟨fun ho => ?_, fun ho hown => ?_⟩⟩
    · exact bare_faults h he (hrun.trans (mmaSign_of_fault hc hsigned hle hm rfl (mmaFault_of_unbound hf))) (hsets _) rfl
    · have hunowned : ((g.handle cs x.d.toNat).owner != 0x1FF && signed.ownsig) = false := by
        rcases ho with ho | ho <;> simp [ho]
      exact bare_faults h he (hrun.trans (mmaSign_of_fault hc hsigned hle hm hunowned (mmaFault_of_unowned hb))) (hsets _) rfl
    · have howned : ((g.handle cs x.d.toNat).owner != 0x1FF && signed.ownsig) = true := by simp [ho, hown]
      have hcloses (hfit : mmaFits x sparse g cs) : mmaRun x sparse (siteOf s is l) (bareInput s k l) s =
          mmaAccept x sparse (siteOf s is l) k g cs closed :=
        hrun.trans (mmaSign_closes hc hsigned hle hm howned (mmaFault_of_fits hb hfit))
      refine ⟨fun hfit => ?_, fun hfit hfull => ?_, fun hfit hroom => ?_⟩
      · exact bare_faults h he (hrun.trans (mmaSign_of_fault hc hsigned hle hm howned (mmaFault_of_misfit hb hfit))) (hsets _) rfl
      · exact bare_ends h he ((hcloses hfit).trans (mmaAccept_waits (le_of_le_of_eq hfull hlen.symm))) (wait_ne_trap _ _) (hsets _)
      · have haccepts := mmaAccept_accepts (st := siteOf s is l) (k := k) (mmaFault_of_fits hb hfit)
          fun hfull => hroom (le_of_le_of_eq hfull hlen)
        rw [tileCmd_eq_tileCommand (poised_skein h).1] at haccepts
        exact bare_ends h he ((hcloses hfit).trans haccepts) next_ne_trap ((State.modCore_skeins ..).trans (hsets _))

end Sys2Proof.Machine
end

section
/-! Tile commands as they execute and leave the queue (10 R258, R263, R271 to R273), and from them O39. -/

namespace Sys2Proof.Machine

-- FRAMES

@[simp] theorem frame_setFrame_same (c : Core) (n : Nat) (f : Frame) : (c.setFrame n f).frame n = f := by
  rw [Core.frame, Core.setFrame, lookD_set, if_pos rfl]

@[simp] theorem setFrame_tileq (c : Core) (n : Nat) (f : Frame) : (c.setFrame n f).tileq = c.tileq := rfl

section
variable {q : TileCmd} {x : FmtT} {f fmt : Nat} (hi : q.instr = .tzero x) (hd : q.d = some (f, fmt))
include hi hd

/-- A TZERO leaves its frame as it is at reset. -/
theorem arith_of_tzero (c : Core) : q.arith c = c.setFrame f {} := by
  unfold TileCmd.arith
  simp only [hi, hd]

theorem markFrames_of_tzero (c : Core) (bad : Bool) : c.markFrames q bad = c.setFrame f { c.frame f with error := bad } := by
  have hw : q.writes = [f] := by simp [TileCmd.writes, hi, hd]
  unfold Core.markFrames
  simp only [hw, List.foldl_cons, List.foldl_nil]

end

-- EXECUTION (10 R263, R271)

section
variable {s : State} {core : Nat} {q : TileCmd} {rest : List TileCmd}

/-- The core's own state after a command has executed. -/
theorem core_tileEnd (s : State) (core j : Nat) (q : TileCmd) (failed : Bool) : (s.tileEnd core j q failed).core core =
    Core.markFrames { s.core core with
      tileq := modAt j (fun _ => { q with done := true, failed := failed, parked := false }) (s.core core).tileq } q failed := by
  rw [State.tileEnd, State.setPresent, State.modPart, core_modWg, State.core_modCore, if_pos rfl, State.setCmd,
    State.core_modCore, if_pos rfl]

theorem tileExec_of_error (h : ∃ f ∈ q.readsOf, ((s.core core).frame f).error = true) :
    s.tileExec core 0 q = s.tileEnd core 0 q true := if_pos (List.any_eq_true.2 h)

/-- A command without a memory side writes its frame. -/
theorem tileExec_of_arith (h : ∀ f ∈ q.readsOf, ((s.core core).frame f).error = false) (hform : tileForm q.instr = none) :
    s.tileExec core 0 q = (s.modCore core q.arith).tileEnd core 0 q false := by
  have hany : ¬(q.readsOf.any fun f => ((s.core core).frame f).error) = true := by simpa using h
  rw [State.tileExec, if_neg hany, hform]

variable (hq : (s.core core).tileq = q :: rest) (hs : s.stalls core = false) (hp : q.parked = false)
include hq hs hp

/-- The oldest command executes where it has not. -/
theorem exec_tileCommandExecute_oldest (hd : q.done = false) :
    exec (.tileCommandExecute core) s = .next (s.tileExec core 0 q) := by
  have hfind : (s.core core).tileq.zipIdx.find? (fun p => !p.1.done) = some (q, 0) := by
    rw [hq, List.zipIdx_cons, List.find?_cons_of_pos (by simp [hd])]
  show execTileCommandExecute core s = _
  unfold execTileCommandExecute
  simp only [hfind, hp, hs, Bool.or_false, Bool.false_eq_true, if_false]

omit hs hp in
/-- A TZERO leaves D zero, without its error bit, and stays in the queue as executed. -/
theorem tileEnd_of_tzero {x : FmtT} {f fmt : Nat} (hi : q.instr = .tzero x) (hd : q.d = some (f, fmt)) :
    let c := ((s.modCore core q.arith).tileEnd core 0 q false).core core
    c.frame f = {} ∧ c.tileq = { q with done := true, failed := false, parked := false } :: rest := by
  intro c
  have hc : (s.modCore core q.arith).core core = (s.core core).setFrame f {} := by
    rw [State.core_modCore, if_pos rfl, arith_of_tzero hi hd]
  have hend : c = _ := core_tileEnd ..
  rw [hend, markFrames_of_tzero hi hd, hc]
  refine ⟨?_, ?_⟩
  · rw [frame_setFrame_same]
    exact congrArg (fun y : Frame => { y with error := false }) (frame_setFrame_same (s.core core) f {})
  · rw [setFrame_tileq, setFrame_tileq, hq]
    rfl

-- COMPLETION (10 R263, R272)

variable (hd : q.done = true)
include hd

/-- Any command but a store leaves the queue at once. -/
theorem exec_tileCommandComplete_pops (hform : ∀ x b, tileForm q.instr ≠ some (x, true, b)) :
    exec (.tileCommandComplete core) s = .next (s.tilePop core) := by
  show execTileCommandComplete core s = _
  unfold execTileCommandComplete
  simp only [hq, hd, hp, hs, Bool.not_true, Bool.or_false, Bool.false_eq_true, if_false]

/-- A store leaves the queue with its completion. -/
theorem exec_tileCommandComplete_stores {u : State} {x : FmtX} {b : Bool} (hform : tileForm q.instr = some (x, true, b))
    (hu : s.complete core q.completion = (u, .ok ())) : exec (.tileCommandComplete core) s = .next (u.tilePop core) := by
  show execTileCommandComplete core s = _
  unfold execTileCommandComplete
  simp only [hq, hd, hp, hs, hform, hu, Bool.not_true, Bool.or_false, Bool.false_eq_true, if_false]

end

theorem tileq_tilePop (s : State) (core : Nat) : ((s.tilePop core).core core).tileq = (s.core core).tileq.drop 1 := by
  show ((s.modCore core fun c => ({ c with tileq := c.tileq.drop 1 }).settleFrames).core core).tileq = _
  rw [State.core_modCore, if_pos rfl]
  rfl

/-- Settles O39: what the oldest command's execution does by the frames that it reads, and what its completion does by its form. -/
theorem tileCommandsExecuteAndComplete : Obligations.TileCommandsExecuteAndComplete := by
  intro s core q rest hq hs hp
  refine ⟨fun hd hreads => ⟨fun hform => ?_, fun x f fmt hi hf => ?_⟩, fun hd hbad => ?_, fun hd hform => ⟨?_, ?_⟩,
    fun u x b hd hform hu => exec_tileCommandComplete_stores hq hs hp hd hform hu⟩
  · rw [exec_tileCommandExecute_oldest hq hs hp hd, tileExec_of_arith hreads hform]
  · obtain ⟨hframe, htileq⟩ := tileEnd_of_tzero hq hi hf
    refine ⟨_, exec_tileCommandExecute_oldest hq hs hp hd, ?_⟩
    rw [tileExec_of_arith hreads (by rw [hi]; rfl), hframe]
    exact ⟨fun _ => rfl, rfl, _, htileq, rfl, rfl⟩
  · rw [exec_tileCommandExecute_oldest hq hs hp hd, tileExec_of_error hbad]
  · exact exec_tileCommandComplete_pops hq hs hp hd hform
  · rw [tileq_tilePop, hq]
    rfl

end Sys2Proof.Machine
end

section
/-! Vacates, their save images and restores (11 R303 to R306, 19 R460): what each event does, and from them O49. -/

namespace Sys2Proof.Machine

-- GUARDS

/-- A guard that asks for a negation is shut where its subject holds. -/
theorem not_bnot_of_true {b : Bool} (h : b = true) : ¬(!b) = true := ne_true_of_eq_false ((Bool.not_eq_false' b).mpr h)

-- DRAINING (11 R304)

/-- The end of a drain: the cores' stores and loads done, each of the workgroups saved, or killed, and the vacate marked saved. -/
def State.endDrain (s : State) (req : Nat) (v : Vacate) (f : State → Nat → State) : State :=
  let t := v.wgs.foldl f (v.cores.foldl (fun s c => s.quiesce c fun k => v.wgs.contains k) s)
  { t with vacates := ins req { v with saved := true } t.vacates }

section
variable {s : State}

/-- A core at rest is in no run of the vacate's workgroups. -/
theorem paused_of_restful {core : Nat} {mine : Nat → Bool} (h : s.restful core mine = true) : s.paused core mine = true := by
  unfold State.restful at h
  exact (Bool.and_eq_true_iff.1 (Bool.and_eq_true_iff.1 h).1).1

/-- Cores of which one is in a run are not all at rest. -/
theorem all_restful_of_not_paused {cores : List Nat} {mine : Nat → Bool}
    (h : cores.all (fun c => s.paused c mine) = false) : cores.all (fun c => s.restful c mine) = false := by
  obtain ⟨c, hc, hp⟩ := List.all_eq_false.1 h
  exact List.all_eq_false.2 ⟨c, hc, fun hr => hp (paused_of_restful hr)⟩

variable {req : Nat} {v : Vacate} (hv : look s.vacates req = some v) (hs : v.saved = false)
include hv hs

/-- A vacate under way saves its workgroups where they are at rest, and one of a reset kills them where they are in no run. -/
theorem exec_vacateDrainEnd_started (hst : v.started = true) : exec (.vacateDrainEnd req) s = .next
    (if v.kill then (if v.cores.all fun c => s.paused c fun k => v.wgs.contains k then s.endDrain req v State.killWg else s)
     else if v.cores.all fun c => s.restful c fun k => v.wgs.contains k then s.endDrain req v State.saveWg else s) := by
  show execVacateDrainEnd req s = _
  unfold execVacateDrainEnd
  rw [hv]
  exact congrArg Host.Outcome.next ((if_neg (ne_true_of_eq_false hs)).trans (if_neg (not_bnot_of_true hst)))

/-- Nothing is saved or killed while a skein of the workgroups is in a run. -/
theorem exec_vacateDrainEnd_waits (hst : v.started = true)
    (hp : v.cores.all (fun c => s.paused c fun k => v.wgs.contains k) = false) :
    exec (.vacateDrainEnd req) s = .next s := by
  rw [exec_vacateDrainEnd_started hv hs hst, if_neg (ne_true_of_eq_false hp),
    if_neg (ne_true_of_eq_false (all_restful_of_not_paused hp)), ite_self]

/-- A host request that has not started takes its first step. -/
theorem exec_vacateDrainEnd_host {ctx : Nat} (hst : v.started = false) (hh : v.host = some ctx) :
    exec (.vacateDrainEnd req) s = .next (s.hostStart req v ctx) := by
  show execVacateDrainEnd req s = _
  unfold execVacateDrainEnd
  rw [hv]
  refine congrArg Host.Outcome.next ((if_neg (ne_true_of_eq_false hs)).trans ((if_pos ((Bool.not_eq_true' _).mpr hst)).trans ?_))
  rw [hh]

end

-- SAVING (11 R305)

/-- A workgroup taken off its cores is gone. -/
theorem wg_clearParts (s : State) (w : Workgroup) (wgk : Nat) : (s.clearParts w wgk).wg wgk = none := by
  unfold State.clearParts State.wg
  rw [look_del, if_pos rfl]

/-- What the record of a saved workgroup keeps. -/
def State.savedOf (s : State) (wgk : Nat) (w : Workgroup) : Saved :=
  let slot := ((List.range ((s.slotsUsed w.ctx).length + 1)).find? fun i => !(s.slotsUsed w.ctx).contains i).getD 0
  let fix := (s.ctx w.ctx).fix
  let r := s.saveParts w (fix.saveBase + slot * fix.slotSize * 65536)
    (w.cluster.zipIdx.map fun c => (c.1, c.2, s.partOf w wgk c.1 c.2))
  { wg := { w with parts := w.parts.map fun p => (p.1, ({ marks := p.2.marks } : Part)), cvs := [] }
    slot := slot, cores := r.2, cycle := s.cycle, time := s.time.now }

section
variable {s : State} {wgk : Nat} {w : Workgroup} (hw : s.wg wgk = some w)
include hw

theorem wg_saveWg : (s.saveWg wgk).wg wgk = none := by
  unfold State.saveWg
  rw [hw]
  exact wg_clearParts ..

theorem saved_saveWg : look (s.saveWg wgk).saved wgk = some (s.savedOf wgk w) := by
  unfold State.saveWg
  rw [hw]
  exact look_ins_self ..

end

-- THE END OF A VACATE (11 R302, 19 R460)

section
variable {s : State} {v : Vacate} (hs : v.saved = true) (ha : ∀ i ∈ v.after, look s.vacates i = none)
include hs ha

/-- Nothing holds back the end of a vacate whose images are written and whose others have ended. -/
theorem not_vacateEnd_waits : ¬(!v.saved || v.after.any fun a => (look s.vacates a).isSome) = true := by
  simpa [hs] using ha

variable {req : Nat} (hv : look s.vacates req = some v)
include hv

theorem exec_vacateEnd_kills {ctx : Nat} (hk : v.kill = true) (hh : v.host = some ctx) :
    exec (.vacateEnd req) s = .next (State.resetEnd { s with vacates := del req s.vacates } ctx) := by
  show execVacateEnd req s = _
  unfold execVacateEnd
  rw [hv]
  refine congrArg Host.Outcome.next ((if_neg (not_vacateEnd_waits hs ha)).trans ((if_pos hk).trans ?_))
  rw [hh]

theorem exec_vacateEnd_done (hk : v.kill = false) : exec (.vacateEnd req) s = .next (s.vacateDone req v) := by
  show execVacateEnd req s = _
  unfold execVacateEnd
  rw [hv]
  exact congrArg Host.Outcome.next ((if_neg (not_vacateEnd_waits hs ha)).trans (if_neg (ne_true_of_eq_false hk)))

end

/-- The distributor's own vacate leaves no event. -/
theorem vacateDone_of_distributor {v : Vacate} (hh : v.host = none) (s : State) (req : Nat) :
    s.vacateDone req v = { s with vacates := del req s.vacates } := by
  unfold State.vacateDone
  rw [hh]

/-- A host request posts its event once it can be held. -/
theorem vacateDone_of_host {s : State} {v : Vacate} {ctx : Nat} (hh : v.host = some ctx) (hw : (s.ctx ctx).ev.waits = [])
    (hl : (s.ctx ctx).ev.held.length < 16) (req : Nat) : s.vacateDone req v =
    (State.modCtx { s with vacates := del req s.vacates } ctx fun c => { c with preempting := false }).post ctx false
      { kind := 7 } := by
  unfold State.vacateDone
  rw [hh]
  exact if_pos ⟨hw, hl⟩

-- RESTORING (11 R306)

/-- A saved workgroup that fits the cluster and is next in order goes onto it, a concurrent grid's with all the others. -/
theorem exec_workgroupRestore_next {s : State} {ctx grid wg : Nat} {cluster : List Nat} {sv : Saved}
    (hsv : look s.saved (wgKey ctx grid wg) = some sv)
    (hms : ((s.rooms ctx).filter fun m => cluster.contains m.core).map (·.core) = cluster)
    (hall : s.holdsAll sv ((s.rooms ctx).filter fun m => cluster.contains m.core) = true)
    (hnext : s.restoreNext (wgKey ctx grid wg) sv = true) :
    exec (.workgroupRestore ctx grid wg cluster) s = .next
      (if sv.wg.whole then (State.restoreAll ((s.saved.filter fun p =>
          p.2.wg.ctx == ctx && p.2.wg.grid == grid && p.1 != wgKey ctx grid wg).map (·.1))
          (s.restoreOn (wgKey ctx grid wg) sv cluster)).getD s
       else s.restoreOn (wgKey ctx grid wg) sv cluster) := by
  show execWorkgroupRestore ctx grid wg cluster s = _
  refine congrArg Host.Outcome.next ?_
  rw [hsv]
  exact if_pos ⟨hms, hall, hnext⟩

/-- Settles O49: each event's step follows from how far its vacate is, or from what the cluster holds. -/
theorem workgroupsAreSavedAndRestored : Obligations.WorkgroupsAreSavedAndRestored := by
  intro s
  refine ⟨fun req v hv hs hst => ⟨fun hk hrest => ?_, fun hk hpause => ?_, exec_vacateDrainEnd_waits hv hs hst⟩,
    fun req v ctx hv hs hst hh hn => ⟨fun hroom => ?_, fun hroom => ?_⟩, fun wgk w hw => ⟨wg_saveWg hw, saved_saveWg hw⟩,
    fun req v hv _ hs ha => ⟨fun hk hh => ?_, fun ctx hk hh => exec_vacateEnd_kills hs ha hv hk hh,
      fun ctx hk hh hw hl => ?_⟩, fun ctx grid wg cluster sv hsv hms hall hnext => ⟨fun hwhole => ?_, fun y hwhole hy => ?_⟩⟩
  · rw [exec_vacateDrainEnd_started hv hs hst, if_neg (ne_true_of_eq_false hk), if_pos hrest]
    rfl
  · rw [exec_vacateDrainEnd_started hv hs hst, if_pos hk, if_pos hpause]
    rfl
  · rw [exec_vacateDrainEnd_host hv hs hst hh]
    cases v
    cases hn
    exact congrArg Host.Outcome.next (if_pos hroom)
  · rw [exec_vacateDrainEnd_host hv hs hst hh]
    cases v
    cases hn
    exact congrArg Host.Outcome.next (if_neg (Bool.eq_false_iff.1 hroom))
  · rw [exec_vacateEnd_done hs ha hv hk, vacateDone_of_distributor hh]
  · rw [exec_vacateEnd_done hs ha hv hk, vacateDone_of_host hh hw hl]
  · rw [exec_workgroupRestore_next hsv hms hall hnext, if_neg (ne_true_of_eq_false hwhole)]
    rfl
  · rw [exec_workgroupRestore_next hsv hms hall hnext, if_pos hwhole]
    exact congrArg Host.Outcome.next (congrArg (Option.getD · s) hy)

end Sys2Proof.Machine
end

section
/-! Launch windows and the heads of the sources (11 R284, R285, R287 to R290, R298, R299): what a write to a launch window does, and
what becomes of the record at a head. -/

namespace Sys2Proof.Machine

-- LAUNCH WINDOWS (11 R284, R285)

section
variable {s : State} {ctx off : Nat} {data : List Byte} (hr : s.boot.recovery = false) (hlt : ctx < 512) (hoff : off < 0x40)
  (he : (s.ctx ctx).enabled = true) (hq : (s.ctx ctx).var.quota ≠ 0) (hres : (s.ctx ctx).resetting = false)
include hr hlt hoff he hq hres

/-- A write to the window of an enabled context with quota, by its shape and the room in the queue. -/
theorem exec_launchRecordWrite_of_open : exec (.launchRecordWrite ctx off data) s = .next
    (if off ≠ 0 ∨ data.length ≠ 64 then s.discardLaunch ctx 7
     else if 256 ≤ (s.ctx ctx).lq.length then s.discardLaunch ctx 6
     else
      let c := s.ctx ctx
      let slot := (((List.range 256).map fun i => (c.lqNext + i) % 256).find? fun i => !c.lq.contains i).getD 0
      (s.homeWrite (c.fix.launchBase + 64 * slot) data [] none).modCtx ctx fun c => { c with
        lq := c.lq ++ [slot], lqNext := (slot + 1) % 256, lastSeq := word (numAt data 24 8) }) := by
  have hin : ¬(s.boot.recovery = true ∨ 512 ≤ ctx ∨ 0x40 ≤ off) :=
    not_or.2 ⟨ne_true_of_eq_false hr, not_or.2 ⟨Nat.not_le.2 hlt, Nat.not_le.2 hoff⟩⟩
  have htaken : ¬((!(s.ctx ctx).enabled) = true ∨ (s.ctx ctx).var.quota = 0 ∨ (s.ctx ctx).resetting = true) :=
    not_or.2 ⟨not_bnot_of_true he, not_or.2 ⟨hq, ne_true_of_eq_false hres⟩⟩
  show execLaunchRecordWrite ctx off data s = _
  exact congrArg Host.Outcome.next ((if_neg hin).trans (if_neg htaken))

theorem launchRecordWrite_of_misshapen (h : off ≠ 0 ∨ data.length ≠ 64) :
    exec (.launchRecordWrite ctx off data) s = .next (s.discardLaunch ctx 7) := by
  rw [exec_launchRecordWrite_of_open hr hlt hoff he hq hres, if_pos h]

theorem launchRecordWrite_of_full (h0 : off = 0) (hd : data.length = 64) (hl : 256 ≤ (s.ctx ctx).lq.length) :
    exec (.launchRecordWrite ctx off data) s = .next (s.discardLaunch ctx 6) := by
  rw [exec_launchRecordWrite_of_open hr hlt hoff he hq hres, if_neg (not_or.2 ⟨not_not.2 h0, not_not.2 hd⟩), if_pos hl]

end

-- THE HEAD OF A SOURCE (11 R287, R290)

/-- The record at a head taken as a grid of its band. -/
def State.takeHead (v : State) (ctx band : Nat) (pend : Bool) (i : Nat) (bs : List Byte) (depth : Nat) (parent : Option Nat)
    (g : Option Graph) : State :=
  (v.popHead ctx pend i).takeGrid {
    ctx := ctx, num := 0, lr := { recordOf bs with band := band }, src := if pend then .pend else .queue, depth := depth
    parent := parent, graph := g }

/-- Reasons 2 to 5 for a record with its fields, in the state v that the reads of its descriptor leave: its rejection, unless
its event cannot be held, or its taking. -/
def State.admitHead (u v : State) (ctx band : Nat) (pend : Bool) (i : Nat) (bs : List Byte) (depth : Nat)
    (parent : Option Nat) (g : Option Graph) : State :=
  match v.laterReason ctx (recordOf bs) with
  | some n => if (u.ctx ctx).mayHold then v.rejectHead ctx pend i n (recordOf bs).seq else u
  | none => v.takeHead ctx band pend i bs depth parent g

section
variable {u v : State} {ctx band : Nat} {pend : Bool} {i : Nat} {bs : List Byte} {depth : Nat} {parent : Option Nat}

theorem admitHead_rejects {g : Option Graph} {n : Nat} (hn : v.laterReason ctx (recordOf bs) = some n)
    (hh : (u.ctx ctx).mayHold = true) :
    u.admitHead v ctx band pend i bs depth parent g = v.rejectHead ctx pend i n (recordOf bs).seq := by
  unfold State.admitHead
  rw [hn]
  exact if_pos hh

theorem admitHead_takes {g : Option Graph} (hn : v.laterReason ctx (recordOf bs) = none) :
    u.admitHead v ctx band pend i bs depth parent g = v.takeHead ctx band pend i bs depth parent g := by
  unfold State.admitHead
  rw [hn]

/-- A record that lacks a field is rejected, unless its event cannot be held. -/
theorem checkHead_of_bad_fields (hf : recordFields bs = false) : u.checkHead ctx band pend i bs depth parent =
    if (u.ctx ctx).mayHold then u.rejectHead ctx pend i 1 (recordOf bs).seq else u :=
  if_pos ((Bool.not_eq_true' _).mpr hf)

variable (hf : recordFields bs = true)
include hf

/-- A kernel's record with its fields, by the later checks. -/
theorem checkHead_of_kernel (hk : (recordOf bs).kind ≠ 1) : u.checkHead ctx band pend i bs depth parent =
    u.admitHead u ctx band pend i bs depth parent none :=
  (if_neg (not_bnot_of_true hf)).trans (if_neg hk)

variable (hk : (recordOf bs).kind = 1)
include hk

/-- A graph's record with its fields and a good descriptor, by the later checks. -/
theorem checkHead_of_graph {g : Graph} (hg : u.graphOf ctx (recordOf bs).entry.toNat false = (v, .ok g)) :
    u.checkHead ctx band pend i bs depth parent = u.admitHead v ctx band pend i bs depth parent (some g) := by
  refine (if_neg (not_bnot_of_true hf)).trans ((if_pos hk).trans ?_)
  rw [hg]
  rfl

/-- A graph's record whose descriptor is not good. -/
theorem checkHead_rejects_descriptor (hg : u.graphOf ctx (recordOf bs).entry.toNat false = (v, .bad))
    (hh : (u.ctx ctx).mayHold = true) :
    u.checkHead ctx band pend i bs depth parent = v.rejectHead ctx pend i 1 (recordOf bs).seq := by
  refine (if_neg (not_bnot_of_true hf)).trans ((if_pos hk).trans ?_)
  rw [hg]
  exact if_pos hh

/-- A page fault on the descriptor holds the record (11 R298). -/
theorem checkHead_holds {c : Cause} {va : Nat}
    (hg : u.graphOf ctx (recordOf bs).entry.toNat false = (v, .page c va)) :
    u.checkHead ctx band pend i bs depth parent = v.postFault ctx
      { kind := 1, cause := causeWord c false false, addr := word va, detail := 8 + accDetail .read } (.head band pend) := by
  refine (if_neg (not_bnot_of_true hf)).trans ((if_pos hk).trans ?_)
  rw [hg]

end

section
variable {s u : State} {ctx band i : Nat} {pend : Bool} {bs : List Byte} {depth : Nat} {parent : Option Nat}

/-- The head of a source of an enabled context, with no grid of it in admission and no event of its own outstanding, is checked. -/
theorem exec_launchHeadCheck_of_free (he : (s.ctx ctx).enabled = true) (hres : (s.ctx ctx).resetting = false) (hb : band < 3)
    (hw : (s.ctx ctx).ev.waits.any (·.kind == 4) = false)
    (hbusy : s.sourceBusy ctx band (if pend then .pend else .queue) = false)
    (ho : (s.ctx ctx).ev.outstanding.any (fun o => o.2 == .head band pend) = false)
    (hhead : if pend then u = s ∧ ∃ n, s.pendHead ctx band =
          some (i, { ctx := ctx, bytes := bs, depth := depth, parent := n }) ∧ parent = some n
        else State.queueHead ctx band (s.ctx ctx).lq s = (u, some (i, bs)) ∧ depth = 0 ∧ parent = none) :
    exec (.launchHeadCheck ctx band pend) s = .next (u.checkHead ctx band pend i bs depth parent) := by
  have hfree : ¬((!(s.ctx ctx).enabled) = true ∨ (s.ctx ctx).resetting = true ∨ 3 ≤ band ∨
      (s.ctx ctx).ev.waits.any (·.kind == 4) = true ∨ s.sourceBusy ctx band (if pend then .pend else .queue) = true ∨
      (s.ctx ctx).ev.outstanding.any (fun o => o.2 == .head band pend) = true) := by
    rintro (h | h | h | h | h | h)
    · exact not_bnot_of_true he h
    · exact ne_true_of_eq_false hres h
    · exact Nat.not_le.2 hb h
    · exact ne_true_of_eq_false hw h
    · exact ne_true_of_eq_false hbusy h
    · exact ne_true_of_eq_false ho h
  show execLaunchHeadCheck ctx band pend s = _
  refine congrArg Host.Outcome.next ((if_neg hfree).trans ?_)
  cases pend with
  | true =>
    obtain ⟨rfl, n, hp, rfl⟩ := hhead
    rw [if_pos rfl, hp]
  | false =>
    obtain ⟨hq, rfl, rfl⟩ := hhead
    rw [if_neg Bool.false_ne_true, hq]

end

end Sys2Proof.Machine
end

section
/-! The distributor, node launches, retirement, held events and run grants (11 R290, R291, R299, R301, 02 R37, R40, R52, R55, 05
R136): what each event does where its conditions hold, and from them O48. -/

namespace Sys2Proof.Machine

-- THE DISTRIBUTOR (11 R290, R291)

/-- A node whose launch is due is a shader's: a Scarab takes its records otherwise. -/
theorem kind_of_ready {w : Graph} {ws : List Workgroup} {node : Nat} {x : Node} (hx : w.nodes[node]? = some x)
    (h : w.ready ws node = true) : x.kind = 0 := by
  unfold Graph.ready at h
  rw [hx] at h
  obtain ⟨⟨⟨-, hkind⟩, -⟩, -⟩ := (Bool.and_eq_true_iff.1 h).imp_left fun h =>
    (Bool.and_eq_true_iff.1 h).imp_left Bool.and_eq_true_iff.1
  exact beq_iff_eq.1 hkind

/-- A workgroup of a grid on the device is placed, and the grid counts it. -/
theorem admitOne_of_grid {s : State} {g : Grid} {cl : List (Nat × Nat)} (hg : s.grid g.ctx g.num = some g) : s.admitOne g cl =
    (s.placeWg g g.next g.lr.entry none none cl).modGrid g.ctx g.num fun g => { g with next := g.next + 1 } := by
  unfold State.admitOne
  rw [hg]

/-- A cluster may be given for a grid of the distributor whose context is enabled. -/
theorem not_chain_or_disabled {s : State} {ctx : Nat} {g : Grid} (hstrip : g.strip = none) (he : (s.ctx ctx).enabled = true) :
    ¬(g.strip.isSome = true ∨ (!(s.ctx ctx).enabled) = true) :=
  not_or.2 ⟨by rw [hstrip]; exact Bool.false_ne_true, not_bnot_of_true he⟩

section
variable {s : State} {ctx grid : Nat} {g : Grid} (hg : s.grid ctx grid = some g)
include hg

section
variable {cluster : List Nat} {cl : List (Nat × Nat)} (hstrip : g.strip = none) (he : (s.ctx ctx).enabled = true)
  (hc : cluster ≠ []) (hadm : g.admitting = true) (hserve : s.serves g = true)
  (hcl : checkCluster (s.quotaLeft ctx) g.lr (s.rooms ctx) cluster = some cl)
include hstrip he hc hadm hserve hcl

/-- The grid that the distributor serves has its next workgroup placed on a cluster that holds it. -/
theorem exec_workgroupAdmit_next (hcls : g.lr.cls ≠ 2) :
    exec (.workgroupAdmit ctx grid cluster) s = .next ((s.serve g).admitOne g cl) := by
  show execWorkgroupAdmit ctx grid cluster s = _
  refine congrArg Host.Outcome.next ?_
  rw [hg]
  refine (if_neg (not_chain_or_disabled hstrip he)).trans ((if_neg hc).trans ((if_neg ?_).trans ?_))
  · exact not_or.2 ⟨not_bnot_of_true hadm, not_bnot_of_true hserve⟩
  · conv_lhs => whnf; rw [hcl]
    exact if_neg hcls

/-- A concurrent grid has all its workgroups placed. -/
theorem exec_workgroupAdmit_all {rest : List (List (Nat × Nat))} (hcls : g.lr.cls = 2)
    (hrest : pickAll g.lr (g.lr.total - 1)
        (s.quotaLeft ctx - (cl.filter fun c => (s.rooms ctx).any fun m => m.core == c.1 && !m.held).length)
        (takeRooms g.lr cl (s.rooms ctx)) = some rest) :
    exec (.workgroupAdmit ctx grid cluster) s =
      .next ((cl :: rest).foldl (fun s c => s.admitOne g c) (s.serve g)) := by
  show execWorkgroupAdmit ctx grid cluster s = _
  refine congrArg Host.Outcome.next ?_
  rw [hg]
  refine (if_neg (not_chain_or_disabled hstrip he)).trans ((if_neg hc).trans ((if_neg ?_).trans ?_))
  · exact not_or.2 ⟨not_bnot_of_true hadm, not_bnot_of_true hserve⟩
  · conv_lhs => whnf; rw [hcl]
    refine (if_pos hcls).trans ?_
    conv_lhs => whnf; rw [hrest]

end

-- NODE LAUNCHES (02 R55)

/-- A node whose launch is due, on a core that may take it. -/
theorem exec_nodeLaunch_ready {node core : Nat} {w : Graph} {x : Node} (hw : g.graph = some w) (hx : w.nodes[node]? = some x)
    (hready : w.ready (s.gridWgs ctx grid) node = true) (hfits : s.nodeFits g core (min 32 x.count) = true) :
    exec (.nodeLaunch ctx grid node core) s =
      .next ((if g.strip.isSome then s else s.serve g).launchNode g w x node core (min 32 x.count)) := by
  have hkind : x.kind ≠ 3 := by rw [kind_of_ready hx hready]; decide
  show execNodeLaunch ctx grid node core s = _
  unfold execNodeLaunch
  rw [hg]
  conv_lhs => arg 1; whnf; rw [hw]; whnf; rw [hx]
  exact congrArg Host.Outcome.next ((if_neg hkind).trans (if_pos ⟨hready, hfits⟩))

end

-- RETIREMENT (02 R52, 11 R301)

/-- A strip chain's cores and slot go back as its grid begins to retire. -/
def State.beginRetire (s : State) (ctx grid : Nat) (g : Grid) : State :=
  match g.strip, g.handed with
  | some t, false => s.stripRetire (gridKey ctx grid) t
  | _, _ => s

/-- A grid leaves the device, and with it the low-resolution slots that it kept. -/
def State.leaveGrid (s : State) (g : Grid) : State :=
  match g.strip with
  | some t => (s.dropGrid g).sweepLow t.entry
  | none => s.dropGrid g

/-- The end of a grid, after its completion store where it has one. -/
def State.endRetire (z : State) (ctx grid : Nat) (g : Grid) : State :=
  if g.lr.completion = 0 ∨ (g.graph.map (·.abandoned)).getD false then z.leaveGrid g
  else match z.completeGrid g with
    | (u, none) => u.leaveGrid g
    | (u, some c) =>
      if c = .page then
        (u.modGrid ctx grid fun g => { g with held := true, handed := true }).postFault ctx
          { gridEvent 1 grid g.lr.completion.toNat (8 + accDetail .write) with cause := causeWord c false false } (.completion grid)
      else (u.leaveGrid g).post ctx false (gridEvent 6 grid g.lr.completion.toNat 0)

section
variable {z u : State} {g : Grid} (ctx grid : Nat)

/-- A grid without a completion address, and one of an abandoned graph, makes no store. -/
theorem endRetire_without_store (h : g.lr.completion = 0 ∨ (g.graph.map (·.abandoned)).getD false = true) :
    z.endRetire ctx grid g = z.leaveGrid g := if_pos h

variable (hc : g.lr.completion ≠ 0) (ha : (g.graph.map (·.abandoned)).getD false = false)
include hc ha

theorem endRetire_of_stored (hu : z.completeGrid g = (u, none)) : z.endRetire ctx grid g = u.leaveGrid g := by
  refine (if_neg (not_or.2 ⟨hc, ne_true_of_eq_false ha⟩)).trans ?_
  rw [hu]

/-- A fault of the store that is not a page's has the grid retire with a kind-6 event. -/
theorem endRetire_of_fault {c : Cause} (hu : z.completeGrid g = (u, some c)) (hp : c ≠ .page) :
    z.endRetire ctx grid g = (u.leaveGrid g).post ctx false (gridEvent 6 grid g.lr.completion.toNat 0) := by
  refine (if_neg (not_or.2 ⟨hc, ne_true_of_eq_false ha⟩)).trans ?_
  rw [hu]
  exact if_neg hp

/-- A page fault of the store holds the grid. -/
theorem endRetire_of_page (hu : z.completeGrid g = (u, some .page)) : z.endRetire ctx grid g =
    (u.modGrid ctx grid fun g => { g with held := true, handed := true }).postFault ctx
      { gridEvent 1 grid g.lr.completion.toNat (8 + accDetail .write) with cause := causeWord .page false false }
      (.completion grid) := by
  refine (if_neg (not_or.2 ⟨hc, ne_true_of_eq_false ha⟩)).trans ?_
  rw [hu]
  exact if_pos rfl

end

/-- A grid with nothing left to do retires. -/
theorem exec_gridRetire_retirable {s : State} {ctx grid : Nat} {g : Grid} (hg : s.grid ctx grid = some g)
    (hheld : g.held = false) (hres : (s.ctx ctx).resetting = false) (hret : s.retirable g = true)
    (hw : (s.ctx ctx).ev.waits.any (·.kind == 6) = false) :
    exec (.gridRetire ctx grid) s = .next ((s.beginRetire ctx grid g).endRetire ctx grid g) := by
  have hfree : ¬(g.held = true ∨ (s.ctx ctx).resetting = true ∨ (!s.retirable g) = true ∨
      (s.ctx ctx).ev.waits.any (·.kind == 6) = true) :=
    not_or.2 ⟨ne_true_of_eq_false hheld, not_or.2 ⟨ne_true_of_eq_false hres,
      not_or.2 ⟨not_bnot_of_true hret, ne_true_of_eq_false hw⟩⟩⟩
  show execGridRetire ctx grid s = _
  unfold execGridRetire
  rw [hg]
  exact congrArg Host.Outcome.next (if_neg hfree)

-- HELD EVENTS (11 R299)

/-- The oldest held event of a context is posted where its ring has room, and a source that waits has its own held. -/
theorem exec_heldEventPost_ctx {s : State} {c : Nat} {e : Event} {r : List Event} (hh : (s.ctx c).ev.held = e :: r)
    (hroom : (s.ctx c).evRoom = true) : exec (.heldEventPost (some c)) s =
    .next (((s.modCtx c fun x => { x with ev := { x.ev with held := r } }).ringEvent c e).holdNext c) := by
  show execHeldEventPost (some c) s = _
  unfold execHeldEventPost
  conv_lhs => arg 1; whnf; rw [hh]
  exact congrArg Host.Outcome.next (if_pos hroom)

/-- The device's oldest held event is posted where its ring has room. -/
theorem exec_heldEventPost_dev {s : State} {e : Event} {r : List Event} (hh : s.devq.held = e :: r)
    (hroom : s.devq.room = true) : exec (.heldEventPost none) s =
    .next (State.ringDevEvent { s with devq := { s.devq with held := r } } e) := by
  show execHeldEventPost none s = _
  unfold execHeldEventPost
  conv_lhs => arg 1; whnf; rw [hh]
  exact congrArg Host.Outcome.next (if_pos hroom)

-- RUN GRANTS (02 R37, R40, 05 R136)

/-- Whether a slot has just ended a run by a yield. -/
def State.justYielded (u : State) (core x : Nat) : Bool := ((u.skein core x).map (·.yielded)).getD false

/-- Whether a slot may have the grant: it is ready, and no vacate stops it. -/
def State.grantable (u : State) (core x : Nat) : Bool :=
  u.slotReady core x && !((u.skein core x).map fun k => u.stopped k.wgKey).getD false

/-- The slots that may have the grant, in the order in which they come. -/
def State.grantOrder (u : State) (core : Nat) (rot : List Nat) : List Nat :=
  ((rot.filter (u.grantable core)).filter fun x => !u.justYielded core x) ++
    (rot.filter (u.grantable core)).filter (u.justYielded core)

/-- A pipeline's run granted to a slot. -/
def State.grantRun (u : State) (core pipe x : Nat) : State :=
  let p := (u.core core).pipe pipe
  let step := ((u.skein core x).map fun k => decide (k.ready true ≠ [])).getD false
  (p.rot.foldl (fun s y => s.modSkein core y fun k => { k with yielded := false })
    (u.setCore core ((u.core core).setPipe pipe { p with
      run := some { slot := x, start := u.cycle, mhz := u.mon.mhz, step := step } }))).modSkein core x fun k => k.startRun step

/-- A list filtered begins with the first of its elements that the filter keeps. -/
theorem filter_append_cons_of_pos {α : Type} {f : α → Bool} {before after : List α} {x : α} (hb : ∀ y ∈ before, f y = false)
    (hx : f x = true) : (before ++ x :: after).filter f = x :: after.filter f := by
  rw [List.filter_append, List.filter_eq_nil_iff.2 fun y hy => ne_true_of_eq_false (hb y hy), List.nil_append, List.filter_cons_of_pos hx]

/-- A slot that may have the grant and has not yielded comes first where each before it is not ready or has yielded. -/
theorem grantOrder_first {u : State} {core x : Nat} {k : Skein} {before after : List Nat}
    (hb : ∀ y ∈ before, u.slotReady core y = false ∨ u.justYielded core y = true)
    (hready : u.slotReady core x = true) (hk : u.skein core x = some k) (hstop : u.stopped k.wgKey = false)
    (hy : k.yielded = false) : ∃ t, u.grantOrder core (before ++ x :: after) = x :: t := by
  have hbefore : ∀ y ∈ before, (!u.justYielded core y && u.grantable core y) = false := fun y h => by
    unfold State.grantable
    rcases hb y h with h | h <;> simp [h]
  have hx : (!u.justYielded core x && u.grantable core x) = true := by
    unfold State.justYielded State.grantable
    simp [hready, hk, hstop, hy]
  unfold State.grantOrder
  rw [List.filter_filter, filter_append_cons_of_pos hbefore hx]
  exact ⟨_, rfl⟩

/-- A pipeline without a run that no instruction occupies grants one to the first slot in order. -/
theorem exec_runGrant_first {s : State} {core pipe x : Nat} {t : List Nat} :
    let u := ((s.core core).pipe pipe).rot.foldl (fun s x => s.reap core x) s
    let p := (u.core core).pipe pipe
    p.run = none → p.busy ≤ u.cycle → u.grantOrder core p.rot = x :: t →
    exec (.runGrant core pipe) s = .next (u.grantRun core pipe x) := by
  intro u p hrun hbusy ht
  show execRunGrant core pipe s = _
  refine congrArg Host.Outcome.next ((if_neg (Nat.not_lt.2 hbusy)).trans ?_)
  show (match p.run, u.grantOrder core p.rot with
    | none, x :: _ => u.grantRun core pipe x
    | _, _ => u) = _
  rw [hrun, ht]

/-- Settles O48: each event is free to go by its conditions, and what it does then follows from the record, the grid or the pipeline. -/
theorem gridsAreLaunchedAndRetired : Obligations.GridsAreLaunchedAndRetired := by
  intro s
  refine ⟨fun ctx data hr hlt he hq hres hd hl => ?_,
    fun ctx data off hr hlt hoff he hq hres => ⟨launchRecordWrite_of_misshapen hr hlt hoff he hq hres,
      launchRecordWrite_of_full hr hlt hoff he hq hres⟩,
    fun ctx band pend u i bs depth parent he hres hb hw hbusy ho hhead => ?_,
    fun ctx grid cluster g cl hg hstrip he hc hadm hserve hcl =>
      ⟨exec_workgroupAdmit_next hg hstrip he hc hadm hserve hcl,
        fun rest => exec_workgroupAdmit_all hg hstrip he hc hadm hserve hcl⟩,
    fun g cl => admitOne_of_grid,
    fun ctx grid node core g w x hg hw hx => exec_nodeLaunch_ready hg hw hx,
    fun ctx grid g hg hheld hres hret hw => ?_,
    fun c e r => exec_heldEventPost_ctx, fun e r => exec_heldEventPost_dev, ?_⟩
  · rw [exec_launchRecordWrite_of_open hr hlt (Nat.zero_lt_succ _) he hq hres, if_neg (not_or.2 ⟨not_not.2 rfl, not_not.2 hd⟩), if_neg (Nat.not_le.2 hl)]
  · intro r run taken
    have hrun : run = .next (u.checkHead ctx band pend i bs depth parent) :=
      exec_launchHeadCheck_of_free he hres hb hw hbusy ho hhead
    rw [hrun]
    refine ⟨fun hh hf => ?_, fun hh hf => ?_, fun hh hf hk n hn => ?_, fun hf hk hn => ?_, fun hf hk =>
      ⟨fun v g hg hn => ?_, fun v g n hg hn hh => ?_, fun v hg hh => ?_, fun v c va hg => ?_⟩⟩
    · rw [checkHead_of_bad_fields hf, if_pos hh]
    · rw [checkHead_of_bad_fields hf, if_neg (ne_true_of_eq_false hh)]
    · rw [checkHead_of_kernel hf hk, admitHead_rejects hn hh]
    · exact congrArg Host.Outcome.next ((checkHead_of_kernel hf hk).trans (admitHead_takes hn))
    · exact congrArg Host.Outcome.next ((checkHead_of_graph hf hk hg).trans (admitHead_takes hn))
    · rw [checkHead_of_graph hf hk hg, admitHead_rejects hn hh]
    · rw [checkHead_rejects_descriptor hf hk hg hh]
    · rw [checkHead_holds hf hk hg]
  · rw [exec_gridRetire_retirable hg hheld hres hret hw]
    exact ⟨fun h => congrArg Host.Outcome.next (endRetire_without_store ctx grid h),
      fun u hc ha hu => congrArg Host.Outcome.next (endRetire_of_stored ctx grid hc ha hu),
      fun u c hc ha hu hp => congrArg Host.Outcome.next (endRetire_of_fault ctx grid hc ha hu hp),
      fun u hc ha hu => congrArg Host.Outcome.next (endRetire_of_page ctx grid hc ha hu)⟩
  · intro core pipe x k before after u p step hrun hbusy hrot hb hready hk hstop hy
    obtain ⟨t, ht⟩ := grantOrder_first (after := after) hb hready hk hstop hy
    rw [exec_runGrant_first hrun hbusy (hrot ▸ ht)]
    unfold State.grantRun
    rw [hk]
    rfl

end Sys2Proof.Machine
end
